-- ==== Sys2Proof/Word.lean ====
section
/-! DEFINITION. The word types of the V16 and their plainest arithmetic. -/
namespace Sys2Proof

/-- One byte of storage. -/
abbrev Byte := BitVec 8
/-- A 32-bit register value (R144, R145). -/
abbrev Word := BitVec 32
/-- A 64-bit value: an instruction word (R111), a pair, an address in computation (R172). -/
abbrev DWord := BitVec 64
/-- One bit for each of the 64 lanes of a slot (R35). -/
abbrev Lanes := BitVec 64

/-- The low word of a pair (R144). -/
def loWord (d : DWord) : Word := d.extractLsb' 0 32
/-- The high word of a pair (R144). -/
def hiWord (d : DWord) : Word := d.extractLsb' 32 32
/-- A pair from its high and low words (R144). -/
def mkPair (hi lo : Word) : DWord := hi ++ lo

end Sys2Proof
end

