-- ==== Sys2Proof/Config.lean ====
section
/-! DEFINITION. What one V16 fixes, and the free values: constants without a body, so that nothing can
be proved about the values that the manual leaves open. -/
namespace Sys2Proof.Config

/-- Compute dies of the package (R1). -/
def dies : Nat := 16
/-- Cores of a die (R1). -/
def cores : Nat := 192
/-- Issue slots of a core (R1). -/
def slots : Nat := 4
/-- Bytes of HBM homed on one die: three stacks of 64 GiB (R1). -/
def hbmBytes : Nat := 3 * 64 * 2 ^ 30
/-- Where Lysja writes the dump of die `d`, on the die that keeps it: 64 KiB for each die at the end of its HBM (R334). DESIGN
CHOICE, unsafe: the manual does not say where (log 101). -/
def dumpOffset (d : Nat) : Nat := hbmBytes - (dies - d) * 65536
/-- Bytes of a core's local array (R1, R185). -/
def localBytes : Nat := 524288
/-- The number of this package in the fabric, of 17 bits (R291 SELF). DESIGN CHOICE, safe: any number would do, and
nothing proves which it is (log 30). -/
opaque selfNumber : BitVec 17
/-- That number. -/
def selfPackage : Nat := selfNumber.toNat

/-- The free choice of one of several lawful outcomes: the lane that prevails (R175, R220), the old or
new value of a raced cell (R233, R362). Taken at the counter `free` of the state (log 6). -/
opaque pick : Nat → Nat
/-- Free bytes for the places that the manual calls unpredictable within old and new values (log 6). -/
opaque freeByte : Nat → Byte
/-- Which f32 of those within the bound of R380 an SFU function returns: by the function's opcode and the
input's bits, the same on every run (R171, R380; log 7). -/
opaque sfuPick : Nat → Word → Nat

/-- Bytes of the relay area that Lysja reserves (R293); the manual gives no size (log 61). -/
opaque relayBytes : Nat

/-- Where a frame of this package's space that other packages' page tables name (R176) lies: a die * 2^22 + a frame of 64 KiB of its
HBM. The manual does not lay that space out (log 92). -/
opaque peerFrame : Nat → Nat

/-- The fabric operator's key, under which the frames of the management channel go (R294). -/
opaque operatorKey : DWord

/-- The element of an MMA with s8 sources and a floating-point accumulator, for which the manual states no result:
by the accumulator type, the two rows of source elements and the incoming value, the same on every run (R166,
R171; log 32). -/
opaque mmaS8Float : Nat → List Nat → List Nat → Option Nat → Nat

end Sys2Proof.Config
end

