-- ==== Sys2Proof/Machine/SMap.lean ====
section
/-! DEFINITION. Finite maps as lists of pairs with strictly rising keys, and the byte memories built on them:
an unlisted address of a memory reads zero, and no zero is ever listed. -/
namespace Sys2Proof.Machine

/-- A finite map from numbers, kept with rising keys. -/
abbrev SMap (α : Type) := List (Nat × α)

/-- The value at a key, if one is listed. -/
def mget? {α : Type} : SMap α → Nat → Option α
  | [], _ => none
  | (k', v) :: m, k => if k' = k then some v else mget? m k

/-- The value at a key, `d` where none is listed. -/
def mget {α : Type} (d : α) (m : SMap α) (k : Nat) : α := (mget? m k).getD d

/-- The map with `v` at `k`. -/
def mput {α : Type} (m : SMap α) (k : Nat) (v : α) : SMap α :=
  match m with
  | [] => [(k, v)]
  | (k', v') :: t =>
    if k < k' then (k, v) :: (k', v') :: t
    else if k = k' then (k, v) :: t
    else (k', v') :: mput t k v

/-- The map with nothing at `k`. -/
def mdel {α : Type} (m : SMap α) (k : Nat) : SMap α :=
  match m with
  | [] => []
  | (k', v') :: t =>
    if k < k' then (k', v') :: t
    else if k = k' then t
    else (k', v') :: mdel t k

/-- The map with the value at `k`, if any, changed by `f`. -/
def mmod {α : Type} (m : SMap α) (k : Nat) (f : α → α) : SMap α :=
  m.map fun p => if p.1 = k then (p.1, f p.2) else p

/-- Every value changed by `f`. -/
def mmap {α : Type} (m : SMap α) (f : α → α) : SMap α := m.map fun p => (p.1, f p.2)

/-- Keys rise strictly. -/
def mwf {α : Type} : SMap α → Bool
  | [] => true
  | [_] => true
  | (k, _) :: (k', v') :: t => k < k' && mwf ((k', v') :: t)

/-- A byte memory: rising addresses, no zero listed. -/
abbrev Memory := List Host.Cell

/-- The canonical form of a memory: rising addresses, and no entry equal to what an unlisted address reads. -/
def Memory.wf (m : Memory) : Bool := mwf m && m.all fun c => c.2 != 0

/-- One byte of a memory; zero where nothing is listed (R32 step 2, R85; log 3). -/
def rdByte (m : Memory) (a : Nat) : Byte := mget 0 m a
/-- One byte written; the canonical form is kept. -/
def wrByte (m : Memory) (a : Nat) (b : Byte) : Memory := if b = 0 then mdel m a else mput m a b
/-- `n` bytes from address `a` on. -/
def rdBytes (m : Memory) (a n : Nat) : List Byte := (List.range n).map fun i => rdByte m (a + i)
/-- Bytes written from address `a` on. -/
def wrBytes (m : Memory) (a : Nat) : List Byte → Memory
  | [] => m
  | b :: bs => wrBytes (wrByte m a b) (a + 1) bs

/-- The number that bytes hold, the first least significant (R2). -/
def natOfBytes : List Byte → Nat
  | [] => 0
  | b :: bs => b.toNat + 256 * natOfBytes bs
/-- `n` bytes of a number, the first least significant (R2). -/
def bytesOfNat : Nat → Nat → List Byte
  | 0, _ => []
  | n + 1, v => BitVec.ofNat 8 v :: bytesOfNat n (v / 256)

end Sys2Proof.Machine
end

