-- ==== Sys2Proof/Formats.lean ====
section
/-! DEFINITION. The fields of the instruction formats (R111 to R121) and the names that events of the
table act on: plain data, one structure for each format, each field with the width the format gives it. -/
namespace Sys2Proof

/-- The type codes of R113, in code order. -/
inductive Ty where
  | u32 | s32 | u64 | s64 | u16x2 | s16x2 | f32 | f16
  | bf16 | f16x2 | bf16x2 | f64 | e4m3x4 | e5m2x4 | u8x4 | s8x4
deriving DecidableEq, Repr

/-- The common fields LA, PN and PG (R111). -/
structure Com where
  la : BitVec 4
  pn : Bool
  pg : BitVec 3
deriving DecidableEq, Repr

/-- Format R (R113). -/
structure FmtR where
  com : Com
  m   : BitVec 8
  cs  : Bool
  bsc : Bool
  as  : Bool
  ds  : Bool
  t   : Ty
  c   : BitVec 8
  b   : BitVec 8
  a   : BitVec 8
  d   : BitVec 8
deriving DecidableEq, Repr

/-- Format I (R114). -/
structure FmtI where
  com : Com
  imm : BitVec 24
  rm  : BitVec 2
  as  : Bool
  ds  : Bool
  t   : Ty
  a   : BitVec 8
  d   : BitVec 8
deriving DecidableEq, Repr

/-- Format L (R115), its zero bits [31:25] left out. -/
structure FmtL where
  com : Com
  imm : Word
  ds  : Bool
  d   : BitVec 8
deriving DecidableEq, Repr

/-- Format M (R116), its zero bits [55:53] left out. -/
structure FmtM where
  com : Com
  off : BitVec 8
  cp  : BitVec 2
  ord : BitVec 2
  sc  : BitVec 3
  sp  : Bool
  asb : Bool
  o   : Bool
  w   : BitVec 3
  b   : BitVec 8
  a   : BitVec 8
  d   : BitVec 8
deriving DecidableEq, Repr

/-- Format X (R117). -/
structure FmtX where
  com : Com
  sn  : BitVec 8
  sm  : BitVec 2
  pop : Bool
  bb  : Bool
  tc  : BitVec 2
  ta  : BitVec 3
  sh  : BitVec 3
  zc  : Bool
  ru  : Bool
  bo  : Bool
  bs  : Bool
  b   : BitVec 8
  a   : BitVec 8
  d   : BitVec 8
deriving DecidableEq, Repr

/-- Format B (R118). -/
structure FmtB where
  com  : Com
  rcv  : BitVec 16
  tgt  : BitVec 24
  kind : BitVec 4
  cond : BitVec 4
deriving DecidableEq, Repr

/-- Format E (R119). -/
structure FmtE where
  com : Com
  flg : BitVec 8
  qb  : BitVec 4
  sub : BitVec 4
  s3  : BitVec 8
  s2  : BitVec 8
  s1  : BitVec 8
  s0  : BitVec 8
deriving DecidableEq, Repr

/-- Format S (R120). -/
structure FmtS where
  com : Com
  imm : BitVec 16
  sys : BitVec 16
  a   : BitVec 8
  d   : BitVec 8
deriving DecidableEq, Repr

/-- The fields of an epilogue word above its operation code (R121). -/
structure FmtEp where
  imm : BitVec 6
  tm  : BitVec 4
  c   : BitVec 4
  b   : BitVec 4
  a   : BitVec 4
  d   : BitVec 4
deriving DecidableEq, Repr

/-- A split: its team's identifier in the model, its group's number in the team, its index. -/
structure Ref where
  team  : Nat
  group : Nat
  split : Nat
deriving DecidableEq, Repr

/-- A placement chosen by a die scheduler (R84): the task, the die and core, and a slot and base slice
for each group in group order. The local base is the start of the range of the local array (R185).
`victims` are the teams that the scheduler pre-empts first (R83, R93), `restore` a pre-empted team that
is put back instead of a new one (R324). -/
structure Placement where
  task    : Nat
  index   : Nat
  die     : Nat
  core    : Nat
  slots   : List (Nat × Nat)
  base    : Nat
  victims : List Nat
  restore : Option Nat
deriving DecidableEq, Repr

/-- A host access through BAR2 (R197): a store of `bytes` when `write`, else a read of as many. The
address is one that the driver's management table translates. -/
structure Bar2 where
  dev   : Nat
  write : Bool
  addr  : DWord
  bytes : List Byte
deriving DecidableEq, Repr

/-- The kinds of remote request (R430): 0 put, 1 get, 2 atomic. -/
abbrev ReqKind := Nat

/-- A fabric packet as it arrives (R292, R298, R301, R306): its channel, its sender, the connection's
EPOCH and base, its request's sequence number, how many sequence numbers just below it name requests that send nothing
(log 60), the byte of the request at which it starts, the window key, the window offset and length of its bytes, and its data
(for an atomic the operand, then the compare value). -/
structure Packet where
  channel : Nat
  src     : Nat
  dst     : Nat
  owner   : Nat
  key     : DWord
  conn    : Nat
  ctx     : Nat
  pctx    : Nat
  epoch   : Nat
  base    : Nat
  seq     : Nat
  gap     : Nat
  index   : Nat
  last    : Bool
  kind    : ReqKind
  aop     : Nat
  wkey    : Word
  offset  : DWord
  len     : Nat
  tag     : Word
  data    : List Byte
deriving DecidableEq, Repr

/-- What an acknowledgement says of one request (R297, R299): its sequence number, the byte below which all of it is
acknowledged, the status code, the bytes performed, and for a get or an atomic the bytes that came back. -/
structure AckItem where
  seq    : Nat
  upto   : Nat
  status : Nat
  done   : Nat
  data   : List Byte
  /-- The owner that sends it, that owner's key, and the channel on which it comes (R306). -/
  owner   : Nat := 0
  key     : BitVec 64 := 0
  channel : Nat := 0
deriving DecidableEq, Repr

/-- A mailbox command of function 0 (R25, R23, R30, R91, R197, R251, R296, R306, R315), by number with
its operands: 0 none, 1 start value of common time, 2 drain timeout, 3 power cap, 4 admit-table entry,
5 restore an isolated channel, 6 bind a work queue, 7 bind a remote queue, 8 create a context, 9 set
IBASE, 10 stage a firmware update, 11 set FLHEAD of a die, 12 set the management table. -/
structure Mailbox where
  cmd  : Nat
  args : List Nat
deriving DecidableEq, Repr

end Sys2Proof
end

