-- ==== Sys2Proof/Syntax.lean ====
section
/-! DEFINITION. The instructions and events of the opcode table: one constructor for each row. -/
namespace Sys2Proof

/-- One constructor for each row of the opcode table, in the table's order: instruction words with the
fields of their format (R113 to R120), epilogue words (R121), and the part's events, each with what it
acts on. -/
inductive Instr where
  /-- NOP (R415). -/
  | nop (c : Com)
  /-- IADD (R385). -/
  | iadd (f : FmtR)
  /-- IADD_IMM (R385). -/
  | iaddImm (f : FmtI)
  /-- ISUB (R385). -/
  | isub (f : FmtR)
  /-- ISUB_IMM (R385). -/
  | isubImm (f : FmtI)
  /-- IMUL (R385). -/
  | imul (f : FmtR)
  /-- IMUL_IMM (R385). -/
  | imulImm (f : FmtI)
  /-- IMAD (R385). -/
  | imad (f : FmtR)
  /-- IMIN (R385). -/
  | imin (f : FmtR)
  /-- IMIN_IMM (R385). -/
  | iminImm (f : FmtI)
  /-- IMAX (R385). -/
  | imax (f : FmtR)
  /-- IMAX_IMM (R385). -/
  | imaxImm (f : FmtI)
  /-- IABS (R385). -/
  | iabs (f : FmtR)
  /-- ICMP (R386). -/
  | icmp (f : FmtR)
  /-- ICMP_IMM (R386). -/
  | icmpImm (f : FmtI)
  /-- SHL (R439). -/
  | shl (f : FmtR)
  /-- SHL_IMM (R439). -/
  | shlImm (f : FmtI)
  /-- SHR (R439). -/
  | shr (f : FmtR)
  /-- SHR_IMM (R439). -/
  | shrImm (f : FmtI)
  /-- SAR (R439). -/
  | sar (f : FmtR)
  /-- SAR_IMM (R439). -/
  | sarImm (f : FmtI)
  /-- LOG3 (R396). -/
  | log3 (f : FmtR)
  /-- POPC (R422). -/
  | popc (f : FmtR)
  /-- CLZ (R359). -/
  | clz (f : FmtR)
  /-- BREV (R352). -/
  | brev (f : FmtR)
  /-- BFX (R346). -/
  | bfx (f : FmtR)
  /-- BFI (R346). -/
  | bfi (f : FmtR)
  /-- LEA (R393). -/
  | lea (f : FmtR)
  /-- SEL (R445). -/
  | sel (f : FmtR)
  /-- MOV (R409). -/
  | mov (f : FmtR)
  /-- MOVI (R410). -/
  | movi (f : FmtL)
  /-- FADD (R377). -/
  | fadd (f : FmtR)
  /-- FADD_IMM (R377). -/
  | faddImm (f : FmtI)
  /-- FMUL (R377). -/
  | fmul (f : FmtR)
  /-- FMUL_IMM (R377). -/
  | fmulImm (f : FmtI)
  /-- FFMA (R377). -/
  | ffma (f : FmtR)
  /-- FMIN (R377). -/
  | fmin (f : FmtR)
  /-- FMIN_IMM (R377). -/
  | fminImm (f : FmtI)
  /-- FMAX (R377). -/
  | fmax (f : FmtR)
  /-- FMAX_IMM (R377). -/
  | fmaxImm (f : FmtI)
  /-- FCMP (R378). -/
  | fcmp (f : FmtR)
  /-- FCMP_IMM (R378). -/
  | fcmpImm (f : FmtI)
  /-- FRCP (R379). -/
  | frcp (f : FmtR)
  /-- FRSQ (R379). -/
  | frsq (f : FmtR)
  /-- FSQRT (R379). -/
  | fsqrt (f : FmtR)
  /-- FEX2 (R379). -/
  | fex2 (f : FmtR)
  /-- FLG2 (R379). -/
  | flg2 (f : FmtR)
  /-- FSIN (R379). -/
  | fsin (f : FmtR)
  /-- FCOS (R379). -/
  | fcos (f : FmtR)
  /-- FTANH (R379). -/
  | ftanh (f : FmtR)
  /-- CVT (R363). -/
  | cvt (f : FmtR)
  /-- CVTEF (R365). -/
  | cvtef (f : FmtR)
  /-- PACK4 (R416). -/
  | pack4 (f : FmtR)
  /-- UNPK4 (R460). -/
  | unpk4 (f : FmtR)
  /-- SHFL (R447). -/
  | shfl (f : FmtR)
  /-- VOTE (R461). -/
  | vote (f : FmtR)
  /-- REDG (R434). -/
  | redg (f : FmtR)
  /-- SCANG (R440). -/
  | scang (f : FmtR)
  /-- LD (R390). -/
  | ld (f : FmtM)
  /-- ST (R448). -/
  | st (f : FmtM)
  /-- LDRSV (R392). -/
  | ldrsv (f : FmtM)
  /-- STCND (R453). -/
  | stcnd (f : FmtM)
  /-- ATOM (R342). -/
  | atom (f : FmtM)
  /-- ATCAS (R341). -/
  | atcas (f : FmtM)
  /-- RED (R433). -/
  | red (f : FmtM)
  /-- FENCE (R213). -/
  | fence (f : FmtM)
  /-- PREF (R423). -/
  | pref (f : FmtM)
  /-- STASHM (R450). -/
  | stashm (f : FmtM)
  /-- STASHW (R450). -/
  | stashw (f : FmtM)
  /-- STASHU (R450). -/
  | stashu (f : FmtM)
  /-- CPY (R360). -/
  | cpy (f : FmtE)
  /-- CPYT (R360). -/
  | cpyt (f : FmtE)
  /-- CLOSEB (R358). -/
  | closeb (f : FmtE)
  /-- WAITB (R462). -/
  | waitb (f : FmtE)
  /-- BUFCFG (R355). -/
  | bufcfg (f : FmtE)
  /-- BUFWAIT (R356). -/
  | bufwait (f : FmtE)
  /-- BUFREL (R356). -/
  | bufrel (f : FmtE)
  /-- LNSTART (R394). -/
  | lnstart (f : FmtE)
  /-- LNSTOP (R394). -/
  | lnstop (f : FmtE)
  /-- MMA (R406). -/
  | mma (f : FmtX)
  /-- MMAS (R406). -/
  | mmas (f : FmtX)
  /-- MDRAIN (R401). -/
  | mdrain (f : FmtE)
  /-- EPLOAD (R374). -/
  | epload (f : FmtE)
  /-- BRA (R350). -/
  | bra (f : FmtB)
  /-- BRX (R353). -/
  | brx (f : FmtB)
  /-- CALL (R357). -/
  | call (f : FmtB)
  /-- RET (R435). -/
  | ret (f : FmtB)
  /-- RET_T (R313). -/
  | retT (f : FmtB)
  /-- MERGE (R404). -/
  | merge (f : FmtB)
  /-- LOOP (R397). -/
  | loop (f : FmtB)
  /-- EXIT (R376). -/
  | exit (f : FmtB)
  /-- YIELD (R465). -/
  | yield (f : FmtB)
  /-- TRAP (R459). -/
  | trap (f : FmtS)
  /-- BKPT (R349). -/
  | bkpt (f : FmtB)
  /-- BAR (R344). -/
  | bar (f : FmtE)
  /-- BARA (R344). -/
  | bara (f : FmtE)
  /-- BARW (R344). -/
  | barw (f : FmtE)
  /-- MOVSR (R411). -/
  | movsr (f : FmtS)
  /-- MOVSR_WRITE (R411). -/
  | movsrWrite (f : FmtS)
  /-- MOVSV (R414). -/
  | movsv (f : FmtS)
  /-- TIME (R457). -/
  | time (f : FmtS)
  /-- CYCLE (R366). -/
  | cycle (f : FmtS)
  /-- PGDIST (R419). -/
  | pgdist (f : FmtS)
  /-- SETFMT (R446). -/
  | setfmt (f : FmtS)
  /-- RAG (R429). -/
  | rag (f : FmtE)
  /-- RRS (R429). -/
  | rrs (f : FmtE)
  /-- RHND (R429). -/
  | rhnd (f : FmtE)
  /-- RWAIT (R437). -/
  | rwait (f : FmtE)
  /-- RRANK (R436). -/
  | rrank (f : FmtE)
  /-- RPUT (R432). -/
  | rput (f : FmtE)
  /-- RGET (R432). -/
  | rget (f : FmtE)
  /-- RATOM (R432). -/
  | ratom (f : FmtE)
  /-- RPOST (R432). -/
  | rpost (f : FmtE)
  /-- RPOST_GET (R432). -/
  | rpostGet (f : FmtE)
  /-- RCQW (R432). -/
  | rcqw (f : FmtE)
  /-- WREG (R464). -/
  | wreg (f : FmtE)
  /-- WREV (R464). -/
  | wrev (f : FmtE)
  /-- TASKNEW (R455). -/
  | tasknew (f : FmtE)
  /-- TASKDEC (R455). -/
  | taskdec (f : FmtE)
  /-- TEMIT (R456). -/
  | temit (f : FmtE)
  /-- QPULL (R427). -/
  | qpull (f : FmtE)
  /-- QPUSH (R428). -/
  | qpush (f : FmtE)
  /-- QPUSH_CLOSE (R428). -/
  | qpushClose (f : FmtE)
  /-- ARRV (R339). -/
  | arrv (f : FmtE)
  /-- SNEW (R441). -/
  | snew (f : FmtE)
  /-- SRES (R261). -/
  | sres (f : FmtE)
  /-- SCOMMIT (R263). -/
  | scommit (f : FmtE)
  /-- SFORK (R265). -/
  | sfork (f : FmtE)
  /-- SLEN (R264). -/
  | slen (f : FmtE)
  /-- SREL (R267). -/
  | srel (f : FmtE)
  /-- SSEEK (R269). -/
  | sseek (f : FmtE)
  /-- KST (R387). -/
  | kst (f : FmtE)
  /-- BGATH (R347). -/
  | bgath (f : FmtE)
  /-- PROJLD (R425). -/
  | projld (f : FmtE)
  /-- PROJLD_FREE (R425). -/
  | projldFree (f : FmtE)
  /-- FLPOP (R382). -/
  | flpop (f : FmtE)
  /-- FLPUSH (R382). -/
  | flpush (f : FmtE)
  /-- PFXFIND (R418). -/
  | pfxfind (f : FmtE)
  /-- PFXINS (R418). -/
  | pfxins (f : FmtE)
  /-- HASHB (R384). -/
  | hashb (f : FmtE)
  /-- PLCQ (R421). -/
  | plcq (f : FmtE)
  /-- PLCQ_SHORT (R421). -/
  | plcqShort (f : FmtE)
  /-- EPADD (R368). -/
  | epadd (f : FmtEp)
  /-- EPMUL (R368). -/
  | epmul (f : FmtEp)
  /-- EPFMA (R368). -/
  | epfma (f : FmtEp)
  /-- EPMAX (R368). -/
  | epmax (f : FmtEp)
  /-- EPMIN (R368). -/
  | epmin (f : FmtEp)
  /-- EPEXP (R368). -/
  | epexp (f : FmtEp)
  /-- EPLUT (R369). -/
  | eplut (f : FmtEp)
  /-- EPCVT (R370). -/
  | epcvt (f : FmtEp)
  /-- EPBIAS (R371). -/
  | epbias (f : FmtEp)
  /-- EPSCL (R368). -/
  | epscl (f : FmtEp)
  /-- EPST (R372). -/
  | epst (f : FmtEp)
  /-- EPEND (R373). -/
  | epend
  /-- CLAUSE_BEGIN (R130). -/
  | clauseBegin (r : Ref)
  /-- SPLIT_MERGE (R55). -/
  | splitMerge (r : Ref) (other : Nat)
  /-- MERGE_COMPLETE (R58). -/
  | mergeComplete (team : Nat) (group : Nat)
  /-- PARK_TIMEOUT (R57). -/
  | parkTimeout (r : Ref)
  /-- FAIRNESS_YIELD (R66). -/
  | fairnessYield (r : Ref)
  /-- LOAD_RETURN (R108). -/
  | loadReturn (team : Nat) (op : Nat) (ext : List Byte)
  /-- STORE_PERFORMED (R108). -/
  | storePerformed (team : Nat) (op : Nat)
  /-- SPLIT_EXIT_COMPLETE (R326). -/
  | splitExitComplete (r : Ref)
  /-- MATRIX_OP_COMPLETE (R231). -/
  | matrixOpComplete (core : Nat) (op : Nat)
  /-- MATRIX_PASS_START (R233). -/
  | matrixPassStart (core : Nat) (op : Nat)
  /-- DRAIN_ROW (R237). -/
  | drainRow (core : Nat)
  /-- EPILOGUE_PLACE_TAKE (R240). -/
  | epiloguePlaceTake (team : Nat) (place : Nat)
  /-- COPY_COMPLETE (R362). -/
  | copyComplete (team : Nat) (cmd : Nat)
  /-- ENGINE_COMMAND_START (R222). -/
  | engineCommandStart (team : Nat) (cmd : Nat)
  /-- ENGINE_COMMAND_COMPLETE (R108). -/
  | engineCommandComplete (team : Nat) (cmd : Nat)
  /-- BUFFER_ENTRY_TAKE (R242). -/
  | bufferEntryTake (team : Nat) (cmd : Nat)
  /-- BUFCFG_TAKE_EFFECT (R355). -/
  | bufcfgTakeEffect (team : Nat) (cmd : Nat)
  /-- WINDLASS_RUN_START (R244). -/
  | windlassRunStart (team : Nat)
  /-- WINDLASS_ITERATION (R246). -/
  | windlassIteration (team : Nat)
  /-- QPULL_WAKE (R92). -/
  | qpullWake (r : Ref)
  /-- QPUSH_APPEND (R428). -/
  | qpushAppend (team : Nat) (cmd : Nat)
  /-- PROJLD_TAKE_EFFECT (R425). -/
  | projldTakeEffect (team : Nat) (cmd : Nat)
  /-- DIE_SCHEDULER_PLACE (R82). -/
  | dieSchedulerPlace (p : Placement)
  /-- TASK_BLOCKING (R82). -/
  | taskBlocking (die : Nat) (task : Nat)
  /-- STARVATION_FORCED_PLACEMENT (R100). -/
  | starvationForcedPlacement (ctx : Nat) (p : Placement)
  /-- TEAM_COMPLETION_EVENT (R79). -/
  | teamCompletionEvent (team : Nat)
  /-- GRAPH_RECORD_WRITTEN (R88). -/
  | graphRecordWritten (team : Nat) (cmd : Nat)
  /-- GRAPH_NODE_LAUNCH (R89). -/
  | graphNodeLaunch (p : Placement)
  /-- GRAPH_FLUSH_TIMEOUT (R89). -/
  | graphFlushTimeout (p : Placement)
  /-- HOST_TASK_DOORBELL (R78). -/
  | hostTaskDoorbell (ctx : Nat) (rec : DWord)
  /-- STASH_RECALL (R191). -/
  | stashRecall (team : Nat) (win : Nat) (line : Nat)
  /-- WEATHERVANE_DECAY (R215). -/
  | weathervaneDecay (die : Nat)
  /-- MIGRATION_REQUEST (R180). -/
  | migrationRequest (die : Nat) (ctx : Nat) (vpn : Nat)
  /-- TLB_INVALIDATE_COMMAND (R181). -/
  | tlbInvalidateCommand (ctx : Nat) (lo : Nat) (len : Nat)
  /-- HOST_BAR2_ACCESS (R197). -/
  | hostBar2Access (a : Bar2)
  /-- HOST_CONTEXT_RESUME (R183). -/
  | hostContextResume (ctx : Nat)
  /-- HOST_CONTEXT_SWITCH (R325). -/
  | hostContextSwitch (ctx : Nat) (die : Nat)
  /-- CONTEXT_END (R315). -/
  | contextEnd (ctx : Nat)
  /-- HOST_SET_DEBUG_MODE (R314), with the context's address breakpoints, at most four (R327). -/
  | hostSetDebugMode (ctx : Nat) (mode : Nat) (breaks : List DWord)
  /-- TEAM_STOP (R327). -/
  | teamStop (ctx : Nat) (team : Nat)
  /-- HOST_SINGLE_STEP (R329). -/
  | hostSingleStep (r : Ref)
  /-- HOST_RESUME_GROUP (R329). -/
  | hostResumeGroup (team : Nat) (group : Nat)
  /-- FRAME_RECEIVE (R10): whether the frame passes its check after its FEC has corrected it. -/
  | frameReceive (chan : Nat) (seq : Nat) (ok : Bool)
  /-- FRAME_REPLAY (R10). -/
  | frameReplay (chan : Nat)
  /-- CHANNEL_RETIRE (R11). -/
  | channelRetire (chan : Nat)
  /-- REQUEST_ARRIVE (R12). -/
  | requestArrive (src : Nat) (dst : Nat) (seq : Nat)
  /-- DIE_HEARTBEAT_TIMEOUT (R15). -/
  | dieHeartbeatTimeout (die : Nat)
  /-- DIE_FATAL_ERROR (R15). -/
  | dieFatalError (die : Nat)
  /-- DIE_OVERTEMP (R31). -/
  | dieOvertemp (die : Nat)
  /-- WRAP_EFFECT (R288). -/
  | wrapEffect
  /-- PARTITION_REFORM (R19). -/
  | partitionReform (dev : Nat)
  /-- HOST_DUMP_ACK (R334). -/
  | hostDumpAck
  /-- PARTMODE_REQUEST (R23). -/
  | partmodeRequest (value : Word)
  /-- MODE_CHANGE_COMPLETE (R23). -/
  | modeChangeComplete
  /-- MODE_CHANGE_DRAIN_TIMEOUT (R23). -/
  | modeChangeDrainTimeout
  /-- TIME_SYNC_MESSAGE (R24). -/
  | timeSyncMessage (die : Nat) (skew : Nat)
  /-- TIME_MASTER_FAILOVER (R26). -/
  | timeMasterFailover
  /-- POWER_ON_BRINGUP (R32). -/
  | powerOnBringup (stored : Nat) (failed : Nat)
  /-- POWER_CAP_SET (R30). -/
  | powerCapSet (watts : Nat)
  /-- POWER_GATING (R30): the dies whose matrix and whose vector issue is gated. -/
  | powerGating (matrix : List Nat) (vector : List Nat)
  /-- THERMAL_LIMIT (R31). -/
  | thermalLimit
  /-- FIRMWARE_BANK_SWITCH (R33). -/
  | firmwareBankSwitch
  /-- MAILBOX_COMMAND (R33). -/
  | mailboxCommand (m : Mailbox)
  /-- HEALTH_SAMPLE (R33). -/
  | healthSample (corrected : Nat)
  /-- LYSJA_WATCHDOG_TAKEOVER (R34). -/
  | lysjaWatchdogTakeover
  /-- LANE_FAILURE (R331). -/
  | laneFailure (core : Nat) (slot : Nat) (lane : Nat)
  /-- ECC_CORRECTED (R332). -/
  | eccCorrected (count : Nat)
  /-- ECC_UNCORRECTABLE (R332). -/
  | eccUncorrectable (owner : Option Nat) (die : Nat) (kind : Nat)
  /-- RING_TILE_ARRIVE (R282). -/
  | ringTileArrive (cmd : Nat) (tile : Nat)
  /-- RING_TILE_ACCEPT (R285). -/
  | ringTileAccept (cmd : Nat) (tile : Nat)
  /-- RWAIT_SATISFIED (R283). -/
  | rwaitSatisfied (r : Ref)
  /-- FABRIC_SLOT_BEGIN (R290): the ordinal of the slot since START, and the channels on which the peer's table disagrees (R291). -/
  | fabricSlotBegin (slot : Nat) (dark : List Nat)
  /-- SLOTTAB_ENABLE (R291). -/
  | slottabEnable (ctx : Nat) (value : DWord)
  /-- SLOTTAB_DISABLE (R291). -/
  | slottabDisable (value : DWord)
  /-- SLOT_TABLE_TAKE_EFFECT (R291). -/
  | slotTableTakeEffect
  /-- FABRIC_PACKET_RECEIVE (R298). -/
  | fabricPacketReceive (p : Packet)
  /-- RELAY_FORWARD (R293). -/
  | relayForward (p : Packet)
  /-- FABRIC_ACK_RECEIVE (R299). -/
  | fabricAckReceive (queue : Nat) (epoch : Nat) (items : List AckItem)
  /-- FABRIC_RETRANSMIT (R299). -/
  | fabricRetransmit (queue : Nat)
  /-- CONNECTION_RESET (R299). -/
  | connectionReset (queue : Nat)
  /-- RPOST_DEADLINE (R303). -/
  | rpostDeadline (queue : Nat)
  /-- RCQW_SATISFIED (R304). -/
  | rcqwSatisfied (queue : Nat)
  /-- CHANNEL_ISOLATION (R306). -/
  | channelIsolation (chan : Nat)
  /-- SYSTEM_REGISTER_WRITE (R412). -/
  | systemRegisterWrite (die : Nat) (ctx : Nat) (id : Nat) (value : DWord)
  /-- IN_SERVICE_TEST (R331). -/
  | inServiceTest (core : Nat)
deriving DecidableEq, Repr

end Sys2Proof
end

