-- ==== Sys2Proof/Machine/State.lean ====
section
/-! DEFINITION. The state of one V16 package, all of it, as plain data; the reasons for which a step can stop;
and the state after reset. -/
namespace Sys2Proof.Machine

/-- Why the machine stops with a fault. -/
inductive Fault where
  /-- An instruction word is to issue, but `turn` names no live split: nothing of the part is to act. Raised by
  every meaning of an instruction row. Safe: the machine does nothing where the part has no such agent. -/
  | noSplit
  /-- An epilogue word is to run, but `turn` names no epilogue processor. Raised by the epilogue rows. Safe. -/
  | noEpilogue
deriving DecidableEq, Repr

/-- Why the machine refuses. -/
inductive Refusal where
  /-- The instruction with this mnemonic has no meaning in the model yet. Raised by `exec`'s refused arms. Safe. -/
  | notModelled (mnemonic : String)
deriving DecidableEq, Repr

/-- Trap causes (R309). -/
inductive Cause where
  | pageflt | flempty | swtrap | dense | bkpt | illop | illclause | hazard | mmask | divdepth | align | prot
  | committed | strand | remote | ecc | epill | ringwrap
deriving DecidableEq, Repr

/-- One open loop level (R37, R147): body start, exit address, counter. -/
structure Loop where
  start : DWord
  exit  : DWord
  lc    : Word
deriving DecidableEq, Repr

/-- An overflow entry (R52). -/
structure Ovf where
  pend   : Option Lanes
  resume : DWord
  join   : Option Lanes
  x      : DWord
  fmt    : BitVec 16
  loops  : List Loop
deriving DecidableEq, Repr

/-- An entry record (R317). -/
structure Entry where
  pc    : DWord
  ridx  : Nat
  mask  : Lanes
  ovf   : List Ovf
  loops : List Loop
  fmt   : BitVec 16
  drec  : Option Nat
deriving DecidableEq, Repr

/-- The six completion counters (R108), each as the list of the outstanding operations that it counts: the
counter's value is the length, and one completion takes the operation out of every copy (R49, R55). -/
structure Ctrs where
  ldc : List Nat := []
  stc : List Nat := []
  cpc : List Nat := []
  mxc : List Nat := []
  enc : List Nat := []
  rmc : List Nat := []
deriving DecidableEq, Repr

/-- A pending long-latency write with its open lookahead window (R124, R125): the instructions that may still
issue inside the window, whether the write has landed, the destination registers, and the values they held
before the instruction (vector keys are lane * 256 + register). -/
structure Pend where
  id     : Nat
  window : Nat
  landed : Bool
  dv     : List Nat := []
  ds     : List Nat := []
  dp     : List Nat := []
  oldV   : SMap Word := []
  oldS   : SMap Word := []
  oldP   : SMap Lanes := []
deriving DecidableEq, Repr

/-- Where a split is parked. -/
inductive Park where
  | none
  /-- BAR or BARW: waits until the team's barrier has left the phase (R64). -/
  | bar (b phase : Nat)
  /-- QPULL on an empty open queue, the operation that waits (R92). -/
  | qpull (op : Nat)
  /-- RWAIT, BUFWAIT and WAITB, the operation that waits (R437, R356, R462). -/
  | rwait (op : Nat)
  | bufwait (op : Nat)
  | waitb (op : Nat)
  /-- The reconvergence park of R57. -/
  | reconv
  /-- A MERGE (R58), with the cycle in which the split parked there * 4 + its index, which orders the parked splits. -/
  | merge (seq : Nat)
  /-- Held with a user trap until no handler runs in the group; then the trap is raised again (R311): cause,
  detail, resume point. -/
  | handler (cause : Cause) (detail : Word) (resume : DWord)
  /-- After a resumable trap, until the host driver resumes the context (R183, R257). -/
  | fault
  /-- EXIT has emptied the mask; work in flight remains (R326). -/
  | exit
deriving DecidableEq, Repr

/-- A split (R37). While a clause is open, `pc` is its header's address, `code` its words not yet issued, `idx`
the index of the next, `next` the address after its last word. -/
structure Split where
  pc     : DWord
  mask   : Lanes
  loops  : List Loop := []
  fmt    : BitVec 16 := 0
  drec   : Option Nat := none
  ovf    : List Ovf := []
  ctrs   : Ctrs := {}
  /-- Arrivals of the current phase and those held for the next (R62): barrier to operand and order. -/
  arr    : SMap (Nat × Nat) := []
  held   : SMap (Nat × Nat) := []
  pend   : List Pend := []
  entry  : Option Entry := none
  /-- The region that the split runs: RIDX of the last clause with RE that it, or the split that it left, began (R106). -/
  ridx   : Nat := 0
  /-- The next clause must have RE (R105). -/
  needRe : Bool := false
  park   : Park := .none
  /-- Cycles parked (R57). -/
  parked : Nat := 0
  /-- A park at X was left since the split last issued (R57). -/
  left   : Bool := false
  /-- Copies of the open batch (R358). -/
  batch  : List Nat := []
  /-- Cycles since the split last began a clause (R94), hold-off left (R98), cycles of continuous issue while a ready sibling
  was refused a port (R66). -/
  age    : Nat := 0
  hold   : Nat := 0
  cont   : Nat := 0
  opn    : Bool := false
  code   : List DWord := []
  idx    : Nat := 0
  next   : DWord := 0
  yld    : Bool := false
  /-- Where the clause goes when it ends, after a LOOP of count 0 (R398). -/
  jump   : Option DWord := none
  /-- When the split arrived at the current pc (R56): the cycle * 4 + the split's index. The rule does not say which of two arrivals
  of one cycle is the earlier: DESIGN CHOICE, the lower index, as R58 has it for parks at a MERGE (log 110). -/
  since  : Nat := 0
  /-- Accesses before the split's last merge: every later one comes after them (R204). -/
  after  : List Nat := []
  /-- The widest scope of a read of the split so far, as 1 + its level of visibility; 0 for none (R208). -/
  rdScope : Nat := 0
  /-- One clause may issue by a single-step command (R329). -/
  step   : Bool := false
  /-- The split has hit the address breakpoint at `pc` and halted its group; a resume or step has passed it (R327, R329). -/
  hit    : Bool := false
  passed : Bool := false
  /-- The split waits inside its open clause, off its port (R64); it takes a port again before the next word. -/
  waits  : Bool := false
  /-- Its next word stalls on the port behind an earlier command of its team (R222), as one that has not begun (R323). -/
  stalls : Bool := false
  /-- The scalars that other splits have written since the entry record, and those that read otherwise since a restart (R321). -/
  foreign : List Nat := []
  stale  : SMap Word := []
  /-- Scalars as they stood before another split wrote them while this split's clause was open: the clause sees these (R40). -/
  seen   : SMap Word := []
  /-- Vector registers that the region restarted after a pre-emption does not list, by lane and register: what its clauses read there
  (R141), and what they will from its entry clause on. -/
  staleV : SMap Word := []
  lost   : SMap Word := []
deriving DecidableEq, Repr

/-- A divergence record (R49). -/
structure DivRec where
  fmt    : BitVec 16
  x      : Option DWord
  parent : Option Nat
deriving DecidableEq, Repr

/-- The system registers held per group (R150). -/
structure GroupRegs where
  trapvec  : DWord := 0
  trapinfo : DWord := 0
  trappc   : DWord := 0
  sctba    : DWord := 0
  scsba    : DWord := 0
  scga     : Word := 0
  sctbb    : DWord := 0
  scsbb    : DWord := 0
  scgb     : Word := 0
  epprog   : Word := 0
  epconst  : DWord := 0
deriving DecidableEq, Repr

/-- A latched A fragment (R234): its base register, shape and type, and the registers of the octet's lanes. -/
structure Latch where
  base  : Nat
  shape : Nat
  ty    : Nat
  words : List (List Word)
deriving DecidableEq, Repr

/-- A group (R36, R37, R44). -/
structure Group where
  role    : Nat
  roleIdx : Nat
  width   : Nat
  budget  : Nat
  slot    : Nat
  base    : Nat
  /-- Vector registers: lane * 256 + register; unlisted registers hold zero (R38). -/
  v       : SMap Word := []
  /-- Predicates p0 to p6, one bit for each lane; unlisted ones are clear (R38). -/
  p       : SMap Lanes := []
  /-- Scalar registers; unlisted ones hold zero (R38). -/
  s       : SMap Word := []
  /-- Reservations (R219): lane to granule. -/
  resv    : SMap Nat := []
  regs    : GroupRegs := {}
  /-- The trap entry record (R312), and the split that runs the handler (R311). -/
  trapEntry : Option Entry := none
  handler : Option Nat := none
  recs    : SMap DivRec := []
  nextRec : Nat := 0
  exited  : Lanes := 0
  splits  : SMap Split := []
  /-- Batches (R358): the next number, and the copies of each closed batch that are not complete. -/
  batchNo : Nat := 0
  closed  : SMap (List Nat) := []
  /-- A latches by octet (R234). -/
  latch   : SMap Latch := []
  /-- The phase in which the group last arrived, by barrier (R64). -/
  phase   : SMap Nat := []
  halted  : Bool := false
  recBase : Word := 0
  recCnt  : Word := 0
  /-- Values that registers have held, vector ones by lane and register and scalar ones (R141, R321): those that a resumption may
  find in them. -/
  pastV   : SMap (List Word) := []
  pastS   : SMap (List Word) := []
  /-- The number of barrier arrivals so far, to order them (R63), and the cycles in which the group was resident (R56, R58). -/
  clock   : Nat := 0
  cyc     : Nat := 0
  ended   : Bool := false
deriving DecidableEq, Repr

/-- A team barrier (R61). The phase bit is `phase % 2`. -/
structure Barrier where
  e     : Nat := 0
  count : Nat := 0
  phase : Nat := 0
deriving DecidableEq, Repr

/-- A filled line of a stash window (R189): its HBM address and whether it is dirty. -/
structure StashLine where
  pa    : Nat
  dirty : Bool
deriving DecidableEq, Repr

/-- A stash window (R188), with the group, split and entry clause of the STASHM that mapped it (R451). -/
structure StashWin where
  lo    : Nat
  len   : Nat
  ga    : Nat
  group : Nat
  split : Nat
  entry : Option DWord
  /-- Filled lines by line number in the window, and the lines ever filled (R192). -/
  lines : SMap StashLine := []
  ever  : List Nat := []
deriving DecidableEq, Repr

/-- Where a team is. -/
inductive TeamStatus where
  /-- `ending`: its context has ended and begun work runs to completion (R315). -/
  | resident | saved | ending
deriving DecidableEq, Repr

/-- Where the bytes of one lane's access lie: in HBM, in the team's local array, or at a peer package (R180). -/
inductive Place where
  | hbm (pa : Nat)
  | arr (off : Nat)
  | peer (pkg off : Nat)
deriving DecidableEq, Repr

/-- One lane of a memory operation: the lane, its virtual address, its place, the data it stores or combines
and the value it compares. -/
structure LaneOp where
  lane  : Nat
  va    : Nat
  place : Place
  data  : Nat
  cmp   : Nat
deriving DecidableEq, Repr

/-- The kinds of memory operation. -/
inductive MemKind where
  | ld | st | ldrsv | stcnd | atom | atcas | red
  /-- A STASHM whose mapping stands (R451). -/
  | stashMap
  /-- STASHW and STASHU write-backs (R190): the window; `true` unmaps it. -/
  | stash (win : Nat) (unmap : Bool)
deriving DecidableEq, Repr

/-- A memory operation issued and not yet performed (R108, R204). `deps` are the operations that must be
performed before it. `aop` is AOP as R116 codes it. -/
structure MemOp where
  kind  : MemKind
  group : Nat
  split : Nat
  bytes : Nat
  dreg  : Nat
  sc    : Nat
  ord   : Nat
  cp    : Nat
  aop   : Nat
  lanes : List LaneOp
  deps  : List Nat
  /-- The accesses of single lanes made ahead of the rest (R175, R202): lane * 2 + half, and the value that came back. -/
  part  : SMap Nat := []
deriving DecidableEq, Repr

/-- A store that its own group has made and that is not at its home slice yet (R206 to R210): who made it, where and what it
writes, which other agents see it (0 its group, 1 its team, 2 its die, 3 its device), and up to which of these levels it acts as a
release (4 for the home slice, none without a release). `bypass` is CP = 3. -/
structure Buffered where
  id     : Nat
  team   : Nat
  group  : Nat
  ctx    : Nat
  die    : Nat
  core   : Nat
  level  : Nat := 0
  rel    : Option Nat := none
  va     : Nat
  pa     : Nat
  bytes  : List Byte
  bypass : Bool := false
deriving DecidableEq, Repr

/-- Bytes of global memory that the groups of a core still read as they stood, though later writes have been made elsewhere (R210): the
core, where they lie, and the bytes; the releases made since then by groups of other cores, each by its die, its level of visibility
and the bytes that it wrote (none for a fence); and whether an agent other than a group has written to memory since. -/
structure View where
  core  : Nat
  pa    : Nat
  bytes : List Byte
  rels  : List (Nat × Nat × Option (Nat × Nat)) := []
  eng   : Bool := false
deriving DecidableEq, Repr

/-! ### Engine commands, buffers and the windlass (08, 09, 13) -/

/-- One range of a footprint (R222): where it starts, its bytes, and whether the command writes it. `strand` marks the header of a
strand on which the command operates: two such commands of a team keep their issue order whether or not they write it (R258). -/
structure Foot where
  place : Place
  len   : Nat
  write : Bool
  strand : Bool := false
deriving DecidableEq, Repr

/-- A piece of a copy (R362): 32-bit word w of the piece goes from src + 4w to dst + w * step. -/
structure Seg where
  src  : Place
  dst  : Place
  len  : Nat
  step : Nat
deriving DecidableEq, Repr

/-- A copy (R360): its pieces; for a buffer destination the buffer, and the sequence number of the entry once it is
taken (the pieces' destinations are then offsets in the entry); the words moved early; the windlass run it is of. -/
structure Copy where
  segs  : List Seg
  buf   : Option Nat := none
  entry : Option Nat := none
  moved : List Nat := []
  run   : Option Nat := none
deriving DecidableEq, Repr

/-- State of a taken buffer entry (R241): filling, written, full, and the loads that its release waits for (R243). -/
structure BufEntry where
  stage : Nat := 0
  loads : List Nat := []
deriving DecidableEq, Repr

/-- A circular buffer (R241). `tail` and `head` count entries taken and passed: entry number `n % cnt` is the n-th
taken. `ents` holds the entries taken and not free, `users` the matrix instructions bound to each, `early` the loads that an
entry passed before its producer took it waits for (R243). -/
structure Buf where
  base  : Nat := 0
  esz   : Nat := 0
  pitch : Nat := 0
  cnt   : Nat := 0
  head  : Nat := 0
  tail  : Nat := 0
  ents  : SMap BufEntry := []
  users : List (Nat × Nat) := []
  early : SMap (List Nat) := []
deriving DecidableEq, Repr

/-- A stream of a loop nest (R245). -/
structure Stream where
  base    : Nat
  rows    : Nat
  rbytes  : Nat
  doff    : Nat
  spitch  : DWord
  dpitch  : Nat
  strides : List DWord
deriving DecidableEq, Repr

/-- A windlass run (R244, R246): its LNSTART, the split's group, the buffer, bounds, streams and the next indices;
`idx` is none once every iteration has been taken or the run is stopped; `cur` is the iteration whose entry is taken and whose
copies are being issued: its indices, entry and next stream; `held` after a page fault (R247). -/
structure Run where
  id      : Nat
  buf     : Nat
  bounds  : List Nat
  streams : List Stream
  idx     : Option (List Nat)
  cur     : Option (List Nat × Nat × Nat) := none
  started : Bool := false
  held    : Bool := false
deriving DecidableEq, Repr

/-- A drain (R237 to R239): its command, team and FMT, the program and constants as they stood at issue, the rows
still to run (number in the group, 16 f32 values), the tile's octets and register, and its destination: local base,
global pages, or a buffer with its entry once taken. -/
structure Drain where
  id     : Nat
  team   : Nat
  group  : Nat
  fmt    : BitVec 16
  prog   : List Word
  consts : List Word
  rows   : List (Nat × List Word)
  octets : List Nat
  acc    : Nat
  global : Bool
  base   : Nat
  pitch  : Nat
  pages  : SMap DWord
  buf    : Option Nat
  entry  : Option Nat := none
deriving DecidableEq, Repr

/-- What the epilogue processor serves in issue order (R239, R375): the loading of a program, and drains. -/
inductive EpItem where
  | load (id team : Nat)
  | drain (d : Drain)
deriving DecidableEq, Repr

/-- A program named by its context, image and EPPROG.OFF (R240). -/
structure EpName where
  ctx  : Nat
  kimg : Nat
  off  : Nat
deriving DecidableEq, Repr

/-- A place of the epilogue processor (R240): the program, the teams that hold it, and the words loaded there. -/
structure EpPlace where
  name  : EpName
  teams : List Nat
  code  : List Word := []
deriving DecidableEq, Repr

/-- What an EPLOAD waiting for a place, and the drains behind it, wait with (R240). -/
structure EpTeam where
  /-- The program held or being loaded last, with the words that the team's drains run (R240). -/
  name : Option EpName := none
  code : List Word := []
  /-- Waiting for a place, in issue order; an EPLOAD waits with the name of its program, whose words stand by its number. -/
  wait : List (EpItem × Option EpName) := []
  words : SMap (List Word) := []
  /-- The program of the place held at pre-emption (R240). -/
  back : Option EpName := none
deriving DecidableEq, Repr

/-- A collective descriptor (R279). -/
structure RingDesc where
  res    : Bool
  rop    : Nat
  wtype  : Nat
  dloc   : Bool
  sloc   : Bool
  ring   : Nat
  mask   : BitVec 16
  src    : Nat
  sstr   : Nat
  dst    : Nat
  dstr   : Nat
  cnt    : Nat
  cstr   : Nat
  resb   : Nat
  rows   : Nat
  rbytes : Nat
  spitch : Nat
  dpitch : Nat
  nt     : Nat
  chunk  : Nat
  stat   : Nat
deriving DecidableEq, Repr

/-- The three ring commands (R280). -/
inductive RingOp where
  | rag | rrs | rhnd
deriving DecidableEq, Repr

/-- A ring command (R278 to R285): its descriptor as read at issue, the descriptor's address and the team's issue count on
it, the issuing die, the members by collective rank, its rank, RHND's target; FMT.RND and FMT.SAT at issue; the leaf entries
of the pages that it touches (R184); its own tiles still to be done, by number, and the bytes of tiles that an engine has
read and still delivers, with the rows of a tile that have landed before its last. -/
structure RingCmd where
  op      : RingOp
  d       : RingDesc
  desc    : Nat
  count   : Nat
  die     : Nat
  members : List Nat
  rank    : Nat
  target  : Nat
  rnd     : Nat
  sat     : Bool
  pages   : SMap DWord
  left    : List Nat
  held    : SMap (List Byte) := []
  early   : SMap (List Nat) := []
deriving DecidableEq, Repr

/-- A tile of a reduction that a member's ring engine has accepted and not yet combined (R284, R285): the context, the
descriptor and issue count, the member's rank, the tile's number, and the wire elements. -/
structure HeldTile where
  ctx   : Nat
  desc  : Nat
  count : Nat
  rank  : Nat
  tile  : Nat
  elems : List Nat
deriving DecidableEq, Repr

/-- What a command has from its issue (R184, R221, R413): its group as it issued, the leaves of its pages, and its context's
STRANDTAB, PFXTAB and DENSEF. -/
structure Held where
  g        : Group
  pages    : SMap DWord
  strandtab : DWord
  pfxtab   : DWord
  densef   : Word
deriving DecidableEq, Repr

/-- What an engine command still has to do. -/
inductive CmdKind where
  /-- Its effect was made at issue; its completion is still to be posted. -/
  | effected
  | copy (c : Copy)
  | drain
  | epload
  | bufcfg (b : Nat) (k : Buf)
  | bufwait (b k reg : Nat)
  | waitb (n : Word)
  | lnstart
  | lnstop (runs : List Nat)
  /-- TEMIT's record still to be written: the node, the record's number, its pieces read from (R88, R456). -/
  | temit (node rec : Nat) (src : List (Place × Nat))
  /-- QPULL parked: local queue, local offset, status register (R427). -/
  | qpull (q loc reg : Nat)
  /-- A push still to be appended, and a close that waits for earlier pushes: target die, local queue, offset (R428). -/
  | qpush (die q loc : Nat)
  | qclose (die q : Nat)
  /-- A KST or BGATH whose effect is made, with the projection set that it used (R425). -/
  | signed (set : Nat)
  /-- PROJLD still to take effect: set, shape (none to free it), pieces of its rows (R425). -/
  | projld (set : Nat) (shape : Option (Nat × Bool)) (src : List (Place × Nat))
  | ring (r : RingCmd)
  /-- A parked RWAIT (R438): the counter, the target, pd, the lanes that passed, and whether a wrap has ended the wait. -/
  | rwait (ctr : Place) (target : Word) (pd : Nat) (lanes : Lanes) (wrapped : Bool)
  /-- A RRANK whose answer is still to be written (R436): its destination pair. -/
  | rrank (reg : Nat)
  /-- The local side of a remote request (R222, R300): its connection and sequence number. -/
  | remote (conn seq : Nat)
  /-- Its effect is made, but for writes on their way to pages of other packages: the pieces that it wrote there (R180, R221). -/
  | sent (dst : List (Place × Nat))
  /-- A QPULL whose item is taken from the queue and still to be put into the local array (R221, R427): offset, status register,
  the item. -/
  | item (loc reg : Nat) (bytes : List Byte)
  /-- A command whose effect is still to be made while its split has gone on (R221, R222). -/
  | later (h : Held)
deriving DecidableEq, Repr

/-- An engine command that has issued and not completed (R221 to R223, R323). -/
structure Cmd where
  kind  : CmdKind
  group : Nat
  split : Nat
  foot  : List Foot := []
  begun : Bool := true
  /-- It has taken its buffer entry (R242), and has therefore begun in the sense of R323. -/
  taken : Bool := false
  /-- The virtual pages whose translations it holds (R181, R184). -/
  vpns  : List Nat := []
  /-- The instruction and its split as it issued, which pre-emption issues again (R323). -/
  cause : Option (Instr × Split) := none
deriving DecidableEq, Repr

/-- A team (R42). -/
structure Team where
  ctx    : Nat
  task   : Nat
  index  : Nat
  die    : Nat
  core   : Nat
  base   : Nat
  bytes  : Nat
  status : TeamStatus := .resident
  /-- Common time of its placement (R83). -/
  placed : Nat := 0
  /-- Pre-empted while idle, for a team of this task, which is placed first (R93). -/
  after  : Option Nat := none
  /-- The local bytes of a saved team (R322), and its save frame: where it lies and what the part wrote there (R324). -/
  saved  : List Byte := []
  frame  : Option (Nat × List Byte) := none
  bars   : List Barrier := []
  wins   : SMap StashWin := []
  groups : SMap Group := []
  mops   : SMap MemOp := []
  cmds   : SMap Cmd := []
  bufs   : SMap Buf := []
  runs   : List Run := []
  ep     : EpTeam := {}
  /-- Ring commands issued so far on each descriptor (R284). -/
  issues : SMap Nat := []
deriving DecidableEq, Repr

/-- A task (R70, R73): the part's copy of its record, and of the header of its image. -/
structure Task where
  ctx     : Nat
  addr    : Nat
  kimg    : Nat
  teams   : Nat
  shape   : DWord
  local_  : Nat
  nbars   : Nat
  affin   : BitVec 16
  graph   : Bool
  prio    : Nat
  args    : DWord
  ttgt    : List Nat
  gtgt    : List Nat
  qbase   : Nat
  flush   : Nat
  coal    : Nat
  rsz     : Nat
  qlog    : Nat
  gridId  : Word
  entries : List Word
  trapv   : DWord
  dictOff : Nat
  dictCnt : Nat
  rgnCnt  : Nat
  codeOff : Nat
  constOff : Nat
  imgSize : Nat
  state   : Nat := 1
  /-- Common time at which the task entered its ready queue. -/
  ready   : Option Nat := none
  /-- Teams placed so far and teams completed so far; launches for a graph node. -/
  placed  : Nat := 0
  done    : Nat := 0
  /-- The indices placed (R45): every one below `low`, and those of `out`. -/
  low     : Nat := 0
  out     : List Nat := []
  /-- Graph node (R87 to R90): records written beyond the gap-free prefix; the times at which the waiting records
  became waiting; the records of running launches by launch number (first, count); complete records beyond the
  gap-free prefix. -/
  written  : List Nat := []
  waiting  : SMap Nat := []
  running  : SMap (Nat × Nat) := []
  complete : List Nat := []
deriving DecidableEq, Repr

/-- A context (R21, R150). -/
structure Context where
  live     : Bool := false
  owner    : Word := 0
  /-- Page-table root: die and offset (07, Page tables). -/
  rootDie  : Nat := 0
  rootOff  : Nat := 0
  priv     : Bool := false
  debug    : Nat := 0
  breaks   : List DWord := []
  stopFlag : Bool := false
  strandtab : DWord := 0
  pfxtab   : DWord := 0
  /-- DENSEF (R276): LIM 4,096 and FRAC 16 at reset. -/
  densef   : Word := 0x00100010
  /-- PRIO (R81): QUOTA 65,536 and CAP 3 at reset. -/
  prio     : Word := 0x01000003
  /-- Fault queue: base address, records, write index (R316). -/
  fqBase   : DWord := 0
  fqSize   : Nat := 0
  fqIdx    : Nat := 0
  /-- Save area (R324); a context with none has zero here (log 71). -/
  saveArea : DWord := 0
  /-- Status word of the doorbell page (R78). -/
  doorbell : Word := 0
  /-- Task creations so far (R149 GRIDID). -/
  created  : Nat := 0
  /-- The cause code with which the context ended; the die and the fault record of the end until the record is written, with which
  the host is interrupted (R315). -/
  ended    : Option Nat := none
  endRec   : Option (Nat × List Byte) := none
  irq      : Bool := false
deriving DecidableEq, Repr

/-- A hardware work queue bound on a die (R91): its number and the address of its descriptor. -/
structure WQueue where
  hw   : Nat
  desc : Nat
deriving DecidableEq, Repr

/-- A projection set (R273): the context and owner that loaded it, b, HDIM, and its rows of BF16 elements. -/
structure ProjSet where
  ctx   : Nat
  owner : Word
  bits  : Nat
  hdim  : Bool
  rows  : List (List Nat)
deriving DecidableEq, Repr

/-- A compute die. -/
structure Die where
  fairtime : Word := 512
  flhead   : DWord := 0
  /-- Shared TLB (R182): context * 2^41 + virtual page to leaf. -/
  tlb      : SMap DWord := []
  /-- Weathervane counters (R215). -/
  vane     : SMap Nat := []
  /-- The die's copy of common time, and its skew (R24). -/
  time     : Nat := 0
  skew     : Nat := 0
  cycle    : Nat := 0
  failed   : Bool := false
  /-- Since when a ready task has been skipped, and the tasks that block (R82). -/
  skipped  : SMap Nat := []
  blocking : List Nat := []
  /-- Access counts of migrating pages by context and page, and the pages whose migration has been requested (R180). -/
  migr     : SMap Nat := []
  migrReq  : List Nat := []
  /-- Bytes of peers' pages that the die's L2 holds for local caching, by context, peer and frame offset (R295). -/
  l2       : SMap Byte := []
  /-- Work queues by context * 16 + local number (R91). -/
  queues   : SMap WQueue := []
  /-- The signature unit's projection sets (R273). -/
  projs    : SMap ProjSet := []
  /-- Common time since which each context has had runnable work on the die; residence in the present window by
  context * 192 + core; protected contexts by the same key, with the time at which protection ends (R99, R100). -/
  runSince : SMap Nat := []
  resid    : SMap Nat := []
  protect  : SMap Nat := []
deriving DecidableEq, Repr

/-- Where the EPSTs of a row write (R238): the row address in the team's local array or in global memory, with the
leaf entries that the drain holds for its pages (R184).-/
structure EpDest where
  team   : Nat := 0
  global : Bool := false
  addr   : Nat := 0
  pages  : SMap DWord := []
deriving DecidableEq, Repr

/-- The epilogue processor of a core (R148, R237): e and c registers (register * 16 + element), FMT of the drain's
issue, the row's number in its group, its destination, and the words of the program still to run. -/
structure Epi where
  e    : SMap Word := []
  c    : SMap Word := []
  fmt  : BitVec 16 := 0
  row  : Nat := 0
  dest : EpDest := {}
  prog : List Word := []
deriving DecidableEq, Repr

/-- Where a matrix operation finds B (R229, R230, R243): already read, a local tile, or a buffer entry. -/
inductive BSource where
  | ready (elems : List Nat)
  | tile (addr pitch : Nat) (byCols : Bool)
  | entry (buf seq : Nat) (byCols : Bool)
deriving DecidableEq, Repr

/-- The block scales of an MMAS for one octet (R235): eight A scale words, the B scale word, and FMT.SMODE. -/
structure Scales where
  a    : List Word
  b    : Word
  mode : Nat
deriving DecidableEq, Repr

/-- An octet operation (R231): `inst` is the instruction's entry in MXC. `overlap` when its fragments overlap (R229). -/
structure MatOp where
  id      : Nat
  inst    : Nat
  team    : Nat
  group   : Nat
  octet   : Nat
  dreg    : Nat
  acc     : Nat
  shape   : Nat
  ty      : Nat
  zc      : Bool
  a       : List (List Word)
  b       : BSource
  scales  : Option Scales
  /-- The registers that A and, when it is in registers, B come from, when the fragments overlap (R229). -/
  regs    : Option (Nat × Option Nat)
  /-- 32-bit cells of B in the local array that the fetch has read already (R233). -/
  cells   : SMap (List Byte) := []
deriving DecidableEq, Repr

/-- A core. -/
structure CoreSt where
  /-- Sectors of the L1 (R193): HBM address / 16 to the 16 bytes. -/
  l1      : SMap (List Byte) := []
  /-- The core's own TLB (R182), keyed as the die's. -/
  tlb     : SMap DWord := []
  /-- The local array (R185). -/
  arr     : Memory := []
  /-- The context that last held each 4 KiB of the array (R85). -/
  holder  : SMap Nat := []
  /-- Values that bytes of the array have held for that context: those that a word which it has not written may read (R85,
  R192). -/
  past    : SMap (List Byte) := []
  /-- Resident dictionaries, at most four (R84, R123): context, image address, words. -/
  dicts   : List (Nat × Nat × List DWord) := []
  removed : Bool := false
  epi     : Epi := {}
  /-- The matrix queue of each slot, the oldest operation first (R231). -/
  mq      : SMap (List MatOp) := []
  /-- The epilogue processor's work in issue order, and its four places (R239, R240). -/
  epq     : List EpItem := []
  places  : SMap EpPlace := []
  /-- The team that holds the windlass (R244). -/
  windlass : Option Nat := none
  /-- LANEMAP of each slot (R330), and the failed lanes of each slot (R331). -/
  lanemap : SMap DWord := []
  badLanes : SMap (List Nat) := []
deriving DecidableEq, Repr

/-- The break of the rings (R15 to R20): whether it is a boundary, and the failed die or boundary. -/
structure Break where
  kind : Bool
  fail : Nat
deriving DecidableEq, Repr

/-- A flit of 32 bytes (R9): the source die, destination die and end-to-end sequence number of what it is of (R12), and its
payload. -/
structure Flit where
  src   : Nat
  dst   : Nat
  seq   : Nat
  bytes : List Byte
deriving DecidableEq, Repr

/-- A frame (R9): the sequence number that its control flit carries, beside the acknowledgements of the moment in which it goes out, and
its payload flits. The trailer of 32 bytes is what the check of FRAME_RECEIVE is made on. -/
structure Frame where
  seq   : Nat
  flits : List Flit
deriving DecidableEq, Repr

/-- A frame channel (R9 to R11), numbered (boundary * 2 + direction) * 104 + channel. At its sender: the next sequence number, the
replay buffer, and the frames still to go out in order. At its receiver: the next sequence number that it takes, whether it has
asked for a replay, the replays made of that frame, the errors in the frame that now comes in which its FEC corrects, and the
frames that it has corrected. `gone`: it is retired; `spare` has
taken its place. -/
structure Link where
  next   : Nat := 0
  buf    : List Frame := []
  wire   : List Nat := []
  expect : Nat := 0
  want   : Bool := false
  fails  : Nat := 0
  hurt   : Nat := 0
  fixed  : Nat := 0
  gone   : Bool := false
  spare  : Option Nat := none
deriving DecidableEq, Repr

/-- What a request between dies, or a ring engine's flit, does where it arrives (R12): part of a lane's access, a piece of a copy, the
next row of the drain that a core runs, a tile of a ring command, the walk for an address of a context. -/
inductive StripWhat where
  | lane (team op lane half : Nat)
  | seg (team cmd piece : Nat)
  | row (core : Nat)
  | tile (cmd tile : Nat)
  | walk (die ctx va : Nat)
deriving DecidableEq, Repr

/-- A request that its sender keeps (R12): source and destination die, its number for the pair, and what it does. -/
structure StripReq where
  src  : Nat
  dst  : Nat
  seq  : Nat
  what : StripWhat
deriving DecidableEq, Repr

/-- The sequence numbers that a destination die has taken from a source die (R12): all those below one, and later ones. -/
structure SeqSeen where
  below : Nat := 0
  early : List Nat := []
deriving DecidableEq, Repr

/-- A fatal-error dump (R334): what its header holds, and where its bytes lie in HBM; nowhere when no die survives. -/
structure Dump where
  die    : Nat
  time   : Nat
  health : DWord
  ring   : Word
  at_    : Option Nat
  len    : Nat
deriving DecidableEq, Repr

/-- The conditions that HEALTH reports (R332, R333), but for dead dies, removed cores and dark channels; `frlost` by device. -/
structure Health where
  rfr    : Bool := false
  tunc   : Bool := false
  therm  : Bool := false
  slref  : Bool := false
  frlost : List Nat := []
  chret  : Nat := 0
  cecc   : Nat := 0
deriving DecidableEq, Repr

/-- Lysja's state and the package's management registers (01, 12). -/
structure Mgmt where
  health : Health := {}
  /-- The driver's management table (R197, R255): virtual page to leaf. -/
  mtab   : SMap DWord := []
  /-- PARTMODE (R22). `req` is the mode that a change under way will set. -/
  mode   : Nat := 0
  busy   : Bool := false
  stat   : Nat := 0
  req    : Nat := 0
  /-- The interleave base of each device (R179). -/
  ibase  : SMap Nat := []
  /-- The break of the rings in effect (R15); the break of a wrap declared and not yet in effect, with the devices that it
  affects (R18). -/
  brk    : Option Break := none
  due    : Option Break := none
  hit    : List Nat := []
  /-- The dies that have failed since a wrap last took effect: the rings hold them until the next one does (R436). -/
  falling : List Nat := []
  /-- The drain timeout of a mode change in ns, and when the change under way began (R23). -/
  drain  : Nat := 10000000000
  since  : Nat := 0
  /-- Devices that Lysja is still to re-form (R19), management interrupts raised (R29), dumps not acknowledged (R334). -/
  reform : List Nat := []
  irq    : Nat := 0
  dumps  : List Dump := []
  /-- Dumps signalled on the mailbox of function 0 (R334), and what the standby alone has to report instead (R34). -/
  mail   : List Nat := []
  reports : List Nat := []
  /-- Devices with no surviving die, which their functions report as failed (R19). -/
  lost   : List Nat := []
  /-- Frame channels (R9); by die, the flits delivered to it and those in transit there for another (R14); by source die * 16 +
  destination die, the next sequence number and those seen; the requests that their senders keep, the acknowledgements given, and
  the requests that a failure of their path makes their senders send again (R12). -/
  links  : SMap Link := []
  inbox  : SMap (List Flit) := []
  transit : SMap (List Flit) := []
  sent   : SMap Nat := []
  reqs   : List StripReq := []
  seqs   : SMap SeqSeen := []
  acks   : List (Nat × Nat × Nat) := []
  resend : List (Nat × Nat × Nat) := []
  /-- The power cap in watts, and the dies whose matrix and whose vector issue is gated (R30). -/
  cap    : Nat := 11000
  gateM  : List Nat := []
  gateV  : List Nat := []
  /-- The firmware bank in use, whether the other holds an update (R33), and whether the standby has taken over (R34). -/
  bank   : Nat := 0
  staged : Bool := false
  alone  : Bool := false
  /-- Who holds the common-time master (R24, R26): 0 the West I/O die, 1 nobody, 2 the East one; the start value that the host
  has loaded (R25). -/
  master : Nat := 0
  start  : Nat := 0
  /-- The bytes that the last read through BAR2 returned (R197), and the size of each device's BAR2 window, as a power of two: 64 GiB
  at reset (R29). -/
  bar2   : List Byte := []
  bar2Log : SMap Nat := []
  /-- The common-time master, in ns (R24, R25). -/
  time   : Nat := 0
  /-- Devices whose ready queues a partition change has closed (R71, R19, R23). -/
  closed : List Nat := []
deriving DecidableEq, Repr

/-! ### The fabric (11) -/

/-- What a remote request does (R430, R432). RATOM holds its operation with the flags, operand and compare value, RCQW the
queue it waits on and the count. -/
inductive ReqOp where
  | put | get
  | atom (aop w : Nat) (signed : Bool) (opnd cmp : Nat)
  | wait (conn target : Nat)
deriving DecidableEq, Repr

/-- A packet of a request (R292, R299) that is not acknowledged: where it starts in the request, its length there, the bytes
that it carries, its sender's owner and the owner's key (R306), and when it was first and last sent. -/
structure OutPkt where
  at_   : Nat
  len   : Nat
  data  : List Byte
  owner : Nat
  key   : DWord
  first : Option Nat := none
  last  : Nat := 0
deriving DecidableEq, Repr

/-- A request in a remote queue (R297). `team` and `op` name the instruction's entry in RMC; `src` is the local side; `post`
the tag and deadline of a posted request that still stands (R303); `cut` the bytes cut into packets; `pkts` the packets not
acknowledged; `bad` the first status other than OK that a packet of it met; `status` is 0 while it is under way. -/
structure Req where
  seq    : Nat
  op     : ReqOp
  team   : Nat
  id     : Nat
  src    : List (Place × Nat)
  len    : Nat
  off    : Nat
  key    : Word
  tag    : Nat
  post   : Option (Nat × Nat) := none
  cut    : Nat := 0
  pkts   : List OutPkt := []
  sent   : Bool := false
  bad    : Nat := 0
  done   : Nat := 0
  status : Nat := 0
  /-- The number that orders its packets among those of other requests (R292): that of its issue, or of its enabling (R303). -/
  order  : Nat := id
deriving DecidableEq, Repr

/-- A connection (R296 to R299): its context and die, its descriptor's address and fields, the counters that the descriptor
shows, the base of the incarnation, its requests not posted yet in sequence order, and whether it has been reset because its
peer is unreachable. -/
structure Conn where
  ctx   : Nat
  die   : Nat
  desc  : Nat
  peer  : Nat
  pctx  : Nat
  cqb   : Nat
  cqlog : Nat
  win   : Nat
  epoch : Nat := 0
  next  : Nat := 0
  ack   : Nat := 0
  cc    : Nat := 0
  base  : Nat := 0
  reqs  : List Req := []
  cut   : Bool := false
deriving DecidableEq, Repr

/-- A packet of a page connection (R295) that is not acknowledged: its sequence number, the lane's access that it makes, or the
access without one (`PeerAsk`), its bytes, those that it carries, its sender's owner and key, and when it was first and last sent. -/
structure PagePkt where
  seq   : Nat
  op    : Nat
  lane  : Nat
  len   : Nat
  carried : Nat
  owner : Nat
  key   : DWord
  first : Option Nat := none
  last  : Nat := 0
deriving DecidableEq, Repr

/-- For what a page of another package is accessed where no lane of a memory operation does it (R180): a command or remote request of a
team by number, a split's clause or the instruction that it is to issue, the host through a device's BAR2 window (R197), a write that
has been made and goes out, or nothing any more. -/
inductive Asker where
  | cmd (id : Nat)
  | split (group split : Nat)
  | host (dev : Nat)
  | put
  | gone
deriving DecidableEq, Repr

/-- Such an access, of at most 4,096 bytes and one packet of its context's page connection (R180, R292, R295): its team, what it
writes, or adds there where `add` says so, and the bytes that have come back. -/
structure PeerAsk where
  id   : Nat
  who  : Asker
  team : Option Nat
  ctx  : Nat
  pkg  : Nat
  off  : Nat
  len  : Nat
  data : Option (List Byte) := none
  add  : Bool := false
  got  : Option (List Byte) := none
deriving DecidableEq, Repr

/-- A page connection (R295, R299): its incarnation and the base of it, the next sequence number, and its packets. -/
structure PageConn where
  epoch : Nat := 0
  base  : Nat := 0
  next  : Nat := 0
  pkts  : List PagePkt := []
deriving DecidableEq, Repr

/-- A packet in a send queue (R292): its connection, request and place, and its bytes still to be carried. -/
structure Queued where
  conn : Nat
  seq  : Nat
  at_  : Nat
  left : Nat
deriving DecidableEq, Repr

/-- What a target keeps of a connection (R298, R299): its incarnation, the requests applied, the bytes taken and the bytes
performed of the next one, the status that refuses it, packets that came early, and the acknowledgements given. -/
structure InConn where
  epoch   : Nat
  applied : Nat
  part    : Nat := 0
  perf    : Nat := 0
  refused : Nat := 0
  early   : List Packet := []
  said    : List AckItem := []
deriving DecidableEq, Repr

/-- An acknowledgement on its way out (R298, R306, R476): the peer and its connection and incarnation, the owner of the context
that it comes from and that owner's key, and what it says. -/
structure AckOut where
  peer  : Nat
  conn  : Nat
  epoch : Nat
  owner : Nat
  key   : DWord
  item  : AckItem
deriving DecidableEq, Repr

/-- A window entry (R301, R463). -/
structure Window where
  ctx   : Nat := 0
  base  : Nat := 0
  len   : Nat := 0
  owner : Nat := 0
  rd    : Bool := false
  wr    : Bool := false
  at_   : Bool := false
  gen   : Nat := 0
  live  : Bool := false
deriving DecidableEq, Repr

/-- A slot table accepted (R290, R291): its header, and the HBM pieces of its channel words and of its relay map. -/
structure SlotTable where
  nslot  : Nat
  slotns : Nat
  guard_ : Nat
  start  : Nat
  root   : Nat
  words  : List Nat
  rmap   : List (Nat × Nat)
deriving DecidableEq, Repr

/-- An entry of the admit table (R306): an owner, its key, and the owners that it lists. -/
structure Admit where
  owner : Nat
  key   : DWord
  lists : List Nat
deriving DecidableEq, Repr

/-- The fabric of the package (R290 to R308). -/
structure Fabric where
  /-- SLOTTAB (R290), the keys of owners (FABKEY, R306). -/
  slottab : DWord := 0
  keys    : SMap DWord := []
  /-- The table in force and when it stops; the next slot to begin; the table accepted for a later START. -/
  table   : Option SlotTable := none
  stop    : Option Nat := none
  slot    : Nat := 0
  later   : Option SlotTable := none
  /-- Of the slot begun last: its channels on which the tables disagree, and the bytes carried to each peer so far (R292). -/
  darkNow : List Nat := []
  used    : SMap Nat := []
  /-- Channels found dark by disagreement, isolated channels, and the times of drops by channel (R291, R306). -/
  dark    : List Nat := []
  isol    : List Nat := []
  drops   : SMap (List Nat) := []
  admitTab : List Admit := []
  windows : SMap Window := []
  conns   : SMap Conn := []
  /-- Page connections by context * 2^17 + peer (R295). -/
  pages   : SMap PageConn := []
  /-- Accesses to peers' pages that no lane makes, in the order of their answers behind those not answered (R180). -/
  asks    : List PeerAsk := []
  /-- Send queues by peer (R292), what targets keep by source * 2^40 + connection, acknowledgements going out, the relay
  area (R293), and tags that wait by context (R303). -/
  sendq   : SMap (List Queued) := []
  inc     : SMap InConn := []
  acks    : List AckOut := []
  relay   : List Packet := []
  tags    : SMap (List Nat) := []
  /-- Timestamps that peers have sent: this package's count when one came, the peer's count, and ROOT's as the peer knows it (R294). -/
  stamps  : SMap (Nat × Nat × Nat) := []
  /-- Frames of the fabric management channel that Lysja has sent and received: slot, channel and at most 64 bytes (R294). -/
  mgmtOut : List (Nat × Nat × List Byte) := []
  mgmtIn  : List (Nat × Nat × List Byte) := []
deriving DecidableEq, Repr

/-- Who acts when the agenda is empty. -/
inductive Turn where
  | idle
  | split (r : Ref)
  | epilogue (core : Nat)
deriving DecidableEq, Repr

/-- What the environment can choose for the next step (log 5): an event of the table; who issues from now on; the loss of an L1
sector, of a migration count or of a TLB entry (R180, R181, R194); a word of a copy moved before the copy completes (R362); one
lane's access made ahead of the others (R175, R202); a store made that its own group alone sees as yet, and one such store
becoming visible to more agents (R206 to R210); bytes that a core's groups go on reading as they stand, and the end of that
(R210); a register's or array byte's present value as one that may be met again (R85, R141, R192, R321); a relay's refusal of a
packet (R293); what a peer answers to an access that no lane makes (R180); a frame given to a channel (R9), errors in one on its
way that FEC corrects (R10), a request that a die sends to another with its number, and an acknowledgement that comes back to it
(R12); the free running of a die's copy of common time (R26), timestamps of other packages and the steering by them, and frames of
the fabric management channel (R294); another size of a BAR2 window (R29); the loss of a byte of a peer's page from a die's L2
(R295); the passage of common time and of the cycles of a die. -/
inductive Input where
  | event (i : Instr)
  | turn (t : Turn)
  | l1Drop (core sector : Nat)
  | migrDrop (die key : Nat)
  | copyPart (team cmd word : Nat)
  | tlbDrop (die key : Nat)
  | coreTlbDrop (core key : Nat)
  | lanePart (team op lane half : Nat) (ext : List Byte)
  | storeEarly (team op : Nat)
  | storeMove (id : Nat)
  | keepView (core pa n : Nat)
  | dropView (core pa : Nat)
  | keepVector (team group key : Nat)
  | keepScalar (team group n : Nat)
  | keepByte (core addr : Nat)
  | relayRefused (queue seq at_ : Nat)
  | peerAnswer (ask : Nat) (bytes : List Byte)
  | frameSend (chan : Nat) (flits : List Flit)
  | frameHurt (chan n : Nat)
  | stripSend (what : StripWhat)
  | stripAck (src dst seq : Nat)
  | freeRun (die ns : Nat)
  | fabricStamp (peer count root : Nat)
  | fabricSteer (peer ns : Nat)
  | mgmtSend (chan : Nat) (bytes : List Byte)
  | mgmtReceive (chan : Nat) (key : DWord) (bytes : List Byte)
  | bar2Resize (dev log : Nat)
  | l2Drop (die key : Nat)
  | fetchCell (core inst cell : Nat)
  | later (r : Ref)
  | tileRow (cmd tile row : Nat)
  | elapse (ns : Nat)
  | cycles (die n : Nat)
deriving DecidableEq, Repr

/-- The whole package. -/
structure State where
  /-- The environment's choices still to come, and who issues when none is left. Model fields (log 5). -/
  agenda   : List Input := []
  turn     : Turn := .idle
  /-- The counter at which the next free value is taken (log 6), and the next fresh identifier. Model fields. -/
  free     : Nat := 0
  nextId   : Nat := 0
  /-- HBM of every die: die * 2^38 + offset (R179). -/
  hbm      : Memory := []
  /-- Lines that a core's L1 owns for near-core atomics: line to core (R196, R215). -/
  owned    : SMap Nat := []
  /-- Stores on their way to their home slices (R206 to R210), in the order in which they became visible at their level. -/
  wbuf     : List Buffered := []
  /-- Older bytes that the groups of a core still read (R210). -/
  views    : List View := []
  dies     : SMap Die := []
  cores    : SMap CoreSt := []
  ctxs     : SMap Context := []
  tasks    : SMap Task := []
  teams    : SMap Team := []
  /-- Tiles of reductions that ring engines hold (R284, R285). -/
  tiles    : List HeldTile := []
  fab      : Fabric := {}
  mgmt     : Mgmt := {}
deriving DecidableEq, Repr

/-- The state after reset. -/
def State.reset : State := {}

end Sys2Proof.Machine
end

