-- ==== Sys2Proof/Machine/Memory.lean ====
section
/-! DEFINITION. Devices and their dies, translation (07), and the reads and writes of bytes: at the home slice,
in a core's L1 and local array, and in stash windows. -/
namespace Sys2Proof.Machine

/-- The outcome of a step of this machine. -/
abbrev Out := Host.Outcome State Fault Refusal

/-- A die, with its reset value where none is listed. -/
def State.die (s : State) (d : Nat) : Die := mget {} s.dies d
/-- A core by number die * 192 + core. -/
def State.core (s : State) (k : Nat) : CoreSt := mget {} s.cores k
/-- A context by number device * 64 + context. -/
def State.ctx (s : State) (x : Nat) : Context := mget {} s.ctxs x
/-- The state with a die changed. -/
def State.modDie (s : State) (d : Nat) (f : Die → Die) : State := { s with dies := mput s.dies d (f (s.die d)) }
/-- The state with a core changed. -/
def State.modCore (s : State) (k : Nat) (f : CoreSt → CoreSt) : State :=
  { s with cores := mput s.cores k (f (s.core k)) }
/-- The state with a context changed. -/
def State.modCtx (s : State) (x : Nat) (f : Context → Context) : State :=
  { s with ctxs := mput s.ctxs x (f (s.ctx x)) }
/-- The state with a team changed, if it exists. -/
def State.modTeam (s : State) (t : Nat) (f : Team → Team) : State := { s with teams := mmod s.teams t f }
/-- The number of a core in the package. -/
def coreKey (die core : Nat) : Nat := die * Config.cores + core
/-- The core that a team is on. -/
def Team.coreKey (t : Team) : Nat := Machine.coreKey t.die t.core

/-- How many devices the package shows in a mode (R21). -/
def nDevices (mode : Nat) : Nat := if mode = 0 then 1 else if mode = 1 then 2 else 16
/-- The device of a die in a mode (R21). -/
def deviceOf (mode die : Nat) : Nat := if mode = 0 then 0 else if mode = 1 then die / 8 else die
/-- The surviving dies of a device, in ascending number (R21, R178). -/
def State.diesOf (s : State) (dev : Nat) : List Nat :=
  (List.range Config.dies).filter fun d => deviceOf s.mgmt.mode d = dev && !(s.die d).failed
/-- The device of a context. -/
def ctxDevice (x : Nat) : Nat := x / 64

/-- The first byte of a die's HBM in the model's one HBM. -/
def hbmBase (die : Nat) : Nat := die * 2 ^ 38

/-- The interleave base of a device (R179). -/
def State.ibase (s : State) (dev : Nat) : Nat := mget 0 s.mgmt.ibase dev

/-- The die of a granule under the interleave map (R22). -/
def interleaveIdx (m g : Nat) : Nat :=
  ((BitVec.ofNat 4 g) ^^^ (BitVec.ofNat 4 (g / 16)) ^^^ (BitVec.ofNat 4 (g / 256)) ^^^
    (BitVec.ofNat 4 (g / 4096))).toNat % m

/-- Where a byte of an interleaved page lies (R22, R179); none when no die survives. -/
def State.interleave (s : State) (dev ia : Nat) : Option Nat :=
  let ds := s.diesOf dev
  let m := ds.length
  if m = 0 then none else
  let g := ia / 4096
  let q := (16 + m - 1) / m
  let j := interleaveIdx m g
  let k := ((List.range (g % 16)).filter fun i => interleaveIdx m (g - g % 16 + i) = j).length
  (ds[j]?).map fun die => hbmBase die + s.ibase dev + ((g / 16) * q + k) * 4096 + ia % 4096

/-- The team, window and line number of the stash line that owns the HBM line `line` (R188). -/
def State.ownerOf (s : State) (line : Nat) : Option (Nat × Nat × Nat) :=
  s.teams.findSome? fun (k, t) => t.wins.findSome? fun (w, win) => win.lines.findSome? fun (n, l) =>
    if l.pa / 128 = line then some (k, w, n) else none

/-- Bytes of a team's local array, from offset `off` of its allocation (R173). -/
def State.arrRead (s : State) (t : Team) (off n : Nat) : List Byte := rdBytes (s.core t.coreKey).arr (t.base + off) n

/-- The bytes that the stash line that owns an HBM line holds for it, when they are dirty (R191). -/
def State.dirtyAt (s : State) (line : Nat) : Option (List Byte) :=
  (s.ownerOf line).bind fun o => (mget? s.teams o.1).bind fun t => (mget? t.wins o.2.1).bind fun w =>
    (mget? w.lines o.2.2).bind fun l => if l.dirty then some (s.arrRead t (w.lo + 128 * o.2.2) 128) else none

/-- A number of up to 8 bytes, in one line, as its home slice gives it: what a stash line that owns it holds comes first (R191). -/
def State.homeNat (s : State) (a n : Nat) : Nat :=
  natOfBytes (match s.dirtyAt (a / 128) with
    | some bs => (bs.drop (a % 128)).take n
    | none => rdBytes s.hbm a n)

/-- A 64-bit word as its home slice gives it to a walker or a clause fetch (R182, R191, R196); `State.walkRecall` and
`State.recallSpan` recall the lines that they read. -/
def State.hbmWord (s : State) (a : Nat) : DWord := BitVec.ofNat 64 (s.homeNat a 8)

/-- The bits [lo + n - 1 : lo] of a doubleword, as a number. -/
def field (d : DWord) (lo n : Nat) : Nat := (d.extractLsb' lo n).toNat

/-- What a walk of the page tables finds. -/
inductive Walk where
  /-- A leaf entry that R176 to R178 admit. -/
  | leaf (e : DWord)
  /-- V = 0 at some level: PAGEFLT (R183). -/
  | fault
  /-- A table error: PROT (R176, R178). -/
  | bad
deriving DecidableEq, Repr

/-- The fields of a leaf are in order (R176, R178), apart from the rule of 2 MiB pages. -/
def State.leafOk (s : State) (dev : Nat) (e : DWord) : Bool :=
  let fm := field e 8 2
  let il := e.getLsbD 6
  let hd := field e 12 4
  let frame := field e 16 31
  let inDev := (s.diesOf dev).contains hd
  if fm = 0 then
    field e 47 17 = 0 && field e 10 2 = 0 &&
    (if il then hd = 0 && s.ibase dev + (frame + 1) * ((16 + (s.diesOf dev).length - 1) / max 1 (s.diesOf dev).length) * 4096
        ≤ Config.hbmBytes
     else field e 38 9 = 0 && inDev && frame * 65536 + 65536 ≤ Config.hbmBytes)
  else !il && (fm = 3 || field e 10 2 = 0) && (if fm = 2 then inDev else hd = 0)

/-- The 32 leaves of a 2 MiB page agree, but for FRAME, which rises by one (R177). -/
def State.largeOk (s : State) (node idx : Nat) (e : DWord) : Bool :=
  let first := idx - idx % 32
  let frame0 := (field e 16 31 + 2 ^ 31 - idx % 32) % 2 ^ 31
  let rest := e &&& ~~~(0x00007FFFFFFF0000 : DWord)
  (List.range 32).all fun i =>
    let x := s.hbmWord (node + (first + i) * 8)
    (x &&& ~~~(0x00007FFFFFFF0000 : DWord)) == rest && field x 16 31 == (frame0 + i) % 2 ^ 31

/-- One walk of the page tables from `levels` levels above the leaves (R176). -/
def State.walkFrom (s : State) (dev va : Nat) : Nat → Nat → Walk
  | 0, node =>
    let idx := va / 2 ^ 16 % 2 ^ 11
    let e := s.hbmWord (node + idx * 8)
    if !e.getLsbD 0 then .fault
    else if !s.leafOk dev e then .bad
    else if e.getLsbD 4 && !s.largeOk node idx e then .bad
    else .leaf e
  | n + 1, node =>
    let idx := va / 2 ^ (27 + 10 * n) % 2 ^ 10
    let e := s.hbmWord (node + idx * 8)
    let hd := field e 12 4
    let off := field e 16 25 * 2 ^ 13
    if !e.getLsbD 0 then .fault
    else if field e 1 11 ≠ 0 || field e 41 23 ≠ 0 || !(s.diesOf dev).contains hd then .bad
    else if n = 0 && off % 2 ^ 14 ≠ 0 then .bad
    else if off + (if n = 0 then 2 ^ 14 else 2 ^ 13) > Config.hbmBytes then .bad
    else s.walkFrom dev va n (hbmBase hd + off)

/-- The key of a virtual page in a TLB (R182). -/
def tlbKey (x va : Nat) : Nat := x * 2 ^ 41 + va / 2 ^ 16

/-- The translation of an address of context `x` on die `d`: an entry of the die's TLB where one is held, else a walk (R182). -/
def State.walk (s : State) (d x va : Nat) : Walk :=
  match mget? (s.die d).tlb (tlbKey x va) with
  | some e => if s.leafOk (ctxDevice x) e then .leaf e else .bad
  | none => s.walkFrom (ctxDevice x) va 3 (hbmBase (s.ctx x).rootDie + (s.ctx x).rootOff)

/-- The translation of an address for a group of core `k` of die `d`: the core's own TLB comes first (R182). -/
def State.walkAt (s : State) (k d x va : Nat) : Walk :=
  match mget? (s.core k).tlb (tlbKey x va) with
  | some e => if s.leafOk (ctxDevice x) e then .leaf e else .bad
  | none => s.walk d x va

/-- What a TLB holds for a page with leaf `e`: the page's entry, or those of the 32 pages of a 2 MiB page, which it holds as one
(R177). -/
def tlbEntries (x va : Nat) (e : DWord) : List (Nat × DWord) :=
  if !e.getLsbD 4 then [(tlbKey x va, e)] else
  let p := va / 2 ^ 16
  let frame0 := field e 16 31 + 2 ^ 31 - p % 32
  (List.range 32).map fun i => (tlbKey x ((p - p % 32 + i) * 2 ^ 16),
    (e &&& ~~~(0x00007FFFFFFF0000 : DWord)) ||| (BitVec.ofNat 64 ((frame0 + i) % 2 ^ 31) <<< 16))

/-- A leaf put into a TLB (R177, R182). -/
def tlbPut (m : SMap DWord) (x va : Nat) (e : DWord) : SMap DWord := (tlbEntries x va e).foldl (fun m k => mput m k.1 k.2) m

/-- An entry lost from a TLB: the whole of a 2 MiB page with any of its pages (R177, R182). -/
def tlbDel (m : SMap DWord) (key : Nat) : SMap DWord :=
  match mget? m key with
  | some e => if e.getLsbD 4 then m.filter fun q => !(q.1 / 32 = key / 32 && q.2.getLsbD 4) else mdel m key
  | none => m

/-- A TLB after an invalidation of `len` virtual pages from `lo` of a context (R181). -/
def tlbInvalidate (m : SMap DWord) (x lo len : Nat) : SMap DWord :=
  let hit (k : Nat) : Bool := k / 2 ^ 41 = x && lo ≤ k % 2 ^ 41 && k % 2 ^ 41 < lo + len
  m.filter fun e => !(hit e.1 || (e.2.getLsbD 4 && (List.range 32).any fun i => hit (e.1 / 32 * 32 + i)))

/-- The TLBs of die `d` and of its core `k` after a translation for a group there: a valid leaf is held (R182). -/
def State.tlbFill (s : State) (k d x va : Nat) : State :=
  match s.walkAt k d x va with
  | .leaf e =>
    let s := if (mget? (s.die d).tlb (tlbKey x va)).isSome then s else s.modDie d fun y => { y with tlb := tlbPut y.tlb x va e }
    if (mget? (s.core k).tlb (tlbKey x va)).isSome then s else s.modCore k fun y => { y with tlb := tlbPut y.tlb x va e }
  | _ => s

/-- Where the byte of an address lies under a leaf (R179, R180). -/
def State.placeOf (s : State) (x va : Nat) (e : DWord) : Option Place :=
  let frame := field e 16 31
  let off := va % 65536
  if field e 8 2 ≠ 0 then some (.peer (field e 47 17) (frame * 65536 + off))
  else if e.getLsbD 6 then (s.interleave (ctxDevice x) (frame * 65536 + off)).map .hbm
  else some (.hbm (hbmBase (field e 12 4) + frame * 65536 + off))

/-- What an access needs of a page (R176 RD, WR, EX). -/
structure Need where
  rd : Bool := false
  wr : Bool := false
  ex : Bool := false
deriving DecidableEq, Repr

/-- What translating one access gives. The detail is R309's [15:8] of PROT. -/
inductive Trans where
  | ok (p : Place) (leaf : DWord)
  | prot (kind : Nat)
  | pageflt
deriving DecidableEq, Repr

/-- What a walk's outcome makes of an access with its permission check (R178, R183). -/
def State.checkLeaf (s : State) (x : Nat) (va : DWord) (n : Need) (w : Walk) : Trans :=
  if field va 57 7 ≠ 0 then .prot 1 else
  match w with
  | .fault => .pageflt
  | .bad => .prot 1
  | .leaf e =>
    if (n.rd && !e.getLsbD 1) || (n.wr && !e.getLsbD 2) || (n.ex && !e.getLsbD 3) then .prot 2
    else match s.placeOf x va.toNat e with
      | some p => .ok p e
      | none => .prot 1

/-- The translation of an address on a die (R178, R182, R183). -/
def State.translate (s : State) (d x : Nat) (va : DWord) (n : Need) : Trans := s.checkLeaf x va n (s.walk d x va.toNat)

/-- The translation of an address for a group of a core (R178, R182, R183). -/
def State.translateAt (s : State) (k d x : Nat) (va : DWord) (n : Need) : Trans := s.checkLeaf x va n (s.walkAt k d x va.toNat)

/-- An access of a die to a page is counted for its migration (R180). -/
def State.countMigr (s : State) (d x va : Nat) (r : Trans) : State :=
  match r with
  | .ok (.peer _ _) e =>
    if field e 8 2 = 3 then s.modDie d fun y => { y with migr := mput y.migr (tlbKey x va) (mget 0 y.migr (tlbKey x va) + 1) } else s
  | _ => s

/-- The reservation granule of a place (R219): HBM granules are even, local-array granules odd. -/
def granule : Place → Nat
  | .hbm pa => 2 * (pa / 128)
  | .arr off => 2 * (off / 128) + 1
  | .peer pkg off => 2 * (2 ^ 60 + pkg * 2 ^ 50 + off / 128)

/-- Reservations on the granules `gs` are cleared: in every group for HBM, in team `t` for its array (R219). -/
def State.clearResv (s : State) (only : Option Nat) (gs : List Nat) : State :=
  { s with teams := s.teams.map fun (k, t) =>
      if only.isSome && only ≠ some k then (k, t)
      else (k, { t with groups := mmap t.groups fun g =>
        if g.resv.isEmpty then g else { g with resv := g.resv.filter fun r => !gs.contains r.2 } }) }

/-- Bytes written to a team's local array; reservations there are cleared (R219). -/
def State.arrWrite (s : State) (tid : Nat) (t : Team) (off : Nat) (bs : List Byte) : State :=
  (s.modCore t.coreKey fun c => { c with arr := wrBytes c.arr (t.base + off) bs }).clearResv (some tid)
    ((List.range ((off + bs.length + 127) / 128 - off / 128)).map fun i => 2 * (off / 128 + i) + 1)

/-- Bytes written to HBM as they stand, with reservations cleared (R219): no line is recalled. -/
def State.hbmWrite (s : State) (pa : Nat) (bs : List Byte) : State :=
  ({ s with hbm := wrBytes s.hbm pa bs }).clearResv none
    ((List.range ((pa + bs.length + 127) / 128 - pa / 128)).map fun i => 2 * (pa / 128 + i))

/-- One window line written back when dirty; it stays filled and clean (R190). Its bytes were written when they were stored into the
window: the write-back clears no reservation (R219). -/
def State.stashWriteBack (s : State) (tid w n : Nat) : State :=
  match mget? s.teams tid with
  | none => s
  | some t => match mget? t.wins w with
    | none => s
    | some win => match mget? win.lines n with
      | none => s
      | some l =>
        if l.dirty then
          ({ s with hbm := wrBytes s.hbm l.pa (s.arrRead t (win.lo + 128 * n) 128) }).modTeam tid fun t =>
            { t with wins := mmod t.wins w fun win => { win with lines := mmod win.lines n (fun l => { l with dirty := false }) } }
        else s

/-- One window line recalled: written back when dirty, then unfilled (R190, R191). -/
def State.stashRecall (s : State) (tid w n : Nat) : State :=
  (s.stashWriteBack tid w n).modTeam tid fun t =>
    { t with wins := mmod t.wins w fun win => { win with lines := mdel win.lines n } }

/-- The lines of 128 bytes that `n` bytes from `pa` touch. -/
def linesOf (pa n : Nat) : List Nat := (List.range ((pa + n + 127) / 128 - pa / 128)).map fun i => pa / 128 + i

/-- An access to HBM by any agent but the owner recalls the lines first (R191, R196): from stash windows of teams
other than `tid`, and from a core's L1. -/
def State.recallFor (s : State) (tid : Option Nat) (pa n : Nat) : State :=
  (linesOf pa n).foldl (fun s line =>
    let s := { s with owned := mdel s.owned line }
    match s.ownerOf line with
    | some (k, w, i) => if tid = some k then s else s.stashRecall k w i
    | none => s) s

/-- No line is owned: nothing is to be recalled. -/
def State.noneOwned (s : State) : Bool := s.owned.isEmpty && s.teams.all fun t => t.2.wins.isEmpty

/-- Ranges of HBM recalled from their owners (R191, R196). -/
def State.recallAll (s : State) (rs : List (Nat × Nat)) : State :=
  if s.noneOwned then s else rs.foldl (fun s r => s.recallFor none r.1 r.2) s

/-- The words that a walk from `levels` levels above the leaves reads (R176, R177). -/
def State.walkReads (s : State) (va : Nat) : Nat → Nat → List (Nat × Nat)
  | 0, node =>
    let a := node + va / 2 ^ 16 % 2 ^ 11 * 8
    (a, 8) :: if (s.hbmWord a).getLsbD 4 then [(a / 256 * 256, 256)] else []
  | n + 1, node =>
    let a := node + va / 2 ^ (27 + 10 * n) % 2 ^ 10 * 8
    let e := s.hbmWord a
    (a, 8) :: if e.getLsbD 0 then s.walkReads va n (hbmBase (field e 12 4) + field e 16 25 * 2 ^ 13) else []

/-- The lines that the walk for an address of a context reads recalled from their owners (R191, R196); a TLB that holds the page
spares the walk. -/
def State.walkRecall (s : State) (k : Option Nat) (d x va : Nat) : State :=
  let held := (mget? (s.die d).tlb (tlbKey x va)).isSome || (k.any fun k => (mget? (s.core k).tlb (tlbKey x va)).isSome)
  if s.noneOwned || held then s else s.recallAll (s.walkReads va 3 (hbmBase (s.ctx x).rootDie + (s.ctx x).rootOff))

/-- Reading at the home slice (R193, R196): owned lines are recalled first. -/
def State.homeRead (s : State) (pa n : Nat) : State × List Byte :=
  let s := s.recallFor none pa n
  (s, rdBytes s.hbm pa n)
/-- A group's write at the home slice (R193, R196): owned lines are recalled first. -/
def State.homePut (s : State) (pa : Nat) (bs : List Byte) : State := (s.recallFor none pa bs.length).hbmWrite pa bs
/-- Another agent's write at the home slice (R193, R196), as which the views of the cores note it (R210). -/
def State.homeWrite (s : State) (pa : Nat) (bs : List Byte) : State :=
  { s.homePut pa bs with views := s.views.map fun v => { v with eng := true } }

/-- A view meets some of `n` bytes from `pa`. -/
def View.meets (v : View) (pa n : Nat) : Bool := v.pa < pa + n && pa < v.pa + v.bytes.length
/-- An agent of a core has read or written these bytes: its groups read them as they are from then on (R210). -/
def State.dropViews (s : State) (core pa n : Nat) : State := { s with views := s.views.filter fun v => !(v.core = core && v.meets pa n) }
/-- Bytes that a group of a core reads at `pa`, with those of the core's views in their places (R210). -/
def State.viewed (s : State) (core pa : Nat) (bs : List Byte) : List Byte :=
  (s.views.filter fun v => v.core = core).foldl (fun bs v => bs.zipIdx.map fun b =>
    if v.pa ≤ pa + b.2 && pa + b.2 < v.pa + v.bytes.length then (v.bytes[pa + b.2 - v.pa]?).getD 0 else b.1) bs

/-- The sectors of 16 bytes that `n` bytes from `pa` touch (R193). -/
def sectorsOf (pa n : Nat) : List Nat := (List.range ((pa + n + 15) / 16 - pa / 16)).map fun i => pa / 16 + i

/-- Every sector of an access is present in the core's L1. -/
def CoreSt.l1Has (c : CoreSt) (pa n : Nat) : Bool := (sectorsOf pa n).all fun k => (mget? c.l1 k).isSome
/-- Bytes as the core's L1 holds them. -/
def CoreSt.l1Read (c : CoreSt) (pa n : Nat) : List Byte :=
  (List.range n).map fun i => ((mget [] c.l1 ((pa + i) / 16))[(pa + i) % 16]?).getD 0
/-- The sectors of an access filled from HBM (R193, R205). -/
def State.l1Fill (s : State) (core pa n : Nat) : State :=
  s.modCore core fun c => { c with l1 := (sectorsOf pa n).foldl (fun m k => mput m k (rdBytes s.hbm (k * 16) 16)) c.l1 }
/-- One byte of a present sector updated. -/
def l1SetByte (m : SMap (List Byte)) (a : Nat) (b : Byte) : SMap (List Byte) := mmod m (a / 16) fun l => l.set (a % 16) b
/-- A store updates the sectors present in the storing core's L1 and allocates nothing (R193); with CP = 3 it
invalidates them. -/
def State.l1Store (s : State) (core pa : Nat) (bs : List Byte) (bypass : Bool) : State :=
  s.modCore core fun c =>
    if bypass then { c with l1 := (sectorsOf pa bs.length).foldl (fun m k => mdel m k) c.l1 }
    else { c with l1 := bs.zipIdx.foldl (fun m bi => l1SetByte m (pa + bi.2) bi.1) c.l1 }
/-- An acquire at die scope or wider empties the core's L1 (R194), and its groups read nothing older from then on (R210). -/
def State.l1Clear (s : State) (core : Nat) : State :=
  { s.modCore core fun c => { c with l1 := [] } with views := s.views.filter fun v => v.core ≠ core }

/-- A range of the local array meets the local range of a mapped window (R192). -/
def Team.inWindow (t : Team) (off n : Nat) : Bool :=
  t.wins.any fun w => off < w.2.lo + w.2.len && w.2.lo < off + n

/-- The window of a team that holds a virtual address, with the line number in it (R189). -/
def Team.winOf (t : Team) (va : Nat) : Option (Nat × Nat) :=
  t.wins.findSome? fun (w, win) => if win.ga ≤ va && va < win.ga + win.len then some (w, (va - win.ga) / 128) else none

/-- A line of a window filled from its home slice, with ownership (R189). -/
def State.stashFill (s : State) (tid w n pa : Nat) : State :=
  match (mget? s.teams tid).bind fun t => (mget? t.wins w).map fun win => (t, win) with
  | none => s
  | some (t, win) =>
    if (mget? win.lines n).isSome then s else
    let (s, bs) := s.homeRead (pa / 128 * 128) 128
    (s.arrWrite tid t (win.lo + 128 * n) bs).modTeam tid fun t =>
      { t with wins := mmod t.wins w fun win => { win with lines := mput win.lines n ⟨pa / 128 * 128, false⟩, ever := n :: win.ever } }

/-- Bytes read at the home slice update the sectors of the core's L1 that hold them (R205). -/
def State.l1Update (s : State) (core pa : Nat) (bs : List Byte) : State :=
  s.modCore core fun c => { c with l1 := bs.zipIdx.foldl (fun m bi => l1SetByte m (pa + bi.2) bi.1) c.l1 }

/-- Bytes that an agent of a core has read or written elsewhere than in the core's L1 are those that the L1 holds from
then on, where it holds their sectors (R205, R210, R224; log 79). -/
def State.l1Refresh (s : State) (core : Option Nat) (pa : Nat) (bs : List Byte) : State :=
  match core with
  | some k =>
    let s := s.dropViews k pa bs.length
    if (s.core k).l1.isEmpty then s else s.l1Update k pa bs
  | none => s

/-- The bytes of one lane's load (R189, R193, R205): in the array for the array and for stash windows, in the
L1 when `l1` admits it, filling it on a miss, else at the home slice. A peer's bytes are those that the event
brought. -/
def State.laneRead (s : State) (tid : Nat) (p : Place) (va n : Nat) (l1 : Bool) (ext : List Byte) : State × List Byte :=
  match mget? s.teams tid with
  | none => (s, [])
  | some t =>
    match p with
    | .arr off => (s, s.arrRead t off n)
    | .peer _ _ => (s, (List.range n).map fun i => (ext[i]?).getD 0)
    | .hbm pa =>
      match t.winOf va with
      | some (w, k) =>
        let s := s.stashFill tid w k pa
        let bs := s.arrRead t (((mget? t.wins w).map fun win => win.lo + (va - win.ga)).getD 0) n
        (s.l1Refresh (some t.coreKey) pa bs, bs)
      | none =>
        if l1 then
          if (s.core t.coreKey).l1Has pa n then (s, (s.core t.coreKey).l1Read pa n)
          else
            let s := s.recallFor none pa n
            (s.l1Fill t.coreKey pa n, rdBytes s.hbm pa n)
        else
          let r := s.homeRead pa n
          (r.1.l1Update t.coreKey pa r.2, r.2)

/-- The key of a byte of a peer's page among those that L2s hold for a context (R295). -/
def copyKey (x pkg off : Nat) : Nat := (x * 2 ^ 17 + pkg) * 2 ^ 47 + off

/-- The L2s of a device changed in what they hold of peers' pages. -/
def State.modCopies (s : State) (dev : Nat) (f : SMap Byte → SMap Byte) : State :=
  { s with dies := s.dies.map fun d => (d.1, if deviceOf s.mgmt.mode d.1 = dev && !d.2.l2.isEmpty then { d.2 with l2 := f d.2.l2 } else d.2) }

/-- The copies of a context that lie on `n` bytes of a peer's page updated by a store, where they are held (R295). -/
def State.copyStore (s : State) (x pkg off : Nat) (bs : List Byte) : State :=
  s.modCopies (ctxDevice x) fun m => bs.zipIdx.foldl (fun m b => mmod m (copyKey x pkg (off + b.2)) fun _ => b.1) m

/-- The copies of a context on `n` bytes of a peer's page dropped. -/
def State.copyDrop (s : State) (x pkg off n : Nat) : State :=
  s.modCopies (ctxDevice x) fun m => m.filter fun e => !(copyKey x pkg off ≤ e.1 && e.1 < copyKey x pkg off + n)

/-- Every copy of a peer's page that a context holds on its device dropped (R295). -/
def State.dropCopies (s : State) (x : Nat) : State :=
  s.modCopies (ctxDevice x) fun m => m.filter fun e => e.1 / 2 ^ 64 ≠ x

/-- Bytes of a peer's page as a die of the device holds them for a context, all of them (R295). -/
def State.copyRead (s : State) (x pkg off n : Nat) : Option (List Byte) :=
  (s.dies.filter fun d => deviceOf s.mgmt.mode d.1 = ctxDevice x).findSome? fun d =>
    (List.range n).mapM fun i => mget? d.2.l2 (copyKey x pkg (off + i))

/-- The write of one lane's bytes (R189, R193). A peer's write leaves this package: any copy held here is updated (R295), and the
reservations that lanes hold on its granule are cleared (R219, R220). -/
def State.laneWrite (s : State) (tid : Nat) (p : Place) (va : Nat) (bs : List Byte) (bypass : Bool) : State :=
  match mget? s.teams tid with
  | none => s
  | some t =>
    match p with
    | .arr off => s.arrWrite tid t off bs
    | .peer pkg off => (s.copyStore t.ctx pkg off bs).clearResv none [granule p]
    | .hbm pa =>
      match t.winOf va with
      | some (w, k) =>
        let s := s.stashFill tid w k pa
        let s := (s.arrWrite tid t (((mget? t.wins w).map fun win => win.lo + (va - win.ga)).getD 0) bs).clearResv none [granule p]
        (s.modTeam tid fun t => { t with wins := mmod t.wins w fun win =>
          { win with lines := mmod win.lines k fun l => { l with dirty := true } } }).l1Refresh (some t.coreKey) pa bs
      | none => ((s.homePut pa bs).l1Store t.coreKey pa bs bypass).dropViews t.coreKey pa bs.length

/-- A virtual range cut where it may go on elsewhere, at every 4 KiB (R22, R179): the address and length of each piece. -/
def pageChunks (va n : Nat) : List (Nat × Nat) :=
  if n = 0 then [] else
  (List.range ((va % 4096 + n + 4095) / 4096)).map fun i =>
    let a := max va ((va / 4096 + i) * 4096)
    let e := min (va + n) ((va / 4096 + i + 1) * 4096)
    (a, e - a)

/-- A virtual range translated page by page, in ascending order: the pieces, or the first failure with its address. -/
def State.span (s : State) (d x va n : Nat) (need : Need) : Except (Trans × Nat) (List (Place × Nat)) :=
  (pageChunks va n).foldlM (fun acc c =>
    match s.translate d x (BitVec.ofNat 64 c.1) need with
    | .ok p _ => .ok (acc ++ [(p, c.2)])
    | e => .error (e, c.1)) []

/-- Bytes of a translated range, at the home slices (R221). A peer's bytes read as `peer` gives them. -/
def State.spanRead (s : State) (l : List (Place × Nat)) : State × List Byte :=
  l.foldl (fun (s, acc) c =>
    match c.1 with
    | .hbm pa => let (s, bs) := s.homeRead pa c.2; (s, acc ++ bs)
    | _ => (s, acc ++ List.replicate c.2 0)) (s, [])

/-- Bytes written to a translated range, at the home slices (R221), for a command of `core` if it is one's. -/
def State.spanWrite (s : State) (l : List (Place × Nat)) (bs : List Byte) (core : Option Nat := none) : State :=
  (l.foldl (fun (s, bs) c =>
    match c.1 with
    | .hbm pa => ((s.homeWrite pa (bs.take c.2)).l1Refresh core pa (bs.take c.2), bs.drop c.2)
    | _ => (s, bs.drop c.2)) (s, bs)).1

/-- Where the part itself finds a range of a context's memory; none where a page does not translate as it needs (R77). The spec does
not say how the part reaches a structure of its own on another package's page: DESIGN CHOICE, it cannot (log 114). -/
def State.ownSpan (s : State) (d x va n : Nat) (need : Need) : Option (List (Place × Nat)) :=
  match s.span d x va n need with
  | .ok l => if l.all fun c => match c.1 with | .hbm _ => true | _ => false then some l else none
  | .error _ => none

/-- The lines of a range that the part itself reads recalled from their owners (R191, R196). -/
def State.recallSpan (s : State) (d x va n : Nat) (need : Need) : State :=
  if s.noneOwned then s else
  s.recallAll (((s.ownSpan d x va n need).getD []).filterMap fun c => match c.1 with | .hbm pa => some (pa, c.2) | _ => none)

/-- A fetch for a context recalls the lines of the walk and those of the range (R191, R196). -/
def State.fetchRecall (s : State) (d x va n : Nat) : State :=
  if s.noneOwned then s else (s.walkRecall none d x va).recallSpan d x va n { ex := true }

/-- Bytes of a context's memory by virtual address, as the part itself reads them (R182, R221). -/
def State.vRead (s : State) (d x va n : Nat) : Option (List Byte) := (s.ownSpan d x va n { rd := true }).map fun l => (s.spanRead l).2

/-- Bytes written by the part itself to a context's memory (R77). -/
def State.vWrite (s : State) (d x va : Nat) (bs : List Byte) (core : Option Nat := none) : Option State :=
  (s.ownSpan d x va bs.length { wr := true }).map fun l => s.spanWrite l bs core

/-- A number of `n` bytes of a record that the part keeps, which needs write permission alone (R77). -/
def State.ownNat (s : State) (d x va n : Nat) : Option Nat := (s.ownSpan d x va n { wr := true }).map fun l => natOfBytes (s.spanRead l).2

/-- A number of `n` bytes read by the part itself. -/
def State.vNat (s : State) (d x va n : Nat) : Option Nat := (s.vRead d x va n).map natOfBytes

end Sys2Proof.Machine
end

