-- ==== Sys2Proof/Machine/Package.lean ====
section
/-! DEFINITION. The strip (01): rings, ranks and routes, the registers that report on the package, and a request for another
partition mode. -/
namespace Sys2Proof.Machine

/-! ### Rings -/

/-- The dies of a device, surviving or not (R21). -/
def allDies (mode dev : Nat) : List Nat := (List.range Config.dies).filter fun d => deviceOf mode d = dev

/-- How far clockwise a die lies from another. -/
def clockwise (from_ dst : Nat) : Nat := (dst + Config.dies - from_ % Config.dies) % Config.dies

/-- The reference point of ranks (R16): the die just clockwise of it. -/
def State.ringStart (s : State) (dev : Nat) : Nat :=
  match s.mgmt.brk with
  | some b => (b.fail + 1) % Config.dies
  | none => ((allDies s.mgmt.mode dev).head?).getD 0

/-- The place of a die in clockwise order from a start, among dies. -/
def insertCw (start d : Nat) : List Nat → List Nat
  | [] => [d]
  | e :: es => if clockwise start d ≤ clockwise start e then d :: e :: es else e :: insertCw start d es

/-- Dies in clockwise order from a start. -/
def sortCw (start : Nat) (ds : List Nat) : List Nat := ds.foldr (insertCw start) []

/-- The logical ring of a device: its surviving dies by rank (R16), and those that failed since a wrap last took effect (R436). -/
def State.ringOf (s : State) (dev : Nat) : List Nat :=
  sortCw (s.ringStart dev) ((allDies s.mgmt.mode dev).filter fun d => !(s.die d).failed || s.mgmt.falling.contains d)

/-- The rank of a die in a list of members. -/
def rankIn (ds : List Nat) (d : Nat) : Option Nat := if ds.contains d then some (ds.idxOf d) else none

/-- Whether a route from a die to another goes clockwise (R13, R17). -/
def State.goesCw (s : State) (a b : Nat) : Bool :=
  match s.mgmt.brk with
  | some k => clockwise ((k.fail + 1) % Config.dies) a < clockwise ((k.fail + 1) % Config.dies) b
  | none => clockwise a b < clockwise b a || (clockwise a b = clockwise b a && a % 2 = 0)

/-- How many boundaries a route crosses (R13, R17). -/
def State.hops (s : State) (a b : Nat) : Nat := if a = b then 0 else if s.goesCw a b then clockwise a b else clockwise b a

/-- The boundaries that a request from die `a` to die `b` crosses, in order, boundary `k` lying clockwise of die `k` (R13, R17). -/
def State.route (s : State) (a b : Nat) : List Nat :=
  (List.range (s.hops a b)).map fun i => if s.goesCw a b then (a + i) % Config.dies else (a + 2 * Config.dies - i - 1) % Config.dies

/-- The boundaries that the reply to a request crosses: the opposite ring takes it back over the same ones (R13). -/
def State.replyRoute (s : State) (a b : Nat) : List Nat := (s.route a b).reverse

/-! ### Registers that report -/

/-- RINGSTAT of a device (R20's map). -/
def State.ringstat (s : State) (dev : Nat) : Word :=
  let r := s.ringOf dev
  let org := (r.head?.getD (s.ringStart dev)) * 2 ^ 12
  match s.mgmt.brk with
  | none => BitVec.ofNat 32 (org + r.length)
  | some b => BitVec.ofNat 32 (2 ^ 31 + b.kind.toNat * 2 ^ 30 + b.fail * 2 ^ 16 + org + r.length)

/-- Fabric channels isolated or dark by disagreement (R332). -/
def Fabric.fdark (f : Fabric) : Nat := (f.isol ++ f.dark.filter fun c => !f.isol.contains c).length

/-- Failed or removed dies, as bits (R332). -/
def State.deadDies (s : State) : Nat :=
  (List.range Config.dies).foldl (fun a d => if (s.die d).failed then a + 2 ^ d else a) 0

/-- Cores removed from placement (R332). -/
def State.removedCores (s : State) : Nat := (s.cores.filter fun c => c.2.removed).length

/-- RFR is set once FDARK has exceeded 16 (R333). -/
def State.latchDark (s : State) : State :=
  if 16 < s.fab.fdark then { s with mgmt := { s.mgmt with health := { s.mgmt.health with rfr := true } } } else s

/-- RFR (R333): set by its conditions, and never cleared while the package works. -/
def State.needsReplacing (s : State) : Bool :=
  s.mgmt.health.rfr || s.deadDies ≠ 0 || s.mgmt.brk.isSome || s.mgmt.due.isSome || s.removedCores ≠ 0 || 16 < s.fab.fdark

/-- HEALTH as a device reads it (R332). -/
def State.healthWord (s : State) (dev : Nat) : DWord :=
  let h := s.mgmt.health
  BitVec.ofNat 64 (s.needsReplacing.toNat * 2 ^ 63 + h.tunc.toNat * 2 ^ 62 + h.therm.toNat * 2 ^ 61 + h.slref.toNat * 2 ^ 60 +
    (h.frlost.contains dev).toNat * 2 ^ 59 + min s.fab.fdark 511 * 2 ^ 50 + s.deadDies * 2 ^ 32 + min h.chret 255 * 2 ^ 24 +
    s.removedCores * 2 ^ 12 + min h.cecc 255)

/-- PARTMODE as it reads (R22's map). -/
def Mgmt.partmode (m : Mgmt) : Word := BitVec.ofNat 32 (m.busy.toNat * 2 ^ 31 + m.stat * 2 ^ 28 + m.mode)

/-- The devices of the present mode. -/
def State.devices (s : State) : List Nat := List.range (nDevices s.mgmt.mode)

/-- The PCI Express functions that the package presents: function 0, and one for each device (R29). -/
def State.functions (s : State) : Nat := 1 + s.devices.length

/-- The bytes of a device function's BAR0, registers and doorbells, and of its BAR2 window (R29). -/
def bar0Bytes : Nat := 64 * 2 ^ 20
def State.bar2Bytes (s : State) (dev : Nat) : Nat := 2 ^ mget 36 s.mgmt.bar2Log dev

/-- A write of PARTMODE (R23): ignored, refused, already done, or the change begins and every ready queue closes. -/
def State.requestMode (s : State) (v : Word) : State :=
  let m := s.mgmt
  let req := v.toNat / 256 % 4
  if m.busy then s
  else if req = 3 then { s with mgmt := { m with stat := 2 } }
  else if req = m.mode then { s with mgmt := { m with stat := 1 } }
  else { s with mgmt := { m with busy := true, req := req, since := m.time, closed := s.devices } }

/-! ### A page's distance -/

/-- The word of PGDIST (R200). Its NV is said of V = 0 and of bad entries, not of an address with bits 63:57 set, which no walk
reaches: DESIGN CHOICE, NV as well, since R178 makes every access there raise PROT (log 115). -/
def State.pgdist (s : State) (die x : Nat) (va : DWord) : Word :=
  if field va 57 7 ≠ 0 then 0xFFF else
  match s.walk die x va.toNat with
  | .leaf e =>
    let fab : Bool := field e 8 2 ≠ 0
    let il := e.getLsbD 6
    let home := field e 12 4
    let flags := (e.getLsbD 4).toNat * 2 ^ 10 + (e.getLsbD 5).toNat * 2 ^ 9 + fab.toNat * 2 ^ 8
    BitVec.ofNat 32 (flags + if fab || il then 0xFF else min 8 (s.hops die home) * 16 + home)
  | _ => 0xFFF

end Sys2Proof.Machine
end

