-- ==== Sys2Proof/Machine/Stores.lean ====
section
/-! DEFINITION. Scopes and the stores that have not reached their home slices (R206 to R211): which agents see a store that its
group has made, what a release makes visible before its own write, and how a store comes to be seen by more agents. -/
namespace Sys2Proof.Machine

/-- The instance of a scope as a level of visibility (R206): 0 the group, 1 the team, 2 the die, 3 the device; the wider scopes
are served at the home slice. -/
def scopeLevel (sc : Nat) : Nat := if sc ≤ 1 then 0 else if 5 ≤ sc then 4 else sc - 1

/-- The instance of level `l` of one group holds another group (R206): the teams, groups and dies of both are compared. -/
def inInstance (mode l : Nat) (team group die team' group' die' : Nat) : Bool :=
  match l with
  | 0 => team = team' && group = group'
  | 1 => team = team'
  | 2 => die = die'
  | _ => deviceOf mode die = deviceOf mode die'

/-- A buffered store is seen by a group of a team on a die. -/
def Buffered.seenBy (mode : Nat) (e : Buffered) (team group die : Nat) : Bool :=
  inInstance mode e.level e.team e.group e.die team group die

/-- It writes some of `n` bytes from `pa`. -/
def Buffered.meets (e : Buffered) (pa n : Nat) : Bool := e.pa < pa + n && pa < e.pa + e.bytes.length

/-- The buffered stores that a group of a team sees, in coherence order: what fewer agents see reaches its home later. -/
def State.stores (s : State) (tid gi : Nat) : List Buffered :=
  match mget? s.teams tid with
  | none => []
  | some t => [3, 2, 1, 0].flatMap fun l => s.wbuf.filter fun e => e.level = l && e.seenBy s.mgmt.mode tid gi t.die

/-- Bytes as read at `pa`, with those that a buffered store writes in their places. -/
def Buffered.onto (e : Buffered) (pa : Nat) (bs : List Byte) : List Byte :=
  bs.zipIdx.map fun b =>
    if e.pa ≤ pa + b.2 && pa + b.2 < e.pa + e.bytes.length then (e.bytes[pa + b.2 - e.pa]?).getD 0 else b.1

/-- Bytes that a group of a team reads at `pa` (R210): a read never misses a store that its agent sees. -/
def State.overlay (s : State) (tid gi pa : Nat) (bs : List Byte) : List Byte :=
  (s.stores tid gi).foldl (fun bs e => e.onto pa bs) bs

/-- The cores whose groups may have read a buffered store. -/
def State.readersOf (s : State) (e : Buffered) : List Nat :=
  let own := coreKey e.die e.core
  if e.level ≤ 1 then [own] else
  (s.cores.filter fun k => k.1 ≠ own && (if e.level = 2 then k.1 / Config.cores = e.die else
    deviceOf s.mgmt.mode (k.1 / Config.cores) = deviceOf s.mgmt.mode e.die)).map (·.1) ++ [own]

/-- A buffered store reaches its home slice (R193). The L1 of every core that may have read it holds its bytes from then on, where
it holds their sectors, so that no later read there is older (R205). -/
def State.landStore (s : State) (e : Buffered) : State :=
  let own := coreKey e.die e.core
  (s.readersOf e).foldl (fun s k => s.l1Store k e.pa e.bytes (e.bypass && k = own)) (s.homePut e.pa e.bytes)

/-- A buffered store clears the reservations on its granules of the groups that see it (R219); those of every other group are cleared
when it reaches its home slice. -/
def State.seenResv (s : State) (e : Buffered) : State :=
  let gs := (linesOf e.pa e.bytes.length).map (2 * ·)
  { s with teams := s.teams.map fun t => (t.1, { t.2 with groups := t.2.groups.map fun g =>
      (g.1, if e.seenBy s.mgmt.mode t.1 g.1 t.2.die then { g.2 with resv := g.2.resv.filter fun r => !gs.contains r.2 } else g.2) }) }

/-- Buffered stores, in coherence order, made visible at level `lvl`. -/
def State.raise (s : State) (es : List Buffered) (lvl : Nat) : State :=
  let s := { s with wbuf := s.wbuf.filter fun e => !es.any fun x => x.id = e.id }
  if 4 ≤ lvl then es.foldl (fun s e => s.landStore e) s
  else es.foldl (fun s e => s.seenResv { e with level := lvl }) { s with wbuf := s.wbuf ++ es.map fun e => { e with level := lvl } }

/-- Every store that a group sees made visible at level `lvl` at least: what a release of the group at that level does before its
write (R208, R209). -/
def State.raiseFor (s : State) (tid gi lvl : Nat) : State :=
  if s.wbuf.isEmpty then s else s.raise ((s.stores tid gi).filter fun e => e.level < lvl) lvl

/-- What a group sees buffered in a range reaches its home before the group accesses it there (R204). -/
def State.raiseMeet (s : State) (tid gi pa n : Nat) : State :=
  if (s.stores tid gi).any (·.meets pa n) then s.raiseFor tid gi 4 else s

/-- A release of a group of a core at a level, with the bytes that it writes, in the views of the other cores (R208, R210). -/
def State.noteRelease (s : State) (core lvl : Nat) (at_ : Option (Nat × Nat)) : State :=
  { s with views := s.views.map fun v => if v.core = core then v else { v with rels := (core / Config.cores, lvl, at_) :: v.rels } }

/-- A release of a group at a scope (R208), which writes the ranges `ws` (none for a fence): nothing without the release part. -/
def State.release (s : State) (tid gi ord sc : Nat) (ws : Option (List (Nat × Nat)) := none) : State :=
  if ord / 2 % 2 = 0 then s else
  let s := s.raiseFor tid gi (scopeLevel sc)
  match mget? s.teams tid, ws with
  | none, _ => s
  | some t, none => s.noteRelease t.coreKey (scopeLevel sc) none
  | some t, some l => l.foldl (fun s r => s.noteRelease t.coreKey (scopeLevel sc) (some r)) s

/-- Every store that a group of a team sees reaches its home: the team leaves its core. -/
def State.raiseTeam (s : State) (tid : Nat) : State :=
  match mget? s.teams tid with
  | none => s
  | some t => t.groups.foldl (fun s g => s.raiseFor tid g.1 4) s

/-- A store becomes visible one level further (R206, R210): after those of its level that wrote some of its bytes, and, where it is
a release at that level, after every store that its group saw when it made it. -/
def State.storeMove (s : State) (id : Nat) : State :=
  match s.wbuf.find? fun e => e.id = id with
  | none => s
  | some e =>
    let inOrder := (s.wbuf.takeWhile fun j => j.id ≠ id).all fun j =>
      !(j.level = e.level && e.meets j.pa j.bytes.length && inInstance s.mgmt.mode e.level j.team j.group j.die e.team e.group e.die)
    let released := match e.rel with
      | none => true
      | some r => r ≤ e.level || s.wbuf.all fun j => !(j.id < id && j.level ≤ e.level && j.seenBy s.mgmt.mode e.team e.group e.die)
    if inOrder && released then s.raise [e] (e.level + 1) else s

end Sys2Proof.Machine
end

