-- ==== Sys2Proof/WellFormed.lean ====
section
/-! DEFINITION. Which decoded words are instructions: the checks of R112 to R121 and of each entry that
depend on the word alone, with the reason of R129 that a failure reports. -/
namespace Sys2Proof

/-- The register files that a field can name (R37). -/
inductive RFile where
  | v | s | p
deriving DecidableEq, Repr

/-- One register operand: `count` registers from `first`, which must be a multiple of `align`. -/
structure RegUse where
  file  : RFile
  first : Nat
  count : Nat
  align : Nat
  write : Bool
deriving DecidableEq, Repr

/-- A register operand is legal under the budget `bud` (R39, R112): vector registers below the budget,
scalar registers below 64, predicates below 8, and the first register aligned. -/
def RegUse.legal (bud : Nat) (u : RegUse) : Bool :=
  u.first % u.align == 0 &&
  (match u.file with
   | .v => u.first + u.count ≤ bud
   | .s => u.first + u.count ≤ 64
   | .p => u.first < 8)

/-- The static checks of one instruction: zero fields (reason 3), values of defined fields (reason 6),
operand limits that the word decides (reason 10), registers (reason 5). -/
structure Check where
  zero : Bool := true
  vals : Bool := true
  lims : Bool := true
  regs : List RegUse := []
deriving DecidableEq, Repr

namespace Ty
/-- A type held in a register pair (R144). -/
def is64 : Ty → Bool
  | .u64 | .s64 | .f64 => true
  | _ => false
/-- The integer types of R385: u32, s32, u64, s64, u16x2, s16x2, u8x4 and s8x4. -/
def isInt : Ty → Bool
  | .u32 | .s32 | .u64 | .s64 | .u16x2 | .s16x2 | .u8x4 | .s8x4 => true
  | _ => false
/-- The single-element integer types. -/
def isInt1 : Ty → Bool
  | .u32 | .s32 | .u64 | .s64 => true
  | _ => false
/-- The types of format R floating-point arithmetic (R377). -/
def isFloat : Ty → Bool
  | .f32 | .f16 | .bf16 | .f16x2 | .bf16x2 | .f64 => true
  | _ => false
/-- The float types of format I and of the SFU (R114, R379). -/
def isFloatNarrow : Ty → Bool
  | .f32 | .f16 | .bf16 | .f16x2 | .bf16x2 => true
  | _ => false
/-- Types of two packed 16-bit floats. -/
def isPackedFloat : Ty → Bool
  | .f16x2 | .bf16x2 => true
  | _ => false
/-- A floating-point source or destination of CVT (R363). -/
def isFp : Ty → Bool
  | .f32 | .f16 | .bf16 | .f16x2 | .bf16x2 | .f64 | .e4m3x4 | .e5m2x4 => true
  | _ => false
/-- How many elements a register of the type holds (R144). -/
def elems : Ty → Nat
  | .u16x2 | .s16x2 | .f16x2 | .bf16x2 => 2
  | .e4m3x4 | .e5m2x4 | .u8x4 | .s8x4 => 4
  | _ => 1
/-- The width of one element in bits. -/
def width : Ty → Nat
  | .u64 | .s64 | .f64 => 64
  | .u32 | .s32 | .f32 => 32
  | .u16x2 | .s16x2 | .f16 | .bf16 | .f16x2 | .bf16x2 => 16
  | _ => 8
/-- A signed integer type (R385). -/
def signed : Ty → Bool
  | .s32 | .s64 | .s16x2 | .s8x4 => true
  | _ => false
/-- The type with a given code (R113). -/
def ofBits (b : BitVec 4) : Ty :=
  match b.toNat with
  | 0 => .u32 | 1 => .s32 | 2 => .u64 | 3 => .s64 | 4 => .u16x2 | 5 => .s16x2 | 6 => .f32 | 7 => .f16
  | 8 => .bf16 | 9 => .f16x2 | 10 => .bf16x2 | 11 => .f64 | 12 => .e4m3x4 | 13 => .e5m2x4 | 14 => .u8x4
  | _ => .s8x4
/-- The code of a type (R113). -/
def toBits : Ty → BitVec 4
  | .u32 => 0 | .s32 => 1 | .u64 => 2 | .s64 => 3 | .u16x2 => 4 | .s16x2 => 5 | .f32 => 6 | .f16 => 7
  | .bf16 => 8 | .f16x2 => 9 | .bf16x2 => 10 | .f64 => 11 | .e4m3x4 => 12 | .e5m2x4 => 13 | .u8x4 => 14
  | .s8x4 => 15
end Ty

/-- A vector or scalar operand of `n` registers aligned to `al`. -/
def useVS (scal : Bool) (r : BitVec 8) (n al : Nat) (w : Bool) : RegUse :=
  ⟨if scal then .s else .v, r.toNat, n, al, w⟩
/-- A scalar read of format E or S. -/
def rdS (r : BitVec 8) : RegUse := ⟨.s, r.toNat, 1, 1, false⟩
/-- An even scalar pair that is read. -/
def rdP (r : BitVec 8) : RegUse := ⟨.s, r.toNat, 2, 2, false⟩
/-- A scalar that is written. -/
def wrS (r : BitVec 8) : RegUse := ⟨.s, r.toNat, 1, 1, true⟩
/-- An even scalar pair that is written. -/
def wrP (r : BitVec 8) : RegUse := ⟨.s, r.toNat, 2, 2, true⟩
/-- A predicate destination. -/
def wrPred (p : Nat) : RegUse := ⟨.p, p, 1, 1, true⟩
/-- A predicate read. -/
def rdPred (p : Nat) : RegUse := ⟨.p, p, 1, 1, false⟩

/-- Registers of one operand of type `t`. -/
def tyRegs (t : Ty) : Nat := if t.is64 then 2 else 1

namespace FmtR
/-- The B field and its selector are unused and zero. -/
def noB (f : FmtR) : Bool := f.b == 0 && !f.bsc
/-- The C field and its selector are unused and zero. -/
def noC (f : FmtR) : Bool := f.c == 0 && !f.cs
/-- No modifier bit outside `mask` is set. -/
def admits (f : FmtR) (mask : BitVec 8) : Bool := (f.m &&& ~~~mask) == 0
/-- D as an operand of `n` registers. -/
def useD (f : FmtR) (n : Nat) : RegUse := useVS f.ds f.d n n true
/-- A as an operand of `n` registers. -/
def useA (f : FmtR) (n : Nat) : RegUse := useVS f.as f.a n n false
/-- B as an operand of `n` registers. -/
def useB (f : FmtR) (n : Nat) : RegUse := useVS f.bsc f.b n n false
/-- C as an operand of `n` registers. -/
def useC (f : FmtR) (n : Nat) : RegUse := useVS f.cs f.c n n false
/-- A scalar destination needs scalar sources (R337). -/
def scalA (f : FmtR) : Bool := !f.ds || f.as
/-- As `scalA`, for A and B. -/
def scalAB (f : FmtR) : Bool := !f.ds || (f.as && f.bsc)
/-- As `scalA`, for A, B and C. -/
def scalABC (f : FmtR) : Bool := !f.ds || (f.as && f.bsc && f.cs)

/-- Three-address integer operation with types `ok` and modifiers `mask`. -/
def ckInt2 (f : FmtR) (ok : Ty → Bool) (mask : BitVec 8) : Check :=
  let n := tyRegs f.t
  { zero := f.noC, vals := ok f.t && f.admits mask && f.scalAB, regs := [f.useD n, f.useA n, f.useB n] }
/-- A shift (R439): B is one register, C and M are zero. -/
def ckShift (f : FmtR) : Check :=
  let n := tyRegs f.t
  { zero := f.noC && f.m == 0, vals := f.t.isInt && f.scalAB, regs := [f.useD n, f.useA n, f.useB 1] }
/-- One source, types u32 and u64, `nd` destination registers (R359, R422, R352, R409). -/
def ckUn (f : FmtR) (nd : Nat) : Check :=
  { zero := f.noB && f.noC && f.m == 0, vals := (f.t == .u32 || f.t == .u64) && f.scalA
    regs := [f.useD nd, f.useA (tyRegs f.t)] }
/-- A comparison (R378, R386): predicate destination, condition in C[2:0]. -/
def ckCmp (f : FmtR) (ok : Ty → Bool) (mask : BitVec 8) (cmax : Nat) : Check :=
  let n := tyRegs f.t
  { zero := f.c.toNat < 8 && !f.cs && !f.ds, vals := ok f.t && f.admits mask && f.c.toNat ≤ cmax
    regs := [wrPred f.d.toNat, f.useA n, f.useB n] }
/-- A two-source float operation (R377). -/
def ckF2 (f : FmtR) (mask : BitVec 8) : Check :=
  let n := tyRegs f.t
  { zero := f.noC, vals := f.t.isFloat && f.admits mask && f.scalAB, regs := [f.useD n, f.useA n, f.useB n] }
/-- An SFU operation (R379, R380); `exact` for FRCP and FSQRT, which take every rounding at f32. -/
def ckSfu (f : FmtR) (exact : Bool) : Check :=
  { zero := f.noB && f.noC && f.admits 0xAF
    vals := f.t.isFloatNarrow && f.scalA && (exact || f.t != .f32 || (f.m &&& 3) == 0)
    regs := [f.useD 1, f.useA 1] }
/-- REDG and SCANG operations and types (R434). -/
def redOk (op : Nat) (t : Ty) : Bool :=
  (op ≤ 2 && t.isInt1) || (3 ≤ op && op ≤ 5 && (t == .u32 || t == .u64)) ||
  (6 ≤ op && op ≤ 8 && (t == .f32 || t == .f64))
end FmtR

namespace FmtI
/-- D and A of an immediate form; no type of a pair is admitted (R114). -/
def regs (f : FmtI) : List RegUse := [useVS f.ds f.d 1 1 true, useVS f.as f.a 1 1 false]
/-- An integer immediate form (R385, R439). -/
def ckInt (f : FmtI) : Check :=
  { zero := f.rm == 0, vals := (f.t == .u32 || f.t == .s32) && (!f.ds || f.as), regs := f.regs }
/-- IMM24[23:16] is zero for the 16-bit types (R114). -/
def immOk (f : FmtI) : Bool := f.t == .f32 || f.imm.toNat < 65536
/-- A float immediate form (R377); `rnd` when the rounding field is admitted. -/
def ckF (f : FmtI) (rnd : Bool) : Check :=
  { zero := f.immOk, vals := f.t.isFloatNarrow && (!f.ds || f.as) && (rnd || f.rm == 0), regs := f.regs }
/-- The condition of ICMP and FCMP in format I: COND[2:1] in RM, COND[0] in DS (R378). -/
def cond (f : FmtI) : Nat := f.rm.toNat * 2 + f.ds.toNat
/-- Predicate destination and A. -/
def cmpRegs (f : FmtI) : List RegUse := [wrPred f.d.toNat, useVS f.as f.a 1 1 false]
end FmtI

namespace FmtM
/-- Registers of one lane's data for width code `w` (R390). -/
def dataRegs (w : BitVec 3) : Nat := if w == 3 then 2 else if w == 4 then 4 else 1
/-- Base and index registers (R172, R173). -/
def addrRegs (f : FmtM) : List RegUse :=
  (if f.sp then useVS f.asb f.a 1 1 false else useVS f.asb f.a 2 2 false) ::
  (if f.b == 0xFF then [] else [useVS false f.b 1 1 false])
/-- W, SC and OR hold defined values (R116); O only in the local array. -/
def valsOk (f : FmtM) (ws : List Nat) : Bool :=
  ws.contains f.w.toNat && f.sc != 7 && (f.ord == 0 || f.sc != 0)
/-- LD and ST (R390, R448), LDRSV (R392). -/
def ckLdSt (f : FmtM) (ws : List Nat) (w : Bool) : Check :=
  let n := dataRegs f.w
  { zero := f.sp || !f.o, vals := f.valsOk ws, regs := ⟨.v, f.d.toNat, n, n, w⟩ :: f.addrRegs }
/-- The operation code of an atomic (R116). -/
def aop (f : FmtM) : Nat := f.off.toNat % 16
/-- R342's rules for the float and signed bits of operation `op`. -/
def aopOk (op : Nat) (flt sgn : Bool) : Bool :=
  op ≤ 11 && (flt == (9 ≤ op)) && (!sgn || op == 1 || op == 2)
/-- ATOM and RED (R342, R433). -/
def ckAtom (f : FmtM) (w : Bool) : Check :=
  let n := dataRegs f.w
  { zero := !f.o && f.off.toNat < 64
    vals := f.valsOk [2, 3] && aopOk f.aop (f.off.getLsbD 5) (f.off.getLsbD 4)
    regs := ⟨.v, f.d.toNat, n, n, w⟩ :: f.addrRegs }
end FmtM

namespace FmtX
/-- Registers of the A fragment: 16, or 32 for shape 2 (R229). -/
def aRegs (f : FmtX) : Nat := if f.sh == 2 then 32 else 16
/-- Registers of the B fragment: 32, or 64 for shape 2 (R229). -/
def bRegs (f : FmtX) : Nat := if f.sh == 2 then 64 else 32
/-- A source type code that fits the shape; 7 is checked at issue (R117). -/
def taOk (ta sh : Nat) : Bool :=
  ta == 7 || ((ta == 0 || ta == 1 || ta == 4) && sh != 1) || ((ta == 2 || ta == 3) && sh == 1)
/-- The B operand's registers and the buffer number (R406). -/
def regs (f : FmtX) : List RegUse :=
  [⟨.v, f.d.toNat, 16, 1, true⟩, ⟨.v, f.a.toNat, f.aRegs, 1, false⟩] ++
  (if !f.bs then [⟨.v, f.b.toNat, f.bRegs, 1, false⟩] else if f.bb then [] else [rdP f.b])
/-- MMA (R406). -/
def ckMma (f : FmtX) : Check :=
  { zero := f.sn == 0
    vals := f.sm == 0 && f.sh.toNat ≤ 2 && taOk f.ta.toNat f.sh.toNat &&
      (f.tc != 1 || f.ta == 4 || f.ta == 7) && (!f.bo || f.bs) && (!f.bb || f.bs) && (!f.pop || f.bb)
    lims := !f.bb || f.b.toNat < 8
    regs := f.regs }
/-- MMAS (R406). -/
def ckMmas (f : FmtX) : Check :=
  { vals := f.sm == 1 && f.sh == 2 && (f.ta == 0 || f.ta == 1 || f.ta == 7) && (f.tc == 0 || f.tc == 3) &&
      (!f.bo || f.bs) && (!f.bb || f.bs) && (!f.pop || f.bb)
    lims := !f.bb || f.b.toNat < 8
    regs := f.regs ++ [⟨.s, f.sn.toNat, 4, 2, false⟩] }
end FmtX

namespace FmtE
/-- FLG has no bit set at or above bit `n`, and SUB and QB are zero. -/
def plain (f : FmtE) (n : Nat) : Bool := f.flg.toNat < 2 ^ n && f.sub == 0 && f.qb == 0
/-- As `plain`, with QB used. -/
def plainQ (f : FmtE) (n : Nat) : Bool := f.flg.toNat < 2 ^ n && f.sub == 0
/-- S fields from S`k` up are zero. -/
def noS (f : FmtE) (k : Nat) : Bool :=
  (k > 0 || f.s0 == 0) && (k > 1 || f.s1 == 0) && (k > 2 || f.s2 == 0) && (k > 3 || f.s3 == 0)
/-- Bit `n` of FLG. -/
def flag (f : FmtE) (n : Nat) : Bool := f.flg.getLsbD n
/-- FLG[2:0], the predicate destination of ARRV, TEMIT and RWAIT. -/
def pd (f : FmtE) : Nat := f.flg.toNat % 8
end FmtE

/-- System register identifiers that are 64 bits wide (R150). -/
def sysWide (id : Nat) : Bool :=
  [0x01, 0x02, 0x03, 0x10, 0x11, 0x13, 0x14, 0x21, 0x30, 0x31, 0x32, 0x40, 0x41, 0x60, 0x61].contains id

/-- FMT obeys its map (R151). -/
def fmtOk (v : BitVec 16) : Bool :=
  v.toNat < 1024 && (v.toNat / 32 % 4 < 2) && (v.toNat / 8 % 4 < 3) && (v.toNat % 8 < 5)

/-- The two packed types of a CVT have equal counts, or one side is single (R363). -/
def cvtCounts (d s : Ty) : Bool := d.elems == s.elems || d.elems == 1 || s.elems == 1

/-- The checks of every constructor that its word alone decides. R129 ties no reason to what an entry of the reference forbids without
naming one: CVT with M[59] or M[61] and an integer source, CPY and CPYT with BUF and without DL, STASHM with ASB 0. DESIGN CHOICE,
reason 6, an illegal value in a defined field, and not 3 (log 118). -/
def Instr.check : Instr → Check
  | .nop _ => {}
  | .iadd f => f.ckInt2 Ty.isInt 0x04
  | .iaddImm f => f.ckInt
  | .isub f => f.ckInt2 Ty.isInt 0x04
  | .isubImm f => f.ckInt
  | .imul f => f.ckInt2 (fun t => t.isInt1 || t == .u16x2 || t == .s16x2) 0x04
  | .imulImm f => f.ckInt
  | .imad f =>
    let n := tyRegs f.t
    { vals := f.t.isInt1 && f.admits 0x84 && (f.m != 0x84) && f.scalABC
      regs := [f.useD n, f.useA n, f.useB n, f.useC n] }
  | .imin f => f.ckInt2 Ty.isInt 0
  | .iminImm f => f.ckInt
  | .imax f => f.ckInt2 Ty.isInt 0
  | .imaxImm f => f.ckInt
  | .iabs f =>
    let n := tyRegs f.t
    { zero := f.noB && f.noC
      vals := (f.t == .s32 || f.t == .s64 || f.t == .s16x2 || f.t == .s8x4) && f.admits 0x04 && f.scalA
      regs := [f.useD n, f.useA n] }
  | .icmp f => f.ckCmp Ty.isInt1 0 5
  | .icmpImm f => { vals := (f.t == .u32 || f.t == .s32) && f.cond ≤ 5, regs := f.cmpRegs }
  | .shl f => f.ckShift
  | .shlImm f => f.ckInt
  | .shr f => f.ckShift
  | .shrImm f => f.ckInt
  | .sar f => f.ckShift
  | .sarImm f => f.ckInt
  | .log3 f =>
    let n := tyRegs f.t
    { zero := !f.cs && f.m == 0, vals := (f.t == .u32 || f.t == .u64) && f.scalAB
      regs := [f.useD n, f.useA n, f.useB n] }
  | .popc f => f.ckUn 1
  | .clz f => f.ckUn 1
  | .brev f => f.ckUn (tyRegs f.t)
  | .bfx f =>
    let n := tyRegs f.t
    { zero := f.noC && f.m == 0, vals := f.t.isInt1 && f.scalAB, regs := [f.useD n, f.useA n, f.useB 1] }
  | .bfi f =>
    let n := tyRegs f.t
    { zero := f.m == 0, vals := (f.t == .u32 || f.t == .u64) && f.scalABC
      regs := [f.useD n, f.useA n, f.useB n, f.useC 1] }
  | .lea f =>
    let n := tyRegs f.t
    { zero := f.c.toNat < 64 && !f.cs && f.m == 0, vals := f.t.isInt1 && f.scalAB
      regs := [f.useD n, f.useA n, f.useB 1] }
  | .sel f =>
    let n := tyRegs f.t
    { zero := f.c.toNat < 8 && !f.cs && f.m == 0, vals := (f.t == .u32 || f.t == .u64) && !f.ds
      regs := [f.useD n, f.useA n, f.useB n, rdPred f.c.toNat] }
  | .mov f => f.ckUn (tyRegs f.t)
  | .movi f => { regs := [useVS f.ds f.d 1 1 true] }
  | .fadd f => f.ckF2 0xEF
  | .faddImm f => f.ckF true
  | .fmul f => f.ckF2 0xEF
  | .fmulImm f => f.ckF true
  | .ffma f =>
    let n := tyRegs f.t
    { vals := f.t.isFloat && f.scalABC, regs := [f.useD n, f.useA n, f.useB n, f.useC n] }
  | .fmin f => f.ckF2 0xE8
  | .fminImm f => f.ckF false
  | .fmax f => f.ckF2 0xE8
  | .fmaxImm f => f.ckF false
  | .fcmp f => f.ckCmp (fun t => t.isFloat && !t.isPackedFloat) 0xE8 7
  | .fcmpImm f => { zero := f.immOk, vals := f.t == .f32 || f.t == .f16 || f.t == .bf16, regs := f.cmpRegs }
  | .frcp f => f.ckSfu true
  | .frsq f => f.ckSfu false
  | .fsqrt f => f.ckSfu true
  | .fex2 f => f.ckSfu false
  | .flg2 f => f.ckSfu false
  | .fsin f => f.ckSfu false
  | .fcos f => f.ckSfu false
  | .ftanh f => f.ckSfu false
  | .cvt f =>
    let src := Ty.ofBits (f.c.extractLsb' 0 4)
    { zero := f.noB && f.c.toNat < 16 && !f.cs && f.admits 0xAF
      vals := (src.isFp || f.admits 0x87) && cvtCounts f.t src && f.scalA
      regs := [f.useD (tyRegs f.t), f.useA (tyRegs src)] }
  | .cvtef f =>
    { zero := f.noB && f.noC && f.admits 0x87
      vals := (f.t == .f16 || f.t == .bf16 || f.t == .e4m3x4 || f.t == .e5m2x4) && f.scalA
      regs := [f.useD 2, f.useA 1] }
  | .pack4 f =>
    { zero := f.noB && f.noC
      vals := ((f.t == .u8x4 || f.t == .s8x4) && f.admits 0x04 ||
        (f.t == .e4m3x4 || f.t == .e5m2x4) && f.admits 0x87) && f.scalA
      regs := [f.useD 1, f.useA 4] }
  | .unpk4 f =>
    { zero := f.noB && f.noC && f.m == 0
      vals := (f.t == .u8x4 || f.t == .s8x4 || f.t == .e4m3x4 || f.t == .e5m2x4) && f.scalA
      regs := [f.useD 4, f.useA 1] }
  | .shfl f =>
    let n := tyRegs f.t
    let k := f.c.toNat / 4 % 8
    { zero := !f.as && !f.cs && f.m == 0, vals := (f.t == .u32 || f.t == .u64) && !f.ds && 1 ≤ k && k ≤ 6
      regs := [f.useD n, f.useA n, f.useB 1] ++ (if f.c.toNat / 32 == 7 then [] else [wrPred (f.c.toNat / 32)]) }
  | .vote f =>
    let mode := f.c.toNat % 4
    { zero := f.a.toNat < 8 && !f.as && f.c.toNat < 4 && !f.cs && f.noB && f.t == .u32 && f.m == 0
      vals := mode != 3 && (mode != 2 || f.ds)
      regs := [rdPred f.a.toNat, if f.ds then useVS true f.d (if mode == 2 then 2 else 1) (if mode == 2 then 2 else 1) true
        else wrPred f.d.toNat] }
  | .redg f =>
    let n := tyRegs f.t
    { zero := !f.as && f.c.toNat < 16 && !f.cs && f.noB && f.admits 0x03, vals := FmtR.redOk f.c.toNat f.t
      regs := [f.useD n, f.useA n] }
  | .scang f =>
    let n := tyRegs f.t
    { zero := !f.as && f.c.toNat < 32 && !f.cs && f.noB && f.admits 0x03
      vals := FmtR.redOk (f.c.toNat % 16) f.t && !f.ds, regs := [f.useD n, f.useA n] }
  | .ld f => f.ckLdSt [0, 1, 2, 3, 4] true
  | .st f => f.ckLdSt [0, 1, 2, 3, 4] false
  | .ldrsv f => f.ckLdSt [2, 3] true
  | .stcnd f =>
    let n := FmtM.dataRegs f.w
    { zero := f.sp || !f.o, vals := f.valsOk [2, 3]
      regs := [⟨.v, f.d.toNat, n, n, false⟩, ⟨.v, f.d.toNat + n, 1, 1, true⟩] ++ f.addrRegs }
  | .atom f => f.ckAtom true
  | .atcas f =>
    let n := FmtM.dataRegs f.w
    { zero := !f.o && f.off == 0, vals := f.valsOk [2, 3]
      regs := [⟨.v, f.d.toNat, 2 * n, 2, false⟩, ⟨.v, f.d.toNat, n, 1, true⟩] ++ f.addrRegs }
  | .red f => f.ckAtom false
  | .fence f =>
    { zero := f.off.toNat < 2 && f.cp == 0 && !f.sp && !f.asb && !f.o && f.w == 0 && f.b == 0 && f.a == 0 && f.d == 0
      vals := f.sc != 0 && f.sc != 7 && f.ord != 0 }
  | .pref f =>
    { zero := f.d == 0 && f.sc == 0 && f.ord == 0 && !f.o && !f.sp, vals := f.w.toNat ≤ 4, regs := f.addrRegs }
  | .stashm f =>
    { zero := f.off.toNat < 4 && f.w == 0 && !f.o && !f.sp && f.sc == 0 && f.ord == 0 && f.cp == 0
      vals := f.asb, regs := [rdP f.a, rdS f.d, rdS f.b] }
  | .stashw f =>
    { zero := f.off.toNat < 4 && f.w == 0 && !f.o && !f.sp && f.sc == 0 && f.ord == 0 && f.cp == 0 && !f.asb &&
        f.a == 0 && f.b == 0 && f.d == 0 }
  | .stashu f =>
    { zero := f.off.toNat < 4 && f.w == 0 && !f.o && !f.sp && f.sc == 0 && f.ord == 0 && f.cp == 0 && !f.asb &&
        f.a == 0 && f.b == 0 && f.d == 0 }
  | .cpy f =>
    { zero := f.sub == 0 && f.flg.toNat < 16 && (f.flag 2 || f.qb == 0) && (f.flag 3 || f.s3 == 0)
      vals := !f.flag 2 || f.flag 1
      lims := f.qb.toNat < 8 && (!f.flag 3 || !f.flag 0)
      regs := [if f.flag 1 then rdS f.s0 else rdP f.s0, if f.flag 0 || f.flag 3 then rdS f.s1 else rdP f.s1, rdS f.s2] ++
        (if f.flag 3 then [rdS f.s3] else []) }
  | .cpyt f =>
    { zero := f.sub == 0 && f.flg.toNat < 32 && !f.flag 3 && (f.flag 2 || f.qb == 0)
      vals := !f.flag 2 || f.flag 1
      lims := f.qb.toNat < 8 && (!f.flag 4 || f.flag 1)
      regs := [if f.flag 1 then rdS f.s0 else rdP f.s0, if f.flag 0 then rdS f.s1 else rdP f.s1, rdS f.s2, rdS f.s3] }
  | .closeb f => { zero := f.plain 0 && f.noS 1, regs := [wrS f.s0] }
  | .waitb f => { zero := f.plain 0 && f.noS 1, regs := [rdS f.s0] }
  | .bufcfg f => { zero := f.plainQ 0, lims := f.qb.toNat < 8, regs := [rdS f.s0, rdS f.s1, rdS f.s2, rdS f.s3] }
  | .bufwait f => { zero := f.plainQ 4 && f.noS 1, lims := f.qb.toNat < 8, regs := [wrS f.s0] }
  | .bufrel f => { zero := f.plainQ 5 && f.noS 0, lims := f.qb.toNat < 8 }
  | .lnstart f => { zero := f.plain 0 && f.noS 1, regs := [rdS f.s0] }
  | .lnstop f => { zero := f.plain 0 && f.noS 0 }
  | .mma f => f.ckMma
  | .mmas f => f.ckMmas
  | .mdrain f =>
    let kind := f.sub.toNat % 4
    { zero := f.s2 == 0 && f.s3 == 0 && (kind == 2 || f.qb == 0) && (kind != 2 || (f.s0 == 0 && f.s1 == 0))
      vals := kind != 3, lims := f.qb.toNat < 8
      regs := ⟨.v, f.flg.toNat, 16, 1, false⟩ ::
        (if kind == 0 then [rdS f.s0, rdS f.s1] else if kind == 1 then [rdP f.s0, rdS f.s1] else []) }
  | .epload f => { zero := f.plain 0 && f.noS 0 }
  | .bra f => { zero := f.kind == 0 || f.rcv == 0, vals := f.kind.toNat ≤ 2 && f.cond == 0 }
  | .brx f =>
    { zero := f.tgt.toNat < 256, vals := f.kind.toNat ≤ 1 && f.cond == 0
      regs := [useVS (f.kind == 1) (f.tgt.extractLsb' 0 8) 1 1 false] }
  | .call f =>
    { zero := f.rcv == 0 && (f.kind != 1 || f.tgt.toNat < 256), vals := f.kind.toNat ≤ 1 && f.cond == 0
      regs := ⟨.s, 62, 2, 1, true⟩ :: (if f.kind == 1 then [rdS (f.tgt.extractLsb' 0 8)] else []) }
  | .ret f =>
    { zero := f.tgt == 0 && f.rcv == 0, vals := f.kind == 0 && f.cond == 0, regs := [⟨.s, 62, 2, 1, false⟩] }
  | .retT f => { zero := f.tgt == 0 && f.rcv == 0, vals := f.kind == 1 && f.cond == 0 }
  | .merge f => { zero := f.tgt == 0 && f.rcv == 0 && f.kind == 0 && f.cond == 0 }
  | .loop f =>
    { zero := f.kind != 1 || f.rcv.toNat < 256, vals := f.kind.toNat ≤ 1 && f.cond == 0
      regs := if f.kind == 1 then [rdS (f.rcv.extractLsb' 0 8)] else [] }
  | .exit f => { zero := f.tgt == 0 && f.rcv == 0 && f.kind == 0 && f.cond == 0 }
  | .yield f => { zero := f.tgt == 0 && f.rcv == 0 && f.kind == 0 && f.cond == 0 }
  | .trap f => { zero := f.sys == 0 && f.a == 0 && f.d == 0 }
  | .bkpt f => { zero := f.tgt == 0 && f.kind == 0 && f.cond == 0 }
  | .bar f =>
    { zero := f.sub == 0 && !f.flag 6 && (if f.flag 7 then f.flg.toNat % 64 == 0 else f.s0 == 0) && f.s1 == 0 && f.s2 == 0 && f.s3 == 0
      regs := if f.flag 7 then [rdS f.s0] else [] }
  | .bara f =>
    { zero := f.sub == 0 && !f.flag 6 && (if f.flag 7 then f.flg.toNat % 64 == 0 else f.s0 == 0) && f.s1 == 0 && f.s2 == 0 && f.s3 == 0
      regs := if f.flag 7 then [rdS f.s0] else [] }
  | .barw f => { zero := f.plainQ 0 && f.noS 0 }
  | .movsr f =>
    let n := if sysWide f.sys.toNat then 2 else 1
    { zero := f.imm == 0 && f.a == 0, regs := [⟨.s, f.d.toNat, n, n, true⟩] }
  | .movsrWrite f =>
    let n := if sysWide f.sys.toNat then 2 else 1
    { zero := f.imm == 1 && f.d == 0, regs := [⟨.s, f.a.toNat, n, n, false⟩] }
  | .movsv f =>
    { zero := f.imm.toNat < 2 && f.sys == 0, vals := !(f.imm == 1 && f.a.toNat < 2), lims := f.a.toNat ≤ 0x18
      regs := [useVS (f.imm == 1) f.d 1 1 true] }
  | .time f => { zero := f.imm == 0 && f.sys == 0 && f.a == 0, regs := [wrP f.d] }
  | .cycle f => { zero := f.imm == 0 && f.sys == 0 && f.a == 0, regs := [wrP f.d] }
  | .pgdist f => { zero := f.imm == 0 && f.sys == 0, regs := [wrS f.d, rdP f.a] }
  | .setfmt f => { zero := f.sys == 0 && f.a == 0 && f.d == 0, lims := fmtOk f.imm }
  | .rag f => { zero := f.plain 0 && f.noS 1, regs := [rdP f.s0] }
  | .rrs f => { zero := f.plain 0 && f.noS 1, regs := [rdP f.s0] }
  | .rhnd f => { zero := f.plain 0 && f.noS 2, regs := [rdP f.s0, rdS f.s1] }
  | .rwait f =>
    { zero := f.plain 3 && f.noS 2, regs := [rdP f.s0, rdS f.s1] ++ (if f.pd == 7 then [] else [wrPred f.pd]) }
  | .rrank f => { zero := f.plain 0 && f.noS 1, regs := [wrP f.s0] }
  | .rput f => { zero := f.plainQ 1, regs := [if f.flag 0 then rdS f.s0 else rdP f.s0, rdP f.s1, rdP f.s2, rdS f.s3] }
  | .rget f => { zero := f.plainQ 1, regs := [if f.flag 0 then rdS f.s0 else rdP f.s0, rdP f.s1, rdS f.s2, rdS f.s3] }
  | .ratom f =>
    let op := f.sub.toNat
    { zero := f.flg.toNat < 8, vals := op ≤ 12
      lims := if op == 12 then !f.flag 2 && !f.flag 1 else FmtM.aopOk op (f.flag 2) (f.flag 1)
      regs := [rdP f.s0, rdP f.s1, ⟨.s, f.s2.toNat, if op == 12 then 4 else 2, if op == 12 then 4 else 2, false⟩, rdS f.s3] }
  | .rpost f => { zero := f.flg.toNat < 2 && f.s3 == 0, vals := f.sub == 0, regs := [rdP f.s0, rdS f.s1, rdS f.s2] }
  | .rpostGet f => { zero := f.flg.toNat < 2 && f.s3 == 0, vals := f.sub == 1, regs := [rdP f.s0, rdS f.s1, rdS f.s2] }
  | .rcqw f => { zero := f.plainQ 4 && f.noS 1, lims := f.flg.toNat % 16 != f.qb.toNat, regs := [rdP f.s0] }
  | .wreg f => { zero := f.plain 0, regs := [rdS f.s0, wrS f.s0, rdP f.s1, rdP f.s2, rdS f.s3] }
  | .wrev f => { zero := f.plain 0 && f.noS 1, regs := [rdS f.s0] }
  | .tasknew f => { zero := f.plain 0 && f.noS 2, regs := [wrS f.s0, rdP f.s1] }
  | .taskdec f => { zero := f.plain 0 && f.noS 2, regs := [rdP f.s0, rdS f.s1] }
  | .temit f =>
    { zero := f.plain 4 && f.noS 2
      regs := [rdP f.s0, if f.flag 3 then rdP f.s1 else rdS f.s1] ++ (if f.pd == 7 then [] else [wrPred f.pd]) }
  | .qpull f => { zero := f.plainQ 1 && f.noS 2, regs := [wrS f.s0, rdS f.s1] }
  | .qpush f => { zero := f.flg == 0 && f.noS 2, vals := f.sub == 0, regs := [rdS f.s0, rdS f.s1] }
  | .qpushClose f => { zero := f.flg == 0 && f.noS 1, vals := f.sub == 1, regs := [rdS f.s0] }
  | .arrv f =>
    { zero := f.plain 4 && f.noS 3, regs := [wrS f.s0, rdP f.s1, rdS f.s2] ++ (if f.pd == 7 then [] else [wrPred f.pd]) }
  | .snew f => { zero := f.plain 0, regs := [wrS f.s0, rdS f.s1, rdP f.s2, rdP f.s3] }
  | .sres f => { zero := f.plain 0 && f.noS 3, regs := [wrS f.s0, rdS f.s1, rdS f.s2] }
  | .scommit f => { zero := f.plain 0 && f.noS 3, regs := [rdS f.s0, rdS f.s1, rdS f.s2] }
  | .sfork f => { zero := f.plain 0, regs := [wrS f.s0, rdS f.s1, rdS f.s2, rdP f.s3] }
  | .slen f => { zero := f.plain 0 && f.noS 2, regs := [wrS f.s0, rdS f.s1] }
  | .srel f => { zero := f.plain 0 && f.noS 1, regs := [rdS f.s0] }
  | .sseek f => { zero := f.plain 0, regs := [wrP f.s0, rdS f.s1, rdS f.s2, rdS f.s3, wrS f.s3] }
  | .kst f => { zero := f.plain 1, regs := [rdS f.s0, rdS f.s1, if f.flag 0 then rdP f.s2 else rdS f.s2, rdS f.s3] }
  | .bgath f => { zero := f.plain 1, regs := [wrS f.s0, rdS f.s1, rdS f.s2, rdS f.s3] }
  | .projld f => { zero := f.plain 0 && f.noS 3, regs := [rdS f.s0, rdP f.s1, rdS f.s2] }
  | .projldFree f => { zero := f.flg == 1 && f.sub == 0 && f.qb == 0 && f.noS 1, regs := [rdS f.s0] }
  | .flpop f => { zero := f.plain 0 && f.noS 1, regs := [wrS f.s0] }
  | .flpush f => { zero := f.plain 0 && f.noS 1, regs := [rdS f.s0] }
  | .pfxfind f => { zero := f.plain 1 && f.noS 3, regs := [wrS f.s0, rdP f.s1, rdS f.s2] }
  | .pfxins f => { zero := f.plain 1, regs := [wrP f.s0, rdP f.s1, rdS f.s2, rdS f.s3] }
  | .hashb f => { zero := f.plain 1 && f.noS 3, regs := [wrP f.s0, if f.flag 0 then rdS f.s1 else rdP f.s1, rdP f.s2] }
  | .plcq f => { zero := f.flg == 0 && f.qb == 0 && f.noS 3, vals := f.sub == 0, regs := [wrP f.s0, rdS f.s1, rdS f.s2] }
  | .plcqShort f => { zero := f.flg == 0 && f.qb == 0 && f.noS 2, vals := f.sub == 1, regs := [wrP f.s0, rdS f.s1] }
  | .epadd f => { zero := f.imm == 0 && f.tm.toNat < 4 && f.c == 0 }
  | .epmul f => { zero := f.imm == 0 && f.tm.toNat < 4 && f.c == 0 }
  | .epfma f => { zero := f.imm == 0 && f.tm.toNat < 8 }
  | .epmax f => { zero := f.imm == 0 && f.tm.toNat < 4 && f.c == 0 }
  | .epmin f => { zero := f.imm == 0 && f.tm.toNat < 4 && f.c == 0 }
  | .epexp f => { zero := f.imm == 0 && f.tm.toNat < 2 && f.c == 0 && f.b == 0 }
  | .eplut f => { zero := f.imm == 0 && (f.tm == 6 || f.tm == 7) }
  | .epcvt f => { zero := f.imm == 0 && f.tm.toNat < 4 && f.c == 0 && f.b == 0 && f.d != 15 }
  | .epbias f => { zero := f.imm == 0 && f.tm.toNat < 2 && f.c == 0 && f.b.toNat ≤ 12 }
  | .epscl f => { zero := f.tm.toNat < 2 && f.c == 0 && f.b == 0 }
  | .epst f => { zero := f.tm.toNat < 5 && f.c == 0 && f.b == 0 && f.d == 0 }
  | .epend => {}
  | .clauseBegin _ => {}
  | .splitMerge _ _ => {}
  | .mergeComplete _ _ => {}
  | .parkTimeout _ => {}
  | .fairnessYield _ => {}
  | .loadReturn _ _ _ => {}
  | .storePerformed _ _ => {}
  | .splitExitComplete _ => {}
  | .matrixOpComplete _ _ => {}
  | .matrixPassStart _ _ => {}
  | .drainRow _ => {}
  | .epiloguePlaceTake _ _ => {}
  | .copyComplete _ _ => {}
  | .engineCommandStart _ _ => {}
  | .engineCommandComplete _ _ => {}
  | .bufferEntryTake _ _ => {}
  | .bufcfgTakeEffect _ _ => {}
  | .windlassRunStart _ => {}
  | .windlassIteration _ => {}
  | .qpullWake _ => {}
  | .qpushAppend _ _ => {}
  | .projldTakeEffect _ _ => {}
  | .dieSchedulerPlace _ => {}
  | .taskBlocking _ _ => {}
  | .starvationForcedPlacement _ _ => {}
  | .teamCompletionEvent _ => {}
  | .graphRecordWritten _ _ => {}
  | .graphNodeLaunch _ => {}
  | .graphFlushTimeout _ => {}
  | .hostTaskDoorbell _ _ => {}
  | .stashRecall _ _ _ => {}
  | .weathervaneDecay _ => {}
  | .migrationRequest _ _ _ => {}
  | .tlbInvalidateCommand _ _ _ => {}
  | .hostBar2Access _ => {}
  | .hostContextResume _ => {}
  | .hostContextSwitch _ _ => {}
  | .contextEnd _ => {}
  | .hostSetDebugMode _ _ _ => {}
  | .teamStop _ _ => {}
  | .hostSingleStep _ => {}
  | .hostResumeGroup _ _ => {}
  | .frameReceive _ _ _ => {}
  | .frameReplay _ => {}
  | .channelRetire _ => {}
  | .requestArrive _ _ _ => {}
  | .dieHeartbeatTimeout _ => {}
  | .dieFatalError _ => {}
  | .dieOvertemp _ => {}
  | .wrapEffect => {}
  | .partitionReform _ => {}
  | .hostDumpAck => {}
  | .partmodeRequest _ => {}
  | .modeChangeComplete => {}
  | .modeChangeDrainTimeout => {}
  | .timeSyncMessage _ _ => {}
  | .timeMasterFailover => {}
  | .powerOnBringup _ _ => {}
  | .powerCapSet _ => {}
  | .powerGating _ _ => {}
  | .thermalLimit => {}
  | .firmwareBankSwitch => {}
  | .mailboxCommand _ => {}
  | .healthSample _ => {}
  | .lysjaWatchdogTakeover => {}
  | .laneFailure _ _ _ => {}
  | .eccCorrected _ => {}
  | .eccUncorrectable _ _ _ => {}
  | .ringTileArrive _ _ => {}
  | .ringTileAccept _ _ => {}
  | .rwaitSatisfied _ => {}
  | .fabricSlotBegin _ _ => {}
  | .slottabEnable _ _ => {}
  | .slottabDisable _ => {}
  | .slotTableTakeEffect => {}
  | .fabricPacketReceive _ => {}
  | .relayForward _ => {}
  | .fabricAckReceive _ _ _ => {}
  | .fabricRetransmit _ => {}
  | .connectionReset _ => {}
  | .rpostDeadline _ => {}
  | .rcqwSatisfied _ => {}
  | .channelIsolation _ => {}
  | .systemRegisterWrite _ _ _ _ => {}
  | .inServiceTest _ => {}

/-- The common fields of an instruction word; none for epilogue words and events. -/
def Instr.com? : Instr → Option Com
  | .nop c => some c
  | .iadd f => some f.com
  | .iaddImm f => some f.com
  | .isub f => some f.com
  | .isubImm f => some f.com
  | .imul f => some f.com
  | .imulImm f => some f.com
  | .imad f => some f.com
  | .imin f => some f.com
  | .iminImm f => some f.com
  | .imax f => some f.com
  | .imaxImm f => some f.com
  | .iabs f => some f.com
  | .icmp f => some f.com
  | .icmpImm f => some f.com
  | .shl f => some f.com
  | .shlImm f => some f.com
  | .shr f => some f.com
  | .shrImm f => some f.com
  | .sar f => some f.com
  | .sarImm f => some f.com
  | .log3 f => some f.com
  | .popc f => some f.com
  | .clz f => some f.com
  | .brev f => some f.com
  | .bfx f => some f.com
  | .bfi f => some f.com
  | .lea f => some f.com
  | .sel f => some f.com
  | .mov f => some f.com
  | .movi f => some f.com
  | .fadd f => some f.com
  | .faddImm f => some f.com
  | .fmul f => some f.com
  | .fmulImm f => some f.com
  | .ffma f => some f.com
  | .fmin f => some f.com
  | .fminImm f => some f.com
  | .fmax f => some f.com
  | .fmaxImm f => some f.com
  | .fcmp f => some f.com
  | .fcmpImm f => some f.com
  | .frcp f => some f.com
  | .frsq f => some f.com
  | .fsqrt f => some f.com
  | .fex2 f => some f.com
  | .flg2 f => some f.com
  | .fsin f => some f.com
  | .fcos f => some f.com
  | .ftanh f => some f.com
  | .cvt f => some f.com
  | .cvtef f => some f.com
  | .pack4 f => some f.com
  | .unpk4 f => some f.com
  | .shfl f => some f.com
  | .vote f => some f.com
  | .redg f => some f.com
  | .scang f => some f.com
  | .ld f => some f.com
  | .st f => some f.com
  | .ldrsv f => some f.com
  | .stcnd f => some f.com
  | .atom f => some f.com
  | .atcas f => some f.com
  | .red f => some f.com
  | .fence f => some f.com
  | .pref f => some f.com
  | .stashm f => some f.com
  | .stashw f => some f.com
  | .stashu f => some f.com
  | .cpy f => some f.com
  | .cpyt f => some f.com
  | .closeb f => some f.com
  | .waitb f => some f.com
  | .bufcfg f => some f.com
  | .bufwait f => some f.com
  | .bufrel f => some f.com
  | .lnstart f => some f.com
  | .lnstop f => some f.com
  | .mma f => some f.com
  | .mmas f => some f.com
  | .mdrain f => some f.com
  | .epload f => some f.com
  | .bra f => some f.com
  | .brx f => some f.com
  | .call f => some f.com
  | .ret f => some f.com
  | .retT f => some f.com
  | .merge f => some f.com
  | .loop f => some f.com
  | .exit f => some f.com
  | .yield f => some f.com
  | .trap f => some f.com
  | .bkpt f => some f.com
  | .bar f => some f.com
  | .bara f => some f.com
  | .barw f => some f.com
  | .movsr f => some f.com
  | .movsrWrite f => some f.com
  | .movsv f => some f.com
  | .time f => some f.com
  | .cycle f => some f.com
  | .pgdist f => some f.com
  | .setfmt f => some f.com
  | .rag f => some f.com
  | .rrs f => some f.com
  | .rhnd f => some f.com
  | .rwait f => some f.com
  | .rrank f => some f.com
  | .rput f => some f.com
  | .rget f => some f.com
  | .ratom f => some f.com
  | .rpost f => some f.com
  | .rpostGet f => some f.com
  | .rcqw f => some f.com
  | .wreg f => some f.com
  | .wrev f => some f.com
  | .tasknew f => some f.com
  | .taskdec f => some f.com
  | .temit f => some f.com
  | .qpull f => some f.com
  | .qpush f => some f.com
  | .qpushClose f => some f.com
  | .arrv f => some f.com
  | .snew f => some f.com
  | .sres f => some f.com
  | .scommit f => some f.com
  | .sfork f => some f.com
  | .slen f => some f.com
  | .srel f => some f.com
  | .sseek f => some f.com
  | .kst f => some f.com
  | .bgath f => some f.com
  | .projld f => some f.com
  | .projldFree f => some f.com
  | .flpop f => some f.com
  | .flpush f => some f.com
  | .pfxfind f => some f.com
  | .pfxins f => some f.com
  | .hashb f => some f.com
  | .plcq f => some f.com
  | .plcqShort f => some f.com
  | .epadd _ => none
  | .epmul _ => none
  | .epfma _ => none
  | .epmax _ => none
  | .epmin _ => none
  | .epexp _ => none
  | .eplut _ => none
  | .epcvt _ => none
  | .epbias _ => none
  | .epscl _ => none
  | .epst _ => none
  | .epend => none
  | .clauseBegin _ => none
  | .splitMerge _ _ => none
  | .mergeComplete _ _ => none
  | .parkTimeout _ => none
  | .fairnessYield _ => none
  | .loadReturn _ _ _ => none
  | .storePerformed _ _ => none
  | .splitExitComplete _ => none
  | .matrixOpComplete _ _ => none
  | .matrixPassStart _ _ => none
  | .drainRow _ => none
  | .epiloguePlaceTake _ _ => none
  | .copyComplete _ _ => none
  | .engineCommandStart _ _ => none
  | .engineCommandComplete _ _ => none
  | .bufferEntryTake _ _ => none
  | .bufcfgTakeEffect _ _ => none
  | .windlassRunStart _ => none
  | .windlassIteration _ => none
  | .qpullWake _ => none
  | .qpushAppend _ _ => none
  | .projldTakeEffect _ _ => none
  | .dieSchedulerPlace _ => none
  | .taskBlocking _ _ => none
  | .starvationForcedPlacement _ _ => none
  | .teamCompletionEvent _ => none
  | .graphRecordWritten _ _ => none
  | .graphNodeLaunch _ => none
  | .graphFlushTimeout _ => none
  | .hostTaskDoorbell _ _ => none
  | .stashRecall _ _ _ => none
  | .weathervaneDecay _ => none
  | .migrationRequest _ _ _ => none
  | .tlbInvalidateCommand _ _ _ => none
  | .hostBar2Access _ => none
  | .hostContextResume _ => none
  | .hostContextSwitch _ _ => none
  | .contextEnd _ => none
  | .hostSetDebugMode _ _ _ => none
  | .teamStop _ _ => none
  | .hostSingleStep _ => none
  | .hostResumeGroup _ _ => none
  | .frameReceive _ _ _ => none
  | .frameReplay _ => none
  | .channelRetire _ => none
  | .requestArrive _ _ _ => none
  | .dieHeartbeatTimeout _ => none
  | .dieFatalError _ => none
  | .dieOvertemp _ => none
  | .wrapEffect => none
  | .partitionReform _ => none
  | .hostDumpAck => none
  | .partmodeRequest _ => none
  | .modeChangeComplete => none
  | .modeChangeDrainTimeout => none
  | .timeSyncMessage _ _ => none
  | .timeMasterFailover => none
  | .powerOnBringup _ _ => none
  | .powerCapSet _ => none
  | .powerGating _ _ => none
  | .thermalLimit => none
  | .firmwareBankSwitch => none
  | .mailboxCommand _ => none
  | .healthSample _ => none
  | .lysjaWatchdogTakeover => none
  | .laneFailure _ _ _ => none
  | .eccCorrected _ => none
  | .eccUncorrectable _ _ _ => none
  | .ringTileArrive _ _ => none
  | .ringTileAccept _ _ => none
  | .rwaitSatisfied _ => none
  | .fabricSlotBegin _ _ => none
  | .slottabEnable _ _ => none
  | .slottabDisable _ => none
  | .slotTableTakeEffect => none
  | .fabricPacketReceive _ => none
  | .relayForward _ => none
  | .fabricAckReceive _ _ _ => none
  | .fabricRetransmit _ => none
  | .connectionReset _ => none
  | .rpostDeadline _ => none
  | .rcqwSatisfied _ => none
  | .channelIsolation _ => none
  | .systemRegisterWrite _ _ _ _ => none
  | .inServiceTest _ => none

/-- The long-latency set (R124). -/
def Instr.longLatency : Instr → Bool
  | .ld _ | .ldrsv _ | .stcnd _ | .atom _ | .atcas _
  | .frcp _ | .frsq _ | .fsqrt _ | .fex2 _ | .flg2 _ | .fsin _ | .fcos _ | .ftanh _
  | .shfl _ | .vote _ | .redg _ | .scang _
  | .closeb _ | .flpop _ | .sres _ | .sseek _ | .slen _ | .pfxfind _ | .pfxins _ | .hashb _ | .bgath _ | .qpull _
  | .arrv _ | .tasknew _ | .rrank _ | .pgdist _ | .plcq _ | .plcqShort _ | .time _ => true
  | _ => false

/-- The six completion counters (R108). -/
inductive Ctr where
  | ldc | stc | cpc | mxc | enc | rmc
deriving DecidableEq, Repr

/-- The counter that an instruction counts on (R108). -/
def Instr.counter : Instr → Option Ctr
  | .ld _ | .ldrsv _ | .stcnd _ | .atom _ | .atcas _ => some .ldc
  | .st _ | .red _ | .stashm _ | .stashw _ | .stashu _ => some .stc
  | .cpy _ | .cpyt _ => some .cpc
  | .mma _ | .mmas _ | .mdrain _ | .epload _ => some .mxc
  | .closeb _ | .waitb _ | .bufcfg _ | .bufwait _ | .bufrel _ | .lnstart _ | .lnstop _
  | .rag _ | .rrs _ | .rhnd _ | .rwait _ | .rrank _ | .wreg _ | .wrev _
  | .tasknew _ | .taskdec _ | .temit _ | .qpull _ | .qpush _ | .qpushClose _ | .arrv _
  | .snew _ | .sres _ | .scommit _ | .sfork _ | .slen _ | .srel _ | .sseek _ | .kst _ | .bgath _
  | .projld _ | .projldFree _ | .flpop _ | .flpush _ | .pfxfind _ | .pfxins _ | .hashb _
  | .plcq _ | .plcqShort _ => some .enc
  | .rput _ | .rget _ | .ratom _ | .rpost _ | .rpostGet _ | .rcqw _ => some .rmc
  | _ => none

/-- The clause class an instruction belongs to (R103): 0 compute, 1 memory, 2 matrix, 3 control, 4 engine,
5 system; NOP stands in every class and an epilogue word or an event in none (6). -/
def Instr.cls : Instr → Nat
  | .ld _ | .st _ | .ldrsv _ | .stcnd _ | .atom _ | .atcas _ | .red _ | .fence _ | .pref _
  | .stashm _ | .stashw _ | .stashu _ => 1
  | .mma _ | .mmas _ | .mdrain _ | .epload _ => 2
  | .bra _ | .brx _ | .call _ | .ret _ | .retT _ | .merge _ | .loop _ | .exit _ | .yield _ | .trap _ | .bkpt _
  | .bar _ | .bara _ | .barw _ => 3
  | .movsr _ | .movsrWrite _ | .movsv _ | .time _ | .cycle _ | .pgdist _ | .setfmt _ => 5
  | i => if i.counter == some .cpc || i.counter == some .enc || i.counter == some .rmc then 4
         else if i.com?.isSome then 0 else 6

/-- The instruction may stand in a clause of class `c` (R103). -/
def Instr.admitted (c : Nat) : Instr → Bool
  | .nop _ => c ≤ 6
  | i => i.cls == c || (c == 6 && i.cls ≤ 1)

/-- A commit-point instruction (R104): class 4, ATOM, ATCAS, RED and STCND. -/
def Instr.commitPoint : Instr → Bool
  | .atom _ | .atcas _ | .red _ | .stcnd _ => true
  | i => i.cls == 4

/-- It may stand only as the last instruction of its clause (R104). -/
def Instr.mustBeLast : Instr → Bool
  | .bra _ | .brx _ | .call _ | .ret _ | .retT _ | .exit _ | .bar _ | .barw _ | .trap _ | .bkpt _ => true
  | i => i.commitPoint

/-- MERGE (R104). -/
def Instr.isMerge : Instr → Bool
  | .merge _ => true
  | _ => false

/-- An epilogue operation (R121). -/
def Instr.isEp : Instr → Bool
  | .epadd _ | .epmul _ | .epfma _ | .epmax _ | .epmin _ | .epexp _ | .eplut _ | .epcvt _ | .epbias _ | .epscl _
  | .epst _ | .epend => true
  | _ => false

/-- An event of the table, with no encoding: neither an instruction word nor an epilogue word. -/
def Instr.isEvent (i : Instr) : Bool := i.com?.isNone && !i.isEp

/-- LA is zero, or the instruction is long-latency (R111). -/
def Instr.laOk (i : Instr) : Bool :=
  match i.com? with
  | none => true
  | some c => c.la == 0 || i.longLatency

/-- The reason of R129 for which a decoded word is no instruction under the register budget `bud`; none when
it is one. The order of the tests within one word is this model's (log 10): zero fields, LA, values, registers, limits. -/
def Instr.illegal (bud : Nat) (i : Instr) : Option Nat :=
  let k := i.check
  if !k.zero then some 3
  else if !i.laOk then some 7
  else if !k.vals then some 6
  else if !(k.regs.all (RegUse.legal bud)) then some 5
  else if !k.lims then some 10
  else none

/-- A well-formed instruction: its word passes every check under the largest budget, 256 (R39). -/
def Instr.wellFormed (i : Instr) : Bool := (i.illegal 256).isNone

end Sys2Proof
end

