-- ==== Sys2Proof/Machine/Counters.lean ====
section
/-! DEFINITION. Fresh identifiers, free values, and the completion counters (R108). -/
namespace Sys2Proof.Machine

/-- A fresh identifier. -/
def State.fresh (s : State) : State × Nat := ({ s with nextId := s.nextId + 1 }, s.nextId)
/-- One free choice among `n` lawful outcomes (log 6). -/
def State.pick (s : State) (n : Nat) : State × Nat := ({ s with free := s.free + 1 }, Config.pick s.free % n)
/-- `n` free bytes (log 6). -/
def State.freeBytes (s : State) (n : Nat) : State × List Byte :=
  ({ s with free := s.free + n }, (List.range n).map fun i => Config.freeByte (s.free + i))

/-- One of a list of values, freely; `d` when there is none. -/
def State.among {α : Type} (s : State) (d : α) (xs : List α) : State × α :=
  let q := s.pick xs.length
  (q.1, (xs[q.2]?).getD d)

/-- Bytes of a core's array from `a`, each any value that its holder is known to have had in it (R5, R192; log 69). -/
def State.heldBytes (s : State) (core a n : Nat) (bs : List Byte) : State × List Byte :=
  (List.range n).foldl (fun z k =>
    let b := (bs[k]?).getD 0
    let q := z.1.among b (b :: mget [] (s.core core).past (a + k))
    (q.1, z.2 ++ [q.2])) (s, [])

/-- A list of outstanding operations for one counter. -/
def Ctrs.get (k : Ctrs) : Ctr → List Nat
  | .ldc => k.ldc | .stc => k.stc | .cpc => k.cpc | .mxc => k.mxc | .enc => k.enc | .rmc => k.rmc
/-- The counter's list replaced. -/
def Ctrs.set (k : Ctrs) : Ctr → List Nat → Ctrs
  | .ldc, l => { k with ldc := l } | .stc, l => { k with stc := l } | .cpc, l => { k with cpc := l }
  | .mxc, l => { k with mxc := l } | .enc, l => { k with enc := l } | .rmc, l => { k with rmc := l }
/-- An operation counted (R108). -/
def Ctrs.add (k : Ctrs) (x : Ctr) (id : Nat) : Ctrs := k.set x (id :: k.get x)
/-- An operation completed: out of every counter (R49, R108). -/
def Ctrs.done (k : Ctrs) (id : Nat) : Ctrs :=
  ⟨k.ldc.erase id, k.stc.erase id, k.cpc.erase id, k.mxc.erase id, k.enc.erase id, k.rmc.erase id⟩

/-- The completion of an operation takes it out of the counters of every split of its team (R49, R55), from open
and closed batches, and marks its pending writes as landed. -/
def Team.complete (t : Team) (id : Nat) : Team :=
  let onPend (q : Pend) : Pend := if q.id = id then { q with landed := true } else q
  let onSplit (p : Split) : Split :=
    { p with ctrs := p.ctrs.done id, batch := p.batch.erase id, pend := p.pend.map onPend }
  let onGroup (g : Group) : Group :=
    { g with splits := mmap g.splits onSplit, closed := mmap g.closed fun l => l.erase id }
  { t with groups := mmap t.groups onGroup }
/-- As `Team.complete`, in a state. -/
def State.complete (s : State) (t id : Nat) : State := s.modTeam t fun y => y.complete id

end Sys2Proof.Machine
end

