-- ==== Sys2Proof/Machine/Conn.lean ====
section
/-! DEFINITION. Connections of remote queues (R296 to R299): the fields that their descriptors show, the posting of completions,
and the reset of a connection; accesses to pages of other packages that no lane makes (R180, R295). -/
namespace Sys2Proof.Machine

/-- The number of a connection: of queue `q` of context `x` on die `d`. -/
def connKey (d x q : Nat) : Nat := (d * 1024 + x) * 16 + q

/-- A change of the fabric. -/
def State.modFab (s : State) (f : Fabric → Fabric) : State := { s with fab := f s.fab }

/-! ### Peers' pages without a lane (R180, R295) -/

/-- The accesses of one packet each that reach a piece of a range (R292): package, offset and bytes; none where it lies here. -/
def peerCuts (p : Place × Nat) : List (Nat × Nat × Nat) :=
  match p.1 with
  | .peer pkg off => (List.range ((p.2 + 4095) / 4096)).map fun i => (pkg, off + 4096 * i, min 4096 (p.2 - 4096 * i))
  | _ => []

/-- An access to a peer's page is to go out. -/
def State.ask (s : State) (a : PeerAsk) : State :=
  let (s, id) := s.fresh
  s.modFab fun b => { b with asks := b.asks ++ [{ a with id := id }] }

/-- What an asker must read, or do there with `data`, at the pages of peers before it goes on: none when it all has been answered; else
the state in which it has been asked for. A context that has ended waits for nothing. -/
def State.needPeers (s : State) (who : Asker) (team : Option Nat) (x : Nat) (ps : List (Place × Nat)) (data : Option (List Byte) := none) :
    Option State :=
  let cuts := ps.flatMap peerCuts
  let mine (k : Nat × Nat × Nat) (a : PeerAsk) : Bool := a.who = who && a.team = team && a.ctx = x && (a.pkg, a.off, a.len) = k
  if (s.ctx x).ended.isSome || (cuts.all fun k => s.fab.asks.any fun a => mine k a && a.got.isSome) then none
  else some (cuts.foldl (fun s k => if s.fab.asks.any (mine k) then s else
    s.ask { id := 0, who := who, team := team, ctx := x, pkg := k.1, off := k.2.1, len := k.2.2, data := data, add := data.isSome }) s)

/-- Bytes of a peer's page that an access for a team has brought, the latest of them. -/
def State.askedBytes (s : State) (team : Option Nat) (pkg off n : Nat) : Option (List Byte) :=
  ((s.fab.asks.filter fun a => a.team = team && a.pkg = pkg && a.off ≤ off && off + n ≤ a.off + a.len && a.got.isSome).getLast?).bind
    fun a => a.got.map fun b => (b.drop (off - a.off)).take n

/-- Accesses that a condition names are wanted no more: those answered are forgotten, the others go on for nobody. -/
def State.unask (s : State) (f : PeerAsk → Bool) : State :=
  if s.fab.asks.isEmpty then s else
  let keep (a : PeerAsk) : Option PeerAsk := if !f a then some a else if a.got.isSome then none else some { a with who := .gone }
  s.modFab fun b => { b with asks := b.asks.filterMap keep }

/-- The granules of `n` bytes of a peer's page (R219). -/
def peerGranules (pkg off n : Nat) : List Nat :=
  (List.range ((off + n + 127) / 128 - off / 128)).map fun i => granule (.peer pkg (off + 128 * i))

/-- Bytes that a team's command writes to a peer's page (R180, R295), or adds to what is there: a copy held here follows, and the write
goes out, unless an access that did it there has been answered (R340). -/
def State.putPeer (s : State) (tid x pkg off : Nat) (bs : List Byte) (add : Bool := false) : State :=
  let s := (if add then s.copyDrop x pkg off bs.length else s.copyStore x pkg off bs).clearResv none (peerGranules pkg off bs.length)
  if (s.fab.asks.any fun a => a.team = some tid && a.pkg = pkg && a.off = off && a.len = bs.length && a.add && a.got.isSome) then s
  else s.ask { id := 0, who := .put, team := some tid, ctx := x, pkg := pkg, off := off, len := bs.length, data := some bs, add := add }

/-- Writes of a team to some of these pieces are still on their way to a peer. -/
def State.putsOut (s : State) (tid : Nat) (ps : List (Place × Nat)) : Bool :=
  !s.fab.asks.isEmpty && s.fab.asks.any fun a => a.who = .put && a.team = some tid && ps.any fun p =>
    match p.1 with
    | .peer pkg off => pkg = a.pkg && off < a.off + a.len && a.off < off + p.2
    | _ => false

/-! ### Connections -/

/-- A connection. -/
def State.conn? (s : State) (k : Nat) : Option Conn := mget? s.fab.conns k
/-- A connection changed in place, if it exists. -/
def State.modConn (s : State) (k : Nat) (f : Conn → Conn) : State := s.modFab fun b => { b with conns := mmod b.conns k f }

/-- Bytes of a connection's memory written by the part; what cannot be reached is left out (log 50). -/
def State.connWrite (s : State) (c : Conn) (va : Nat) (bs : List Byte) : State := (s.vWrite c.die c.ctx va bs).getD s

/-- The oldest sequence number that is not acknowledged (R296). -/
def Conn.ackSeq (c : Conn) : Nat := ((c.reqs.find? fun r => r.status = 0).map (·.seq)).getD c.next

/-- The fields that the part keeps in the descriptor (R296). -/
def State.showConn (s : State) (k : Nat) : State :=
  match s.conn? k with
  | none => s
  | some c => s.connWrite c (c.desc + 0x14) (bytesOfNat 4 c.epoch ++ bytesOfNat 8 c.next ++ bytesOfNat 8 c.ack ++ bytesOfNat 8 c.cc)

/-- The 16 bytes of a completion entry (R297). -/
def completionEntry (seq status done : Nat) : List Byte := bytesOfNat 8 seq ++ bytesOfNat 4 status ++ bytesOfNat 4 done

/-- The local side of a finished request leaves its team's commands. -/
def Team.dropRemote (t : Team) (conn seq : Nat) : Team :=
  { t with cmds := t.cmds.filter fun q => q.2.kind ≠ .remote conn seq }

/-- The acquire that a wait for another queue's count makes once it is met (R304). -/
def State.waitAcquire (s : State) (r : Req) : State :=
  match r.op, mget? s.teams r.team with
  | .wait _ _, some t => if r.status = 1 then s.l1Clear t.coreKey else s
  | _, _ => s

/-- The completion of the oldest request posted (R297, R432): the entry, then CCOUNT; RMC falls. -/
def State.postOne (s : State) (k : Nat) (c : Conn) (r : Req) : State :=
  let s := s.waitAcquire r
  let s := s.connWrite c (c.cqb + 16 * (r.seq % 2 ^ c.cqlog)) (completionEntry r.seq r.status r.done)
  let s := s.modConn k fun c => { c with reqs := c.reqs.drop 1, cc := c.cc + 1 }
  ((s.modTeam r.team fun t => t.dropRemote k r.seq).complete r.team r.id).showConn k

/-- Every finished request at the head of a queue is posted, in sequence order (R297), once what it brought for a peer's page has arrived
there (R180); `n` bounds them. -/
def State.postReady (s : State) (k : Nat) : Nat → State
  | 0 => s
  | n + 1 =>
    match s.conn? k with
    | none => s
    | some c =>
      match c.reqs with
      | [] => s
      | r :: _ => if r.status = 0 || s.putsOut r.team r.src then s else (s.postOne k c r).postReady k n

/-- The queue of a connection after a change: ACKSEQ, and the postings that are due. -/
def State.settleConn (s : State) (k : Nat) : State :=
  let s := (s.modConn k fun c => { c with ack := max c.ack c.ackSeq }).showConn k
  match s.conn? k with
  | some c => s.postReady k c.reqs.length
  | none => s

/-- How a request that a reset finds unfinished completes (R299). -/
def Req.atReset (r : Req) : Req :=
  if r.status ≠ 0 then r
  else { r with pkts := [], status := if !r.sent then 5 else match r.op with | .get => 3 | _ => 4 }

/-- A connection resets (R299): its unfinished requests complete, a new incarnation begins, and nothing of the old one is
sent any more. -/
def State.resetConn (s : State) (k : Nat) : State :=
  let s := s.modFab fun b => { b with sendq := (mmap b.sendq fun l => l.filter fun q => q.conn ≠ k).filter fun l => !l.2.isEmpty }
  let s := s.modConn k fun c =>
    { c with reqs := c.reqs.map Req.atReset, epoch := (c.epoch + 1) % 2 ^ 32, ack := c.next, base := c.next }
  s.settleConn k

/-- The end of a context on the fabric (R302, R307, R315): its connections reset, its windows are revoked, and its waiting
tags are forgotten. -/
def State.endFabric (s : State) (x : Nat) : State :=
  let mine := s.fab.conns.filter fun c => c.2.ctx = x
  let s := if s.fab.asks.isEmpty then s else s.modFab fun b => { b with asks := b.asks.filter fun a => a.ctx ≠ x }
  let s := mine.foldl (fun s c => s.resetConn c.1) s
  s.modFab fun b => { b with
    windows := mmap b.windows fun w => if w.ctx = x then { w with live := false } else w
    pages := b.pages.filter fun c => c.1 / 2 ^ 17 ≠ x
    sendq := (mmap b.sendq fun l => l.filter fun q => !(2 ^ 32 ≤ q.conn && (q.conn - 2 ^ 32) / 2 ^ 17 = x)).filter fun l => !l.2.isEmpty
    tags := mdel b.tags x }

end Sys2Proof.Machine
end

