-- ==== Sys2Proof/Machine/Ops.lean ====
section
/-! DEFINITION. The named operations that the meanings share: the acting split, its registers, guards and pending
writes; taking a trap of each class (R309 to R318), ending a context (R315), and the return from a handler. -/
namespace Sys2Proof.Machine

/-- A split with the group and team that hold it. -/
structure Cur where
  ref   : Ref
  team  : Team
  group : Group
  split : Split
deriving DecidableEq, Repr

/-- The split with a given name, if it is live. -/
def State.lookup? (s : State) (r : Ref) : Option Cur :=
  (mget? s.teams r.team).bind fun t => (mget? t.groups r.group).bind fun g =>
    (mget? g.splits r.split).map fun p => ⟨r, t, g, p⟩

/-- The split that is to act. -/
def State.cur? (s : State) : Option Cur :=
  match s.turn with
  | .split r => s.lookup? r
  | _ => none

/-- The group with the split put back. -/
def Cur.newGroup (c : Cur) : Group := { c.group with splits := mput c.group.splits c.ref.split c.split }
/-- The team with the group put back. -/
def Cur.newTeam (c : Cur) : Team := { c.team with groups := mput c.team.groups c.ref.group c.newGroup }
/-- The state with a split, its group and its team put back. -/
def State.put (s : State) (c : Cur) : State := { s with teams := mput s.teams c.ref.team c.newTeam }

/-- A meaning acts on the split whose turn it is. -/
def onSplit (s : State) (f : Cur → State) : Out :=
  match s.cur? with
  | none => .fault .noSplit
  | some c => .next (f c)

/-- A split changed in place, if it is live. -/
def State.modSplit (s : State) (r : Ref) (f : Split → Split) : State :=
  match s.lookup? r with
  | none => s
  | some c => s.put { c with split := f c.split }

/-- A group changed in place, if it exists. -/
def State.modGroup (s : State) (t g : Nat) (f : Group → Group) : State :=
  s.modTeam t fun y => { y with groups := mmod y.groups g f }

/-- The lanes of a mask, ascending. -/
def lanes (m : Lanes) : List Nat := (List.range 64).filter fun l => m.getLsbD l
/-- The mask of one lane. -/
def laneBit (l : Nat) : Lanes := (1 : Lanes) <<< l
/-- Every lane below a width (R38). -/
def widthMask (w : Nat) : Lanes := BitVec.ofNat 64 (2 ^ w - 1)
/-- The mask of the lanes for which `f` holds, among the lanes of `m`. -/
def maskOf (m : Lanes) (f : Nat → Bool) : Lanes :=
  (lanes m).foldl (fun a l => if f l then a ||| laneBit l else a) 0

/-- The key of a vector register in a lane. -/
def vkey (lane n : Nat) : Nat := lane * 256 + n

/-- A vector register of a lane as an instruction reads it: inside an open lookahead window, the value from
before the window (R125); one that a restarted region does not list reads as after its restart (R141). -/
def Cur.rdV (c : Cur) (lane n : Nat) : Word :=
  match c.split.pend.findSome? fun p => mget? p.oldV (vkey lane n) with
  | some w => w
  | none => (mget? c.split.staleV (vkey lane n)).getD (mget 0 c.group.v (vkey lane n))
/-- A scalar register as an instruction reads it (R125, R145, R321): what another split has written before the clause began (R40;
log 105). -/
def Cur.rdS (c : Cur) (n : Nat) : Word :=
  match c.split.pend.findSome? fun p => mget? p.oldS n with
  | some w => w
  | none => ((mget? c.split.seen n).orElse fun _ => mget? c.split.stale n).getD (mget 0 c.group.s n)
/-- A predicate in every lane as an instruction reads it; p7 reads 1 (R125, R146). -/
def Cur.rdP (c : Cur) (n : Nat) : Lanes :=
  if n ≥ 7 then BitVec.allOnes 64 else
  match c.split.pend.findSome? fun p => mget? p.oldP n with
  | some m => m
  | none => mget 0 c.group.p n
/-- An even scalar pair (R144). -/
def Cur.rdPair (c : Cur) (n : Nat) : DWord := mkPair (c.rdS (n + 1)) (c.rdS n)
/-- A vector pair of a lane (R144). -/
def Cur.rdVPair (c : Cur) (lane n : Nat) : DWord := mkPair (c.rdV lane (n + 1)) (c.rdV lane n)

/-- A vector register of a lane written. -/
def Group.wrV (g : Group) (lane n : Nat) (w : Word) : Group := { g with v := mput g.v (vkey lane n) w }
/-- A scalar register written. -/
def Group.wrS (g : Group) (n : Nat) (w : Word) : Group := { g with s := mput g.s n w }
/-- A scalar pair written. -/
def Group.wrPair (g : Group) (n : Nat) (d : DWord) : Group := (g.wrS n (loWord d)).wrS (n + 1) (hiWord d)
/-- A predicate written in the lanes of `m`; a write to p7 is ignored (R146). -/
def Group.wrP (g : Group) (n : Nat) (m v : Lanes) : Group :=
  if n ≥ 7 then g else { g with p := mput g.p n ((mget 0 g.p n &&& ~~~m) ||| (v &&& m)) }
/-- A vector register written in every lane of a list. -/
def Group.wrLanes (g : Group) (ls : List Nat) (n : Nat) (f : Nat → Word) : Group :=
  ls.foldl (fun g l => g.wrV l n (f l)) g
/-- A vector pair written in every lane of a list. -/
def Group.wrLanes2 (g : Group) (ls : List Nat) (n : Nat) (f : Nat → DWord) : Group :=
  (g.wrLanes ls n fun l => loWord (f l)).wrLanes ls (n + 1) fun l => hiWord (f l)

/-- The lanes that pass: active, and the guard true (R111, R4). -/
def Cur.pass (c : Cur) (k : Com) : Lanes :=
  let p := c.rdP k.pg.toNat
  c.split.mask &&& (if k.pn then ~~~p else p)
/-- Some lane passes (R338). -/
def Cur.acts (c : Cur) (k : Com) : Bool := c.pass k != 0

/-- A long-latency instruction's destination enters the pending-write bitmap with its lookahead window (R124,
R125): vector registers `dv` in the split's lanes, scalars `ds`, predicates `dp`. A result already written with
no window left open needs no entry. -/
def Cur.defer (c : Cur) (id la : Nat) (landed : Bool) (dv ds dp : List Nat) : Cur :=
  if landed && la = 0 then c else
  let p : Pend :=
    { id := id, window := la, landed := landed, dv := dv, ds := ds, dp := dp
      oldV := if la = 0 then [] else (lanes c.split.mask).foldl (fun m l => dv.foldl (fun m n => mput m (vkey l n) (c.rdV l n)) m) []
      oldS := if la = 0 then [] else ds.foldl (fun m n => mput m n (c.rdS n)) []
      oldP := if la = 0 then [] else dp.foldl (fun m n => mput m n (c.rdP n)) [] }
  { c with split := { c.split with pend := p :: c.split.pend } }

/-- The split as the next instruction meets it: a closed window whose write has landed shows the new value (R125). -/
def Cur.settled (c : Cur) : Cur := { c with split := { c.split with pend := c.split.pend.filter fun q => !(q.window = 0 && q.landed) } }

/-- The registers that an instruction writes, as its destination for R124: by file. -/
def destRegs (i : Instr) (f : RFile) : List Nat :=
  (i.check.regs.filter fun u => u.write && u.file == f).flatMap fun u => (List.range u.count).map (u.first + ·)

/-- Scalars of a split as they read before a write, kept for the rest of its open clause (R40). -/
def Split.keepSeen (p : Split) (old : SMap Word) (ns : List Nat) : Split :=
  { p with seen := ns.foldl (fun m n => if (mget? m n).isSome then m else mput m n ((mget? p.stale n).getD (mget 0 old n))) p.seen }

/-- Scalars that a split's instruction wrote, where the group's held `old` before: the split reads what it wrote, and so does one that
holds the same pending write; the open clauses of the others see the values from before (R40, R321). -/
def Group.scalarsWritten (g : Group) (old : SMap Word) (split : Nat) (ns : List Nat) : Group :=
  let onSplit (i : Nat) (p : Split) : Split :=
    let own := i = split || p.pend.any fun q => q.ds.any ns.contains
    let p := if own then { p with seen := p.seen.filter fun q => !ns.contains q.1 } else if p.opn then p.keepSeen old ns else p
    { p with stale := p.stale.filter fun q => !ns.contains q.1
             foreign := if i = split then p.foreign else p.foreign ++ ns.filter fun n => !p.foreign.contains n }
  { g with splits := g.splits.map fun q => (q.1, onSplit q.1 q.2) }

/-- A late write of scalars by a command that split `split` issued (R40, R124). -/
def Group.landS (g : Group) (split : Nat) (ns : List Nat) (f : Group → Group) : Group := (f g).scalarsWritten g.s split ns

/-- As `defer`, with the destination that the instruction's own fields name. -/
def Cur.deferI (c : Cur) (i : Instr) (id : Nat) (landed : Bool) : Cur :=
  let la := (i.com?.map fun k => k.la.toNat).getD 0
  c.defer id la landed (destRegs i .v) (destRegs i .s) ((destRegs i .p).filter (· < 7))

/-- The split has handed a command over that may still trap it or park it, an SRES, BGATH or QPULL that waits behind an earlier
command: it stands at its clause boundary until that takes effect (R257, R310, R348, R427; log 77). -/
def Cur.owes (c : Cur) : Bool :=
  c.team.cmds.any fun q => q.2.group = c.ref.group && q.2.split = c.ref.split && match q.2.kind, q.2.cause with
    | .later _, some (.sres _, _) | .later _, some (.bgath _, _) | .later _, some (.qpull _, _) => true
    | _, _ => false

/-- An operation counted on the acting split. -/
def Cur.count (c : Cur) (x : Ctr) (id : Nat) : Cur := { c with split := { c.split with ctrs := c.split.ctrs.add x id } }

/-! ### Traps -/

/-- The code of a cause (R309). -/
def Cause.code : Cause → Nat
  | .pageflt => 0x01 | .flempty => 0x02 | .swtrap => 0x10 | .dense => 0x11 | .bkpt => 0x12 | .illop => 0x20
  | .illclause => 0x21 | .hazard => 0x22 | .mmask => 0x23 | .divdepth => 0x24 | .align => 0x25 | .prot => 0x26
  | .committed => 0x27 | .strand => 0x28 | .remote => 0x29 | .ecc => 0x2A | .epill => 0x2B | .ringwrap => 0x30

/-- The TRAPINFO word (R310). -/
def trapInfo (act : Bool) (split cls code : Nat) (detail : Word) : DWord :=
  BitVec.ofBool act ++ (0 : BitVec 13) ++ BitVec.ofNat 2 split ++ (0 : BitVec 2) ++ BitVec.ofNat 2 cls ++
    (0 : BitVec 4) ++ BitVec.ofNat 8 code ++ detail

/-- TRAPINFO.ACT of a group (R310). -/
def Group.act (g : Group) : Bool := g.regs.trapinfo.getLsbD 63

/-- TRAPINFO.SPLIT of a group (R310). -/
def Group.trapSplit (g : Group) : Nat := field g.regs.trapinfo 48 2

/-- The detail of ILLOP and ILLCLAUSE (R131): the instruction's index, or the header. -/
def illDetail (idx : Option Nat) (reason : Nat) : Word :=
  match idx with
  | some i => BitVec.ofNat 32 (i % 16 + 256 * reason)
  | none => BitVec.ofNat 32 (16 + 256 * reason)

/-- Common time as a die reads it (R24). -/
def State.timeOf (s : State) (d : Nat) : Nat := (s.die d).time

/-- The 64 bytes of a fault record (R316). -/
def faultRecord (info pc : DWord) (time die core group split kind va : Nat) : List Byte :=
  bytesOfNat 8 info.toNat ++ bytesOfNat 8 pc.toNat ++ bytesOfNat 8 time ++
  bytesOfNat 4 (die * 2 ^ 28 + core * 2 ^ 20 + group * 2 ^ 15 + split * 2 ^ 13) ++ bytesOfNat 4 kind ++
  bytesOfNat 8 va ++ bytesOfNat 24 0

/-- A record written at the fault queue's write index, which then advances round the ring (R316). A queue that
the driver has not set, or that does not translate, takes no record (log 8). -/
def State.faultPush (s : State) (d x : Nat) (rec : List Byte) : State :=
  let y := s.ctx x
  if y.fqSize = 0 then s else
  match s.vWrite d x (y.fqBase.toNat + 64 * y.fqIdx) rec with
  | some s => s.modCtx x fun y => { y with fqIdx := (y.fqIdx + 1) % y.fqSize }
  | none => s

/-- The lanes that a split holds, in its mask or its stack (R52). -/
def Split.allLanes (p : Split) : Lanes := p.ovf.foldl (fun m e => m ||| e.pend.getD 0 ||| e.join.getD 0) p.mask

/-- The lanes that an entry record holds, in its mask or its stack (R317). -/
def Entry.lanes (e : Entry) : Lanes := e.ovf.foldl (fun m o => m ||| o.pend.getD 0 ||| o.join.getD 0) e.mask

/-- The lanes that live splits of a group other than `i` hold. -/
def Group.othersLanes (g : Group) (i : Nat) : Lanes :=
  g.splits.foldl (fun m p => if p.1 = i then m else m ||| p.2.allLanes) 0

/-- A split's entry record brought up to its present state (R317, R318). -/
def Split.here (p : Split) (ridx : Nat) : Entry := ⟨p.pc, ridx, p.mask, p.ovf, p.loops, p.fmt, p.drec⟩

/-- A clause closed: nothing of it remains to issue. -/
def Split.close (p : Split) : Split := { p with opn := false, code := [], idx := 0, yld := false, jump := none, waits := false, stalls := false, seen := [] }

/-- Every open lookahead window closed: the next instruction waits until every pending write has landed (R126, R318). -/
def Split.closeWindows (p : Split) : Split := { p with pend := p.pend.map fun q => { q with window := 0, oldV := [], oldS := [], oldP := [] } }

/-- The header word at an address, if the context may fetch it (R107, R178). -/
def State.fetchWord (s : State) (d x : Nat) (va : DWord) : Option DWord :=
  match s.translate d x va { ex := true } with
  | .ok (.hbm pa) _ => some (s.hbmWord pa)
  | _ => none

/-- RE of a clause header (R102). -/
def headerRe (h : DWord) : Bool := h.getLsbD 34

/-- The split's PC addresses a region entry that it has not issued (R318): behind a commit point the next clause is one (R105),
whether or not its header can be fetched. -/
def State.atEntry (s : State) (c : Cur) : Bool :=
  !c.split.opn && (c.split.needRe || ((s.fetchWord c.team.die c.team.ctx c.split.pc).map headerRe).getD false)

/-- Parked in a wait of BAR, BARW, QPULL, RWAIT, BUFWAIT or WAITB (R318). -/
def Park.inWait : Park → Bool
  | .bar _ _ | .qpull _ | .rwait _ | .bufwait _ | .waitb _ => true
  | _ => false

/-- Reservations that a discarded region's loads have not made yet are not made (R219). -/
def State.dropResv (s : State) (r : Ref) : State :=
  s.modTeam r.team fun t => { t with mops := mmap t.mops fun m =>
    if m.kind = .ldrsv && m.group = r.group && m.split = r.split then { m with kind := .ld, cp := 3 } else m }

/-- The lanes of an octet (R228). -/
def octetLanes (o : Nat) : Lanes := (0xFF : Lanes) <<< (8 * o)

/-- The A latches of the octets that hold some of the lanes are emptied (R234). -/
def Group.dropLatches (g : Group) (m : Lanes) : Group :=
  { g with latch := g.latch.filter fun q => octetLanes q.1 &&& m = 0 }

/-- The scalars that a restarted split reads (R321): one that another split has written since the entry holds any value that the
group is known to have held in it. -/
def State.restartScalars (s : State) (r : Ref) : State :=
  match s.lookup? r with
  | none => s
  | some c => c.split.foreign.foldl (fun s n =>
      let v := mget 0 c.group.s n
      let q := s.among v (v :: mget [] c.group.pastS n)
      q.1.modSplit r fun p => { p with stale := mput p.stale n q.2 }) s

/-- The region of a split discarded (R318). `preempt` clears its reservations in every case (R322). -/
def State.discard (s : State) (r : Ref) (preempt : Bool) : State :=
  match s.lookup? r with
  | none => s
  | some c =>
    let p := c.split
    let c := { c with group := c.group.dropLatches p.allLanes }
    let stays := p.park.inWait || p.waits || p.stalls ||
      (match p.park with | .exit | .merge _ | .handler .dense _ _ => true | _ => false)
    let atE := s.atEntry c && (match p.park with | .handler _ _ _ => false | _ => true)
    let gone := c.group.othersLanes r.split ||| c.group.exited
    let held := p.allLanes ||| (match p.entry with | some e => e.lanes &&& ~~~gone | none => 0)
    let clr (g : Group) : Group := { g with resv := g.resv.filter fun q => !held.getLsbD q.1 }
    if stays then
      let c := { c with split := { p.closeWindows with waits := p.waits || p.stalls, stalls := false } }
      if preempt then (s.put { c with group := clr c.group }).dropResv r else s.put c
    else if atE then
      let c := { c with split := { p.closeWindows with entry := some (p.here p.ridx) } }
      if preempt then (s.put { c with group := clr c.group }).dropResv r else s.put c
    else match p.entry with
      | none => (s.put { c with split := p.close.closeWindows, group := clr c.group }).dropResv r
      | some e =>
        let ovf := e.ovf.map fun o => { o with pend := o.pend.map (· &&& ~~~gone), join := o.join.map (· &&& ~~~gone) }
        let p := { p.close.closeWindows with
          pc := e.pc, mask := e.mask &&& ~~~gone, ovf := ovf, loops := e.loops, fmt := e.fmt, drec := e.drec, ridx := e.ridx
          park := if p.park = .fault then .fault else .none, parked := 0 }
        ((s.put { c with split := p, group := clr c.group }).dropResv r).restartScalars r

/-- A trap of the resumable class (R183, R309, R318): TRAPINFO is written, the region is discarded, a fault record
goes to the context's queue, and the split waits for the driver. TRAPPC and ACT keep their values (log 9). -/
def State.resumable (s : State) (r : Ref) (cause : Cause) (detail : Word) (va : Nat) : State :=
  match s.lookup? r with
  | none => s
  | some c =>
    let info := trapInfo c.group.act r.split 0 cause.code detail
    let s := s.put { c with group := { c.group with regs := { c.group.regs with trapinfo := info } } }
    let s := (s.discard r false).modSplit r fun p => { p with park := .fault, parked := 0 }
    let pc := ((s.lookup? r).map fun c => c.split.pc).getD 0
    s.faultPush c.team.die c.team.ctx
      (faultRecord (info &&& 0x7FFFFFFFFFFFFFFF) pc (s.timeOf c.team.die) c.team.die c.team.core r.group r.split 0
        (if cause = .pageflt then va else 0))

/-! ### The end of a context -/

/-- An engine command that runs to completion when its context ends: a copy or drain that has begun, a TEMIT, or a QPULL that
has taken its item (R315, R323). -/
def Cmd.runsOut (k : Cmd) : Bool :=
  match k.kind with
  | .copy _ | .drain => k.begun || k.taken
  | .temit _ _ _ | .item _ _ _ | .sent _ => true
  | _ => false

/-- A drain that still waits behind an EPLOAD or for an entry. -/
def EpTeam.waits (e : EpTeam) (id : Nat) : Bool :=
  e.wait.any fun w => match w.1 with | .drain d => d.id = id | .load _ _ => false

/-- Every group of a team stops: splits inside a clause run it out, the others end at once; commands that have not
begun are discarded, with the splits that wait to hand one over (R315 steps 1 and 2). -/
def Team.stop (t : Team) : Team :=
  { t with status := .ending, runs := [], ep := { t.ep with wait := [] }, cmds := t.cmds.filter fun k => k.2.runsOut && !t.ep.waits k.1
           groups := mmap t.groups fun g => { g with splits := g.splits.filter fun p => p.2.opn && !p.2.waits && !p.2.stalls } }

/-- The local side of a remote request (R300). -/
def Cmd.isRemote (k : Cmd) : Bool := match k.kind with | .remote _ _ => true | _ => false

/-- Nothing of an ending team is still under way in its own record (R315 step 2). -/
def Team.quiet (t : Team) : Bool := t.groups.all (fun g => g.2.splits.isEmpty) && t.mops.isEmpty && t.cmds.all (·.2.isRemote)

/-- The epilogue item is of the team. -/
def EpItem.isOf (i : EpItem) (tid : Nat) : Bool :=
  match i with
  | .load _ t => t = tid
  | .drain d => d.team = tid

/-- Nothing of a team is still under way in its core's units. -/
def CoreSt.quietFor (k : CoreSt) (tid : Nat) : Bool :=
  k.mq.all (fun q => q.2.all fun o => o.team ≠ tid) && !k.epq.any (·.isOf tid)

/-- A team leaves its core's units: the epilogue place and the windlass (R240, R244). -/
def CoreSt.leave (k : CoreSt) (tid : Nat) : CoreSt :=
  { k with places := (mmap k.places fun p => { p with teams := p.teams.filter (· ≠ tid) }).filter fun p => !p.2.teams.isEmpty
           windlass := if k.windlass = some tid then none else k.windlass }

/-- Epilogue work of a stopped team that has not begun is dropped (R315 step 2). -/
def State.dropEp (s : State) (tid : Nat) : State :=
  match mget? s.teams tid with
  | none => s
  | some t =>
    let keep (i : EpItem) : Bool := match i with
      | .drain d => d.team ≠ tid || (mget? t.cmds d.id).isSome
      | .load _ x => x ≠ tid
    s.modCore t.coreKey fun k => { k with epq := k.epq.filter keep }

/-- Every line of every window of a team written back (R190). -/
def State.stashFlush (s : State) (tid : Nat) : State :=
  match mget? s.teams tid with
  | none => s
  | some t => t.wins.foldl (fun s w => w.2.lines.foldl (fun s l => s.stashWriteBack tid w.1 l.1) s) s

/-- The last step of R315: the fault record of the end is written and the host interrupted. -/
def State.recordEnd (s : State) (x : Nat) : State :=
  match (s.ctx x).endRec with
  | none => s
  | some (die, rec) => (s.faultPush die x rec).modCtx x fun y => { y with endRec := none, irq := true }

/-- Steps 3 to 6 of R315, once nothing of an ended context is under way: its connections reset, its windows, tasks, queues
and projection sets are released, and the end is recorded. -/
def State.releaseCtx (s : State) (x : Nat) : State :=
  if (s.ctx x).ended.isNone || s.teams.any (fun t => t.2.ctx = x) then s else
  let s := s.endFabric x
  let ofDie (d : Die) : Die :=
    { d with queues := d.queues.filter fun q => q.1 / 16 ≠ x, projs := d.projs.filter fun p => p.2.ctx ≠ x }
  { s with tasks := s.tasks.filter fun t => t.2.ctx ≠ x, dies := mmap s.dies ofDie }.recordEnd x

/-- A team of an ended context is released once nothing of it is under way (R315). -/
def State.reap (s : State) (tid : Nat) : State :=
  match mget? s.teams tid with
  | none => s
  | some t =>
    if t.status = .ending && t.quiet && (s.core t.coreKey).quietFor tid then
      let s := ((s.raiseTeam tid).stashFlush tid).modCore t.coreKey fun k => k.leave tid
      ({ s with teams := mdel s.teams tid }).releaseCtx t.ctx
    else s

/-- The end of a context (R315): its groups stop, what has begun runs on, the tiles of its ring commands are discarded, what
it holds is released once it is quiet, and then a record goes to its fault queue. -/
def State.endContext (s : State) (x : Nat) (code : Nat) (rec : List Byte) (die : Nat) : State :=
  if (s.ctx x).ended.isSome || !(s.ctx x).live then s else
  let mine := (s.teams.filter fun t => t.2.ctx = x).map (·.1)
  let s := s.modCtx x fun y => { y with ended := some code, endRec := some (die, rec) }
  let s := { s with tiles := s.tiles.filter fun t => t.ctx ≠ x
                    teams := s.teams.filterMap fun (t : Nat × Team) =>
    if t.2.ctx ≠ x then some t else if t.2.status = TeamStatus.saved then none else some (t.1, t.2.stop) }
  let s := mine.foldl (fun s t => (s.dropEp t).reap t) s
  s.releaseCtx x

/-- A trap of the fatal class (R309, R315); TRAPPC holds the clause's address (R130). -/
def State.fatal (s : State) (r : Ref) (cause : Cause) (detail : Word) : State :=
  match s.lookup? r with
  | none => s
  | some c =>
    let info := trapInfo c.group.act r.split 2 cause.code detail
    let regs := { c.group.regs with trapinfo := info, trappc := c.split.pc }
    let s := s.put { c with group := { c.group with regs := regs }, split := c.split.close }
    s.endContext c.team.ctx cause.code
      (faultRecord (info &&& 0x7FFFFFFFFFFFFFFF) c.split.pc (s.timeOf c.team.die) c.team.die c.team.core r.group r.split 2 0)
      c.team.die

/-- The index of the instruction that is issuing in its clause. -/
def Split.cur (p : Split) : Nat := p.idx - 1

/-- ILLOP at the issuing instruction (R130, R131). -/
def State.illop (s : State) (c : Cur) (reason : Nat) : State := s.fatal c.ref .illop (illDetail (some c.split.cur) reason)
/-- PROT at the issuing instruction (R309). -/
def State.protAt (s : State) (c : Cur) (kind : Nat) : State :=
  s.fatal c.ref .prot (BitVec.ofNat 32 (c.split.cur % 16 + 256 * kind))
/-- ALIGN at the issuing instruction (R309). -/
def State.alignAt (s : State) (c : Cur) : State := s.fatal c.ref .align (BitVec.ofNat 32 (c.split.cur % 16))
/-- PAGEFLT on an address (R183, R309). -/
def State.pageflt (s : State) (r : Ref) (va : Nat) : State := s.resumable r .pageflt (BitVec.ofNat 32 (va / 65536)) va

/-- A failed translation raised on the issuing instruction (R183, R184). -/
def State.transTrap (s : State) (c : Cur) (e : Trans) (va : Nat) : State :=
  match e with
  | .pageflt => s.pageflt c.ref va
  | .prot k => s.protAt c k
  | .ok _ _ => s

/-- Delivery of a user trap to a split (R311, R312): fatal without a handler or inside its own, held before the
trapping clause while another split runs one, else taken to TRAPVEC with TRAPINFO, TRAPPC and the trap entry record written. -/
def State.userTrap (s : State) (r : Ref) (cause : Cause) (detail : Word) (resume : DWord) : State :=
  match s.lookup? r with
  | none => s
  | some c =>
    if c.group.regs.trapvec = 0 || (c.group.act && c.group.handler = some r.split) then s.fatal r cause detail
    else if c.group.act then
      s.put { c with split := { c.split.close with park := .handler cause detail resume, parked := 0 } }
    else
      let regs := { c.group.regs with trapinfo := trapInfo true r.split 1 cause.code detail, trappc := resume }
      let p := { c.split.close with pc := c.group.regs.trapvec, needRe := true, park := .none }
      s.put { c with group := { c.group with regs := regs, trapEntry := c.split.entry, handler := some r.split }, split := p }

end Sys2Proof.Machine
end

