-- ==== Sys2Proof/Machine/Splits.lean ====
section
/-! DEFINITION. What a group does with its splits: loop levels (R399), divergence (R47 to R52), the fallback moves
of R53, merging (R55 to R58), team barriers (R61 to R64), and the end of a split (R50, R326). -/
namespace Sys2Proof.Machine

/-! ### Loops -/

/-- Falling through to an address steps the levels that exit there, the innermost first (R399). -/
def fallThrough : List Loop → DWord → List Loop × DWord
  | [], pc => ([], pc)
  | l :: ls, pc =>
    if pc = l.exit then
      if l.lc - 1 = 0 then fallThrough ls pc else ({ l with lc := l.lc - 1 } :: ls, l.start)
    else (l :: ls, pc)

/-- An address inside the body of a level (R397). -/
def Loop.inside (l : Loop) (a : DWord) : Bool := l.start.toNat ≤ a.toNat && a.toNat < l.exit.toNat

/-- A taken branch from clause `hdr` to `tgt` ends the levels that it leaves (R399). -/
def takenLoops (hdr tgt : DWord) : List Loop → List Loop
  | [] => []
  | l :: ls => if l.inside hdr && !l.inside tgt then takenLoops hdr tgt ls else l :: ls

/-! ### Moving a split -/

/-- A yield of the clause that ends takes effect (R98). -/
def Split.yielded (p : Split) : Split := if p.yld then { p with hold := 64, age := 0, cont := 0 } else p

/-- What orders split `i`'s arrival at a clause or a MERGE now: the cycle, then the split index (R56, R58; log 110). -/
def Group.arrival (g : Group) (i : Nat) : Nat := g.cyc * 4 + i

/-- The split at a clause boundary at `pc`, having just come there. R56 does not say which of several splits that come to one PC in
one cycle is the earlier: DESIGN CHOICE, the lower index (log 110). -/
def Cur.goto (c : Cur) (pc : DWord) (loops : List Loop) : Cur :=
  { c with split := { c.split.yielded.close with
      pc := pc, loops := loops, since := c.group.arrival c.ref.split, left := false, passed := false, hit := false } }

/-- The split goes on after its clause: it falls through (R101, R399), or goes where a LOOP of count 0 sent it,
which steps no level (R398; log 13). -/
def Cur.fall (c : Cur) : Cur :=
  match c.split.jump with
  | some a => c.goto a c.split.loops
  | none => let t := fallThrough c.split.loops c.split.next; c.goto t.2 t.1

/-- The fallback moves of R53, `n` of them at most: an empty mask counts as having reached the top entry's X. A side that is
to resume runs its clause at once, as the rule's break says (log 65). -/
def fallbackMoves (exited : Lanes) : Nat → Split → Split
  | 0, p => p
  | n + 1, p =>
    match p.ovf with
    | [] => p
    | e :: rest =>
      if p.mask ≠ 0 && e.x ≠ p.pc then p else
      let p := { p with pc := e.x }
      match e.pend with
      | some m =>
        let m := m &&& ~~~exited
        let p := { p with mask := m, ovf := { e with pend := none } :: rest, fmt := e.fmt, loops := e.loops }
        if m ≠ 0 then { p with pc := e.resume } else fallbackMoves exited n p
      | none =>
        fallbackMoves exited n (match e.join with
          | some m => { p with ovf := rest, mask := m &&& ~~~exited, fmt := e.fmt }
          | none => { p with ovf := rest })

/-- A split in fallback at a clause boundary, or with an empty mask, after R53. -/
def Cur.fallback (c : Cur) : Cur :=
  { c with split := fallbackMoves c.group.exited 32 c.split }

/-- A split as it stands before its next clause: after the moves of R53, unless it has made them at this boundary already. -/
def Cur.bound (c : Cur) : Cur :=
  if c.split.opn || c.split.park ≠ .none || c.split.left || c.split.passed || c.split.hit then c else c.fallback

/-! ### Divergence -/

/-- A side of a branch: its lanes, where they go, and their loop state as they leave (R47, R52). -/
structure Side where
  lanes : Lanes
  pc    : DWord
  loops : List Loop
deriving DecidableEq, Repr

/-- The lowest split index that is free (R48). -/
def Group.freeSplit (g : Group) : Nat := ((List.range 4).find? fun i => (mget? g.splits i).isNone).getD 4

/-- The chain of divergence records from one record (R49). -/
def chainFrom (recs : SMap DivRec) : Nat → Option Nat → List Nat
  | 0, _ => []
  | _, none => []
  | n + 1, some k => k :: chainFrom recs n ((mget? recs k).bind (·.parent))

/-- The records of a split's chain, its own first. -/
def Group.chain (g : Group) (p : Split) : List Nat := chainFrom g.recs (g.recs.length + 1) p.drec

/-- Records that no split's chain reaches are freed (R49). -/
def Group.freeRecs (g : Group) : Group :=
  let used := g.splits.flatMap fun p => g.chain p.2
  { g with recs := g.recs.filter fun r => used.contains r.1 }

/-- Lanes merged by equal goal: a side joins an earlier one with the same PC and loop state (R47). -/
def addSide (ss : List Side) (x : Side) : List Side :=
  if ss.any fun y => y.pc = x.pc && y.loops = x.loops then
    ss.map fun y => if y.pc = x.pc && y.loops = x.loops then { y with lanes := y.lanes ||| x.lanes } else y
  else ss ++ [x]

/-- The lowest lane of a mask; 64 when it is empty. -/
def lowLane (m : Lanes) : Nat := ((lanes m).head?).getD 64

/-- A branch carried out (R47 to R52). `stay` is the side that keeps the diverging split when splits are created,
`others` the rest in the order in which they become splits. Among the sides that stay in the diverging split, a
BRA runs the taken side first (`takenFirst`), a BRX the side of the lowest lane, which is `stay`. -/
def State.branch (s : State) (c : Cur) (stay : Side) (others : List Side) (takenFirst : Bool) (x : Option DWord) : State :=
  if others.isEmpty then s.put (c.goto stay.pc stay.loops) else
  let room := if c.split.ovf.isEmpty then 4 - c.group.splits.length else 0
  let new := others.take room
  let rest := others.drop room
  let sides := if takenFirst then rest ++ [stay] else stay :: rest
  let pushed := sides.drop 1
  if !pushed.isEmpty && x.isNone then s.fatal c.ref .divdepth 2
  else if c.split.ovf.length + pushed.length > 8 then s.fatal c.ref .divdepth 1
  else
    let g := c.group
    let recId := g.nextRec
    let g := if new.isEmpty then g else
      { g with recs := mput g.recs recId ⟨c.split.fmt, x, c.split.drec⟩, nextRec := recId + 1 }
    let joinAll := sides.foldl (fun m y => m ||| y.lanes) 0
    -- the last side is pushed first, and the entry pushed first holds the join mask
    let n := pushed.length
    let entries := pushed.zipIdx.map fun yi => (⟨some yi.1.lanes, yi.1.pc,
      if yi.2 + 1 = n then some joinAll else none, x.getD 0, c.split.fmt, yi.1.loops⟩ : Ovf)
    let head := sides.head?.getD stay
    let base := { c.split.close with left := false, passed := false, hit := false }
    let own := { c.split.yielded.close with
      left := false, passed := false, hit := false, since := g.arrival c.ref.split, mask := head.lanes, pc := head.pc, loops := head.loops
      ovf := entries ++ c.split.ovf
      drec := if pushed.isEmpty then some recId else c.split.drec }
    let g := { g with splits := mput g.splits c.ref.split own }
    let g := new.foldl (fun (g : Group) (y : Side) =>
      let p := { base with
        since := g.arrival g.freeSplit, mask := y.lanes, pc := y.pc, loops := y.loops, drec := some recId, entry := none, foreign := [], ovf := []
        arr := [], held := [], batch := [], age := 0, hold := 0, cont := 0 }
      { g with splits := mput g.splits g.freeSplit p }) g
    s.put { c with group := g.freeRecs, split := own }

/-! ### Merging -/

/-- The deepest record common to every chain of a list, the first chain's order giving depth (R56, R58). -/
def commonRec : List (List Nat) → Option Nat
  | [] => none
  | ch :: rest => ch.find? fun r => rest.all fun k => k.contains r

/-- The union of two lists of outstanding operations, each once (R55). -/
def unionIds (a b : List Nat) : List Nat := a ++ b.filter fun x => !a.contains x

/-- The counters of a merged split (R55). -/
def Ctrs.union (a b : Ctrs) : Ctrs :=
  ⟨unionIds a.ldc b.ldc, unionIds a.stc b.stc, unionIds a.cpc b.cpc, unionIds a.mxc b.mxc, unionIds a.enc b.enc,
    unionIds a.rmc b.rmc⟩

/-- Of two arrivals of one group on a barrier, the later (R63). -/
def laterArrival (a b : SMap (Nat × Nat)) : SMap (Nat × Nat) :=
  a.filterMap fun k => (mget? b k.1).map fun y => (k.1, if k.2.2 ≤ y.2 then y else k.2)

/-- Two splits made one (R55, R56, R126): `a` keeps its index. The merged split came to its PC when the earlier of the two did, and
its last arrival on a barrier is the later one. R57 does not say whether a split that has left its park at X parks there again once
another merges with it: DESIGN CHOICE, it does, since it is another split by then (`left` is cleared; log 110). -/
def Split.mergeWith (a b : Split) : Split :=
  { a.closeWindows with
    mask := a.mask ||| b.mask
    ctrs := a.ctrs.union b.ctrs
    after := unionIds (unionIds a.ctrs.ldc a.ctrs.stc) (unionIds b.ctrs.ldc b.ctrs.stc)
    pend := a.closeWindows.pend ++ (b.closeWindows.pend.filter fun q => !(a.pend.any fun r => r.id = q.id))
    arr := laterArrival a.arr b.arr
    held := laterArrival a.held b.held
    since := min a.since b.since
    batch := unionIds a.batch b.batch
    rdScope := max a.rdScope b.rdScope
    needRe := a.needRe || b.needRe
    step := a.step || b.step
    park := .none
    parked := 0
    left := false
    passed := false
    hit := a.hit || b.hit
    seen := []
    staleV := b.staleV.foldl (fun m e => mput m e.1 e.2) a.staleV
    lost := b.lost.foldl (fun m e => mput m e.1 e.2) a.lost }

/-- The splits with indices `is` of a group merged into the lowest of them (R55, R56, R58). `keepC` keeps the
pointer at the common record where another live split's chain still reaches it (R56). -/
def Group.mergeSplits (g : Group) (is : List Nat) (order : Split → Nat) : Group :=
  let ps := g.splits.filter fun p => is.contains p.1
  match ps with
  | [] => g
  | (i, p) :: rest =>
    let m := rest.foldl (fun a q => a.mergeWith q.2) p
    let others := g.splits.filter fun q => !is.contains q.1
    let c := commonRec (ps.map fun q => g.chain q.2)
    let first := (ps.map (·.2)).foldl (fun a q => if order q < order a then q else a) p
    let (fmt, ptr) := match c with
      | some r =>
        let d := mget? g.recs r
        ((d.map (·.fmt)).getD p.fmt,
          if others.any fun q => (g.chain q.2).contains r then some r else d.bind (·.parent))
      | none => (first.fmt, none)
    let m := { m with fmt := fmt, drec := ptr }
    let h := if (g.handler.map is.contains).getD false then some i else g.handler
    { g with splits := mput others i m, handler := h }.freeRecs

/-- Parked at a reconvergence PC or at a MERGE: the only parks that admit a merge (R55). -/
def Park.admitsMerge : Park → Bool
  | .none | .reconv => true
  | _ => false

/-- A split of the same group. -/
def Cur.sibling (c : Cur) (i : Nat) (p : Split) : Cur := { c with ref := { c.ref with split := i }, split := p }

/-- The split stands at a clause boundary where it may merge, after the moves of R53 (R55, R319). -/
def State.mergeable (s : State) (c : Cur) : Bool :=
  let b := c.bound
  !b.split.opn && !c.owes && b.split.park.admitsMerge && b.split.ovf.isEmpty && b.split.mask != 0 && s.atEntry b

/-- A halt leaves two splits free to merge: there is none, or one of them is to make a single step and the other is not parked
(R55, R329). -/
def Cur.stepMerges (c d : Cur) : Bool :=
  !c.group.halted || ((c.split.step || d.split.step) && c.split.park = .none && d.split.park = .none)

/-- Two splits of a group stand at one region entry with equal loop state and may merge there (R55). -/
def State.mergesWith (s : State) (c d : Cur) : Bool :=
  c.ref.split ≠ d.ref.split && c.bound.split.pc = d.bound.split.pc && c.bound.split.loops = d.bound.split.loops &&
  s.mergeable c && s.mergeable d && c.stepMerges d

/-- The sibling with which a split merges where it stands (R55). -/
def State.mergePartner (s : State) (c : Cur) : Option Nat :=
  if !s.mergeable c then none else
  c.group.splits.findSome? fun q => if s.mergesWith c (c.sibling q.1 q.2) then some q.1 else none

/-- A group whose split `i` has made the moves of R53. -/
def Group.bounded (g : Group) (i : Nat) : Group :=
  { g with splits := mmod g.splits i fun p =>
      if p.opn || p.park ≠ .none || p.left || p.passed || p.hit then p else fallbackMoves g.exited 32 p }

/-- Two splits merge at one region-entry PC (R55). -/
def State.mergeTwo (s : State) (r : Ref) (other : Nat) : State :=
  s.modGroup r.team r.group fun g => ((g.bounded r.split).bounded other).mergeSplits [r.split, other] (·.since)

/-- Every live split of the group is parked at a MERGE. -/
def Group.allAtMerge (g : Group) : Bool :=
  !g.splits.isEmpty && g.splits.all fun q => match q.2.park with | .merge _ => true | _ => false

/-- What orders a split's park at its MERGE: the cycle, then its index (R58). -/
def Split.mergeSeq (p : Split) : Nat := match p.park with | .merge n => n | _ => 0

/-- Every split parked at the same MERGE with equal loop state (R58). -/
def Group.sameMerge (g : Group) : Bool :=
  match g.splits with
  | [] => false
  | (_, p) :: rest => rest.all fun q => q.2.pc = p.pc && q.2.loops = p.loops

/-- DIVDEPTH with detail 4 when every live split is parked at some MERGE but not at one (R58). -/
def State.mergeCheck (s : State) (r : Ref) : State :=
  match (mget? s.teams r.team).bind fun t => mget? t.groups r.group with
  | none => s
  | some g =>
    if g.allAtMerge && !g.sameMerge then
      s.fatal ⟨r.team, r.group, ((g.splits.head?).map (·.1)).getD 0⟩ .divdepth 4
    else s

/-- The parked splits of a MERGE become one, which goes on after it (R58). Its entry record is the MERGE's clause
with all their lanes (R319). -/
def State.mergeAll (s : State) (t gi : Nat) : State :=
  match mget? s.teams t with
  | none => s
  | some tm =>
    match mget? tm.groups gi with
    | none => s
    | some g =>
      if !g.allAtMerge || (g.halted && g.splits.length ≠ 1) then s
      else if !g.sameMerge then s.mergeCheck ⟨t, gi, 0⟩
      else
        let g := g.mergeSplits (g.splits.map (·.1)) (·.mergeSeq)
        match g.splits with
        | (i, p) :: _ =>
          let p := { p with entry := some (p.here p.ridx), park := .none, parked := 0 }
          s.put (Cur.fall ⟨⟨t, gi, i⟩, tm, g, p⟩)
        | [] => s

/-! ### Team barriers -/

/-- A split that waits on barrier `b` resumes once the phase that it waits for has begun (R64). -/
def Split.leaveBar (b phase : Nat) (p : Split) : Split :=
  match p.park with
  | .bar b' target => if b' = b && target ≤ phase then { p with park := .none, parked := 0 } else p
  | _ => p

/-- Held arrivals become arrivals of the new phase (R62), and waiting splits whose phase has completed resume (R64); those of a
halted group stay parked until it resumes (R327). -/
def Team.phaseDone (t : Team) (b : Nat) (phase : Nat) : Team :=
  let onSplit (halted : Bool) (p : Split) : Split :=
    let p := { p with arr := (match mget? p.held b with | some e => mput p.arr b e | none => mdel p.arr b), held := mdel p.held b }
    if halted then p else p.leaveBar b phase
  { t with groups := mmap t.groups fun g => { g with splits := mmap g.splits (onSplit g.halted) } }

/-- Barrier `b` of a team. -/
def Team.bar (t : Team) (b : Nat) : Barrier := (t.bars[b]?).getD {}

/-- Every live split of the group has arrived on `b` in this phase (R62). -/
def Group.arrived (g : Group) (b : Nat) : Bool := !g.splits.isEmpty && g.splits.all fun p => (mget? p.2.arr b).isSome

/-- The operand of the group's last split arrival in the phase, which sets E (R63). -/
def Group.lastOperand (g : Group) (b : Nat) : Nat :=
  (g.splits.foldl (fun (a : Nat × Nat) p =>
    match mget? p.2.arr b with
    | some x => if a.2 ≤ x.2 then x else a
    | none => a) (0, 0)).1

/-- A group's arrival counted with operand `e` (R63): the team, and whether the phase completed. -/
def Team.countArrival (t : Team) (gi b e : Nat) : Team × Bool :=
  let k := t.bar b
  let t := { t with groups := mmod t.groups gi fun g => { g with phase := mput g.phase b k.phase } }
  let k := if k.count = 0 then { k with e := e, count := 1 } else { k with count := k.count + 1 }
  if k.count ≠ k.e then ({ t with bars := t.bars.set b k }, false)
  else (({ t with bars := t.bars.set b { k with count := 0, phase := k.phase + 1 } } : Team).phaseDone b (k.phase + 1), true)

/-- Groups whose splits have all arrived in the present phase, and that have not been counted in it, are counted in
group order (log 12); a phase that completes frees held arrivals, which are looked at in turn. -/
def Team.sweep (b : Nat) : Nat → Team → Team
  | 0, t => t
  | n + 1, t =>
    match t.groups.find? fun g => !g.2.halted && g.2.arrived b && mget? g.2.phase b ≠ some (t.bar b).phase with
    | some (gi, g) => Team.sweep b n (t.countArrival gi b (g.lastOperand b)).1
    | none => t

/-- Barriers looked at again, after a split has ended (one that has ended counts as arrived, R62) or a halted group has resumed,
whose arrivals made up during the halt are counted only then (R328). -/
def Team.afterEnd (t : Team) : Team := (List.range t.bars.length).foldl (fun t b => Team.sweep b 64 t) t

/-- A halted group of a team resumes: splits that waited on a barrier whose phase has gone by leave their parks, and the group's
arrivals count (R327, R328). A split that has hit a breakpoint passes it. -/
def Team.resumeGroup (t : Team) (gi : Nat) : Team :=
  let wake (p : Split) : Split := (List.range t.bars.length).foldl (fun p b => p.leaveBar b (t.bar b).phase) p
  { t with groups := mmod t.groups gi fun g =>
      { g with halted := false, splits := mmap g.splits fun p => wake { p with step := false, passed := p.hit, hit := false } } }.afterEnd

/-! ### The end of a split -/

/-- A split ends (R50): its index is free, its records are freed when no chain reaches them, a handler that it ran
ends (R376), and its group ends with its last split. -/
def State.endSplit (s : State) (r : Ref) : State :=
  match s.lookup? r with
  | none => s
  | some c =>
    let g := { c.group with splits := mdel c.group.splits r.split }
    let g := if g.act && g.handler = some r.split then
      { g with handler := none, regs := { g.regs with trapinfo := g.regs.trapinfo &&& 0x7FFFFFFFFFFFFFFF } } else g
    let g := { g.freeRecs with ended := g.splits.isEmpty }
    let t := { c.team with groups := mput c.team.groups r.group g }
    ({ s with teams := mput s.teams r.team t.afterEnd }).mergeCheck r

/-- An exited split has nothing more to wait for: its matrix work and open-batch copies are complete (R326). -/
def Split.drained (p : Split) : Bool := p.ctrs.mxc.isEmpty && p.batch.isEmpty

end Sys2Proof.Machine
end

