-- ==== Sys2Proof/Machine/Engine.lean ====
section
/-! DEFINITION. Engine commands (R221 to R224, R323): footprints and their order, what follows when one completes, copies and batches
(R358, R360 to R362, R462), circular buffers (R241 to R243, R354 to R356), and the windlass (R244 to R247, R394, R395). -/
namespace Sys2Proof.Machine

/-! ### Footprints -/

/-- The kind of storage of a place with the place's offset, so that equal kinds share a space of 128-byte granules. -/
def Place.flat : Place → Nat × Nat
  | .hbm a => (0, a)
  | .arr a => (1, a)
  | .peer p a => (2 + p, a)

/-- A place `n` bytes on. -/
def Place.add (p : Place) (n : Nat) : Place :=
  match p with
  | .hbm a => .hbm (a + n)
  | .arr a => .arr (a + n)
  | .peer q a => .peer q (a + n)

/-- Two ranges share a granule of 128 bytes, and one of them is written (R222) or both are of operations on a strand (R258). -/
def Foot.clash (a b : Foot) : Bool :=
  let x := a.place.flat
  let y := b.place.flat
  (a.write || b.write || (a.strand && b.strand)) && a.len ≠ 0 && b.len ≠ 0 && x.1 = y.1 &&
    x.2 / 128 ≤ (y.2 + b.len - 1) / 128 && y.2 / 128 ≤ (x.2 + a.len - 1) / 128

/-- Two footprints clash. -/
def footsClash (a b : List Foot) : Bool := a.any fun x => b.any fun y => x.clash y

/-- No command of the team issued before `id` clashes with a footprint (R222). -/
def Team.clear (t : Team) (id : Nat) (foot : List Foot) : Bool :=
  t.cmds.all fun q => id ≤ q.1 || !footsClash q.2.foot foot

/-- The commands that the footprint tracker of a core holds, at most 64 (R222). -/
def State.tracked (s : State) (core : Nat) : Nat :=
  s.teams.foldl (fun n t => if t.2.coreKey = core && t.2.status ≠ .saved then n + t.2.cmds.length else n) 0

/-- The virtual pages of a range. -/
def vpages (a n : Nat) : List Nat := (List.range ((a % 65536 + n + 65535) / 65536)).map fun i => a / 65536 + i

/-- A footprint of translated pieces. -/
def footOf (write : Bool) (ps : List (Place × Nat)) : List Foot := ps.map fun p => { place := p.1, len := p.2, write := write }

/-- A range that a command touches: in the local array, or global with the permission it needs. -/
structure ERange where
  loc  : Bool
  addr : Nat
  len  : Nat
  need : Need
deriving DecidableEq, Repr

/-- A range cut into translated pieces, with the address of each (R184, R173, R192). -/
def State.rangePieces (s : State) (t : Team) (r : ERange) : List (Nat × Nat × Trans) :=
  if r.loc then
    [(r.addr, r.len, if t.bytes < r.addr + r.len || t.inWindow r.addr r.len then .prot 6 else .ok (.arr r.addr) 0)]
  else (pageChunks r.addr r.len).map fun c => (c.1, c.2, s.translate t.die t.ctx (BitVec.ofNat 64 c.1) r.need)

/-- The ranges of a command translated at issue (R184): the pieces of each, or the trap on the issuing instruction, a
fatal one before a page fault. -/
def State.engRanges (s : State) (c : Cur) (rs : List ERange) : Except State (List (List (Place × Nat))) :=
  let ps := rs.map fun r => s.rangePieces c.team r
  let all := ps.flatten
  match all.find? fun p => match p.2.2 with | .prot _ => true | _ => false with
  | some p => .error (s.transTrap c p.2.2 p.1)
  | none => match all.find? fun p => p.2.2 = .pageflt with
    | some p => .error (s.transTrap c p.2.2 p.1)
    | none => .ok (ps.map fun l => l.filterMap fun p => match p.2.2 with | .ok q _ => some (q, p.2.1) | _ => none)

/-! ### What follows a change -/

/-- Taken entries become full in the order in which they were taken (R242). -/
def Buf.promote (k : Buf) : Buf :=
  { k with ents := (k.ents.foldl (fun (a : SMap BufEntry × Bool) e =>
      if a.2 && e.2.stage = 1 then (a.1 ++ [(e.1, { e.2 with stage := 2 })], true)
      else (a.1 ++ [e], a.2 && e.2.stage = 2)) ([], true)).1 }

/-- Passed entries become free once their readers are done (R243); `live` tells which loads are in flight. -/
def Buf.release (live : Nat → Bool) (k : Buf) : Buf :=
  { k with ents := k.ents.filter fun e =>
      !(e.1 < k.head && e.2.stage = 2 && !(k.users.any fun u => u.1 = e.1) && !(e.2.loads.any live)) }

/-- The address of the n-th taken entry in the local array (R241). -/
def Buf.addr (k : Buf) (n : Nat) : Nat := k.base + n % k.cnt * k.esz

/-- The n-th taken entry is full. -/
def Buf.isFull (k : Buf) (n : Nat) : Bool := ((mget? k.ents n).map (·.stage)) = some 2

/-- Buffer `b` of a team; one never configured has CNT 0 (R241). -/
def Team.buf (t : Team) (b : Nat) : Buf := mget {} t.bufs b

/-- Buffers after a change (R242, R243). -/
def Team.settleBufs (t : Team) : Team :=
  { t with bufs := mmap t.bufs fun k => (k.promote).release fun i => (mget? t.mops i).isSome }

/-- A command of a team is complete: out of its counters, its batches and the team's list (R108). -/
def Team.cmdDone (t : Team) (id : Nat) : Team := ({ t with cmds := mdel t.cmds id } : Team).complete id

/-- The batches that a WAITB of number `n` waits for are complete (R462). -/
def Group.batchesDone (g : Group) (n : Word) : Bool :=
  g.closed.all fun b => b.2.isEmpty ||
    !((n - BitVec.ofNat 32 b.1).toNat < 2 ^ 31 && (BitVec.ofNat 32 g.batchNo - BitVec.ofNat 32 b.1).toNat < 2 ^ 31)

/-- One split parked in a wait goes on when its wait has ended (R356, R462). -/
def Team.wakeOne (t : Team) (id : Nat) (k : Cmd) : Team :=
  match mget? t.groups k.group with
  | none => t
  | some g =>
    if g.halted || t.status ≠ .resident then t else
    let go (g : Group) : Team :=
      let g := { g with splits := mmap g.splits fun p =>
        if p.park = .bufwait id || p.park = .waitb id then { p with park := .none, parked := 0 } else p }
      ({ t with groups := mput t.groups k.group g } : Team).cmdDone id
    match k.kind with
    | .bufwait b j reg =>
      if (t.buf b).isFull ((t.buf b).head + j) then
        go (g.landS k.split [reg] fun g => g.wrS reg (BitVec.ofNat 32 ((t.buf b).addr ((t.buf b).head + j))))
      else t
    | .waitb n => if g.batchesDone n then go g else t
    | _ => t

/-- Every parked wait looked at again. -/
def Team.wake (t : Team) : Team := t.cmds.foldl (fun t q => t.wakeOne q.1 q.2) t

/-- Copies that a windlass run has issued and that are not complete. -/
def Team.runCopies (t : Team) (run : Nat) : Bool :=
  t.cmds.any fun q => match q.2.kind with | .copy c => c.run = some run | _ => false

/-- Runs that have ended: nothing more to issue and no copy under way (R244). A team whose groups have all ended
stops its runs. -/
def Team.settleRuns (t : Team) : Team :=
  let t := if t.groups.all (fun g => g.2.ended) then { t with runs := t.runs.map fun r => { r with idx := none, cur := none } } else t
  let past := t.runs.filter fun r => r.idx.isNone && r.cur.isNone && !t.runCopies r.id
  let t := past.foldl (fun t r => t.cmdDone r.id) { t with runs := t.runs.filter fun r => !past.contains r }
  t.cmds.foldl (fun t q =>
    match q.2.kind with
    | .lnstop rs => if rs.all fun r => !(t.runs.any fun x => x.id = r) then t.cmdDone q.1 else t
    | _ => t) t

/-- The ranges of HBM in a footprint. -/
def hbmOf (fs : List Foot) : List (Nat × Nat) := fs.filterMap fun f => match f.place with | .hbm pa => some (pa, f.len) | _ => none

/-- The ranges of HBM that a command has accessed at its issue. -/
def Cmd.touched (k : Cmd) : List (Nat × Nat) :=
  match k.kind with
  | .effected | .signed _ | .lnstart | .epload => hbmOf k.foot
  | _ => []

/-- What commands and requests that are complete have had from peers is forgotten. -/
def State.tidyAsks (s : State) : State :=
  s.unask fun a => match a.who with
    | .cmd id => !(s.teams.any fun t => (mget? t.2.cmds id).isSome) && !s.fab.conns.any fun c => c.2.reqs.any fun r => r.id = id
    | .split _ _ => !s.teams.any fun t => some t.1 = a.team
    | _ => false

/-- What follows any change of a team's commands, loads or buffers; the windlass is free when no started run of the
team is left (R244). -/
def State.settle (s : State) (tid : Nat) : State :=
  let s := (s.modTeam tid fun t => ((t.settleBufs).settleRuns).wake).tidyAsks
  let s := match mget? s.teams tid with
    | some t => if (s.core t.coreKey).windlass = some tid && !t.runs.any (·.started) then
        s.modCore t.coreKey fun k => { k with windlass := none } else s
    | none => s
  s.reap tid

/-- A command is complete (R108). -/
def State.cmdDone (s : State) (tid id : Nat) : State := (s.modTeam tid fun t => t.cmdDone id).settle tid

/-- A command whose effect is made is complete, or will be when what it wrote to peers has arrived there (R180, R221). -/
def State.cmdOut (s : State) (tid id : Nat) (dst : List (Place × Nat)) : State :=
  s.modTeam tid fun t => if s.putsOut tid dst then
      { t with cmds := mmod t.cmds id fun k => { k with kind := .sent (dst.filter fun p => !(peerCuts p).isEmpty) } }
    else t.cmdDone id

/-- A command of the acting split enters its team's list and its counter, with what issued it. -/
def Cur.command (c : Cur) (i : Instr) (id : Nat) (k : Cmd) : Cur :=
  let c := match i.counter with | some x => c.count x id | none => c
  { c with team := { c.team with cmds := mput c.team.cmds id { k with cause := some (i, c.split) } } }

/-- A command whose whole effect is made at issue: what remains is the posting of its completion
(ENGINE_COMMAND_COMPLETE). -/
def State.effected (s : State) (c : Cur) (i : Instr) (foot : List Foot) : State :=
  let (s, id) := s.fresh
  s.put (c.command i id ⟨.effected, c.ref.group, c.ref.split, foot, true, false, [], none⟩)

/-- ENGINE_COMMAND_COMPLETE (R108): the completion of a command whose effect is made is posted; a QPULL's item is put into the
local array first (R427); a RRANK writes the rank and the ring size as they now stand (R436). -/
def execEngineCommandComplete (team cmd : Nat) (s : State) : Out :=
  .next (match (mget? s.teams team).bind fun t => (mget? t.cmds cmd).map fun k => (t, k) with
    | some (t, k) =>
      match k.kind with
      | .effected | .signed _ => s.cmdDone team cmd
      | .sent dst => if s.putsOut team dst then s else s.cmdDone team cmd
      | .item loc reg bytes =>
        let s := (s.arrWrite team t loc bytes).l1Clear t.coreKey
        (s.modGroup team k.group fun g => g.landS k.split [reg] fun g => g.wrS reg 0).cmdDone team cmd
      | .rrank reg =>
        let ring := s.ringOf (ctxDevice t.ctx)
        let rank := BitVec.ofNat 32 ((rankIn ring t.die).getD 0)
        (s.modGroup team k.group fun g => g.landS k.split [reg, reg + 1] fun g =>
          (g.wrS reg rank).wrS (reg + 1) (BitVec.ofNat 32 ring.length)).cmdDone team cmd
      | _ => s
    | none => s)

/-! ### Copies -/

/-- Producers of a buffer that wait for an entry, and BUFCFGs of it that are held, by number (R242, R355). -/
def Team.waiters (t : Team) (b : Nat) : List Nat :=
  (t.cmds.filterMap fun q => match q.2.kind with
    | .copy c => if c.buf = some b && c.entry.isNone then some q.1 else none
    | .bufcfg x _ => if x = b then some q.1 else none
    | _ => none) ++
  t.ep.wait.filterMap fun w => match w.1 with
    | .drain d => if d.buf = some b && d.entry.isNone then some d.id else none
    | .load _ _ => none

/-- The entry that TAIL names is free (R242). -/
def Buf.tailFree (k : Buf) : Bool := k.cnt ≠ 0 && k.ents.all fun e => e.1 % k.cnt ≠ k.tail % k.cnt

/-- Command `id` is the next to take an entry of buffer `b`, and the entry is free (R242). -/
def Team.mayTake (t : Team) (id b : Nat) : Bool :=
  (t.buf b).tailFree && (t.waiters b).all fun w => w = id || id < w

/-- The entry at TAIL taken (R242): the team, the entry's number and its address. -/
def Team.takeEntry (t : Team) (b : Nat) : Team × Nat × Nat :=
  let k := t.buf b
  let k' := { k with tail := k.tail + 1, ents := mput k.ents k.tail { loads := mget [] k.early k.tail }, early := mdel k.early k.tail }
  ({ t with bufs := mput t.bufs b k' }, k.tail, k.addr k.tail)

/-- The bytes that a piece writes. -/
def Seg.foots (g : Seg) : List Foot :=
  [{ place := g.src, len := g.len, write := false },
    { place := g.dst, len := if g.step = 4 then g.len else (g.len / 4 - 1) * g.step + 4, write := true }]
/-- A copy's footprint (R362), without a destination that it does not know yet. -/
def Copy.foot (c : Copy) : List Foot :=
  if c.buf.isSome && c.entry.isNone then c.segs.map fun g => { place := g.src, len := g.len, write := false } else c.segs.flatMap Seg.foots

/-- A copy into a buffer takes its entry: its pieces now know where they go. -/
def Copy.take (c : Copy) (n addr : Nat) : Copy :=
  { c with entry := some n, segs := c.segs.map fun g => { g with dst := g.dst.add addr } }

/-- A copy or a ring command begins when it has what it waits for: an entry, and no earlier command in its way (R222, R323). -/
def Team.startCopy (t : Team) (id : Nat) : Team :=
  match mget? t.cmds id with
  | none => t
  | some k =>
    match k.kind with
    | .copy c =>
      if c.buf.isSome && c.entry.isNone then t
      else { t with cmds := mput t.cmds id { k with begun := k.begun || t.clear id k.foot } }
    | .ring _ => { t with cmds := mput t.cmds id { k with begun := k.begun || t.clear id k.foot } }
    | _ => t

/-- A copy takes its buffer entry when it may (R242), and begins when it may. -/
def Team.tryCopy (t : Team) (id : Nat) : Team :=
  match mget? t.cmds id with
  | none => t
  | some k =>
    match k.kind with
    | .copy c =>
      match c.buf, c.entry with
      | some b, none =>
        if t.mayTake id b then
          let r := t.takeEntry b
          let c := c.take r.2.1 r.2.2
          ({ r.1 with cmds := mput r.1.cmds id { k with kind := .copy c, foot := k.foot ++ c.foot, taken := true } } : Team).startCopy id
        else t
      | _, _ => t.startCopy id
    | _ => t

/-- The pieces of one row: its source pieces against its destination, `step` bytes from word to word. -/
def rowSegs (fuel : Nat) (src dst : List (Place × Nat)) (step : Nat) : List Seg :=
  match fuel, src, dst with
  | n + 1, (p, a) :: ss, (q, b) :: ds =>
    if step ≠ 4 then
      ⟨p, q, a, step⟩ :: rowSegs n ss ((q.add (a / 4 * step), b) :: ds) step
    else
      let k := min a b
      let ss := if k = a then ss else (p.add k, a - k) :: ss
      let ds := if k = b then ds else (q.add k, b - k) :: ds
      ⟨p, q, k, 4⟩ :: rowSegs n ss ds step
  | _, _, _ => []

/-- One row of a copy: source address, destination address or offset, bytes. -/
structure CopyRow where
  src : Nat
  dst : Nat
  len : Nat
deriving DecidableEq, Repr

/-- What a copy instruction asks for. -/
structure CopyAsk where
  srcLoc : Bool
  dstLoc : Bool
  buf    : Option Nat
  step   : Nat
  rows   : List CopyRow
  extra  : List ERange := []
deriving DecidableEq, Repr

/-- The virtual pages that a copy translates. -/
def CopyAsk.vpns (a : CopyAsk) : List Nat :=
  a.rows.flatMap fun r => (if a.srcLoc then [] else vpages r.src r.len) ++ if a.dstLoc then [] else vpages r.dst r.len

/-- The bytes that a row writes, as ranges. -/
def CopyAsk.dstRanges (a : CopyAsk) (r : CopyRow) (base : Nat) : List ERange :=
  if a.step = 4 then [⟨a.dstLoc, r.dst + base, r.len, { wr := true }⟩]
  else (List.range (r.len / 4)).map fun j => ⟨a.dstLoc, r.dst + base + j * a.step, 4, { wr := true }⟩

/-- The address of the entry that a producer issued now will take (R242). -/
def Team.nextEntry (t : Team) (b : Nat) : Nat := (t.buf b).addr ((t.buf b).tail + (t.waiters b).length)

/-- The pieces of a copy, translated at issue (R184), or the trap. -/
def State.copySegs (s : State) (c : Cur) (a : CopyAsk) : Except State (List Seg) := do
  let base := match a.buf with | some b => c.team.nextEntry b | none => 0
  let ranges := a.extra ++ a.rows.flatMap fun r => ⟨a.srcLoc, r.src, r.len, { rd := true }⟩ :: a.dstRanges r base
  let _ ← s.engRanges c ranges
  let rows ← a.rows.mapM fun r => do
    let src ← s.engRanges c [⟨a.srcLoc, r.src, r.len, { rd := true }⟩]
    let dst ← if a.dstLoc then pure [[(Place.arr r.dst, r.len)]]
      else s.engRanges c [⟨false, r.dst, r.len, { wr := true }⟩]
    pure (rowSegs (2 * (r.len / 16) + 4) (src.flatten) (dst.flatten) a.step)
  pure rows.flatten

/-- A copy issued (R360 to R362): counted, in its split's open batch, waiting for its entry or begun. -/
def State.issueCopy (s : State) (c : Cur) (i : Instr) (a : CopyAsk) : State :=
  match s.copySegs c a with
  | .error t => t
  | .ok segs =>
    let (s, id) := s.fresh
    let k : Copy := { segs := segs, buf := a.buf }
    let list := a.extra.map fun r => ({ place := .arr r.addr, len := r.len, write := false } : Foot)
    let c := c.command i id ⟨.copy k, c.ref.group, c.ref.split, list ++ k.foot, false, false, a.vpns, none⟩
    let c := { c with split := { c.split with batch := id :: c.split.batch } }
    ((s.put c).modTeam c.ref.team fun t => t.tryCopy id).settle c.ref.team

/-- An operand that is a global address (a pair) or a local offset (a scalar). -/
def Cur.addrOf (c : Cur) (loc : Bool) (r : BitVec 8) : Nat :=
  if loc then (c.rdS r.toNat).toNat else (c.rdPair r.toNat).toNat

/-- A buffer that a producer or consumer may name (R241). -/
def Cur.bufOk (c : Cur) (b : Nat) : Bool := (c.team.buf b).cnt ≠ 0

/-- CPY (R360 to R362). -/
def execCpy (f : FmtE) (s : State) : Out :=
  onSplit s fun c =>
    if !c.acts f.com then s else
    let gth := f.flg.getLsbD 3
    let dl := f.flg.getLsbD 1
    let sl := f.flg.getLsbD 0
    let buf := if f.flg.getLsbD 2 then some f.qb.toNat else none
    let dst := c.addrOf dl f.s0
    let n := (c.rdS f.s2.toNat).toNat
    let esz := if gth then (c.rdS f.s3.toNat).toNat else n
    let list := (c.rdS f.s1.toNat).toNat
    let src := if gth then list else c.addrOf sl f.s1
    let total := if gth then n * esz else n
    let bad := dst % 16 ≠ 0 || (if gth then src % 8 ≠ 0 else src % 16 ≠ 0) ||
      (if gth then n < 1 || 4096 < n || esz % 16 ≠ 0 || esz < 16 || 4096 < esz else n % 16 ≠ 0 || n < 16 || 16777216 < n) ||
      (match buf with | some b => b ≥ 8 || !c.bufOk b || (c.team.buf b).esz < dst + total | none => false)
    if bad then s.illop c 10 else
    let lr : ERange := ⟨true, list, 8 * n, {}⟩
    match if gth then s.engRanges c [lr] else .ok [] with
    | .error t => t
    | .ok _ =>
      let entry (k : Nat) : Nat := natOfBytes (s.arrRead c.team (list + 8 * k) 8)
      if gth && (List.range n).any (fun k => entry k % 16 ≠ 0) then s.illop c 10
      else
        let rows := if gth then (List.range n).map fun k => (⟨entry k, dst + k * esz, esz⟩ : CopyRow) else [⟨src, dst, n⟩]
        s.issueCopy c (.cpy f) ⟨sl, dl, buf, 4, rows, if gth then [lr] else []⟩

/-- CPYT (R360 to R362). -/
def execCpyt (f : FmtE) (s : State) : Out :=
  onSplit s fun c =>
    if !c.acts f.com then s else
    let col := f.flg.getLsbD 4
    let dl := f.flg.getLsbD 1
    let sl := f.flg.getLsbD 0
    let buf := if f.flg.getLsbD 2 then some f.qb.toNat else none
    let dst := c.addrOf dl f.s0
    let src := c.addrOf sl f.s1
    let shape := (c.rdS f.s2.toNat).toNat
    let pitch := (c.rdS f.s3.toNat).toNat
    let rows := shape / 65536
    let rb := shape % 65536
    let dp := pitch / 65536 * 16
    let sp := pitch % 65536 * 16
    let last := if col then (rb / 4 - 1) * dp + 4 * rows else (rows - 1) * dp + rb
    let bad := dst % 16 ≠ 0 || src % 16 ≠ 0 || rows < 1 || 1024 < rows || rb % 16 ≠ 0 || rb < 16 || 4096 < rb ||
      sp = 0 || sp < rb || dp = 0 || (if col then dp < 4 * rows else dp < rb) ||
      (match buf with | some b => b ≥ 8 || !c.bufOk b || (c.team.buf b).esz < dst + last | none => false)
    if bad then s.illop c 10 else
    let rs := (List.range rows).map fun r =>
      (⟨src + r * sp, if col then dst + 4 * r else dst + r * dp, rb⟩ : CopyRow)
    s.issueCopy c (.cpyt f) ⟨sl, dl, buf, if col then dp else 4, rs, []⟩

/-- Bytes read by an engine (R221): at the home slice, in the team's array, or from a peer as they have come (R180). -/
def State.engRead (s : State) (tid : Nat) (p : Place) (n : Nat) : State × List Byte :=
  match p with
  | .hbm pa =>
    let r := s.homeRead pa n
    (match mget? s.teams tid with | some t => r.1.dropViews t.coreKey pa n | none => r.1, r.2)
  | .arr off => (s, ((mget? s.teams tid).map fun t => s.arrRead t off n).getD [])
  | .peer pkg off => match s.askedBytes (some tid) pkg off n with
    | some bs => (s, bs)
    | none => s.freeBytes n
/-- Bytes written by an engine (R221). -/
def State.engWrite (s : State) (tid : Nat) (p : Place) (bs : List Byte) : State :=
  match p with
  | .hbm pa => (s.homeWrite pa bs).l1Refresh ((mget? s.teams tid).map (·.coreKey)) pa bs
  | .arr off => match mget? s.teams tid with
    | some t => s.arrWrite tid t off bs
    | none => s
  | .peer pkg off => match mget? s.teams tid with
    | some t => s.putPeer tid t.ctx pkg off bs
    | none => s

/-- One 32-bit word of a copy, numbered through its pieces: its piece and its number there. -/
def copyWord : List Seg → Nat → Option (Seg × Nat)
  | [], _ => none
  | g :: gs, n => if n < g.len / 4 then some (g, n) else copyWord gs (n - g.len / 4)

/-- One word moved. -/
def State.moveWord (s : State) (tid : Nat) (segs : List Seg) (n : Nat) : State :=
  match copyWord segs n with
  | none => s
  | some (g, w) =>
    let r := s.engRead tid (g.src.add (4 * w)) 4
    r.1.engWrite tid (g.dst.add (w * g.step)) r.2

/-- One piece moved whole. -/
def State.moveSeg (s : State) (tid : Nat) (g : Seg) : State :=
  let r := s.engRead tid g.src g.len
  if g.step = 4 then r.1.engWrite tid g.dst r.2
  else (List.range (g.len / 4)).foldl (fun s w => s.engWrite tid (g.dst.add (w * g.step)) ((r.2.drop (4 * w)).take 4)) r.1

/-- Numbers in a freely chosen order (R362). -/
def State.shuffleNats (s : State) : Nat → List Nat → State × List Nat
  | 0, l => (s, l)
  | n + 1, l =>
    let r := s.pick l.length
    match l[r.2]? with
    | none => (r.1, l)
    | some x =>
      let q := r.1.shuffleNats n (l.eraseIdx r.2)
      (q.1, x :: q.2)

/-- The source and the destination of a copy share bytes (R362). -/
def copyOverlaps (segs : List Seg) : Bool :=
  segs.any fun a => segs.any fun b =>
    let x := a.src.flat
    let y := b.dst.flat
    x.1 = y.1 && x.2 < y.2 + (if b.step = 4 then b.len else (b.len / 4 - 1) * b.step + 4) && y.2 < x.2 + a.len

/-- Everything a copy still has to move (R362): piece by piece; word by word in a free order when the source and the
destination overlap; the words left when some were moved before. -/
def State.moveCopy (s : State) (tid : Nat) (c : Copy) : State :=
  if c.moved.isEmpty && !copyOverlaps c.segs then c.segs.foldl (fun s g => s.moveSeg tid g) s
  else
    let left := (List.range ((c.segs.map fun g => g.len / 4).foldl (· + ·) 0)).filter fun n => !c.moved.contains n
    let r := if copyOverlaps c.segs then s.shuffleNats left.length left else (s, left)
    r.2.foldl (fun s n => s.moveWord tid c.segs n) r.1

/-- A producer's entry is written once none of the commands that fill it is left, nor to be issued (R242, R246). -/
def Team.entryWritten (t : Team) (b n : Nat) : Team :=
  if t.cmds.any (fun q => match q.2.kind with | .copy c => c.buf = some b && c.entry = some n | _ => false) ||
    t.runs.any (fun r => r.buf = b && r.cur.any fun x => x.2.1 = n) then t
  else { t with bufs := mmod t.bufs b fun k => { k with ents := mmod k.ents n fun e => { e with stage := 1 } } }

/-- What a copy reads, and what it writes. -/
def Copy.sources (c : Copy) : List (Place × Nat) := c.segs.map fun g => (g.src, g.len)
def Copy.written (c : Copy) : List (Place × Nat) := c.segs.flatMap fun g => (g.foots.drop 1).map fun f => (f.place, f.len)

/-- COPY_COMPLETE (R362, R108): the rest of a begun copy is moved, and it completes, once what it reads at peers has come and what it
writes there has arrived (R180). -/
def execCopyComplete (team cmd : Nat) (s : State) : Out :=
  .next (match (mget? s.teams team).bind fun t => (mget? t.cmds cmd).map fun k => (t, k) with
    | none => s
    | some (t, k) =>
      match k.kind with
      | .copy c =>
        if !k.begun then s else
        match s.needPeers (.cmd cmd) (some team) t.ctx c.sources with
        | some s => s
        | none =>
        let s := (s.moveCopy team c).cmdOut team cmd c.written
        (match c.buf, c.entry with
          | some b, some n => s.modTeam team fun t => t.entryWritten b n
          | _, _ => s).settle team
      | _ => s)

/-- One word of a begun copy moved before the copy completes (R221, R362). -/
def State.copyPart (s : State) (team cmd word : Nat) : State :=
  match (mget? s.teams team).bind fun t => (mget? t.cmds cmd).map fun k => (t, k) with
  | none => s
  | some (t, k) =>
    match k.kind with
    | .copy c =>
      if !k.begun || c.moved.contains word || (copyWord c.segs word).isNone then s else
      match s.needPeers (.cmd cmd) (some team) t.ctx c.sources with
      | some s => s
      | none =>
      (s.moveWord team c.segs word).modTeam team fun t =>
        { t with cmds := mput t.cmds cmd { k with kind := .copy { c with moved := word :: c.moved } } }
    | _ => s

/-! ### Batches -/

/-- CLOSEB (R358). -/
def execCloseb (f : FmtE) (s : State) : Out :=
  onSplit s fun c =>
    if !c.acts f.com then s else
    let n := (c.group.batchNo + 1) % 2 ^ 32
    let c := c.deferI (.closeb f) 0 true
    let closed := if c.split.batch.isEmpty then mdel c.group.closed n else mput c.group.closed n c.split.batch
    let g := { (c.group.wrS f.s0.toNat (BitVec.ofNat 32 n)) with batchNo := n, closed := closed }
    s.effected { c with group := g, split := { c.split with batch := [] } } (.closeb f) []

/-- WAITB (R462): the split parks until its batches are complete. -/
def execWaitb (f : FmtE) (s : State) : Out :=
  onSplit s fun c =>
    if !c.acts f.com then s else
    let (s, id) := s.fresh
    let c := c.command (.waitb f) id ⟨.waitb (c.rdS f.s0.toNat), c.ref.group, c.ref.split, [], true, false, [], none⟩
    let c := c.fall
    (s.put { c with split := { c.split with park := .waitb id, parked := 0 } }).settle c.ref.team

/-! ### Circular buffers -/

/-- Producers and consumers of a buffer issued before `id` that are under way (R355): copies and drains that fill an
entry of it or wait for one, held BUFCFGs of it, BUFWAITs parked on it, and matrix operations bound to it. -/
def Team.bufBusy (t : Team) (b id : Nat) : Bool :=
  (t.cmds.any fun q => q.1 < id && match q.2.kind with
    | .copy c => c.buf = some b
    | .bufcfg x _ => x = b
    | .bufwait x _ _ => x = b
    | _ => false) ||
  (t.ep.wait.any fun w => match w.1 with | .drain d => d.id < id && d.buf = some b | _ => false) ||
  (t.buf b).ents.any (fun e => e.2.stage = 0 || e.1 < (t.buf b).head) || !(t.buf b).users.isEmpty

/-- BUFCFG (R354, R355, R241). -/
def execBufcfg (f : FmtE) (s : State) : Out :=
  onSplit s fun c =>
    if !c.acts f.com then s else
    let b := f.qb.toNat
    let rd (r : BitVec 8) : Nat := (c.rdS r.toNat).toNat
    let k : Buf := { base := rd f.s0, esz := rd f.s1, pitch := rd f.s2, cnt := rd f.s3 }
    if b ≥ 8 || k.base % 128 ≠ 0 || k.esz % 128 ≠ 0 || k.esz < 128 || 65536 < k.esz || k.pitch = 0 || k.pitch % 16 ≠ 0 ||
      k.cnt < 2 || 16 < k.cnt || c.team.bytes < k.base + k.cnt * k.esz || c.team.runs.any (fun r => r.buf = b)
    then s.illop c 10
    else
      let foot : List Foot := [{ place := .arr k.base, len := k.cnt * k.esz, write := true }]
      if c.team.bufBusy b s.nextId || !c.team.clear s.nextId foot then
        let (s, id) := s.fresh
        s.put (c.command (.bufcfg f) id ⟨.bufcfg b k, c.ref.group, c.ref.split, foot, false, false, [], none⟩)
      else s.effected { c with team := { c.team with bufs := mput c.team.bufs b k } } (.bufcfg f) foot

/-- BUFCFG_TAKE_EFFECT (R355): a held BUFCFG resets its buffer once what was issued before it is complete. -/
def execBufcfgTakeEffect (team cmd : Nat) (s : State) : Out :=
  .next (match (mget? s.teams team).bind fun t => (mget? t.cmds cmd).map fun k => (t, k) with
    | none => s
    | some (t, k) =>
      match k.kind with
      | .bufcfg b cfg =>
        if t.status ≠ .resident || !t.clear cmd k.foot || t.bufBusy b cmd then s
        else (s.modTeam team fun t =>
          { t with bufs := mput t.bufs b cfg, cmds := mput t.cmds cmd { k with kind := .effected, begun := true } }).settle team
      | _ => s)

/-- BUFWAIT (R354, R356). -/
def execBufwait (f : FmtE) (s : State) : Out :=
  onSplit s fun c =>
    if !c.acts f.com then s else
    let b := f.qb.toNat
    let k := f.flg.toNat % 16
    if b ≥ 8 || (c.team.buf b).cnt ≤ k then s.illop c 10
    else
      let (s, id) := s.fresh
      let c := (c.command (.bufwait f) id ⟨.bufwait b k f.s0.toNat, c.ref.group, c.ref.split, [], true, false, [], none⟩).fall
      (s.put { c with split := { c.split with park := .bufwait id, parked := 0 } }).settle c.ref.team

/-- HEAD moved on by `n` entries, which then wait for the loads `ls`, those that no producer has taken yet too (R243). -/
def Buf.pass (k : Buf) (n : Nat) (ls : List Nat) : Buf :=
  { k with head := k.head + n
           ents := k.ents.map fun e => if k.head ≤ e.1 && e.1 < k.head + n then (e.1, { e.2 with loads := ls }) else e
           early := (List.range n).foldl (fun m i => if (mget? k.ents (k.head + i)).isSome then m else mput m (k.head + i) ls) k.early }

/-- The local-array loads of the split that have not returned (R243). -/
def Cur.localLoads (c : Cur) : List Nat :=
  c.split.ctrs.ldc.filter fun i => match mget? c.team.mops i with
    | some m => m.lanes.any fun l => match l.place with | .arr _ => true | _ => false
    | none => false

/-- BUFREL (R354, R356). -/
def execBufrel (f : FmtE) (s : State) : Out :=
  onSplit s fun c =>
    if !c.acts f.com then s else
    let b := f.qb.toNat
    let n := f.flg.toNat % 32
    let k := c.team.buf b
    if b ≥ 8 || n < 1 || k.cnt < n || !(List.range n).all (fun i => k.isFull (k.head + i)) then s.illop c 10
    else
      let t := { c.team with bufs := mput c.team.bufs b (k.pass n c.localLoads) }
      (s.effected { c with team := t } (.bufrel f) []).settle c.ref.team

/-! ### The windlass -/

/-- A field of a table held as bytes. -/
def le (bs : List Byte) (off n : Nat) : Nat := natOfBytes ((bs.drop off).take n)

/-- The stream that 64 bytes of a loop-nest table describe, `base` aside (R245); none where a field breaks the table. -/
def streamOf (bs : List Byte) (lev esz : Nat) : Option (Nat × Stream) :=
  let st : Stream :=
    { base := 0, rows := le bs 4 4, rbytes := le bs 8 4, doff := le bs 12 4, spitch := BitVec.ofNat 64 (le bs 16 8)
      dpitch := le bs 24 4, strides := (List.range 4).map fun j => BitVec.ofNat 64 (le bs (32 + 8 * j) 8) }
  if le bs 0 4 % 8 ≠ 0 || st.rows < 1 || 1024 < st.rows || st.rbytes % 16 ≠ 0 || st.rbytes < 16 || 4096 < st.rbytes ||
    st.doff % 16 ≠ 0 || st.dpitch % 16 ≠ 0 || st.dpitch < st.rbytes || le bs 28 4 ≠ 0 ||
    (List.range 4).any (fun j => lev < j && le bs (32 + 8 * j) 8 ≠ 0) ||
    esz < st.doff + (st.rows - 1) * st.dpitch + st.rbytes
  then none else some (le bs 0 4, st)

/-- The buffer, bounds, and streams with the offsets of their bases that a loop-nest table holds (R245). -/
def nestOf (t : Team) (bs : List Byte) : Option (Nat × List Nat × List (Nat × Stream)) :=
  let ctl := le bs 0 4
  let lev := ctl % 4
  let nstr := ctl / 4 % 4 + 1
  let b := ctl / 16 % 8
  let bounds := (List.range 4).map fun j => le bs (8 + 4 * j) 4
  let ok := ctl < 128 && le bs 4 4 = 0 && ((bs.drop 24).take 40).all (· = 0)
  let bok := (List.range 4).all fun j => if j ≤ lev then (bounds[j]?).getD 0 ≠ 0 else (bounds[j]?).getD 0 = 0
  if !ok || !bok || (t.buf b).cnt = 0 then none else
  ((List.range nstr).mapM fun i => streamOf ((bs.drop (64 + 64 * i)).take 64) lev (t.buf b).esz).map fun st =>
    (b, bounds.take (lev + 1), st)

/-- A run starts: the windlass is the team's (R244). -/
def State.startRun (s : State) (tid : Nat) : State :=
  match mget? s.teams tid with
  | none => s
  | some t =>
    if t.status ≠ .resident || ((s.core t.coreKey).windlass).isSome && (s.core t.coreKey).windlass ≠ some tid then s else
    match t.runs with
    | r :: rest =>
      if r.started then s else
      (s.modCore t.coreKey fun k => { k with windlass := some tid }).modTeam tid fun t =>
        { t with runs := { r with started := true } :: rest }
    | [] => s

/-- A pieced read of `n` bytes at a global address for a command at issue, or the trap (R184). -/
def State.issueRead (s : State) (c : Cur) (a n : Nat) : Except State (State × List Byte) :=
  match s.engRanges c [⟨false, a, n, { rd := true }⟩] with
  | .error t => .error t
  | .ok ps => .ok (ps.flatten.foldl (fun (acc : State × List Byte) p =>
      let r := acc.1.engRead c.ref.team p.1 p.2
      (r.1, acc.2 ++ r.2)) (s, []))

/-- LNSTART (R394, R395, R245). -/
def execLnstart (f : FmtE) (s : State) : Out :=
  onSplit s fun c =>
    if !c.acts f.com then s else
    match mget? s.tasks c.team.task with
    | none => s.illop c 10
    | some k =>
      let off := (c.rdS f.s0.toNat).toNat
      let a := k.kimg + k.constOff + off
      if off % 64 ≠ 0 || k.imgSize < k.constOff + off + 64 then s.illop c 10 else
      match s.issueRead c a 64 with
      | .error t => t
      | .ok (s, hd) =>
        let n := 64 + 64 * (le hd 0 4 / 4 % 4 + 1)
        if k.imgSize < k.constOff + off + n then s.illop c 10 else
        match s.issueRead c a n with
        | .error t => t
        | .ok (s, bs) =>
          match nestOf c.team bs with
          | none => s.illop c 10
          | some (b, bounds, st) =>
            let args := k.args.toNat
            match s.engRanges c (st.map fun x => ⟨false, args + x.1, 8, { rd := true }⟩) with
            | .error t => t
            | .ok ps =>
              let r := (st.zip ps).foldl (fun (acc : State × List Stream) x =>
                let q := x.2.foldl (fun (z : State × List Byte) p =>
                  let y := z.1.engRead c.ref.team p.1 p.2
                  (y.1, z.2 ++ y.2)) (acc.1, [])
                (q.1, acc.2 ++ [{ x.1.2 with base := natOfBytes q.2 }])) (s, [])
              let foot := (footOf false ps.flatten)
              let (s, id) := r.1.fresh
              let run : Run := { id := id, buf := b, bounds := bounds, streams := r.2, idx := some (bounds.map fun _ => 0) }
              let c := match s.lookup? c.ref with | some d => d | none => c
              let c := c.command (.lnstart f) id ⟨.lnstart, c.ref.group, c.ref.split, foot, true, false, [], none⟩
              let t := { c.team with runs := c.team.runs ++ [run] }
              let s := s.put { c with team := t }
              if c.team.runs.isEmpty then s.startRun c.ref.team else s

/-- LNSTOP (R394, R395, R244). -/
def execLnstop (f : FmtE) (s : State) : Out :=
  onSplit s fun c =>
    if !c.acts f.com then s else
    let ids := c.team.runs.map (·.id)
    let t := { c.team with runs := c.team.runs.map fun r => { r with idx := none } }
    let (s, id) := s.fresh
    let c := { c with team := t }
    (s.put (c.command (.lnstop f) id ⟨if ids.isEmpty then .effected else .lnstop ids, c.ref.group, c.ref.split, [], true, false, [], none⟩)).settle
      c.ref.team

/-- WINDLASS_RUN_START (R244, R395): the team's next run claims the free windlass. -/
def execWindlassRunStart (team : Nat) (s : State) : Out := .next (s.startRun team)

/-- The indices after `ix` under bounds, level 0 outermost; none at the end (R246). -/
def nextIdx : List Nat → List Nat → Option (List Nat)
  | i :: is, b :: bs =>
    match nextIdx is bs with
    | some js => some (i :: js)
    | none => if i + 1 < b then some ((i + 1) :: is.map fun _ => 0) else none
  | _, _ => none

/-- The source address of a stream at indices (R246). -/
def Stream.src (st : Stream) (ix : List Nat) : DWord :=
  (ix.zip st.strides).foldl (fun a x => a + BitVec.ofNat 64 x.1 * x.2) (BitVec.ofNat 64 st.base)

/-- The rows of one copy of an iteration (R246), with destinations as offsets in the entry. -/
def Stream.copyRows (st : Stream) (ix : List Nat) : List CopyRow :=
  (List.range st.rows).map fun r =>
    ⟨(st.src ix + BitVec.ofNat 64 r * st.spitch).toNat, st.doff + r * st.dpitch, st.rbytes⟩

/-- The source pieces of one copy of an iteration with their translations (R247). -/
def State.runPieces (s : State) (t : Team) (rows : List CopyRow) : List (Nat × Nat × Trans) :=
  rows.flatMap fun r => s.rangePieces t ⟨false, r.src, r.len, { rd := true }⟩

/-- The destination rows of one copy of an iteration in the entry at `addr`, checked (R192, R361). -/
def State.runDest (s : State) (t : Team) (rows : List CopyRow) (addr : Nat) : List (Nat × Nat × Trans) :=
  rows.flatMap fun r => s.rangePieces t ⟨true, addr + r.dst, r.len, { wr := true }⟩

/-- The team's first run changed. -/
def State.modRun (s : State) (team : Nat) (g : Run → Run) : State :=
  s.modTeam team fun t => { t with runs := match t.runs with | r :: rest => g r :: rest | [] => [] }

/-- The copies of an iteration from stream `k` on, issued one by one into entry `e` (R246, R247): a page fault holds the windlass
there and is reported; any other failure ends the context; a full tracker lets the rest wait (R222). -/
def State.runStreams (s : State) (team : Nat) (r : Run) (ix : List Nat) (e k : Nat) : List Stream → State
  | [] => s.modRun team fun r => { r with cur := none }
  | st :: rest =>
    match mget? s.teams team with
    | none => s
    | some t =>
      if 64 ≤ s.tracked t.coreKey then s.modRun team fun r => { r with cur := some (ix, e, k) } else
      let rows := st.copyRows ix
      let addr := (t.buf r.buf).addr e
      let ps := s.runPieces t rows
      match (ps ++ s.runDest t rows addr).find? fun p => match p.2.2 with | .prot _ => true | _ => false with
      | some p =>
        let kind := match p.2.2 with | .prot k => k | _ => 0
        s.endContext t.ctx Cause.prot.code
          (faultRecord (trapInfo false 0 2 Cause.prot.code (BitVec.ofNat 32 (256 * kind))) 0 (s.timeOf t.die) t.die t.core 0 0 2 p.1) t.die
      | none => match ps.find? fun p => p.2.2 = .pageflt with
        | some p =>
          (s.modRun team fun r => { r with cur := some (ix, e, k), held := true }).faultPush t.die t.ctx
            (faultRecord (trapInfo false 0 0 Cause.pageflt.code (BitVec.ofNat 32 (p.1 / 65536))) 0 (s.timeOf t.die) t.die t.core 0 0 1 p.1)
        | none =>
          let src := ps.filterMap fun p => match p.2.2 with | .ok q _ => some (q, p.2.1) | _ => none
          let dst := rows.map fun row => (Place.arr (addr + row.dst), row.len)
          let c : Copy := { segs := rowSegs (2 * src.length + 2 * dst.length + 4) src dst 4, buf := some r.buf, entry := some e, run := some r.id }
          let (s, id) := s.fresh
          (s.modTeam team fun t =>
            ({ t with cmds := mput t.cmds id ⟨.copy c, 0, 0, c.foot, false, true, rows.flatMap fun r => vpages r.src r.len, none⟩ } : Team).startCopy id)
            |>.runStreams team r ix e (k + 1) rest

/-- WINDLASS_ITERATION (R246, R247): an entry is taken and one copy for each stream is issued; an iteration that was held goes on
at the stream that it had come to. -/
def execWindlassIteration (team : Nat) (s : State) : Out :=
  .next (match mget? s.teams team with
    | none => s
    | some t =>
      match t.runs with
      | [] => s
      | r :: rest =>
        if t.status ≠ .resident || !r.started || r.held || (s.core t.coreKey).windlass ≠ some team then s else
        match r.cur, r.idx with
        | some (ix, e, k), _ => s.runStreams team r ix e k (r.streams.drop k)
        | none, some ix =>
          if 64 < s.tracked t.coreKey + r.streams.length || !t.mayTake s.nextId r.buf then s else
          let e := t.takeEntry r.buf
          let s := { s with teams := mput s.teams team { e.1 with runs := { r with idx := nextIdx ix r.bounds } :: rest } }
          s.runStreams team r ix e.2.1 0 r.streams
        | none, none => s)

end Sys2Proof.Machine
end

