-- ==== Sys2Proof/Machine/Operands.lean ====
section
/-! DEFINITION. The operand forms of formats R, I and L: reading sources, immediates, elements of packed types, and
writing destinations (R113 to R115, R144 to R146, R337). -/
namespace Sys2Proof.Machine

/-- A source operand of a lane: a register, or a pair when `wide` (R144); a scalar gives every lane the same value. -/
def Cur.src (c : Cur) (scal wide : Bool) (r : BitVec 8) (lane : Nat) : DWord :=
  if wide then (if scal then c.rdPair r.toNat else c.rdVPair lane r.toNat)
  else (if scal then c.rdS r.toNat else c.rdV lane r.toNat).setWidth 64

/-- Sources A, B and C of format R, in the width of its type (R113). -/
def Cur.rA (c : Cur) (f : FmtR) (lane : Nat) : DWord := c.src f.as f.t.is64 f.a lane
def Cur.rB (c : Cur) (f : FmtR) (lane : Nat) : DWord := c.src f.bsc f.t.is64 f.b lane
def Cur.rC (c : Cur) (f : FmtR) (lane : Nat) : DWord := c.src f.cs f.t.is64 f.c lane
/-- Source B as one 32-bit register, whatever the type (R346, R393, R439, R447). -/
def Cur.rB1 (c : Cur) (f : FmtR) (lane : Nat) : Word := (c.src f.bsc false f.b lane).setWidth 32
/-- Source A of format I (R114). -/
def Cur.iA (c : Cur) (f : FmtI) (lane : Nat) : DWord := c.src f.as false f.a lane
/-- The immediate of an integer format I instruction, sign-extended to 32 bits (R114). -/
def FmtI.intImm (f : FmtI) : DWord := (f.imm.signExtend 32).setWidth 64
/-- The immediate of a float format I instruction (R114). -/
def FmtI.floatImm (f : FmtI) : DWord :=
  match f.t with
  | .f32 => (f.imm ++ (0 : BitVec 8)).setWidth 64
  | .f16x2 | .bf16x2 => (f.imm.extractLsb' 0 16 ++ f.imm.extractLsb' 0 16).setWidth 64
  | _ => (f.imm.extractLsb' 0 16).setWidth 64

/-- A destination written in every lane that passes, or once for a scalar when some lane passes (R337). -/
def Cur.wrDest (c : Cur) (k : Com) (scal wide : Bool) (d : BitVec 8) (val : Nat → DWord) : Cur :=
  let m := c.pass k
  let g :=
    if scal then
      if m = 0 then c.group
      else if wide then c.group.wrPair d.toNat (val 0) else c.group.wrS d.toNat (loWord (val 0))
    else if wide then c.group.wrLanes2 (lanes m) d.toNat val
    else c.group.wrLanes (lanes m) d.toNat fun l => loWord (val l)
  { c with group := g }

/-- A predicate written in every lane that passes (R146). -/
def Cur.wrPred (c : Cur) (k : Com) (d : Nat) (val : Nat → Bool) : Cur :=
  let m := c.pass k
  { c with group := c.group.wrP d m (maskOf m val) }

/-- The saturate modifier M[58] (R113). -/
def FmtR.sat (f : FmtR) : Bool := f.m.getLsbD 2

/-- An instruction of format R with the result `val` of each lane. -/
def aluR (f : FmtR) (wide : Bool) (s : State) (val : Cur → Nat → DWord) : Out :=
  onSplit s fun c => s.put (c.wrDest f.com f.ds wide f.d (val c))

/-- An instruction of format I with the result `val` of each lane. -/
def aluI (f : FmtI) (s : State) (val : Cur → Nat → DWord) : Out :=
  onSplit s fun c => s.put (c.wrDest f.com f.ds false f.d (val c))

/-- Element `i`, `w` bits wide, of a packed value (R144). -/
def elem (d : DWord) (w i : Nat) : Nat := field d (w * i) w
/-- The packed value of elements `f i`, each cut to `w` bits. -/
def packElems (w n : Nat) (f : Nat → Nat) : DWord :=
  BitVec.ofNat 64 ((List.range n).foldl (fun acc i => acc + f i % 2 ^ w * 2 ^ (w * i)) 0)
/-- Element by element over a type, no carry between elements (R156). -/
def mapElems (t : Ty) (f : Nat → Nat → Nat) (a b : DWord) : DWord :=
  packElems t.width t.elems fun i => f (elem a t.width i) (elem b t.width i)

/-- The number that `w` bits stand for, in two's complement when `signed` (R156). -/
def toInt (signed : Bool) (w n : Nat) : Int := if signed && 2 ^ (w - 1) ≤ n then (n : Int) - 2 ^ w else n
/-- The bits of a number modulo 2^w (R156). -/
def wrapInt (w : Nat) (x : Int) : Nat := (x % 2 ^ w).toNat
/-- The bounds of an integer type (R156). -/
def intMin (signed : Bool) (w : Nat) : Int := if signed then -(2 ^ (w - 1) : Int) else 0
def intMax (signed : Bool) (w : Nat) : Int := if signed then 2 ^ (w - 1) - 1 else 2 ^ w - 1
/-- A number replaced by the nearest bound of its type (R156). -/
def clampInt (signed : Bool) (w : Nat) (x : Int) : Int := max (intMin signed w) (min (intMax signed w) x)
/-- An exact result as bits of the type: clamped with SAT, else modulo 2^w (R156, R385). -/
def intBits (t : Ty) (sat : Bool) (x : Int) : Nat :=
  wrapInt t.width (if sat then clampInt t.signed t.width x else x)

end Sys2Proof.Machine
end

