-- ==== Sys2Proof/Machine/Flags.lean ====
section
/-! DEFINITION. Comparisons and the predicates they write (R146, R378, R386). The V16 keeps no arithmetic flags. -/
namespace Sys2Proof.Machine

/-- The ordered conditions 0 to 5 over integers (R378, R386). -/
def condInt (cond : Nat) (a b : Int) : Bool :=
  match cond with
  | 0 => a = b
  | 1 => a ≠ b
  | 2 => a < b
  | 3 => a ≤ b
  | 4 => a > b
  | _ => a ≥ b

/-- The conditions of FCMP (R378), over an ordering that is absent when either side is a NaN. -/
def condFloat (cond : Nat) (o : Option Ordering) : Bool :=
  match cond, o with
  | 0, some .eq => true
  | 1, none => true
  | 1, some .lt => true
  | 1, some .gt => true
  | 2, some .lt => true
  | 3, some .lt => true
  | 3, some .eq => true
  | 4, some .gt => true
  | 5, some .gt => true
  | 5, some .eq => true
  | 6, none => true
  | 7, some _ => true
  | _, _ => false

/-- A comparison of format R: predicate D[2:0] in the lanes that pass (R146). -/
def cmpR (f : FmtR) (s : State) (val : Cur → Nat → Bool) : Out :=
  onSplit s fun c => s.put (c.wrPred f.com f.d.toNat (val c))

/-- A comparison of format I. -/
def cmpI (f : FmtI) (s : State) (val : Cur → Nat → Bool) : Out :=
  onSplit s fun c => s.put (c.wrPred f.com f.d.toNat (val c))

end Sys2Proof.Machine
end

