-- ==== Sys2Proof/Machine/Float.lean ====
section
/-! DEFINITION. Floating-point values, the formats of R157, and rounding, arithmetic and comparison as R158 to
R161 give them, computed exactly on signed dyadic numbers. -/
namespace Sys2Proof.Machine

/-- A format of R157: exponent and mantissa bits, bias, and whether it has infinities. -/
structure FloatFmt where
  eb : Nat
  mb : Nat
  bias : Nat
  hasInf : Bool
deriving DecidableEq, Repr

/-- FP64, FP32, FP16, BF16, E4M3 and E5M2 (R157). -/
def f64Fmt : FloatFmt := ⟨11, 52, 1023, true⟩
def f32Fmt : FloatFmt := ⟨8, 23, 127, true⟩
def f16Fmt : FloatFmt := ⟨5, 10, 15, true⟩
def bf16Fmt : FloatFmt := ⟨8, 7, 127, true⟩
def e4m3Fmt : FloatFmt := ⟨4, 3, 7, false⟩
def e5m2Fmt : FloatFmt := ⟨5, 2, 15, true⟩

/-- The format of an element of a floating-point type (R144, R157). -/
def floatFmt : Ty → FloatFmt
  | .f64 => f64Fmt
  | .f16 | .f16x2 => f16Fmt
  | .bf16 | .bf16x2 => bf16Fmt
  | .e4m3x4 => e4m3Fmt
  | .e5m2x4 => e5m2Fmt
  | _ => f32Fmt

/-- A value: a NaN, an infinity, or (-1)^neg * m * 2^e. -/
inductive FVal where
  | nan
  | inf (neg : Bool)
  | fin (neg : Bool) (m : Nat) (e : Int)
deriving DecidableEq, Repr

namespace FloatFmt
/-- The sign bit as a number. -/
def signBit (f : FloatFmt) (neg : Bool) : Nat := if neg then 2 ^ (f.eb + f.mb) else 0
/-- The code of the largest finite value, without its sign (R157). -/
def maxCode (f : FloatFmt) : Nat := if f.hasInf then (2 ^ f.eb - 1) * 2 ^ f.mb - 1 else 2 ^ (f.eb + f.mb) - 2
/-- The canonical NaN (R157). -/
def nanCode (f : FloatFmt) : Nat :=
  if f.hasInf then (2 ^ f.eb - 1) * 2 ^ f.mb + 2 ^ (f.mb - 1) else 2 ^ (f.eb + f.mb) - 1
/-- An infinity, or the canonical NaN in E4M3 (R157, R158). -/
def infCode (f : FloatFmt) (neg : Bool) : Nat :=
  if f.hasInf then f.signBit neg + (2 ^ f.eb - 1) * 2 ^ f.mb else f.nanCode
/-- The exponent of the last place of the smallest values (R157). -/
def qmin (f : FloatFmt) : Int := 1 - (f.bias : Int) - f.mb

/-- The value that bits stand for (R157). -/
def decode (f : FloatFmt) (n : Nat) : FVal :=
  let neg := n / 2 ^ (f.eb + f.mb) % 2 = 1
  let ex := n / 2 ^ f.mb % 2 ^ f.eb
  let man := n % 2 ^ f.mb
  if f.hasInf && ex = 2 ^ f.eb - 1 then (if man = 0 then .inf neg else .nan)
  else if !f.hasInf && n % 2 ^ (f.eb + f.mb) = f.nanCode then .nan
  else if ex = 0 then .fin neg man f.qmin
  else .fin neg (2 ^ f.mb + man) (f.qmin + ex - 1)

/-- Bits that stand for a subnormal become a zero of the same sign (R159). -/
def flush (f : FloatFmt) (n : Nat) : Nat :=
  if n / 2 ^ f.mb % 2 ^ f.eb = 0 then n / 2 ^ (f.eb + f.mb) % 2 * 2 ^ (f.eb + f.mb) else n
end FloatFmt

/-- m / 2^sh as a whole number, rounded in mode 0 nearest-even, 1 toward zero, 2 up, 3 down (R158). -/
def shiftRound (mode : Nat) (neg : Bool) (m : Nat) (sh : Int) : Nat :=
  if sh ≤ 0 then m * 2 ^ (-sh).toNat else
  let d := 2 ^ sh.toNat
  let q := m / d
  let r := m % d
  let up := match mode with
    | 0 => 2 * r > d || (2 * r = d && q % 2 = 1)
    | 1 => false
    | 2 => r ≠ 0 && !neg
    | _ => r ≠ 0 && neg
  if up then q + 1 else q

/-- The code of a nonzero magnitude rounded with an unbounded exponent range above (R158): codes go on past the
largest finite one as if the exponent field were wider. -/
def FloatFmt.roundCode (f : FloatFmt) (mode : Nat) (neg : Bool) (m : Nat) (e : Int) : Nat :=
  let q := max ((Nat.log2 m : Int) + e - f.mb) f.qmin
  (q - f.qmin).toNat * 2 ^ f.mb + shiftRound mode neg m (q - e)

/-- The result of an overflow in mode `ovf` (R158). -/
def FloatFmt.overflow (f : FloatFmt) (ovf : Nat) (sat neg : Bool) : Nat :=
  let toInf := match ovf with | 0 => true | 1 => false | 2 => !neg | _ => neg
  if sat || !toInf then f.signBit neg + f.maxCode else f.infCode neg

/-- Rounding in mode `mode` with the overflow row `ovf` of R158. -/
def FloatFmt.roundOvf (f : FloatFmt) (mode ovf : Nat) (sat : Bool) (v : FVal) : Nat :=
  match v with
  | .nan => f.nanCode
  | .inf neg => if sat then f.signBit neg + f.maxCode else f.infCode neg
  | .fin neg m e =>
    if m = 0 then f.signBit neg else
    let c := f.roundCode mode neg m e
    if c > f.maxCode then f.overflow ovf sat neg else f.signBit neg + c

/-- A value rounded once to a format (R158, R160). -/
def FloatFmt.round (f : FloatFmt) (mode : Nat) (sat : Bool) (v : FVal) : Nat := f.roundOvf mode mode sat v

namespace FVal
/-- Negation and absolute value (R377). -/
def neg : FVal → FVal
  | .nan => .nan
  | .inf n => .inf (!n)
  | .fin n m e => .fin (!n) m e
def abs : FVal → FVal
  | .nan => .nan
  | .inf _ => .inf false
  | .fin _ m e => .fin false m e
/-- A whole number times a power of two. -/
def ofInt (i e : Int) : FVal := .fin (i < 0) i.natAbs e
/-- The signed mantissa of a finite value at a lower exponent. -/
def atExp (n : Bool) (m : Nat) (e lo : Int) : Int := let k : Int := m * 2 ^ (e - lo).toNat; if n then -k else k

/-- The exact sum; the sign of an exact zero depends on the rounding mode (R160, R161). -/
def add (mode : Nat) (a b : FVal) : FVal :=
  match a, b with
  | .nan, _ => .nan
  | _, .nan => .nan
  | .inf x, .inf y => if x = y then .inf x else .nan
  | .inf x, .fin _ _ _ => .inf x
  | .fin _ _ _, .inf y => .inf y
  | .fin x m e, .fin y n k =>
    if m = 0 && n = 0 then .fin (x && y) 0 0
    else if m = 0 then b
    else if n = 0 then a
    else
      let lo := min e k
      let t := atExp x m e lo + atExp y n k lo
      if t = 0 then .fin (mode = 3) 0 0 else ofInt t lo

/-- The exact product (R160, R161). -/
def mul (a b : FVal) : FVal :=
  match a, b with
  | .nan, _ => .nan
  | _, .nan => .nan
  | .inf x, .inf y => .inf (x != y)
  | .inf x, .fin y n _ => if n = 0 then .nan else .inf (x != y)
  | .fin x m _, .inf y => if m = 0 then .nan else .inf (x != y)
  | .fin x m e, .fin y n k => .fin (x != y) (m * n) (e + k)

/-- The order of two values, none when one is a NaN; zeros compare equal (R378). -/
def cmp (a b : FVal) : Option Ordering :=
  match a, b with
  | .nan, _ => none
  | _, .nan => none
  | .inf x, .inf y => some (compare y.toNat x.toNat)
  | .inf x, .fin _ _ _ => some (if x then .lt else .gt)
  | .fin _ _ _, .inf y => some (if y then .gt else .lt)
  | .fin x m e, .fin y n k =>
    let lo := min e k
    some (compare (atExp x m e lo) (atExp y n k lo))

/-- The sign bit of a value. -/
def sign : FVal → Bool
  | .nan => false
  | .inf n => n
  | .fin n _ _ => n

/-- IEEE 754-2019 minimum and maximum: a NaN prevails, and -0 is less than +0 (R160). -/
def min (a b : FVal) : FVal :=
  match cmp a b with
  | none => .nan
  | some .lt => a
  | some .gt => b
  | some .eq => if a.sign then a else b
def max (a b : FVal) : FVal :=
  match cmp a b with
  | none => .nan
  | some .lt => b
  | some .gt => a
  | some .eq => if a.sign then b else a

/-- A value rounded to a whole number and clamped to a type's bounds; a NaN gives 0 (R162). -/
def toIntSat (mode : Nat) (signed : Bool) (w : Nat) : FVal → Int
  | .nan => 0
  | .inf n => if n then intMin signed w else intMax signed w
  | .fin n m e =>
    let k : Int := shiftRound mode n m (-e)
    clampInt signed w (if n then -k else k)
end FVal

/-! ### Instructions -/

/-- Rounding mode of format R (R113). -/
def FmtR.mode (f : FmtR) : Nat := f.m.toNat % 4
/-- The flush modifier M[63] (R159). -/
def FmtR.ftz (f : FmtR) : Bool := f.m.getLsbD 7

/-- Bits of an input, flushed when `ftz` says so, as a value (R159). -/
def FloatFmt.input (f : FloatFmt) (ftz : Bool) (n : Nat) : FVal := f.decode (if ftz then f.flush n else n)
/-- A result rounded, saturated and flushed (R158, R159). -/
def FloatFmt.result (f : FloatFmt) (mode : Nat) (sat ftz : Bool) (v : FVal) : Nat :=
  let n := f.round mode sat v
  if ftz then f.flush n else n

/-- Source A of a float instruction with its modifiers M[61] and M[59] (R377). -/
def FmtR.fA (f : FmtR) (n : Nat) : FVal :=
  let v := (floatFmt f.t).input (FmtR.ftz f) n
  let v := if f.m.getLsbD 5 then v.abs else v
  if f.m.getLsbD 3 then v.neg else v
/-- Source B with M[62]. -/
def FmtR.fB (f : FmtR) (n : Nat) : FVal :=
  let v := (floatFmt f.t).input (FmtR.ftz f) n
  if f.m.getLsbD 6 then v.abs else v
/-- Source C with M[60]. -/
def FmtR.fC (f : FmtR) (n : Nat) : FVal :=
  let v := (floatFmt f.t).input (FmtR.ftz f) n
  if f.m.getLsbD 4 then v.neg else v

/-- A float operation of format R on every element of A, B and C (R377). -/
def floatR (f : FmtR) (op : FVal → FVal → FVal → FVal) (a b c : DWord) : DWord :=
  let w := f.t.width
  packElems w f.t.elems fun i =>
    (floatFmt f.t).result (FmtR.mode f) (FmtR.sat f) (FmtR.ftz f)
      (op (FmtR.fA f (elem a w i)) (FmtR.fB f (elem b w i)) (FmtR.fC f (elem c w i)))

/-- A float operation of format I, without modifiers (R114, R377). -/
def floatI (t : Ty) (mode : Nat) (op : FVal → FVal → FVal) (a b : DWord) : DWord :=
  let ff := floatFmt t
  mapElems t (fun x y => ff.round mode false (op (ff.decode x) (ff.decode y))) a b

/-- FADD (R377). -/
def execFadd (f : FmtR) (s : State) : Out :=
  aluR f f.t.is64 s fun c l => floatR f (fun a b _ => a.add (FmtR.mode f) b) (c.rA f l) (c.rB f l) 0
/-- FADD, immediate form. -/
def execFaddImm (f : FmtI) (s : State) : Out :=
  aluI f s fun c l => floatI f.t f.rm.toNat (FVal.add f.rm.toNat) (c.iA f l) (FmtI.floatImm f)
/-- FMUL (R377). -/
def execFmul (f : FmtR) (s : State) : Out :=
  aluR f f.t.is64 s fun c l => floatR f (fun a b _ => a.mul b) (c.rA f l) (c.rB f l) 0
/-- FMUL, immediate form. -/
def execFmulImm (f : FmtI) (s : State) : Out :=
  aluI f s fun c l => floatI f.t f.rm.toNat FVal.mul (c.iA f l) (FmtI.floatImm f)
/-- FFMA (R377): the product and the sum are rounded once. -/
def execFfma (f : FmtR) (s : State) : Out :=
  aluR f f.t.is64 s fun c l =>
    floatR f (fun a b k => (a.mul b).add (FmtR.mode f) k) (c.rA f l) (c.rB f l) (c.rC f l)
/-- FMIN (R160, R377). -/
def execFmin (f : FmtR) (s : State) : Out :=
  aluR f f.t.is64 s fun c l => floatR f (fun a b _ => a.min b) (c.rA f l) (c.rB f l) 0
/-- FMIN, immediate form. -/
def execFminImm (f : FmtI) (s : State) : Out :=
  aluI f s fun c l => floatI f.t 0 FVal.min (c.iA f l) (FmtI.floatImm f)
/-- FMAX (R160, R377). -/
def execFmax (f : FmtR) (s : State) : Out :=
  aluR f f.t.is64 s fun c l => floatR f (fun a b _ => a.max b) (c.rA f l) (c.rB f l) 0
/-- FMAX, immediate form. -/
def execFmaxImm (f : FmtI) (s : State) : Out :=
  aluI f s fun c l => floatI f.t 0 FVal.max (c.iA f l) (FmtI.floatImm f)

/-- FCMP (R378). -/
def execFcmp (f : FmtR) (s : State) : Out :=
  cmpR f s fun c l =>
    condFloat f.c.toNat ((FmtR.fA f (elem (c.rA f l) f.t.width 0)).cmp (FmtR.fB f (elem (c.rB f l) f.t.width 0)))
/-- FCMP, immediate form (R378). -/
def execFcmpImm (f : FmtI) (s : State) : Out :=
  cmpI f s fun c l =>
    let ff := floatFmt f.t
    condFloat (FmtI.cond f) ((ff.decode (elem (c.iA f l) f.t.width 0)).cmp (ff.decode (elem (FmtI.floatImm f) f.t.width 0)))

end Sys2Proof.Machine
end

