-- ==== Sys2Proof/Machine/Access.lean ====
section
/-! DEFINITION. The memory instructions (R390 to R392, R341 to R343, R423, R433, R448 to R453, R213): effective addresses,
the checks of R478, the operation in flight, and its performance (LOAD_RETURN, STORE_PERFORMED); stash windows,
the weathervane (R215) and page migration (R180). -/
namespace Sys2Proof.Machine

/-- Bytes of one lane's access (R116). -/
def FmtM.bytes (f : FmtM) : Nat := 2 ^ f.w.toNat

/-- The effective address of a lane: a virtual address (R172), or a byte offset in the local array (R173). `off`
is the signed offset in elements. -/
def Cur.ea (c : Cur) (f : FmtM) (off : BitVec 8) (l : Nat) : DWord :=
  let n : DWord := BitVec.ofNat 64 (FmtM.bytes f)
  let idx : DWord := if f.b = 0xFF then 0 else (c.rdV l f.b.toNat).signExtend 64
  let base : DWord :=
    if f.sp then (if f.asb then c.rdS f.a.toNat else c.rdV l f.a.toNat).setWidth 64
    else if f.asb then c.rdPair f.a.toNat else c.rdVPair l f.a.toNat
  let a := base + idx * n + off.signExtend 64 * n
  if f.sp then (a.setWidth 32).setWidth 64 else a

/-- The filled line of a stash window that holds an address (R189). -/
def Team.stashLine (t : Team) (va : Nat) : Option StashLine :=
  (t.winOf va).bind fun w => (mget? t.wins w.1).bind fun win => mget? win.lines w.2

/-- Where one lane's access goes, or the fault it raises (R173, R178, R183, R189, R192). A filled line of a window serves it from the
window's cells, wherever its page lies by then. -/
def State.laneCheck (s : State) (t : Team) (sp : Bool) (a : DWord) (n : Nat) (need : Need) : Trans :=
  if sp then
    if t.bytes < a.toNat + n || t.inWindow a.toNat n then .prot 6 else .ok (.arr a.toNat) 0
  else match s.translateAt t.coreKey t.die t.ctx a need with
    | .ok (.peer p o) e =>
      match t.stashLine a.toNat with
      | some l => .ok (.hbm (l.pa + a.toNat % 128)) e
      | none => if (t.winOf a.toNat).isSome then .prot 6 else .ok (.peer p o) e
    | r => r

/-- The first lane of a list whose check fails in a given way (R478). -/
def firstBad (rs : List (Nat × DWord × Trans)) (bad : Trans → Bool) : Option (DWord × Trans) :=
  (rs.find? fun x => bad x.2.2).map (·.2)

/-- What an access of a group to an address that it has translated leaves (R180, R182, R191): the walk's lines recalled, the leaf held
in TLBs, a migrating page counted. -/
def State.noteAccess (s : State) (t : Team) (va : Nat) (r : Trans) : State :=
  ((s.walkRecall (some t.coreKey) t.die t.ctx va).tlbFill t.coreKey t.die t.ctx va).countMigr t.die t.ctx va r

/-- The checks of R478 over the lanes that pass: each lane's address and place, or the trap that is raised. -/
def State.memCheck (s : State) (c : Cur) (f : FmtM) (off : BitVec 8) (need : Need) : Except State (State × List (Nat × Nat × Place)) :=
  let n := FmtM.bytes f
  let rs := (lanes (c.pass f.com)).map fun l =>
    let a := c.ea f off l
    (l, a, s.laneCheck c.team f.sp a n need)
  if rs.any fun x => x.2.1.toNat % n ≠ 0 then .error (s.alignAt c)
  else match firstBad rs (fun r => match r with | .prot _ => true | _ => false) with
    | some (a, r) => .error (s.transTrap c r a.toNat)
    | none => match firstBad rs (fun r => r = .pageflt) with
      | some (a, r) => .error (s.transTrap c r a.toNat)
      | none =>
        let s := if f.sp then s else rs.foldl (fun s x => s.noteAccess c.team x.2.1.toNat x.2.2) s
        .ok (s, rs.filterMap fun x => match x.2.2 with | .ok p _ => some (x.1, x.2.1.toNat, p) | _ => none)

/-- Two lane operations touch a common location (R204). -/
def LaneOp.meets (a b : LaneOp) (n k : Nat) : Bool :=
  match a.place, b.place with
  | .hbm x, .hbm y => x < y + k && y < x + n
  | .arr x, .arr y => x < y + k && y < x + n
  | .peer p x, .peer q y => p = q && x < y + k && y < x + n
  | _, _ => false

/-- The operations of a split that are issued and not performed. -/
def Cur.outstanding (c : Cur) : List (Nat × MemOp) :=
  (c.split.ctrs.ldc ++ c.split.ctrs.stc).filterMap fun i => (mget? c.team.mops i).map fun m => (i, m)

/-- Preserved order (R204): the earlier operations of the split that must be performed before this one. A write also comes after
what an outstanding ATCAS or STCND with a release part comes after, which acts as a release fence if it fails (R212, R341, R453). -/
def Cur.depsOf (c : Cur) (ord n : Nat) (ls : List LaneOp) (writes : Bool) : List Nat :=
  let out := c.outstanding
  (out.filter fun q =>
    c.split.after.contains q.1 || q.2.ord % 2 = 1 || ord / 2 % 2 = 1 ||
    (q.2.lanes.any fun a => ls.any fun b => a.meets b q.2.bytes n) ||
    (writes && out.any fun x => (x.2.kind = .atcas || x.2.kind = .stcnd) && x.2.ord / 2 % 2 = 1 && x.2.deps.contains q.1)).map (·.1)

/-- The scope at which an access acts (R116, R173): team at most in the local array. -/
def FmtM.scope (f : FmtM) : Nat := if f.sp then min 2 f.sc.toNat else f.sc.toNat

/-- An acquire on a die at a level of visibility, of reads in `rs` (none for a fence), ends a view: it matches a release made since
(R207, R208), or another agent than a group has written since. -/
def View.endsAt (v : View) (die lvl : Nat) (rs : Option (List (Nat × Nat))) : Bool :=
  (v.eng && 2 ≤ lvl) || 4 ≤ lvl || v.rels.any fun r =>
    2 ≤ lvl && 2 ≤ r.2.1 && (r.1 = die || (3 ≤ lvl && 3 ≤ r.2.1)) &&
    match r.2.2, rs with
    | some (pa, n), some l => l.any fun q => pa < q.1 + q.2 && q.1 < pa + n
    | _, _ => true

/-- An acquire at die scope or wider empties the core's L1 (R194); one at fabric scope also ends what the context holds of peers'
pages on the device (R295). What the groups of the core read afterwards is no older than any write before a release that it matches
(R207 to R210): `lvl` is the level at which both the acquire and its read act. -/
def State.acquire (s : State) (t : Team) (ord sc lvl : Nat) (rs : Option (List (Nat × Nat))) : State :=
  if ord % 2 = 0 || sc < 3 then s else
  let kept := s.views.filter fun v => v.core ≠ t.coreKey || !v.endsAt t.die lvl rs
  { (if sc = 6 then s.dropCopies t.ctx else s).l1Clear t.coreKey with views := kept }

/-- The loads that the core's L1 serves: plain ones and those at group or team scope, unless they bypass it; atomics at these
scopes run there whatever their cache policy (R193, R214). -/
def MemOp.inL1 (m : MemOp) : Bool :=
  m.sc ≤ 2 && (m.cp ≠ 3 || match m.kind with | .atom | .atcas | .red => true | _ => false)

/-- The ranges of HBM that an operation accesses. -/
def MemOp.ranges (m : MemOp) : List (Nat × Nat) := m.lanes.filterMap fun l => match l.place with | .hbm pa => some (pa, m.bytes) | _ => none

/-- The acquire part of a performed operation. -/
def State.acquireOp (s : State) (t : Team) (m : MemOp) : State := s.acquire t m.ord m.sc (scopeLevel m.sc) (some m.ranges)

/-- What a fence of a group at a scope does (R194, R208, R213): its release part makes what the group sees visible there, its
acquire part empties the core's L1 and takes up what the split's reads at nonzero scope have met. -/
def State.fence (s : State) (c : Cur) (ord sc : Nat) : State :=
  (s.release c.ref.team c.ref.group ord sc).acquire c.team ord sc (min (scopeLevel sc) (c.split.rdScope - 1)) none

/-- A split has issued a read at a scope (R208). -/
def Split.noteScope (p : Split) (reads : Bool) (sc : Nat) : Split :=
  if reads && sc ≠ 0 then { p with rdScope := max p.rdScope (scopeLevel sc + 1) } else p

/-- The split with the window of an instruction no lane of which passes (R125): nothing is to be written. -/
def State.emptyWindow (s : State) (r : Ref) (i : Instr) : State :=
  match s.lookup? r with
  | some c => if (i.com?.map (·.la)).getD 0 = 0 then s else s.put (c.deferI i 0 true)
  | none => s

/-- A memory operation issued: with no lane it acts as its order alone does (R212), and its lookahead window opens (R125); else it
is checked, counted and put in flight, and its destination is pending. An L1 atomic may take its copy of the operand at issue
(R218). -/
def memIssue (i : Instr) (f : FmtM) (kind : MemKind) (off : BitVec 8) (need : Need) (atomic : Bool)
    (data cmp : Cur → Nat → Nat) (s : State) : Out :=
  onSplit s fun c =>
    if !c.acts f.com then (s.fence c f.ord.toNat (FmtM.scope f)).emptyWindow c.ref i else
    match s.memCheck c f off need with
    | .error t => t
    | .ok (s, ps) =>
      let n := FmtM.bytes f
      let ls := ps.map fun p => (⟨p.1, p.2.1, p.2.2, data c p.1, cmp c p.1⟩ : LaneOp)
      let deps := c.depsOf f.ord.toNat n ls need.wr
      let (s, id) := s.fresh
      let m : MemOp :=
        { kind := kind, group := c.ref.group, split := c.ref.split, bytes := n, dreg := f.d.toNat, sc := FmtM.scope f
          ord := f.ord.toNat, cp := f.cp.toNat, aop := f.off.toNat, lanes := ls, deps := deps }
      let s := if atomic && m.inL1 && deps.isEmpty then
          ls.foldl (fun s x => match x.place with
            | .hbm pa => if (c.team.winOf x.va).isSome || (s.core c.team.coreKey).l1Has pa n then s
                else (s.recallFor none pa n).l1Fill c.team.coreKey pa n
            | _ => s) s
        else s
      let c := match s.lookup? c.ref with | some d => d | none => c
      let c := match i.counter with | some k => c.count k id | none => c
      let c := if kind = .st || kind = .red then c else c.deferI i id false
      let c := { c with split := c.split.noteScope need.rd m.sc }
      s.put { c with team := { c.team with mops := mput c.team.mops id m } }

/-- The data registers of a lane for a width (R390, R448): 1, 2 or 4 registers from `r`. -/
def Cur.laneData (c : Cur) (f : FmtM) (r l : Nat) : Nat :=
  let n := if f.w = 3 then 2 else if f.w = 4 then 4 else 1
  (List.range n).foldl (fun a k => a + (c.rdV l (r + k)).toNat * 2 ^ (32 * k)) 0 % 2 ^ (8 * FmtM.bytes f)

/-- No data. -/
def noData (_c : Cur) (_l : Nat) : Nat := 0

/-- LD (R390, R391). -/
def execLd (f : FmtM) (s : State) : Out := memIssue (.ld f) f .ld f.off { rd := true } false noData noData s
/-- LDRSV (R392). -/
def execLdrsv (f : FmtM) (s : State) : Out := memIssue (.ldrsv f) f .ldrsv f.off { rd := true } false noData noData s
/-- ST (R448, R449). -/
def execSt (f : FmtM) (s : State) : Out :=
  memIssue (.st f) f .st f.off { wr := true } false (fun c l => c.laneData f f.d.toNat l) noData s
/-- STCND (R453). -/
def execStcnd (f : FmtM) (s : State) : Out :=
  memIssue (.stcnd f) f .stcnd f.off { wr := true } false (fun c l => c.laneData f f.d.toNat l) noData s
/-- ATOM (R342). -/
def execAtom (f : FmtM) (s : State) : Out :=
  memIssue (.atom f) f .atom 0 { rd := true, wr := true } true (fun c l => c.laneData f f.d.toNat l) noData s
/-- ATCAS (R341): the compare value in D, the swap value after it. -/
def execAtcas (f : FmtM) (s : State) : Out :=
  memIssue (.atcas f) f .atcas 0 { rd := true, wr := true } true
    (fun c l => c.laneData f (f.d.toNat + (if f.w = 3 then 2 else 1)) l) (fun c l => c.laneData f f.d.toNat l) s
/-- RED (R433). -/
def execRed (f : FmtM) (s : State) : Out :=
  memIssue (.red f) f .red 0 { rd := true, wr := true } true (fun c l => c.laneData f f.d.toNat l) noData s

/-- FENCE (R213): the port has waited for what comes before it. -/
def execFence (f : FmtM) (s : State) : Out :=
  onSplit s fun c => s.fence c f.ord.toNat f.sc.toNat

/-- PREF (R423): the lines come into the core's L1 with CP 0 and 1, wherever a load would find them and no window or
peer does; nothing else changes. Where a load would fault, on its alignment too, it does nothing (R178). -/
def execPref (f : FmtM) (s : State) : Out :=
  onSplit s fun c => (lanes (c.pass f.com)).foldl (fun s l =>
    let a := c.ea f f.off l
    match s.translateAt c.team.coreKey c.team.die c.team.ctx a { rd := true } with
    | .ok (.hbm pa) _ =>
      if a.toNat % FmtM.bytes f ≠ 0 || (c.team.winOf a.toNat).isSome || 2 ≤ f.cp.toNat then s
      else (s.recallFor none (pa / 128 * 128) 128).l1Fill c.team.coreKey (pa / 128 * 128) 128
    | _ => s) s

/-! ### Performance -/

/-- The value that an atomic writes (R342). -/
def atomVal (op : Nat) (signed : Bool) (w old x : Nat) : Nat :=
  let t : Ty := if w = 64 then .f64 else .f32
  match op with
  | 0 => (old + x) % 2 ^ w
  | 1 => if toInt signed w old ≤ toInt signed w x then old else x
  | 2 => if toInt signed w old ≥ toInt signed w x then old else x
  | 3 => old &&& x
  | 4 => old ||| x
  | 5 => old ^^^ x
  | 6 => x
  | 7 => if old ≥ x then 0 else old + 1
  | 8 => if old = 0 || old > x then x else old - 1
  | 9 => (floatFmt t).round 0 false (((floatFmt t).decode old).add 0 ((floatFmt t).decode x))
  | 10 => (floatFmt t).round 0 false (((floatFmt t).decode old).min ((floatFmt t).decode x))
  | _ => (floatFmt t).round 0 false (((floatFmt t).decode old).max ((floatFmt t).decode x))

/-- The weathervane's counter of a line (R215). -/
def vaneIdx (pa : Nat) : Nat := (pa / 2 ^ 7 % 4096) ^^^ (pa / 2 ^ 19 % 4096)

/-- The weathervane at a die- or device-scope atomic (R215): near-core with ownership at 0 and 1, else at the home
slice. Placement changes only the counters and the owner. -/
def State.vaneStep (s : State) (t : Team) (tid op pa : Nat) : State :=
  let line := pa / 128
  let k := mget 0 (s.die t.die).vane (vaneIdx pa)
  let set (s : State) (v : Nat) : State := s.modDie t.die fun d => { d with vane := mput d.vane (vaneIdx pa) v }
  if k ≤ 1 then
    let own := mget? s.owned line
    let other := own.isSome && own ≠ some t.coreKey || ((s.ownerOf line).map (·.1)).any (· ≠ tid)
    let s := if own = some t.coreKey then set s (k - 1) else if other then set s (k + 1) else s
    let s := s.recallFor none pa 1
    { s with owned := mput s.owned line t.coreKey }
  else
    let waiting := s.teams.any fun u => u.2.mops.any fun m => m.1 ≠ op &&
      (match m.2.kind with | .atom | .atcas | .red => true | _ => false) &&
      m.2.lanes.any fun l => match l.place with | .hbm q => q / 128 = line | _ => false
    (if waiting then set s (min 3 (k + 1)) else s).recallFor none pa 1

/-- One lane's atomic, by its placement (R214): the old value comes back. -/
def State.laneAtomic (s : State) (tid op : Nat) (m : MemOp) (l : LaneOp) (ext : List Byte) (upd : Nat → Option Nat) : State × Nat :=
  match mget? s.teams tid with
  | none => (s, 0)
  | some t =>
    let s := match l.place with
      | .hbm pa => if (t.winOf l.va).isSome || m.sc ≤ 2 || 5 ≤ m.sc then s else s.vaneStep t tid op pa
      | _ => s
    let s := match l.place with | .hbm pa => s.dropViews t.coreKey pa m.bytes | _ => s
    let owned := s.owned
    let near := 3 ≤ m.sc && m.sc ≤ 4 && (t.winOf l.va).isNone
    let r := s.laneRead tid l.place l.va m.bytes m.inL1 ext
    let old := natOfBytes r.2
    let s := match upd old with
      | some v => match m.kind, l.place with
        | .red, .peer pkg off => (r.1.copyDrop t.ctx pkg off m.bytes).clearResv none [granule l.place]
        | _, _ => r.1.laneWrite tid l.place l.va (bytesOfNat m.bytes v) (m.cp = 3)
      | none => r.1
    -- a near-core atomic keeps its line; at the home slice an access at scope 5 or 6 recalls it (R196)
    (if near then { s with owned := owned } else s, old)

/-- A list in an order freely chosen (R175). -/
def State.shuffle {α : Type} (s : State) : Nat → List α → State × List α
  | 0, l => (s, l)
  | n + 1, l =>
    let (s, k) := s.pick l.length
    match l[k]? with
    | none => (s, l)
    | some x =>
      let (s, rest) := s.shuffle n (l.eraseIdx k)
      (s, x :: rest)

/-- Some two lanes of an operation name one place, as `key` sees it. -/
def conflicts (ls : List LaneOp) (key : LaneOp → Place) : Bool := !(ls.map key).Nodup

/-- The lanes in order, or in a freely chosen order when some conflict (R175, R220). -/
def State.laneOrder (s : State) (ls : List LaneOp) (key : LaneOp → Place) : State × List LaneOp :=
  if conflicts ls key then s.shuffle ls.length ls else (s, ls)

/-- A place some bytes further on. -/
def Place.shift (p : Place) (n : Nat) : Place :=
  match p with
  | .hbm a => .hbm (a + n)
  | .arr a => .arr (a + n)
  | .peer q a => .peer q (a + n)

/-- The bytes of one single-copy atomic part of an access (R202), and how many parts it has. -/
def MemOp.unit (m : MemOp) : Nat := min 8 m.bytes
def MemOp.units (m : MemOp) : Nat := m.bytes / m.unit

/-- The key of one part of a lane's access among those made ahead. -/
def partKey (lane half : Nat) : Nat := lane * 2 + half

/-- A write comes after what an ATCAS or STCND of its split with a release part comes after, which is not performed and may fail
(R212, R341, R453): stores that the group has made already become visible at the scope of that. -/
def State.fencesBefore (s : State) (tid : Nat) (m : MemOp) : State :=
  match m.kind, mget? s.teams tid with
  | .ld, _ | .ldrsv, _ | _, none => s
  | _, some t => t.mops.foldl (fun s x =>
      if (x.2.kind = .atcas || x.2.kind = .stcnd) && x.2.group = m.group && x.2.split = m.split then s.release tid m.group x.2.ord x.2.sc
      else s) s

/-- What comes before an operation's accesses on the way home (R204, R208): with a release part, all that the group sees at its
scope; and whatever the group has buffered where the operation reads a line into a window, writes, or acts at the home slice; a
reservation's whole granule (R219). -/
def State.settleStores (s : State) (tid : Nat) (m : MemOp) : State :=
  let s := match m.kind with
    | .ld => s
    | _ => s.release tid m.group m.ord m.sc (some m.ranges)
  if s.wbuf.isEmpty then s else
  m.lanes.foldl (fun s l =>
    match l.place, (mget? s.teams tid).bind fun t => t.winOf l.va with
    | .hbm pa, some _ => s.raiseMeet tid m.group (pa / 128 * 128) 128
    | .hbm pa, none => match m.kind with
      | .ld => s
      | .ldrsv | .stcnd => s.raiseMeet tid m.group (pa / 128 * 128) 128
      | _ => s.raiseMeet tid m.group pa m.bytes
    | _, _ => s) (s.fencesBefore tid m)

/-- A store's data cut into aligned words, each with its own order among the lanes that conflict (R175); the parts made ahead are
left out. -/
def State.performStore (s : State) (tid : Nat) (m : MemOp) : State :=
  let w := min 4 m.bytes
  (List.range (m.bytes / w)).foldl (fun s k =>
    let (s, ls) := s.laneOrder m.lanes (·.place)
    ls.foldl (fun s l =>
      if (mget? m.part (partKey l.lane (w * k / m.unit))).isSome then s else
      s.laneWrite tid (l.place.shift (w * k)) (l.va + w * k) (bytesOfNat w (l.data / 2 ^ (8 * w * k))) (m.cp = 3)) s) (s.settleStores tid m)

/-- A part of a lane's store kept back from its home slice (R206 to R210): its group sees it. What goes elsewhere than to a home
slice is written. -/
def State.bufferLane (s : State) (tid : Nat) (m : MemOp) (l : LaneOp) (half : Nat) : State :=
  let p := l.place.shift (m.unit * half)
  let va := l.va + m.unit * half
  let bs := bytesOfNat m.unit (l.data / 2 ^ (64 * half))
  match p, mget? s.teams tid with
  | .hbm pa, some t =>
    if (t.winOf va).isSome then s.laneWrite tid p va bs (m.cp = 3) else
    let (s, id) := s.fresh
    let e : Buffered :=
      { id := id, team := tid, group := m.group, ctx := t.ctx, die := t.die, core := t.core, va := va, pa := pa, bytes := bs
        rel := if m.ord / 2 % 2 = 1 then some (scopeLevel m.sc) else none, bypass := m.cp = 3 }
    ({ s with wbuf := s.wbuf ++ [e] } : State).seenResv e |>.dropViews t.coreKey pa bs.length
  | _, _ => s.laneWrite tid p va bs (m.cp = 3)

/-- A store made that its own group alone sees as yet. -/
def State.bufferStore (s : State) (tid : Nat) (m : MemOp) : State :=
  let (s, ls) := (s.fencesBefore tid m).laneOrder m.lanes (·.place)
  ls.foldl (fun s l => (List.range m.units).foldl (fun s h =>
    if (mget? m.part (partKey l.lane h)).isSome then s else s.bufferLane tid m l h) s) s

/-- The bytes that the event brought for the lane at place `k` of an operation. -/
def extOf (m : MemOp) (ext : List Byte) (k : Nat) : List Byte := ext.drop (m.bytes * k)

/-! ### Peers' pages (R295) -/

/-- The copy of a peer's bytes that a plain load of a lane hits in an L2 of its device, through a mapping with local caching. -/
def State.copyHit (s : State) (t : Team) (m : MemOp) (l : LaneOp) : Option (List Byte) :=
  match m.kind, l.place with
  | .ld, .peer pkg off => match s.walkAt t.coreKey t.die t.ctx l.va with
    | .leaf e => if field e 8 2 = 2 then s.copyRead t.ctx pkg off m.bytes else none
    | _ => none
  | _, _ => none

/-- A peer's bytes for a lane's load: the copy held here, else those that the event brought. -/
def State.peerBytes (s : State) (tid : Nat) (m : MemOp) (l : LaneOp) (ext : List Byte) : List Byte :=
  ((mget? s.teams tid).bind fun t => s.copyHit t m l).getD ext

/-- A lane's access has crossed the fabric, so far as it lies with this package: its packet has been sent, or a copy serves it, or its
context has ended, which no answer holds up. -/
def State.laneCrossed (s : State) (t : Team) (op : Nat) (m : MemOp) (l : LaneOp) : Bool :=
  match l.place with
  | .peer pkg _ => (s.copyHit t m l).isSome || (s.ctx t.ctx).ended.isSome ||
      (mget {} s.fab.pages (t.ctx * 2 ^ 17 + pkg)).pkts.any fun p => p.op = op && p.lane = l.lane && p.first.isSome
  | _ => true
/-- Every lane's access has. -/
def State.crossed (s : State) (t : Team) (op : Nat) (m : MemOp) : Bool := m.lanes.all (s.laneCrossed t op m)

/-- The packets of an operation that has been performed are acknowledged. -/
def State.dropPages (s : State) (op : Nat) : State :=
  if s.fab.pages.isEmpty then s else
  { s with fab := { s.fab with pages := mmap s.fab.pages fun c => { c with pkts := c.pkts.filter fun p => p.op ≠ op } } }

/-- Bytes of a peer's page that a load has read are held in the L2 of die HD where the leaf has local caching (R176, R295). -/
def State.holdCopy (s : State) (x pkg off : Nat) (e : DWord) (bs : List Byte) : State :=
  if field e 8 2 ≠ 2 then s else
  s.modDie (field e 12 4) fun d => { d with l2 := bs.zipIdx.foldl (fun k b => mput k (copyKey x pkg (off + b.2)) b.1) d.l2 }

/-- What loads of locally cached pages have read is held in the L2 of die HD (R176, R295). -/
def State.holdCopies (s : State) (tid : Nat) (m : MemOp) (vs : List (Nat × Nat)) : State :=
  match m.kind, mget? s.teams tid with
  | .ld, some t => m.lanes.foldl (fun s l =>
      match l.place, s.walkAt t.coreKey t.die t.ctx l.va, vs.find? fun v => v.1 = l.lane with
      | .peer pkg off, .leaf e, some v => s.holdCopy t.ctx pkg off e (bytesOfNat m.bytes v.2)
      | _, _, _ => s) s
  | _, _ => s

/-- One lane of a STCND (R453): the write when its reservation stands, and its end in either case. A reservation on a
peer's granule also needs the peer's word that it stands there. -/
def State.laneStcnd (s : State) (tid : Nat) (m : MemOp) (l : LaneOp) (ext : List Byte) : State × Bool :=
  match (mget? s.teams tid).bind fun t => mget? t.groups m.group with
  | none => (s, false)
  | some g =>
    let held := mget? g.resv l.lane = some (granule l.place) &&
      (match l.place with | .peer _ _ => ((ext[0]?).getD 0) ≠ 0 | _ => true)
    let s := if held then s.laneWrite tid l.place l.va (bytesOfNat m.bytes l.data) (m.cp = 3) else s
    (s.modGroup tid m.group fun g => { g with resv := mdel g.resv l.lane }, held)

/-- The 128-byte granule of a place, as a place. -/
def granulePlace (p : Place) : Place := .arr (granule p)

/-- The value that a lane's registers receive, with the registers (R390). -/
abbrev LaneVal := Nat × Nat

/-- Bytes of a lane's load as its group sees them (R193, R205, R210): the stores that it sees on their way home count, and its core's
views. -/
def State.laneSee (s : State) (tid gi : Nat) (p : Place) (va n : Nat) (l1 : Bool) (ext : List Byte) : State × List Byte :=
  let r := s.laneRead tid p va n l1 ext
  match p, (mget? s.teams tid).bind fun t => t.winOf va with
  | .hbm pa, none =>
    let bs := if s.wbuf.isEmpty then r.2 else s.overlay tid gi pa r.2
    (r.1, match mget? s.teams tid with
      | some t => if s.views.isEmpty then bs else s.viewed t.coreKey pa bs
      | none => bs)
  | _, _ => r

/-- A lane's load: all of it, or what is left of it when parts of it have been made ahead. -/
def State.laneLoad (s : State) (tid : Nat) (m : MemOp) (l : LaneOp) (l1 : Bool) (ext : List Byte) : State × Nat :=
  if m.part.isEmpty then
    let r := s.laneSee tid m.group l.place l.va m.bytes l1 ext
    (r.1, natOfBytes r.2)
  else
    (List.range m.units).foldl (fun (a : State × Nat) h =>
      match mget? m.part (partKey l.lane h) with
      | some v => (a.1, a.2 + v * 2 ^ (64 * h))
      | none =>
        let r := a.1.laneSee tid m.group (l.place.shift (8 * h)) (l.va + 8 * h) m.unit l1 (ext.drop (8 * h))
        (r.1, a.2 + natOfBytes r.2 * 2 ^ (64 * h))) (s, 0)

/-- What a lane of an ATOM, RED or ATCAS writes over a value (R341, R342, R433). -/
def MemOp.update (m : MemOp) (l : LaneOp) (old : Nat) : Option Nat :=
  if m.kind = .atcas then (if old = l.cmp then some l.data else none)
  else some (atomVal (m.aop % 16) (m.aop / 16 % 2 = 1) (8 * m.bytes) old l.data)

/-- One lane of an operation carried out: the state, and the lane's value. -/
def State.performLane (s : State) (tid op : Nat) (m : MemOp) (l : LaneOp) (ext : List Byte) : State × Nat :=
  match m.kind with
  | .ld => s.laneLoad tid m l m.inL1 ext
  | .ldrsv =>
    let s := match l.place, mget? s.teams tid with
      | .hbm pa, some t => s.dropViews t.coreKey pa m.bytes
      | _, _ => s
    let r := s.laneLoad tid m l false ext
    (r.1.modGroup tid m.group fun g => { g with resv := mput g.resv l.lane (granule l.place) }, r.2)
  | .stcnd =>
    let r := s.laneStcnd tid m l ext
    (r.1, if r.2 then 0 else 1)
  | .atom | .red | .atcas => s.laneAtomic tid op m l ext (m.update l)
  | _ => (s, 0)

/-- The lanes of an operation in the order in which they are carried out: freely chosen among those that conflict (R175, R220). -/
def State.orderFor (s : State) (m : MemOp) : State × List LaneOp :=
  match m.kind with
  | .ld | .ldrsv => (s, m.lanes)
  | .stcnd => s.laneOrder m.lanes fun l => granulePlace l.place
  | _ => s.laneOrder m.lanes (·.place)

/-- The lanes of an operation carried out: the state, and each lane's value. What was made ahead keeps the value that it had. -/
def State.performLanes (s : State) (tid op : Nat) (m : MemOp) (ext : List Byte) : State × List LaneVal :=
  let (s, ls) := (s.settleStores tid m).orderFor m
  ls.foldl (fun (a : State × List LaneVal) l =>
    match m.kind, mget? m.part (partKey l.lane 0) with
    | .ld, _ | _, none =>
      let r := a.1.performLane tid op m l (a.1.peerBytes tid m l (extOf m ext (m.lanes.idxOf l)))
      (r.1, a.2 ++ [(l.lane, r.2)])
    | _, some v => (a.1, a.2 ++ [(l.lane, v)])) (s, [])

/-- The registers that hold an operation's result (R390, R453): the first, and how many. -/
def MemOp.dest (m : MemOp) : Nat × Nat :=
  match m.kind with
  | .stcnd => (m.dreg + (if m.bytes = 8 then 2 else 1), 1)
  | _ => (m.dreg, if m.bytes = 16 then 4 else if m.bytes = 8 then 2 else 1)

/-- The results written to the lanes' registers. -/
def Group.wrResults (g : Group) (d : Nat × Nat) (vs : List LaneVal) : Group :=
  vs.foldl (fun g v => (List.range d.2).foldl (fun g k =>
    g.wrV v.1 (d.1 + k) (BitVec.ofNat 32 (v.2 / 2 ^ (32 * k)))) g) g

/-- An operation may be performed: it is in flight and everything before it in preserved order has been (R204). -/
def Team.mayPerform (t : Team) (op : Nat) : Option MemOp :=
  (mget? t.mops op).filter fun m => m.deps.all fun d => (mget? t.mops d).isNone

/-- Everything an operation leaves behind once performed: its counters fall and its writes land (R108, R124). -/
def State.mopDone (s : State) (tid op : Nat) : State :=
  (((s.dropPages op).modTeam tid fun t => { t with mops := mdel t.mops op }).complete tid op).settle tid

/-- LOAD_RETURN (R108, R391): a load, LDRSV, STCND, ATOM or ATCAS is performed and its registers are written. `ext`
holds a peer's bytes, lane after lane. -/
def execLoadReturn (team op : Nat) (ext : List Byte) (s : State) : Out :=
  .next (match (mget? s.teams team).bind fun t => (t.mayPerform op).map fun m => (t, m) with
    | none => s
    | some (t, m) =>
      if !s.crossed t op m then s else
      match m.kind with
      | .ld | .ldrsv | .stcnd | .atom | .atcas =>
        let r := s.performLanes team op m ext
        let s := (r.1.holdCopies team m r.2).acquireOp t m
        (s.modGroup team m.group fun g => g.wrResults m.dest r.2).mopDone team op
      | _ => s)

/-- A window written back line by line, its clean lines dropped (R190); `unmap` ends it, and each byte of lines never filled holds
one of the values that the array has held there: the present one or the zero of the launch, freely (R192; log 69). -/
def State.stashEnd (s : State) (tid w : Nat) (unmap : Bool) : State :=
  match (mget? s.teams tid).bind fun t => mget? t.wins w with
  | none => s
  | some win =>
    let s := win.lines.foldl (fun s l => if l.2.dirty then s.stashWriteBack tid w l.1 else s.stashRecall tid w l.1) s
    if !unmap then s else
    let s := s.modTeam tid fun t => { t with wins := mdel t.wins w }
    (List.range (win.len / 128)).foldl (fun s k =>
      if win.ever.contains k then s else
      match mget? s.teams tid with
      | some t =>
        let r := s.heldBytes t.coreKey (t.base + win.lo + 128 * k) 128 (s.arrRead t (win.lo + 128 * k) 128)
        r.1.arrWrite tid t (win.lo + 128 * k) r.2
      | none => s) s

/-- One lane's access made ahead of the rest of its operation (R175, R202), or one half of it where it is 128 bits wide. -/
def State.lanePart (s : State) (team op lane half : Nat) (ext : List Byte) : State :=
  match (mget? s.teams team).bind fun t => (t.mayPerform op).bind fun m => (m.lanes.find? fun l => l.lane = lane).map fun l => (t, m, l) with
  | none => s
  | some (t, m, l) =>
    let ext := ((s.copyHit t m l).map fun b => b.drop (8 * half)).getD ext
    if !s.laneCrossed t op m l || m.units ≤ half || (mget? m.part (partKey lane half)).isSome then s else
    let note (s : State) (v : Nat) : State :=
      s.modTeam team fun t => { t with mops := mmod t.mops op fun m => { m with part := mput m.part (partKey lane half) v } }
    match m.kind with
    | .ld =>
      let r := (s.settleStores team { m with lanes := [l] }).laneSee team m.group (l.place.shift (8 * half)) (l.va + 8 * half) m.unit m.inL1 ext
      note r.1 (natOfBytes r.2)
    | .st =>
      let s := s.settleStores team { m with lanes := [l] }
      note (s.laneWrite team (l.place.shift (8 * half)) (l.va + 8 * half) (bytesOfNat m.unit (l.data / 2 ^ (64 * half))) (m.cp = 3)) 0
    | .ldrsv | .stcnd | .atom | .red | .atcas =>
      if m.units ≠ 1 then s else
      let r := (s.settleStores team { m with lanes := [l] }).performLane team op m l ext
      note r.1 r.2
    | _ => s

/-- STORE_PERFORMED (R108, R448): a store or RED is performed at its scope, a STASHM's mapping stands, or the
write-backs of a STASHW or STASHU are done. -/
def execStorePerformed (team op : Nat) (s : State) : Out :=
  .next (match (mget? s.teams team).bind fun t => (t.mayPerform op).map fun m => (t, m) with
    | none => s
    | some (t, m) =>
      if !s.crossed t op m then s else
      match m.kind with
      | .st => ((s.performStore team m).acquireOp t m).mopDone team op
      | .red => ((s.performLanes team op m []).1.acquireOp t m).mopDone team op
      | .stashMap => s.mopDone team op
      | .stash w unmap => (s.stashEnd team w unmap).mopDone team op
      | _ => s)

/-- Bytes of one line that the groups of a core read as they stand from now on, for as long as nothing ends that (R210); stores that
not all of them see must not lie there. -/
def State.keepView (s : State) (core pa n : Nat) : State :=
  let mine (e : Buffered) : Bool := coreKey e.die e.core = core
  let die := core / Config.cores
  if n = 0 || 128 < pa % 128 + n || s.wbuf.any (fun e => mine e && e.level ≤ 1 && e.meets pa n) || s.views.any (fun v => v.core = core && v.meets pa n)
  then s else
  let seen := [3, 2].flatMap fun l => s.wbuf.filter fun e =>
    e.level = l && (e.die = die || (l = 3 && deviceOf s.mgmt.mode e.die = deviceOf s.mgmt.mode die))
  let r := s.homeRead pa n
  let bs := seen.foldl (fun bs e => e.onto pa bs) r.2
  let s := r.1.l1Refresh (some core) pa bs
  { s with views := s.views ++ [{ core := core, pa := pa, bytes := bs }] }

/-- A store made that its own group alone sees as yet (R206 to R210): as STORE_PERFORMED for the split that made it. -/
def State.storeEarly (s : State) (team op : Nat) : State :=
  match (mget? s.teams team).bind fun t => (t.mayPerform op).map fun m => (t, m) with
  | none => s
  | some (t, m) =>
    if m.kind = .st && s.crossed t op m then ((s.bufferStore team m).acquireOp t m).mopDone team op else s

/-! ### Stash windows -/

/-- A stash operation in flight, counted on STC (R450). -/
def State.stashOp (s : State) (c : Cur) (kind : MemKind) : State :=
  let (s, id) := s.fresh
  let m : MemOp :=
    { kind := kind, group := c.ref.group, split := c.ref.split, bytes := 1, dreg := 0, sc := 0, ord := 0, cp := 0, aop := 0
      lanes := [], deps := [] }
  let c := c.count .stc id
  s.put { c with team := { c.team with mops := mput c.team.mops id m } }

/-- The window that a stash instruction names (R450). -/
def FmtM.win (f : FmtM) : Nat := f.off.toNat % 4

/-- Two ranges share a byte. -/
def rangesMeet (a n b k : Nat) : Bool := a < b + k && b < a + n

/-- STASHM (R450, R451, R188, R172). -/
def execStashm (f : FmtM) (s : State) : Out :=
  onSplit s fun c =>
    if !c.acts f.com then s else
    let w := FmtM.win f
    let ga := (c.rdPair f.a.toNat).toNat
    let lo := (c.rdS f.d.toNat).toNat
    let len := (c.rdS f.b.toNat).toNat
    let entry := c.split.entry.map (·.pc)
    if 2 ^ 57 ≤ ga then s.protAt c 1 else
    match mget? c.team.wins w with
    | some win =>
      if win.split = c.ref.split && win.group = c.ref.group && win.entry = entry && win.ga = ga && win.lo = lo && win.len = len then
        s.stashOp c .stashMap
      else s.illop c 10
    | none =>
      if ga % 128 ≠ 0 || lo % 128 ≠ 0 || len % 128 ≠ 0 || len < 128 || lo + len > c.team.bytes ||
        c.team.wins.any (fun v => rangesMeet lo len v.2.lo v.2.len || rangesMeet ga len v.2.ga v.2.len) then s.illop c 10
      else
        let win : StashWin := { lo := lo, len := len, ga := ga, group := c.ref.group, split := c.ref.split, entry := entry }
        s.stashOp { c with team := { c.team with wins := mput c.team.wins w win } } .stashMap

/-- STASHW and STASHU share all but the unmapping (R190, R451): on a window that is not mapped nothing is in flight. -/
def stashBack (f : FmtM) (unmap : Bool) (s : State) : Out :=
  onSplit s fun c =>
    if !c.acts f.com || (mget? c.team.wins (FmtM.win f)).isNone then s else s.stashOp c (.stash (FmtM.win f) unmap)

/-- STASHW (R450). -/
def execStashw (f : FmtM) (s : State) : Out := stashBack f false s
/-- STASHU (R450). -/
def execStashu (f : FmtM) (s : State) : Out := stashBack f true s

/-- STASH_RECALL (R191): a filled line is written back when dirty and unfilled. -/
def execStashRecall (team win line : Nat) (s : State) : Out := .next (s.stashRecall team win line)

/-- WEATHERVANE_DECAY (R215): every counter of the die falls by one, not below zero. -/
def execWeathervaneDecay (die : Nat) (s : State) : Out :=
  .next (s.modDie die fun d => { d with vane := (mmap d.vane fun v => v - 1).filter fun v => v.2 ≠ 0 })

/-- MIGRATION_REQUEST (R180): a page of FM 0b11 whose count has reached its threshold is requested once. -/
def execMigrationRequest (die ctx vpn : Nat) (s : State) : Out :=
  let k := ctx * 2 ^ 41 + vpn
  .next (match s.walk die ctx (vpn * 65536) with
    | .leaf e =>
      if field e 8 2 = 3 && 2 ^ (8 + 2 * field e 10 2) ≤ mget 0 (s.die die).migr k && !(s.die die).migrReq.contains k then
        s.modDie die fun d => { d with migrReq := k :: d.migrReq }
      else s
    | _ => s)

end Sys2Proof.Machine
end

