-- ==== Sys2Proof/Decode.lean ====
section
/-! DEFINITION. The decoder of instruction words and epilogue words (R111 to R121, R128, R129), and after
it the encoder, written from the same tables. -/
namespace Sys2Proof

/-- One byte of a little-endian word (R2). -/
def byteAt (w : DWord) (i : Nat) : Byte := w.extractLsb' (8 * i) 8

/-- The 64-bit word that eight bytes hold, the first at the lowest address (R2, R111). Missing bytes are zero. -/
def wordOfBytes (bs : List Byte) : DWord :=
  bs.foldr (fun b w => (w <<< 8) ||| b.setWidth 64) 0

/-- The eight bytes of a word as storage holds them (R2). -/
def bytesOfWord (w : DWord) : List Byte := (List.range 8).map (byteAt w)

/-- The common fields of a word (R111). -/
def comOfBits (w : DWord) : Com :=
  { la := w.extractLsb' 12 4, pn := w.getLsbD 11, pg := w.extractLsb' 8 3 }
/-- The low 16 bits of a word: LA, PN, PG and the opcode (R111). -/
def comBits (c : Com) (op : Byte) : BitVec 16 := c.la ++ BitVec.ofBool c.pn ++ c.pg ++ op

/-- The fields of a format R word (R113). -/
def fmtROfBits (w : DWord) : FmtR :=
  { com := comOfBits w, m := w.extractLsb' 56 8, cs := w.getLsbD 55, bsc := w.getLsbD 54
    as := w.getLsbD 53, ds := w.getLsbD 52, t := Ty.ofBits (w.extractLsb' 48 4), c := w.extractLsb' 40 8
    b := w.extractLsb' 32 8, a := w.extractLsb' 24 8, d := w.extractLsb' 16 8 }
/-- The word with the given opcode and format R fields (R113). -/
def fmtRToBits (f : FmtR) (op : Byte) : DWord :=
  f.m ++ BitVec.ofBool f.cs ++ BitVec.ofBool f.bsc ++ BitVec.ofBool f.as ++ BitVec.ofBool f.ds ++
    f.t.toBits ++ f.c ++ f.b ++ f.a ++ f.d ++ comBits f.com op

/-- The fields of a format I word (R114). -/
def fmtIOfBits (w : DWord) : FmtI :=
  { com := comOfBits w, imm := w.extractLsb' 40 24, rm := w.extractLsb' 38 2, as := w.getLsbD 37
    ds := w.getLsbD 36, t := Ty.ofBits (w.extractLsb' 32 4), a := w.extractLsb' 24 8
    d := w.extractLsb' 16 8 }
/-- The word with the given opcode and format I fields (R114). -/
def fmtIToBits (f : FmtI) (op : Byte) : DWord :=
  f.imm ++ f.rm ++ BitVec.ofBool f.as ++ BitVec.ofBool f.ds ++
    f.t.toBits ++ f.a ++ f.d ++ comBits f.com op

/-- The fields of a format L word (R115). -/
def fmtLOfBits (w : DWord) : FmtL :=
  { com := comOfBits w, imm := w.extractLsb' 32 32, ds := w.getLsbD 24, d := w.extractLsb' 16 8 }
/-- The word with the given opcode and format L fields (R115). -/
def fmtLToBits (f : FmtL) (op : Byte) : DWord :=
  f.imm ++ (0 : BitVec 7) ++ BitVec.ofBool f.ds ++ f.d ++ comBits f.com op

/-- The fields of a format M word (R116). -/
def fmtMOfBits (w : DWord) : FmtM :=
  { com := comOfBits w, off := w.extractLsb' 56 8, cp := w.extractLsb' 51 2, ord := w.extractLsb' 49 2
    sc := w.extractLsb' 46 3, sp := w.getLsbD 45, asb := w.getLsbD 44, o := w.getLsbD 43
    w := w.extractLsb' 40 3, b := w.extractLsb' 32 8, a := w.extractLsb' 24 8, d := w.extractLsb' 16 8 }
/-- The word with the given opcode and format M fields (R116). -/
def fmtMToBits (f : FmtM) (op : Byte) : DWord :=
  f.off ++ (0 : BitVec 3) ++ f.cp ++ f.ord ++ f.sc ++ BitVec.ofBool f.sp ++
    BitVec.ofBool f.asb ++ BitVec.ofBool f.o ++ f.w ++ f.b ++ f.a ++ f.d ++ comBits f.com op

/-- The fields of a format X word (R117). -/
def fmtXOfBits (w : DWord) : FmtX :=
  { com := comOfBits w, sn := w.extractLsb' 56 8, sm := w.extractLsb' 54 2, pop := w.getLsbD 53
    bb := w.getLsbD 52, tc := w.extractLsb' 50 2, ta := w.extractLsb' 47 3, sh := w.extractLsb' 44 3
    zc := w.getLsbD 43, ru := w.getLsbD 42, bo := w.getLsbD 41, bs := w.getLsbD 40, b := w.extractLsb' 32 8
    a := w.extractLsb' 24 8, d := w.extractLsb' 16 8 }
/-- The word with the given opcode and format X fields (R117). -/
def fmtXToBits (f : FmtX) (op : Byte) : DWord :=
  f.sn ++ f.sm ++ BitVec.ofBool f.pop ++ BitVec.ofBool f.bb ++ f.tc ++ f.ta ++ f.sh ++
    BitVec.ofBool f.zc ++ BitVec.ofBool f.ru ++ BitVec.ofBool f.bo ++ BitVec.ofBool f.bs ++ f.b ++ f.a ++ f.d ++ comBits f.com op

/-- The fields of a format B word (R118). -/
def fmtBOfBits (w : DWord) : FmtB :=
  { com := comOfBits w, rcv := w.extractLsb' 48 16, tgt := w.extractLsb' 24 24, kind := w.extractLsb' 20 4
    cond := w.extractLsb' 16 4 }
/-- The word with the given opcode and format B fields (R118). -/
def fmtBToBits (f : FmtB) (op : Byte) : DWord :=
  f.rcv ++ f.tgt ++ f.kind ++ f.cond ++ comBits f.com op

/-- The fields of a format E word (R119). -/
def fmtEOfBits (w : DWord) : FmtE :=
  { com := comOfBits w, flg := w.extractLsb' 56 8, qb := w.extractLsb' 52 4, sub := w.extractLsb' 48 4
    s3 := w.extractLsb' 40 8, s2 := w.extractLsb' 32 8, s1 := w.extractLsb' 24 8, s0 := w.extractLsb' 16 8 }
/-- The word with the given opcode and format E fields (R119). -/
def fmtEToBits (f : FmtE) (op : Byte) : DWord :=
  f.flg ++ f.qb ++ f.sub ++ f.s3 ++ f.s2 ++ f.s1 ++ f.s0 ++ comBits f.com op

/-- The fields of a format S word (R120). -/
def fmtSOfBits (w : DWord) : FmtS :=
  { com := comOfBits w, imm := w.extractLsb' 48 16, sys := w.extractLsb' 32 16, a := w.extractLsb' 24 8
    d := w.extractLsb' 16 8 }
/-- The word with the given opcode and format S fields (R120). -/
def fmtSToBits (f : FmtS) (op : Byte) : DWord :=
  f.imm ++ f.sys ++ f.a ++ f.d ++ comBits f.com op

/-- The fields of an epilogue word (R121). -/
def fmtEpOfBits (w : Word) : FmtEp :=
  { imm := w.extractLsb' 26 6, tm := w.extractLsb' 22 4, c := w.extractLsb' 18 4, b := w.extractLsb' 14 4
    a := w.extractLsb' 10 4, d := w.extractLsb' 6 4 }
/-- The epilogue word with the given operation code and fields (R121). -/
def fmtEpToBits (f : FmtEp) (op : BitVec 6) : Word := f.imm ++ f.tm ++ f.c ++ f.b ++ f.a ++ f.d ++ op

/-- The answer of the decoder: an instruction, or the reason of R129 for which there is none. -/
abbrev Decoded := Except Nat Instr

/-- Row 0x0_ of the opcode map (R128): integer and bit operations. -/
def decodeRow0 (col : Nat) (w : DWord) : Decoded :=
  match col with
  | 0 => if w.extractLsb' 16 48 == 0 then .ok (.nop (comOfBits w)) else .error 3
  | 1 => .ok (.iadd (fmtROfBits w))
  | 2 => .ok (.isub (fmtROfBits w))
  | 3 => .ok (.imul (fmtROfBits w))
  | 4 => .ok (.imad (fmtROfBits w))
  | 5 => .ok (.imin (fmtROfBits w))
  | 6 => .ok (.imax (fmtROfBits w))
  | 7 => .ok (.iabs (fmtROfBits w))
  | 8 => .ok (.icmp (fmtROfBits w))
  | 9 => .ok (.shl (fmtROfBits w))
  | 10 => .ok (.shr (fmtROfBits w))
  | 11 => .ok (.sar (fmtROfBits w))
  | 12 => .ok (.log3 (fmtROfBits w))
  | 13 => .ok (.popc (fmtROfBits w))
  | 14 => .ok (.clz (fmtROfBits w))
  | 15 => .ok (.brev (fmtROfBits w))
  | _ => .error 1

/-- Row 0x1_ of the opcode map (R128): integer and bit operations, MOVI. -/
def decodeRow1 (col : Nat) (w : DWord) : Decoded :=
  match col with
  | 0 => .ok (.bfx (fmtROfBits w))
  | 1 => .ok (.bfi (fmtROfBits w))
  | 2 => .ok (.lea (fmtROfBits w))
  | 3 => .ok (.sel (fmtROfBits w))
  | 4 => .ok (.mov (fmtROfBits w))
  | 5 => if w.extractLsb' 25 7 == 0 then .ok (.movi (fmtLOfBits w)) else .error 3
  | _ => .error 1

/-- Row 0x2_ of the opcode map (R128): floating point and the SFU. -/
def decodeRow2 (col : Nat) (w : DWord) : Decoded :=
  match col with
  | 0 => .ok (.fadd (fmtROfBits w))
  | 1 => .ok (.fmul (fmtROfBits w))
  | 2 => .ok (.ffma (fmtROfBits w))
  | 3 => .ok (.fmin (fmtROfBits w))
  | 4 => .ok (.fmax (fmtROfBits w))
  | 5 => .ok (.fcmp (fmtROfBits w))
  | 8 => .ok (.frcp (fmtROfBits w))
  | 9 => .ok (.frsq (fmtROfBits w))
  | 10 => .ok (.fsqrt (fmtROfBits w))
  | 11 => .ok (.fex2 (fmtROfBits w))
  | 12 => .ok (.flg2 (fmtROfBits w))
  | 13 => .ok (.fsin (fmtROfBits w))
  | 14 => .ok (.fcos (fmtROfBits w))
  | 15 => .ok (.ftanh (fmtROfBits w))
  | _ => .error 1

/-- Row 0x3_ of the opcode map (R128): conversions and lane operations. -/
def decodeRow3 (col : Nat) (w : DWord) : Decoded :=
  match col with
  | 0 => .ok (.cvt (fmtROfBits w))
  | 1 => .ok (.cvtef (fmtROfBits w))
  | 2 => .ok (.pack4 (fmtROfBits w))
  | 3 => .ok (.unpk4 (fmtROfBits w))
  | 8 => .ok (.shfl (fmtROfBits w))
  | 9 => .ok (.vote (fmtROfBits w))
  | 10 => .ok (.redg (fmtROfBits w))
  | 11 => .ok (.scang (fmtROfBits w))
  | _ => .error 1

/-- Row 0x4_ of the opcode map (R128): memory. -/
def decodeRow4 (col : Nat) (w : DWord) : Decoded :=
  match col with
  | 0 => if w.extractLsb' 53 3 == 0 then .ok (.ld (fmtMOfBits w)) else .error 3
  | 1 => if w.extractLsb' 53 3 == 0 then .ok (.st (fmtMOfBits w)) else .error 3
  | 2 => if w.extractLsb' 53 3 == 0 then .ok (.ldrsv (fmtMOfBits w)) else .error 3
  | 3 => if w.extractLsb' 53 3 == 0 then .ok (.stcnd (fmtMOfBits w)) else .error 3
  | 4 => if w.extractLsb' 53 3 == 0 then .ok (.atom (fmtMOfBits w)) else .error 3
  | 5 => if w.extractLsb' 53 3 == 0 then .ok (.atcas (fmtMOfBits w)) else .error 3
  | 6 => if w.extractLsb' 53 3 == 0 then .ok (.red (fmtMOfBits w)) else .error 3
  | 7 => if w.extractLsb' 53 3 == 0 then .ok (.fence (fmtMOfBits w)) else .error 3
  | 8 => if w.extractLsb' 53 3 == 0 then .ok (.pref (fmtMOfBits w)) else .error 3
  | 9 => if w.extractLsb' 53 3 == 0 then .ok (.stashm (fmtMOfBits w)) else .error 3
  | 10 => if w.extractLsb' 53 3 == 0 then .ok (.stashw (fmtMOfBits w)) else .error 3
  | 11 => if w.extractLsb' 53 3 == 0 then .ok (.stashu (fmtMOfBits w)) else .error 3
  | _ => .error 1

/-- Row 0x5_ of the opcode map (R128): copies, buffers, the windlass and the matrix unit. -/
def decodeRow5 (col : Nat) (w : DWord) : Decoded :=
  match col with
  | 0 => .ok (.cpy (fmtEOfBits w))
  | 1 => .ok (.cpyt (fmtEOfBits w))
  | 2 => .ok (.closeb (fmtEOfBits w))
  | 3 => .ok (.waitb (fmtEOfBits w))
  | 4 => .ok (.bufcfg (fmtEOfBits w))
  | 5 => .ok (.bufwait (fmtEOfBits w))
  | 6 => .ok (.bufrel (fmtEOfBits w))
  | 7 => .ok (.lnstart (fmtEOfBits w))
  | 8 => .ok (.lnstop (fmtEOfBits w))
  | 12 => .ok (.mma (fmtXOfBits w))
  | 13 => .ok (.mmas (fmtXOfBits w))
  | 14 => .ok (.mdrain (fmtEOfBits w))
  | 15 => .ok (.epload (fmtEOfBits w))
  | _ => .error 1

/-- Row 0x6_ of the opcode map (R128): control and barriers. -/
def decodeRow6 (col : Nat) (w : DWord) : Decoded :=
  match col with
  | 0 => .ok (.bra (fmtBOfBits w))
  | 1 => .ok (.brx (fmtBOfBits w))
  | 2 => .ok (.call (fmtBOfBits w))
  | 3 => if w.extractLsb' 20 4 == 1 then .ok (.retT (fmtBOfBits w)) else .ok (.ret (fmtBOfBits w))
  | 4 => .ok (.merge (fmtBOfBits w))
  | 5 => .ok (.loop (fmtBOfBits w))
  | 6 => .ok (.exit (fmtBOfBits w))
  | 7 => .ok (.yield (fmtBOfBits w))
  | 8 => .ok (.trap (fmtSOfBits w))
  | 9 => .ok (.bkpt (fmtBOfBits w))
  | 10 => .ok (.bar (fmtEOfBits w))
  | 11 => .ok (.bara (fmtEOfBits w))
  | 12 => .ok (.barw (fmtEOfBits w))
  | _ => .error 1

/-- Row 0x7_ of the opcode map (R128): system. -/
def decodeRow7 (col : Nat) (w : DWord) : Decoded :=
  match col with
  | 0 => if w.getLsbD 48 then .ok (.movsrWrite (fmtSOfBits w)) else .ok (.movsr (fmtSOfBits w))
  | 1 => .ok (.movsv (fmtSOfBits w))
  | 2 => .ok (.time (fmtSOfBits w))
  | 3 => .ok (.cycle (fmtSOfBits w))
  | 4 => .ok (.pgdist (fmtSOfBits w))
  | 5 => .ok (.setfmt (fmtSOfBits w))
  | _ => .error 1

/-- Row 0x8_ of the opcode map (R128): integer immediate forms. -/
def decodeRow8 (col : Nat) (w : DWord) : Decoded :=
  match col with
  | 1 => .ok (.iaddImm (fmtIOfBits w))
  | 2 => .ok (.isubImm (fmtIOfBits w))
  | 3 => .ok (.imulImm (fmtIOfBits w))
  | 5 => .ok (.iminImm (fmtIOfBits w))
  | 6 => .ok (.imaxImm (fmtIOfBits w))
  | 8 => .ok (.icmpImm (fmtIOfBits w))
  | 9 => .ok (.shlImm (fmtIOfBits w))
  | 10 => .ok (.shrImm (fmtIOfBits w))
  | 11 => .ok (.sarImm (fmtIOfBits w))
  | _ => .error 2

/-- Row 0xA_ of the opcode map (R128): float immediate forms. -/
def decodeRowA (col : Nat) (w : DWord) : Decoded :=
  match col with
  | 0 => .ok (.faddImm (fmtIOfBits w))
  | 1 => .ok (.fmulImm (fmtIOfBits w))
  | 3 => .ok (.fminImm (fmtIOfBits w))
  | 4 => .ok (.fmaxImm (fmtIOfBits w))
  | 5 => .ok (.fcmpImm (fmtIOfBits w))
  | c => if c < 6 then .error 2 else .error 1

/-- Row 0xC_ of the opcode map (R128): rings and the fabric. -/
def decodeRowC (col : Nat) (w : DWord) : Decoded :=
  match col with
  | 0 => .ok (.rag (fmtEOfBits w))
  | 1 => .ok (.rrs (fmtEOfBits w))
  | 2 => .ok (.rhnd (fmtEOfBits w))
  | 3 => .ok (.rwait (fmtEOfBits w))
  | 4 => .ok (.rrank (fmtEOfBits w))
  | 8 => .ok (.rput (fmtEOfBits w))
  | 9 => .ok (.rget (fmtEOfBits w))
  | 10 => .ok (.ratom (fmtEOfBits w))
  | 11 => if w.extractLsb' 48 4 == 1 then .ok (.rpostGet (fmtEOfBits w)) else .ok (.rpost (fmtEOfBits w))
  | 12 => .ok (.rcqw (fmtEOfBits w))
  | 13 => .ok (.wreg (fmtEOfBits w))
  | 14 => .ok (.wrev (fmtEOfBits w))
  | _ => .error 1

/-- Row 0xD_ of the opcode map (R128): tasks and queues. -/
def decodeRowD (col : Nat) (w : DWord) : Decoded :=
  match col with
  | 0 => .ok (.tasknew (fmtEOfBits w))
  | 1 => .ok (.taskdec (fmtEOfBits w))
  | 2 => .ok (.temit (fmtEOfBits w))
  | 3 => .ok (.qpull (fmtEOfBits w))
  | 4 => if w.extractLsb' 48 4 == 1 then .ok (.qpushClose (fmtEOfBits w)) else .ok (.qpush (fmtEOfBits w))
  | 5 => .ok (.arrv (fmtEOfBits w))
  | _ => .error 1

/-- Row 0xE_ of the opcode map (R128): strands, projections, prefixes and placement. -/
def decodeRowE (col : Nat) (w : DWord) : Decoded :=
  match col with
  | 0 => .ok (.snew (fmtEOfBits w))
  | 1 => .ok (.sres (fmtEOfBits w))
  | 2 => .ok (.scommit (fmtEOfBits w))
  | 3 => .ok (.sfork (fmtEOfBits w))
  | 4 => .ok (.slen (fmtEOfBits w))
  | 5 => .ok (.srel (fmtEOfBits w))
  | 6 => .ok (.sseek (fmtEOfBits w))
  | 7 => .ok (.kst (fmtEOfBits w))
  | 8 => .ok (.bgath (fmtEOfBits w))
  | 9 => if w.getLsbD 56 then .ok (.projldFree (fmtEOfBits w)) else .ok (.projld (fmtEOfBits w))
  | 10 => .ok (.flpop (fmtEOfBits w))
  | 11 => .ok (.flpush (fmtEOfBits w))
  | 12 => .ok (.pfxfind (fmtEOfBits w))
  | 13 => .ok (.pfxins (fmtEOfBits w))
  | 14 => .ok (.hashb (fmtEOfBits w))
  | 15 => if w.extractLsb' 48 4 == 1 then .ok (.plcqShort (fmtEOfBits w)) else .ok (.plcq (fmtEOfBits w))
  | _ => .error 1

/-- The decoder of a 64-bit word, total, with the reason of R129 for each word that it rejects. Fields that
an instruction's entry leaves unused are checked by `Instr.illegal`. -/
def decodeWord (w : DWord) : Decoded :=
  let op := (w.extractLsb' 0 8).toNat
  match op / 16 with
  | 0 => decodeRow0 (op % 16) w
  | 1 => decodeRow1 (op % 16) w
  | 2 => decodeRow2 (op % 16) w
  | 3 => decodeRow3 (op % 16) w
  | 4 => decodeRow4 (op % 16) w
  | 5 => decodeRow5 (op % 16) w
  | 6 => decodeRow6 (op % 16) w
  | 7 => decodeRow7 (op % 16) w
  | 8 => decodeRow8 (op % 16) w
  | 10 => decodeRowA (op % 16) w
  | 12 => decodeRowC (op % 16) w
  | 13 => decodeRowD (op % 16) w
  | 14 => decodeRowE (op % 16) w
  | 9 => .error 2
  | _ => .error 1

/-- The decoder of an epilogue word (R121): none where EPLOAD finds a bad word. -/
def decodeEp (w : Word) : Option Instr :=
  let f := fmtEpOfBits w
  let i? : Option Instr := match (w.extractLsb' 0 6).toNat with
    | 1 => some (.epadd f)
    | 2 => some (.epmul f)
    | 3 => some (.epfma f)
    | 4 => some (.epmax f)
    | 5 => some (.epmin f)
    | 6 => some (.epexp f)
    | 7 => some (.eplut f)
    | 8 => some (.epcvt f)
    | 9 => some (.epbias f)
    | 10 => some (.epscl f)
    | 11 => some (.epst f)
    | 63 => if w.extractLsb' 6 26 == 0 then some .epend else none
    | _ => none
  i?.filter Instr.wellFormed

/-- The instruction read from `nbits` bits numbered as the opcode table numbers them: an epilogue word when
they fit 32 bits, else an instruction word; an instruction only when it is well formed. -/
def decodeTableWord (nbits w : Nat) : Option Instr :=
  if nbits ≤ 32 then decodeEp (BitVec.ofNat 32 w)
  else match decodeWord (wordOfBytes (bytesOfWord (BitVec.ofNat 64 w))) with
    | .ok i => if i.wellFormed then some i else none
    | .error _ => none

/-- The word of an instruction (R113 to R120, R128); zero for epilogue words and events, which have none. -/
def encode : Instr → DWord
  | .nop c => (0 : BitVec 48) ++ comBits c 0x00
  | .iadd f => fmtRToBits f 0x01
  | .iaddImm f => fmtIToBits f 0x81
  | .isub f => fmtRToBits f 0x02
  | .isubImm f => fmtIToBits f 0x82
  | .imul f => fmtRToBits f 0x03
  | .imulImm f => fmtIToBits f 0x83
  | .imad f => fmtRToBits f 0x04
  | .imin f => fmtRToBits f 0x05
  | .iminImm f => fmtIToBits f 0x85
  | .imax f => fmtRToBits f 0x06
  | .imaxImm f => fmtIToBits f 0x86
  | .iabs f => fmtRToBits f 0x07
  | .icmp f => fmtRToBits f 0x08
  | .icmpImm f => fmtIToBits f 0x88
  | .shl f => fmtRToBits f 0x09
  | .shlImm f => fmtIToBits f 0x89
  | .shr f => fmtRToBits f 0x0A
  | .shrImm f => fmtIToBits f 0x8A
  | .sar f => fmtRToBits f 0x0B
  | .sarImm f => fmtIToBits f 0x8B
  | .log3 f => fmtRToBits f 0x0C
  | .popc f => fmtRToBits f 0x0D
  | .clz f => fmtRToBits f 0x0E
  | .brev f => fmtRToBits f 0x0F
  | .bfx f => fmtRToBits f 0x10
  | .bfi f => fmtRToBits f 0x11
  | .lea f => fmtRToBits f 0x12
  | .sel f => fmtRToBits f 0x13
  | .mov f => fmtRToBits f 0x14
  | .movi f => fmtLToBits f 0x15
  | .fadd f => fmtRToBits f 0x20
  | .faddImm f => fmtIToBits f 0xA0
  | .fmul f => fmtRToBits f 0x21
  | .fmulImm f => fmtIToBits f 0xA1
  | .ffma f => fmtRToBits f 0x22
  | .fmin f => fmtRToBits f 0x23
  | .fminImm f => fmtIToBits f 0xA3
  | .fmax f => fmtRToBits f 0x24
  | .fmaxImm f => fmtIToBits f 0xA4
  | .fcmp f => fmtRToBits f 0x25
  | .fcmpImm f => fmtIToBits f 0xA5
  | .frcp f => fmtRToBits f 0x28
  | .frsq f => fmtRToBits f 0x29
  | .fsqrt f => fmtRToBits f 0x2A
  | .fex2 f => fmtRToBits f 0x2B
  | .flg2 f => fmtRToBits f 0x2C
  | .fsin f => fmtRToBits f 0x2D
  | .fcos f => fmtRToBits f 0x2E
  | .ftanh f => fmtRToBits f 0x2F
  | .cvt f => fmtRToBits f 0x30
  | .cvtef f => fmtRToBits f 0x31
  | .pack4 f => fmtRToBits f 0x32
  | .unpk4 f => fmtRToBits f 0x33
  | .shfl f => fmtRToBits f 0x38
  | .vote f => fmtRToBits f 0x39
  | .redg f => fmtRToBits f 0x3A
  | .scang f => fmtRToBits f 0x3B
  | .ld f => fmtMToBits f 0x40
  | .st f => fmtMToBits f 0x41
  | .ldrsv f => fmtMToBits f 0x42
  | .stcnd f => fmtMToBits f 0x43
  | .atom f => fmtMToBits f 0x44
  | .atcas f => fmtMToBits f 0x45
  | .red f => fmtMToBits f 0x46
  | .fence f => fmtMToBits f 0x47
  | .pref f => fmtMToBits f 0x48
  | .stashm f => fmtMToBits f 0x49
  | .stashw f => fmtMToBits f 0x4A
  | .stashu f => fmtMToBits f 0x4B
  | .cpy f => fmtEToBits f 0x50
  | .cpyt f => fmtEToBits f 0x51
  | .closeb f => fmtEToBits f 0x52
  | .waitb f => fmtEToBits f 0x53
  | .bufcfg f => fmtEToBits f 0x54
  | .bufwait f => fmtEToBits f 0x55
  | .bufrel f => fmtEToBits f 0x56
  | .lnstart f => fmtEToBits f 0x57
  | .lnstop f => fmtEToBits f 0x58
  | .mma f => fmtXToBits f 0x5C
  | .mmas f => fmtXToBits f 0x5D
  | .mdrain f => fmtEToBits f 0x5E
  | .epload f => fmtEToBits f 0x5F
  | .bra f => fmtBToBits f 0x60
  | .brx f => fmtBToBits f 0x61
  | .call f => fmtBToBits f 0x62
  | .ret f => fmtBToBits f 0x63
  | .retT f => fmtBToBits f 0x63
  | .merge f => fmtBToBits f 0x64
  | .loop f => fmtBToBits f 0x65
  | .exit f => fmtBToBits f 0x66
  | .yield f => fmtBToBits f 0x67
  | .trap f => fmtSToBits f 0x68
  | .bkpt f => fmtBToBits f 0x69
  | .bar f => fmtEToBits f 0x6A
  | .bara f => fmtEToBits f 0x6B
  | .barw f => fmtEToBits f 0x6C
  | .movsr f => fmtSToBits f 0x70
  | .movsrWrite f => fmtSToBits f 0x70
  | .movsv f => fmtSToBits f 0x71
  | .time f => fmtSToBits f 0x72
  | .cycle f => fmtSToBits f 0x73
  | .pgdist f => fmtSToBits f 0x74
  | .setfmt f => fmtSToBits f 0x75
  | .rag f => fmtEToBits f 0xC0
  | .rrs f => fmtEToBits f 0xC1
  | .rhnd f => fmtEToBits f 0xC2
  | .rwait f => fmtEToBits f 0xC3
  | .rrank f => fmtEToBits f 0xC4
  | .rput f => fmtEToBits f 0xC8
  | .rget f => fmtEToBits f 0xC9
  | .ratom f => fmtEToBits f 0xCA
  | .rpost f => fmtEToBits f 0xCB
  | .rpostGet f => fmtEToBits f 0xCB
  | .rcqw f => fmtEToBits f 0xCC
  | .wreg f => fmtEToBits f 0xCD
  | .wrev f => fmtEToBits f 0xCE
  | .tasknew f => fmtEToBits f 0xD0
  | .taskdec f => fmtEToBits f 0xD1
  | .temit f => fmtEToBits f 0xD2
  | .qpull f => fmtEToBits f 0xD3
  | .qpush f => fmtEToBits f 0xD4
  | .qpushClose f => fmtEToBits f 0xD4
  | .arrv f => fmtEToBits f 0xD5
  | .snew f => fmtEToBits f 0xE0
  | .sres f => fmtEToBits f 0xE1
  | .scommit f => fmtEToBits f 0xE2
  | .sfork f => fmtEToBits f 0xE3
  | .slen f => fmtEToBits f 0xE4
  | .srel f => fmtEToBits f 0xE5
  | .sseek f => fmtEToBits f 0xE6
  | .kst f => fmtEToBits f 0xE7
  | .bgath f => fmtEToBits f 0xE8
  | .projld f => fmtEToBits f 0xE9
  | .projldFree f => fmtEToBits f 0xE9
  | .flpop f => fmtEToBits f 0xEA
  | .flpush f => fmtEToBits f 0xEB
  | .pfxfind f => fmtEToBits f 0xEC
  | .pfxins f => fmtEToBits f 0xED
  | .hashb f => fmtEToBits f 0xEE
  | .plcq f => fmtEToBits f 0xEF
  | .plcqShort f => fmtEToBits f 0xEF
  | .epadd _ => 0
  | .epmul _ => 0
  | .epfma _ => 0
  | .epmax _ => 0
  | .epmin _ => 0
  | .epexp _ => 0
  | .eplut _ => 0
  | .epcvt _ => 0
  | .epbias _ => 0
  | .epscl _ => 0
  | .epst _ => 0
  | .epend => 0
  | .clauseBegin _ => 0
  | .splitMerge _ _ => 0
  | .mergeComplete _ _ => 0
  | .parkTimeout _ => 0
  | .fairnessYield _ => 0
  | .loadReturn _ _ _ => 0
  | .storePerformed _ _ => 0
  | .splitExitComplete _ => 0
  | .matrixOpComplete _ _ => 0
  | .matrixPassStart _ _ => 0
  | .drainRow _ => 0
  | .epiloguePlaceTake _ _ => 0
  | .copyComplete _ _ => 0
  | .engineCommandStart _ _ => 0
  | .engineCommandComplete _ _ => 0
  | .bufferEntryTake _ _ => 0
  | .bufcfgTakeEffect _ _ => 0
  | .windlassRunStart _ => 0
  | .windlassIteration _ => 0
  | .qpullWake _ => 0
  | .qpushAppend _ _ => 0
  | .projldTakeEffect _ _ => 0
  | .dieSchedulerPlace _ => 0
  | .taskBlocking _ _ => 0
  | .starvationForcedPlacement _ _ => 0
  | .teamCompletionEvent _ => 0
  | .graphRecordWritten _ _ => 0
  | .graphNodeLaunch _ => 0
  | .graphFlushTimeout _ => 0
  | .hostTaskDoorbell _ _ => 0
  | .stashRecall _ _ _ => 0
  | .weathervaneDecay _ => 0
  | .migrationRequest _ _ _ => 0
  | .tlbInvalidateCommand _ _ _ => 0
  | .hostBar2Access _ => 0
  | .hostContextResume _ => 0
  | .hostContextSwitch _ _ => 0
  | .contextEnd _ => 0
  | .hostSetDebugMode _ _ _ => 0
  | .teamStop _ _ => 0
  | .hostSingleStep _ => 0
  | .hostResumeGroup _ _ => 0
  | .frameReceive _ _ _ => 0
  | .frameReplay _ => 0
  | .channelRetire _ => 0
  | .requestArrive _ _ _ => 0
  | .dieHeartbeatTimeout _ => 0
  | .dieFatalError _ => 0
  | .dieOvertemp _ => 0
  | .wrapEffect => 0
  | .partitionReform _ => 0
  | .hostDumpAck => 0
  | .partmodeRequest _ => 0
  | .modeChangeComplete => 0
  | .modeChangeDrainTimeout => 0
  | .timeSyncMessage _ _ => 0
  | .timeMasterFailover => 0
  | .powerOnBringup _ _ => 0
  | .powerCapSet _ => 0
  | .powerGating _ _ => 0
  | .thermalLimit => 0
  | .firmwareBankSwitch => 0
  | .mailboxCommand _ => 0
  | .healthSample _ => 0
  | .lysjaWatchdogTakeover => 0
  | .laneFailure _ _ _ => 0
  | .eccCorrected _ => 0
  | .eccUncorrectable _ _ _ => 0
  | .ringTileArrive _ _ => 0
  | .ringTileAccept _ _ => 0
  | .rwaitSatisfied _ => 0
  | .fabricSlotBegin _ _ => 0
  | .slottabEnable _ _ => 0
  | .slottabDisable _ => 0
  | .slotTableTakeEffect => 0
  | .fabricPacketReceive _ => 0
  | .relayForward _ => 0
  | .fabricAckReceive _ _ _ => 0
  | .fabricRetransmit _ => 0
  | .connectionReset _ => 0
  | .rpostDeadline _ => 0
  | .rcqwSatisfied _ => 0
  | .channelIsolation _ => 0
  | .systemRegisterWrite _ _ _ _ => 0
  | .inServiceTest _ => 0

/-- The epilogue word of an epilogue operation (R121, R368); zero for every other instruction. -/
def encodeEp : Instr → Word
  | .epadd f => fmtEpToBits f 0x01
  | .epmul f => fmtEpToBits f 0x02
  | .epfma f => fmtEpToBits f 0x03
  | .epmax f => fmtEpToBits f 0x04
  | .epmin f => fmtEpToBits f 0x05
  | .epexp f => fmtEpToBits f 0x06
  | .eplut f => fmtEpToBits f 0x07
  | .epcvt f => fmtEpToBits f 0x08
  | .epbias f => fmtEpToBits f 0x09
  | .epscl f => fmtEpToBits f 0x0A
  | .epst f => fmtEpToBits f 0x0B
  | .epend => 0x3F
  | _ => 0

end Sys2Proof
end

