-- ==== Sys2Proof/Machine/Control.lean ====
section
/-! DEFINITION. The control instructions (13 to 16: BAR, BARA, BARW, BKPT, BRA, BRX, CALL, EXIT, LOOP, MERGE, RET,
TRAP, YIELD) and the events of splits (R55, R57, R58, R66, R326). -/
namespace Sys2Proof.Machine

/-- The task of a team. -/
def State.taskOf (s : State) (t : Team) : Option Task := mget? s.tasks t.task

/-- An address that a split may go to: a multiple of 8 inside the code section (R107, R353, R357, R435). -/
def State.codeOk (s : State) (c : Cur) (a : DWord) : Bool :=
  match s.taskOf c.team with
  | some k => a.toNat % 8 = 0 && k.kimg + k.codeOff ≤ a.toNat && a.toNat < k.kimg + k.constOff
  | none => false

/-- A signed offset of `n` bits in 8-byte units from the clause header (R101). -/
def Cur.offset {n : Nat} (c : Cur) (o : BitVec n) : DWord := c.split.pc + ((o.signExtend 64) <<< 3)

/-- The reconvergence PC of a branch (R49): none where the offset is zero. -/
def Cur.joinPc (c : Cur) (f : FmtB) : Option DWord := if f.rcv = 0 then none else some (c.offset f.rcv)

/-- The side that falls through a clause (R47, R399), or goes where a LOOP of count 0 sends it (R398). -/
def Cur.fallSide (c : Cur) (m : Lanes) : Side :=
  match c.split.jump with
  | some a => ⟨m, a, c.split.loops⟩
  | none => let t := fallThrough c.split.loops c.split.next; ⟨m, t.2, t.1⟩
/-- The side that a branch sends to an address (R47, R399). -/
def Cur.takenSide (c : Cur) (m : Lanes) (a : DWord) : Side := ⟨m, a, takenLoops c.split.pc a c.split.loops⟩

/-- BRA (R350, R351). -/
def execBra (f : FmtB) (s : State) : Out :=
  onSplit s fun c =>
    let g := c.pass f.com
    let taken := match f.kind.toNat with
      | 0 => g
      | 1 => if g ≠ 0 then c.split.mask else 0
      | _ => if g = c.split.mask then c.split.mask else 0
    let falls := c.split.mask &&& ~~~taken
    let tgt := c.offset f.tgt
    if taken = 0 then s.put c.fall
    else if falls = 0 then s.put (c.goto tgt (c.takenSide taken tgt).loops)
    else
      match addSide [c.fallSide falls] (c.takenSide taken tgt) with
      | [one] => s.put (c.goto one.pc one.loops)
      | _ => s.branch c (c.fallSide falls) [c.takenSide taken tgt] true (c.joinPc f)

/-- BRX (R353). -/
def execBrx (f : FmtB) (s : State) : Out :=
  onSplit s fun c =>
    let g := c.pass f.com
    let reg := (f.tgt.extractLsb' 0 8).toNat
    let base := ((s.taskOf c.team).map (·.kimg)).getD 0
    let goal (l : Nat) : DWord := BitVec.ofNat 64 (base + (if f.kind = 1 then c.rdS reg else c.rdV l reg).toNat)
    if !(lanes g).all fun l => s.codeOk c (goal l) then s.protAt c 4
    else
      let sides := (lanes c.split.mask).foldl (fun ss l =>
        addSide ss (if g.getLsbD l then c.takenSide (laneBit l) (goal l) else c.fallSide (laneBit l))) []
      match sides with
      | [] => s.put c.fall
      | stay :: others => s.branch c stay others false (c.joinPc f)

/-- CALL (R357). -/
def execCall (f : FmtB) (s : State) : Out :=
  onSplit s fun c =>
    if !c.acts f.com then s.put c.fall
    else
      let base := ((s.taskOf c.team).map (·.kimg)).getD 0
      let tgt := if f.kind = 1 then BitVec.ofNat 64 (base + (c.rdS (f.tgt.extractLsb' 0 8).toNat).toNat) else c.offset f.tgt
      if f.kind = 1 && !s.codeOk c tgt then s.protAt c 4
      else s.put ({ c with group := c.group.wrPair 62 c.split.next }.goto tgt c.split.loops)

/-- RET (R435). -/
def execRet (f : FmtB) (s : State) : Out :=
  onSplit s fun c =>
    if !c.acts f.com then s.put c.fall
    else if !s.codeOk c (c.rdPair 62) then s.protAt c 4
    else s.put (c.goto (c.rdPair 62) c.split.loops)

/-- RET.t (R313): the handler ends, the trap entry record is put back, and the split goes on at TRAPPC. -/
def execRetT (f : FmtB) (s : State) : Out :=
  onSplit s fun c =>
    if !c.acts f.com then s.put c.fall
    else if !c.group.act then s.illop c 10
    else
      let regs := { c.group.regs with trapinfo := c.group.regs.trapinfo &&& 0x7FFFFFFFFFFFFFFF }
      let ridx := (c.group.trapEntry.map (·.ridx)).getD c.split.ridx
      let c := { c with group := { c.group with regs := regs, handler := none }
                        split := { c.split with entry := c.group.trapEntry, ridx := ridx } }
      s.put (c.goto c.group.regs.trappc c.split.loops)

/-- MERGE (R405, R54, R58): the split parks, or goes on when no lane passes. -/
def execMerge (f : FmtB) (s : State) : Out :=
  onSplit s fun c =>
    if !c.acts f.com then s.put c.fall
    else if !c.split.ovf.isEmpty then s.fatal c.ref .divdepth 3
    else
      let p := { c.split with opn := false, code := [], idx := 0, park := .merge (c.group.arrival c.ref.split), parked := 0 }
      (s.put { c with split := p }).mergeCheck c.ref

/-- LOOP (R397, R398). -/
def execLoop (f : FmtB) (s : State) : Out :=
  onSplit s fun c =>
    if !c.acts f.com then s
    else
      let x := c.offset f.tgt
      let n : Word := if f.kind = 1 then c.rdS (f.rcv.extractLsb' 0 8).toNat else f.rcv.setWidth 32
      let tooFar := match c.split.loops with
        | [] => false
        | l :: _ => l.exit.toNat < x.toNat
      if c.split.loops.length ≥ 3 || tooFar then s.illop c 10
      else if n = 0 then s.put { c with split := { c.split with jump := some x } }
      else s.put { c with split := { c.split with loops := ⟨c.split.next, x, n⟩ :: c.split.loops } }

/-- EXIT (R376, R53, R326): every lane of the split leaves; with nothing left it waits for its work in flight. -/
def execExit (f : FmtB) (s : State) : Out :=
  onSplit s fun c =>
    if !c.acts f.com then s.put c.fall
    else
      let g := { (c.group.dropLatches c.split.mask) with exited := c.group.exited ||| c.split.mask }
      let c := Cur.fallback { c with group := g, split := { c.split.yielded.close with mask := 0, left := false } }
      s.put (if c.split.mask = 0 then { c with split := { c.split with park := .exit, parked := 0 } } else c)

/-- YIELD (R465, R98): the effect comes when the clause ends. -/
def execYield (f : FmtB) (s : State) : Out :=
  onSplit s fun c => if c.acts f.com then s.put { c with split := { c.split with yld := true } } else s

/-- TRAP (R459): SWTRAP with the code as detail; TRAPPC is the next clause. -/
def execTrap (f : FmtS) (s : State) : Out :=
  onSplit s fun c =>
    if !c.acts f.com then s.put c.fall
    else
      let t := c.fall
      (s.put { t with split := { t.split with pc := c.split.pc } }).userTrap c.ref .swtrap (f.imm.setWidth 32) t.split.pc

/-- BKPT (R349, R314, R327). -/
def execBkpt (f : FmtB) (s : State) : Out :=
  onSplit s fun c =>
    let t := c.fall
    if !c.acts f.com then s.put t
    else match (s.ctx c.team.ctx).debug with
      | 0 => s.put t
      | 1 => (s.put { t with split := { t.split with pc := c.split.pc } }).userTrap c.ref .bkpt (f.rcv.setWidth 32) t.split.pc
      | _ =>
        (s.put { t with group := { t.group with halted := true } }).faultPush c.team.die c.team.ctx
          (faultRecord (trapInfo false c.ref.split 1 Cause.bkpt.code (f.rcv.setWidth 32)) t.split.pc (s.timeOf c.team.die)
            c.team.die c.team.core c.ref.group c.ref.split 3 0)

/-- The operand E of BAR and BARA (R344). -/
def barE (c : Cur) (f : FmtE) : Nat := if f.flg.getLsbD 7 then (c.rdS f.s0.toNat).toNat else f.flg.toNat % 64

/-- One arrival (R62, R63, R345): the new team and the phase number that must be reached for a wait on it, or none
where E is out of range. -/
def arrive (c : Cur) (b e : Nat) : Option (Cur × Nat) :=
  let k := c.team.bar b
  let inRange := 1 ≤ e && e ≤ 32
  let g := { c.group with clock := c.group.clock + 1 }
  if (mget? c.split.arr b).isSome then
    if !inRange then none
    else some ({ c with group := g, split := { c.split with held := mput c.split.held b (e, c.group.clock) } }, k.phase + 2)
  else
    let c' := { c with group := g, split := { c.split with arr := mput c.split.arr b (e, c.group.clock) } }
    if c'.newGroup.arrived b then
      if k.count = 0 && !inRange then none
      else
        let t := (Team.sweep b 64 c'.newTeam)
        match mget? t.groups c.ref.group with
        | some g => match mget? g.splits c.ref.split with
          | some p => some (⟨c.ref, t, g, p⟩, k.phase + 1)
          | none => none
        | none => none
    else some (c', k.phase + 1)

/-- BAR and BARA share all but the wait (R344, R62): an arrival held for the next phase waits for this one to
complete in either form, a BARA inside its clause and off its port (R64). -/
def barrierArrive (f : FmtE) (wait : Bool) (s : State) : Out :=
  onSplit s fun c =>
    let b := f.qb.toNat
    if b ≥ c.team.bars.length then s.illop c 10
    else if !c.acts f.com then (if wait then s.put c.fall else s)
    else match arrive c b (barE c f) with
      | none => s.illop c 10
      | some (d, target) =>
        let d := if wait then d.fall else d
        let target := if wait then target else target - 1
        let held := (mget? c.split.arr b).isSome
        if (wait || held) && (d.team.bar b).phase < target then
          s.put { d with split := { d.split with park := .bar b target, parked := 0, waits := !wait } }
        else s.put d

/-- BAR (R344). -/
def execBar (f : FmtE) (s : State) : Out := barrierArrive f true s
/-- BARA (R344). -/
def execBara (f : FmtE) (s : State) : Out := barrierArrive f false s

/-- BARW (R344, R64): waits until the phase in which the group last arrived has completed. -/
def execBarw (f : FmtE) (s : State) : Out :=
  onSplit s fun c =>
    let b := f.qb.toNat
    if b ≥ c.team.bars.length then s.illop c 10
    else
      let t := c.fall
      match mget? c.group.phase b with
      | some n =>
        if c.acts f.com && (c.team.bar b).phase ≤ n then
          s.put { t with split := { t.split with park := .bar b (n + 1), parked := 0 } }
        else s.put t
      | none => s.put t

end Sys2Proof.Machine
end

