-- ==== Sys2Proof/Machine/Clause.lean ====
section
/-! DEFINITION. Clauses: fetching and checking one (R101 to R107, R122, R129, R130), when a split may begin one
(R94, R95, R98), the parks before it (R57), and the events that end parks, merges and exits. -/
namespace Sys2Proof.Machine

/-- N, CLS, DX, YLD, RIDX of a clause header (R102). -/
def hdrN (h : DWord) : Nat := field h 0 4
def hdrCls (h : DWord) : Nat := field h 4 3
def hdrDx (h : DWord) : Bool := h.getLsbD 7
def hdrYld (h : DWord) : Bool := h.getLsbD 32
def hdrRidx (h : DWord) : Nat := field h 35 12

/-- A wait threshold is met: 15 waits for nothing (R109). -/
def waitMet (v n : Nat) : Bool := v = 15 || n ≤ v
/-- Every wait threshold of a header is met (R102, R109). -/
def waitsMet (h : DWord) (k : Ctrs) : Bool :=
  waitMet (field h 8 4) k.ldc.length && waitMet (field h 12 4) k.stc.length && waitMet (field h 16 4) k.cpc.length &&
  waitMet (field h 20 4) k.mxc.length && waitMet (field h 24 4) k.enc.length && waitMet (field h 28 4) k.rmc.length

/-- The bytes of a clause (R101, R122). -/
def clauseBytes (h : DWord) : Nat := 8 + 8 * (if hdrDx h then (hdrN h + 4) / 4 else hdrN h + 1)

/-- Why a clause cannot begin. -/
inductive ClauseBad where
  | prot (kind : Nat)
  | trans (e : Trans) (va : Nat)
  /-- A word that has not come from another package's page yet (R180). -/
  | away (p : Place)
  | ill (cause : Cause) (idx : Option Nat) (reason : Nat)
deriving DecidableEq, Repr

/-- One word of the code section fetched with EX (R178). -/
def State.fetchCode (s : State) (c : Cur) (a : DWord) : Except ClauseBad DWord :=
  match s.translateAt c.team.coreKey c.team.die c.team.ctx a { ex := true } with
  | .ok (.hbm pa) _ => .ok (s.hbmWord pa)
  | .ok (.peer pkg off) _ => match s.askedBytes (some c.ref.team) pkg off 8 with
    | some b => .ok (BitVec.ofNat 64 (natOfBytes b))
    | none => .error (.away (.peer pkg off))
  | .ok _ _ => .error (.prot 1)
  | e => .error (.trans e a.toNat)

/-- The header at a split's PC (R107). -/
def State.header (s : State) (c : Cur) : Except ClauseBad DWord :=
  if s.codeOk c c.split.pc then s.fetchCode c c.split.pc else .error (.prot 4)

/-- The class of an opcode (R103); 6 for an unassigned one. NOP's is 0. -/
def opClass (op : Nat) : Nat :=
  if op ≤ 0x15 || (0x20 ≤ op && op ≤ 0x25) || (0x28 ≤ op && op ≤ 0x33) || (0x38 ≤ op && op ≤ 0x3B) ||
    (0x81 ≤ op && op ≤ 0xA5) then 0
  else if 0x40 ≤ op && op ≤ 0x4B then 1
  else if 0x5C ≤ op && op ≤ 0x5F then 2
  else if 0x60 ≤ op && op ≤ 0x6C then 3
  else if 0x70 ≤ op && op ≤ 0x75 then 5
  else if (0x50 ≤ op && op ≤ 0x58) || 0xC0 ≤ op then 4
  else 6

/-- The opcode is an instruction of the opcode map (R122 Assigned, R128): the reason it is not, else none. -/
def opMissing (w : DWord) : Option Nat :=
  match decodeWord w with
  | .error 1 => some 1
  | .error 2 => some 2
  | _ => none

/-- A class admits an opcode (R103). -/
def opAdmitted (cls op : Nat) : Bool := op = 0 || opClass op = cls || (cls = 6 && opClass op ≤ 1)

/-- The opcode may stand only last in its clause (R104): commit points in any class, transfers in a control clause. -/
def opLast (cls op : Nat) : Bool :=
  [0x43, 0x44, 0x45, 0x46].contains op || opClass op = 4 ||
  (cls = 3 && [0x60, 0x61, 0x62, 0x63, 0x66, 0x68, 0x69, 0x6A, 0x6C].contains op)

/-- The register uses that field [23:16] makes, for a displaced word (R122): none where it names no register. -/
def dispUses (i : Instr) : List RegUse :=
  let rs := i.check.regs
  match i with
  | .nop _ | .fence _ | .pref _ | .stashw _ | .stashu _ | .bufrel _ | .lnstop _ | .epload _ | .barw _
  | .movsrWrite _ | .setfmt _ | .trap _ | .bra _ | .brx _ | .call _ | .ret _ | .retT _ | .merge _ | .loop _
  | .exit _ | .yield _ | .bkpt _ => []
  | .bar f | .bara f => if f.flag 7 then rs else []
  | .mdrain _ => (rs.drop 1).take 1
  | .vote _ | .stashm _ => (rs.drop 1).take 1
  | .stcnd _ | .atcas _ | .wreg _ => rs.take 2
  | _ => rs.take 1

/-- Opcodes whose entry never names a register in [23:16] (R122): format B, and entries that leave the field unused. -/
def unnamed : List Nat :=
  [0x00, 0x47, 0x48, 0x4A, 0x4B, 0x56, 0x58, 0x5F, 0x60, 0x61, 0x62, 0x63, 0x64, 0x65, 0x66, 0x67, 0x68, 0x69, 0x6C, 0x75]

/-- The bits that the format of an opcode holds zero (R115, R116): a displaced register is looked at before them. -/
def zeroBits (op : Nat) : DWord := if op = 0x15 then 0xFE000000 else if 0x40 ≤ op && op ≤ 0x4B then 0x00E0000000000000 else 0

/-- One dictionary code expanded (R122): the word, or the reason. -/
def expandCode (dict : List DWord) (bud : Nat) (code : BitVec 16) : Except Nat DWord :=
  let disp := (code.extractLsb' 10 6).toNat
  match dict[(code.extractLsb' 0 10).toNat]? with
  | none => .error 8
  | some w =>
    match opMissing w with
    | some r => .error r
    | none =>
      if disp = 0 then .ok w else
      let d := field w 16 8 + disp
      if unnamed.contains (field w 0 8) || d > 255 then .error 9 else
      let w' := (w &&& ~~~(0xFF0000 : DWord)) ||| (BitVec.ofNat 64 d <<< 16)
      match decodeWord (w' &&& ~~~zeroBits (field w 0 8)) with
      | .error r => .error r
      | .ok i =>
        let us := dispUses i
        if us.isEmpty || !us.all (RegUse.legal bud) then .error 9 else .ok w'

/-- The words of a clause: those that follow its header, or their expansion (R101, R122). The second part is the
index of the first nonzero unused code. -/
def State.clauseWords (s : State) (c : Cur) (h : DWord) : Except ClauseBad (List (Except Nat DWord) × Option Nat) := do
  let n := hdrN h + 1
  let raw ← (List.range ((clauseBytes h - 8) / 8)).mapM fun j => s.fetchCode c (c.split.pc + BitVec.ofNat 64 (8 + 8 * j))
  if !hdrDx h then .ok (raw.map .ok, none) else
  let codes := raw.flatMap fun w => (List.range 4).map fun q => w.extractLsb' (16 * q) 16
  let dict := (((s.core c.team.coreKey).dicts.find? fun d =>
    d.1 = c.team.ctx && some d.2.1 = (s.taskOf c.team).map (·.kimg)).map (·.2.2)).getD []
  let extra := ((List.range codes.length).find? fun i => n ≤ i && (codes[i]?).getD 0 != 0)
  .ok ((codes.take n).map (expandCode dict c.group.budget), extra)

/-- The checks of R129 on one word of a clause, in this model's order (log 10). -/
def checkWord (c : Cur) (h next : DWord) (i : Nat) (w : DWord) : Option ClauseBad :=
  let op := field w 0 8
  match opMissing w with
  | some r => some (.ill .illop (some i) r)
  | none =>
    if !opAdmitted (hdrCls h) op then some (.ill .illclause (some i) 2) else
    match decodeWord w with
    | .error r => some (.ill .illop (some i) r)
    | .ok ins =>
      match ins.illegal c.group.budget with
      | some r => some (.ill .illop (some i) r)
      | none =>
        match ins with
        | .loop f => if (c.offset f.tgt).toNat < next.toNat then some (.ill .illop (some i) 10) else none
        | .bar f | .bara f | .barw f => if c.team.bars.length ≤ f.qb.toNat then some (.ill .illop (some i) 10) else none
        | _ => none

/-- The checks of a header (R102, R103, R105, R106, R129). -/
def checkHeader (c : Cur) (rgnCnt : Nat) (h : DWord) : Option ClauseBad :=
  if field h 47 17 ≠ 0 || (hdrRidx h ≠ 0 && !headerRe h) || (headerRe h && hdrRidx h ≥ rgnCnt) then
    some (.ill .illop none 4)
  else if hdrCls h = 7 then some (.ill .illclause none 1)
  else if c.split.needRe && !headerRe h then some (.ill .illclause none 4)
  else none

/-- The position rules (R104, R319) over expanded words. -/
def checkPositions (h : DWord) (ws : List (Except Nat DWord)) : Option ClauseBad :=
  (ws.zipIdx).findSome? fun wi =>
    match wi.1 with
    | .error _ => none
    | .ok w =>
      if (opMissing w).isSome then none else
      let op := field w 0 8
      if (op = 0x64 && (hdrN h ≠ 0 || !headerRe h)) || (opLast (hdrCls h) op && wi.2 < hdrN h) then
        some (.ill .illclause (some wi.2) 3)
      else none

/-- A whole clause checked in the order of R130: its words and the address after it. -/
def State.checkClause (s : State) (c : Cur) (h : DWord) : Except ClauseBad (List DWord × DWord) := do
  let next := c.split.pc + BitVec.ofNat 64 (clauseBytes h)
  let k ← match s.taskOf c.team with | some k => pure k | none => .error (.prot 4)
  if next.toNat > k.kimg + k.constOff then .error (.prot 4)
  match checkHeader c k.rgnCnt h with | some e => .error e | none => pure ()
  let (ws, extra) ← s.clauseWords c h
  match checkPositions h ws with | some e => .error e | none => pure ()
  let words ← (ws.zipIdx).mapM fun wi =>
    match wi.1 with
    | .error r => .error (.ill .illop (some wi.2) r)
    | .ok w => match checkWord c h next wi.2 w with | some e => .error e | none => .ok w
  match extra with
  | some i => .error (.ill .illop (some i) 8)
  | none => .ok (words, next)

/-- The trap that a bad clause raises, precise at the clause (R130); a word that is away is asked for (R180). -/
def State.clauseTrap (s : State) (c : Cur) (e : ClauseBad) : State :=
  match e with
  | .prot k => s.fatal c.ref .prot (BitVec.ofNat 32 (256 * k))
  | .trans .pageflt va => s.pageflt c.ref va
  | .trans (.prot k) _ => s.fatal c.ref .prot (BitVec.ofNat 32 (256 * k))
  | .trans (.ok _ _) _ => s
  | .away p => (s.needPeers (.split c.ref.group c.ref.split) (some c.ref.team) c.team.ctx [(p, 8)]).getD s
  | .ill cause idx r => s.fatal c.ref cause (illDetail idx r)

/-- The slices of a slot that hold lanes of a split (R94). -/
def Cur.slices (c : Cur) : Lanes := maskOf 0xFFFF fun k => (lanes c.split.mask).any fun l => c.group.base + l / 4 = k

/-- Every split with its group and team. -/
def State.allSplits (s : State) : List Cur :=
  s.teams.flatMap fun t => t.2.groups.flatMap fun g => g.2.splits.map fun p => ⟨⟨t.1, g.1, p.1⟩, t.2, g.2, p.2⟩

/-- Two splits of one slot. -/
def sameSlot (a b : Cur) : Bool :=
  a.ref ≠ b.ref && a.team.status ≠ .saved && b.team.status ≠ .saved && a.team.coreKey = b.team.coreKey &&
  a.group.slot = b.group.slot

/-- The waits of a split's next clause are met (R109); a header that cannot be read holds nothing up. -/
def State.headerMet (s : State) (c : Cur) : Bool :=
  match s.header c with | .ok h => waitsMet h c.split.ctrs | .error _ => true

/-- A word of the split's clause has been asked for at another package and has not come (R180). -/
def State.fetching (s : State) (c : Cur) : Bool :=
  s.fab.asks.any fun a => a.who = .split c.ref.group c.ref.split && a.team = some c.ref.team && a.got.isNone

/-- A split that stands at a boundary, neither parked nor halted, whose next clause's waits are met: ready, but for a hold-off
(R94). -/
def State.standsReady (s : State) (c : Cur) : Bool :=
  !s.fetching c &&
  c.team.status = .resident && !c.split.opn && !c.owes && c.split.park = .none && c.split.mask ≠ 0 &&
  (!c.group.halted || c.split.step) && s.headerMet c

/-- The slices of two entries overlap. -/
def Cur.overlaps (c d : Cur) : Bool := c.slices &&& d.slices != 0

/-- An entry is ready (R94): a hold-off keeps it while another entry that no hold-off keeps is ready on its slices (R98).
`mates` are the other entries of its slot. -/
def State.ready (s : State) (mates : List Cur) (c : Cur) : Bool :=
  s.standsReady c &&
  (c.split.hold = 0 || !mates.any fun d => d.ref ≠ c.ref && d.split.hold = 0 && c.overlaps d && s.standsReady d)

/-- The other entries of a split's slot, as they stand before their next clauses (R94). -/
def State.mates (s : State) (c : Cur) : List Cur := (s.allSplits.filter (sameSlot c)).map (·.bound)

/-- The entry holds a port and its slices: its clause is open, and it does not wait inside it at a barrier (R95, R64). -/
def Cur.holdsPort (c : Cur) : Bool := c.split.opn && !c.split.waits

/-- The arbiter's order (R95): the older entry first, then the lower base slice, then the lower split index. -/
def Cur.before (c d : Cur) : Bool :=
  d.split.age < c.split.age || (c.split.age = d.split.age && (c.group.base < d.group.base ||
    (c.group.base = d.group.base && c.ref.split < d.ref.split)))

/-- An entry put into a list in the arbiter's order, before those that the order does not tell from it (log 98). -/
def insertEntry (c : Cur) : List Cur → List Cur
  | [] => [c]
  | d :: ds => if d.before c then d :: insertEntry c ds else c :: d :: ds

/-- The arbiter fills its free ports (R95): of the entries in order, with `ports` left and the slices `taken`, the names of those
that start. `first` marks the head of the order, which reserves its slices when it cannot start. -/
def fillPorts : List Cur → Nat → Lanes → Bool → List Ref
  | [], _, _, _ => []
  | e :: es, ports, taken, first =>
    if ports = 0 then []
    else if e.slices &&& taken = 0 then e.ref :: fillPorts es (ports - 1) (taken ||| e.slices) false
    else fillPorts es ports (if first then taken ||| e.slices else taken) false

/-- The slices that entries hold. -/
def slicesOf (es : List Cur) : Lanes := es.foldl (fun m d => m ||| d.slices) 0

/-- The arbiter starts a clause of the entry in this cycle (R94, R95, R98); among entries of one age, base slice and split index
the one whose turn it is goes first (log 98). -/
def State.portFree (s : State) (c : Cur) : Bool :=
  let mates := s.mates c
  let busy := mates.filter (·.holdsPort)
  let es := ((c :: mates).filter fun d => s.ready (c :: mates) d).foldr insertEntry []
  (fillPorts es (4 - busy.length) (slicesOf busy) true).contains c.ref

/-- A port is free for an entry that goes on inside its clause after a wait: one of the four, and its slices (R64, R95). -/
def State.portOpen (s : State) (c : Cur) : Bool :=
  let busy := (s.mates c).filter (·.holdsPort)
  busy.length < 4 && slicesOf busy &&& c.slices = 0

/-- Another split of the group is ready and is refused a port (R66). -/
def State.refuses (s : State) (c : Cur) : Bool :=
  c.group.splits.any fun q => q.1 ≠ c.ref.split &&
    (let d := (c.sibling q.1 q.2).bound
     s.ready (s.mates d) d && !s.portFree d)

/-- A split has issued for FAIRTIME cycles while a ready sibling was refused a port: it yields before its next clause (R66). -/
def State.mustYield (s : State) (c : Cur) : Bool :=
  (s.die c.team.die).fairtime.toNat ≤ c.split.cont &&
  c.group.splits.any fun q => q.1 ≠ c.ref.split &&
    (let d := (c.sibling q.1 q.2).bound
     s.ready (s.mates d) d)

/-- Whether a split stops at the reconvergence PC before it (R57, R319). -/
def Cur.parksHere (c : Cur) (re : Bool) : Bool :=
  re && !c.split.left && c.group.splits.length > 1 &&
  ((c.split.drec.bind fun r => mget? c.group.recs r).bind (·.x)) = some c.split.pc

/-- The clause begins: a region entry writes the entry record (R106, R317), and the port holds the words (R95). -/
def Cur.openClause (c : Cur) (h : DWord) (words : List DWord) (next : DWord) : Cur :=
  let p := c.split
  let p := if headerRe h then { p with ridx := hdrRidx h } else p
  let entry := if headerRe h || p.entry.isNone then some (p.here p.ridx) else p.entry
  { c with
    group := if headerRe h then c.group.dropLatches p.allLanes else c.group
    split := { p with
      entry := entry, foreign := if headerRe h || p.entry.isNone then [] else p.foreign, needRe := false, opn := true, code := words, idx := 0, next := next, yld := hdrYld h
      age := 0, hold := 0, left := false, step := false, hit := false, passed := false, seen := []
      staleV := if headerRe h then p.lost else p.staleV, lost := if headerRe h then [] else p.lost } }

/-- A breakpoint address of the context, in debug mode 2 (R327). -/
def State.atBreak (s : State) (c : Cur) : Bool :=
  (s.ctx c.team.ctx).debug = 2 && !c.split.passed && !c.split.step && (s.ctx c.team.ctx).breaks.contains c.split.pc

/-- The halt of a group, reported as a fault record of kind 3 with cause BKPT (R327). -/
def State.haltGroup (s : State) (c : Cur) : State :=
  (s.put { c with group := { c.group with halted := true } }).faultPush c.team.die c.team.ctx
    (faultRecord (trapInfo false c.ref.split 1 Cause.bkpt.code 0) c.split.pc (s.timeOf c.team.die) c.team.die
      c.team.core c.ref.group c.ref.split 3 0)

/-- A split at a boundary begins its next clause (R130), after the fallback moves of R53 and the park of R57. It does so only
when it is ready, `port` says that the arbiter starts it (R94, R95), no yield is due (R66), and no sibling stands ready to merge with
it (R55). -/
def State.startClause (s : State) (r : Ref) (port : Cur → Bool) : State :=
  match s.lookup? r with
  | none => s
  | some c =>
    if c.team.status ≠ .resident || c.split.opn || c.owes || (c.group.halted && !c.split.step) then s else
    match c.split.park with
    | .handler cause detail resume =>
      if c.group.act then s
      else (s.put { c with split := { c.split with park := .none } }).userTrap r cause detail resume
    | .none =>
      let c := c.bound
      if c.split.mask = 0 then s.put { c with split := { c.split with park := .exit, parked := 0 } } else
      if (s.mergePartner c).isSome then s else
      if s.atBreak c then s.haltGroup { c with split := { c.split with hit := true } } else
      match s.header c with
      | .error e => if port c then (s.put c).clauseTrap c e else s
      | .ok h =>
        if c.parksHere (headerRe h) then s.put { c with split := { c.split with park := .reconv, parked := 0, step := false } }
        else if !waitsMet h c.split.ctrs || s.mustYield c || !port c then s
        else match s.checkClause c h with
          | .error e => (s.put c).clauseTrap c e
          | .ok (ws, next) => (s.put (c.openClause h ws next)).fetchRecall c.team.die c.team.ctx c.split.pc.toNat (clauseBytes h)
    | _ => s

/-- As `startClause`, where the arbiter is asked (R95). -/
def State.beginClause (s : State) (r : Ref) : State := s.startClause r s.portFree

/-- CLAUSE_BEGIN (R130). -/
def execClauseBegin (r : Ref) (s : State) : Out := .next (s.beginClause r)

/-- SPLIT_MERGE (R55, R56): two splits of a group that stand at one region entry. -/
def execSplitMerge (r : Ref) (other : Nat) (s : State) : Out :=
  .next (match s.lookup? r with
    | some c =>
      if c.team.status = .resident && ((mget? c.group.splits other).map fun q => s.mergesWith c (c.sibling other q)).getD false
      then s.mergeTwo r other else s
    | none => s)

/-- MERGE_COMPLETE (R58). -/
def execMergeComplete (team group : Nat) (s : State) : Out :=
  .next (match (mget? s.teams team).map (·.status) with
    | some TeamStatus.resident => s.mergeAll team group
    | _ => s)

/-- Every other live split of the group is parked at a reconvergence PC, a MERGE or a barrier, or waits on its own completion
counters: at the header of its next clause, or with nothing left to issue (R57). -/
def State.othersParked (s : State) (c : Cur) : Bool :=
  c.group.splits.all fun q => q.1 = c.ref.split || match q.2.park with
    | .reconv | .merge _ | .bar _ _ | .exit => true
    | .none => !q.2.opn && !s.headerMet (c.sibling q.1 q.2).bound
    | _ => false

/-- PARK_TIMEOUT (R57, R60): the park at a reconvergence PC ends unmerged. -/
def execParkTimeout (r : Ref) (s : State) : Out :=
  .next (match s.lookup? r with
    | some c =>
      if c.team.status = .resident && c.split.park = .reconv && !c.group.halted && (s.mergePartner c).isNone &&
        (s.othersParked c || (s.die c.team.die).fairtime.toNat ≤ c.split.parked)
      then s.put { c with split := { c.split with park := .none, parked := 0, left := true } } else s
    | none => s)

/-- FAIRNESS_YIELD (R66, R98): after FAIRTIME cycles of issue while a ready sibling was refused a port, the split yields after
its clause. -/
def execFairnessYield (r : Ref) (s : State) : Out :=
  .next (match s.lookup? r with
    | some c =>
      if s.mustYield c
      then s.put { c with split :=
        if c.split.opn then { c.split with yld := true, cont := 0 } else { c.split with age := 0, hold := 64, cont := 0 } }
      else s
    | none => s)

/-- SPLIT_EXIT_COMPLETE (R326, R50). -/
def execSplitExitComplete (r : Ref) (s : State) : Out :=
  .next (match s.lookup? r with
    | some c => if c.split.park = .exit && c.split.drained then (s.endSplit r).settle r.team else s
    | none => s)

end Sys2Proof.Machine
end

