-- ==== Sys2Proof/Machine/Convert.lean ====
section
/-! DEFINITION. Conversions (R162, R163, R363 to R365, R416, R460). -/
namespace Sys2Proof.Machine

/-- FMT.SAT (R151). -/
def Split.fmtSat (p : Split) : Bool := p.fmt.getLsbD 7
/-- FMT.RND (R151). -/
def Split.fmtRnd (p : Split) : Nat := p.fmt.toNat / 256 % 4

/-- The modifiers of a conversion (R363). -/
structure CvtMods where
  mode : Nat := 0
  sat  : Bool := false
  ftz  : Bool := false
  neg  : Bool := false
  abs  : Bool := false
deriving DecidableEq, Repr

/-- A narrowing to e4m3 saturates by FMT.SAT too (R152). -/
def satFor (t : Ty) (sat fmtSat : Bool) : Bool := sat || (t == .e4m3x4 && fmtSat)

/-- One element of type `src` converted to type `dst` (R364). -/
def cvtElem (dst src : Ty) (k : CvtMods) (fmtSat : Bool) (n : Nat) : Nat :=
  let fin : FVal :=
    let v := (floatFmt src).input k.ftz n
    let v := if k.abs then v.abs else v
    if k.neg then v.neg else v
  let i := toInt src.signed src.width n
  if dst.isFp then
    (floatFmt dst).result k.mode (satFor dst k.sat fmtSat) k.ftz (if src.isFp then fin else .ofInt i 0)
  else if src.isFp then wrapInt dst.width (fin.toIntSat k.mode dst.signed dst.width)
  else if k.sat && (dst.width < src.width || (dst.width = src.width && dst.signed ≠ src.signed)) then
    intBits dst true i
  else wrapInt dst.width i

/-- The source type of CVT, C[43:40] (R363). -/
def FmtR.cvtSrc (f : FmtR) : Ty := Ty.ofBits (f.c.extractLsb' 0 4)
/-- The modifiers of CVT, CVTEF and PACK4. -/
def FmtR.cvtMods (f : FmtR) : CvtMods :=
  { mode := FmtR.mode f, sat := FmtR.sat f, ftz := FmtR.ftz f, neg := f.m.getLsbD 3, abs := f.m.getLsbD 5 }

/-- All the elements of a CVT (R363): element by element between packed types, element 0 otherwise. -/
def cvtAll (f : FmtR) (fmtSat : Bool) (a : DWord) : DWord :=
  let src := FmtR.cvtSrc f
  let n := if src.elems = 1 then 1 else f.t.elems
  packElems f.t.width n fun i => cvtElem f.t src (FmtR.cvtMods f) fmtSat (elem a src.width i)

/-- CVT (R363, R364). -/
def execCvt (f : FmtR) (s : State) : Out :=
  aluR f f.t.is64 s fun c l => cvtAll f c.split.fmtSat (c.src f.as (FmtR.cvtSrc f).is64 f.a l)

/-- Error-feedback narrowing of an f32 (R163): the residual above, the narrow value below. -/
def cvtef (t : Ty) (k : CvtMods) (fmtSat : Bool) (a : Word) : DWord :=
  let ff := floatFmt t
  let x := f32Fmt.input k.ftz a.toNat
  let n := ff.result k.mode (satFor t k.sat fmtSat) k.ftz x
  let r := match ff.decode n with
    | .fin b m e => f32Fmt.result 0 false k.ftz (x.add 0 (FVal.fin (!b) m e))
    | _ => 0
  mkPair (BitVec.ofNat 32 r) (BitVec.ofNat 32 n)

/-- CVTEF (R365): the narrow value to D, the residual to D + 1. -/
def execCvtef (f : FmtR) (s : State) : Out :=
  aluR f true s fun c l => cvtef f.t (FmtR.cvtMods f) c.split.fmtSat (loWord (c.src f.as false f.a l))

/-- PACK4 of four registers (R416). -/
def pack4 (t : Ty) (k : CvtMods) (fmtSat : Bool) (v : Nat → Word) : DWord :=
  packElems 8 4 fun i =>
    if t.isFp then cvtElem t .f32 k fmtSat (v i).toNat
    else intBits t k.sat (toInt t.signed 32 (v i).toNat)

/-- PACK4 (R416). -/
def execPack4 (f : FmtR) (s : State) : Out :=
  aluR f false s fun c l =>
    pack4 f.t (FmtR.cvtMods f) c.split.fmtSat fun i => loWord (c.src f.as false (f.a + BitVec.ofNat 8 i) l)

/-- Element `i` of a packed register in 32 bits (R460). -/
def unpk4 (t : Ty) (a : DWord) (i : Nat) : Nat :=
  let n := elem a 8 i
  if t.isFp then f32Fmt.round 0 false ((floatFmt t).decode n) else wrapInt 32 (toInt t.signed 8 n)

/-- UNPK4 (R460): four registers from D on. A is read before any of them is written. -/
def execUnpk4 (f : FmtR) (s : State) : Out :=
  onSplit s fun c => s.put ((List.range 4).foldl (fun d i =>
    d.wrDest f.com f.ds false (f.d + BitVec.ofNat 8 i) fun l =>
      BitVec.ofNat 64 (unpk4 f.t (c.src f.as false f.a l) i)) c)

end Sys2Proof.Machine
end

