-- ==== Sys2Proof/Machine/Matrix.lean ====
section
/-! DEFINITION. MMA and MMAS (R228 to R236, R406 to R408) with their arithmetic (R153 to R155, R164 to R167), the matrix queue, and the
events MATRIX_PASS_START and MATRIX_OP_COMPLETE. -/
namespace Sys2Proof.Machine

/-! ### Arithmetic -/

/-- The format of a floating source type: 0 e4m3, 1 e5m2, 2 bf16, 3 f16 (R117). -/
def matFmt (ty : Nat) : FloatFmt :=
  match ty with | 0 => e4m3Fmt | 1 => e5m2Fmt | 2 => bf16Fmt | _ => f16Fmt
/-- Elements of a register: four of 8 bits, two of 16 (R229). -/
def matElems (ty : Nat) : Nat := if ty = 2 || ty = 3 then 2 else 4
/-- K of a shape (R229). -/
def matK (shape : Nat) : Nat := match shape with | 0 => 64 | 1 => 32 | _ => 128

/-- The value of special terms, if any is special (R165). -/
def specialOf (ts : List FVal) : Option FVal :=
  if ts.any fun t => t = .nan then some .nan
  else
    let pos := ts.any fun t => t = .inf false
    let neg := ts.any fun t => t = .inf true
    if pos && neg then some .nan else if pos then some (.inf false) else if neg then some (.inf true) else none

/-- The sum of finite terms, each truncated to 47 places below the largest (R164). -/
def alignedSum (ts : List FVal) : FVal :=
  let nz := ts.filterMap fun t => match t with | .fin n m e => if m = 0 then none else some (n, m, e) | _ => none
  match nz with
  | [] => .fin (ts.all (·.sign)) 0 0
  | (_, m0, e0) :: _ =>
    let top := nz.foldl (fun (a : Int) t => max a ((Nat.log2 t.2.1 : Int) + t.2.2)) ((Nat.log2 m0 : Int) + e0)
    let q := top - 47
    let sum := nz.foldl (fun (a : Int) t =>
      let k : Int := shiftRound 1 false t.2.1 (q - t.2.2)
      if t.1 then a - k else a + k) 0
    .ofInt sum q

/-- One element of an MMA with floating-point sources (R164, R165). -/
def mmaFloat (ty acc : Nat) (a b : List Nat) (d : Option Nat) : Nat :=
  let af := if acc = 2 then f16Fmt else f32Fmt
  let ts := (a.zip b).map fun x => ((matFmt ty).decode x.1).mul ((matFmt ty).decode x.2)
  let ts := match d with | some v => ts ++ [af.decode (v % 2 ^ (if acc = 2 then 16 else 32))] | none => ts
  af.round 0 false ((specialOf ts).getD (alignedSum ts))

/-- One element of an MMA with s8 sources and an s32 accumulator (R166). -/
def mmaInt (a b : List Nat) (d : Option Nat) : Nat :=
  wrapInt 32 ((a.zip b).foldl (fun x y => x + toInt true 8 y.1 * toInt true 8 y.2) (toInt true 32 (d.getD 0)))

/-- One element of an MMA (R164 to R166). -/
def mmaElem (ty acc : Nat) (a b : List Nat) (d : Option Nat) : Nat :=
  if ty = 4 then
    if acc = 1 then mmaInt a b d
    else Config.mmaS8Float acc a b d % 2 ^ (if acc = 2 then 16 else 32)
  else mmaFloat ty acc a b d

/-- The value of a scale word (R153). -/
def scaleVal (mode : Nat) (w : Word) : FVal :=
  if mode = 0 then f32Fmt.decode w.toNat
  else if w.toNat % 256 = 255 then .nan
  else .fin false 1 ((w.toNat % 256 : Nat) - 127)

/-- One element of an MMAS (R167). -/
def mmasElem (ty : Nat) (a b : List Nat) (d : Option Nat) (sa sb : FVal) : Nat :=
  let partialSum := (a.zip b).foldl (fun (acc : Option FVal) x =>
    let p := ((matFmt ty).decode x.1).mul ((matFmt ty).decode x.2)
    some (match acc with | none => p | some v => v.add 0 p)) none
  let promoted := f32Fmt.round 0 false ((((partialSum).getD (.fin false 0 0)).mul sa).mul sb)
  match d with
  | some v => f32Fmt.round 0 false ((f32Fmt.decode v).add 0 (f32Fmt.decode promoted))
  | none => promoted

/-- Element a(j, k) of the registers of an octet's lanes (R229). -/
def fragA (ty : Nat) (ws : List (List Word)) (j k : Nat) : Nat :=
  let e := matElems ty
  elem ((((ws[j]?).getD [])[k / e]?).getD 0 |>.setWidth 64) (32 / e) (k % e)
/-- Element b(k, n) of the registers of an octet's lanes (R229). -/
def fragB (ty : Nat) (ws : List (List Word)) (k n : Nat) : Nat :=
  let e := matElems ty
  elem ((((ws[k % 8]?).getD [])[k / 8 * (16 / e) + n / e]?).getD 0 |>.setWidth 64) (32 / e) (n % e)

/-- The elements of B in order of k and then n, from a function of both. -/
def tileElems (kk : Nat) (b : Nat → Nat → Nat) : List Nat :=
  (List.range kk).flatMap fun k => (List.range 16).map fun n => b k n

/-- The incoming and outgoing values of an operation: row `j`, column `n` (R407). -/
def MatOp.element (o : MatOp) (elems : List Nat) (j n : Nat) (d : Option Nat) : Nat :=
  let kk := matK o.shape
  let a := (List.range kk).map fun k => fragA o.ty o.a j k
  let b := (List.range kk).map fun k => (elems[16 * k + n]?).getD 0
  match o.scales with
  | none => mmaElem o.ty o.acc a b d
  | some sc => mmasElem o.ty a b d (scaleVal sc.mode ((sc.a[j]?).getD 0)) (scaleVal sc.mode sc.b)

/-! ### Issue -/

/-- The octets of a split that issue, or the mask of those that are partly active (R228). -/
def Cur.octets (c : Cur) (k : Com) : Except (BitVec 32) (List Nat) :=
  let m := c.pass k
  let os := List.range (c.group.width / 8)
  let n (o : Nat) : Nat := ((lanes (m &&& octetLanes o))).length
  let bad := os.filter fun o => n o ≠ 0 && n o ≠ 8
  if bad.isEmpty then .ok (os.filter fun o => n o = 8)
  else .error (BitVec.ofNat 32 (bad.foldl (fun a o => a + 2 ^ o) 0))

/-- Registers of an octet's lanes as the split reads them: `n` from register `r`. -/
def Cur.fragment (c : Cur) (o r n : Nat) : List (List Word) :=
  (List.range 8).map fun j => (List.range n).map fun i => c.rdV (8 * o + j) (r + i)

/-- The resolved source type and accumulator type (R117). -/
def Cur.matTypes (c : Cur) (f : FmtX) : Nat × Nat :=
  (if f.ta = 7 then c.split.fmt.toNat % 8 else f.ta.toNat, if f.tc = 3 then c.split.fmt.toNat / 8 % 4 else f.tc.toNat)

/-- The type rules checked at issue (R117, R235, R406). -/
def matTypesOk (mmas : Bool) (ty acc shape : Nat) : Bool :=
  ty ≤ 4 && acc ≤ 2 && ((ty = 2 || ty = 3) == (shape = 1)) && (acc ≠ 1 || ty = 4) && (!mmas || (ty ≤ 1 && acc = 0))

/-- The bytes of a B tile by rows, and the least legal pitch (R230). -/
def tileRows (shape ty : Nat) (cols : Bool) : Nat × Nat :=
  let z := if matElems ty = 2 then 2 else 1
  if cols then (16, matK shape * z) else (matK shape, 16 * z)

/-- A local tile is legal (R230): none, or the reason or PROT kind. -/
def Team.tileBad (t : Team) (a p shape ty : Nat) (cols : Bool) : Option (Bool × Nat) :=
  let r := tileRows shape ty cols
  if a % 16 ≠ 0 || p % 16 ≠ 0 || p < r.2 then some (false, 10)
  else if t.bytes < a + (r.1 - 1) * p + r.2 || (List.range r.1).any (fun i => t.inWindow (a + i * p) r.2) then some (true, 6)
  else none

/-- The geometry fields of SCGA and SCGB (R154): LOGW, BR, BC. -/
def scaleGeom (w : Word) : Nat × Nat × Nat := (w.toNat % 32, w.toNat / 32 % 32, w.toNat / 1024 % 32)

/-- The address of the scale of an element (R155); none where a condition of R155 breaks. -/
def scaleAddr (tb sb : DWord) (geom : Word) (addr : DWord) : Option Nat :=
  let (logw, br, bc) := scaleGeom geom
  if addr.toNat < tb.toNat || logw < bc || 24 < logw || sb.toNat % 4 ≠ 0 then none else
  let off := addr.toNat - tb.toNat
  let row := off / 2 ^ logw
  let col := off % 2 ^ logw
  some ((sb.toNat + 4 * (row / 2 ^ br * 2 ^ (logw - bc) + col / 2 ^ bc)) % 2 ^ 64)

/-- The scale addresses of an octet (R235): its eight rows', then B's. -/
def Cur.scaleAddrs (c : Cur) (f : FmtX) (o : Nat) : Option (List Nat) :=
  let g := c.group.regs
  let n := f.sn.toNat
  let logw := (scaleGeom g.scga).1
  ((List.range 8).mapM fun j =>
    scaleAddr g.sctba g.scsba g.scga (c.rdPair n + BitVec.ofNat 64 ((8 * o + j) * 2 ^ logw))).bind fun as =>
  (scaleAddr g.sctbb g.scsbb g.scgb (c.rdPair (n + 2))).map fun b => as ++ [b]

/-- The copy of a scale on a locally cached page that an L2 of the device holds, which the load hits there (R295). -/
def State.scaleHit (s : State) (c : Cur) (p : Place) (e : DWord) : Option (List Byte) :=
  match p with
  | .peer pkg off => if field e 8 2 = 2 then s.copyRead c.team.ctx pkg off 4 else none
  | _ => none

/-- One scale word read as a plain load through the L1 (R155, R236): its access leaves what any load's does, and a peer's bytes are
those that have come (R180). -/
def State.scaleRead (s : State) (c : Cur) (a : Nat) : State × Word :=
  let chk := s.laneCheck c.team false (BitVec.ofNat 64 a) 4 { rd := true }
  let s := s.noteAccess c.team a chk
  match chk with
  | .ok (.peer pkg off) e =>
    let r := match s.scaleHit c (.peer pkg off) e with
      | some b => (s, b)
      | none => let r := s.engRead c.ref.team (.peer pkg off) 4; (r.1.holdCopy c.team.ctx pkg off e r.2, r.2)
    (r.1, BitVec.ofNat 32 (natOfBytes r.2))
  | .ok p _ =>
    let r := s.laneSee c.ref.team c.ref.group p a 4 true []
    (r.1, BitVec.ofNat 32 (natOfBytes r.2))
  | _ => (s, 0)

/-- The scales of an MMAS that lie on peers' pages and in no copy held here (R155, R180). -/
def State.scaleReads (s : State) (c : Cur) (f : FmtX) : List (Place × Nat) :=
  match c.octets f.com with
  | .error _ => []
  | .ok os => match os.mapM fun o => c.scaleAddrs f o with
    | none => []
    | some as => as.flatten.eraseDups.filterMap fun a =>
      match s.laneCheck c.team false (BitVec.ofNat 64 a) 4 { rd := true } with
      | .ok (.peer pkg off) e => if (s.scaleHit c (.peer pkg off) e).isSome then none else some (.peer pkg off, 4)
      | _ => none

/-- The scales of every issuing octet, read at issue, or the trap (R155, R236). -/
def State.scalesOf (s : State) (c : Cur) (f : FmtX) (os : List Nat) : Except State (State × List Scales) :=
  match os.mapM fun o => c.scaleAddrs f o with
  | none => .error (s.illop c 10)
  | some as =>
    let all := as.flatten
    let chk (a : Nat) : Trans := s.laneCheck c.team false (BitVec.ofNat 64 a) 4 { rd := true }
    match all.find? fun a => match chk a with | .prot _ => true | _ => false with
    | some a => .error (s.transTrap c (chk a) a)
    | none => match all.find? fun a => chk a = .pageflt with
      | some a => .error (s.transTrap c (chk a) a)
      | none =>
        let words := all.eraseDups.foldl (fun (z : State × SMap Word) a =>
          let r := z.1.scaleRead c a
          (r.1, mput z.2 a r.2)) (s, [])
        .ok (words.1, as.map fun l =>
          { a := (l.take 8).map fun a => mget 0 words.2 a
            b := mget 0 words.2 ((l[8]?).getD 0)
            mode := c.split.fmt.toNat / 32 % 4 })

/-- Where an instruction finds B, for one octet (R229, R230, R243), or the reason or PROT kind that stops it. -/
def Cur.bSource (c : Cur) (f : FmtX) (ty o : Nat) : Except (Bool × Nat) BSource :=
  let sh := f.sh.toNat
  if !f.bs then .ok (.ready (tileElems (matK sh) (fragB ty (c.fragment o f.b.toNat (if sh = 2 then 64 else 32)))))
  else if f.bb then
    let k := c.team.buf f.b.toNat
    if k.cnt = 0 then .error (false, 10)
    else match c.team.tileBad (k.addr k.head) k.pitch sh ty f.bo with
      | some e => .error e
      | none => .ok (.entry f.b.toNat k.head f.bo)
  else
    let a := (c.rdS f.b.toNat).toNat
    let p := (c.rdS (f.b.toNat + 1)).toNat
    match c.team.tileBad a p sh ty f.bo with
    | some e => .error e
    | none => .ok (.tile a p f.bo)

/-- The A fragment of an octet, from the latch or the registers, and the latches after it (R234). -/
def Cur.latchA (c : Cur) (f : FmtX) (ty o : Nat) : List (List Word) × SMap Latch :=
  let sh := f.sh.toNat
  let regs := c.fragment o f.a.toNat (if sh = 2 then 32 else 16)
  if !f.ru then (regs, mdel c.group.latch o)
  else match mget? c.group.latch o with
    | some l => if l.base = f.a.toNat && l.shape = sh && l.ty = ty then (l.words, c.group.latch)
        else (regs, mput c.group.latch o ⟨f.a.toNat, sh, ty, regs⟩)
    | none => (regs, mput c.group.latch o ⟨f.a.toNat, sh, ty, regs⟩)

/-- The fragments' registers overlap (R229). -/
def fragsOverlap (f : FmtX) : Bool :=
  let d := (f.d.toNat, 16)
  let a := (f.a.toNat, if f.sh = 2 then 32 else 16)
  let b := (f.b.toNat, if f.bs then 0 else if f.sh = 2 then 64 else 32)
  let meet (x y : Nat × Nat) : Bool := x.2 ≠ 0 && y.2 ≠ 0 && x.1 < y.1 + y.2 && y.1 < x.1 + x.2
  meet d a || meet d b || meet a b

/-- The octet operations of an instruction put into the slot's queue, in ascending order of octet (R231, R407). -/
def State.issueOps (s : State) (c : Cur) (i : Instr) (f : FmtX) (ty acc : Nat) (os : List (Nat × BSource × Option Scales)) : State :=
  let (s, inst) := s.fresh
  let c := match i.counter with | some x => c.count x inst | none => c
  let r := os.foldl (fun (z : State × Cur × List MatOp) x =>
    let (s, c, ops) := z
    let (s, id) := s.fresh
    let (a, latch) := c.latchA f ty x.1
    let op : MatOp :=
      { id := id, inst := inst, team := c.ref.team, group := c.ref.group, octet := x.1, dreg := f.d.toNat, acc := acc
        shape := f.sh.toNat, ty := ty, zc := f.zc, a := a, b := x.2.1, scales := x.2.2
        regs := if fragsOverlap f then some (f.a.toNat, if f.bs then none else some f.b.toNat) else none }
    (s, { c with group := { c.group with latch := latch } }, ops ++ [op])) (s, c, [])
  let (s, c, ops) := r
  let c :=
    if f.bb then
      let b := f.b.toNat
      let k := c.team.buf b
      let k := { k with users := (k.head, inst) :: k.users }
      let k := if f.pop then k.pass 1 c.localLoads else k
      { c with team := { c.team with bufs := mput c.team.bufs b k } }
    else c
  (s.put c).modCore c.team.coreKey fun k => { k with mq := mput k.mq c.group.slot (mget [] k.mq c.group.slot ++ ops) }

/-- MMA and MMAS (R406 to R408). -/
def matIssue (i : Instr) (f : FmtX) (mmas : Bool) (s : State) : Out :=
  onSplit s fun c =>
    match c.octets f.com with
    | .error m => s.fatal c.ref .mmask m
    | .ok [] => s
    | .ok os =>
      let (ty, acc) := c.matTypes f
      if !matTypesOk mmas ty acc f.sh.toNat then s.illop c 6 else
      match os.mapM fun o => c.bSource f ty o with
      | .error (false, r) => s.illop c r
      | .error (true, k) => s.protAt c k
      | .ok bs =>
        if !mmas then s.issueOps c i f ty acc ((os.zip bs).map fun x => (x.1, x.2, none))
        else match s.scalesOf c f os with
          | .error t => t
          | .ok (s, ss) =>
            let c := match s.lookup? c.ref with | some d => d | none => c
            s.issueOps c i f ty acc ((os.zip (bs.zip ss)).map fun x => (x.1, x.2.1, some x.2.2))

/-- MMA (R406). -/
def execMma (f : FmtX) (s : State) : Out := matIssue (.mma f) f false s
/-- MMAS (R406). -/
def execMmas (f : FmtX) (s : State) : Out := matIssue (.mmas f) f true s

/-! ### The queue -/

/-- The elements of a B tile in the team's local array (R230); of the 32-bit cells `cells`, which the fetch read before, as they
were then (R233). -/
def State.tileRead (s : State) (t : Team) (a p shape ty : Nat) (cols : Bool) (cells : SMap (List Byte) := []) : List Nat :=
  let z := if matElems ty = 2 then 2 else 1
  tileElems (matK shape) fun k n =>
    let x := if cols then a + n * p + k * z else a + k * p + n * z
    natOfBytes (match mget? cells (x / 4) with | some bs => (bs.drop (x % 4)).take z | none => s.arrRead t x z)

/-- The B of an operation once its pass has fetched it, if the pass may start (R233, R243). -/
def State.fetchB (s : State) (o : MatOp) : Option BSource :=
  match mget? s.teams o.team with
  | none => none
  | some t =>
    match o.b with
    | .ready e => some (.ready e)
    | .tile a p cols => some (.ready (s.tileRead t a p o.shape o.ty cols o.cells))
    | .entry b n cols =>
      let k := t.buf b
      if k.isFull n then some (.ready (s.tileRead t (k.addr n) k.pitch o.shape o.ty cols)) else none

/-- MATRIX_PASS_START (R233): the pass of an operation's instruction fetches its B. -/
def execMatrixPassStart (core op : Nat) (s : State) : Out :=
  let all := (s.core core).mq.flatMap (·.2)
  .next (match all.find? fun o => o.id = op with
    | none => s
    | some o =>
      match s.fetchB o with
      | none => s
      | some b => s.modCore core fun k => { k with mq := mmap k.mq fun q => q.map fun x =>
          if x.inst = o.inst && o.b = x.b then { x with b := b } else x })

/-- One 32-bit cell of a local tile read by the fetch of its pass ahead of the rest (R233). -/
def State.fetchCell (s : State) (core inst cell : Nat) : State :=
  match ((s.core core).mq.flatMap (·.2)).find? fun o => o.inst = inst with
  | none => s
  | some o =>
    match o.b, mget? s.teams o.team with
    | .tile _ _ _, some t =>
      if (mget? o.cells cell).isSome || t.bytes < 4 * cell + 4 then s else
      let bs := s.arrRead t (4 * cell) 4
      s.modCore core fun k => { k with mq := mmap k.mq fun q => q.map fun x =>
        if x.inst = inst && x.b = o.b then { x with cells := mput x.cells cell bs } else x }
    | _, _ => s

/-- The registers of a fragment as an operation whose fragments overlap finds them: each as it was read, or as the group now holds it,
freely. -/
def State.mixRegs (s : State) (g : Group) (o base : Nat) (ws : List (List Word)) : State × List (List Word) :=
  ws.zipIdx.foldl (fun z l =>
    let r := l.1.zipIdx.foldl (fun (y : State × List Word) w =>
      let q := y.1.among w.1 [w.1, mget 0 g.v (vkey (8 * o + l.2) (base + w.2))]
      (q.1, y.2 ++ [q.2])) (z.1, [])
    (r.1, z.2 ++ [r.2])) (s, [])

/-- The B fragment in registers, by lanes, of the elements of B (R229). -/
def fragOfElems (ty shape : Nat) (elems : List Nat) : List (List Word) :=
  let e := matElems ty
  (List.range 8).map fun j => (List.range (if shape = 2 then 64 else 32)).map fun r =>
    BitVec.ofNat 32 ((List.range e).foldl (fun a i =>
      a + (elems[16 * (8 * (r / (16 / e)) + j) + (r % (16 / e) * e + i)]?).getD 0 * 2 ^ (32 / e * i)) 0)

/-- One element of an operation whose fragments overlap (R229): of source registers each as read or as written since. -/
def State.mixedElement (s : State) (g : Group) (o : MatOp) (elems : List Nat) (areg : Nat) (breg : Option Nat) (j n : Nat)
    (d : Option Nat) : State × Nat :=
  let a := s.mixRegs g o.octet areg o.a
  match breg with
  | none => (a.1, ({ o with a := a.2 } : MatOp).element elems j n d)
  | some r =>
    let b := a.1.mixRegs g o.octet r (fragOfElems o.ty o.shape elems)
    (b.1, ({ o with a := a.2 } : MatOp).element (tileElems (matK o.shape) (fragB o.ty b.2)) j n d)

/-- The accumulator tile of an operation written (R229, R407). Where fragments overlap, the elements are written in a free order. -/
def State.writeTile (s : State) (o : MatOp) (elems : List Nat) : State :=
  match (mget? s.teams o.team).bind fun t => mget? t.groups o.group with
  | none => s
  | some g =>
    let cells := (List.range 8).flatMap fun j => (List.range 16).map fun n => (j, n)
    let cut (v : Nat) : Word := BitVec.ofNat 32 (if o.acc = 2 then v % 65536 else v)
    let put (z : State × Group) (x : Nat × Nat) (v : State × Nat) : State × Group :=
      (v.1, z.2.wrV (8 * o.octet + x.1) (o.dreg + x.2) (cut v.2))
    let old (x : Nat × Nat) : Option Nat := if o.zc then none else some (mget 0 g.v (vkey (8 * o.octet + x.1) (o.dreg + x.2))).toNat
    let r := match o.regs with
      | none => cells.foldl (fun z x => put z x (z.1, o.element elems x.1 x.2 (old x))) (s, g)
      | some (areg, breg) =>
        let q := s.shuffle cells.length cells
        q.2.foldl (fun z x => put z x (z.1.mixedElement z.2 o elems areg breg x.1 x.2 (old x))) (q.1, g)
    r.1.modGroup o.team o.group fun _ => r.2

/-- An instruction's last operation is done: MXC falls and its buffer entry has one reader less (R108, R243). -/
def Team.matDone (t : Team) (inst : Nat) : Team :=
  ({ t with bufs := mmap t.bufs fun k => { k with users := k.users.filter fun u => u.2 ≠ inst } } : Team).complete inst

/-- MATRIX_OP_COMPLETE (R231): the oldest operation of its slot, with its B at hand, writes its accumulator. -/
def execMatrixOpComplete (core op : Nat) (s : State) : Out :=
  .next (match (s.core core).mq.find? fun q => (q.2.head?.map (·.id)) = some op with
    | none => s
    | some (slot, q) =>
      match q with
      | [] => s
      | o :: rest =>
        match o.b with
        | .ready elems =>
          let s := (s.writeTile o elems).modCore core fun k => { k with mq := mput k.mq slot rest }
          if rest.any fun x => x.inst = o.inst then s
          else (s.modTeam o.team fun t => t.matDone o.inst).settle o.team
        | _ => s)

end Sys2Proof.Machine
end

