-- ==== Sys2Proof/Machine/Sfu.lean ====
section
/-! DEFINITION. The special functions (R379 to R381): the two that are correctly rounded, and for the six that are
approximated a rigorous enclosure of the function, with the result a free choice among the f32 values within the
bound of R380 (log 7). -/
namespace Sys2Proof.Machine

/-- The whole square root of a number below 2^(2k), from the top bit down. -/
def isqrt (k n : Nat) : Nat :=
  (List.range k).foldl (fun r i => let b := r + 2 ^ (k - 1 - i); if b * b ≤ n then b else r) 0

/-- 1 / v, exact but for a sticky last bit far below every format's last place (R380, R381). -/
def FVal.recip : FVal → FVal
  | .nan => .nan
  | .inf n => .fin n 0 0
  | .fin n m e =>
    if m = 0 then .inf n else
    let p := Nat.log2 m + 80
    .fin n (2 * (2 ^ p / m) + (if 2 ^ p % m = 0 then 0 else 1)) (-(p : Int) - e - 1)

/-- The square root of v, exact but for a sticky last bit (R380, R381). -/
def FVal.root : FVal → FVal
  | .nan => .nan
  | .inf n => if n then .nan else .inf false
  | .fin n m e =>
    if m = 0 then .fin n 0 0 else if n then .nan else
    let sh : Nat := if e % 2 = 0 then 64 else 65
    let x := m * 2 ^ sh
    let r := isqrt 64 x
    .fin false (2 * r + (if r * r = x then 0 else 1)) ((e - sh) / 2 - 1)

/-- The last place of the fixed-point numbers below, and constants at it: ln 2, pi / 2, and 1 / ln 2 at 2^-320. -/
def fixP : Nat := 256
def fixLn2 : Nat := 80260960185991308862233904206310070533990667611589946606122867505419956976171
def fixHalfPi : Nat := 181885788445883162140117471388864931326696688664196214979386075558969447233092
def fixInvLn2 : Nat :=
  3081577904126213121686167198097690134163479766071396094403848907535455306605342191083616308484524

/-- An interval [lo, hi] * 2^e that holds an exact value. -/
structure Encl where
  lo : Int
  hi : Int
  e  : Int
deriving DecidableEq, Repr

/-- An interval of `slack` last places on each side. -/
def Encl.around (x : Int) (slack : Nat) (e : Int) : Encl := ⟨x - slack, x + slack, e⟩

/-- exp(t), for t in [0, 1) in fixed point: sixty-four terms of its series. -/
def fixExp (t : Nat) : Nat :=
  ((List.range 64).foldl (fun (a : Nat × Nat) i =>
    let term := a.2 * t / 2 ^ fixP / (i + 1)
    (a.1 + term, term)) (2 ^ fixP, 2 ^ fixP)).1

/-- 2^(x / 2^256). -/
def enclExp2 (x : Int) : Encl :=
  let i := x / 2 ^ fixP
  .around (fixExp ((x % 2 ^ fixP).toNat * fixLn2 / 2 ^ fixP)) 1024 (i - fixP)

/-- sin r and cos r for |r| < 1 in fixed point. -/
def fixSin (r : Int) : Int :=
  ((List.range 40).foldl (fun (a : Int × Int) (i : Nat) =>
    let t := -(a.2 * r / 2 ^ fixP * r / 2 ^ fixP / ((2 * i + 2) * (2 * i + 3) : Nat))
    (a.1 + t, t)) (r, r)).1
def fixCos (r : Int) : Int :=
  ((List.range 40).foldl (fun (a : Int × Int) (i : Nat) =>
    let t := -(a.2 * r / 2 ^ fixP * r / 2 ^ fixP / ((2 * i + 1) * (2 * i + 2) : Nat))
    (a.1 + t, t)) (2 ^ fixP, 2 ^ fixP)).1

/-- sin (`quarter` = 0) or cos (`quarter` = 1) of x / 2^256, reduced by quarter turns. -/
def enclTrig (quarter : Int) (x : Int) : Encl :=
  let k := (x + fixHalfPi / 2) / fixHalfPi
  let r := x - k * fixHalfPi
  let y := match ((k + quarter) % 4).toNat with
    | 0 => fixSin r
    | 1 => fixCos r
    | 2 => -fixSin r
    | _ => -fixCos r
  .around y (2 ^ 24) (-(fixP : Int))

/-- The first 128 fraction bits of log2 of y / 2^256, for y / 2^256 in [1, 2). -/
def fixLog2 (y : Nat) : Nat :=
  ((List.range 128).foldl (fun (a : Nat × Nat) _ =>
    let q := a.2 * a.2 / 2 ^ fixP
    if q ≥ 2 ^ (fixP + 1) then (2 * a.1 + 1, q / 2) else (2 * a.1, q)) (0, y)).1

/-- log2 of m * 2^e. -/
def enclLog2 (m : Nat) (e : Int) : Encl :=
  let n := Nat.log2 m
  .around ((n + e) * 2 ^ 128 + fixLog2 (m * 2 ^ (fixP - n))) 4 (-128)

/-- tanh of x / 2^256, for x > 0. -/
def enclTanh (x : Nat) : Encl :=
  if x ≥ 2 ^ (fixP + 7) then ⟨2 ^ fixP - 1, 2 ^ fixP, -(fixP : Int)⟩ else
  let t := enclExp2 (-((2 * x * fixInvLn2 / 2 ^ 320 : Nat) : Int))
  -- t as fixed point, with the slack of its reduction
  let d := (-(t.e + fixP)).toNat
  let hi := min (2 ^ fixP) (t.hi / 2 ^ d + 1024)
  let lo := max 0 (t.lo / 2 ^ d - 1024)
  let one : Int := 2 ^ fixP
  ⟨(one - hi) * one / (one + hi), (one - lo) * one / (one + lo) + 1, -(fixP : Int)⟩

/-- 1 / sqrt (m * 2^e). -/
def enclRsqrt (m : Nat) (e : Int) : Encl :=
  let odd := e % 2 = 1
  let r := isqrt 128 (2 ^ 256 / (if odd then 2 * m else m))
  ⟨r, r + 1, -128 - (if odd then e - 1 else e) / 2⟩

/-- The f32 values in order: code c of a nonnegative value is c, of a negative one -1 - c. -/
def f32OfIdx (i : Int) : Word := BitVec.ofInt 32 (if i < 0 then 2 ^ 31 + (-1 - i) else i)
/-- The index of the least f32 that is not below a value, and of the greatest that is not above it. An overflow
gives the infinity. -/
def f32Idx (mode : Nat) (v : FVal) : Int :=
  match v with
  | .fin n m e =>
    let c : Int := if m = 0 then 0 else min 0x7F800000 (f32Fmt.roundCode mode n m e : Int)
    if n || (m = 0 && mode = 2) then -1 - c else c
  | _ => 0

/-- A free choice of one f32 between two indices, the same for the same function and input (R171, R380). -/
def sfuChoose (op : Nat) (x : Word) (lo hi : Int) : Word :=
  f32OfIdx (lo + (Config.sfuPick op x % ((hi - lo).toNat + 1) : Nat))

/-- The indices of the f32 values within `n` * 2^u of an enclosed value. -/
def Encl.within (y : Encl) (n u : Int) : Int × Int :=
  (f32Idx 2 ((FVal.ofInt y.lo y.e).add 0 (.ofInt (-n) u)), f32Idx 3 ((FVal.ofInt y.hi y.e).add 0 (.ofInt n u)))

/-- The exponent of one f32 ulp of an enclosed value (R380). -/
def Encl.ulp (y : Encl) : Int := max ((Nat.log2 (max y.lo.natAbs y.hi.natAbs) : Int) + y.e) (-126) - 23

/-- The f32 result of FRSQ (R380, R381), of an input with f32 bits `x`. -/
def frsq32 (x : Word) : FVal → Word
  | .nan => 0x7FC00000
  | .inf n => if n then 0x7FC00000 else 0
  | .fin n m e =>
    if m = 0 then (if n then 0xFF800000 else 0x7F800000)
    else if n then 0x7FC00000
    else
      let k := Nat.log2 m
      if m = 2 ^ k && ((k : Int) + e) % 2 = 0 then BitVec.ofNat 32 (f32Fmt.round 0 false (.fin false 1 (-((k + e) / 2))))
      else
        let y := enclRsqrt m e
        let b := y.within 1 y.ulp
        sfuChoose 0x29 x b.1 b.2

/-- A finite value in fixed point at 2^-256; exact for every f32. -/
def fixOf (n : Bool) (m : Nat) (e : Int) : Int := FVal.atExp n m e (-(fixP : Int))

/-- The f32 result of FEX2 (R380, R381), chosen under `op`. -/
def fex232 (op : Nat) (x : Word) : FVal → Word
  | .nan => 0x7FC00000
  | .inf n => if n then 0 else 0x7F800000
  | .fin n m e =>
    if m = 0 then 0x3F800000
    else if (Nat.log2 m : Int) + e ≥ 10 then
      if n then (if e ≥ 0 || m % 2 ^ (-e).toNat = 0 then 0 else sfuChoose op x (-1 - 2) 2) else 0x7F800000
    else
      let a := fixOf n m e
      if a % 2 ^ fixP = 0 then BitVec.ofNat 32 (f32Fmt.round 0 false (.fin false 1 (a / 2 ^ fixP)))
      else
        let y := enclExp2 a
        let b := y.within 2 y.ulp
        sfuChoose op x b.1 b.2

/-- The f32 result of FLG2 (R380, R381). -/
def flg232 (x : Word) : FVal → Word
  | .nan => 0x7FC00000
  | .inf n => if n then 0x7FC00000 else 0x7F800000
  | .fin n m e =>
    if m = 0 then 0xFF800000
    else if n then 0x7FC00000
    else
      let k := Nat.log2 m
      if m = 2 ^ k then BitVec.ofNat 32 (f32Fmt.round 0 false (.ofInt (k + e) 0))
      else
        let y := enclLog2 m e
        let b := if (k : Int) + e = -1 || (k : Int) + e = 0 then y.within 1 (-22) else y.within 2 y.ulp
        sfuChoose 0x2C x b.1 b.2

/-- The f32 result of FSIN and FCOS (R380, R381); beyond 2^15 any value of [-1, 1]. -/
def ftrig32 (op : Nat) (quarter : Int) (x : Word) : FVal → Word
  | .nan => 0x7FC00000
  | .inf _ => 0x7FC00000
  | .fin n m e =>
    if m = 0 then (if quarter = 1 then 0x3F800000 else if n then 0x80000000 else 0)
    else if (FVal.fin false m e).cmp (.fin false 1 15) = some .gt then sfuChoose op x (-1 - 0x3F800000) 0x3F800000
    else
      let b := (enclTrig quarter (fixOf n m e)).within 1 (-21)
      sfuChoose op x b.1 b.2

/-- The f32 result of FTANH (R380, R381), never beyond one in magnitude. -/
def ftanh32 (x : Word) : FVal → Word
  | .nan => 0x7FC00000
  | .inf n => if n then 0xBF800000 else 0x3F800000
  | .fin n m e =>
    if m = 0 then (if n then 0x80000000 else 0)
    else
      let y := enclTanh ((if (Nat.log2 m : Int) + e ≥ 10 then 2 ^ (fixP + 10) else fixOf false m e).toNat)
      let y : Encl := if n then ⟨-y.hi, -y.lo, y.e⟩ else y
      let b := y.within 2 y.ulp
      sfuChoose 0x2F x (max b.1 (-1 - 0x3F800000)) (min b.2 0x3F800000)

/-- An SFU instruction with result `fn` of every element of A; long-latency, written at issue with the values from
before kept for its window (R124, R379). -/
def sfuR (i : Instr) (f : FmtR) (s : State) (fn : Nat → Nat) : Out :=
  onSplit s fun c => s.put ((c.deferI i 0 true).wrDest f.com f.ds false f.d fun l =>
    packElems f.t.width f.t.elems fun k => fn (elem (c.rA f l) f.t.width k))

/-- A result rounded, saturated and flushed; its overflow follows nearest-even (R381; log 31). -/
def sfuOut (f : FmtR) (v : FVal) : Nat :=
  let r := (floatFmt f.t).roundOvf (FmtR.mode f) 0 (FmtR.sat f) v
  if FmtR.ftz f then (floatFmt f.t).flush r else r

/-- A correctly rounded function of one element (R380). -/
def sfuExact (f : FmtR) (op : FVal → FVal) (n : Nat) : Nat := sfuOut f (op (FmtR.fA f n))

/-- An approximated function of one element: its f32 result, rounded once more at a 16-bit type (R380). -/
def sfuApprox (f : FmtR) (fn : Word → FVal → Word) (n : Nat) : Nat :=
  let v := FmtR.fA f n
  sfuOut f (f32Fmt.decode (fn (BitVec.ofNat 32 (f32Fmt.round 0 false v)) v).toNat)

/-- FRCP (R379). -/
def execFrcp (f : FmtR) (s : State) : Out := sfuR (.frcp f) f s (sfuExact f FVal.recip)
/-- FSQRT (R379). -/
def execFsqrt (f : FmtR) (s : State) : Out := sfuR (.fsqrt f) f s (sfuExact f FVal.root)
/-- FRSQ (R379). -/
def execFrsq (f : FmtR) (s : State) : Out := sfuR (.frsq f) f s (sfuApprox f frsq32)
/-- FEX2 (R379). -/
def execFex2 (f : FmtR) (s : State) : Out := sfuR (.fex2 f) f s (sfuApprox f (fex232 0x2B))
/-- FLG2 (R379). -/
def execFlg2 (f : FmtR) (s : State) : Out := sfuR (.flg2 f) f s (sfuApprox f flg232)
/-- FSIN (R379). -/
def execFsin (f : FmtR) (s : State) : Out := sfuR (.fsin f) f s (sfuApprox f (ftrig32 0x2D 0))
/-- FCOS (R379). -/
def execFcos (f : FmtR) (s : State) : Out := sfuR (.fcos f) f s (sfuApprox f (ftrig32 0x2E 1))
/-- FTANH (R379). -/
def execFtanh (f : FmtR) (s : State) : Out := sfuR (.ftanh f) f s (sfuApprox f ftanh32)

end Sys2Proof.Machine
end

