-- ==== Sys2Proof/Machine/Epilogue.lean ====
section
/-! DEFINITION. The epilogue processor: its operations (R367 to R373), EPLOAD and its places (R240, R374, R375), MDRAIN and its rows (R237
to R239, R401 to R403), and the taking of buffer entries (R242). -/
namespace Sys2Proof.Machine

/-! ### Epilogue operations -/

/-- Element `m` of an e register, and of a c register. -/
def Epi.eAt (x : Epi) (r m : Nat) : Word := mget 0 x.e (16 * r + m)
def Epi.cAt (x : Epi) (r m : Nat) : Word := mget 0 x.c (16 * r + m)
/-- A source selected by a bit of TM (R367). -/
def Epi.src (x : Epi) (const : Bool) (r : BitVec 4) (m : Nat) : FVal :=
  f32Fmt.decode (if const then x.cAt r.toNat m else x.eAt r.toNat m).toNat
/-- Register D written element by element from sources all read before (R367). -/
def Epi.wr (x : Epi) (d : Nat) (val : Nat → Nat) : Epi :=
  { x with e := (List.range 16).foldl (fun e m => mput e (16 * d + m) (BitVec.ofNat 32 (val m))) x.e }
/-- A value rounded to FP32 nearest-even (R368). -/
def rf32 (v : FVal) : Nat := f32Fmt.round 0 false v

/-- An operation on A and B (R368). -/
def epBin (f : FmtEp) (op : FVal → FVal → FVal) (x : Epi) : Epi :=
  x.wr f.d.toNat fun m => rf32 (op (x.src (f.tm.getLsbD 0) f.a m) (x.src (f.tm.getLsbD 1) f.b m))
/-- EPFMA (R368). -/
def epFma (f : FmtEp) (x : Epi) : Epi :=
  x.wr f.d.toNat fun m =>
    rf32 (((x.src (f.tm.getLsbD 0) f.a m).mul (x.src (f.tm.getLsbD 1) f.b m)).add 0 (x.src (f.tm.getLsbD 2) f.c m))
/-- EPEXP (R368): 2^A within the accuracy of FEX2. -/
def epExp (f : FmtEp) (x : Epi) : Epi :=
  x.wr f.d.toNat fun m =>
    let v := x.src (f.tm.getLsbD 0) f.a m
    (fex232 0x106 (BitVec.ofNat 32 (rf32 v)) v).toNat
/-- The whole part of a value, rounded down and clamped to 0 to 15 (R369). -/
def lutIndex (v : FVal) : Nat :=
  match v with
  | .nan => 0
  | .inf n => if n then 0 else 15
  | .fin n m e => if n then 0 else min 15 (shiftRound 1 false m (-e))
/-- EPLUT (R369). -/
def epLut (f : FmtEp) (x : Epi) : Epi :=
  x.wr f.d.toNat fun m =>
    match x.src (f.tm.getLsbD 0) f.a m with
    | .nan => f32Fmt.nanCode
    | v =>
      let i := lutIndex v
      let fr := v.add 0 (FVal.ofInt (-(i : Int)) 0)
      rf32 ((fr.mul (f32Fmt.decode (x.cAt f.c.toNat i).toNat)).add 0 (f32Fmt.decode (x.cAt f.b.toNat i).toNat))
/-- The narrow type of EPCVT (R370). -/
def epcvtTy (tm : BitVec 4) : Ty := match tm.toNat with | 0 => .e4m3x4 | 1 => .e5m2x4 | 2 => .bf16 | _ => .f16
/-- Rounding and e4m3 saturation from the drain's FMT (R237, R370). -/
def Epi.mods (x : Epi) : CvtMods := { mode := x.fmt.toNat / 256 % 4 }
def Epi.sat (x : Epi) : Bool := x.fmt.getLsbD 7
/-- EPCVT (R370): the widened narrow value to D, the residual to D + 1. -/
def epCvt (f : FmtEp) (x : Epi) : Epi :=
  let t := epcvtTy f.tm
  let r (m : Nat) : DWord := cvtef t x.mods x.sat (x.eAt f.a.toNat m)
  (x.wr f.d.toNat fun m => rf32 ((floatFmt t).decode (elem (loWord (r m) |>.setWidth 64) t.width 0))).wr (f.d.toNat + 1) fun m =>
    (hiWord (r m)).toNat
/-- EPBIAS (R371): the row's value of the column in c(B) to c(B + 3). -/
def epBias (f : FmtEp) (x : Epi) : Epi :=
  let v := f32Fmt.decode (x.cAt (f.b.toNat + x.row / 16) (x.row % 16)).toNat
  x.wr f.d.toNat fun m => rf32 ((x.src (f.tm.getLsbD 0) f.a m).add 0 v)
/-- EPSCL (R368). -/
def epScl (f : FmtEp) (x : Epi) : Epi :=
  x.wr f.d.toNat fun m => rf32 ((x.src (f.tm.getLsbD 0) f.a m).mul (.fin false 1 f.imm.toInt))
/-- The stored type of EPST (R372). -/
def epstTy (tm : BitVec 4) : Ty :=
  match tm.toNat with | 0 => .f32 | 1 => .f16 | 2 => .bf16 | 3 => .e4m3x4 | _ => .e5m2x4
/-- The bytes that EPST stores (R372). -/
def epstBytes (f : FmtEp) (x : Epi) : List Byte :=
  let t := epstTy f.tm
  (List.range 16).flatMap fun m =>
    bytesOfNat (t.width / 8) ((floatFmt t).round x.mods.mode (satFor t false x.sat) (f32Fmt.decode (x.eAt f.a.toNat m).toNat))

/-- Bytes written where a drain's row goes, 16 at a time (R238). -/
def State.epWrite (s : State) (d : EpDest) (a : Nat) (bs : List Byte) : State :=
  (List.range ((bs.length + 15) / 16)).foldl (fun s i =>
    let a := a + 16 * i
    let part := (bs.drop (16 * i)).take 16
    if d.global then
      match mget? d.pages (a / 65536), mget? s.teams d.team with
      | some leaf, some t => match s.placeOf t.ctx a leaf with
        | some p => s.engWrite d.team p part
        | none => s
      | _, _ => s
    else s.engWrite d.team (.arr a) part) s

/-- EPST on the processor of a core (R372). -/
def State.epStore (s : State) (core : Nat) (f : FmtEp) : State :=
  let x := (s.core core).epi
  s.epWrite x.dest (x.dest.addr + 16 * f.imm.toNat) (epstBytes f x)

/-- One epilogue word on the processor of a core. -/
def State.epRun (s : State) (core : Nat) (i : Instr) : State :=
  let on (g : Epi → Epi) : State := s.modCore core fun k => { k with epi := g k.epi }
  match i with
  | .epadd f => on (epBin f (FVal.add 0))
  | .epmul f => on (epBin f FVal.mul)
  | .epfma f => on (epFma f)
  | .epmax f => on (epBin f FVal.max)
  | .epmin f => on (epBin f FVal.min)
  | .epexp f => on (epExp f)
  | .eplut f => on (epLut f)
  | .epcvt f => on (epCvt f)
  | .epbias f => on (epBias f)
  | .epscl f => on (epScl f)
  | .epst f => s.epStore core f
  | .epend => on fun x => { x with prog := [] }
  | _ => s

/-- An epilogue word runs on the processor whose turn it is. -/
def onEpi (i : Instr) (s : State) : Out :=
  match s.turn with
  | .epilogue core => .next (s.epRun core i)
  | _ => .fault .noEpilogue

/-- EPADD (R368). -/
def execEpadd (f : FmtEp) (s : State) : Out := onEpi (.epadd f) s
/-- EPMUL (R368). -/
def execEpmul (f : FmtEp) (s : State) : Out := onEpi (.epmul f) s
/-- EPFMA (R368). -/
def execEpfma (f : FmtEp) (s : State) : Out := onEpi (.epfma f) s
/-- EPMAX (R368). -/
def execEpmax (f : FmtEp) (s : State) : Out := onEpi (.epmax f) s
/-- EPMIN (R368). -/
def execEpmin (f : FmtEp) (s : State) : Out := onEpi (.epmin f) s
/-- EPEXP (R368). -/
def execEpexp (f : FmtEp) (s : State) : Out := onEpi (.epexp f) s
/-- EPLUT (R369). -/
def execEplut (f : FmtEp) (s : State) : Out := onEpi (.eplut f) s
/-- EPCVT (R370). -/
def execEpcvt (f : FmtEp) (s : State) : Out := onEpi (.epcvt f) s
/-- EPBIAS (R371). -/
def execEpbias (f : FmtEp) (s : State) : Out := onEpi (.epbias f) s
/-- EPSCL (R368). -/
def execEpscl (f : FmtEp) (s : State) : Out := onEpi (.epscl f) s
/-- EPST (R372). -/
def execEpst (f : FmtEp) (s : State) : Out := onEpi (.epst f) s
/-- EPEND (R373): the row's program ends. -/
def execEpend (s : State) : Out := onEpi .epend s

/-! ### The processor's queue and places -/

/-- EPLOADs that have come to the head of the queue are done (R240, R375). -/
def State.epSettle (s : State) (core : Nat) : Nat → State
  | 0 => s
  | n + 1 =>
    match (s.core core).epq with
    | .load id t :: rest =>
      ((s.modCore core fun k => { k with epq := rest }).cmdDone t id).epSettle core n
    | _ => s

/-- The place that the team holds. -/
def CoreSt.placeOf (k : CoreSt) (tid : Nat) : Option (Nat × EpPlace) := k.places.find? fun p => p.2.teams.contains tid

/-- The lowest free place. -/
def CoreSt.freePlace (k : CoreSt) : Option Nat := (List.range 4).find? fun n => (mget? k.places n).isNone

/-- A drain of the team issued before its first waiting EPLOAD is not complete: it uses the place that the team holds (R239, R240). -/
def State.drainsBefore (s : State) (t : Team) (tid : Nat) : Bool :=
  ((s.core t.coreKey).epq.any fun i => match i with | .drain d => d.team = tid | .load _ _ => false) ||
    (match t.ep.wait with | (.drain _, _) :: _ => true | _ => false)

/-- The team may take a place for program `name` (R240): its own when it shares it with none and no drain uses it any more;
else one held for the same program, or a free one. -/
def CoreSt.mayPlace (k : CoreSt) (tid : Nat) (name : EpName) (busy : Bool) (place : Nat) : Bool :=
  let other := place < 4 && match mget? k.places place with | some p => p.name = name | none => true
  match k.placeOf tid with
  | some (n, p) => if p.teams = [tid] then place = n && !busy else other
  | none => other

/-- The place that an EPLOAD of program `name` takes now (R240): one that it may take, a free one last. -/
def CoreSt.placeFor (k : CoreSt) (tid : Nat) (name : EpName) (busy : Bool) : Option Nat :=
  ((k.places.map (·.1)) ++ List.range 4).find? fun n => k.mayPlace tid name busy n

/-- A team holds place `n` for program `name`, and no other; a place that teams hold keeps its words, another has those of `code`
(R240). -/
def CoreSt.takePlace (k : CoreSt) (tid n : Nat) (name : EpName) (code : List Word) : CoreSt :=
  let ps := (mmap k.places fun p => { p with teams := p.teams.filter (· ≠ tid) }).filter fun p => !p.2.teams.isEmpty
  let p : EpPlace := match mget? ps n with
    | some p => { p with teams := tid :: p.teams }
    | none => ⟨name, [tid], code⟩
  { k with places := mput ps n p }

/-- A drain takes its buffer entry when it may (R242). -/
def Team.tryDrain (t : Team) (d : Drain) : Team × Drain :=
  match d.buf, d.entry with
  | some b, none =>
    if t.mayTake d.id b then
      let r := t.takeEntry b
      ({ r.1 with cmds := mmod r.1.cmds d.id fun k => { k with taken := true } }, { d with entry := some r.2.1, base := r.2.2 })
    else (t, d)
  | _, _ => (t, d)

/-- Drains that wait for nothing any more go to the core's queue; an EPLOAD that waits holds back what the team issued
after it (R240, R242). `n` bounds the items looked at. -/
def State.epFlow (s : State) (tid : Nat) : State :=
  match mget? s.teams tid with
  | none => s
  | some t =>
    let r := t.ep.wait.foldl (fun (z : List (EpItem × Option EpName) × List EpItem × Bool) w =>
      match w.1 with
      | .load _ _ => (z.1 ++ [w], z.2.1, true)
      | .drain d => if z.2.2 || (d.buf.isSome && d.entry.isNone) then (z.1 ++ [w], z.2.1, z.2.2) else (z.1, z.2.1 ++ [w.1], z.2.2))
      ([], [], false)
    let s := s.modTeam tid fun t => { t with ep := { t.ep with wait := r.1 } }
    let s := s.modCore t.coreKey fun k => { k with epq := k.epq ++ r.2.1 }
    s.epSettle t.coreKey 64

/-- Drains behind an EPLOAD that takes a place, up to the next EPLOAD, run the place's words (R240). -/
def drainsRun (code : List Word) : List (EpItem × Option EpName) → List (EpItem × Option EpName)
  | (.drain d, x) :: rest => (.drain { d with prog := code }, x) :: drainsRun code rest
  | l => l

/-- A team's wait once EPLOAD `id` has taken a place with these words: nothing stands before its first EPLOAD. -/
def EpTeam.taken (e : EpTeam) (id : Nat) (name : EpName) (code : List Word) : EpTeam :=
  let isIt (w : EpItem × Option EpName) : Bool := match w.1 with | .load i _ => i = id | .drain _ => false
  let before := e.wait.takeWhile fun w => !isIt w
  let rest := (e.wait.drop before.length).drop 1
  { e with wait := before ++ drainsRun code rest, words := mdel e.words id, code := if e.name = some name then code else e.code }

/-- An EPLOAD takes a place: it counts as issued now, and the drains behind it follow (R240). -/
def State.epTake (s : State) (tid id n : Nat) (name : EpName) : State :=
  match mget? s.teams tid with
  | none => s
  | some t =>
    let k := (s.core t.coreKey).takePlace tid n name (mget t.ep.code t.ep.words id)
    let code := ((mget? k.places n).map (·.code)).getD []
    let s := s.modTeam tid fun t => { t with ep := t.ep.taken id name code }
    let s := s.modCore t.coreKey fun _ => { k with epq := k.epq ++ [.load id tid] }
    s.epFlow tid

/-- The first EPLOAD that waits, with its program. -/
def Team.waitingLoad (t : Team) : Option (Nat × EpName) :=
  t.ep.wait.findSome? fun w => match w.1, w.2 with | .load i _, some n => some (i, n) | _, _ => none

/-- EPILOGUE_PLACE_TAKE (R240): the team's first waiting EPLOAD takes a place that it may take. -/
def execEpiloguePlaceTake (team place : Nat) (s : State) : Out :=
  .next (match (mget? s.teams team).bind fun t => t.waitingLoad.map fun w => (t, w) with
    | none => s
    | some (t, id, name) =>
      if t.status = .resident && (s.core t.coreKey).mayPlace team name (s.drainsBefore t team) place then s.epTake team id place name else s)

/-! ### EPLOAD -/

/-- What reading an epilogue program gives (R374). -/
inductive EpRead where
  | ok (s : State) (prog : List Word)
  | bad (detail : Nat)
  | trans (e : Trans) (va : Nat)

/-- The words from number `i` on, up to the first EPEND (R374): `n` words are still allowed. -/
def State.epWords (s : State) (c : Cur) (k : Task) (off : Nat) : Nat → Nat → List Word → EpRead
  | 0, _, _ => .bad 64
  | n + 1, i, acc =>
    let at_ := k.constOff + 4 * (off + i)
    if k.imgSize < at_ + 4 then .bad i else
    let va := k.kimg + at_
    match s.translate c.team.die c.team.ctx (BitVec.ofNat 64 va) { rd := true } with
    | .ok p _ =>
      let r := s.engRead c.ref.team p 4
      let w : Word := BitVec.ofNat 32 (natOfBytes r.2)
      match decodeEp w with
      | none => .bad i
      | some .epend => .ok r.1 (acc ++ [w])
      | some _ => r.1.epWords c k off n (i + 1) (acc ++ [w])
    | e => .trans e va

/-- EPLOAD (R240, R374). -/
def execEpload (f : FmtE) (s : State) : Out :=
  onSplit s fun c =>
    if !c.acts f.com then s else
    match mget? s.tasks c.team.task with
    | none => s.fatal c.ref .epill 0
    | some k =>
      let off := c.group.regs.epprog.toNat / 4 % 2 ^ 18
      let name : EpName := ⟨c.team.ctx, k.kimg, off⟩
      match s.epWords c k off 64 0 [] with
      | .bad d => s.fatal c.ref .epill (BitVec.ofNat 32 d)
      | .trans e va => s.transTrap c e va
      | .ok s prog =>
        if c.team.ep.name = some name then s else
        let (s, id) := s.fresh
        let c := c.command (.epload f) id ⟨.epload, c.ref.group, c.ref.split, [], true, false, [], none⟩
        let busy := c.team.waitingLoad.isSome
        let ep : EpTeam := { c.team.ep with
          name := some name, code := prog, wait := c.team.ep.wait ++ [(.load id c.ref.team, some name)]
          words := mput c.team.ep.words id prog }
        let s := s.put { c with team := { c.team with ep := ep } }
        if busy then s else
        match (s.core c.team.coreKey).placeFor c.ref.team name (s.drainsBefore c.team c.ref.team) with
        | some n => s.epTake c.ref.team id n name
        | none =>
          -- a team that leaves a shared place waits without one; it keeps its own until it may replace the program there
          let leave (p : EpPlace) : EpPlace :=
            if p.teams = [c.ref.team] then p else { p with teams := p.teams.filter fun x => x ≠ c.ref.team }
          s.modCore c.team.coreKey fun q => { q with places := mmap q.places leave }

/-! ### MDRAIN -/

/-- Where the EPSTs of a program write in a row, and how many bytes (R372). -/
def epstSpans (prog : List Word) : List (Nat × Nat) :=
  prog.filterMap fun w => match decodeEp w with
    | some (.epst f) => some (16 * f.imm.toNat, 2 * (epstTy f.tm).width)
    | _ => none

/-- A row of an accumulator tile as f32 values (R237). -/
def Cur.drainRow (c : Cur) (acc reg lane : Nat) : List Word :=
  (List.range 16).map fun n =>
    let w := c.rdV lane (reg + n)
    match acc with
    | 0 => w
    | 1 => BitVec.ofNat 32 (rf32 (.ofInt w.toInt 0))
    | _ => BitVec.ofNat 32 (rf32 (f16Fmt.decode (w.toNat % 65536)))

/-- The leaf entries of the pages that ranges of a context lie on (R184). -/
def State.leaves (s : State) (c : Cur) (rs : List ERange) : SMap DWord :=
  (rs.flatMap fun r => pageChunks r.addr r.len).foldl (fun m p =>
    match s.translate c.team.die c.team.ctx (BitVec.ofNat 64 p.1) {} with
    | .ok _ e => mput m (p.1 / 65536) e
    | _ => m) []

/-- MDRAIN (R401 to R403, R237 to R240). -/
def execMdrain (f : FmtE) (s : State) : Out :=
  onSplit s fun c =>
    match c.octets f.com with
    | .error m => s.fatal c.ref .mmask m
    | .ok [] => s
    | .ok os =>
      let kind := f.sub.toNat % 4
      let acc := if f.sub.toNat / 4 = 3 then c.split.fmt.toNat / 8 % 4 else f.sub.toNat / 4
      let reg := f.flg.toNat
      let b := f.qb.toNat
      let k := c.team.buf b
      let base := if kind = 0 then (c.rdS f.s0.toNat).toNat else if kind = 1 then (c.rdPair f.s0.toNat).toNat else 0
      let pitch := if kind = 2 then k.pitch else (c.rdS f.s1.toNat).toNat
      let off := c.group.regs.epprog.toNat / 4 % 2 ^ 18
      let kimg := ((mget? s.tasks c.team.task).map (·.kimg)).getD 0
      let spans := epstSpans c.team.ep.code
      let rows := os.flatMap fun o => (List.range 8).map fun i => 8 * o + i
      let inEntry := rows.all fun j => spans.all fun x => j * pitch + x.1 + x.2 ≤ k.esz
      if c.team.ep.name ≠ some ⟨c.team.ctx, kimg, off⟩ || base % 16 ≠ 0 ||
        (kind ≠ 2 && (pitch % 16 ≠ 0 || pitch < 16 || 65536 < pitch)) ||
        (kind = 2 && (b ≥ 8 || k.cnt = 0 || !inEntry)) then s.illop c 10
      else
        let start := if kind = 2 then c.team.nextEntry b else base
        let dst := rows.flatMap fun j => spans.map fun x => (⟨kind ≠ 1, start + j * pitch + x.1, x.2, { wr := true }⟩ : ERange)
        let tab : ERange := ⟨false, c.group.regs.epconst.toNat, 1024, { rd := true }⟩
        match s.engRanges c (tab :: dst) with
        | .error t => t
        | .ok ps =>
          match s.issueRead c tab.addr 1024 with
          | .error t => t
          | .ok (s, consts) =>
            let (s, id) := s.fresh
            let d : Drain :=
              { id := id, team := c.ref.team, group := c.ref.group, fmt := c.split.fmt, prog := c.team.ep.code
                consts := (List.range 256).map fun q => BitVec.ofNat 32 (natOfBytes ((consts.drop (4 * q)).take 4))
                rows := rows.map fun j => (j, c.drainRow acc reg j), octets := os, acc := reg, global := kind = 1
                base := base, pitch := pitch, pages := if kind = 1 then s.leaves c dst else []
                buf := if kind = 2 then some b else none }
            let foot := footOf false (ps.take 1).flatten ++ footOf true (ps.drop 1).flatten
            let c := match s.lookup? c.ref with | some d => d | none => c
            let c := c.command (.mdrain f) id ⟨.drain, c.ref.group, c.ref.split, foot, false, false, d.pages.map (·.1), none⟩
            let r := c.team.tryDrain d
            let ep := { r.1.ep with wait := r.1.ep.wait ++ [(.drain r.2, none)] }
            (s.put { c with team := { r.1 with ep := ep } }).epFlow c.ref.team

/-- One row of a drain: the registers set, the program run (R237). -/
def State.runRow (s : State) (core : Nat) (d : Drain) (row : Nat × List Word) : State :=
  let regs (r : Nat) (l : List Word) : SMap Word := l.zipIdx.map fun x => (16 * r + x.2, x.1)
  let x : Epi :=
    { e := regs 0 row.2, c := regs 0 d.consts, fmt := d.fmt, row := row.1
      dest := ⟨d.team, d.global, d.base + row.1 * d.pitch, d.pages⟩, prog := [] }
  let s := s.modCore core fun k => { k with epi := x }
  d.prog.foldl (fun s w => match decodeEp w with | some i => s.epRun core i | none => s) s

/-- DRAIN_ROW (R237, R239): the drain at the head of the core's queue runs its next row, unless an earlier command is
in its way; after the last row it is complete. -/
def execDrainRow (core : Nat) (s : State) : Out :=
  .next (match (s.core core).epq with
    | .drain d :: rest =>
      match (mget? s.teams d.team).bind fun t => (mget? t.cmds d.id).map fun k => (t, k) with
      | none => s
      | some (t, k) =>
        if t.status = .saved || !(k.begun || t.clear d.id k.foot) then s else
        match d.rows with
        | [] => s
        | row :: left =>
          let s := s.modTeam d.team fun t => { t with cmds := mput t.cmds d.id { k with begun := true } }
          let s := s.runRow core d row
          if left.isEmpty then
            let s := (s.modCore core fun q => { q with epq := rest }).cmdOut d.team d.id (k.foot.map fun f => (f.place, f.len))
            let s := match d.buf, d.entry with
              | some b, some n => s.modTeam d.team fun t => t.entryWritten b n
              | _, _ => s
            (s.settle d.team).epSettle core 64
          else s.modCore core fun q => { q with epq := .drain { d with rows := left } :: rest }
    | _ => s)

/-- BUFFER_ENTRY_TAKE (R242): the waiting producer that is next takes the free entry at TAIL. -/
def execBufferEntryTake (team cmd : Nat) (s : State) : Out :=
  .next (match (mget? s.teams team).bind fun t => (mget? t.cmds cmd).map fun k => (t, k) with
    | none => s
    | some (t, k) =>
      if t.status ≠ .resident then s else
      match k.kind with
      | .copy _ => (s.modTeam team fun t => t.tryCopy cmd).settle team
      | .drain =>
        let r := t.ep.wait.foldl (fun (z : Team × List (EpItem × Option EpName)) w =>
          match w.1 with
          | .drain d => if d.id = cmd then
              let q := z.1.tryDrain d
              (q.1, z.2 ++ [(.drain q.2, none)])
            else (z.1, z.2 ++ [w])
          | .load _ _ => (z.1, z.2 ++ [w])) (t, [])
        ({ s with teams := mput s.teams team { r.1 with ep := { r.1.ep with wait := r.2 } } }).epFlow team
      | _ => s)

end Sys2Proof.Machine
end

