-- ==== Sys2Proof/Machine/Tasks.lean ====
section
/-! DEFINITION. Tasks (R70 to R81), graph nodes (R87 to R90), work queues (R91, R92), and the instructions TASKNEW, TASKDEC,
TEMIT, QPULL, QPUSH and ARRV with their events. -/
namespace Sys2Proof.Machine

/-- The split as it stands after changes to the rest of the state. -/
def State.again (s : State) (c : Cur) : Cur := (s.lookup? c.ref).getD c

/-- A command of the acting split. -/
def Cur.cmd (c : Cur) (k : CmdKind) (foot : List Foot) (begun : Bool) : Cmd := ⟨k, c.ref.group, c.ref.split, foot, begun, false, [], none⟩

/-- The part cannot reach a record of its own: the context ends with PROT (R77, R309). -/
def State.selfEnd (s : State) (x die va : Nat) : State :=
  s.endContext x Cause.prot.code
    (faultRecord (trapInfo false 0 2 Cause.prot.code (BitVec.ofNat 32 (256 * 5))) 0 (s.timeOf die) die 0 0 0 2 va) die

/-! ### Roles and images -/

/-- The roles of a shape: number, group count, width and budget (R70). -/
def rolesOf (shape : DWord) : List (Nat × Nat × Nat × Nat) :=
  (List.range 4).filterMap fun r =>
    let d := field shape (16 * r) 16
    if d / 32768 = 1 then some (r, d % 32 + 1, 8 * 2 ^ (d / 32 % 4), (d / 128 % 32 + 1) * 8) else none

/-- The groups of a team in order: role, index in the role, width and budget (R44). -/
def groupsOf (shape : DWord) : List (Nat × Nat × Nat × Nat) :=
  (rolesOf shape).flatMap fun r => (List.range r.2.1).map fun i => (r.1, i, r.2.2.1, r.2.2.2)

/-- A group's place on a core: slot, base slice, width and budget (R36, R41). -/
structure Occ where
  slot   : Nat
  base   : Nat
  width  : Nat
  budget : Nat
deriving DecidableEq, Repr

/-- Registers per lane in use on a slice (R41). -/
def sliceUse (os : List Occ) (slot slice : Nat) : Nat :=
  (os.filter fun o => o.slot = slot && o.base ≤ slice && slice < o.base + o.width / 4).foldl (fun a o => a + o.budget) 0

/-- A group may take a place beside others (R36, R41). -/
def Occ.fits (os : List Occ) (o : Occ) : Bool :=
  o.slot < Config.slots && o.base % (o.width / 4) = 0 && o.base + o.width / 4 ≤ 16 && os.length < 64 &&
  (os.filter fun q => q.slot = o.slot).length < 16 &&
  (List.range (o.width / 4)).all fun k => sliceUse os o.slot (o.base + k) + o.budget ≤ 1024

/-- The places of a group by number, slot by slot (R36): place `p` of a group of width and budget `g`. -/
def occAt (g : Nat × Nat) (p : Nat) : Occ := ⟨p / (64 / g.1), p % (64 / g.1) * (g.1 / 4), g.1, g.2⟩

/-- A search for places of groups, one after another; like groups that follow each other are tried in rising places alone. -/
def packFrom : List (Nat × Nat) → Option ((Nat × Nat) × Nat) → List Occ → Bool
  | [], _, _ => true
  | g :: rest, last, os =>
    let lo : Nat := match last with | some (h, p) => if h = g then p else 0 | none => 0
    (List.range (Config.slots * (64 / g.1))).any fun p =>
      lo ≤ p && (occAt g p).fits os && packFrom rest (some (g, p)) (occAt g p :: os)

/-- Groups of these widths and budgets can all be placed beside others (R41, R84); a need above what the core's slices have
left ends the search at once. -/
def canPack (gs : List (Nat × Nat)) (os : List Occ) : Bool :=
  (gs.foldl (fun a g => a + g.1 / 4 * g.2) 0) + (os.foldl (fun a o => a + o.width / 4 * o.budget) 0) ≤ 1024 * 16 * Config.slots &&
  packFrom gs none os

/-- A role descriptor and a LOCAL word in the layout of R70: zero bits, and a LOCAL in range. -/
def roleLaid (d : Nat) : Bool := d / 4096 % 8 = 0
def localLaid (w : Nat) : Bool := w < 2 ^ 25 && w / 2 ^ 20 ≤ 16 && w % 2 ^ 20 % 128 = 0 && w % 2 ^ 20 ≤ 524288

/-- An image header in the order of R142's table: a role entry, and a trap vector other than 0, lie in the code. -/
def headerOk (h : List Byte) : Bool :=
  let w (o : Nat) : Nat := le h o 4
  let dict := w 0x0C
  let rgn := w 0x14
  let code := w 0x18
  let const := w 0x1C
  let inCode (o : Nat) : Bool := code ≤ o && o < const
  w 0 = 0x4B5A5631 && le h 4 2 = 1 && le h 6 2 = 0 && w 8 = 0x80 && dict ≤ 1024 && w 0x10 = 0x80 + 8 * dict &&
  1 ≤ rgn && rgn ≤ 4096 && code = (w 0x10 + 48 * rgn + 63) / 64 * 64 && const % 64 = 0 && code < const &&
  w 0x20 % 64 = 0 && const ≤ w 0x20 && w 0x24 = 0 && w 0x44 = 0 && ((h.drop 0x50).take 48).all (· = 0) &&
  (List.range 4).all (fun r => (w (0x28 + 4 * r) = 0xFFFFFFFF || inCode (w (0x28 + 4 * r))) && roleLaid (le h (0x38 + 2 * r) 2)) &&
  localLaid (w 0x40) &&
  (le h 0x48 8 = 0 || inCode (le h 0x48 8))

/-- A region-table entry in order (R142): inside the code, its predicates' zero bits, and a header with RE and its index. -/
def State.regionOk (s : State) (die x kimg : Nat) (h tab : List Byte) (i : Nat) : Bool :=
  let e := le tab (48 * i) 4
  le h 0x18 4 ≤ e && e < le h 0x1C 4 && e % 8 = 0 && le tab (48 * i + 4) 4 < 256 &&
  match s.vNat die x (kimg + e) 8 with
  | some w => headerRe (BitVec.ofNat 64 w) && hdrRidx (BitVec.ofNat 64 w) = i
  | none => false

/-- The header of a valid image whose checked parts translate (R71, R142); none otherwise. -/
def State.image (s : State) (die x kimg : Nat) : Option (List Byte) :=
  match s.vRead die x kimg 128 with
  | none => none
  | some h =>
    if !headerOk h then none else
    match s.vRead die x (kimg + 0x80) (8 * le h 0x0C 4), s.vRead die x (kimg + le h 0x10 4) (48 * le h 0x14 4) with
    | some _, some tab => if (List.range (le h 0x14 4)).all (s.regionOk die x kimg h tab) then some h else none
    | _, _ => none

/-! ### Creation -/

/-- Some zero field of a record is nonzero, or a field is out of range (R70, R71 FIELD). -/
def recordBad (b : List Byte) : Bool :=
  let shape := BitVec.ofNat 64 (le b 0x10 8)
  let graph := le b 0x1C 4 / 4 % 2 = 1
  let loc := le b 0x18 4
  let q := le b 0x70 8
  let pres (r : Nat) : Bool := shape.getLsbD (16 * r + 15)
  2 ^ 57 ≤ le b 0 8 || le b 0 8 % 256 ≠ 0 || 2 ^ 40 ≤ le b 8 8 ||
  (List.range 4).any (fun r => !roleLaid (field shape (16 * r) 16)) ||
  !pres 0 || (!pres 1 && pres 2) || (!pres 2 && pres 3) ||
  (graph && le b 8 8 ≠ 0) || (!graph && le b 8 8 = 0) || !localLaid loc ||
  le b 0x1C 4 % 65536 / 8 ≠ 0 || le b 0x2C 4 ≠ 0 ||
  (List.range 8).any (fun i => le b (0x30 + 8 * i) 8 % 128 ≠ 0) ||
  (if graph then q = 0 || 2 ^ 57 ≤ q || q % 64 ≠ 0 || 2 ^ 14 ≤ le b 0x7C 4 else q ≠ 0)

/-- A team of this shape cannot stand on an empty core (R71 SHAPE). -/
def shapeBad (shape : DWord) (graph : Bool) : Bool :=
  let gs := groupsOf shape
  32 < gs.length || 2048 < (gs.map fun g => g.2.2.1).foldl (· + ·) 0 || (graph && gs.length ≠ 1) ||
  !canPack (gs.map fun g => (g.2.2.1, g.2.2.2)) []

/-- The device or the context has no room for one more task (R71 FULL, R73, R81). -/
def State.tasksFull (s : State) (x : Nat) : Bool :=
  65536 ≤ (s.tasks.filter fun t => ctxDevice t.2.ctx = ctxDevice x).length ||
  field ((s.ctx x).prio.setWidth 64) 8 17 ≤ (s.tasks.filter fun t => t.2.ctx = x).length ||
  s.mgmt.closed.contains (ctxDevice x)

/-- The part's copy of a record and its image's header (R72, R74). -/
def taskOfRecord (x rec : Nat) (gridId : Word) (b h : List Byte) : Task :=
  { ctx := x, addr := rec, kimg := le b 0 8, teams := le b 8 8, shape := BitVec.ofNat 64 (le b 0x10 8)
    local_ := le b 0x18 4 % 2 ^ 20, nbars := le b 0x18 4 / 2 ^ 20 % 32, affin := BitVec.ofNat 16 (le b 0x1E 2)
    graph := le b 0x1C 4 / 4 % 2 = 1, prio := le b 0x1C 4 % 4, args := BitVec.ofNat 64 (le b 0x20 8)
    ttgt := (List.range 4).map fun i => le b (0x30 + 8 * i) 8, gtgt := (List.range 4).map fun i => le b (0x50 + 8 * i) 8
    qbase := le b 0x70 8, flush := le b 0x78 4, coal := le b 0x7C 4 % 64 + 1, rsz := (le b 0x7C 4 / 64 % 16 + 1) * 16
    qlog := le b 0x7C 4 / 1024 % 16, gridId := gridId
    entries := (List.range 4).map fun r => BitVec.ofNat 32 (le h (0x28 + 4 * r) 4), trapv := BitVec.ofNat 64 (le h 0x48 8)
    dictOff := le h 8 4, dictCnt := le h 0x0C 4, rgnCnt := le h 0x14 4, codeOff := le h 0x18 4, constOff := le h 0x1C 4
    imgSize := le h 0x20 4 }

/-- A task changed in place. -/
def State.modTask (s : State) (k : Nat) (f : Task → Task) : State := { s with tasks := mmod s.tasks k f }

/-- STATE of a task's record written (R76), by a command of `core` if it is one's (R224). -/
def State.writeState (s : State) (k die v : Nat) (core : Option Nat := none) : State :=
  match mget? s.tasks k with
  | none => s
  | some t =>
    let s := s.modTask k fun t => { t with state := v }
    match s.vWrite die t.ctx (t.addr + 0x2C) (bytesOfNat 4 v) core with
    | some s => s
    | none => s.selfEnd t.ctx die (t.addr + 0x2C)

/-- A task enters its ready queue (R76, R81). STATE becomes 2 unless a launch of a graph node has already made it 3. -/
def State.makeReady (s : State) (k die : Nat) (core : Option Nat := none) : State :=
  match mget? s.tasks k with
  | none => s
  | some t =>
    let s := s.modTask k fun t => { t with ready := some (t.ready.getD s.mgmt.time) }
    if t.state = 1 then s.writeState k die 2 core else s

/-- DEP of a record, as it stands in memory. -/
def State.depOf (s : State) (die x rec : Nat) : Int := (BitVec.ofNat 32 ((s.ownNat die x (rec + 0x28) 4).getD 0)).toInt

/-! ### Graph nodes -/

/-- A field of a node's control block (R87). -/
def State.nodeGet (s : State) (die : Nat) (k : Task) (off : Nat) : Nat := (s.ownNat die k.ctx (k.qbase + off) 8).getD 0
/-- A field of a node's control block written; where it cannot be reached the context ends (R77). -/
def State.nodeSet (s : State) (die : Nat) (k : Task) (off v : Nat) (core : Option Nat := none) : State :=
  match s.vWrite die k.ctx (k.qbase + off) (bytesOfNat 8 v) core with
  | some s => s
  | none => s.selfEnd k.ctx die (k.qbase + off)

/-- The part cannot reach a node's control block, or DEP and STATE of its record (R77; log 114): the context ends. -/
def State.nodeLost (s : State) (die : Nat) (k : Task) : Option State :=
  match s.ownSpan die k.ctx k.qbase 64 { wr := true }, s.ownSpan die k.ctx (k.addr + 0x28) 8 { wr := true } with
  | some _, some _ => none
  | none, _ => some (s.selfEnd k.ctx die k.qbase)
  | _, none => some (s.selfEnd k.ctx die (k.addr + 0x28))

/-- The records that a node's ring holds, and the address of a record (R70, R87). -/
def Task.ring (k : Task) : Nat := 2 ^ (k.qlog + 4)
def Task.recAddr (k : Task) (i : Nat) : Nat := k.qbase + 64 + i % k.ring * k.rsz

/-- The end of the gap-free prefix that starts at `n`. -/
def prefixEnd (done : List Nat) : Nat → Nat → Nat
  | 0, n => n
  | f + 1, n => if done.contains n then prefixEnd done f (n + 1) else n

/-- The grid completion event (R79, R90): each grid target is decremented, then STATE becomes 4 and the task is live no more.
`dec` is the decrement. -/
def State.finishGrid (s : State) (k die : Nat) (dec : State → Nat → State) (core : Option Nat := none) : State :=
  match mget? s.tasks k with
  | none => s
  | some t =>
    let s := t.gtgt.foldl (fun s a => if a = 0 then s else dec s a) s
    let s := s.writeState k die 4 core
    { s with tasks := mdel s.tasks k }

/-- A node that has sealed and launched and completed everything fires its grid completion event (R90). -/
def State.nodeOver (s : State) (k die : Nat) : Bool :=
  match mget? s.tasks k with
  | none => false
  | some t =>
    t.graph && s.depOf die t.ctx t.addr ≤ 0 && t.running.isEmpty &&
    s.nodeGet die t 0 = s.nodeGet die t 8 && s.nodeGet die t 8 = s.nodeGet die t 16

/-- A decrement of DEP by an amount, and what it brings about (R76, R90); `fuel` bounds the chain of graph nodes that fire one
another's targets. R77 does not name a record on another package's page: DESIGN CHOICE, it cannot be reached, and the context ends
(log 114). -/
def State.decDep (fuel : Nat) (s : State) (die x rec amount : Nat) (core : Option Nat := none) : State :=
  match fuel with
  | 0 => s
  | n + 1 =>
    match s.ownSpan die x (rec + 0x28) 4 { wr := true } with
    | none => s.selfEnd x die (rec + 0x28)
    | some l =>
      let r := s.spanRead l
      let old := BitVec.ofNat 32 (natOfBytes r.2)
      let new := old - BitVec.ofNat 32 amount
      let s := r.1.spanWrite l (bytesOfNat 4 new.toNat) core
      match s.tasks.find? fun t => t.2.ctx = x && t.2.addr = rec with
      | none => s
      | some (k, t) =>
        if 0 < old.toInt && new.toInt ≤ 0 then
          let s := if t.state = 1 || t.graph then s.makeReady k die core else s
          match if t.graph then s.nodeLost die t else none with
          | some s => s
          | none =>
          if s.nodeOver k die then s.finishGrid k die (fun s a => State.decDep n s die x a 1 core) core else s
        else s

/-- The chain of nodes is no longer than the number of live tasks. -/
def State.decrement (s : State) (die x rec amount : Nat) (core : Option Nat := none) : State :=
  State.decDep (s.tasks.length + 1) s die x rec amount core

/-- A node looked at again after one of its counts has changed (R90). -/
def State.settleNode (s : State) (k die : Nat) (core : Option Nat := none) : State :=
  match mget? s.tasks k with
  | none => s
  | some t =>
    if !t.graph then s else
    match s.nodeLost die t with
    | some s => s
    | none => if s.nodeOver k die then s.finishGrid k die (fun s a => s.decrement die t.ctx a 1 core) core else s

/-- Creation of a task from the record at an address (R70 to R78): its status; 5 when the record cannot be reached and the
context has ended. R71 has no status for that and R77 does not name a record on another package's page: DESIGN CHOICE, the end with
PROT, and status 5 (log 114). -/
def State.createTask (s : State) (die x rec : Nat) (core : Option Nat := none) : State × Nat :=
  match s.ownSpan die x rec 128 { wr := true } with
  | none => (s.selfEnd x die rec, 5)
  | some l =>
    let r := s.spanRead l
    let s := r.1
    let b := r.2
    let shape := BitVec.ofNat 64 (le b 0x10 8)
    if s.tasksFull x then (s, 1)
    else if recordBad b then (s, 2)
    else if shapeBad shape (le b 0x1C 4 / 4 % 2 = 1) then (s, 3)
    else match s.image die x (le b 0 8) with
      | none => (s, 4)
      | some h =>
        if (rolesOf shape).any fun r => le h (0x28 + 4 * r.1) 4 = 0xFFFFFFFF then (s, 4) else
        let s := s.recallSpan die x (le b 0 8) (le h 0x1C 4) { rd := true }
        let t := taskOfRecord x rec (BitVec.ofNat 32 (s.ctx x).created) b h
        let (s, id) := s.fresh
        let s := ({ s with tasks := mput s.tasks id t }).modCtx x fun y => { y with created := y.created + 1 }
        let s := s.writeState id die 1 core
        if (BitVec.ofNat 32 (le b 0x28 4)).toInt ≤ 0 then ((s.makeReady id die core).settleNode id die core, 0) else (s, 0)

/-- A record of a node is written: FULL passes over the gap-free prefix, whose records become waiting (R88). -/
def State.nodeWritten (s : State) (k die i : Nat) (core : Option Nat := none) : State :=
  match mget? s.tasks k with
  | none => s
  | some t =>
    match s.nodeLost die t with
    | some s => s
    | none =>
    let full := s.nodeGet die t 8
    let w := i :: t.written
    let full' := prefixEnd w w.length full
    let s := s.modTask k fun t => { t with
      written := w.filter (full' ≤ ·)
      waiting := (List.range (full' - full)).foldl (fun m j => mput m (full + j) s.mgmt.time) t.waiting }
    (s.nodeSet die t 8 full' core).settleNode k die core

/-- The records of a launch are complete: FREE passes over the gap-free prefix (R90). -/
def State.launchDone (s : State) (k die launch : Nat) : State :=
  match mget? s.tasks k with
  | none => s
  | some t =>
    match mget? t.running launch with
    | none => s
    | some (first, n) =>
      match s.nodeLost die t with
      | some s => s
      | none =>
      let free := s.nodeGet die t 24
      let c := (List.range n).map (first + ·) ++ t.complete
      let free' := prefixEnd c c.length free
      let s := s.modTask k fun t => { t with running := mdel t.running launch, complete := c.filter (free' ≤ ·) }
      (s.nodeSet die t 24 free').settleNode k die

/-- How many records a node may launch now (R89): by the count, or, with `flush`, because the oldest has waited FLUSH ns. -/
def State.launchSize (s : State) (t : Task) (die : Nat) (flush : Bool) : Nat :=
  let taken := s.nodeGet die t 16
  let have_ := s.nodeGet die t 8 - taken
  let go := if flush then t.flush ≠ 0 && (match mget? t.waiting taken with | some w => w + t.flush ≤ s.mgmt.time | none => false)
    else t.coal ≤ have_ || s.depOf die t.ctx t.addr ≤ 0
  if !t.graph || !go then 0 else min (min t.coal have_) (t.ring - taken % t.ring)

/-! ### Task instructions -/

/-- TASKNEW (R454, R455). -/
def execTasknew (f : FmtE) (s : State) : Out :=
  onSplit s fun c =>
    if !c.acts f.com then s else
    let rec_ := (c.rdPair f.s1.toNat).toNat
    if rec_ % 128 ≠ 0 then s.illop c 10 else
    let r := s.createTask c.team.die c.team.ctx rec_ (some c.team.coreKey)
    if r.2 = 5 then r.1 else
    let c := (r.1.again c).deferI (.tasknew f) 0 true
    r.1.effected { c with group := c.group.wrS f.s0.toNat (BitVec.ofNat 32 r.2) } (.tasknew f) []

/-- TASKDEC (R454, R455). -/
def execTaskdec (f : FmtE) (s : State) : Out :=
  onSplit s fun c =>
    if !c.acts f.com then s else
    let rec_ := (c.rdPair f.s0.toNat).toNat
    let amount := (c.rdS f.s1.toNat).toNat
    if rec_ % 128 ≠ 0 || amount = 0 || 2 ^ 31 ≤ amount then s.illop c 10 else
    let s := s.decrement c.team.die c.team.ctx rec_ amount (some c.team.coreKey)
    match s.lookup? c.ref with
    | some c => s.effected c (.taskdec f) []
    | none => s

/-- TEMIT (R454, R456, R88, R90): a record is reserved, and its writing left to GRAPH_RECORD_WRITTEN. After DEP has reached
zero or below the record may be lost. -/
def execTemit (f : FmtE) (s : State) : Out :=
  onSplit s fun c =>
    if !c.acts f.com then s else
    let die := c.team.die
    let glb := f.flg.getLsbD 3
    let pd := f.flg.toNat % 8
    let node := (c.rdPair f.s0.toNat).toNat
    let src := if glb then (c.rdPair f.s1.toNat).toNat else (c.rdS f.s1.toNat).toNat
    match s.tasks.find? fun t => t.2.ctx = c.team.ctx && t.2.addr = node && t.2.graph with
    | none => s.illop c 10
    | some (k, t) =>
      if node % 128 ≠ 0 || (!glb && src % 16 ≠ 0) then s.illop c 10 else
      match s.engRanges c [⟨!glb, src, t.rsz, { rd := true }⟩] with
      | .error t => t
      | .ok ps =>
        match s.nodeLost die t with
        | some s => s
        | none =>
        let resv := s.nodeGet die t 0
        if t.ring < resv + 1 - s.nodeGet die t 24 then
          s.effected (c.wrPred f.com pd fun _ => false) (.temit f) []
        else
          let late := s.depOf die t.ctx t.addr ≤ 0
          let r := if late then s.pick 2 else (s, 0)
          let s := r.1
          if r.2 = 1 then s.effected (c.wrPred f.com pd fun _ => true) (.temit f) [] else
          let s := s.nodeSet die t 0 (resv + 1) (some c.team.coreKey)
          match s.lookup? c.ref with
          | none => s
          | some c =>
            let (s, id) := s.fresh
            let c := c.wrPred f.com pd fun _ => true
            let q := c.cmd (.temit k resv ps.flatten) (footOf false ps.flatten) true
            s.put (c.command (.temit f) id { q with vpns := if glb then vpages src t.rsz else [] })

/-- GRAPH_RECORD_WRITTEN (R88): the record is copied into the ring and marked written. -/
def execGraphRecordWritten (team cmd : Nat) (s : State) : Out :=
  .next (match (mget? s.teams team).bind fun t => (mget? t.cmds cmd).map fun k => (t, k) with
    | none => s
    | some (t, k) =>
      match k.kind with
      | .temit node i src =>
        if !t.clear cmd k.foot then s else
        match s.needPeers (.cmd cmd) (some team) t.ctx src with
        | some s => s
        | none =>
        let r := src.foldl (fun (a : State × List Byte) p =>
          let q := a.1.engRead team p.1 p.2
          (q.1, a.2 ++ q.2)) (s, [])
        let s := r.1.cmdDone team cmd
        match mget? s.tasks node with
        | none => s
        | some n =>
          match s.vWrite t.die n.ctx (n.recAddr i) r.2 (some t.coreKey) with
          | none => s.selfEnd n.ctx t.die (n.recAddr i)
          | some s => s.nodeWritten node t.die i (some t.coreKey)
      | _ => s)

/-! ### The doorbell -/

/-- The die on which the part serves the host for a device: its lowest surviving one. -/
def State.hostDie (s : State) (dev : Nat) : Nat := ((s.diesOf dev).head?).getD 0

/-- HOST_TASK_DOORBELL (R78): a task is created, and its status stands in the doorbell page. A record whose address is no
multiple of 128 gives FIELD (log 41). -/
def execHostTaskDoorbell (ctx : Nat) (rec : DWord) (s : State) : Out :=
  .next (if !(s.ctx ctx).live || (s.ctx ctx).ended.isSome then s else
    let r := if rec.toNat % 128 ≠ 0 then (s, 2) else s.createTask (s.hostDie (ctxDevice ctx)) ctx rec.toNat
    r.1.modCtx ctx fun y => { y with doorbell := BitVec.ofNat 32 r.2 })

/-! ### Work queues -/

/-- A queue descriptor as it stands in memory (R91). -/
structure QDesc where
  at_    : Nat
  base   : Nat
  cfg    : Nat
  tail   : Nat
  head   : Nat
deriving DecidableEq, Repr

/-- Item bytes, capacity, CLOSED, and the legality of the codes ISZ and CAPLOG (R91); the zero bits are not looked at (log 99). -/
def QDesc.isz (q : QDesc) : Nat := 16 * 2 ^ (q.cfg / 32 % 8)
def QDesc.cap (q : QDesc) : Nat := 2 ^ (q.cfg % 32)
def QDesc.isClosed (q : QDesc) : Bool := q.cfg / 256 % 2 = 1
/-- The codes ISZ and CAPLOG are legal (R91); no zero bit of the descriptor is looked at (log 99). -/
def QDesc.ok (q : QDesc) : Bool := q.cfg / 32 % 8 ≤ 4 && 4 ≤ q.cfg % 32 && q.cfg % 32 ≤ 20
/-- The address of the n-th item (R91, R92). -/
def QDesc.slot (q : QDesc) (n : Nat) : Nat := q.base + n % q.cap * q.isz

/-- The descriptor of a context's local queue on a die; none when it is unbound. -/
def State.queueAt (s : State) (die x q : Nat) : Option Nat := (mget? (s.die die).queues (x * 16 + q)).map (·.desc)

/-- A descriptor read; none where it cannot be reached. -/
def State.readDesc (s : State) (die x a : Nat) : Option QDesc :=
  (s.vRead die x a 64).map fun b => ⟨a, le b 0 8, le b 8 4, le b 0x10 8, le b 0x18 8⟩

/-- A queue descriptor as a command meets it at its issue (R184, R223, R428): the trap of its translation or of its codes. -/
def State.queueDesc (s : State) (c : Cur) (a : Nat) : Except State QDesc :=
  match s.engRanges c [⟨false, a, 64, { rd := true, wr := true }⟩] with
  | .error t => .error t
  | .ok _ =>
    match s.readDesc c.team.die c.team.ctx a with
    | none => .error (s.selfEnd c.team.ctx c.team.die a)
    | some q => if q.ok then .ok q else .error (s.illop c 10)

/-- The bytes of a queue that a pull or a push touches (R223): its descriptor, which it writes, and item `n`'s slot, which a push
writes. -/
def State.queueFoot (s : State) (t : Team) (q : QDesc) (push : Bool) (n : Nat) : List Foot :=
  let part (a len : Nat) (wr : Bool) : List Foot :=
    match s.span t.die t.ctx a len { wr := wr } with
    | .ok l => footOf wr l
    | .error _ => []
  part q.at_ 64 true ++ part (q.slot n) q.isz push

/-- The item at HEAD pulled to a team's local offset (R427); none where the part's records cannot be reached. -/
def State.pullItem (s : State) (tid : Nat) (t : Team) (q : QDesc) (loc : Nat) : Option State :=
  match s.vRead t.die t.ctx (q.slot q.head) q.isz with
  | none => none
  | some item => ((s.arrWrite tid t loc item).l1Clear t.coreKey).vWrite t.die t.ctx (q.at_ + 0x18) (bytesOfNat 8 (q.head + 1)) (some t.coreKey)

/-- QPULL (R426, R427, R92). -/
def execQpull (f : FmtE) (s : State) : Out :=
  onSplit s fun c =>
    if !c.acts f.com then s else
    let t := c.team
    let loc := (c.rdS f.s1.toNat).toNat
    match s.queueAt t.die t.ctx f.qb.toNat with
    | none => s.illop c 10
    | some a =>
      match s.queueDesc c a with
      | .error t => t
      | .ok q =>
        if loc % 16 ≠ 0 then s.illop c 10 else
        let slot : List ERange := if q.head ≠ q.tail then [⟨false, q.slot q.head, q.isz, { rd := true }⟩] else []
        match s.engRanges c (⟨true, loc, q.isz, { wr := true }⟩ :: slot) with
        | .error t => t
        | .ok ps =>
          let answer (s : State) (v : Word) : State :=
            let c := (s.again c).deferI (.qpull f) 0 true
            s.effected { c with group := c.group.wrS f.s0.toNat v } (.qpull f) []
          if q.head ≠ q.tail then
            match s.pullItem c.ref.team t q loc with
            | some s => answer s 0
            | none => s.selfEnd t.ctx t.die a
          else if f.flg.getLsbD 0 then answer s 1
          else if q.isClosed then answer s 2
          else
            let (s, id) := s.fresh
            let c := c.deferI (.qpull f) id false
            let k := c.cmd (.qpull f.qb.toNat loc f.s0.toNat) (footOf true ps.flatten ++ s.queueFoot t q false q.head) false
            let c := (c.command (.qpull f) id k).fall
            s.put { c with split := { c.split with park := .qpull id, parked := 0 } }

/-- The item at HEAD taken for a QPULL that goes on to fetch it after its issue (R221, R427): the item's bytes. Where no item
waits, or a check fails, the instruction makes its effect at issue instead. -/
def State.takeItem (s : State) (c : Cur) (f : FmtE) : Option (State × Nat × List Byte × List Foot) :=
  let t := c.team
  let loc := (c.rdS f.s1.toNat).toNat
  match (s.queueAt t.die t.ctx f.qb.toNat).bind fun a => (s.queueDesc c a).toOption with
  | none => none
  | some q =>
    if loc % 16 ≠ 0 || q.head = q.tail then none else
    match s.engRanges c [⟨true, loc, q.isz, { wr := true }⟩, ⟨false, q.slot q.head, q.isz, { rd := true }⟩],
        s.vRead t.die t.ctx (q.slot q.head) q.isz with
    | .ok ps, some item =>
      (s.vWrite t.die t.ctx (q.at_ + 0x18) (bytesOfNat 8 (q.head + 1)) (some t.coreKey)).map fun s =>
        (s, loc, item, footOf true (ps.take 1).flatten ++ s.queueFoot t q false q.head)
    | _, _ => none

/-- QPULL_WAKE (R92, R427): a parked QPULL takes an item or finds the queue closed. The rules do not say what happens when its
descriptor can no longer be read: DESIGN CHOICE, nothing, and it goes on waiting (log 76). -/
def execQpullWake (r : Ref) (s : State) : Out :=
  .next (match s.lookup? r with
    | none => s
    | some c =>
      match c.split.park with
      | .qpull id =>
        match mget? c.team.cmds id with
        | some ⟨.qpull q loc reg, _, _, foot, _, _, _, _⟩ =>
          if c.team.status ≠ .resident || c.group.halted || !c.team.clear id foot then s else
          match (s.queueAt c.team.die c.team.ctx q).bind fun a => s.readDesc c.team.die c.team.ctx a with
          | none => s
          | some d =>
            let wake (s : State) (v : Word) : State :=
              let s := s.modGroup r.team r.group fun g => g.landS r.split [reg] fun g => g.wrS reg v
              (s.modSplit r fun p => { p with park := .none, parked := 0 }).cmdDone r.team id
            if d.head ≠ d.tail then
              match s.pullItem r.team c.team d loc with
              | some s => wake s 0
              | none => s.selfEnd c.team.ctx c.team.die d.at_
            else if d.isClosed then wake s 2 else s
        | _ => s
      | _ => s)

/-- The target die of a push, when it belongs to the context's device. -/
def State.pushDie (s : State) (c : Cur) (r : BitVec 8) : Option Nat :=
  let d := (c.rdS r.toNat).toNat
  if d < Config.dies && (s.diesOf (ctxDevice c.team.ctx)).contains d then some d else none

/-- What a push and a close ask for: the target die and the descriptor, or the trap. -/
def State.pushAsk (s : State) (c : Cur) (f : FmtE) : Except State (Nat × QDesc) :=
  match s.pushDie c f.s0 with
  | none => .error (s.illop c 10)
  | some d =>
    match s.queueAt d c.team.ctx f.qb.toNat with
    | none => .error (s.illop c 10)
    | some a => (s.queueDesc c a).map fun q => (d, q)

/-- QPUSH (R426, R428): the item is read and appended at QPUSH_APPEND. -/
def execQpush (f : FmtE) (s : State) : Out :=
  onSplit s fun c =>
    if !c.acts f.com then s else
    let loc := (c.rdS f.s1.toNat).toNat
    match s.pushAsk c f with
    | .error t => t
    | .ok (d, q) =>
      if loc % 16 ≠ 0 || q.isClosed then s.illop c 10 else
      match s.engRanges c [⟨true, loc, q.isz, { rd := true }⟩, ⟨false, q.slot q.tail, q.isz, { wr := true }⟩] with
      | .error t => t
      | .ok ps =>
        let (s, id) := s.fresh
        let foot := footOf false (ps.take 1).flatten ++ s.queueFoot c.team q true q.tail
        let k := c.cmd (.qpush d f.qb.toNat loc) foot false
        s.put (c.command (.qpush f) id k)

/-- Pushes to a queue issued on a die before command `id` that have not been appended (R428). -/
def State.pushesBefore (s : State) (from_ x die q id : Nat) : Bool :=
  s.teams.any fun t => t.2.die = from_ && t.2.ctx = x && t.2.cmds.any fun k => k.1 < id &&
    match k.2.kind with | .qpush d n _ => d = die && n = q | _ => false

/-- A close takes effect once no earlier push of its die is left (R428). While its descriptor cannot be read it goes on waiting:
DESIGN CHOICE, the rules say nothing of it (log 76). -/
def State.tryClose (s : State) (tid id : Nat) : State :=
  match (mget? s.teams tid).bind fun t => (mget? t.cmds id).map fun k => (t, k) with
  | some (t, ⟨.qclose d q, _, _, _, _, _, _, _⟩) =>
    if s.pushesBefore t.die t.ctx d q id then s else
    match (s.queueAt d t.ctx q).bind fun a => s.readDesc t.die t.ctx a with
    | none => s
    | some desc =>
      match s.vWrite t.die t.ctx (desc.at_ + 8) (bytesOfNat 4 (desc.cfg ||| 256)) (some t.coreKey) with
      | some s => s.modTeam tid fun t => { t with cmds := mmod t.cmds id fun k => { k with kind := .effected, begun := true } }
      | none => s.selfEnd t.ctx t.die desc.at_
  | _ => s

/-- QPUSH.close (R426, R428). -/
def execQpushClose (f : FmtE) (s : State) : Out :=
  onSplit s fun c =>
    if !c.acts f.com then s else
    match s.pushAsk c f with
    | .error t => t
    | .ok (d, q) =>
      let (s, id) := s.fresh
      let k := c.cmd (.qclose d f.qb.toNat) (s.queueFoot c.team q true q.tail) false
      (s.put (c.command (.qpushClose f) id k)).tryClose c.ref.team id

/-- QPUSH_APPEND (R428): a push with room appends its item; one that finds the queue closed by another die appends or drops
it, freely. Closes that waited for it follow. While its descriptor cannot be read it goes on waiting: DESIGN CHOICE, the rules say
nothing of it (log 76). -/
def execQpushAppend (team cmd : Nat) (s : State) : Out :=
  .next (match (mget? s.teams team).bind fun t => (mget? t.cmds cmd).map fun k => (t, k) with
    | some (t, ⟨.qpush d q loc, _, _, foot, _, _, _, _⟩) =>
      if t.status ≠ .resident || !t.clear cmd foot then s else
      match (s.queueAt d t.ctx q).bind fun a => s.readDesc t.die t.ctx a with
      | none => s
      | some desc =>
        if desc.cap ≤ desc.tail - desc.head then s else
        let r := if desc.isClosed then s.pick 2 else (s, 0)
        let item := r.1.arrRead t loc desc.isz
        match (if r.2 = 1 then some r.1 else
            (r.1.vWrite t.die t.ctx (desc.slot desc.tail) item (some t.coreKey)).bind fun s =>
              s.vWrite t.die t.ctx (desc.at_ + 0x10) (bytesOfNat 8 (desc.tail + 1)) (some t.coreKey)) with
        | none => r.1.selfEnd t.ctx t.die desc.at_
        | some s =>
          let s := s.cmdDone team cmd
          let closes := s.teams.flatMap fun u => (u.2.cmds.filter fun k => k.2.kind = .qclose d q).map fun k => (u.1, k.1)
          closes.foldl (fun s u => s.tryClose u.1 u.2) s
    | _ => s)

/-! ### ARRV -/

/-- ARRV (R339, R340): an arrival on a counter, atomic at device scope, and the acquire that follows it. -/
def execArrv (f : FmtE) (s : State) : Out :=
  onSplit s fun c =>
    if !c.acts f.com then s else
    let a := (c.rdPair f.s1.toNat).toNat
    let n := c.rdS f.s2.toNat
    if n = 0 then s.illop c 10
    else if a % 4 ≠ 0 then s.alignAt c
    else if (c.team.winOf a).isSome then s.protAt c 6
    else match s.engRanges c [⟨false, a, 4, { wr := true }⟩] with
      | .error t => t
      | .ok ps =>
        match ps.flatten with
        | [] => s
        | (p, _) :: _ =>
          let r := s.engRead c.ref.team p 4
          let old : Word := BitVec.ofNat 32 (natOfBytes r.2)
          let last := old + 1 == n
          let new := if last && f.flg.getLsbD 3 then 0 else old + 1
          let s := (r.1.engWrite c.ref.team p (bytesOfNat 4 new.toNat)).l1Clear c.team.coreKey
          let c := (s.again c).deferI (.arrv f) 0 true
          let c := { c with group := c.group.wrS f.s0.toNat old }
          s.effected (c.wrPred f.com (f.flg.toNat % 8) fun _ => last) (.arrv f) []

end Sys2Proof.Machine
end

