-- ==== Sys2Proof/Machine/Rings.lean ====
section
/-! DEFINITION. Collectives on the rings (R278 to R289): RAG, RRS, RHND, RWAIT and RRANK (R429, R436 to R438), the movement of
tiles, and what a wrap does to them. -/
namespace Sys2Proof.Machine

/-! ### Descriptors -/

/-- The wire type of a code (R279). -/
def wireTy (w : Nat) : Ty :=
  match w with | 0 => .f32 | 1 => .s32 | 2 => .bf16 | 3 => .f16 | 4 => .e4m3x4 | _ => .e5m2x4
/-- The bytes of a wire element (R279). -/
def wireSize (w : Nat) : Nat := if w < 2 then 4 else if w < 4 then 2 else 1

/-- A sum of narrow values lands as FP32 (R286). -/
def RingDesc.widens (d : RingDesc) (op : RingOp) : Bool := op = .rrs && d.rop = 0 && 4 ≤ d.wtype
/-- The bytes of a row as it lands. -/
def RingDesc.outBytes (d : RingDesc) (op : RingOp) : Nat := if d.widens op then 4 * d.rbytes else d.rbytes

/-- The fields of a descriptor (R279). -/
def ringDescOf (b : List Byte) : RingDesc :=
  let ctl := le b 0 4
  { res := ctl.testBit 10, rop := ctl / 256 % 4, wtype := ctl / 16 % 16, dloc := ctl.testBit 3, sloc := ctl.testBit 2
    ring := ctl % 4, mask := BitVec.ofNat 16 (le b 4 4), src := le b 8 8, sstr := le b 0x10 8, dst := le b 0x18 8
    dstr := le b 0x20 8, cnt := le b 0x28 8, cstr := le b 0x30 8, resb := le b 0x38 8, rows := le b 0x40 4, rbytes := le b 0x44 4
    spitch := le b 0x48 4, dpitch := le b 0x4C 4, nt := le b 0x50 4, chunk := le b 0x58 8, stat := le b 0x60 8 }

/-- A descriptor obeys R279. -/
def ringDescOk (b : List Byte) (op : RingOp) : Bool :=
  let d := ringDescOf b
  le b 0 4 < 2048 && le b 4 4 < 65536 && d.rop ≠ 3 && d.wtype < 6 && d.ring ≠ 3 && le b 0x54 4 = 0 && (b.drop 0x68).all (· = 0) &&
  !(d.res && (d.rop ≠ 0 || d.wtype < 4)) && (d.res || d.resb = 0) && (op = .rrs || (d.rop = 0 && !d.res)) &&
  !(d.sloc && d.sstr ≠ 0) && !(d.dloc && d.dstr ≠ 0) && d.cnt % 4 = 0 && d.cstr % 4 = 0 && d.resb % 4 = 0 &&
  1 ≤ d.rows && d.rows ≤ 1024 && d.rbytes % 16 = 0 && 16 ≤ d.rbytes && d.rbytes ≤ 4096 &&
  d.spitch % 16 = 0 && d.rbytes ≤ d.spitch && d.dpitch % 16 = 0 && d.outBytes op ≤ d.dpitch && 1 ≤ d.nt && d.nt ≤ 4096 &&
  d.nt * d.rows * max d.spitch d.dpitch ≤ d.chunk

/-- The members of a collective in rank order (R278). -/
def State.ringMembers (s : State) (dev : Nat) (d : RingDesc) : List Nat :=
  (s.ringOf dev).filter fun x => d.mask = 0 || d.mask.getLsbD x

/-! ### Tiles -/

/-- The number of members. -/
def RingCmd.n (k : RingCmd) : Nat := k.members.length

/-- A command's own tiles (R280): of RAG by member and tile, of RHND by tile, of RRS by chunk and tile. -/
def RingCmd.tiles (k : RingCmd) : List Nat :=
  match k.op with
  | .rhnd => List.range k.d.nt
  | _ => List.range (k.n * k.d.nt)

/-- The rows of a source tile: tile `t` of chunk `j` (R280). -/
def RingCmd.srcRows (k : RingCmd) (j t : Nat) : List Nat :=
  (List.range k.d.rows).map fun i => k.d.src + k.rank * k.d.sstr + j * k.d.chunk + (t * k.d.rows + i) * k.d.spitch

/-- The rows where a tile of the command lands (R280). -/
def RingCmd.dstRows (k : RingCmd) (tile : Nat) : List Nat :=
  let t := tile % k.d.nt
  let base := match k.op with
    | .rag => k.d.dst + tile / k.d.nt * k.d.dstr + k.rank * k.d.chunk
    | .rhnd => k.d.dst + k.target * k.d.dstr + k.rank * k.d.chunk
    | .rrs => k.d.dst + tile / k.d.nt * k.d.dstr
  (List.range k.d.rows).map fun i => base + (t * k.d.rows + i) * k.d.dpitch

/-- The arrival counter of a tile that the command lands (R280). -/
def RingCmd.counter (k : RingCmd) (tile : Nat) : Nat :=
  let t := tile % k.d.nt
  match k.op with
  | .rag => k.d.cnt + tile / k.d.nt * k.d.cstr + 4 * (k.rank * k.d.nt + t)
  | .rhnd => k.d.cnt + k.target * k.d.cstr + 4 * (k.rank * k.d.nt + t)
  | .rrs => k.d.cnt + tile / k.d.nt * k.d.cstr + 4 * t

/-- The rank at which a tile lands. -/
def RingCmd.lands (k : RingCmd) (tile : Nat) : Nat :=
  match k.op with
  | .rag => tile / k.d.nt
  | .rhnd => k.target
  | .rrs => tile / k.d.nt

/-- The chunk of the source that a tile is of (R280). -/
def RingCmd.chunkOf (k : RingCmd) (tile : Nat) : Nat := match k.op with | .rrs => tile / k.d.nt | _ => k.rank

/-- A tile of RRS that the command forwards, rather than one that it owns. -/
def RingCmd.forwards (k : RingCmd) (tile : Nat) : Bool := k.op = .rrs && tile / k.d.nt ≠ k.rank

/-- The residual rows of a tile, one for each source row (R286). -/
def RingCmd.resRows (k : RingCmd) (tile : Nat) : List Nat :=
  let off := tile / k.d.nt * k.d.chunk + tile % k.d.nt * k.d.rows * k.d.spitch
  (List.range k.d.rows).map fun i => k.d.resb + k.rank * k.d.sstr + (off + i * k.d.spitch) * 4 / wireSize k.d.wtype

/-- The bytes of a residual row. -/
def RingCmd.resLen (k : RingCmd) : Nat := 4 * (k.d.rbytes / wireSize k.d.wtype)

/-- The status word of a member (R285). -/
def RingCmd.statusAt (k : RingCmd) (m : Nat) : Nat := k.d.stat + 4 * m
/-- The status word of the command's member. -/
def RingCmd.status (k : RingCmd) : Nat := k.statusAt k.rank

/-- Whether a tile of a reduction goes clockwise (R281). -/
def RingCmd.goesCw (k : RingCmd) (tile : Nat) : Bool := k.d.ring = 0 || (k.d.ring = 2 && tile % k.d.nt % 2 = 0)

/-- The order in which the ranks reduce a chunk (R170). -/
def ringPath (n owner : Nat) (cw : Bool) : List Nat :=
  (List.range n).map fun i => if cw then (owner + i + 1) % n else (owner + 2 * n - i - 1) % n

/-! ### Issue -/

/-- Every range of a command, at every member (R285, R184): its sources, where its tiles land and their counters, its residuals and
the status words. With DLOC the local range is the whole of what members deliver to this team. -/
def RingCmd.ranges (k : RingCmd) : List ERange :=
  let src := k.tiles.flatMap fun x => (k.srcRows (k.chunkOf x) (x % k.d.nt)).map fun a => (⟨k.d.sloc, a, k.d.rbytes, { rd := true }⟩ : ERange)
  let dst := if k.d.dloc then [] else
    k.tiles.flatMap fun x => (k.dstRows x).map fun a => (⟨false, a, k.d.outBytes k.op, { wr := true }⟩ : ERange)
  let span := (k.d.nt * k.d.rows - 1) * k.d.dpitch + k.d.outBytes k.op + (if k.op = .rrs then 0 else (k.n - 1) * k.d.chunk)
  let own : List ERange := if k.d.dloc then [⟨true, k.d.dst, span, { wr := true }⟩] else []
  let cnt := k.tiles.map fun x => (⟨false, k.counter x, 4, { rd := true, wr := true }⟩ : ERange)
  let res := if !k.d.res then [] else (k.tiles.filter k.forwards).flatMap fun x =>
    (k.resRows x).map fun a => (⟨false, a, k.resLen, { rd := true, wr := true }⟩ : ERange)
  let stat := (List.range k.n).map fun m => (⟨false, k.statusAt m, 4, { wr := true }⟩ : ERange)
  src ++ dst ++ own ++ cnt ++ res ++ stat

/-- The footprint of a command: its local source, its descriptor and its local destination (R285). -/
def ringFoot (desc : List (Place × Nat)) (rs : List ERange) : List Foot :=
  footOf false desc ++ (rs.filter (·.loc)).map fun r => { place := .arr r.addr, len := r.len, write := r.need.wr }

/-- A ring command issued (R429): the checks, the translation of every address, and the command's entry. -/
def ringIssue (i : Instr) (f : FmtE) (op : RingOp) (s : State) : Out :=
  onSplit s fun c =>
    if !c.acts f.com then s else
    let a := (c.rdPair f.s0.toNat).toNat
    if a % 128 ≠ 0 then s.illop c 10 else
    match s.engRanges c [⟨false, a, 128, { rd := true }⟩], s.issueRead c a 128 with
    | .error t, _ | _, .error t => t
    | .ok dp, .ok (s, b) =>
      let c := s.again c
      let d := ringDescOf b
      let ms := s.ringMembers (ctxDevice c.team.ctx) d
      let target := if op = .rhnd then (c.rdS f.s1.toNat).toNat else 0
      match rankIn ms c.team.die with
      | none => s.illop c 10
      | some rank =>
        if !ringDescOk b op || ms.length ≤ target then s.illop c 10 else
        let k : RingCmd :=
          { op := op, d := d, desc := a, count := mget 0 c.team.issues a, die := c.team.die, members := ms, rank := rank
            target := target, rnd := c.split.fmtRnd, sat := c.split.fmtSat, pages := [], left := [] }
        let k := { k with left := k.tiles }
        match s.engRanges c k.ranges with
        | .error t => t
        | .ok _ =>
          let pages := s.leaves c (k.ranges.filter fun r => !r.loc)
          let (s, id) := s.fresh
          let cmd := { c.cmd (.ring { k with pages := pages }) (ringFoot dp.flatten k.ranges) false with vpns := pages.map (·.1) }
          let c := c.command i id cmd
          let t := { c.team with issues := mput c.team.issues a (k.count + 1) }
          ((s.put { c with team := t }).modTeam c.ref.team fun t => t.startCopy id)

/-- RAG (R429). -/
def execRag (f : FmtE) (s : State) : Out := ringIssue (.rag f) f .rag s
/-- RRS (R429). -/
def execRrs (f : FmtE) (s : State) : Out := ringIssue (.rrs f) f .rrs s
/-- RHND (R429). -/
def execRhnd (f : FmtE) (s : State) : Out := ringIssue (.rhnd f) f .rhnd s

/-! ### Bytes of a command -/

/-- The team that holds a command, and the command. -/
def State.cmdOf (s : State) (id : Nat) : Option (Nat × Team × Cmd) :=
  s.teams.findSome? fun t => (mget? t.2.cmds id).map fun k => (t.1, t.2, k)

/-- A ring command in progress. -/
def State.ringOfCmd (s : State) (id : Nat) : Option (Nat × Team × Cmd × RingCmd) :=
  (s.cmdOf id).bind fun x => match x.2.2.kind with | .ring k => some (x.1, x.2.1, x.2.2, k) | _ => none

/-- The pieces of a global range under the leaves that a command holds (R184). -/
def State.heldPieces (s : State) (x : Nat) (pages : SMap DWord) (a n : Nat) : List (Place × Nat) :=
  (pageChunks a n).filterMap fun c =>
    (mget? pages (c.1 / 65536)).bind fun e => (s.placeOf x c.1 e).map fun p => (p, c.2)

/-- Global bytes of a command read. -/
def State.heldRead (s : State) (tid x : Nat) (pages : SMap DWord) (a n : Nat) : State × List Byte :=
  (s.heldPieces x pages a n).foldl (fun (z : State × List Byte) p => let r := z.1.engRead tid p.1 p.2; (r.1, z.2 ++ r.2)) (s, [])

/-- Global bytes of a command written. -/
def State.heldWrite (s : State) (tid x : Nat) (pages : SMap DWord) (a : Nat) (bs : List Byte) : State :=
  ((s.heldPieces x pages a bs.length).foldl (fun (z : State × List Byte) p =>
    (z.1.engWrite tid p.1 (z.2.take p.2), z.2.drop p.2)) (s, bs)).1

/-- Local bytes of a team: those of its save frame while it is pre-empted. -/
def State.localBytes (s : State) (t : Team) (a n : Nat) : List Byte :=
  if t.status = .saved then (t.saved.drop a).take n else s.arrRead t a n

/-- The bytes of a source tile, row after row. -/
def State.readTile (s : State) (tid : Nat) (t : Team) (k : RingCmd) (tile : Nat) : State × List (List Byte) :=
  (k.srcRows (k.chunkOf tile) (tile % k.d.nt)).foldl (fun (z : State × List (List Byte)) a =>
    if k.d.sloc then (z.1, z.2 ++ [z.1.localBytes t a k.d.rbytes])
    else let r := z.1.heldRead tid t.ctx k.pages a k.d.rbytes; (r.1, z.2 ++ [r.2])) (s, [])

/-- The teams on a member that take deliveries of a command with DLOC (R284): resident, and the command that they have issued
with the same count has begun. -/
def State.receivers (s : State) (x die desc count : Nat) : List Nat :=
  (s.teams.filter fun t => t.2.ctx = x && t.2.die = die && t.2.status = .resident && count < mget 0 t.2.issues desc &&
    t.2.cmds.all fun q => match q.2.kind with
      | .ring k => q.2.begun || k.desc ≠ desc || k.count ≠ count
      | _ => true).map (·.1)

/-- Where a tile is delivered: the team whose array takes it, none for global memory; or it must wait. -/
def State.deliverTo (s : State) (t : Team) (k : RingCmd) (die tid : Nat) : Option (State × Option Nat) :=
  if !k.d.dloc then some (s, none)
  else if k.op = .rrs then (if t.status = .resident then some (s, some tid) else none)
  else match s.receivers t.ctx die k.desc k.count with
    | [] => none
    | r :: rs => let (s, i) := if rs.isEmpty then (s, 0) else s.pick (rs.length + 1); some (s, some (((r :: rs)[i]?).getD r))

/-- Rows of a tile written where they land; a row that lies outside the array of the team that takes it is lost. -/
def State.landRows (s : State) (tid : Nat) (t : Team) (k : RingCmd) (rcv : Option Nat) (rows : List (Nat × List Byte)) : State :=
  rows.foldl (fun s r => match rcv with
    | none => s.heldWrite tid t.ctx k.pages r.1 r.2
    | some u => match mget? s.teams u with
      | some v => if r.1 + r.2.length ≤ v.bytes then s.arrWrite u v r.1 r.2 else s
      | none => s) s

/-- The arrival counter of a tile plus one (R282), at its peer where it lies on one's page (R180). -/
def State.bumpCounter (s : State) (tid x : Nat) (pages : SMap DWord) (a : Nat) : State :=
  match s.heldPieces x pages a 4 with
  | [(.peer pkg off, _)] => s.putPeer tid x pkg off (bytesOfNat 4 1) true
  | _ =>
    let r := s.heldRead tid x pages a 4
    r.1.heldWrite tid x pages a (bytesOfNat 4 ((natOfBytes r.2 + 1) % 2 ^ 32))

/-- A command's record changed. -/
def State.modRing (s : State) (tid id : Nat) (f : RingCmd → RingCmd) : State :=
  s.modTeam tid fun t => { t with cmds := mmod t.cmds id fun q => match q.kind with
    | .ring k => { q with kind := .ring (f k) }
    | _ => q }

/-- The pieces that a ring command writes (R285). -/
def State.ringWrites (s : State) (x : Nat) (k : RingCmd) : List (Place × Nat) :=
  (k.ranges.filter fun r => !r.loc && r.need.wr).flatMap fun r => s.heldPieces x k.pages r.addr r.len

/-- A ring command is complete, or will be when what it wrote to peers has arrived there (R180). -/
def State.ringOut (s : State) (tid id x : Nat) (k : RingCmd) : State :=
  (s.cmdOut tid id (if s.fab.asks.isEmpty then [] else s.ringWrites x k)).settle tid

/-- The pieces that a tile of a command reads (R184): its source, and the residuals where it is forwarded. -/
def State.tileReads (s : State) (x : Nat) (k : RingCmd) (tile : Nat) : List (Place × Nat) :=
  (if k.d.sloc then [] else (k.srcRows (k.chunkOf tile) (tile % k.d.nt)).flatMap fun a => s.heldPieces x k.pages a k.d.rbytes) ++
  if k.d.res && k.forwards tile then (k.resRows tile).flatMap fun a => s.heldPieces x k.pages a k.resLen else []

/-- What a tile reads at peers is asked for first (R180): none once it has come. -/
def State.tileAsks (s : State) (tid id : Nat) (t : Team) (k : RingCmd) (tile : Nat) : Option State :=
  if k.pages.all fun e => field e.2 8 2 = 0 then none else s.needPeers (.cmd id) (some tid) t.ctx (s.tileReads t.ctx k tile)

/-- A tile is done; after the last one the status word reads OK and the command is complete (R285). -/
def State.ringTileDone (s : State) (tid id tile : Nat) : State :=
  let s := s.modRing tid id fun k => { k with left := k.left.erase tile, held := mdel k.held tile, early := mdel k.early tile }
  match s.ringOfCmd id with
  | some (_, t, _, k) =>
    if k.left.isEmpty then (s.heldWrite tid t.ctx k.pages k.status (bytesOfNat 4 1)).ringOut tid id t.ctx k else s
  | none => s

/-! ### Reductions (R286) -/

/-- The type in which a wire type accumulates. -/
def accTy (w : Nat) : Ty := if 4 ≤ w then .f32 else wireTy w

/-- The operation of a reduction on two values. -/
def ringFOp (rop : Nat) (a b : FVal) : FVal := match rop with | 0 => a.add 0 b | 1 => a.max b | _ => a.min b
/-- The operation of a reduction on two integers; the sum wraps. -/
def ringIOp (rop : Nat) (a b : Nat) : Nat :=
  match rop with
  | 0 => (a + b) % 2 ^ 32
  | 1 => if toInt true 32 a ≥ toInt true 32 b then a else b
  | _ => if toInt true 32 a ≤ toInt true 32 b then a else b

/-- The accumulated value at a member: the incoming element combined with its own, in the accumulation type. -/
def accElem (w rop : Nat) (inc : Option Nat) (x : Nat) : Nat :=
  if w = 1 then (match inc with | none => x | some i => ringIOp rop i x) else
  let ff := floatFmt (wireTy w)
  let v := ff.decode x
  match inc with
  | none => if w < 4 then x else f32Fmt.round 0 false v
  | some i => (floatFmt (accTy w)).round 0 false (ringFOp rop (ff.decode i) v)

/-- What a forwarding member sends for an element, and its residual afterwards. -/
def forwardElem (k : RingCmd) (inc : Option Nat) (x res : Nat) : Nat × Nat :=
  let w := k.d.wtype
  let v := accElem w k.d.rop inc x
  if w < 4 then (v, res) else
  let ff := floatFmt (wireTy w)
  let sat := satFor (wireTy w) false k.sat
  if k.d.res then
    let y := f32Fmt.decode (f32Fmt.round 0 false ((f32Fmt.decode v).add 0 (f32Fmt.decode res)))
    let q := ff.round k.rnd sat y
    (q, match ff.decode q with
      | .fin b m e => f32Fmt.round 0 false (y.add 0 (.fin (!b) m e))
      | _ => 0)
  else (ff.round k.rnd sat (f32Fmt.decode v), res)

/-- The element that the owner writes. -/
def ownerElem (k : RingCmd) (inc : Option Nat) (x : Nat) : Nat :=
  let w := k.d.wtype
  let v := accElem w k.d.rop inc x
  if w = 1 then v
  else if w < 4 || k.d.rop = 0 then (floatFmt (accTy w)).round 0 false ((floatFmt (accTy w)).decode v)
  else (floatFmt (wireTy w)).round 0 false (f32Fmt.decode v)

/-- The elements of rows of bytes, `z` bytes each. -/
def elemsOf (z : Nat) (bs : List Byte) : List Nat := (List.range (bs.length / z)).map fun i => le bs (z * i) z

/-- A held tile is the one that a command waits for. -/
def HeldTile.isFor (h : HeldTile) (x : Nat) (k : RingCmd) (rank tile : Nat) : Bool :=
  h.ctx = x && h.desc = k.desc && h.count = k.count && h.rank = rank && h.tile = tile

/-- The incoming elements of a tile at a command's member: none at the member where it starts; or it has not come yet. -/
def State.incoming (s : State) (x : Nat) (k : RingCmd) (tile : Nat) : Option (Option (List Nat)) :=
  if (ringPath k.n (tile / k.d.nt) (k.goesCw tile)).head? = some k.rank then some none
  else (s.tiles.find? fun h => h.isFor x k k.rank tile).map fun h => some h.elems

/-- The incoming tile is taken out of the engine. -/
def State.takeTile (s : State) (x : Nat) (k : RingCmd) (tile : Nat) : State :=
  match s.tiles.find? fun h => h.isFor x k k.rank tile with
  | some h => { s with tiles := s.tiles.erase h }
  | none => s

/-- The rows that the owner writes for a tile, with their addresses. -/
def ownerRows (k : RingCmd) (tile : Nat) (inc : Option (List Nat)) (src : List (List Byte)) : List (Nat × List Byte) :=
  let z := wireSize k.d.wtype
  let per := k.d.rbytes / z
  let out := if k.d.widens k.op then 4 else z
  (k.dstRows tile).zipIdx.map fun a =>
    (a.1, ((elemsOf z ((src[a.2]?).getD [])).zipIdx.flatMap fun e =>
      bytesOfNat out (ownerElem k (inc.map fun l => (l[a.2 * per + e.2]?).getD 0) e.1)))

/-- One row of a forwarded tile: what is sent, and the residuals. -/
def forwardRow (k : RingCmd) (inc : Option (List Nat)) (i : Nat) (src res : List Byte) : List (Nat × Nat) :=
  let z := wireSize k.d.wtype
  let per := k.d.rbytes / z
  (elemsOf z src).zipIdx.map fun e =>
    forwardElem k (inc.map fun l => (l[i * per + e.2]?).getD 0) e.1 (le res (4 * e.2) 4)

/-- A forwarded tile: the state with its residuals written, and the elements to send. `keep` picks an element whose residual
stays. -/
def State.forwardTile (s : State) (tid : Nat) (t : Team) (k : RingCmd) (tile : Nat) (inc : Option (List Nat)) (src : List (List Byte))
    (keep : State → State × Bool) : State × List Nat :=
  src.zipIdx.foldl (fun (z : State × List Nat) r =>
    let ra := ((k.resRows tile)[r.2]?).getD 0
    let old := if k.d.res then z.1.heldRead tid t.ctx k.pages ra k.resLen else (z.1, [])
    let es := forwardRow k inc r.2 r.1 old.2
    let new := es.zipIdx.foldl (fun (y : State × List Byte) e =>
      let q := keep y.1
      (q.1, y.2 ++ bytesOfNat 4 (if q.2 then le old.2 (4 * e.2) 4 else e.1.2))) (old.1, [])
    (if k.d.res then new.1.heldWrite tid t.ctx k.pages ra new.2 else old.1, z.2 ++ es.map (·.1))) (s, [])

/-! ### Events -/

/-- The die of a member is in service. -/
def State.memberUp (s : State) (k : RingCmd) (rank : Nat) : Bool :=
  match k.members[rank]? with
  | some d => !(s.die d).failed
  | none => false

/-- RING_TILE_ACCEPT (R284, R285): the engine reads a tile to be delivered; or, of a reduction, it combines a tile that it
forwards, and the next member's engine accepts it. -/
def execRingTileAccept (cmd tile : Nat) (s : State) : Out :=
  .next (match s.ringOfCmd cmd with
    | none => s
    | some (tid, t, q, k) =>
      if !q.begun || !k.left.contains tile then s else
      match s.tileAsks tid cmd t k tile with
      | some s => s
      | none =>
      if !k.forwards tile then
        if k.op = .rrs || (mget? k.held tile).isSome then s else
        let r := s.readTile tid t k tile
        r.1.modRing tid cmd fun k => { k with held := mput k.held tile r.2.flatten }
      else
        match s.incoming t.ctx k tile with
        | none => s
        | some inc =>
          let path := ringPath k.n (tile / k.d.nt) (k.goesCw tile)
          let next := (path[path.idxOf k.rank + 1]?).getD 0
          if !s.memberUp k next then s else
          let r := (s.takeTile t.ctx k tile).readTile tid t k tile
          let o := r.1.forwardTile tid t k tile inc r.2 fun s => (s, false)
          let h : HeldTile := { ctx := t.ctx, desc := k.desc, count := k.count, rank := next, tile := tile, elems := o.2 }
          ({ o.1 with tiles := o.1.tiles ++ [h] }).ringTileDone tid cmd tile)

/-- The rows that a tile lands with, once the command may land it: the state, and the rows with their addresses. -/
def State.landing (s : State) (tid : Nat) (t : Team) (k : RingCmd) (tile : Nat) : Option (State × List (Nat × List Byte)) :=
  if k.forwards tile || !s.memberUp k (k.lands tile) then none
  else if k.op = .rrs then
    (s.incoming t.ctx k tile).map fun inc =>
      let r := (s.takeTile t.ctx k tile).readTile tid t k tile
      (r.1, ownerRows k tile inc r.2)
  else
    let r := match mget? k.held tile with
      | some b => (s, (List.range k.d.rows).map fun i => (b.drop (i * k.d.rbytes)).take k.d.rbytes)
      | none => s.readTile tid t k tile
    some (r.1, (k.dstRows tile).zip r.2)

/-- Of a tile's rows, those that have not landed yet (R282). -/
def RingCmd.rowsLeft (k : RingCmd) (tile : Nat) (rows : List (Nat × List Byte)) : List (Nat × List Byte) :=
  (rows.zipIdx.filter fun r => !(mget [] k.early tile).contains r.2).map (·.1)

/-- RING_TILE_ARRIVE (R282, R284): a tile's last byte is written at its member and its counter incremented. -/
def execRingTileArrive (cmd tile : Nat) (s : State) : Out :=
  .next (match s.ringOfCmd cmd with
    | none => s
    | some (tid, t, q, k) =>
      if !q.begun || !k.left.contains tile then s else
      match s.tileAsks tid cmd t k tile with
      | some s => s
      | none =>
      match (s.landing tid t k tile).bind fun r =>
        (r.1.deliverTo t k ((k.members[k.lands tile]?).getD 0) tid).map fun d => (d.1, d.2, r.2) with
      | none => s
      | some (s, rcv, rows) =>
        ((s.landRows tid t k rcv (k.rowsLeft tile rows)).bumpCounter tid t.ctx k.pages (k.counter tile)).ringTileDone tid cmd tile)

/-- One row of a tile written at its member before the tile's last byte (R282). -/
def State.tileRow (s : State) (cmd tile row : Nat) : State :=
  match s.ringOfCmd cmd with
  | none => s
  | some (tid, t, q, k) =>
    if !q.begun || !k.left.contains tile || (mget [] k.early tile).contains row || (s.tileAsks tid cmd t k tile).isSome then s else
    match (s.landing tid t k tile).bind fun r =>
      (({ r.1 with tiles := s.tiles } : State).deliverTo t k ((k.members[k.lands tile]?).getD 0) tid).bind fun d =>
        (r.2[row]?).map fun x => (d.1, d.2, x) with
    | some (u, rcv, x) =>
      (u.landRows tid t k rcv [x]).modRing tid cmd fun k =>
        { k with early := mput k.early tile (row :: mget [] k.early tile) }
    | none => s

/-! ### RWAIT and RRANK -/

/-- RWAIT (R437, R438): the split parks. -/
def execRwait (f : FmtE) (s : State) : Out :=
  onSplit s fun c =>
    if !c.acts f.com then s else
    let a := (c.rdPair f.s0.toNat).toNat
    if a % 4 ≠ 0 then s.alignAt c
    else if (c.team.winOf a).isSome then s.protAt c 6
    else match s.engRanges c [⟨false, a, 4, { rd := true }⟩] with
      | .error t => t
      | .ok ps =>
        let place := (((ps.flatten)[0]?).map (·.1)).getD (.hbm 0)
        let (s, id) := s.fresh
        let k := c.cmd (.rwait place (c.rdS f.s1.toNat) (f.flg.toNat % 8) (c.pass f.com) false) (footOf false ps.flatten) false
        let c := (c.command (.rwait f) id { k with vpns := vpages a 4 }).fall
        s.put { c with split := { c.split with park := .rwait id, parked := 0 } }

/-- A parked RWAIT ends with a value in pd (R438). -/
def State.endWait (s : State) (r : Ref) (id pd : Nat) (ls : Lanes) (v : Bool) : State :=
  let s := s.modGroup r.team r.group fun g => g.wrP pd ls (if v then BitVec.allOnes 64 else 0)
  (s.modSplit r fun p => { p with park := .none, parked := 0 }).cmdDone r.team id

/-- RWAIT_SATISFIED (R283, R438): the counter reads at least the target, and the split acquires it; or a wrap has ended the
wait. A counter on a peer's page is asked for anew each time (R180). -/
def execRwaitSatisfied (r : Ref) (s : State) : Out :=
  .next (match s.lookup? r with
    | none => s
    | some c =>
      match c.split.park with
      | .rwait id =>
        match mget? c.team.cmds id with
        | some ⟨.rwait ctr target pd ls wrapped, _, _, foot, _, _, _, _⟩ =>
          if c.team.status ≠ .resident || c.group.halted then s
          else if wrapped then s.endWait r id pd ls false
          else if !c.team.clear id foot then s
          else match s.needPeers (.cmd id) (some r.team) c.team.ctx [(ctr, 4)] with
          | some s => s
          | none =>
            let v := s.engRead r.team ctr 4
            if target.toNat ≤ natOfBytes v.2 then (v.1.l1Clear c.team.coreKey).endWait r id pd ls true
            else s.unask fun a => a.who = .cmd id && a.got.isSome
        | _ => s
      | _ => s)

/-- RRANK (R436): the answer is written when it completes. -/
def execRrank (f : FmtE) (s : State) : Out :=
  onSplit s fun c =>
    if !c.acts f.com then s else
    let (s, id) := s.fresh
    let c := c.deferI (.rrank f) id false
    s.put (c.command (.rrank f) id (c.cmd (.rrank f.s0.toNat) [] true))

/-! ### A wrap -/

/-- A row of a tile that a wrap cuts short: each aligned 16-byte unit of it has landed or not, freely (R288). -/
def State.landUnits (s : State) (tid : Nat) (t : Team) (k : RingCmd) (rcv : Option Nat) (a : Nat) (new : List Byte) : State :=
  (List.range ((a % 16 + new.length + 15) / 16)).foldl (fun s u =>
    let lo := u * 16 - a % 16
    let n := (u + 1) * 16 - a % 16 - lo
    let q := s.pick 2
    if q.2 = 0 then q.1 else q.1.landRows tid t k rcv [(a + lo, (new.drop lo).take n)]) s

/-- A tile that a wrap cuts short (R288): each 16-byte unit of its destination, and each residual, is old or new. One whose bytes
have not come from a peer yet has written nothing. -/
def State.cutTile (s : State) (tid : Nat) (t : Team) (k : RingCmd) (id tile : Nat) : State :=
  if (s.tileAsks tid id t k tile).isSome then s
  else if k.forwards tile then
    match s.incoming t.ctx k tile with
    | none => s
    | some inc =>
      if !k.d.res then s else
      let r := s.readTile tid t k tile
      (r.1.forwardTile tid t k tile inc r.2 fun s => let q := s.pick 2; (q.1, q.2 = 0)).1
  else
    match (s.landing tid t k tile).bind fun r =>
      (r.1.deliverTo t k ((k.members[k.lands tile]?).getD 0) tid).map fun d => (d.1, d.2, r.2) with
    | none => s
    | some (s, rcv, rows) =>
      rows.foldl (fun s r => s.landUnits tid t k rcv r.1 r.2) s

/-- A ring command ends at a wrap (R288): its status words read RINGWRAP at every member. -/
def State.wrapCmd (s : State) (tid id : Nat) : State :=
  match s.ringOfCmd id with
  | some (_, t, q, k) =>
    let s := if q.begun then k.left.foldl (fun s x => s.cutTile tid t k id x) s else s
    ((List.range k.n).foldl (fun s m => s.heldWrite tid t.ctx k.pages (k.statusAt m) (bytesOfNat 4 2)) s).ringOut tid id t.ctx k
  | none => s

/-- A parked RWAIT at a wrap (R283): it ends, or will when its split runs again. -/
def State.wrapWait (s : State) (tid id : Nat) : State :=
  match s.cmdOf id with
  | some (_, t, ⟨.rwait _ _ pd ls _, g, p, _, _, _, _, _⟩) =>
    if t.status = .resident && !(((mget? t.groups g).map (·.halted)).getD false) then s.endWait ⟨tid, g, p⟩ id pd ls false
    else s.modTeam tid fun t => { t with cmds := mmod t.cmds id fun q => match q.kind with
      | .rwait c v pd ls _ => { q with kind := .rwait c v pd ls true }
      | _ => q }
  | _ => s

/-- The ring commands and RWAITs of the devices that a wrap affects, by team and number. -/
def State.wrapHits (s : State) (devs : List Nat) : List (Nat × Nat × Bool) :=
  (s.teams.filter fun t => devs.contains (ctxDevice t.2.ctx)).flatMap fun t => t.2.cmds.filterMap fun q =>
    match q.2.kind with
    | .ring _ => some (t.1, q.1, true)
    | .rwait _ _ _ _ _ => some (t.1, q.1, false)
    | _ => none

/-- The device event RINGWRAP in the fault queue of a context (R288, R309, R316). -/
def State.reportWrap (s : State) (x : Nat) : State :=
  let dev := ctxDevice x
  let die := s.hostDie dev
  s.faultPush die x (faultRecord (trapInfo false 0 3 Cause.ringwrap.code (BitVec.ofNat 32 (s.ringOf dev).length)) 0
    (s.timeOf die) die 0 0 0 3 0)

/-- WRAP_EFFECT (R18, R288): the wrap takes effect; ring commands in flight end, waits end, and every context of the partitions
affected hears of it. -/
def execWrapEffect (s : State) : Out :=
  .next (match s.mgmt.due with
    | none => s
    | some b =>
      let devs := s.mgmt.hit
      let hits := s.wrapHits devs
      let s := hits.foldl (fun s h => if h.2.2 then s.wrapCmd h.1 h.2.1 else s) s
      let s := hits.foldl (fun s h => if h.2.2 then s else s.wrapWait h.1 h.2.1) s
      let s := { s with tiles := s.tiles.filter fun h => !devs.contains (ctxDevice h.ctx) }
      let s := { s with mgmt := { s.mgmt with brk := some b, due := none, hit := [], falling := [] } }
      (s.ctxs.filter fun y => y.2.live && y.2.ended.isNone && devs.contains (ctxDevice y.1)).foldl (fun s y => s.reportWrap y.1) s)

end Sys2Proof.Machine
end

