-- ==== Sys2Proof/Machine/SlotTable.lean ====
section
/-! DEFINITION. The slot table (R290 to R293): writes of SLOTTAB, the table in force, reachable peers and routes. -/
namespace Sys2Proof.Machine

/-- The HBM pieces of a virtual range whose pages are all pinned and die-homed (R291); none otherwise. -/
def State.pinnedPieces (s : State) (die x va n : Nat) : Option (List (Nat × Nat)) :=
  (pageChunks va n).mapM fun c =>
    match s.translate die x (BitVec.ofNat 64 c.1) {} with
    | .ok (.hbm pa) e => if e.getLsbD 7 && !e.getLsbD 6 && field e 8 2 = 0 then some (pa, c.2) else none
    | _ => none

/-- A 32-bit word at an offset of recorded pieces. -/
def State.pieceWord (s : State) (ps : List (Nat × Nat)) (off : Nat) : Nat :=
  s.homeNat (pieceAt ps off) 4
where
  /-- The HBM address of a byte of recorded pieces. -/
  pieceAt : List (Nat × Nat) → Nat → Nat
    | [], _ => 0
    | (pa, n) :: ps, k => if k < n then pa + k else pieceAt ps (k - n)

/-- The header of a slot table obeys R291, seen at time `now`. -/
def tableOk (w : Nat → Nat) (start now : Nat) (zeros : Bool) : Bool :=
  1 ≤ w 0 && w 0 ≤ 4096 && 2000 ≤ w 4 && w 4 ≤ 20000 && 200 ≤ w 8 && w 8 + 1000 ≤ w 4 && w 0x0C = Config.selfPackage &&
  w 0x18 < 2 ^ 17 && w 0x1C = 0 && zeros && w 0 * w 4 ≤ 3000000 && now + 10000000 ≤ start

/-- The table at an address of a context, when it is accepted (R291). -/
def State.readTable (s : State) (die x base : Nat) : Option SlotTable :=
  match s.pinnedPieces die x base 0x1000 with
  | none => none
  | some hp =>
    let w (o : Nat) : Nat := s.pieceWord hp o
    let start := w 0x10 + 2 ^ 32 * w 0x14
    let rmap := w 0x20 + 2 ^ 32 * w 0x24
    if !tableOk w start s.mgmt.time ((List.range 1014).all fun i => w (0x28 + 4 * i) = 0) then none else
    match s.pinnedPieces die x (base + 0x1000) (4096 * w 0), (if rmap = 0 then some [] else s.pinnedPieces die x rmap (4 * 2 ^ 17)) with
    | some words, some rm =>
      some { nslot := w 0, slotns := w 4, guard_ := w 8, start := start, root := w 0x18, words := words.map (·.1), rmap := rm }
    | _, _ => none

/-- HEALTH records whether the last table was refused (R332). -/
def State.slref (s : State) (b : Bool) : State :=
  { s with mgmt := { s.mgmt with health := { s.mgmt.health with slref := b } } }

/-- A write of SLOTTAB with EN = 1 (R291): the table is accepted for its START, or refused. -/
def State.enableTable (s : State) (die x : Nat) (v : DWord) : State :=
  let base : DWord := v &&& 0x01FFFFFFFFFFF000
  match s.readTable die x base.toNat with
  | some t => (s.modFab fun f => { f with slottab := base ||| 1, later := some t }).slref false
  | none => (s.modFab fun f => { f with slottab := base }).slref true

/-- The table in force (R291). -/
def State.tableNow (s : State) : Option SlotTable :=
  match s.fab.stop with
  | some t => if t ≤ s.mgmt.time then none else s.fab.table
  | none => s.fab.table

/-- A write of SLOTTAB with EN = 0 (R291): the fabric stops at the end of the slot in progress. -/
def State.disableTable (s : State) (v : DWord) : State :=
  let stop := match s.tableNow with
    | some t => if s.mgmt.time < t.start then s.mgmt.time
      else t.start + ((s.mgmt.time - t.start) / t.slotns + 1) * t.slotns
    | none => s.mgmt.time
  s.modFab fun f => { f with
    slottab := v &&& 0x01FFFFFFFFFFF000, later := none, stop := some (min stop (f.stop.getD stop)) }

/-- A write of SLOTTAB (R290, R291). -/
def State.writeSlottab (s : State) (die x : Nat) (v : DWord) : State :=
  if v.getLsbD 0 then s.enableTable die x v else s.disableTable v

/-- The peer that a channel meets in a slot of a table (R291). -/
def State.meets (s : State) (t : SlotTable) (slot chan : Nat) : Option Nat :=
  match t.words[slot % t.nslot]? with
  | none => none
  | some pa =>
    let w := s.homeNat (pa + 4 * chan) 4
    if 2 ^ 31 ≤ w then some (w % 2 ^ 17) else none

/-- Some slot of a table meets a peer. -/
def State.meetsEver (s : State) (t : SlotTable) (peer : Nat) : Bool :=
  (List.range t.nslot).any fun k => (List.range 1024).any fun ch => s.meets t k ch = some peer

/-- The relay that a table names for a destination (R291, R293); bits [30:17] of the word are not looked at (log 99). -/
def State.relayOf (s : State) (t : SlotTable) (peer : Nat) : Option Nat :=
  if t.rmap.isEmpty then none else
  let w := s.pieceWord t.rmap (4 * peer)
  if 2 ^ 31 ≤ w then some (w % 2 ^ 17) else none

/-- Whose send queue the traffic for a destination joins (R293); none when it is unreachable. -/
def State.hopFor (s : State) (peer : Nat) : Option Nat :=
  match s.tableNow with
  | none => none
  | some t => if s.meetsEver t peer then some peer else s.relayOf t peer

/-- The slot of the table in force that is under way, by its number since START. -/
def State.slotNow (s : State) : Option (SlotTable × Nat) :=
  s.tableNow.bind fun t => if s.mgmt.time < t.start then none else some (t, (s.mgmt.time - t.start) / t.slotns)

/-- The slot under way is in its guard interval, its first GUARDNS ns (R290). -/
def State.inGuard (s : State) (t : SlotTable) : Bool := (s.mgmt.time - t.start) % t.slotns < t.guard_

/-- The peer that a channel meets now, outside the guard interval, when it is in service (R290, R291, R306). -/
def State.meetsNow (s : State) (chan : Nat) : Option Nat :=
  s.slotNow.bind fun k =>
    if s.inGuard k.1 || s.fab.isol.contains chan || (s.fab.slot = k.2 + 1 && s.fab.darkNow.contains chan) then none
    else s.meets k.1 k.2 chan

/-- A table accepted for a later START names a way to a peer. -/
def State.meetsLater (s : State) (peer : Nat) : Bool :=
  s.fab.later.any fun t => s.meetsEver t peer || (s.relayOf t peer).isSome

/-- SLOTTAB_ENABLE (R291). -/
def execSlottabEnable (ctx : Nat) (value : DWord) (s : State) : Out :=
  .next (if value.getLsbD 0 then s.enableTable (((s.diesOf (ctxDevice ctx)).head?).getD 0) ctx value else s)

/-- SLOTTAB_DISABLE (R291). -/
def execSlottabDisable (value : DWord) (s : State) : Out := .next (if value.getLsbD 0 then s else s.disableTable value)

/-- SLOT_TABLE_TAKE_EFFECT (R291): an accepted table is in force from its START on. -/
def execSlotTableTakeEffect (s : State) : Out :=
  .next (match s.fab.later with
    | some t =>
      if s.mgmt.time < t.start then s
      else (s.modFab fun f => { f with table := some t, later := none, stop := none, slot := 0, darkNow := [], used := [], dark := [], mgmtOut := [], mgmtIn := [] }).modFab fun f =>
        { f with conns := mmap f.conns fun c => { c with cut := false } }
    | none => s)

end Sys2Proof.Machine
end

