-- ==== Sys2Proof/Machine/Fabric.lean ====
section
/-! DEFINITION. The rotor fabric (R290 to R308): the remote instructions (R430 to R432) and windows (R463, R464), the sender's
and the target's side of connections, slots, relays and the isolation of channels. -/
namespace Sys2Proof.Machine

/-! ### Issue -/

/-- What a remote instruction asks for. -/
structure RemoteAsk where
  op    : ReqOp
  loc   : Bool := false
  local_ : Nat := 0
  bytes : Nat := 0
  need  : Need := {}
  extra : List Foot := []
  len   : Nat := 0
  off   : Nat := 0
  key   : Word := 0
  tag   : Nat := 0
  post  : Option (Nat × Nat) := none
deriving DecidableEq, Repr

/-- The connection that a remote instruction names (R296). -/
def Cur.queueKey (c : Cur) (q : BitVec 4) : Nat := connKey c.team.die c.team.ctx q.toNat

/-- A request placed in its queue (R297): the local side is translated, the sequence number taken. To an unreachable peer it
meets a reset at once (R293); to one that a table accepted for a later START reaches it stands in its queue, as R477 has it, until
START or the reset of R293 comes first (DEDUCED, log 113). -/
def State.placeReq (s : State) (c : Cur) (i : Instr) (k : Nat) (q : Conn) (a : RemoteAsk) : State :=
  let ranges : List ERange := if a.bytes = 0 then [] else [⟨a.loc, a.local_, a.bytes, a.need⟩]
  match s.engRanges c ranges with
  | .error t => t
  | .ok ps =>
    let c := s.again c
    let tags := mget [] s.fab.tags c.team.ctx
    let ready := match a.post with | some (t, _) => tags.contains t | none => false
    let post := if ready then none else a.post
    let (s, id) := s.fresh
    let r : Req :=
      { seq := q.next, op := a.op, team := c.ref.team, id := id, src := ps.flatten, len := a.len, off := a.off, key := a.key
        tag := a.tag, post := post }
    let foot := a.extra ++ footOf a.need.wr ps.flatten
    let cmd := { c.cmd (.remote k q.next) foot false with vpns := if a.loc then [] else vpages a.local_ a.bytes }
    let s := s.put (c.command i id cmd)
    let s := s.modFab fun b => { b with
      conns := mput b.conns k { q with next := q.next + 1, reqs := q.reqs ++ [r] }
      tags := match ready, a.post with
        | true, some (t, _) => mput b.tags c.team.ctx (tags.erase t)
        | _, _ => b.tags }
    if (s.hopFor q.peer).isNone && !s.meetsLater q.peer then s.resetConn k else s.showConn k

/-- A remote instruction: its queue must be bound, its operands within their limits (R431). -/
def remoteIssue (i : Instr) (f : FmtE) (s : State) (ask : State → Cur → Except State (State × Option RemoteAsk)) : Out :=
  onSplit s fun c =>
    if !c.acts f.com then s else
    let k := c.queueKey f.qb
    match s.conn? k with
    | none => s.illop c 10
    | some q =>
      match ask s c with
      | .error t => t
      | .ok (s, none) => s.illop c 10
      | .ok (s, some a) => s.placeReq (s.again c) i k q a

/-- A length that R431 allows. -/
def remoteLen (n : Nat) : Bool := n % 16 = 0 && 16 ≤ n && n ≤ 16777216

/-- A put or a get of given operands, when they are within R431. -/
def moveAsk (get loc : Bool) (la off n : Nat) (key : Word) (tag : Nat) (post : Option (Nat × Nat)) (extra : List Foot) : Option RemoteAsk :=
  if !remoteLen n || off % 16 ≠ 0 || la % 16 ≠ 0 then none else
  some { op := if get then .get else .put, loc := loc, local_ := la, bytes := n
         need := if get then { wr := true } else { rd := true }, extra := extra, len := n, off := off, key := key, tag := tag
         post := post }

/-- RPUT (R430, R432). -/
def execRput (f : FmtE) (s : State) : Out :=
  remoteIssue (.rput f) f s fun s c =>
    let loc := f.flg.getLsbD 0
    .ok (s, moveAsk false loc (c.addrOf loc f.s0) (c.rdPair f.s1.toNat).toNat (c.rdS f.s2.toNat).toNat (c.rdS f.s3.toNat)
      (c.rdS (f.s2.toNat + 1)).toNat none [])

/-- RGET (R430, R432). -/
def execRget (f : FmtE) (s : State) : Out :=
  remoteIssue (.rget f) f s fun s c =>
    let loc := f.flg.getLsbD 0
    .ok (s, moveAsk true loc (c.addrOf loc f.s0) (c.rdPair f.s1.toNat).toNat (c.rdS f.s2.toNat).toNat (c.rdS f.s3.toNat) 0 none [])

/-- RATOM (R430, R432). -/
def execRatom (f : FmtE) (s : State) : Out :=
  remoteIssue (.ratom f) f s fun s c =>
    let w := if f.flg.getLsbD 0 then 8 else 4
    let la := (c.rdPair f.s0.toNat).toNat
    let off := (c.rdPair f.s1.toNat).toNat
    let op := f.sub.toNat
    let x := (c.rdPair f.s2.toNat).toNat % 2 ^ (8 * w)
    let y := (c.rdPair (f.s2.toNat + 2)).toNat % 2 ^ (8 * w)
    .ok (s, if la % 8 ≠ 0 || off % w ≠ 0 then none else
      some { op := if op = 12 then .atom op w false y x else .atom op w (f.flg.getLsbD 1) x 0
             local_ := la, bytes := 8, need := { wr := true }, len := w, off := off, key := c.rdS f.s3.toNat })

/-- A posted request (R430, R432, R303): its record is read at issue. -/
def postAsk (get : Bool) (f : FmtE) (s : State) (c : Cur) : Except State (State × Option RemoteAsk) :=
  let a := (c.rdPair f.s0.toNat).toNat
  let loc := f.flg.getLsbD 0
  match s.engRanges c [⟨false, a, 32, { rd := true }⟩], s.issueRead c a 32 with
  | .error t, _ | _, .error t => .error t
  | .ok ps, .ok (s, b) =>
    let tag := (c.rdS f.s1.toNat).toNat
    let la := if loc then le b 0 8 % 2 ^ 32 else le b 0 8
    .ok (s, if tag = 0 then none else
      moveAsk get loc la (le b 8 8) (le b 0x10 4) (BitVec.ofNat 32 (le b 0x14 4)) (if get then 0 else (c.rdS f.s2.toNat).toNat)
        (some (tag, le b 0x18 8)) (footOf false ps.flatten))

/-- RPOST of a put (R432). -/
def execRpost (f : FmtE) (s : State) : Out := remoteIssue (.rpost f) f s (postAsk false f)
/-- RPOST of a get (R432). -/
def execRpostGet (f : FmtE) (s : State) : Out := remoteIssue (.rpostGet f) f s (postAsk true f)

/-- RCQW (R432, R304): the other queue must be bound too. -/
def execRcqw (f : FmtE) (s : State) : Out :=
  remoteIssue (.rcqw f) f s fun s c =>
    let b := connKey c.team.die c.team.ctx (f.flg.toNat % 16)
    .ok (s, if (s.conn? b).isNone then none else some { op := .wait b (c.rdPair f.s0.toNat).toNat })

/-! ### Windows -/

/-- Every page of a range is translated with PIN = 1 (R301). -/
def State.allPinned (s : State) (c : Cur) (base n : Nat) : Bool :=
  (vpages base n).all fun p =>
    match s.translate c.team.die c.team.ctx (BitVec.ofNat 64 (p * 65536)) {} with
    | .ok _ e => e.getLsbD 7
    | _ => false

/-- WREG (R301, R463, R464). -/
def execWreg (f : FmtE) (s : State) : Out :=
  onSplit s fun c =>
    if !c.acts f.com then s
    else if !(s.ctx c.team.ctx).priv then s.protAt c 3
    else
      let w := (c.rdS f.s0.toNat).toNat
      let base := (c.rdPair f.s1.toNat).toNat
      let n := (c.rdPair f.s2.toNat).toNat
      let p := c.rdS f.s3.toNat
      let old := mget {} s.fab.windows w
      if 65536 ≤ w || base % 16 ≠ 0 || n % 16 ≠ 0 || n < 16 || 2 ^ 40 < n || 2 ^ 19 ≤ p.toNat || old.live || !s.allPinned c base n
      then s.illop c 10
      else
        let win : Window :=
          { ctx := c.team.ctx, base := base, len := n, owner := p.toNat % 65536, rd := p.getLsbD 16, wr := p.getLsbD 17
            at_ := p.getLsbD 18, gen := old.gen + 1, live := true }
        let s := s.modFab fun b => { b with windows := mput b.windows w win }
        let key : Word := BitVec.ofNat 32 (w * 65536 + win.gen % 65536)
        s.effected { c with group := c.group.wrS f.s0.toNat key } (.wreg f) []

/-- WREV (R302, R464). -/
def execWrev (f : FmtE) (s : State) : Out :=
  onSplit s fun c =>
    if !c.acts f.com then s
    else if !(s.ctx c.team.ctx).priv then s.protAt c 3
    else
      let w := (c.rdS f.s0.toNat).toNat
      let old := mget {} s.fab.windows w
      if 65536 ≤ w || (old.live && old.ctx ≠ c.team.ctx) then s.illop c 10 else
      let s := if old.live then s.modFab fun b => { b with windows := mput b.windows w { old with live := false } } else s
      s.effected c (.wrev f) []

/-! ### The sender: packets and slots -/

/-- The pieces of a range that hold the bytes from `off` to `off + n`. -/
def cutPieces : List (Place × Nat) → Nat → Nat → List (Place × Nat)
  | [], _, _ => []
  | (p, k) :: ps, off, n =>
    if n = 0 then []
    else if k ≤ off then cutPieces ps (off - k) n
    else
      let m := min n (k - off)
      (p.add off, m) :: cutPieces ps 0 (n - m)

/-- Local bytes of a request read: in the team's array or its save frame, free when the team has left. -/
def State.reqRead (s : State) (r : Req) (off n : Nat) : State × List Byte :=
  (cutPieces r.src off n).foldl (fun (z : State × List Byte) p =>
    match p.1 with
    | .arr a => match mget? z.1.teams r.team with
      | some t => (z.1, z.2 ++ z.1.localBytes t a p.2)
      | none => let q := z.1.freeBytes p.2; (q.1, z.2 ++ q.2)
    | q => let x := z.1.engRead r.team q p.2; (x.1, z.2 ++ x.2)) (s, [])

/-- Local bytes of a request of context `x` written: in the team's array or its save frame, nowhere when the team has left. -/
def State.reqWrite (s : State) (x : Nat) (r : Req) (off : Nat) (bs : List Byte) : State :=
  ((cutPieces r.src off bs.length).foldl (fun (z : State × List Byte) p =>
    let part := z.2.take p.2
    let s := match p.1 with
      | .arr a => match mget? z.1.teams r.team with
        | some t =>
          if t.status = .saved then
            z.1.modTeam r.team fun t => { t with saved := t.saved.take a ++ part ++ t.saved.drop (a + part.length) }
          else z.1.arrWrite r.team t a part
        | none => z.1
      | .peer pkg o => z.1.putPeer r.team x pkg o part
      | q => z.1.engWrite r.team q part
    (s, z.2.drop p.2)) (s, bs)).1

/-- Bytes of a connection that are not acknowledged (R299). A get counts the bytes it asks for (log 62). -/
def Conn.inFlight (c : Conn) : Nat := c.reqs.foldl (fun a r => r.pkts.foldl (fun a p => a + p.len) a) 0

/-- The request of a connection whose next packet can be cut: the first that is not wholly cut, unless a posted request or a
wait stands before it (R303, R304). -/
def Conn.toCut (c : Conn) : Option Req :=
  (c.reqs.find? fun r => r.status = 0 && (r.post.isSome || r.cut < r.len || (match r.op with | .wait _ _ => true | _ => false))).filter
    fun r => r.post.isNone && (match r.op with | .wait _ _ => false | _ => true)

/-- The local side of a request is free of earlier commands of its team (R222). -/
def State.reqClear (s : State) (r : Req) : Bool :=
  match mget? s.teams r.team with
  | none => true
  | some t => match mget? t.cmds r.id with
    | some k => t.clear r.id k.foot
    | none => true

/-- The bytes that a packet carries. -/
def State.packetData (s : State) (r : Req) (n : Nat) : State × List Byte :=
  match r.op with
  | .put => s.reqRead r r.cut n
  | .atom op w _ x y => (s, bytesOfNat w x ++ if op = 12 then bytesOfNat w y else [])
  | _ => (s, [])

/-- The owner of a context and that owner's key, which every packet from it carries (R306). -/
def State.credentials (s : State) (x : Nat) : Nat × DWord :=
  let o := (s.ctx x).owner.toNat
  (o, mget 0 s.fab.keys o)

/-- The bytes of a request's next packet (R292). -/
def Req.nextLen (r : Req) : Nat := min 4096 (r.len - r.cut)

/-- What the next packet of a put reads at peers is asked for first (R180): none once it has come. -/
def State.reqAsks (s : State) (c : Conn) (r : Req) : Option State :=
  match r.op with
  | .put => s.needPeers (.cmd r.id) (some r.team) c.ctx (cutPieces r.src r.cut r.nextLen)
  | _ => none

/-- The request of a connection whose next packet its window admits and whose local side is free (R222, R299) and at hand (R180). -/
def State.sendable (s : State) (c : Conn) : Option Req :=
  c.toCut.filter fun r => c.inFlight + r.nextLen ≤ c.win && s.reqClear r && (s.reqAsks c r).isNone

/-- What the puts at the heads of the queues read at peers asked for (R180). -/
def State.askPuts (s : State) : State :=
  s.fab.conns.foldl (fun s c => ((c.2.toCut.filter (s.reqClear ·)).bind fun r => s.reqAsks c.2 r).getD s) s

/-- The next packet of a request cut and appended to a send queue (R292). -/
def State.cutPacket (s : State) (k hop : Nat) (c : Conn) (r : Req) : State :=
  let n := r.nextLen
  let d := s.packetData r n
  let who := s.credentials c.ctx
  let pkt : OutPkt := { at_ := r.cut, len := n, data := d.2, owner := who.1, key := who.2 }
  let up (x : Req) : Req := if x.seq = r.seq then { x with cut := r.cut + n, pkts := x.pkts ++ [pkt] } else x
  let s := d.1.modConn k fun c => { c with reqs := c.reqs.map up }
  let q : Queued := { conn := k, seq := r.seq, at_ := r.cut, left := d.2.length }
  s.modFab fun b => { b with sendq := mput b.sendq hop (mget [] b.sendq hop ++ [q]) }

/-- A page connection's number among the connections of send queues and events. -/
def pageQueue (key : Nat) : Nat := 2 ^ 32 + key

/-- The window of a page connection: the 256 KiB that R296 gives as the usual one (log 92). -/
def pageWindow : Nat := 262144

/-- Bytes of a page connection that are not acknowledged, those that its loads ask for among them (R299; log 62). -/
def PageConn.inFlight (c : PageConn) : Nat := c.pkts.foldl (fun n p => n + p.len) 0

/-- The next access of a team to a peer's page that has no packet yet and that its connection admits, oldest first (R204, R295): its
connection, operation and lane. -/
def State.pageNext (s : State) (t : Team) : Option (Nat × Nat × MemOp × LaneOp) :=
  t.mops.findSome? fun m => if (t.mayPerform m.1).isNone then none else
    m.2.lanes.findSome? fun l => match l.place with
      | .peer pkg _ =>
        let key := t.ctx * 2 ^ 17 + pkg
        let c := mget {} s.fab.pages key
        if (s.copyHit t m.2 l).isSome || c.pkts.any (fun p => p.op = m.1 && p.lane = l.lane) || pageWindow < c.inFlight + 2 * m.2.bytes
        then none else some (key, m.1, m.2, l)
      | _ => none

/-- The packet of a lane's access to a peer's page cut and appended (R295). -/
def State.cutPage (s : State) (t : Team) (hop key op : Nat) (m : MemOp) (l : LaneOp) : State :=
  let c := mget {} s.fab.pages key
  let who := s.credentials t.ctx
  let carried := match m.kind with
    | .ld | .ldrsv => 0
    | .atcas => 2 * m.bytes
    | _ => m.bytes
  let p : PagePkt := { seq := c.next, op := op, lane := l.lane, len := max carried m.bytes, carried := carried, owner := who.1, key := who.2 }
  let q : Queued := { conn := pageQueue key, seq := c.next, at_ := 0, left := carried }
  s.modFab fun b => { b with
    pages := mput b.pages key { c with next := c.next + 1, pkts := c.pkts ++ [p] }
    sendq := mput b.sendq hop (mget [] b.sendq hop ++ [q]) }

/-- The next access that no lane makes and that has no packet yet, where its connection admits it (R180, R295). -/
def State.askNext (s : State) (a : PeerAsk) : Bool :=
  let c := mget {} s.fab.pages (a.ctx * 2 ^ 17 + a.pkg)
  a.got.isNone && !(c.pkts.any fun p => p.op = a.id) && c.inFlight + a.len ≤ pageWindow

/-- Its packet cut and appended. -/
def State.cutAsk (s : State) (hop : Nat) (a : PeerAsk) : State :=
  let key := a.ctx * 2 ^ 17 + a.pkg
  let c := mget {} s.fab.pages key
  let who := s.credentials a.ctx
  let carried := (a.data.map List.length).getD 0
  let p : PagePkt := { seq := c.next, op := a.id, lane := 0, len := max carried a.len, carried := carried, owner := who.1, key := who.2 }
  s.modFab fun b => { b with
    pages := mput b.pages key { c with next := c.next + 1, pkts := c.pkts ++ [p] }
    sendq := mput b.sendq hop (mget [] b.sendq hop ++ [⟨pageQueue key, c.next, 0, carried⟩]) }

/-- The packets that could be cut next, each with the number that orders its instruction, and what cutting it does. -/
def State.cuttable (s : State) : List (Nat × State) :=
  (s.fab.conns.filterMap fun c =>
    match s.hopFor c.2.peer, s.sendable c.2 with
    | some hop, some r => some (r.order, s.cutPacket c.1 hop c.2 r)
    | _, _ => none) ++
  (s.teams.filterMap fun t =>
    match s.pageNext t.2 with
    | some (key, op, m, l) => (s.hopFor (key % 2 ^ 17)).map fun hop => (op, s.cutPage t.2 hop key op m l)
    | none => none) ++
  s.fab.asks.filterMap fun a => if s.askNext a then (s.hopFor a.pkg).map fun hop => (a.id, s.cutAsk hop a) else none

/-- Packets cut in the order in which their instructions were issued, or enabled (R292, R303). -/
def State.cutPackets (s : State) : Nat → State
  | 0 => s
  | fuel + 1 =>
    let l := s.cuttable
    match l.find? fun x => l.all fun y => x.1 ≤ y.1 with
    | none => s
    | some (_, s) => s.cutPackets fuel

/-- Every packet that can be cut. -/
def State.pump (s : State) : State :=
  let accesses := s.teams.foldl (fun n t => t.2.mops.foldl (fun n m => n + m.2.lanes.length) n) 0
  let s := s.askPuts
  s.cutPackets (s.fab.conns.foldl (fun n c => n + c.2.win / 4 + 1) (accesses + s.fab.asks.length))

/-- A packet has gone out, or part of it has: its times, and that its request has been sent. -/
def State.markSent (s : State) (q : Queued) : State :=
  let now := s.mgmt.time
  let onPkt (p : OutPkt) : OutPkt := if p.at_ = q.at_ then { p with first := some (p.first.getD now), last := now } else p
  let onReq (r : Req) : Req := if r.seq = q.seq then { r with sent := true, pkts := r.pkts.map onPkt } else r
  let onPage (p : PagePkt) : PagePkt := if p.seq = q.seq then { p with first := some (p.first.getD now), last := now } else p
  if q.conn < 2 ^ 32 then s.modConn q.conn fun c => { c with reqs := c.reqs.map onReq }
  else s.modFab fun b => { b with pages := mmod b.pages (q.conn - 2 ^ 32) fun c => { c with pkts := c.pkts.map onPage } }

/-- Bytes carried from the head of a send queue (R292): the state, and what is left of the queue and of the capacity. -/
def State.carry (s : State) : List Queued → Nat → State × List Queued × Nat
  | [], cap => (s, [], cap)
  | q :: qs, cap =>
    if q.left ≤ cap then (s.markSent q).carry qs (cap - q.left)
    else if cap = 0 then (s, q :: qs, 0)
    else (s.markSent q, { q with left := q.left - cap } :: qs, 0)

/-- The relay that a packet of a connection was carried to has no room for it (R293): the packet stays with the sender, at the head
of the relay's queue, and is offered again when the relay is next met. -/
def State.relayRefused (s : State) (k seq at_ : Nat) : State :=
  if 2 ^ 32 ≤ k then
    let peer := (k - 2 ^ 32) % 2 ^ 17
    match s.hopFor peer, (mget {} s.fab.pages (k - 2 ^ 32)).pkts.find? fun p => p.seq = seq && p.first.isSome with
    | some hop, some p =>
      let q := mget [] s.fab.sendq hop
      if hop = peer || (q.any fun x => x.conn = k && x.seq = seq) then s
      else s.modFab fun b => { b with sendq := mput b.sendq hop (⟨k, seq, 0, p.carried⟩ :: q) }
    | _, _ => s
  else match s.conn? k with
  | none => s
  | some c =>
    match s.hopFor c.peer, (c.reqs.find? fun r => r.seq = seq).bind fun r => r.pkts.find? fun p => p.at_ = at_ && p.first.isSome with
    | some hop, some p =>
      let q := mget [] s.fab.sendq hop
      if hop = c.peer || (q.any fun x => x.conn = k && x.seq = seq && x.at_ = at_) then s
      else s.modFab fun b => { b with sendq := mput b.sendq hop (⟨k, seq, at_, p.data.length⟩ :: q) }
    | _, _ => s

/-- Packets of the relay area sent to their destination, whole, before the send queue (R293): those left, and the capacity
left. -/
def relayOut (peer : Nat) : List Packet → Nat → List Packet × Nat
  | [], cap => ([], cap)
  | p :: ps, cap =>
    if p.dst = peer && p.data.length ≤ cap then relayOut peer ps (cap - p.data.length)
    else let r := relayOut peer ps cap; (p :: r.1, r.2)

/-- What a slot carries to one peer over `n` channels, in what it has left of its capacity: relayed packets, the send queue, and
acknowledgements, which take none of the capacity (R476). -/
def State.slotPeer (s : State) (t : SlotTable) (peer n : Nat) : State :=
  let had := mget 0 s.fab.used peer
  let cap := n * ((t.slotns - t.guard_) * 8) - had
  let r := relayOut peer s.fab.relay cap
  let s := s.modFab fun b => { b with relay := r.1 }
  let c := s.carry (mget [] s.fab.sendq peer) r.2
  let s := c.1
  let acks := s.fab.acks.filter fun a => s.hopFor a.peer ≠ some peer
  s.modFab fun b => { b with
    sendq := if c.2.1.isEmpty then mdel b.sendq peer else mput b.sendq peer c.2.1, acks := acks
    used := mput b.used peer (had + (cap - c.2.2)) }

/-- The peers that a slot meets on channels that carry, each with the number of its channels. -/
def State.slotPeers (s : State) (t : SlotTable) (slot : Nat) (dark : List Nat) : SMap Nat :=
  (List.range 1024).foldl (fun m ch =>
    if s.fab.isol.contains ch || dark.contains ch then m else
    match s.meets t slot ch with
    | some p => mput m p (mget 0 m p + 1)
    | none => m) []

/-- The channels of the slot begun last carry what the send queues hold, in what is left of its capacity (R292, R476): its payload
moves outside its guard interval. -/
def State.carryOn (s : State) : State :=
  match s.slotNow with
  | none => s
  | some (t, k) =>
    if s.fab.slot ≠ k + 1 || s.inGuard t then s else
    let s := (s.recallAll (((t.words[k % t.nslot]?).map fun pa => (pa, 4096)).toList)).pump
    (s.slotPeers t k s.fab.darkNow).foldl (fun s p => s.slotPeer t p.1 p.2) s

/-- FABRIC_SLOT_BEGIN (R290 to R293): the guard interval of slot number `slot` since START is over, and its channels carry what the
send queues hold; what joins them while the slot lasts follows (`State.elapse`). `dark` are the channels on which the peer's table
disagrees. -/
def execFabricSlotBegin (slot : Nat) (dark : List Nat) (s : State) : Out :=
  .next (match s.slotNow with
    | none => s
    | some (t, k) =>
      if slot ≠ k || s.inGuard t then s
      else if slot < s.fab.slot then s.carryOn else
      let met := dark.filter fun ch => (s.meets t slot ch).isSome
      (s.modFab fun b => { b with slot := slot + 1, darkNow := met, used := [], dark := (b.dark ++ met).eraseDups }).carryOn.latchDark)

/-! ### Guard intervals (R294) -/

/-- A timestamp from a peer that the slot under way meets, in its guard interval: its count, and ROOT's as it knows it. -/
def State.stamp (s : State) (peer count root : Nat) : State :=
  match s.slotNow with
  | none => s
  | some (t, k) =>
    if s.inGuard t && (List.range 1024).any fun ch => s.meets t k ch = some peer && !s.fab.isol.contains ch then
      s.modFab fun b => { b with stamps := mput b.stamps peer (s.mgmt.time, count, if peer = t.root then count else root) }
    else s

/-- A channel can carry a frame of the management channel in the guard interval of the slot under way, one frame a guard. -/
def State.guardFree (s : State) (seen : List (Nat × Nat × List Byte)) (chan : Nat) (bytes : List Byte) : Option Nat :=
  s.slotNow.bind fun k =>
    if s.inGuard k.1 && bytes.length ≤ 64 && (s.meets k.1 k.2 chan).isSome && !s.fab.isol.contains chan && !seen.any (fun f => f.1 = k.2 && f.2.1 = chan)
    then some k.2 else none

/-- Lysja sends a frame on the management channel; the standby alone reports so (R34). -/
def State.mgmtSend (s : State) (chan : Nat) (bytes : List Byte) : State :=
  match s.guardFree s.fab.mgmtOut chan bytes with
  | some k => { s.modFab fun b => { b with mgmtOut := b.mgmtOut ++ [(k, chan, bytes)] } with mgmt := { s.mgmt with reports := [] } }
  | none => s

/-- A frame of the management channel comes in, under the fabric operator's key. -/
def State.mgmtReceive (s : State) (chan : Nat) (key : DWord) (bytes : List Byte) : State :=
  match s.guardFree s.fab.mgmtIn chan bytes with
  | some k => if key = Config.operatorKey then s.modFab fun b => { b with mgmtIn := b.mgmtIn ++ [(k, chan, bytes)] } else s
  | none => s

/-! ### The sender: acknowledgements, time and resets -/

/-- The context that holds a connection ends because its peer reported REMOTE (R308, R309). -/
def State.remoteEnd (s : State) (x die detail : Nat) : State :=
  s.endContext x Cause.remote.code
    (faultRecord (trapInfo false 0 2 Cause.remote.code (BitVec.ofNat 32 detail)) 0 (s.timeOf die) die 0 0 0 2 0) die

/-- An item acknowledges a packet of a request: every packet below its end, but of a get only those whose bytes it brings or
which it refuses (R297). -/
def ackCovers (a : AckItem) (get : Bool) (p : OutPkt) : Bool :=
  p.at_ + p.len ≤ a.upto && (!get || a.upto ≤ p.at_ + (if a.status = 1 then a.data.length else p.len))

/-- One item of an acknowledgement taken in. -/
def State.takeAck (s : State) (k : Nat) (a : AckItem) : State :=
  match (s.conn? k).bind fun c => c.reqs.find? fun r => r.seq = a.seq && r.status = 0 with
  | none => s
  | some r =>
    let get : Bool := r.op = .get
    let x := ((s.conn? k).map (·.ctx)).getD 0
    let s := match r.op with
      | .get => if a.status = 1 && a.data.length ≤ a.upto && a.upto ≤ r.cut then s.reqWrite x r (a.upto - a.data.length) a.data else s
      | .atom _ _ _ _ _ => if a.status = 1 then s.reqWrite x r 0 ((a.data ++ List.replicate 8 0).take 8) else s
      | _ => s
    let bad := if r.bad ≠ 0 then r.bad else if a.status = 1 then 0 else a.status
    let pkts := r.pkts.filter fun p => !ackCovers a get p
    let all : Bool := if get then r.len ≤ r.cut && pkts.isEmpty else r.len ≤ a.upto
    let up (x : Req) : Req :=
      if x.seq ≠ a.seq then x else
      { x with bad := bad, done := max x.done a.done, pkts := pkts, status := if all then (if bad = 0 then 1 else bad) else 0 }
    let gone (q : Queued) : Bool := q.conn = k && q.seq = a.seq && !pkts.any fun p => p.at_ = q.at_
    (s.modConn k fun c => { c with reqs := c.reqs.map up }).modFab fun b =>
      { b with sendq := (mmap b.sendq fun l => l.filter fun q => !gone q).filter fun l => !l.2.isEmpty }

/-- An acknowledgement of a connection's peer comes in on a channel (R306, R476): one that meets the peer now, or some relay where no
slot meets the peer; outside its guard interval, and in service. -/
def State.ackHeard (s : State) (c : Conn) (a : AckItem) : Bool :=
  match s.meetsNow a.channel, s.tableNow with
  | some p, some t => a.channel < 1024 && (p = c.peer || !s.meetsEver t c.peer)
  | _, _ => false

/-- The admit table knows an owner with its key (R306). -/
def Fabric.knows (b : Fabric) (owner : Nat) (key : DWord) : Bool := b.admitTab.any fun e => e.owner = owner && e.key = key

/-- Something that entered on a channel is dropped, and counted against the channel (R306). -/
def State.dropOn (s : State) (chan : Nat) : State :=
  s.modFab fun b => { b with drops := mput b.drops chan (s.mgmt.time :: mget [] b.drops chan) }

/-- FABRIC_ACK_RECEIVE (R297 to R299, R306, R308): what the admit table does not know is dropped, like any packet that enters. -/
def execFabricAckReceive (queue epoch : Nat) (items : List AckItem) (s : State) : Out :=
  .next (match s.conn? queue with
    | none => s
    | some c =>
      let items := items.filter (s.ackHeard c)
      let bad := items.filter fun a => !s.fab.knows a.owner a.key
      let s := bad.foldl (fun s a => s.dropOn a.channel) s
      let items := items.filter fun a => s.fab.knows a.owner a.key
      if c.epoch ≠ epoch then s else
      let s := items.foldl (fun s a => s.takeAck queue a) s
      let remote := match s.conn? queue with
        | some c => c.reqs.any fun r => r.status = 8
        | none => false
      let s := s.settleConn queue
      if remote then s.remoteEnd c.ctx c.die (queue % 16) else s)

/-- The packets of a page connection whose acknowledgement is missing after two rotations are sent again (R295, R299). -/
def State.resendPages (s : State) (key : Nat) : State :=
  match s.hopFor (key % 2 ^ 17), s.tableNow with
  | some hop, some t =>
    let q := mget [] s.fab.sendq hop
    let late := (mget {} s.fab.pages key).pkts.filterMap fun p =>
      if p.first.isSome && p.last + 2 * (t.nslot * t.slotns) ≤ s.mgmt.time && !q.any (fun x => x.conn = pageQueue key && x.seq = p.seq)
      then some (⟨pageQueue key, p.seq, 0, p.carried⟩ : Queued) else none
    if late.isEmpty then s else s.modFab fun b => { b with sendq := mput b.sendq hop (q ++ late) }
  | _, _ => s

/-- FABRIC_RETRANSMIT (R299): packets whose acknowledgement is missing after two rotations are sent again. -/
def execFabricRetransmit (queue : Nat) (s : State) : Out :=
  .next (if 2 ^ 32 ≤ queue then s.resendPages (queue - 2 ^ 32) else match s.conn? queue, s.tableNow with
    | some c, some t =>
      match s.hopFor c.peer with
      | none => s
      | some hop =>
        let q := mget [] s.fab.sendq hop
        let due (p : OutPkt) : Bool := p.first.isSome && p.last + 2 * (t.nslot * t.slotns) ≤ s.mgmt.time
        let late := c.reqs.flatMap fun r => (r.pkts.filter due).filterMap fun p =>
          if q.any fun x => x.conn = queue && x.seq = r.seq && x.at_ = p.at_ then none
          else some (⟨queue, r.seq, p.at_, p.data.length⟩ : Queued)
        if late.isEmpty then s else s.modFab fun b => { b with sendq := mput b.sendq hop (q ++ late) }
    | _, _ => s)

/-- The oldest unacknowledged packet of a connection was first sent 10 ms ago (R299). -/
def Conn.stale (c : Conn) (now : Nat) : Bool :=
  c.reqs.any fun r => r.pkts.any fun p => match p.first with | some t => t + 10000000 ≤ now | none => false

/-- A peer answers an access that no lane makes, whose packet has gone out (R180, R295): what it writes has arrived, or the bytes that it
reads have come. -/
def State.peerAnswer (s : State) (ask : Nat) (bytes : List Byte) : State :=
  match s.fab.asks.find? fun a => a.id = ask && a.got.isNone with
  | none => s
  | some a =>
    if !(mget {} s.fab.pages (a.ctx * 2 ^ 17 + a.pkg)).pkts.any fun p => p.op = ask && p.first.isSome then s else
    let got := (List.range a.len).map fun i => (bytes[i]?).getD 0
    let rest := s.fab.asks.filter fun b => b.id ≠ ask
    let s := (s.dropPages ask).modFab fun b => { b with
      asks := if a.who = .put || a.who = .gone then rest else rest ++ [{ a with got := some got }] }
    (s.fab.conns.filter fun c => c.2.ctx = a.ctx).foldl (fun s c => s.settleConn c.1) s

/-- The accesses of a context to a peer's page that no lane makes at a reset: the host's reads bring free bytes (log 109), nothing else
is left. -/
def State.resetAsks (s : State) (x peer : Nat) : State :=
  let mine := s.fab.asks.filter fun a => a.ctx = x && a.pkg = peer && a.got.isNone
  mine.foldl (fun s a =>
    let r := match a.who with | .host _ => s.freeBytes a.len | _ => (s, [])
    r.1.modFab fun b => { b with asks := (b.asks.filter fun z => z.id ≠ a.id) ++ match a.who with
      | .host _ => [{ a with got := some r.2 }]
      | _ => [] }) s

/-- An access of a context to a peer's page is under way (R295). -/
def State.pageAccess (s : State) (x peer : Nat) : Bool :=
  (s.fab.asks.any fun a => a.ctx = x && a.pkg = peer && a.got.isNone) || s.teams.any fun t => t.2.ctx = x && t.2.mops.any fun m => m.2.lanes.any fun l =>
    match l.place with | .peer p _ => p = peer | _ => false

/-- A page connection resets (R295, R299): its context ends with REMOTE, its packets go no further, and a new incarnation begins. -/
def State.resetPages (s : State) (key : Nat) : State :=
  let x := key / 2 ^ 17
  let away := (s.hopFor (key % 2 ^ 17)).isNone
  let stale := (mget {} s.fab.pages key).pkts.any fun p => match p.first with
    | some t => t + 10000000 ≤ s.mgmt.time
    | none => false
  if !s.pageAccess x (key % 2 ^ 17) || !(away || stale) then s else
  let s := s.modFab fun b => { b with
    pages := mmod b.pages key fun c => { epoch := (c.epoch + 1) % 2 ^ 32, base := c.next, next := c.next }
    sendq := (mmap b.sendq fun l => l.filter fun q => q.conn ≠ pageQueue key).filter fun l => !l.2.isEmpty }
  let s := s.resetAsks x (key % 2 ^ 17)
  if x < 1024 then s.remoteEnd x (s.hostDie (ctxDevice x)) 0 else s

/-- CONNECTION_RESET (R293, R299): after 10 ms without an acknowledgement, or because the peer is unreachable. A page connection is
numbered 2^32 + context * 2^17 + peer. -/
def execConnectionReset (queue : Nat) (s : State) : Out :=
  .next (if 2 ^ 32 ≤ queue then s.resetPages (queue - 2 ^ 32)
    else match s.conn? queue with
    | none => s
    | some c =>
      let away := (s.hopFor c.peer).isNone
      if c.stale s.mgmt.time || (away && (!c.cut || c.reqs.any fun r => r.status = 0)) then
        (s.resetConn queue).modConn queue fun c => { c with cut := away }
      else s)

/-- RPOST_DEADLINE (R303): a request that still stands at its deadline completes TIMEOUT. -/
def execRpostDeadline (queue : Nat) (s : State) : Out :=
  .next (match (s.conn? queue).bind fun c => c.reqs.find? fun r => r.status = 0 && (match r.post with
      | some (_, d) => d ≠ 0 && d ≤ s.mgmt.time
      | none => false) with
    | none => s
    | some r =>
      let up (x : Req) : Req := if x.seq = r.seq then { x with status := 3, post := none } else x
      (s.modConn queue fun c => { c with reqs := c.reqs.map up }).settleConn queue)

/-- RCQW_SATISFIED (R304): the first wait of a queue ends once the other queue has posted enough. -/
def execRcqwSatisfied (queue : Nat) (s : State) : Out :=
  .next (match (s.conn? queue).bind fun c => c.reqs.find? fun r => r.status = 0 && (match r.op with | .wait _ _ => true | _ => false) with
    | none => s
    | some r =>
      match r.op with
      | .wait b target =>
        match s.conn? b with
        | some o =>
          if o.cc < target then s else
          let up (x : Req) : Req := if x.seq = r.seq then { x with status := 1 } else x
          (s.modConn queue fun c => { c with reqs := c.reqs.map up }).settleConn queue
        | none => s
      | _ => s)

/-! ### The target -/

/-- The admit table knows a packet's owner with its key (R306). -/
def Fabric.admits (b : Fabric) (p : Packet) : Bool := b.knows p.owner p.key

/-- A dropped packet is counted against its channel (R306). -/
def State.dropPacket (s : State) (p : Packet) : State := s.dropOn p.channel

/-- The kind of a packet asks for a permission that the window gives (R464). -/
def Window.permits (w : Window) (kind : Nat) : Bool := if kind = 0 then w.wr else if kind = 1 then w.rd else w.at_

/-- What the access of a packet's kind needs of the pages. -/
def kindNeed (kind : Nat) : Need := if kind = 0 then { wr := true } else if kind = 1 then { rd := true } else { rd := true, wr := true }

/-- A packet of a page connection (R295). -/
def isPagePacket (p : Packet) : Bool := 2 ^ 32 ≤ p.conn

/-- Where `n` bytes from `off` of this package's space lie (R176, R295), for another package's access: in one frame, in the HBM of a
surviving die. The access needs no window; its permissions are those of the accessing package's leaf. -/
def State.ownFrame (s : State) (off n : Nat) : Except Nat (List (Place × Nat)) :=
  let pa := Config.peerFrame (off / 65536) * 65536 + off % 65536
  if off % 65536 + n ≤ 65536 && pa / 2 ^ 38 < Config.dies && !(s.die (pa / 2 ^ 38)).failed && pa % 2 ^ 38 + n ≤ Config.hbmBytes
  then .ok [(.hbm pa, n)] else .error 8

/-- The checks of R301 in their order, and the bytes' places; or the status that refuses the packet. A page connection's access
meets no window (R295). -/
def State.windowCheck (s : State) (p : Packet) (off n : Nat) : Except Nat (Nat × Nat × List (Place × Nat)) :=
  if isPagePacket p then (s.ownFrame off n).map fun l => (0, off, l) else
  let w := mget {} s.fab.windows (field (p.wkey.setWidth 64) 16 16)
  if !w.live || w.gen % 65536 ≠ field (p.wkey.setWidth 64) 0 16 then .error 2
  else if w.ctx % 64 ≠ p.pctx || w.owner ≠ p.owner || !w.permits p.kind then .error 7
  else if w.len < off + n then .error 6
  else match s.span (s.hostDie (ctxDevice w.ctx)) w.ctx (w.base + off) n (kindNeed p.kind) with
    | .ok l => if l.all fun c => match c.1 with | .hbm _ => true | _ => false then .ok (w.ctx, w.base + off, l) else .error 8
    | .error _ => .error 8

/-- A packet performed at the home slices (R298): the state, and the bytes that go back. -/
def State.performPacket (s : State) (p : Packet) (l : List (Place × Nat)) (data : List Byte) (n : Nat) : State × List Byte :=
  if p.kind = 0 then (s.spanWrite l data, [])
  else
    let r := s.spanRead l
    if p.kind = 1 then r else
    let old := natOfBytes r.2
    let x := le data 0 n
    let y := le data n n
    let v := if p.aop % 16 = 12 then (if old = y then x else old) else atomVal (p.aop % 16) (p.aop / 16 % 2 = 1) (8 * n) old x
    (r.1.spanWrite l (bytesOfNat n v), r.2)

/-- A tag enables the oldest posted request that names it, which is sent as if issued now, or waits, up to 4,096 of them (R303): the
state, and whether it could. -/
def State.enableTag (s : State) (x tag : Nat) : State × Bool :=
  let posted := s.fab.conns.flatMap fun c => if c.2.ctx ≠ x then [] else
    c.2.reqs.filterMap fun r => match r.post with
      | some (t, _) => if t = tag && r.status = 0 then some (c.1, r.id) else none
      | none => none
  match posted.find? fun a => posted.all fun b => a.2 ≤ b.2 with
  | some (k, id) =>
    let (s, n) := s.fresh
    let up (r : Req) : Req := if r.id = id then { r with post := none, order := n } else r
    (s.modConn k fun c => { c with reqs := c.reqs.map up }, true)
  | none =>
    let tags := mget [] s.fab.tags x
    if 4096 ≤ tags.length then (s, false)
    else (s.modFab fun b => { b with tags := mput b.tags x (tags ++ [tag]) }, true)

/-- The context that a window key names, whether it is live or not. -/
def State.windowCtx (s : State) (p : Packet) : Nat := (mget {} s.fab.windows (field (p.wkey.setWidth 64) 16 16)).ctx

/-- An acknowledgement to the sender of a packet. -/
def State.ackOut (s : State) (p : Packet) (a : AckItem) : AckOut :=
  let who := if isPagePacket p then (p.owner, p.key) else s.credentials (s.windowCtx p)
  { peer := p.src, conn := p.conn, epoch := p.epoch, owner := who.1, key := who.2, item := a }

/-- An acknowledgement queued for the peer and remembered (R298). -/
def State.sayAck (s : State) (key : Nat) (p : Packet) (a : AckItem) : State :=
  let out := s.ackOut p a
  s.modFab fun b => { b with acks := b.acks ++ [out], inc := mmod b.inc key fun c => { c with said := a :: c.said } }

/-- The next packet of a connection in order (R298, R301): the bytes below `part` that it repeats are left out; it is refused or
performed, and acknowledged. -/
def State.applyPacket (s : State) (key : Nat) (p : Packet) : State :=
  match mget? s.fab.inc key with
  | none => s
  | some c =>
    let skip := c.part - p.index
    let n := p.len - skip
    let upto := p.index + p.len
    let r : State × Nat × List Byte × Bool :=
      if c.refused ≠ 0 then (s, c.refused, [], false) else
      match s.windowCheck p (p.offset.toNat + skip) n with
      | .error e => (s, e, [], e = 8 && !isPagePacket p)
      | .ok (_, _, l) => let q := s.performPacket p l (if p.kind = 2 then p.data else p.data.drop skip) n; (q.1, 1, q.2, false)
    let s := r.1
    let perf := if r.2.1 = 1 then c.perf + n else c.perf
    let t := if p.last && r.2.1 = 1 && p.kind = 0 && p.tag ≠ 0 && !isPagePacket p then s.enableTag (s.windowCtx p) p.tag.toNat else (s, true)
    let status := if t.2 then r.2.1 else 7
    let next (c : InConn) : InConn :=
      if p.last then { c with applied := p.seq + 1, part := 0, perf := 0, refused := 0 }
      else { c with applied := p.seq, part := upto, perf := perf, refused := if status = 1 then 0 else status }
    let s := t.1.modFab fun b => { b with inc := mmod b.inc key next }
    let s := s.sayAck key p { seq := p.seq, upto := upto, status := status, done := perf, data := r.2.2.1 }
    if r.2.2.2 then s.remoteEnd (s.windowCtx p) (s.hostDie (ctxDevice (s.windowCtx p))) 0 else s

/-- A packet is the next one of its connection (R298). -/
def InConn.isNext (c : InConn) (p : Packet) : Bool :=
  c.applied ≤ p.seq && p.seq - p.gap ≤ c.applied && p.index ≤ (if p.seq = c.applied then c.part else 0)

/-- A packet has been applied already (R298). -/
def InConn.isOld (c : InConn) (p : Packet) : Bool :=
  p.seq < c.applied || (p.seq = c.applied && 0 < c.part && p.index + p.len ≤ c.part)

/-- Packets that came early and are next now, one after another (R298). -/
def State.applyEarly (s : State) (key : Nat) : Nat → State
  | 0 => s
  | n + 1 =>
    match mget? s.fab.inc key with
    | none => s
    | some c =>
      match c.early.find? fun p => c.isNext p || c.isOld p with
      | none => s
      | some p =>
        let s := s.modFab fun b => { b with inc := mmod b.inc key fun c => { c with early := c.early.erase p } }
        (if c.isOld p then s else s.applyPacket key p).applyEarly key n

/-- A packet that the admit table lets in reaches its connection (R298, R299): a duplicate is acknowledged again, an early one
held, the next one applied. -/
def State.takePacket (s : State) (p : Packet) : State :=
  let key := p.src * 2 ^ 40 + p.conn
  let c := match mget? s.fab.inc key with
    | some c => if c.epoch < p.epoch then { epoch := p.epoch, applied := p.base } else c
    | none => { epoch := p.epoch, applied := p.base }
  if p.epoch < c.epoch then s else
  let s := s.modFab fun b => { b with inc := mput b.inc key c }
  if c.isOld p then
    match (c.said.filter fun a => a.seq = p.seq && p.index + p.len ≤ a.upto).getLast? with
    | some a => s.modFab fun b => { b with acks := b.acks ++ [s.ackOut p a] }
    | none => s
  else if c.isNext p then (s.applyPacket key p).applyEarly key c.early.length
  else if c.early.contains p || 64 ≤ ((c.early.map (·.seq)).filter (· ≠ p.seq)).eraseDups.length then s
  else s.modFab fun b => { b with inc := mput b.inc key { c with early := c.early ++ [p] } }

/-- A packet comes in on a channel that is in service, with a size that R292 allows. -/
def Fabric.hears (b : Fabric) (p : Packet) : Bool :=
  p.channel < 1024 && !b.isol.contains p.channel && p.len ≤ 4096 && p.conn < 2 ^ 40

/-- FABRIC_PACKET_RECEIVE (R295, R298, R301, R306): a packet, or the part of one that a slot has carried. -/
def execFabricPacketReceive (p : Packet) (s : State) : Out :=
  .next (if p.dst ≠ Config.selfPackage || !s.fab.hears p || s.tableNow.isNone then s
    else if s.fab.admits p then s.takePacket p else s.dropPacket p)

/-- The owners that have a live context on the package. -/
def State.residents (s : State) : List Nat :=
  (s.ctxs.filter fun c => c.2.live && c.2.ended.isNone).map fun c => c.2.owner.toNat

/-- Two owners list each other in the admit table (R306). -/
def Fabric.mutual (b : Fabric) (o q : Nat) : Bool :=
  b.admitTab.any (fun e => e.owner = o && e.lists.contains q) && b.admitTab.any fun e => e.owner = q && e.lists.contains o

/-- RELAY_FORWARD (R293, R306): a packet for another package joins the relay area, if there is room; nothing of it is applied or
acknowledged. -/
def execRelayForward (p : Packet) (s : State) : Out :=
  .next (if p.dst = Config.selfPackage || !s.fab.hears p || s.tableNow.isNone then s
    else if !s.fab.admits p || !(s.residents.all fun o => s.fab.mutual p.owner o) then s.dropPacket p
    else if Config.relayBytes < s.fab.relay.foldl (fun a q => a + q.data.length) p.data.length then s
    else s.modFab fun b => { b with relay := b.relay ++ [p] })

/-- CHANNEL_ISOLATION (R306): a channel that has dropped 64 packets within 1 ms goes dark. -/
def execChannelIsolation (chan : Nat) (s : State) : Out :=
  let l := mget [] s.fab.drops chan
  let many := (List.range l.length).any fun i => match l[i]?, l[i + 63]? with
    | some a, some b => a ≤ b + 1000000
    | _, _ => false
  .next (if many && !s.fab.isol.contains chan then
    (s.modFab fun b => { b with isol := b.isol ++ [chan], drops := mdel b.drops chan }).latchDark else s)

end Sys2Proof.Machine
end

