-- ==== Sys2Proof/Machine/Strands.lean ====
section
/-! DEFINITION. Strands (R249 to R277): headers, pages, free stacks, the strand commands, KST, BGATH, projection sets, the prefix
index, HASHB and PLCQ. -/
namespace Sys2Proof.Machine

/-! ### Access to the strand area -/

/-- Why a strand command traps (R309, R443). -/
inductive STrap where
  | strand (detail : Nat)
  | committed (detail : Nat)
  | flempty (die : Nat)
  | ill
deriving DecidableEq, Repr

/-- A strand command's trap raised on the issuing instruction; the state is that before the command. -/
def State.sTrap (s : State) (c : Cur) (t : STrap) : State :=
  match t with
  | .strand d => s.fatal c.ref .strand (BitVec.ofNat 32 d)
  | .committed d => s.fatal c.ref .committed (BitVec.ofNat 32 d)
  | .flempty d => s.resumable c.ref .flempty (BitVec.ofNat 32 d) 0
  | .ill => s.illop c 10

/-- Who touches the structures: the die whose engine works, and the context. -/
structure SEnv where
  die : Nat
  ctx : Nat
  /-- The core whose command it is, if one's. -/
  core : Option Nat := none
deriving DecidableEq, Repr

/-- The acting split's die, context and core. -/
def Cur.senv (c : Cur) : SEnv := ⟨c.team.die, c.team.ctx, some c.team.coreKey⟩

/-- Bytes of a strand structure, or STRAND 1 (R249). -/
def State.sBytes (s : State) (e : SEnv) (a n : Nat) : Except STrap (List Byte) :=
  match s.vRead e.die e.ctx a n with
  | some b => .ok b
  | none => .error (.strand 1)
/-- A number of a strand structure. -/
def State.sGet (s : State) (e : SEnv) (a n : Nat) : Except STrap Nat := (s.sBytes e a n).map natOfBytes
/-- Bytes of a strand structure written. -/
def State.sPut (s : State) (e : SEnv) (a : Nat) (bs : List Byte) : Except STrap State :=
  match s.vWrite e.die e.ctx a bs e.core with
  | some s => .ok s
  | none => .error (.strand 1)
/-- A number of a strand structure written. -/
def State.sSet (s : State) (e : SEnv) (a n v : Nat) : Except STrap State := s.sPut e a (bytesOfNat n v)

/-- Address bits 56:12 of a register or field. -/
def page12 (d : Nat) : Nat := d / 4096 * 4096 % 2 ^ 57

/-- The strand area of a context (R249, R250). -/
structure Area where
  base  : Nat
  log   : Nat
  pool  : Nat
  mbase : Nat
deriving DecidableEq, Repr

/-- The strand area, or STRAND 1 (R249); the zero bits of the control block are not looked at (log 99). -/
def State.area (s : State) (e : SEnv) : Except STrap Area := do
  let t := (s.ctx e.ctx).strandtab.toNat
  let log := t % 32
  if log < 4 || 20 < log then throw (.strand 1)
  let cb ← s.sBytes e (page12 t) 16
  pure ⟨page12 t, log, le cb 0 8 / 2 ^ 21 * 2 ^ 21 % 2 ^ 57, page12 (le cb 8 8)⟩

/-- A page word with NONE set (R252). -/
def pgNone : Nat := 2 ^ 31
/-- The null link (R254). -/
def nullLink : Nat := 0x3FFFFFFF

/-- A strand header (R252). -/
structure Hdr where
  idx    : Nat
  cl     : Nat := 0
  rl     : Nat := 0
  gen    : Nat := 0
  part   : Bool := false
  live   : Bool := true
  bits   : Nat := 0
  pset   : Nat := 0
  hdim   : Bool := false
  etype  : Bool := false
  fdepth : Nat := 0
  refs   : Nat := 1
  headpg : Nat := 2 ^ 31
  tailpg : Nat := 2 ^ 31
  parent : Nat := 0
  shl    : Nat := 0
  bkt    : Nat := 0
  owner  : Nat := 0
  first  : Nat := 0
  cwin   : Nat := 0
  kwin   : Nat := 0
  plt    : Nat := 0
  npg    : Nat := 0
deriving DecidableEq, Repr

/-- A header from its bytes (R252); its zero bits are not looked at (log 99). -/
def hdrOf (idx : Nat) (b : List Byte) : Hdr :=
  let ctl := le b 8 4
  { idx := idx, cl := le b 0 4, rl := le b 4 4, gen := ctl / 2 ^ 20, part := ctl.testBit 19, live := ctl.testBit 16
    bits := ctl / 2 ^ 12 % 16, pset := ctl / 64 % 64, hdim := ctl.testBit 5, etype := ctl.testBit 4, fdepth := ctl % 16
    refs := le b 0x0C 4, headpg := le b 0x10 4, tailpg := le b 0x14 4, parent := le b 0x18 4, shl := le b 0x1C 4
    bkt := le b 0x20 8, owner := le b 0x28 4, first := le b 0x2C 4, cwin := le b 0x30 32, kwin := le b 0x50 32
    plt := le b 0x70 8, npg := le b 0x78 4 }

/-- The bytes of a header (R252). -/
def Hdr.bytes (h : Hdr) : List Byte :=
  let ctl := h.gen % 4096 * 2 ^ 20 + h.part.toNat * 2 ^ 19 + h.live.toNat * 2 ^ 16 + h.bits * 2 ^ 12 + h.pset * 64 +
    h.hdim.toNat * 32 + h.etype.toNat * 16 + h.fdepth
  bytesOfNat 4 h.cl ++ bytesOfNat 4 h.rl ++ bytesOfNat 4 ctl ++ bytesOfNat 4 h.refs ++ bytesOfNat 4 h.headpg ++
  bytesOfNat 4 h.tailpg ++ bytesOfNat 4 h.parent ++ bytesOfNat 4 h.shl ++ bytesOfNat 8 h.bkt ++ bytesOfNat 4 h.owner ++
  bytesOfNat 4 h.first ++ bytesOfNat 32 h.cwin ++ bytesOfNat 32 h.kwin ++ bytesOfNat 8 h.plt ++ bytesOfNat 4 h.npg

/-- The handle of a header (R251). -/
def Hdr.handle (h : Hdr) : Nat := h.gen % 4096 * 2 ^ 20 + h.idx
/-- Slot bytes, slots per page, and elements of a key (R253). -/
def Hdr.slotBytes (h : Hdr) : Nat := 128 * 2 ^ (h.hdim.toNat + h.etype.toNat)
def Hdr.spp (h : Hdr) : Nat := 8192 / h.slotBytes
def Hdr.dim (h : Hdr) : Nat := if h.hdim then 128 else 64

/-- The header with an index. -/
def State.hdrAt (s : State) (e : SEnv) (a : Area) (idx : Nat) : Except STrap Hdr :=
  (s.sBytes e (a.base + 256 * idx) 124).map (hdrOf idx)
/-- A header written back. -/
def State.hdrPut (s : State) (e : SEnv) (a : Area) (h : Hdr) : Except STrap State := s.sPut e (a.base + 256 * h.idx) h.bytes

/-- The header that a handle names, or STRAND 2 (R251). -/
def State.openStrand (s : State) (e : SEnv) (a : Area) (handle : Nat) : Except STrap Hdr := do
  let idx := handle % 2 ^ 20
  if idx = 0 || 2 ^ a.log ≤ idx then throw (.strand 2)
  let h ← s.hdrAt e a idx
  if !h.live || h.gen ≠ handle / 2 ^ 20 then throw (.strand 2)
  pure h

/-- A page's metadata: NEXT, OWNS, FIRSTTOK, and the link field (R254). -/
structure Meta where
  next  : Nat
  owns  : Nat
  first : Nat
  links : Nat
deriving DecidableEq, Repr

/-- The address of a page's metadata (R250). -/
def Area.metaAt (a : Area) (p : Nat) : Nat := a.mbase + p * 512
/-- The address of a slot (R250, R253). -/
def Area.slotAt (a : Area) (h : Hdr) (p slot : Nat) : Nat := a.pool + p * 8192 + slot * h.slotBytes

/-- A page's metadata read (R254); a page number takes its word's bits [30:0], zero bits among them (log 99). -/
def State.metaOf (s : State) (e : SEnv) (a : Area) (p : Nat) : Except STrap Meta :=
  (s.sBytes e (a.metaAt p) 256).map fun b => ⟨le b 0 4, le b 4 4, le b 8 4, le b 16 240⟩
/-- The link of a slot (R254). -/
def Meta.link (m : Meta) (slot : Nat) : Nat := m.links / 2 ^ (30 * slot) % 2 ^ 30
/-- The link field with one link replaced. -/
def setLink (links slot v : Nat) : Nat :=
  links - links / 2 ^ (30 * slot) % 2 ^ 30 * 2 ^ (30 * slot) + v * 2 ^ (30 * slot)

/-- Metadata of a page set up for a strand (R261): its scales are cleared (log 42). -/
def metaBytes (owns first scnt links : Nat) : List Byte :=
  bytesOfNat 4 pgNone ++ bytesOfNat 4 owns ++ bytesOfNat 4 first ++ bytesOfNat 4 scnt ++ bytesOfNat 240 links ++ bytesOfNat 256 0
/-- Null links for `n` slots. -/
def nullLinks (n : Nat) : Nat := 2 ^ (30 * n) - 1

/-- A bucket head (R262). -/
def State.bucket (s : State) (e : SEnv) (h : Hdr) (g : Nat) : Except STrap Nat := (s.sGet e (h.bkt + 4 * g) 4).map (· % 2 ^ 30)
/-- A bucket head written. -/
def State.setBucket (s : State) (e : SEnv) (h : Hdr) (g v : Nat) : Except STrap State := s.sSet e (h.bkt + 4 * g) 4 v

/-- The first link of a chain whose token is below a limit, or the null link (R265, R268). -/
def State.cutLink (s : State) (e : SEnv) (a : Area) (lim : Nat) : Nat → Nat → Except STrap Nat
  | 0, _ => .error (.strand 1)
  | n + 1, l =>
    if l = nullLink then .ok l else
    match s.metaOf e a (l / 64) with
    | .error t => .error t
    | .ok m => if m.first + l % 64 < lim then .ok l else s.cutLink e a lim n (m.link (l % 64))

/-- A bound on the length of any chain: the slots of a pool. -/
def chainFuel : Nat := 2 ^ 31

/-- The strand or ancestor whose own page holds a token (R269). -/
def State.holderOf (s : State) (e : SEnv) (a : Area) (t : Nat) : Nat → Hdr → Except STrap Hdr
  | 0, _ => .error (.strand 1)
  | n + 1, h =>
    if !(t < h.first || (h.part && h.first ≤ t)) then .ok h else
    if h.parent = 0 then .error (.strand 1) else
    match s.hdrAt e a (h.parent % 2 ^ 20) with
    | .error x => .error x
    | .ok p => s.holderOf e a t n p

/-- The page that covers a token, from page `p` of a chain on (R269). -/
def State.pageFrom (s : State) (e : SEnv) (a : Area) (t spp : Nat) : Nat → Nat → Except STrap Nat
  | 0, _ => .error (.strand 1)
  | n + 1, p =>
    if pgNone ≤ p then .error (.strand 1) else
    match s.metaOf e a p with
    | .error x => .error x
    | .ok m => if t < m.first + spp then .ok p else s.pageFrom e a t spp n m.next

/-- The page that holds a token of a strand, with a hint (R269). -/
def State.pageOf (s : State) (e : SEnv) (a : Area) (h : Hdr) (t : Nat) (hint : Nat) : Except STrap Nat := do
  let o ← s.holderOf e a t 16 h
  let hinted := hint < 2 ^ 24 && match s.metaOf e a hint with
    | .ok m => m.owns = o.handle && m.first ≤ t
    | .error _ => false
  s.pageFrom e a t h.spp (2 ^ 24) (if hinted then hint else o.headpg)

/-! ### Free stacks -/

/-- The leaf of the driver's management table for an access that a device's function makes, when it admits it (R176, R178, R197). -/
def State.mgmtLeaf (s : State) (dev va n : Nat) (wr : Bool) : Option DWord :=
  (mget? s.mgmt.mtab (va / 65536)).filter fun e =>
    e.getLsbD 0 && e.getLsbD (if wr then 2 else 1) && va % 65536 + n ≤ 65536 && s.leafOk dev e &&
      (!e.getLsbD 6 || va % 4096 + n ≤ 4096)

/-- Where a management address lies in HBM, under the driver's management table (R197, R255). -/
def State.mgmtPlace (s : State) (dev va n : Nat) (wr : Bool) : Option Nat :=
  (s.mgmtLeaf dev va n wr).bind fun e => match s.placeOf (64 * dev) va e with
    | some (.hbm pa) => some pa
    | _ => none

/-- A free stack (R255): where its descriptor lies, and its array, capacity and top. -/
structure Stack where
  at_ : Nat
  arr : Nat
  cap : Nat
  top : Nat
deriving DecidableEq, Repr

/-- The stack of a context on a die, or STRAND 1 (R255, R382). -/
def State.stack (s : State) (e : SEnv) (die : Nat) : Except STrap Stack :=
  match s.mgmtPlace (deviceOf s.mgmt.mode die) (page12 (s.die die).flhead.toNat + 64 * (e.ctx % 64)) 64 true with
  | none => .error (.strand 1)
  | some pa =>
    let b := (s.homeRead pa 16).2
    .ok ⟨pa, le b 0 8, le b 8 4, le b 12 4⟩
/-- TOP of a stack written. -/
def State.setTop (s : State) (e : SEnv) (k : Stack) (v : Nat) : State :=
  (s.homeWrite (k.at_ + 12) (bytesOfNat 4 v)).l1Refresh e.core (k.at_ + 12) (bytesOfNat 4 v)

/-- A pop of the stack of a die; none when it is empty (R256). -/
def State.pop (s : State) (e : SEnv) (die : Nat) : Except STrap (State × Option Nat) := do
  let k ← s.stack e die
  if k.top = 0 then pure (s, none) else
  let p ← s.sGet e (k.arr + 4 * (k.top - 1)) 4
  pure (s.setTop e k (k.top - 1), some p)

/-- A push onto the stack of the frame's die; STRAND 8 where it cannot be made (R256). -/
def State.push (s : State) (e : SEnv) (pfn : Nat) : Except STrap State := do
  if pfn = 0xFFFFFF || 2 ^ 24 ≤ pfn || !(s.diesOf (ctxDevice e.ctx)).contains (pfn / 2 ^ 20) then throw (.strand 8)
  let k ← s.stack e (pfn / 2 ^ 20)
  if k.cap ≤ k.top then throw (.strand 8)
  let s ← s.sSet e (k.arr + 4 * k.top) 4 pfn
  pure (s.setTop e k (k.top + 1))

/-! ### Strand commands -/

/-- A free header taken (R260): live, with every other field as SNEW leaves it; none when no header is free. -/
def State.takeHdr (s : State) (e : SEnv) (a : Area) : Except STrap (State × Option Hdr) := do
  let idx ← s.sGet e (a.base + 0x10) 4
  if idx = 0 then pure (s, none) else
  let h ← s.hdrAt e a idx
  let n ← s.sGet e (a.base + 0x14) 4
  let s ← s.sSet e (a.base + 0x10) 4 h.cl
  let s ← s.sSet e (a.base + 0x14) 4 (n - 1)
  pure (s, some { idx := idx, gen := h.gen, owner := ((s.ctx e.ctx).owner).toNat })

/-- SNEW's effect (R260, R442): the state and the handle. -/
def State.snew (s : State) (e : SEnv) (shape bkt plt : Nat) : Except STrap (State × Nat) := do
  let b := shape / 2 ^ 12 % 16
  if 2 ^ 16 ≤ shape || shape % 16 ≠ 0 || b < 4 || 12 < b || bkt % (4 * 2 ^ b) ≠ 0 then throw .ill
  let a ← s.area e
  match ← s.takeHdr e a with
  | (s, none) => pure (s, 0)
  | (s, some h) =>
    let h := { h with bits := b, pset := shape / 64 % 64, hdim := shape.testBit 5, etype := shape.testBit 4, bkt := bkt, plt := plt }
    let s ← s.hdrPut e a h
    let s ← s.sPut e bkt ((List.range (2 ^ b)).flatMap fun _ => bytesOfNat 4 nullLink)
    pure (s, h.handle)

/-- Copy on append (R268) into frame `f`. -/
def State.copyOnAppend (s : State) (e : SEnv) (a : Area) (h : Hdr) (f : Nat) : Except STrap (State × Hdr) := do
  let n := h.shl - h.first
  let p ← s.pageOf e a h h.first pgNone
  let data ← s.sBytes e (a.slotAt h p 0) (n * h.slotBytes)
  let scales ← s.sBytes e (a.metaAt p + 0x100) (4 * n)
  let m ← s.metaOf e a p
  let rebase (l : Nat) : Nat := if l ≠ nullLink && l / 64 = p then f * 64 + l % 64 else l
  let links ← (List.range h.spp).foldlM (fun acc i => do
    let l ← if i < n then s.cutLink e a h.shl chainFuel (m.link i) else pure nullLink
    pure (acc + rebase l * 2 ^ (30 * i))) 0
  let s ← (List.range (2 ^ h.bits)).foldlM (fun (s : State) g => do
    let l ← s.bucket e h g
    let l ← s.cutLink e a h.shl chainFuel l
    s.setBucket e h g (rebase l)) s
  let s ← s.sPut e (a.slotAt h f 0) data
  let s ← s.sPut e (a.metaAt f) (metaBytes h.handle h.first n links)
  let s ← s.sPut e (a.metaAt f + 0x100) scales
  pure (s, { h with headpg := f, tailpg := f, npg := 1, part := false })

/-- One more page at the end of a strand's chain (R261). -/
def State.addPage (s : State) (e : SEnv) (a : Area) (h : Hdr) (f : Nat) : Except STrap (State × Hdr) := do
  let s ← s.sPut e (a.metaAt f) (metaBytes h.handle (h.first + h.npg * h.spp) 0 (nullLinks h.spp))
  let s ← if pgNone ≤ h.tailpg then pure s else s.sSet e (a.metaAt h.tailpg) 4 f
  pure (s, { h with headpg := if pgNone ≤ h.headpg then f else h.headpg, tailpg := f, npg := h.npg + 1 })

/-- SCNT of the pages from `p` on, `n` of them at most (R254, R261): the slots reserved below token `rl`. -/
def State.setScnt (s : State) (e : SEnv) (a : Area) (spp rl : Nat) : Nat → Nat → Except STrap State
  | 0, _ => .ok s
  | n + 1, p =>
    if pgNone ≤ p then .ok s else
    match s.metaOf e a p with
    | .error t => .error t
    | .ok m => match s.sSet e (a.metaAt p + 0x0C) 4 (min spp (rl - m.first)) with
      | .error t => .error t
      | .ok s => s.setScnt e a spp rl n m.next

/-- SRES's effect (R261, R257, R268): the state and the first index, 0xFFFF_FFFF when refused. -/
def State.sres (s : State) (e : SEnv) (handle n : Nat) : Except STrap (State × Nat) := do
  if n < 1 || 256 < n then throw .ill
  let a ← s.area e
  let h ← s.openStrand e a handle
  if 256 < h.rl + n - h.cl || 0xFFFFFF00 < h.rl + n then pure (s, 0xFFFFFFFF) else
  let pages := (h.rl + n - h.first + h.spp - 1) / h.spp
  let need := if h.part then pages else pages - h.npg
  let k ← if need = 0 then pure 0 else (s.stack e e.die).map (·.top)
  if k < need then throw (.flempty e.die)
  let r ← (List.range need).foldlM (fun (z : State × Hdr × Nat) i => do
    let q ← z.1.pop e e.die
    let f := q.2.getD 0
    let y ← if h.part && i = 0 then q.1.copyOnAppend e a z.2.1 f else q.1.addPage e a z.2.1 f
    pure (y.1, y.2, if i = 0 then f else z.2.2)) (s, h, pgNone)
  let h2 := { r.2.1 with rl := h.rl + n }
  let s ← r.1.hdrPut e a h2
  let from_ := if h.part || pgNone ≤ h.tailpg then h2.headpg else h.tailpg
  let s ← s.setScnt e a h.spp h2.rl (need + 1) from_
  pure (s, h.rl)

/-- The bits of a range of the windows (R263). -/
def rangeBits (lo n : Nat) : Nat := (2 ^ n - 1) * 2 ^ lo
/-- The count of consecutive set bits from bit 0, at most `n`. -/
def onesFrom (v : Nat) : Nat → Nat
  | 0 => 0
  | n + 1 => if v % 2 = 1 then 1 + onesFrom (v / 2) n else 0

/-- SCOMMIT's effect (R263). -/
def State.scommit (s : State) (e : SEnv) (handle i n : Nat) : Except STrap State := do
  if n < 1 || 256 < n then throw .ill
  let a ← s.area e
  let h ← s.openStrand e a handle
  if i < h.cl || h.rl < i + n then throw (.committed 4)
  let m := rangeBits (i - h.cl) n
  if h.kwin &&& m ≠ m then throw (.committed 3)
  if h.cwin &&& m ≠ 0 then throw (.committed 4)
  let w := h.cwin ||| m
  let k := onesFrom w 256
  s.hdrPut e a { h with cl := h.cl + k, cwin := w / 2 ^ k, kwin := h.kwin / 2 ^ k }

/-- SFORK's effect (R265, R442): the state and the child's handle. -/
def State.sfork (s : State) (e : SEnv) (parent len bkt : Nat) : Except STrap (State × Nat) := do
  let a ← s.area e
  let p ← s.openStrand e a parent
  if bkt % (4 * 2 ^ p.bits) ≠ 0 then throw .ill
  if p.cl < len then throw (.strand 4)
  if 0 < len && p.fdepth = 8 then throw (.strand 3)
  match ← s.takeHdr e a with
  | (s, none) => pure (s, 0)
  | (s, some h) =>
    let h := { h with bits := p.bits, pset := p.pset, hdim := p.hdim, etype := p.etype, bkt := bkt }
    if len = 0 then
      let s ← s.hdrPut e a h
      let s ← s.sPut e bkt ((List.range (2 ^ p.bits)).flatMap fun _ => bytesOfNat 4 nullLink)
      pure (s, h.handle)
    else
      let h := { h with
        cl := len, rl := len, shl := len, parent := parent, fdepth := p.fdepth + 1, first := len / p.spp * p.spp
        part := len % p.spp ≠ 0 }
      let heads ← (List.range (2 ^ p.bits)).mapM fun g => do s.cutLink e a len chainFuel (← s.bucket e p g)
      let s ← s.hdrPut e a { p with refs := p.refs + 1 }
      let s ← s.hdrPut e a h
      let s ← s.sPut e bkt (heads.flatMap fun l => bytesOfNat 4 l)
      pure (s, h.handle)

/-- The own pages of a strand pushed in chain order; a frame that cannot be pushed is left off and reported (R267). -/
def State.pushPages (s : State) (e : SEnv) (a : Area) : Nat → Nat → Except STrap State
  | 0, _ => .ok s
  | n + 1, p =>
    if pgNone ≤ p then .ok s else
    match s.metaOf e a p with
    | .error t => .error t
    | .ok m =>
      let lost (s : State) : State := { s with mgmt := { s.mgmt with
        health := { s.mgmt.health with frlost := (ctxDevice e.ctx :: s.mgmt.health.frlost).eraseDups } } }
      match s.push e p with
      | .ok s => s.pushPages e a n m.next
      | .error (.strand 8) => (lost s).pushPages e a n m.next
      | .error t => .error t

/-- SREL's effect (R267); `n` bounds the chain of parents. -/
def State.srel (s : State) (e : SEnv) (a : Area) : Nat → Nat → Except STrap State
  | 0, _ => .ok s
  | n + 1, handle =>
    match s.openStrand e a handle with
    | .error t => .error t
    | .ok h =>
      if h.refs ≠ 1 then s.hdrPut e a { h with refs := h.refs - 1 } else
      match (do
        let s ← s.pushPages e a h.npg h.headpg
        let free ← s.sGet e (a.base + 0x10) 4
        let k ← s.sGet e (a.base + 0x14) 4
        let s ← s.hdrPut e a { h with refs := 0, live := false, gen := h.gen + 1, cl := free }
        let s ← s.sSet e (a.base + 0x10) 4 h.idx
        s.sSet e (a.base + 0x14) 4 (k + 1) : Except STrap State) with
      | .error t => .error t
      | .ok s => if h.parent = 0 then .ok s else s.srel e a n h.parent

/-- SSEEK's answer (R269): the slot's address and the page. -/
def State.sseek (s : State) (e : SEnv) (handle t hint : Nat) : Except STrap (DWord × Word) := do
  let a ← s.area e
  let h ← s.openStrand e a handle
  if h.cl ≤ t then pure (BitVec.allOnes 64, BitVec.allOnes 32) else
  let p ← s.pageOf e a h t hint
  pure (BitVec.ofNat 64 (a.slotAt h p (t % h.spp)), BitVec.ofNat 32 p)

/-- What follows a strand command's effect: the registers written, an acquire of the core's L1 where it is one, and the
completion left to ENGINE_COMMAND_COMPLETE. -/
def State.strandDone (s : State) (c : Cur) (i : Instr) (acq : Bool) (wr : Group → Group) : State :=
  let s := if acq then s.l1Clear c.team.coreKey else s
  let c := s.again c
  let c := if i.longLatency then c.deferI i 0 true else c
  s.effected { c with group := wr c.group } i []

/-- SNEW (R260, R441, R442). -/
def execSnew (f : FmtE) (s : State) : Out :=
  onSplit s fun c =>
    if !c.acts f.com then s else
    match s.snew c.senv (c.rdS f.s1.toNat).toNat (c.rdPair f.s2.toNat).toNat (c.rdPair f.s3.toNat).toNat with
    | .error t => s.sTrap c t
    | .ok r => r.1.strandDone c (.snew f) false fun g => g.wrS f.s0.toNat (BitVec.ofNat 32 r.2)

/-- SRES (R261, R257, R268). -/
def execSres (f : FmtE) (s : State) : Out :=
  onSplit s fun c =>
    if !c.acts f.com then s else
    match s.sres c.senv (c.rdS f.s1.toNat).toNat (c.rdS f.s2.toNat).toNat with
    | .error t => s.sTrap c t
    | .ok r => r.1.strandDone c (.sres f) false fun g => g.wrS f.s0.toNat (BitVec.ofNat 32 r.2)

/-- SCOMMIT (R263). -/
def execScommit (f : FmtE) (s : State) : Out :=
  onSplit s fun c =>
    if !c.acts f.com then s else
    match s.scommit c.senv (c.rdS f.s0.toNat).toNat (c.rdS f.s1.toNat).toNat (c.rdS f.s2.toNat).toNat with
    | .error t => s.sTrap c t
    | .ok t => t.strandDone c (.scommit f) false id

/-- SFORK (R265). -/
def execSfork (f : FmtE) (s : State) : Out :=
  onSplit s fun c =>
    if !c.acts f.com then s else
    match s.sfork c.senv (c.rdS f.s1.toNat).toNat (c.rdS f.s2.toNat).toNat (c.rdPair f.s3.toNat).toNat with
    | .error t => s.sTrap c t
    | .ok r => r.1.strandDone c (.sfork f) false fun g => g.wrS f.s0.toNat (BitVec.ofNat 32 r.2)

/-- SLEN (R264, R259). -/
def execSlen (f : FmtE) (s : State) : Out :=
  onSplit s fun c =>
    if !c.acts f.com then s else
    match (do s.openStrand c.senv (← s.area c.senv) (c.rdS f.s1.toNat).toNat : Except STrap Hdr) with
    | .error t => s.sTrap c t
    | .ok h => s.strandDone c (.slen f) true fun g => g.wrS f.s0.toNat (BitVec.ofNat 32 h.cl)

/-- SREL (R267). -/
def execSrel (f : FmtE) (s : State) : Out :=
  onSplit s fun c =>
    if !c.acts f.com then s else
    match (do s.srel c.senv (← s.area c.senv) 16 (c.rdS f.s0.toNat).toNat : Except STrap State) with
    | .error t => s.sTrap c t
    | .ok t => t.strandDone c (.srel f) false id

/-- SSEEK (R269, R442). -/
def execSseek (f : FmtE) (s : State) : Out :=
  onSplit s fun c =>
    if !c.acts f.com then s else
    match s.sseek c.senv (c.rdS f.s1.toNat).toNat (c.rdS f.s2.toNat).toNat (c.rdS f.s3.toNat).toNat with
    | .error t => s.sTrap c t
    | .ok r => s.strandDone c (.sseek f) true fun g => (g.wrPair f.s0.toNat r.1).wrS f.s3.toNat r.2

/-! ### Signatures -/

/-- A sum of products, exact, is zero or above; a NaN is not (R273). -/
def signOf (row key : List FVal) : Bool :=
  match (row.zip key).foldl (fun a x => a.add 0 (x.1.mul x.2)) (FVal.fin false 0 0) with
  | .nan => false
  | .inf n => !n
  | .fin n m _ => !n || m = 0

/-- The signature of a key under the rows of a set (R273). -/
def signature (rows : List (List Nat)) (key : List FVal) : Nat :=
  (rows.zipIdx.map fun r => if signOf (r.1.map bf16Fmt.decode) key then 2 ^ r.2 else 0).foldl (· + ·) 0

/-- Another die of the device holds a different set of the owner in the place of this one (R273). -/
def State.setsDiffer (s : State) (e : SEnv) (n : Nat) (set : ProjSet) : Bool :=
  (s.diesOf (ctxDevice e.ctx)).any fun d => match mget? (s.die d).projs n with
    | some p => p.owner = set.owner && p.bits = set.bits && p.hdim = set.hdim && p.rows ≠ set.rows
    | none => false

/-- The bucket of a key (R273): that of its signature, and any, freely, where the sets of the owner's dies differ, which R273 calls
unpredictable (R5; log 111). -/
def State.keySign (s : State) (e : SEnv) (n : Nat) (set : ProjSet) (key : List FVal) : State × Nat :=
  if s.setsDiffer e n set then s.pick (2 ^ set.bits) else (s, signature set.rows key)

/-- The elements of a key or query as numbers (R253, R347). -/
def keyElems (bf16 : Bool) (n : Nat) (bs : List Byte) : List FVal :=
  (List.range n).map fun i => if bf16 then bf16Fmt.decode (le bs (2 * i) 2) else e4m3Fmt.decode (le bs i 1)

/-- The projection set of a strand on the issuing die, or STRAND 6 (R273). -/
def State.projSet (s : State) (e : SEnv) (h : Hdr) : Except STrap ProjSet :=
  match mget? (s.die e.die).projs h.pset with
  | some p => if p.owner = (s.ctx e.ctx).owner && p.bits = h.bits && p.hdim = h.hdim then .ok p else .error (.strand 6)
  | none => .error (.strand 6)

/-- The command is complete but for its posting, and has used a projection set (R425). -/
def State.signedDone (s : State) (c : Cur) (i : Instr) (set : Nat) : State :=
  let (s, id) := s.fresh
  s.put (c.command i id (c.cmd (.signed set) [] true))

/-- KST's effect once its source is read (R262, R387, R388). -/
def State.kst (s : State) (e : SEnv) (a : Area) (h : Hdr) (t : Nat) (scale : Word) (data : List Byte) : Except STrap State := do
  let set ← s.projSet e h
  let good := match f32Fmt.decode scale.toNat with | .fin n m _ => !n && m ≠ 0 | _ => false
  if !h.etype && !good then throw (.strand 7)
  if t < h.cl || h.rl ≤ t then throw (.committed 1)
  if h.kwin.testBit (t - h.cl) then throw (.committed 2)
  let (s, g) := s.keySign e h.pset set (keyElems h.etype h.dim data)
  let p ← s.pageOf e a h t pgNone
  let slot := t % h.spp
  let s ← s.sPut e (a.slotAt h p slot) data
  let s ← if h.etype then pure s else s.sSet e (a.metaAt p + 0x100 + 4 * slot) 4 scale.toNat
  let m ← s.metaOf e a p
  let old ← s.bucket e h g
  let s ← s.sSet e (a.metaAt p + 0x10) 240 (setLink m.links slot old)
  let s ← s.setBucket e h g (p * 64 + slot)
  s.hdrPut e a { h with kwin := h.kwin ||| 2 ^ (t - h.cl) }

/-- KST (R387 to R389). -/
def execKst (f : FmtE) (s : State) : Out :=
  onSplit s fun c =>
    if !c.acts f.com then s else
    let e := c.senv
    let sg := f.flg.getLsbD 0
    let src := c.addrOf (!sg) f.s2
    let found : Except STrap (Area × Hdr) := do
      let a ← s.area e
      pure (a, ← s.openStrand e a (c.rdS f.s0.toNat).toNat)
    let n := match found with | .ok q => q.2.slotBytes | .error _ => 128
    if src % 16 ≠ 0 then s.illop c 10 else
    match s.engRanges c [⟨!sg, src, n, { rd := true }⟩] with
    | .error t => t
    | .ok ps =>
      match found with
      | .error t => s.sTrap c t
      | .ok (a, h) =>
        let r := ps.flatten.foldl (fun (z : State × List Byte) p =>
          let q := z.1.engRead c.ref.team p.1 p.2
          (q.1, z.2 ++ q.2)) (s, [])
        match r.1.kst e a h (c.rdS f.s1.toNat).toNat (c.rdS f.s3.toNat) r.2 with
        | .error t => s.sTrap c t
        | .ok t => t.signedDone (t.again c) (.kst f) h.pset

/-- One gathered token: its index, the entry's flags, and the address of its K (R275). -/
abbrev Gathered := Nat × Nat × Nat

/-- The limits below which tokens of each strand of the chain of ancestors belong to a strand (R265, R274): by handle. -/
def State.limits (s : State) (e : SEnv) (a : Area) : Nat → Hdr → Nat → Except STrap (List (Nat × Nat))
  | 0, _, _ => .ok []
  | n + 1, h, lim =>
    if h.parent = 0 then .ok [(h.handle, lim)] else
    match s.hdrAt e a (h.parent % 2 ^ 20) with
    | .error t => .error t
    | .ok p => match s.limits e a n p (min lim h.shl) with
      | .error t => .error t
      | .ok l => .ok ((h.handle, lim) :: l)

/-- The committed tokens of one bucket's chain (R274). -/
def State.gather (s : State) (e : SEnv) (a : Area) (h : Hdr) (lims : List (Nat × Nat)) (bucket : Nat) (neigh : Bool) :
    Nat → Nat → List Gathered → Except STrap (List Gathered)
  | 0, _, acc => .ok acc
  | n + 1, l, acc =>
    if l = nullLink then .ok acc else
    match s.metaOf e a (l / 64) with
    | .error t => .error t
    | .ok m =>
      let tok := m.first + l % 64
      let lim := ((lims.find? fun x => x.1 = m.owns).map (·.2)).getD 0
      let flags := bucket * 16 + (if m.owns = h.handle then 0 else 2) + neigh.toNat
      s.gather e a h lims bucket neigh n (m.link (l % 64))
        (if tok < lim then (tok, flags, a.slotAt h (l / 64) (l % 64)) :: acc else acc)

/-- An entry put in descending token order (R275). -/
def putDesc (x : Gathered) : List Gathered → List Gathered
  | [] => [x]
  | y :: ys => if y.1 ≤ x.1 then x :: y :: ys else y :: putDesc x ys

/-- The entries that BGATH collects for a query (R275). -/
def State.bgath (s : State) (e : SEnv) (a : Area) (h : Hdr) (nb : Bool) (query : List Byte) : Except STrap (List Gathered) := do
  let set ← s.projSet e h
  let g := (s.keySign e h.pset set (keyElems true h.dim query)).2
  let lims ← s.limits e a 16 h h.cl
  let gs := (g, false) :: if nb then (List.range h.bits).map fun q => (g ^^^ 2 ^ q, true) else []
  let all ← gs.foldlM (fun acc b => do s.gather e a h lims b.1 b.2 chainFuel (← s.bucket e h b.1) acc) []
  pure (all.foldl (fun l x => putDesc x l) [])

/-- The 16 bytes of an entry (R275). -/
def entryBytes (x : Gathered) : List Byte := bytesOfNat 4 x.1 ++ bytesOfNat 4 x.2.1 ++ bytesOfNat 8 x.2.2

/-- The output area after DENSE (R276): each byte freely its old value or a byte of an entry. -/
def State.denseBytes (s : State) (old : List Byte) (es : List (List Byte)) : State × List Byte :=
  old.zipIdx.foldl (fun z b =>
    let cand := b.1 :: es.map fun x => (x[b.2 % 16]?).getD 0
    let q := z.1.pick cand.length
    (q.1, z.2 ++ [(cand[q.2]?).getD b.1])) (s, [])

/-- What a BGATH does to memory (R347, R276), with its strand, its count and whether it is DENSE; or the trap that it raises. -/
def State.bgathRun (s : State) (c : Cur) (f : FmtE) : Except State (State × Hdr × Nat × Bool) :=
  let e := c.senv
  let q := (c.rdS f.s2.toNat).toNat
  let out := (c.rdS f.s3.toNat).toNat
  let densef := (s.ctx c.team.ctx).densef.toNat
  let lim := densef / 256 % 65536
  let found : Except STrap (Area × Hdr) := do
    let a ← s.area e
    pure (a, ← s.openStrand e a (c.rdS f.s1.toNat).toNat)
  let n := match found with | .ok q => 2 * q.2.dim | .error _ => 128
  if q % 16 ≠ 0 || out % 16 ≠ 0 then .error (s.illop c 10) else
  match s.engRanges c [⟨true, q, n, {}⟩, ⟨true, out, 16 * lim, {}⟩] with
  | .error t => .error t
  | .ok _ =>
    match (do
      let r ← found
      let set ← s.projSet e r.2
      pure ((s.keySign e r.2.pset set []).1, r.2, ← s.bgath e r.1 r.2 (f.flg.getLsbD 0) (s.arrRead c.team q n))
        : Except STrap (State × Hdr × List Gathered)) with
    | .error t => .error (s.sTrap c t)
    | .ok (s, h, es) =>
      let n := es.length
      let dense := lim < n || densef % 128 * h.cl < 64 * n
      let bs := es.map entryBytes
      let r := if dense then s.denseBytes (s.arrRead c.team out (16 * lim)) bs else (s, bs.flatten)
      .ok ((r.1.arrWrite c.ref.team c.team out r.2).l1Clear c.team.coreKey, h, n, dense)

/-- BGATH (R347, R348, R276). -/
def execBgath (f : FmtE) (s : State) : Out :=
  onSplit s fun c =>
    if !c.acts f.com then s else
    match s.bgathRun c f with
    | .error t => t
    | .ok (s, h, n, dense) =>
      let c := (s.again c).deferI (.bgath f) 0 true
      let c := { c with group := c.group.wrS f.s0.toNat (BitVec.ofNat 32 n) }
      if !dense then s.signedDone c (.bgath f) h.pset
      else
        let t := c.fall
        (s.signedDone { t with split := { t.split with pc := c.split.pc } } (.bgath f) h.pset).userTrap c.ref .dense
          (BitVec.ofNat 32 n) t.split.pc

/-! ### Projection sets -/

/-- A KST or BGATH issued on the die before `id` that has used the set, or is still to use one, is not complete (R425). -/
def State.setBusy (s : State) (die set id : Nat) : Bool :=
  s.teams.any fun t => t.2.die = die && t.2.cmds.any fun k => k.1 < id && (k.2.kind = .signed set || (match k.2.kind, k.2.cause with
    | .later _, some (.kst _, _) | .later _, some (.bgath _, _) => true
    | _, _ => false))

/-- A trap that a command of a team raises after its split has gone on (R310): fatal, precise at the clause that issued it. -/
def State.lateFatal (s : State) (t : Team) (k : Cmd) (cause : Cause) (detail : Word) : State :=
  let pc := (k.cause.map fun q => q.2.pc).getD 0
  s.endContext t.ctx cause.code (faultRecord (trapInfo false k.split 2 cause.code detail) pc (s.timeOf t.die) t.die t.core k.group k.split 2 0) t.die

/-- PROJLD takes effect when it may (R425): the set is replaced, or freed. A set that another owner has come to hold meanwhile
raises STRAND 6 (R273). -/
def State.tryProj (s : State) (tid id : Nat) : State :=
  match (mget? s.teams tid).bind fun t => (mget? t.cmds id).map fun k => (t, k) with
  | some (t, ⟨.projld set shape src, gi, sp, foot, _, _, _, cause⟩) =>
    if t.status = .saved || !t.clear id foot || s.setBusy t.die set id then s else
    if ((mget? (s.die t.die).projs set).map fun p => p.owner != (s.ctx t.ctx).owner).getD false then
      s.lateFatal t ⟨.effected, gi, sp, [], true, false, [], cause⟩ .strand 6 else
    match s.needPeers (.cmd id) (some tid) t.ctx src with
    | some s => s
    | none =>
    let r := src.foldl (fun (z : State × List Byte) p =>
      let q := z.1.engRead tid p.1 p.2
      (q.1, z.2 ++ q.2)) (s, [])
    let s := r.1.modDie t.die fun d => { d with projs :=
      match shape with
      | none => mdel d.projs set
      | some (b, hd) =>
        let dim := if hd then 128 else 64
        let row (q : Nat) : List Nat := (List.range dim).map fun i => le r.2 (2 * (dim * q + i)) 2
        mput d.projs set ⟨t.ctx, (s.ctx t.ctx).owner, b, hd, (List.range b).map row⟩ }
    s.modTeam tid fun t => { t with cmds := mmod t.cmds id fun k => { k with kind := .effected, begun := true } }
  | _ => s

/-- PROJLD, loading or freeing (R424, R425). -/
def projLoad (i : Instr) (f : FmtE) (free : Bool) (s : State) : Out :=
  onSplit s fun c =>
    if !c.acts f.com then s else
    let set := (c.rdS f.s0.toNat).toNat
    let addr := (c.rdPair f.s1.toNat).toNat
    let shape := (c.rdS f.s2.toNat).toNat
    let b := shape % 256
    let hd := shape.testBit 8
    if 63 < set || (!free && (addr % 16 ≠ 0 || 512 ≤ shape || b < 4 || 12 < b)) then s.illop c 10 else
    match s.engRanges c (if free then [] else [⟨false, addr, 2 * (if hd then 128 else 64) * b, { rd := true }⟩]) with
    | .error t => t
    | .ok ps =>
      let vps := if free then [] else vpages addr (2 * (if hd then 128 else 64) * b)
      match mget? (s.die c.team.die).projs set with
      | some p => if p.owner ≠ (s.ctx c.team.ctx).owner then s.sTrap c (.strand 6) else start s c set b hd ps.flatten vps
      | none => start s c set b hd ps.flatten vps
where
  /-- The command enters the team's list, and takes effect when it may. -/
  start (s : State) (c : Cur) (set b : Nat) (hd : Bool) (src : List (Place × Nat)) (vps : List Nat) : State :=
    let (s, id) := s.fresh
    let k := c.cmd (.projld set (if free then none else some (b, hd)) src) (footOf false src) false
    (s.put (c.command i id { k with vpns := vps })).tryProj c.ref.team id

/-- PROJLD (R424, R425). -/
def execProjld (f : FmtE) (s : State) : Out := projLoad (.projld f) f false s
/-- PROJLD.free (R424, R425). -/
def execProjldFree (f : FmtE) (s : State) : Out := projLoad (.projldFree f) f true s
/-- PROJLD_TAKE_EFFECT (R425). -/
def execProjldTakeEffect (team cmd : Nat) (s : State) : Out := .next (s.tryProj team cmd)

/-! ### Free stacks by instruction -/

/-- FLPOP (R382, R383, R256). -/
def execFlpop (f : FmtE) (s : State) : Out :=
  onSplit s fun c =>
    if !c.acts f.com then s else
    match s.pop c.senv c.team.die with
    | .error t => s.sTrap c t
    | .ok r => r.1.strandDone c (.flpop f) true fun g => g.wrS f.s0.toNat (match r.2 with
      | some p => BitVec.ofNat 32 p
      | none => 0xFFFFFFFF)

/-- FLPUSH (R382, R383, R256). -/
def execFlpush (f : FmtE) (s : State) : Out :=
  onSplit s fun c =>
    if !c.acts f.com then s else
    match s.push c.senv (c.rdS f.s0.toNat).toNat with
    | .error t => s.sTrap c t
    | .ok t => t.strandDone c (.flpush f) false id

/-! ### The prefix index -/

/-- An entry probed (R272): its address, hash, handle, state and block count. -/
structure PfxEntry where
  at_    : Nat
  hash   : Nat
  handle : Nat
  state  : Nat
  nblk   : Nat
deriving DecidableEq, Repr

/-- The probed entries, up to the first empty one (R272). A valid entry whose handle is stale counts as a tombstone. STATE is taken
modulo 4, and an entry's zero bits are not looked at (log 99). -/
def State.probe (s : State) (e : SEnv) (base log h : Nat) : Nat → Nat → Except STrap (List PfxEntry)
  | 0, _ => .ok []
  | n + 1, j => do
    let at_ := base + 32 * ((h + j) % 2 ^ log)
    let b ← s.sBytes e at_ 32
    let st := le b 12 4 % 4
    let x : PfxEntry := ⟨at_, le b 0 8, le b 8 4, st, le b 16 4⟩
    if st = 0 then pure [x] else
    let rest ← s.probe e base log h n (j + 1)
    if st ≠ 2 then pure (x :: rest) else
    match (do s.openStrand e (← s.area e) x.handle : Except STrap Hdr) with
    | .ok _ => pure (x :: rest)
    | .error (.strand 2) => pure ({ x with state := 3 } :: rest)
    | .error t => throw t

/-- A strand's reference count raised by 1 (R272). -/
def State.addRef (s : State) (e : SEnv) (handle : Nat) : Except STrap State := do
  let a ← s.area e
  let h ← s.openStrand e a handle
  s.hdrPut e a { h with refs := h.refs + 1 }

/-- PFXTAB's base and log, or ILLOP (R272, R418). -/
def State.pfxTable (s : State) (e : SEnv) (i : Nat) : Except STrap (Nat × Nat) :=
  let t := (s.ctx e.ctx).pfxtab.toNat
  if t % 32 < 6 || 20 < t % 32 || i = 0 then .error .ill else .ok (page12 t, t % 32)

/-- PFXFIND's effect (R272, R418): the state and the handle found, or 0. -/
def State.pfxfind (s : State) (e : SEnv) (h i : Nat) (ref : Bool) : Except STrap (State × Nat) := do
  let t ← s.pfxTable e i
  let ps ← s.probe e t.1 t.2 h 16 0
  match ps.find? fun x => x.state = 2 && x.hash = h && x.nblk = i with
  | none => pure (s, 0)
  | some x => pure (← if ref then s.addRef e x.handle else pure s, x.handle)

/-- PFXINS's effect (R272, R417, R418): the state, the status and the handle. -/
def State.pfxins (s : State) (e : SEnv) (h i handle : Nat) (ref : Bool) : Except STrap (State × Nat × Nat) := do
  let t ← s.pfxTable e i
  let own ← s.openStrand e (← s.area e) handle
  if own.cl < 16 * i then throw (.strand 5)
  let ps ← s.probe e t.1 t.2 h 16 0
  match ps.find? fun x => x.state = 2 && x.hash = h && x.nblk = i with
  | some x => pure (← if ref then s.addRef e x.handle else pure s, 1, x.handle)
  | none => match ps.find? fun x => x.state = 0 || x.state = 3 with
    | none => pure (s, 2, 0)
    | some x =>
      let s ← s.sPut e x.at_ (bytesOfNat 8 h ++ bytesOfNat 4 handle ++ bytesOfNat 4 2 ++ bytesOfNat 4 i)
      pure (← s.addRef e handle, 0, handle)

/-- PFXFIND (R417, R418). -/
def execPfxfind (f : FmtE) (s : State) : Out :=
  onSplit s fun c =>
    if !c.acts f.com then s else
    match s.pfxfind c.senv (c.rdPair f.s1.toNat).toNat (c.rdS f.s2.toNat).toNat (f.flg.getLsbD 0) with
    | .error t => s.sTrap c t
    | .ok r => r.1.strandDone c (.pfxfind f) true fun g => g.wrS f.s0.toNat (BitVec.ofNat 32 r.2)

/-- PFXINS (R417, R418). -/
def execPfxins (f : FmtE) (s : State) : Out :=
  onSplit s fun c =>
    if !c.acts f.com then s else
    match s.pfxins c.senv (c.rdPair f.s1.toNat).toNat (c.rdS f.s2.toNat).toNat (c.rdS f.s3.toNat).toNat (f.flg.getLsbD 0) with
    | .error t => s.sTrap c t
    | .ok r => r.1.strandDone c (.pfxins f) true fun g =>
      (g.wrS f.s0.toNat (BitVec.ofNat 32 r.2.1)).wrS (f.s0.toNat + 1) (BitVec.ofNat 32 r.2.2)

/-- The chained hash of a block (R271). -/
def hashBlock (prev : DWord) (toks : List Word) : DWord :=
  toks.foldl (fun h t => let x := (h ^^^ t.setWidth 64) * 0x9E3779B97F4A7C15; x ^^^ (x >>> 29)) prev

/-- HASHB (R384, R271). -/
def execHashb (f : FmtE) (s : State) : Out :=
  onSplit s fun c =>
    if !c.acts f.com then s else
    let loc := f.flg.getLsbD 0
    let a := c.addrOf loc f.s1
    if a % 4 ≠ 0 then s.alignAt c else
    match s.engRanges c [⟨loc, a, 64, { rd := true }⟩] with
    | .error t => t
    | .ok ps =>
      let r := ps.flatten.foldl (fun (z : State × List Byte) p =>
        let q := z.1.engRead c.ref.team p.1 p.2
        (q.1, z.2 ++ q.2)) (s, [])
      let h := hashBlock (c.rdPair f.s2.toNat) ((List.range 16).map fun j => BitVec.ofNat 32 (le r.2 (4 * j) 4))
      r.1.strandDone c (.hashb f) false fun g => g.wrPair f.s0.toNat h

/-! ### Placement tables -/

/-- The strand whose table a PLCQ names: its PLT and header of 256 bytes (R277, R421). -/
def State.placement (s : State) (e : SEnv) (handle : Nat) : Except STrap (Nat × List Byte) := do
  let h ← s.openStrand e (← s.area e) handle
  if h.plt = 0 then throw .ill
  let b ← s.sBytes e h.plt 256
  if le b 0 4 < 1 || 16 < le b 0 4 then throw (.strand 1)
  pure (h.plt, b)

/-- The entry of block j (R421). -/
def State.plcBlock (s : State) (e : SEnv) (handle j : Nat) : Except STrap DWord := do
  let t ← s.placement e handle
  if le t.2 4 4 ≤ j then pure (BitVec.allOnes 64) else pure (BitVec.ofNat 64 (← s.sGet e (t.1 + 0x100 + 8 * j) 8))

/-- The shard with the fewest committed tokens, the lowest of equals (R421). -/
def shortest (b : List Byte) : Nat :=
  (List.range (le b 0 4)).foldl (fun m i => if le b (0x10 + 8 * i) 4 < le b (0x10 + 8 * m) 4 then i else m) 0

/-- PLCQ.blk (R420, R421). -/
def execPlcq (f : FmtE) (s : State) : Out :=
  onSplit s fun c =>
    if !c.acts f.com then s else
    match s.plcBlock c.senv (c.rdS f.s1.toNat).toNat (c.rdS f.s2.toNat).toNat with
    | .error t => s.sTrap c t
    | .ok d => s.strandDone c (.plcq f) true fun g => g.wrPair f.s0.toNat d

/-- PLCQ.short (R420, R421). -/
def execPlcqShort (f : FmtE) (s : State) : Out :=
  onSplit s fun c =>
    if !c.acts f.com then s else
    match s.placement c.senv (c.rdS f.s1.toNat).toNat with
    | .error t => s.sTrap c t
    | .ok t =>
      let i := shortest t.2
      s.strandDone c (.plcqShort f) true fun g => g.wrPair f.s0.toNat (BitVec.ofNat 64 (le t.2 (0x10 + 8 * i) 8 + i * 2 ^ 32))

end Sys2Proof.Machine
end

