-- ==== Sys2Proof/Machine/Declares.lean ====
section
/-! DEFINITION. The footprints (R222, R223) of the engine commands whose operands are read, or whose effect is made, at their
issue: the split of such an instruction waits, off its port, while an earlier command of its team is in the way. -/
namespace Sys2Proof.Machine

/-- The footprint of ranges: what of them translates. -/
def State.feet (s : State) (t : Team) (rs : List ERange) : List Foot :=
  rs.flatMap fun r => (s.rangePieces t r).filterMap fun p =>
    match p.2.2 with | .ok q _ => some { place := q, len := p.2.1, write := r.need.wr } | _ => none

/-- A range read. -/
def ERange.rd (loc : Bool) (a n : Nat) : ERange := ⟨loc, a, n, { rd := true }⟩
/-- A range written. -/
def ERange.wr (loc : Bool) (a n : Nat) : ERange := ⟨loc, a, n, { wr := true }⟩

/-- The header of the strand that a handle names (R223, R250). -/
def State.headerRange (s : State) (c : Cur) (handle : Nat) (write : Bool) : List ERange :=
  match s.area c.senv with
  | .ok a => [⟨false, a.base + 256 * (handle % 2 ^ 20), 128, { rd := true, wr := write }⟩]
  | .error _ => []

/-- The free stack of a die (R223, R255): its descriptor and the array entry at TOP, or below it for a pop. -/
def State.stackFoot (s : State) (c : Cur) (die : Nat) (pop : Bool) : List Foot :=
  match s.stack c.senv die with
  | .ok k => { place := .hbm k.at_, len := 64, write := true } ::
      s.feet c.team [.wr false (k.arr + 4 * (if pop then k.top - 1 else k.top)) 4]
  | .error _ => []

/-- The sixteen entries that a hash probes (R272). -/
def State.probeRanges (s : State) (c : Cur) (h : Nat) (write : Bool) : List ERange :=
  let t := (s.ctx c.team.ctx).pfxtab.toNat
  (List.range 16).map fun j => ⟨false, page12 t + 32 * ((h + j) % 2 ^ (t % 32)), 32, { rd := true, wr := write }⟩

/-- The node and record of a TEMIT (R223): its source, the control block, and the slot that it reserves. -/
def State.emitRanges (s : State) (c : Cur) (f : FmtE) : List ERange :=
  match s.tasks.find? fun t => t.2.ctx = c.team.ctx && t.2.addr = (c.rdPair f.s0.toNat).toNat && t.2.graph with
  | none => []
  | some (_, t) =>
    let glb := f.flg.getLsbD 3
    let src := if glb then (c.rdPair f.s1.toNat).toNat else (c.rdS f.s1.toNat).toNat
    [.rd (!glb) src t.rsz, .wr false t.qbase 64, .wr false (t.recAddr (s.nodeGet c.team.die t 0)) t.rsz]

/-- What a QPULL touches (R223): its local item area, the descriptor and the slot at HEAD. -/
def State.pullFoot (s : State) (c : Cur) (f : FmtE) : List Foot :=
  match (s.queueAt c.team.die c.team.ctx f.qb.toNat).bind fun a => s.readDesc c.team.die c.team.ctx a with
  | some d => s.feet c.team [.wr true (c.rdS f.s1.toNat).toNat d.isz] ++ s.queueFoot c.team d false d.head
  | none => []

/-- The placement table of a PLCQ (R223, R277): its header, and the entry of block `j`. -/
def State.placementRanges (s : State) (c : Cur) (handle : Nat) (j : Option Nat) : List ERange :=
  match (do s.openStrand c.senv (← s.area c.senv) handle : Except STrap Hdr) with
  | .ok h => .rd false h.plt 256 :: (match j with | some j => [.rd false (h.plt + 0x100 + 8 * j) 8] | none => [])
  | .error _ => []

/-- The header whose REFS word a PFXFIND with REF raises (R223, R418). -/
def State.foundRange (s : State) (c : Cur) (f : FmtE) : List ERange :=
  match s.pfxfind c.senv (c.rdPair f.s1.toNat).toNat (c.rdS f.s2.toNat).toNat false with
  | .ok r => if f.flg.getLsbD 0 && r.2 ≠ 0 then s.headerRange c r.2 true else []
  | .error _ => []

/-- The control block of the context's strands (R223, R249). -/
def State.controlRange (s : State) (c : Cur) : List ERange :=
  match s.area c.senv with
  | .ok a => [.wr false a.base 64]
  | .error _ => []

/-- The strand of a BGATH or KST, to know the bytes of its query or source. -/
def State.strandOf (s : State) (c : Cur) (handle : Nat) : Option Hdr :=
  match (do s.openStrand c.senv (← s.area c.senv) handle : Except STrap Hdr) with
  | .ok h => some h
  | .error _ => none

/-- A number at a global address, as far as it is known here: what has come of a peer's page (R180), else zero. -/
def State.seenNat (s : State) (c : Cur) (va n : Nat) : Nat :=
  match s.translate c.team.die c.team.ctx (BitVec.ofNat 64 va) { rd := true } with
  | .ok (.peer pkg off) _ => ((s.askedBytes (some c.ref.team) pkg off n).map natOfBytes).getD 0
  | _ => (s.vNat c.team.die c.team.ctx va n).getD 0

/-- The words of a program up to its first EPEND, 64 at most (R223, R240). -/
def State.programWords (s : State) (c : Cur) (a : Nat) : Nat :=
  match (List.range 64).find? fun i => decodeEp (BitVec.ofNat 32 (s.seenNat c (a + 4 * i) 4)) = some .epend with
  | some i => i + 1
  | none => 64

/-- A loop-nest table at `a` and the stream-base words of an argument block that it names (R223, R245). -/
def State.nestRanges (s : State) (c : Cur) (a args : Nat) : List ERange :=
  let n := s.seenNat c a 4 / 4 % 4 + 1
  .rd false a (64 + 64 * n) ::
    (List.range n).map fun i => .rd false (args + s.seenNat c (a + 64 + 64 * i) 4) 8

/-- The ranges that an instruction declares and touches at its issue (R223). -/
def State.declared (s : State) (c : Cur) (i : Instr) : List ERange :=
  let rd (r : BitVec 8) : Nat := (c.rdS r.toNat).toNat
  let pr (r : BitVec 8) : Nat := (c.rdPair r.toNat).toNat
  match i with
  | .cpy f => if f.flg.getLsbD 3 then [.rd true (rd f.s1) (8 * rd f.s2)] else []
  | .rag f | .rrs f | .rhnd f => [.rd false (pr f.s0) 128]
  | .rpost f | .rpostGet f => [.rd false (pr f.s0) 32]
  | .mdrain _ => [.rd false c.group.regs.epconst.toNat 1024]
  | .epload _ =>
    match mget? s.tasks c.team.task with
    | some k =>
      let a := k.kimg + k.constOff + 4 * (c.group.regs.epprog.toNat / 4 % 2 ^ 18)
      [.rd false a (4 * s.programWords c a)]
    | none => []
  | .lnstart f =>
    match mget? s.tasks c.team.task with
    | some k => s.nestRanges c (k.kimg + k.constOff + rd f.s0) k.args.toNat
    | none => []
  | .tasknew f => [.wr false (pr f.s1) 128]
  | .taskdec f => [.wr false (pr f.s0 + 0x28) 4]
  | .temit f => s.emitRanges c f
  | .arrv f => [.wr false (pr f.s1) 4]
  | .snew f =>
    .wr false (pr f.s2) (4 * 2 ^ (rd f.s1 / 2 ^ 12 % 16)) :: s.controlRange c ++
      match s.area c.senv with
      | .ok a => [.wr false (a.base + 256 * ((s.vNat c.team.die c.team.ctx (a.base + 0x10) 4).getD 0)) 128]
      | .error _ => []
  | .sfork f =>
    s.headerRange c (rd f.s1) true ++
      (match s.strandOf c (rd f.s1) with | some h => [.wr false (pr f.s3) (4 * 2 ^ h.bits)] | none => []) ++
      s.controlRange c ++
      match s.area c.senv with
      | .ok a => [.wr false (a.base + 256 * ((s.vNat c.team.die c.team.ctx (a.base + 0x10) 4).getD 0)) 128]
      | .error _ => []
  | .sres f => s.headerRange c (rd f.s1) true
  | .scommit f => s.headerRange c (rd f.s0) true
  | .srel f => s.headerRange c (rd f.s0) true ++ s.controlRange c
  | .slen f | .sseek f => s.headerRange c (rd f.s1) false
  | .plcq f => s.headerRange c (rd f.s1) false ++ s.placementRanges c (rd f.s1) (some (rd f.s2))
  | .plcqShort f => s.headerRange c (rd f.s1) false ++ s.placementRanges c (rd f.s1) none
  | .kst f =>
    s.headerRange c (rd f.s0) true ++
      [.rd (!f.flg.getLsbD 0) (c.addrOf (!f.flg.getLsbD 0) f.s2) (((s.strandOf c (rd f.s0)).map (·.slotBytes)).getD 128)]
  | .bgath f =>
    s.headerRange c (rd f.s1) false ++ [.rd true (rd f.s2) (((s.strandOf c (rd f.s1)).map (2 * ·.dim)).getD 128),
      .wr true (rd f.s3) (16 * ((s.ctx c.team.ctx).densef.toNat / 256 % 65536))]
  | .pfxfind f => s.probeRanges c (pr f.s1) false ++ s.foundRange c f
  | .pfxins f => s.probeRanges c (pr f.s1) true ++ s.headerRange c (rd f.s3) true
  | .hashb f => [.rd (f.flg.getLsbD 0) (c.addrOf (f.flg.getLsbD 0) f.s1) 64]
  | _ => []

/-- The handle of the strand that an operation of strand order names (R258). -/
def Cur.strandNamed (c : Cur) (i : Instr) : Option Nat :=
  let rd (r : BitVec 8) : Nat := (c.rdS r.toNat).toNat
  match i with
  | .sres f | .sfork f | .slen f | .sseek f | .bgath f => some (rd f.s1)
  | .kst f | .scommit f | .srel f => some (rd f.s0)
  | .pfxins f => some (rd f.s3)
  | _ => none

/-- The footprint that an instruction declares and touches at its issue (R223), the header of its strand marked as such (R258). -/
def State.declares (s : State) (c : Cur) (i : Instr) : List Foot :=
  s.feet c.team (s.declared c i) ++
  (match c.strandNamed i with
    | some h => (s.feet c.team (s.headerRange c h false)).map fun f => { f with strand := true }
    | none => []) ++
  match i with
  | .flpop _ => s.stackFoot c c.team.die true
  | .flpush f => s.stackFoot c ((c.rdS f.s0.toNat).toNat / 2 ^ 20) false
  | .qpull f => s.pullFoot c f
  | _ => []

/-- An earlier command of the team that is not complete is in the way of what an instruction touches at its issue (R222). -/
def State.footHolds (s : State) (c : Cur) (i : Instr) : Bool :=
  match i.com? with
  | none => false
  | some k => (i.cls == 4 || i.cls == 2) && c.acts k && !c.team.cmds.isEmpty && !c.team.clear s.nextId (s.declares c i)

end Sys2Proof.Machine
end

