-- ==== Sys2Proof/Machine/Deferred.lean ====
section
/-! DEFINITION. Engine commands whose instruction runs again apart from its split: those that wait in the tracker while their split
goes on (R221, R222), and those that pre-emption saved before they had begun (R323). -/
namespace Sys2Proof.Machine

/-- The engine commands that a footprint or a saved team can delay, run by their meanings. -/
def runCommand (i : Instr) (s : State) : Out :=
  match i with
  | .cpy f => execCpy f s
  | .cpyt f => execCpyt f s
  | .bufcfg f => execBufcfg f s
  | .lnstart f => execLnstart f s
  | .epload f => execEpload f s
  | .mdrain f => execMdrain f s
  | .qpush f => execQpush f s
  | .qpushClose f => execQpushClose f s
  | .rag f => execRag f s
  | .rrs f => execRrs f s
  | .rhnd f => execRhnd f s
  | .projld f => execProjld f s
  | .projldFree f => execProjldFree f s
  | .tasknew f => execTasknew f s
  | .taskdec f => execTaskdec f s
  | .arrv f => execArrv f s
  | .scommit f => execScommit f s
  | .slen f => execSlen f s
  | .srel f => execSrel f s
  | .sseek f => execSseek f s
  | .flpop f => execFlpop f s
  | .flpush f => execFlpush f s
  | .pfxfind f => execPfxfind f s
  | .pfxins f => execPfxins f s
  | .hashb f => execHashb f s
  | .plcq f => execPlcq f s
  | .plcqShort f => execPlcqShort f s
  | .kst f => execKst f s
  | .snew f => execSnew f s
  | .sfork f => execSfork f s
  | .sres f => execSres f s
  | .temit f => execTemit f s
  | .qpull f => execQpull f s
  | .bgath f => execBgath f s
  | _ => .next s

/-- The commands that may make their effect after their issue (R221, R222). A copy, drain, ring command and the like have parts of
their own for this; the windlass, EPLOAD and MDRAIN read at their issue what they need (R239, R240, R246). -/
def mayWait : Instr → Bool
  | .tasknew _ | .taskdec _ | .arrv _ | .scommit _ | .slen _ | .srel _ | .sseek _ | .flpop _ | .flpush _ | .pfxfind _ | .pfxins _
  | .hashb _ | .plcq _ | .plcqShort _ | .kst _ | .snew _ | .sfork _ | .sres _ | .temit _ | .qpull _ | .bgath _ => true
  | _ => false

/-- An instruction with a guard that every lane passes. -/
def unguarded : Instr → Instr
  | .cpy f => .cpy (free f)
  | .cpyt f => .cpyt (free f)
  | .bufcfg f => .bufcfg (free f)
  | .lnstart f => .lnstart (free f)
  | .epload f => .epload (free f)
  | .mdrain f => .mdrain (free f)
  | .qpush f => .qpush (free f)
  | .qpushClose f => .qpushClose (free f)
  | .rag f => .rag (free f)
  | .rrs f => .rrs (free f)
  | .rhnd f => .rhnd (free f)
  | .projld f => .projld (free f)
  | .projldFree f => .projldFree (free f)
  | i => i
where
  /-- The fields with the guard p7. -/
  free (f : FmtE) : FmtE := { f with com := { f.com with pg := 7, pn := false } }

/-- A command run for a split: the state after it, its team, and the command that it posted under a new name, if it did. -/
def State.ran (s : State) (r : Ref) (i : Instr) : State × Option (Team × Nat × Cmd) :=
  match runCommand i { s with turn := .split r } with
  | .next u => ({ u with turn := s.turn }, (mget? u.teams r.team).bind fun t =>
      (t.cmds.find? fun q => s.nextId ≤ q.1).map fun q => (t, q))
  | _ => (s, none)

/-- What a command wrote to its destination when it ran on group `u`, written to group `g` (R125, R321). -/
def Group.landed (g u : Group) (split : Nat) (i : Instr) (m : Lanes) : Group :=
  let s₀ := g.s
  let g := (destRegs i .s).foldl (fun g n => g.wrS n (mget 0 u.s n)) g
  let g := (destRegs i .p).foldl (fun g n => g.wrP n m (mget 0 u.p n)) g
  g.scalarsWritten s₀ split (destRegs i .s)

/-- The state in which a waiting command of a team runs: with its context's registers and its pages' leaves from its issue (R184,
R413). -/
def State.withHeld (s : State) (t : Team) (h : Held) : State :=
  (s.modCtx t.ctx fun y => { y with strandtab := h.strandtab, pfxtab := h.pfxtab, densef := h.densef }).modDie t.die fun d =>
    { d with tlb := h.pages.foldl (fun m e => tlbPut m t.ctx (65536 * e.1) e.2) d.tlb }

/-- The context's registers and the die's TLB as `s` has them (R184, R413). -/
def State.withoutHeld (u s : State) (t : Team) : State :=
  let y := s.ctx t.ctx
  (u.modCtx t.ctx fun x => { x with strandtab := y.strandtab, pfxtab := y.pfxtab, densef := y.densef }).modDie t.die fun d =>
    { d with tlb := (s.die t.die).tlb }

/-- What a command has from its issue (R184, R413): its group, the leaves of the pages that it translates, its context's registers. -/
def State.heldFor (s : State) (t : Team) (g : Group) (vps : List Nat) : Held :=
  let y := s.ctx t.ctx
  ⟨g, vps.foldl (fun m p => match s.walk t.die t.ctx (65536 * p) with | .leaf e => mput m p e | _ => m) [], y.strandtab, y.pfxtab, y.densef⟩

/-- The group of a command that ran on group `x`, its split's trap taken over to the group `g` as it stands (R183, R310, R318): the
split goes back to the entry record, and its lanes lose their reservations and latches. -/
def Group.takeTrap (g x : Group) (split : Nat) : Group :=
  match mget? g.splits split, mget? x.splits split with
  | some now, some p =>
    let m := now.allLanes ||| p.allLanes
    let p := { p with ctrs := now.ctrs, pend := (now.closeWindows).pend, arr := now.arr, held := now.held, batch := now.batch, after := now.after
                      foreign := now.foreign, age := now.age, hold := now.hold }
    { g.dropLatches m with
      regs := { g.regs with trapinfo := (x.regs.trapinfo &&& 0x7FFFFFFFFFFFFFFF) ||| (g.regs.trapinfo &&& 0x8000000000000000) }
      splits := mput g.splits split p, resv := g.resv.filter fun q => !m.getLsbD q.1 }
  | _, _ => g

/-- A command that waited takes effect, on what its split gave it at issue; one that a page fault stands against goes on waiting
(log 77). SRES's FLEMPTY takes its split back to the region, which has not gone on (R257), and BGATH's DENSE is delivered to it. -/
def State.performLater (s : State) (tid id : Nat) : State :=
  match (mget? s.teams tid).bind fun t => (mget? t.cmds id).map fun k => (t, k) with
  | some (t, { kind := .later was, group := gi, cause := some (i, p), .. }) =>
    match mget? t.groups gi, mget? t.cmds id with
    | some g, some k =>
      let r : Ref := ⟨tid, gi, k.split⟩
      let s₁ := (s.withHeld t was).modGroup tid gi fun _ => { was.g with splits := mput was.g.splits k.split p }
      match i, s₁.lookup? r with
      | .bgath f, some c =>
        match s₁.bgathRun c f with
        | .error u => u.withoutHeld s t
        | .ok (u, h, n, dense) =>
          let g' := (g.wrS f.s0.toNat (BitVec.ofNat 32 n)).scalarsWritten g.s k.split [f.s0.toNat]
          let u := (u.withoutHeld s t).modTeam tid fun t' => { t' with
            groups := mput t'.groups gi g', cmds := mput t'.cmds id { k with kind := .signed h.pset, begun := true } }
          if !dense then u else
          match u.lookup? r with
          | some d => (u.put { d with split := { d.split with pc := p.pc } }).userTrap r .dense (BitVec.ofNat 32 n) d.split.pc
          | none => u
      | _, some c =>
        let m := (i.com?.map c.pass).getD 0
        match s₁.ran r i with
        | (u, some (t', n, q)) =>
          let u := u.withoutHeld s t
          let g' := match mget? t'.groups gi with | some x => g.landed x k.split i m | none => g
          let (g', q) := match q.kind with
            | .qpull _ _ _ => ({ g with splits := mmod g.splits k.split fun p => { p with park := .qpull id, parked := 0 } },
                { q with cause := k.cause, vpns := k.vpns })
            | x => (g', { k with kind := x, begun := true, foot := k.foot ++ q.foot ++ (match x with
                | .temit _ _ _ => s₁.declares c i
                | _ => []) })
          ({ u with teams := mput u.teams tid { t' with groups := mput t'.groups gi g', cmds := mput (mdel t'.cmds n) id q } } : State).recallAll q.touched
        | (u, none) =>
          if (u.ctx t.ctx).ended.isSome then u.withoutHeld s t else
          match i, (mget? u.teams tid).bind fun t' => mget? t'.groups gi with
          | .sres _, some x | .qpull _, some x =>
            (u.withoutHeld s t).modTeam tid fun t' => ({ t' with groups := mput t'.groups gi (g.takeTrap x k.split) } : Team).cmdDone id
          | _, _ => s
      | _, none => s
    | _, _ => s
  | _ => s

/-- What a waiting command must have from peers before its effect is made (R180): the bytes that a KST or HASHB reads, or an ARRV's
arrival made there (R340). -/
def State.laterAsks (s : State) (tid id : Nat) (t : Team) (k : Cmd) : Option State :=
  match k.kind, k.cause with
  | .later was, some (i, p) =>
    let ps (w : Bool) : List (Place × Nat) := (k.foot.filter fun f => f.write = w).map fun f => (f.place, f.len)
    match i with
    | .kst _ | .hashb _ => s.needPeers (.cmd id) (some tid) t.ctx (ps false)
    | .arrv f =>
      let c : Cur := ⟨⟨tid, k.group, k.split⟩, t, was.g, p⟩
      s.needPeers (.cmd id) (some tid) t.ctx (ps true) (some (bytesOfNat 4 (c.rdS f.s2.toNat).toNat))
    | _ => none
  | _, _ => none

/-- ENGINE_COMMAND_START (R222): a command that no earlier one holds back begins; what it needs of peers' pages comes first (R180). -/
def execEngineCommandStart (team cmd : Nat) (s : State) : Out :=
  .next (match mget? s.teams team with
    | none => s
    | some t =>
      if t.status = .saved then s else
      match mget? t.cmds cmd with
      | some k@{ kind := .later _, foot := foot, .. } =>
        if t.status = .resident && t.clear cmd foot then match s.laterAsks team cmd t k with
          | some s => s.modTeam team fun t => { t with cmds := mmod t.cmds cmd fun k => { k with begun := true } }
          | none => (s.performLater team cmd).settle team
        else s
      | _ => s.modTeam team fun t => t.startCopy cmd)

/-! ### Reissue -/

/-- A saved command that has not begun, which restoration issues again (R323): not a wait, whose split stands parked in it, nor a
request of a connection, which goes on detached. -/
def Team.reissues (t : Team) (id : Nat) (k : Cmd) : Bool :=
  match k.kind with
  | .copy _ => !k.begun && !k.taken && k.cause.isSome
  | .ring _ => !k.begun
  | .drain => t.ep.waits id && !k.begun && !k.taken
  | .epload | .bufcfg _ _ | .qpush _ _ _ | .qclose _ _ | .projld _ _ _ | .later _ => true
  | .lnstart => t.runs.any fun r => r.id = id && r.cur.isNone && r.idx = some (r.bounds.map fun _ => 0) && !t.runCopies id
  | _ => false

/-- The team in which a saved command's instruction runs again: without the command, its split with the lanes that issued it, and
the program of an MDRAIN in the team's place; an EPLOAD that seems to wait keeps the processor's work in the team. -/
def State.reissueTeam (s : State) (t : Team) (id : Nat) (k : Cmd) (p : Split) (g : Group) : Team :=
  let drain := t.ep.wait.findSome? fun w => match w.1 with | .drain d => if d.id = id then some d else none | .load _ _ => none
  let kimg := ((mget? s.tasks t.task).map (·.kimg)).getD 0
  let ep : EpTeam := match drain with
    | some _ => { name := some ⟨t.ctx, kimg, g.regs.epprog.toNat / 4 % 2 ^ 18⟩, code := t.ep.code, wait := [(.load id 0, some ⟨0, 0, 0⟩)] }
    | none => { wait := [(.load id 0, some ⟨0, 0, 0⟩)] }
  let mask := match drain with
    | some d => d.octets.foldl (fun m o => m ||| octetLanes o) 0
    | none => p.mask
  { t with
    cmds := mdel t.cmds id, runs := t.runs.filter fun r => r.id ≠ id, ep := ep
    issues := match k.kind with | .ring r => mput t.issues r.desc r.count | _ => t.issues
    groups := mput t.groups k.group { g with splits := mput g.splits k.split { p with mask := mask, pend := [], stale := [], seen := [], batch := [] } } }

/-- A saved command issued again (R323): its operands, translations, program and tables read from the restored state, under its own
number. One whose translation fails stays as it was issued. -/
def State.reissue (s : State) (tid id : Nat) : State :=
  let s := s.unask fun a => a.who = .cmd id
  match (mget? s.teams tid).bind fun t => (mget? t.cmds id).map fun k => (t, k) with
  | none => s
  | some (t, k) =>
    match mget? t.groups k.group, k.cause with
    | some g, some (i, p) =>
      match k.kind with
      | .later was => s.modTeam tid fun t => { t with cmds := mput t.cmds id { k with
          kind := .later (s.heldFor t { was.g with s := g.s, regs := g.regs } k.vpns)
          cause := some (i, { p with pend := [], stale := [], seen := [] }) } }
      | _ =>
        match ({ s with teams := mput s.teams tid (s.reissueTeam t id k p g) } : State).ran ⟨tid, k.group, k.split⟩ (unguarded i) with
        | (u, none) => if (u.ctx t.ctx).ended.isSome then u else s
        | (u, some (t', n, q)) =>
          let item : Option (EpItem × Option EpName) := t'.ep.wait.getLast?.map fun w => match w.1 with
            | .load _ x => (.load id x, w.2)
            | .drain d => (.drain { d with id := id }, w.2)
          let isMine (w : EpItem × Option EpName) : Bool := match w.1 with | .load x _ => x = id | .drain d => d.id = id
          let ep : EpTeam := { t.ep with wait := t.ep.wait.map fun w => if isMine w then item.getD w else w }
          let ep := match k.kind with
            | .epload => { ep with name := t'.ep.name, code := t'.ep.code, words := mput ep.words id t'.ep.code }
            | _ => ep
          let runs := t.runs.map fun r => if r.id = id then
              match t'.runs.find? fun x => x.id = n with | some x => { x with id := id, started := false } | none => r
            else r
          { u with teams := mput u.teams tid { t' with
            groups := t.groups, issues := t.issues, ep := ep, runs := runs
            cmds := mput (mdel t'.cmds n) id { q with cause := k.cause } } }
    | _, _ => s

/-- Every saved command of a team that has not begun, issued again in order (R323). -/
def State.reissueAll (s : State) (tid : Nat) : State :=
  match mget? s.teams tid with
  | none => s
  | some t => (t.cmds.filter fun k => t.reissues k.1 k.2).foldl (fun s k => s.reissue tid k.1) s

end Sys2Proof.Machine
end

