-- ==== Sys2Proof/Machine/Preempt.lean ====
section
/-! DEFINITION. Pre-emption of a team (R322, R323) and its restoration (R324, R43), room on a core (R84, R185, R240), and the
registers that a restored group holds (R141, R322). -/
namespace Sys2Proof.Machine

/-! ### Room -/

/-- What a team needs of a core (R84, R240). -/
structure Fit where
  ctx    : Nat
  kimg   : Nat
  bytes  : Nat
  bars   : Nat
  groups : List (Nat × Nat)
  ep     : Option EpName := none
deriving DecidableEq, Repr

/-- Teams that occupy a core. -/
def State.teamsOn (s : State) (core : Nat) : List (Nat × Team) :=
  s.teams.filter fun t => t.2.coreKey = core && t.2.status ≠ .saved

/-- Groups that occupy a core's slots (R41). -/
def State.occOn (s : State) (core : Nat) : List Occ :=
  (s.teamsOn core).flatMap fun t => t.2.groups.map fun g => ⟨g.2.slot, g.2.base, g.2.width, g.2.budget⟩

/-- Bytes of the array that a team takes (R84, R185). -/
def arrBytes (n : Nat) : Nat := (n + 4095) / 4096 * 4096
/-- The alignment of an allocation (R185); at least 4 KiB (R85). -/
def arrAlign (n : Nat) : Nat := max 4096 (min 65536 (((List.range 20).find? fun i => n ≤ 2 ^ i).map (2 ^ ·) |>.getD 65536))

/-- An allocation may stand at `base` (R84, R85, R185). -/
def State.arrFree (s : State) (core base n : Nat) : Bool :=
  let n := arrBytes n
  base % arrAlign n = 0 && base + n ≤ Config.localBytes &&
  (s.teamsOn core).all fun t => base + n ≤ t.2.base || t.2.base + arrBytes t.2.bytes ≤ base || n = 0

/-- The kernel image of a team's task. -/
def State.kimgOf (s : State) (t : Team) : Nat := ((mget? s.tasks t.task).map (·.kimg)).getD 0

/-- A dictionary place that the kernel of a team can have (R84). -/
def State.dictRoom (s : State) (core ctx kimg : Nat) : Bool :=
  let ds := (s.core core).dicts
  let held := (s.teamsOn core).map fun t => (t.2.ctx, s.kimgOf t.2)
  ds.length < 4 || ds.any fun d => (d.1 = ctx && d.2.1 = kimg) || !held.contains (d.1, d.2.1)

/-- A core has room apart from slots and array (R84, R240). -/
def State.roomMisc (s : State) (core : Nat) (f : Fit) : Bool :=
  !(s.core core).removed && ((s.teamsOn core).map fun t => t.2.bars.length).foldl (· + ·) f.bars ≤ 64 &&
  s.dictRoom core f.ctx f.kimg &&
  match f.ep with
  | none => true
  | some n => (s.core core).freePlace.isSome || (s.core core).places.any fun p => p.2.name = n

/-- Groups take given places one after another (R36, R41). -/
def fitAll : List (Nat × Nat) → List (Nat × Nat) → List Occ → Bool
  | [], [], _ => true
  | g :: gs, p :: ps, os => let o : Occ := ⟨p.1, p.2, g.1, g.2⟩; o.fits os && fitAll gs ps (o :: os)
  | _, _, _ => false

/-- A core has room for a team at given places (R84). -/
def State.roomAt (s : State) (core : Nat) (f : Fit) (slots : List (Nat × Nat)) (base : Nat) : Bool :=
  s.roomMisc core f && s.arrFree core base f.bytes && fitAll f.groups slots (s.occOn core)

/-- A core has room for a team somewhere (R84, R185). -/
def State.roomAny (s : State) (core : Nat) (f : Fit) : Bool :=
  s.roomMisc core f && ((List.range 128).any fun i => s.arrFree core (4096 * i) f.bytes) && canPack f.groups (s.occOn core)

/-- What a new team of a task needs. -/
def Task.fit (k : Task) : Fit :=
  { ctx := k.ctx, kimg := k.kimg, bytes := k.local_, bars := k.nbars, groups := (groupsOf k.shape).map fun g => (g.2.2.1, g.2.2.2) }
/-- What a saved team needs. -/
def State.teamFit (s : State) (t : Team) : Fit :=
  { ctx := t.ctx, kimg := s.kimgOf t, bytes := t.bytes, bars := t.bars.length, groups := t.groups.map fun g => (g.2.width, g.2.budget)
    ep := t.ep.back }

/-- The cores of a die. -/
def dieCores (die : Nat) : List Nat := (List.range Config.cores).map fun c => coreKey die c

/-- The kernel's dictionary made resident (R84, R123): read from the image, in place of one that no resident team uses. One that
cannot be read ends the context. R123 does not say whether a dictionary that still stands on the core from teams that have left is
loaded again for the next team of its context and image: DESIGN CHOICE, the copy there is kept (log 70). -/
def State.loadDict (s : State) (die core ctx : Nat) (k : Task) : State :=
  if (s.core core).dicts.any fun d => d.1 = ctx && d.2.1 = k.kimg then s else
  match s.vRead die ctx (k.kimg + k.dictOff) (8 * k.dictCnt) with
  | none => s.selfEnd ctx die (k.kimg + k.dictOff)
  | some b =>
    let d := (ctx, k.kimg, (List.range k.dictCnt).map fun i => BitVec.ofNat 64 (le b (8 * i) 8))
    let held := (s.teamsOn core).map fun t => (t.2.ctx, s.kimgOf t.2)
    (s.recallSpan die ctx (k.kimg + k.dictOff) (8 * k.dictCnt) { rd := true }).modCore core fun c =>
      if c.dicts.length < 4 then { c with dicts := c.dicts ++ [d] }
      else { c with dicts := (match c.dicts.find? fun e => !held.contains (e.1, e.2.1) with
        | some e => c.dicts.erase e ++ [d]
        | none => c.dicts) }

/-! ### Pre-emption -/

/-- A command that pre-emption saves rather than waits for (R322, R323). -/
def Team.savable (t : Team) (id : Nat) (k : Cmd) : Bool :=
  match k.kind with
  | .effected | .signed _ | .temit _ _ _ | .rrank _ | .item _ _ _ | .sent _ => false
  | .later _ => !k.begun
  | .copy _ => !k.begun && !k.taken
  | .drain => t.ep.waits id || (!k.begun && !k.taken)
  | .epload => t.ep.wait.any fun w => match w.1 with | .load i _ => i = id | .drain _ => false
  | _ => true

/-- Every group stands at a clause boundary or before a command that has not begun, every pending write has landed, and every begun command is complete (R322 steps 1
and 2). A pending write of a parked wait lands after restoration. -/
def State.canSave (s : State) (tid : Nat) : Bool :=
  match mget? s.teams tid with
  | none => false
  | some t =>
    t.status = .resident && t.mops.isEmpty && t.cmds.all (fun k => t.savable k.1 k.2) &&
    (s.core t.coreKey).mq.all (fun q => q.2.all fun o => o.team ≠ tid) &&
    t.groups.all fun g => g.2.splits.all fun p => (!p.2.opn || p.2.waits || p.2.stalls) && p.2.pend.all fun q => q.landed || (mget? t.cmds q.id).isSome

/-- The vector registers that a split's resumption needs (R322): none means every one below the budget. -/
def State.liveOf (s : State) (t : Team) (g : Group) (p : Split) : Option (List Nat) :=
  if p.waits then none else
  match p.park with
  | .exit => some []
  | .bar _ _ | .qpull _ | .rwait _ | .bufwait _ | .waitb _ | .merge _ => none
  | _ =>
    match s.fetchWord t.die t.ctx p.pc, mget? s.tasks t.task with
    | some h, some k =>
      let ridx := if headerRe h then hdrRidx h else p.ridx
      let at_ := k.kimg + 0x80 + 8 * k.dictCnt + 48 * ridx + 16
      (s.vRead t.die t.ctx at_ 32).map fun b => (List.range g.budget).filter fun n => (natOfBytes b).testBit n
    | _, _ => none

/-- A register that no resumption needs reads, in the region that a split then restarts or enters, as a value that the context held
in it (R141; log 73): the present one, the zero of the launch, or one that it is known to have held, freely. Past that region it
reads as it stood. -/
def State.forget (s : State) (tid gi : Nat) : State :=
  match (mget? s.teams tid).bind fun t => (mget? t.groups gi).map fun g => (t, g) with
  | none => s
  | some (t, g) =>
    let lives := g.splits.map fun p => s.liveOf t g p.2
    if lives.contains none then s else
    let keep := lives.flatMap fun l => l.getD []
    let draw (a : State × SMap Word) (key : Nat) (w : Word) : State × SMap Word :=
      if keep.contains (key % 256) then a else
      let q := a.1.among w (w :: 0 :: mget [] g.pastV key)
      (q.1, if q.2 = w then a.2 else mput a.2 key q.2)
    let r := g.v.foldl (fun a e => draw a e.1 e.2) (s, [])
    let r := g.pastV.foldl (fun a e => if (mget? g.v e.1).isSome then a else draw a e.1 0) r
    r.1.modGroup tid gi fun g => { g with splits := mmap g.splits fun p =>
      { p with lost := r.2.filter fun e => p.allLanes.getLsbD (e.1 / 256) } }

/-- Bytes of a team's save frame (R324). -/
def Team.frameBytes (t : Team) : Nat :=
  16384 + arrBytes t.bytes + (t.groups.map fun g => 4 * g.2.width * g.2.budget).sum

/-- Where the save frame of a team goes in its context's save area: after frames that stand there, in the first gap (R324; log 71). -/
def State.framePlace (s : State) (t : Team) : Nat :=
  let area := (s.ctx t.ctx).saveArea.toNat
  let held := s.teams.filterMap fun u => if u.2.ctx = t.ctx then u.2.frame.map fun f => (f.1, f.2.length) else none
  let free (a : Nat) : Bool := held.all fun f => a + t.frameBytes ≤ f.1 || f.1 + f.2 ≤ a
  ((area :: held.map fun f => f.1 + f.2).filter free).foldl (fun a b => if a = 0 then b else min a b) 0

/-- The save frame of a team written (R322, R324): its contents are the part's own, so that software would read free bytes there. -/
def State.writeFrame (s : State) (tid : Nat) : State :=
  match mget? s.teams tid with
  | none => s
  | some t =>
    if (s.ctx t.ctx).saveArea = 0 then s else
    let a := s.framePlace t
    let r := s.freeBytes t.frameBytes
    match r.1.vWrite t.die t.ctx a r.2 with
    | some s => s.modTeam tid fun t => { t with frame := some (a, r.2) }
    | none => s

/-- A team pre-empted (R322). -/
def State.preempt (s : State) (tid : Nat) (after : Option Nat) : State :=
  match mget? s.teams tid with
  | none => s
  | some t =>
    let s := (s.raiseTeam tid).unask fun a => a.team = some tid && match a.who with | .split _ _ => true | _ => false
    let s := t.groups.foldl (fun s g => g.2.splits.foldl (fun s p => s.discard ⟨tid, g.1, p.1⟩ true) s) s
    let s := t.groups.foldl (fun s g => s.modGroup tid g.1 fun g => { g with resv := [] }) s
    let s := t.groups.foldl (fun s g => s.forget tid g.1) s
    let s := t.wins.foldl (fun s w => w.2.lines.foldl (fun s l => s.stashRecall tid w.1 l.1) s) s
    let s := s.writeFrame tid
    let k := s.core t.coreKey
    let mine := (k.epq.filter fun i => i.isOf tid).map fun i => (i, none)
    let back := (k.placeOf tid).map (·.2.name)
    let bytes := s.arrRead t 0 t.bytes
    let s := s.modCore t.coreKey fun k => { (k.leave tid) with epq := k.epq.filter fun i => !i.isOf tid }
    s.modTeam tid fun t => { t with
      status := .saved, after := after, saved := bytes, ep := { t.ep with wait := mine ++ t.ep.wait, back := back }
      runs := t.runs.map fun r => { r with started := false } }

/-! ### Restoration -/

/-- A range of the array handed to a team (R85): a page that another context held last is zeroed; in a page of the same context
each byte keeps its value, reads zero or holds a value that the context is known to have had there, freely. -/
def State.scrub (s : State) (core ctx base n : Nat) : State :=
  let c := s.core core
  let inside (a : Nat) : Bool := base ≤ a && a < base + n
  let own (a : Nat) : Bool := mget? c.holder (a / 4096) = some ctx
  let may (a : Nat) (b : Byte) : List Byte := b :: 0 :: mget [] c.past a
  let r := c.arr.foldl (fun (z : State × Memory) e =>
    if !inside e.1 then (z.1, z.2 ++ [e])
    else if !own e.1 then z
    else let q := z.1.among e.2 (may e.1 e.2); (q.1, if q.2 = 0 then z.2 else z.2 ++ [(e.1, q.2)])) (s, [])
  let r := c.past.foldl (fun (z : State × Memory) e =>
    if inside e.1 && own e.1 && (mget? c.arr e.1).isNone then
      let q := z.1.among 0 (may e.1 0); (q.1, wrByte z.2 e.1 q.2)
    else z) r
  r.1.modCore core fun c => { c with
    arr := r.2, past := c.past.filter fun e => !inside e.1 || own e.1, holder := (List.range (n / 4096)).foldl (fun m i => mput m (base / 4096 + i) ctx) c.holder }

/-- The words of a program as they stand in memory, up to the first EPEND, 64 at most (R240). -/
def State.programAt (s : State) (die ctx a : Nat) : Nat → Option (List Word)
  | 0 => some []
  | n + 1 =>
    match s.vNat die ctx a 4 with
    | none => none
    | some v =>
      let w : Word := BitVec.ofNat 32 v
      if decodeEp w = some .epend then some [w] else (s.programAt die ctx (a + 4) n).map fun l => w :: l

/-- A restored team takes a place for the program that it held (R240, R324): one that teams hold for the same program, or a free one,
into which the program is loaded again without a check. Words that cannot be read end the context (R77). -/
def State.rejoin (s : State) (tid core : Nat) (n : EpName) : State :=
  match mget? s.teams tid, mget? s.tasks (((mget? s.teams tid).map (·.task)).getD 0) with
  | some t, some k =>
    let a := n.kimg + k.constOff + 4 * n.off
    let join (i : Nat) (code : List Word) : State :=
      (s.modCore core fun c => c.takePlace tid i n code).modTeam tid fun t => { t with ep := { t.ep with name := some n, code := code } }
    match (s.core core).places.find? fun q => q.2.name = n with
    | some (i, p) => join i p.code
    | none => match (s.core core).freePlace, s.programAt t.die t.ctx a 64 with
      | some i, some code => join i code
      | some _, none => s.selfEnd t.ctx t.die a
      | none, _ => s
  | _, _ => s

/-- The registers and local bytes of a team whose save frame software has written (R324): any values, in the team alone. -/
def State.spoil (s : State) (tid : Nat) : State :=
  match mget? s.teams tid with
  | none => s
  | some t =>
    let word (s : State) : State × Word := let r := s.freeBytes 4; (r.1, BitVec.ofNat 32 (natOfBytes r.2))
    let words (s : State) (m : SMap Word) : State × SMap Word :=
      m.foldl (fun z e => let r := word z.1; (r.1, if r.2 = 0 then z.2 else z.2 ++ [(e.1, r.2)])) (s, [])
    let s := t.groups.foldl (fun s g =>
      let v := words s g.2.v
      let x := words v.1 g.2.s
      x.1.modGroup tid g.1 fun g => { g with v := v.2, s := x.2 }) s
    let r := s.freeBytes t.saved.length
    r.1.modTeam tid fun t => { t with saved := r.2 }

/-- The save frame of a team read back and given up (R324). -/
def State.readFrame (s : State) (tid : Nat) : State :=
  match mget? s.teams tid with
  | none => s
  | some t => match t.frame with
    | none => s
    | some f =>
      let s := if s.vRead t.die t.ctx f.1 f.2.length = some f.2 then s else s.spoil tid
      (s.recallSpan t.die t.ctx f.1 f.2.length { rd := true }).modTeam tid fun t => { t with frame := none }

/-- A saved team put back (R43, R324): its groups in their new places, their splits' ages from zero (R94), its local bytes, its epilogue place, its windlass claim,
and its commands reissued in their order. -/
def State.restore (s : State) (tid core : Nat) (slots : List (Nat × Nat)) (base : Nat) : State :=
  let s := s.readFrame tid
  match mget? s.teams tid with
  | none => s
  | some t =>
    let place (g : Nat × Group) (p : Nat × Nat) : Nat × Group :=
      (g.1, { g.2 with slot := p.1, base := p.2, splits := mmap g.2.splits fun q => { q with age := 0 } })
    let t : Team := { t with
      status := .resident, core := core % Config.cores, base := base, placed := s.mgmt.time, after := none, saved := []
      groups := t.groups.zipWith place slots }
    let bytes := ((mget? s.teams tid).map (·.saved)).getD []
    let s := { s with teams := mput s.teams tid t }
    let s := match mget? s.tasks t.task with | some k => s.loadDict t.die core t.ctx k | none => s
    let s := ((s.scrub core t.ctx base (arrBytes t.bytes)).modCore core fun c => { c with arr := wrBytes c.arr base bytes }).l1Clear core
    let s := match t.ep.back with
      | none => s
      | some n => s.rejoin tid core n
    let s := s.modTeam tid fun t => { t with ep := { t.ep with back := none } }
    let s := s.reissueAll tid
    let s := s.modTeam tid fun t => t.cmds.foldl (fun t k => t.tryCopy k.1) t
    let s := s.epFlow tid
    let s := if t.runs.isEmpty then s else s.startRun tid
    let s := t.cmds.foldl (fun s k => s.tryClose tid k.1) s
    s.settle tid

end Sys2Proof.Machine
end

