-- ==== Sys2Proof/Machine/Sched.lean ====
section
/-! DEFINITION. The die schedulers (R81 to R86, R93): placement, blocking and pre-emption for it, graph launches (R89), completion
events (R79, R80), and the starvation quantum (R99, R100). -/
namespace Sys2Proof.Machine

/-! ### Ready tasks -/

/-- The dies that may run a task (R75). -/
def State.diesFor (s : State) (k : Task) : List Nat :=
  let ds := s.diesOf (ctxDevice k.ctx)
  let a := ds.filter fun d => k.affin.getLsbD d
  if a.isEmpty then ds else a

/-- A task's effective priority (R81). -/
def State.prioOf (s : State) (k : Task) : Nat := min k.prio (field ((s.ctx k.ctx).prio.setWidth 64) 0 2)
/-- The effective priority of a team. -/
def State.teamPrio (s : State) (t : Team) : Nat := ((mget? s.tasks t.task).map s.prioOf).getD 0

/-- A ready task with a team never placed, or a ready node with records to launch (R89), which may run on a die (R81, R82). -/
def State.wantsNew (s : State) (die : Nat) (k : Task) : Bool :=
  k.ready.isSome && (if k.graph then 0 < s.launchSize k die false else k.placed < k.teams) &&
  (s.ctx k.ctx).ended.isNone && (s.diesFor k).contains die

/-- A task still wants a team on a die. -/
def State.wantsOn (s : State) (die task : Nat) : Bool :=
  match mget? s.tasks task with
  | some k => s.wantsNew die k || s.teams.any fun t => t.2.task = task && t.2.die = die && t.2.status = .saved
  | none => false

/-- The pre-empted teams of a task that a die may put back (R81, R93). DESIGN CHOICE (log 104): a team that was pre-empted for a task
which wants no team on the die any more, since other dies have placed its teams or it has ended, may go back although this die never
placed one: R93 does not speak of that task. -/
def State.savedOn (s : State) (die task : Nat) : List (Nat × Team) :=
  s.teams.filter fun t => t.2.task = task && t.2.die = die && t.2.status = .saved &&
    match t.2.after with
    | some j => !((mget? s.tasks j).any (s.wantsNew die) ||
        s.teams.any fun u => u.2.task = j && u.2.die = die && u.2.status = .saved && u.2.after = none)
    | none => true

/-- The cores to which a saved team can go back (R43). -/
def State.coresFor (s : State) (t : Team) : List Nat :=
  if (s.core t.coreKey).removed then dieCores t.die else [t.coreKey]

/-- Some team of a task that is to be placed fits a core of the die (R82, R84). -/
def State.fitsDie (s : State) (die task : Nat) : Bool :=
  match mget? s.tasks task with
  | none => false
  | some k =>
    (s.wantsNew die k && (dieCores die).any fun c => s.roomAny c k.fit) ||
    (s.savedOn die task).any fun t => (s.coresFor t.2).any fun c => s.roomAny c (s.teamFit t.2)

/-- Task `a` comes before task `b` in the ready queues (R82). -/
def State.ahead (s : State) (a b : Task) : Bool :=
  s.prioOf b < s.prioOf a || (s.prioOf a = s.prioOf b && a.ready.getD 0 < b.ready.getD 0)

/-- The tasks ahead of a task that want a team on the die. -/
def State.aheadOn (s : State) (die task : Nat) : List Nat :=
  match mget? s.tasks task with
  | none => []
  | some k => (s.tasks.filter fun j => j.1 ≠ task && s.ahead j.2 k && s.wantsOn die j.1).map (·.1)

/-- Of two blocking tasks of a die the one that goes first. DESIGN CHOICE (log 104): the one ahead in the queues, and of two of equal
priority and age the one with the lower number. -/
def State.firstOf (s : State) (a : Nat) (j : Task) (b : Nat) (k : Task) : Bool := s.ahead j k || (!s.ahead k j && a < b)

/-- A task's turn on a die: every task ahead of it fits no core, and no blocking task of its priority or higher holds it back (R82). -/
def State.turnOf (s : State) (die task : Nat) : Bool :=
  match mget? s.tasks task with
  | none => false
  | some k =>
    (s.aheadOn die task).all (fun j => !s.fitsDie die j) &&
    (s.die die).blocking.all fun b => b = task || !s.wantsOn die b ||
      match mget? s.tasks b with
      | some j => s.prioOf j < s.prioOf k || ((s.die die).blocking.contains task && s.firstOf task k b j)
      | none => true

/-- Tasks that a die has skipped since now, unless it had already (R82). -/
def State.skip (s : State) (die : Nat) (ts : List Nat) : State :=
  s.modDie die fun d => { d with skipped := ts.foldl (fun m t => if (mget? m t).isSome then m else mput m t s.mgmt.time) d.skipped }

/-- A task that wants no team on a die any more is neither skipped nor blocking there (R82). -/
def State.tidyQueues (s : State) : State :=
  { s with dies := s.dies.map fun d => (d.1, { d.2 with
      skipped := d.2.skipped.filter fun e => s.wantsOn d.1 e.1, blocking := d.2.blocking.filter (s.wantsOn d.1) }) }

/-- A team of the task has been placed on the die (R82, R93). -/
def State.served (s : State) (die task : Nat) : State :=
  let s := (s.modDie die fun d => { d with skipped := mdel d.skipped task, blocking := d.blocking.filter (· ≠ task) }).tidyQueues
  { s with teams := mmap s.teams fun t => if t.die = die && t.after = some task then { t with after := none } else t }

/-! ### Launching -/

/-- The groups of a new team (R38, R44); of an entry offset the PC takes the bits from 3 up (log 40). -/
def Task.newGroups (k : Task) (slots : List (Nat × Nat)) (recBase recCnt : Word) : SMap Group :=
  ((groupsOf k.shape).zip slots).zipIdx.map fun e =>
    let g := e.1.1
    let pc : DWord := BitVec.ofNat 64 (k.kimg + ((k.entries[g.1]?).getD 0).toNat / 8 * 8)
    let trapv : DWord := if k.trapv = 0 then 0 else BitVec.ofNat 64 k.kimg + k.trapv
    (e.2, { role := g.1, roleIdx := g.2.1, width := g.2.2.1, budget := g.2.2.2, slot := e.1.2.1, base := e.1.2.2
            regs := { trapvec := trapv &&& 0x01FFFFFFFFFFFFF8 }, recBase := recBase, recCnt := recCnt
            splits := [(0, { pc := pc, mask := widthMask g.2.2.1 })] })

/-- A team placed whole (R84 to R86, R42, R80): array range, dictionary, groups; the core's L1 is emptied as by an acquire. -/
def State.launch (s : State) (task : Nat) (p : Placement) (index : Nat) (recBase recCnt : Word) : State :=
  match mget? s.tasks task with
  | none => s
  | some k =>
    let core := coreKey p.die p.core
    let s := ((s.scrub core k.ctx p.base (arrBytes k.local_)).loadDict p.die core k.ctx k).l1Clear core
    if (mget? s.tasks task).isNone then s else
    let t : Team :=
      { ctx := k.ctx, task := task, index := index, die := p.die, core := p.core, base := p.base, bytes := k.local_
        placed := s.mgmt.time, bars := List.replicate k.nbars {}, groups := k.newGroups p.slots recBase recCnt }
    let (s, id) := s.fresh
    let s := ({ s with teams := mput s.teams id t }).modTask task fun k => { k with placed := k.placed + 1 }
    if k.state = 2 || (k.graph && k.placed = 0) then s.writeState task p.die 3 else s

/-- A placement is legal for a new team of a task: a core of a die that serves it, with room there (R82, R84). -/
def State.legalNew (s : State) (k : Task) (p : Placement) : Bool :=
  p.core < Config.cores && (s.diesFor k).contains p.die && s.roomAt (coreKey p.die p.core) k.fit p.slots p.base

/-- A placement puts back a saved team where it may go (R43). -/
def State.legalBack (s : State) (t : Team) (p : Placement) : Bool :=
  p.core < Config.cores && t.die = p.die && !(s.die p.die).failed && (s.coresFor t).contains (coreKey p.die p.core) &&
  s.roomAt (coreKey p.die p.core) (s.teamFit t) p.slots p.base

/-- The team of an index of a task has been placed (R45). -/
def Task.hasPlaced (k : Task) (i : Nat) : Bool := i < k.low || k.out.contains i
/-- The task with the team of an index placed. -/
def Task.take (k : Task) (i : Nat) : Task :=
  let low := prefixEnd (i :: k.out) (k.out.length + 1) k.low
  { k with low := low, out := (i :: k.out).filter (low ≤ ·) }

/-- A launch of a node (R89): TAKEN moves on, and a team whose group sees the records is placed; none where there is nothing to
launch. -/
def State.launchRecords (s : State) (k : Task) (p : Placement) (flush : Bool) : Option State :=
  let n := s.launchSize k p.die flush
  if n = 0 then none else
  let taken := s.nodeGet p.die k 16
  let s := s.modTask p.task fun k => { k with
    running := mput k.running k.placed (taken, n), waiting := k.waiting.filter fun w => taken + n ≤ w.1 }
  some ((s.nodeSet p.die k 16 (taken + n)).launch p.task p k.placed (BitVec.ofNat 32 (k.recAddr taken)) (BitVec.ofNat 32 n))

/-- The placement made, if it is legal (R82): a saved team of the task that may go back, a launch of a node, or a team of an index
that has not been placed, in no particular order (R45). -/
def State.placeTeam (s : State) (p : Placement) : Option State :=
  match p.restore with
  | some tid =>
    match (s.savedOn p.die p.task).find? fun t => t.1 = tid with
    | some (_, t) => if s.legalBack t p then some (s.restore tid (coreKey p.die p.core) p.slots p.base) else none
    | none => none
  | none =>
    match mget? s.tasks p.task with
    | some k =>
      if !s.wantsNew p.die k || !s.legalNew k p then none
      else if k.graph then s.launchRecords k p false
      else if k.teams ≤ p.index || k.hasPlaced p.index then none
      else some ((s.modTask p.task fun k => k.take p.index).launch p.task p p.index 0 0)
    | none => none

/-! ### Pre-emption for a placement -/

/-- A split's QPULL that is to wait for an item has issued and stands in the tracker behind an earlier command (R222, R426). -/
def Team.pulls (t : Team) (gi i : Nat) : Bool :=
  t.cmds.any fun q => q.2.group = gi && q.2.split = i && match q.2.kind, q.2.cause with
    | .later _, some (.qpull f, _) => !f.flg.getLsbD 0
    | _, _ => false

/-- Every live split of every live group of a team is parked in QPULL or RWAIT (R93, R283). -/
def Team.idle (t : Team) : Bool :=
  t.groups.any (fun g => !g.2.ended) &&
  t.groups.all fun g => g.2.splits.all fun p => t.pulls g.1 p.1 || match p.2.park with | .qpull _ | .rwait _ => true | _ => false

/-- R100 keeps a context's teams on a core from being pre-empted. -/
def State.protected_ (s : State) (t : Team) : Bool :=
  match mget? (s.die t.die).protect (t.ctx * Config.cores + t.core) with
  | some until_ => s.mgmt.time < until_
  | none => false

/-- Resident teams of a die that may be pre-empted for a task at all. -/
def State.evictable (s : State) (die : Nat) : List (Nat × Team) :=
  s.teams.filter fun t => t.2.die = die && t.2.status = .resident && !s.protected_ t.2

/-- Team `u` is to be pre-empted before team `v`: lower priority, or placed later (R83). -/
def State.sooner (s : State) (u v : Team) : Bool :=
  s.teamPrio u < s.teamPrio v || (s.teamPrio u = s.teamPrio v && v.placed < u.placed)

/-- The scheduler may pre-empt a team for a task that fits no core of the die: an idle team of the task's context before any
other (R93); for a blocking task, the team of lowest priority below the task's, the latest placed among those, that has been
resident for 100 µs or is idle (R83). -/
def State.mayEvict (s : State) (die task victim : Nat) : Bool :=
  match mget? s.tasks task with
  | none => false
  | some k =>
    let all := s.evictable die
    let idle := all.filter fun t => t.2.ctx = k.ctx && t.2.idle
    let lower := all.filter fun t => s.teamPrio t.2 < s.prioOf k && (t.2.placed + 100000 ≤ s.mgmt.time || t.2.idle)
    !s.fitsDie die task && s.canSave victim &&
    if idle.isEmpty then
      (s.die die).blocking.contains task &&
      lower.any fun v => v.1 = victim && lower.all fun u => !s.sooner u.2 v.2
    else idle.any fun v => v.1 = victim

/-- The pre-emptions of a placement, one after another; none where one of them is not allowed. -/
def State.evictAll (s : State) (die task : Nat) : List Nat → Option State
  | [] => some s
  | v :: vs =>
    if s.mayEvict die task v then
      let idleSame := match mget? s.teams v, mget? s.tasks task with
        | some t, some k => t.ctx = k.ctx && t.idle
        | _, _ => false
      (s.preempt v (if idleSame then some task else none)).evictAll die task vs
    else none

/-- A die scheduler's choice carried out (R82 to R85, R93): a team of the task whose turn it is takes a core, after the pre-emptions
that it needs. A task whose team fits no core is skipped. -/
def State.schedule (s : State) (p : Placement) : State :=
  if s.mgmt.busy || (s.die p.die).failed || Config.dies ≤ p.die || !s.turnOf p.die p.task then s else
    match (s.evictAll p.die p.task p.victims).bind fun t => t.placeTeam p with
    | some t => (t.skip p.die (s.aheadOn p.die p.task)).served p.die p.task
    | none =>
      if s.wantsOn p.die p.task && !s.fitsDie p.die p.task then s.skip p.die (p.task :: s.aheadOn p.die p.task) else s

/-- DIE_SCHEDULER_PLACE (R82 to R85, R93). -/
def execDieSchedulerPlace (p : Placement) (s : State) : Out := .next (s.schedule p)

/-- TASK_BLOCKING (R82): a task that the die has skipped for 1 ms becomes blocking. -/
def execTaskBlocking (die task : Nat) (s : State) : Out :=
  .next (match mget? (s.die die).skipped task with
    | some since =>
      if since + 1000000 ≤ s.mgmt.time && s.wantsOn die task && !(s.die die).blocking.contains task then
        s.modDie die fun d => { d with blocking := task :: d.blocking }
      else s
    | none => s)

/-! ### Graph launches -/

/-- A launch of a node (R89). A ready node's goes the way of every ready task (R82); that of a node which is not yet ready waits for
room, and for the blocking tasks of its priority or higher. -/
def State.launchNode (s : State) (p : Placement) (flush : Bool) : State :=
  match mget? s.tasks p.task with
  | none => s
  | some k =>
    if !k.graph then s else
    match s.nodeLost p.die k with
    | some s => s
    | none =>
    if k.ready.isSome then s.schedule p else
    let blocked := (s.die p.die).blocking.any fun b => b ≠ p.task && s.wantsOn p.die b &&
      match mget? s.tasks b with | some j => s.prioOf k ≤ s.prioOf j | none => false
    if blocked || s.mgmt.busy || (s.ctx k.ctx).ended.isSome || (s.die p.die).failed || !s.legalNew k p then s
    else ((s.launchRecords k p flush).map (·.tidyQueues)).getD s

/-- GRAPH_NODE_LAUNCH (R89): enough records are waiting, or the node is sealed and some are. -/
def execGraphNodeLaunch (p : Placement) (s : State) : Out := .next (s.launchNode p false)

/-- GRAPH_FLUSH_TIMEOUT (R89): the oldest waiting record has waited FLUSH ns. -/
def execGraphFlushTimeout (p : Placement) (s : State) : Out := .next (s.launchNode p true)

/-! ### Completion -/

/-- A team is complete (R326): every group has ended, and every access, engine command and run of the team is complete. -/
def State.teamOver (s : State) (tid : Nat) : Bool :=
  match mget? s.teams tid with
  | none => false
  | some t =>
    t.status = .resident && t.groups.all (fun g => g.2.ended) && t.mops.isEmpty && t.cmds.all (·.2.isRemote) && t.runs.isEmpty &&
    (s.core t.coreKey).quietFor tid

/-- TEAM_COMPLETION_EVENT (R79, R80, R90, R190): stash lines are written back, the team leaves its core, each team target is
decremented, and the grid event follows its last team. -/
def execTeamCompletionEvent (team : Nat) (s : State) : Out :=
  .next (match mget? s.teams team with
    | none => s
    | some t =>
      if !s.teamOver team then s else
      let s := ((s.raiseTeam team).stashFlush team).modCore t.coreKey fun k => k.leave team
      let s := { s with teams := mdel s.teams team }
      match mget? s.tasks t.task with
      | none => s
      | some k =>
        let dec (s : State) (a : Nat) : State := if a = 0 then s else s.decrement t.die k.ctx a 1
        let s := k.ttgt.foldl dec s
        if k.graph then s.launchDone t.task t.die t.index
        else
          let s := s.modTask t.task fun k => { k with done := k.done + 1 }
          if k.done + 1 = k.teams then s.finishGrid t.task t.die dec else s)

/-! ### The starvation quantum -/

/-- A context has runnable work on a die (R99). -/
def State.runnable (s : State) (die x : Nat) : Bool :=
  s.teams.any (fun t => t.2.ctx = x && t.2.die = die &&
    (t.2.status = .saved || t.2.groups.any fun g => !g.2.ended && !g.2.halted)) ||
  s.tasks.any fun k => k.2.ctx = x && s.wantsNew die k.2

/-- The window of R99: 100 ms. -/
def quantumWindow : Nat := 100000000

/-- A die's record of runnable work and residence over an interval of common time (R99). -/
def State.accountDie (s : State) (d t0 t1 : Nat) (y : Die) : Die :=
  let xs := (s.teams.map (·.2.ctx) ++ s.tasks.map (·.2.ctx)).eraseDups
  let same := t0 / quantumWindow = t1 / quantumWindow
  let cores := ((s.teams.filter fun t => t.2.die = d && t.2.status = .resident && t.2.groups.any fun g => !g.2.ended).map
    fun t => t.2.ctx * Config.cores + t.2.core).eraseDups
  { y with
    runSince := xs.foldl (fun m x => if s.runnable d x then mput m x (mget t0 y.runSince x) else m) []
    resid := cores.foldl (fun m k => mput m k (if same then mget 0 m k + (t1 - t0) else t1 % quantumWindow)) (if same then y.resid else [])
    protect := y.protect.filter fun p => t1 < p.2 }

/-- Common time is about to pass, or to be set on: the dies' records of R99 follow. -/
def State.account (s : State) (ns : Nat) : State :=
  if s.teams.isEmpty && s.tasks.isEmpty && s.dies.all (fun d => d.2.runSince.isEmpty && d.2.resid.isEmpty) then s else
  { s with dies := (List.range Config.dies).map fun d => (d, s.accountDie d s.mgmt.time (s.mgmt.time + ns) (s.die d)) }

/-- The count of fabric time steered by at most `ns` towards ROOT's, as a peer that has sent a timestamp within the last rotation
knows it; ROOT's own count is not steered. The records of R99 follow. -/
def State.steer (s : State) (peer ns : Nat) : State :=
  match s.tableNow, mget? s.fab.stamps peer with
  | some t, some (mine, _, root) =>
    let now := s.mgmt.time
    if t.root = Config.selfPackage || mine + t.nslot * t.slotns < now then s else
    let goal := root + (now - mine)
    let new := if now ≤ goal then min goal (now + ns) else max goal (now - ns)
    let s := (s.account (new - now)).modFab fun b => { b with stamps := mmap b.stamps fun x => (x.1 + new - now, x.2) }
    { s with mgmt := { s.mgmt with time := new } }
  | _, _ => s

/-- A context is starved on a die: 98 ms into a window throughout which it has had runnable work, without 1 ms of residence on
any one core (R99, R100). -/
def State.starved (s : State) (die x : Nat) : Bool :=
  let m := s.mgmt.time % quantumWindow
  98000000 ≤ m && s.runnable die x &&
  (match mget? (s.die die).runSince x with | some t => t + m ≤ s.mgmt.time | none => false) &&
  (s.die die).resid.all fun r => r.1 / Config.cores ≠ x || r.2 < 1000000

/-- The pre-emptions of a forced placement (R100): teams of other contexts on the core, lowest priority first, until the team
fits. -/
def State.evictFor (s : State) (ctx core : Nat) (f : Fit) : List Nat → Option State
  | [] => some s
  | v :: vs =>
    let all := (s.teamsOn core).filter fun t => t.2.ctx ≠ ctx && t.2.status = .resident
    if !s.roomAny core f && s.canSave v &&
      (all.any fun t => t.1 = v && all.all fun u => s.teamPrio t.2 ≤ s.teamPrio u.2)
    then (s.preempt v none).evictFor ctx core f vs
    else none

/-- The team that a forced placement serves (R100): a pre-empted one of the context if it has one on the die, else one of its
oldest ready task. -/
def State.forcedFit (s : State) (ctx : Nat) (p : Placement) : Option Fit :=
  let back := s.teams.filter fun t => t.2.ctx = ctx && t.2.die = p.die && t.2.status = .saved
  match p.restore with
  | some tid => (back.find? fun t => t.1 = tid && t.2.task = p.task).map fun t => s.teamFit t.2
  | none =>
    match mget? s.tasks p.task with
    | some k =>
      if k.ctx = ctx && back.isEmpty && s.wantsNew p.die k &&
        s.tasks.all fun j => j.2.ctx ≠ ctx || !s.wantsNew p.die j.2 || k.ready.getD 0 ≤ j.2.ready.getD 0
      then some k.fit else none
    | none => none

/-- The forced placement itself: a saved team goes back whatever it was pre-empted for (R100). -/
def State.placeForced (s : State) (p : Placement) : Option State :=
  match p.restore with
  | some tid =>
    match mget? s.teams tid with
    | some t => if s.legalBack t p then some (s.restore tid (coreKey p.die p.core) p.slots p.base) else none
    | none => none
  | none => s.placeTeam p

/-- STARVATION_FORCED_PLACEMENT (R100). -/
def execStarvationForcedPlacement (ctx : Nat) (p : Placement) (s : State) : Out :=
  .next (if s.mgmt.busy || !s.starved p.die ctx || (s.die p.die).failed then s else
    match s.forcedFit ctx p with
    | none => s
    | some f =>
      match (s.evictFor ctx (coreKey p.die p.core) f p.victims).bind fun t => t.placeForced p with
      | some t => (t.served p.die p.task).modDie p.die fun d =>
          { d with protect := mput d.protect (ctx * Config.cores + p.core) (s.mgmt.time + 1000000) }
      | none => s)

end Sys2Proof.Machine
end

