-- ==== Sys2Proof/Machine/Driver.lean ====
section
/-! DEFINITION. What the host driver does to contexts and groups: invalidation of translations (R181), BAR2 (R197), resuming
(R183), context switches (R325), the end of a context (R315), and debugging (R314, R327 to R329). -/
namespace Sys2Proof.Machine

/-- A virtual page in a range of pages. -/
def inPages (lo len p : Nat) : Bool := lo ≤ p && p < lo + len

/-- A team holds a translation of a range: a command of it does (R184), or an access of it is under way. -/
def Team.holdsPage (t : Team) (lo len : Nat) : Bool :=
  t.cmds.any (fun q => q.2.vpns.any (inPages lo len)) ||
  t.mops.any fun m => m.2.lanes.any fun l => (match l.place with | .arr _ => false | _ => true) && inPages lo len (l.va / 65536)

/-- TLB_INVALIDATE_COMMAND (R181): the invalidation of `len` virtual pages from `lo` of a context completes, once no access,
store on its way home or command holds a translation there; then no TLB of the device does. -/
def execTlbInvalidateCommand (ctx lo len : Nat) (s : State) : Out :=
  .next (if s.teams.any (fun t => t.2.ctx = ctx && t.2.holdsPage lo len) || s.wbuf.any (fun e => e.ctx = ctx && inPages lo len (e.va / 65536)) then s else
    let ds := s.diesOf (ctxDevice ctx)
    let s := ds.foldl (fun s d => s.modDie d fun y => { y with tlb := tlbInvalidate y.tlb ctx lo len }) s
    { s with cores := s.cores.map fun k =>
        (k.1, if ds.contains (k.1 / Config.cores) then { k.2 with tlb := tlbInvalidate k.2.tlb ctx lo len } else k.2) })

/-- An access within the BAR2 window of a device's function (R29). -/
def State.inBar2 (s : State) (a : Bar2) : Bool :=
  s.devices.contains a.dev && a.addr.toNat + a.bytes.length ≤ s.bar2Bytes a.dev

/-- What stands for a context in the page connections of the host's accesses through a device's BAR2 window: a number behind the
contexts' (log 109). -/
def hostCtx (dev : Nat) : Nat := 1024 + dev

/-- A host access to a peer's page (R180, R197): a write goes out; a read is asked for, and answered by the same access once it has come. -/
def State.bar2Peer (s : State) (a : Bar2) (pkg off : Nat) : State :=
  let n := a.bytes.length
  if a.write then
    (peerCuts (.peer pkg off, n)).foldl (fun s k => s.ask { id := 0, who := .put, team := none, ctx := hostCtx a.dev, pkg := k.1, off := k.2.1
                                                            len := k.2.2, data := some ((a.bytes.drop (k.2.1 - off)).take k.2.2) }) s
  else match s.needPeers (.host a.dev) none (hostCtx a.dev) [(.peer pkg off, n)] with
    | some s => s
    | none =>
      let bs := (peerCuts (.peer pkg off, n)).flatMap fun k => (s.askedBytes none k.1 k.2.1 k.2.2).getD []
      ({ s with mgmt := { s.mgmt with bar2 := bs } } : State).unask fun q => q.who = .host a.dev && q.got.isSome

/-- HOST_BAR2_ACCESS (R29, R197): performed at the home slice, where the management table puts it; on a fabric page at the peer; elsewhere
it has no effect. -/
def execHostBar2Access (a : Bar2) (s : State) : Out :=
  let n := a.bytes.length
  .next (if !s.inBar2 a then s else
    match (s.mgmtLeaf a.dev a.addr.toNat n a.write).bind fun e => s.placeOf (64 * a.dev) a.addr.toNat e with
    | some (.hbm pa) => if a.write then s.homeWrite pa a.bytes else
      let r := s.homeRead pa n
      { r.1 with mgmt := { r.1.mgmt with bar2 := r.2 } }
    | some (.peer pkg off) => s.bar2Peer a pkg off
    | _ => s)

/-- HOST_CONTEXT_RESUME (R183, R247, R257): the context's splits that wait after a resumable trap go on, and so do its windlass
runs. -/
def execHostContextResume (ctx : Nat) (s : State) : Out :=
  let onSplit (p : Split) : Split := if p.park = .fault then { p with park := .none, parked := 0 } else p
  let onGroup (g : Group) : Group := { g with splits := mmap g.splits onSplit }
  let onTeam (t : Team) : Team :=
    if t.ctx ≠ ctx then t else { t with groups := mmap t.groups onGroup, runs := t.runs.map fun r => { r with held := false } }
  .next { s with teams := mmap s.teams onTeam }

/-- The resident teams that a condition names. -/
def State.residentTeams (s : State) (f : Team → Bool) : List Nat :=
  (s.teams.filter fun t => t.2.status = .resident && f t.2).map (·.1)

/-- Teams pre-empted one after another (R322). -/
def State.preemptAll (s : State) (ts : List Nat) : State := ts.foldl (fun s t => s.preempt t none) s

/-- HOST_CONTEXT_SWITCH (R325): every team of the context on the die is pre-empted, once each of them can be. -/
def execHostContextSwitch (ctx die : Nat) (s : State) : Out :=
  let ts := s.residentTeams fun t => t.ctx = ctx && t.die = die
  .next (if ts.all s.canSave then s.preemptAll ts else s)

/-- A context ended by the host or by a partition change: its fault record holds no trap (R315; log 63). -/
def State.hostEnd (s : State) (x : Nat) : State :=
  let die := s.hostDie (ctxDevice x)
  s.endContext x 0 (faultRecord 0 0 (s.timeOf die) die 0 0 0 2 0) die

/-- CONTEXT_END (R315). -/
def execContextEnd (ctx : Nat) (s : State) : Out := .next (s.hostEnd ctx)

/-- HOST_SET_DEBUG_MODE (R314, R327). -/
def execHostSetDebugMode (ctx mode : Nat) (breaks : List DWord) (s : State) : Out :=
  .next (if mode ≤ 2 && breaks.length ≤ 4 then s.modCtx ctx fun y => { y with debug := mode, breaks := breaks } else s)

/-- TEAM_STOP (R327): the context's team-stop flag is set, and every group of the team halts. -/
def execTeamStop (ctx team : Nat) (s : State) : Out :=
  .next (match mget? s.teams team with
    | none => s
    | some t =>
      if t.ctx ≠ ctx then s else
      let live := t.groups.filterMap fun g => if g.2.ended || g.2.halted then none else
        some (g.1, ((g.2.splits.head?).map (·.1)).getD 0)
      (live.foldl (fun s g => match s.lookup? ⟨team, g.1, g.2⟩ with
        | some c => s.haltGroup c
        | none => s) s).modCtx ctx fun y => { y with stopFlag := true })

/-- HOST_SINGLE_STEP (R329): one split of a halted group, which is not parked, may issue one clause. -/
def execHostSingleStep (r : Ref) (s : State) : Out :=
  .next (match s.lookup? r with
    | none => s
    | some c =>
      if c.group.halted && !c.split.opn && c.split.park = .none then s.put { c with split := { c.split with step := true } } else s)

/-- HOST_RESUME_GROUP (R327 to R329): the whole group is released, past the breakpoint that a split has hit; the team-stop flag
is taken back. -/
def execHostResumeGroup (team group : Nat) (s : State) : Out :=
  .next (match (mget? s.teams team).bind fun t => (mget? t.groups group).map fun g => (t, g) with
    | none => s
    | some (t, g) =>
      if !g.halted then s else
      ((s.modTeam team fun t => t.resumeGroup group).modCtx t.ctx fun y => { y with stopFlag := false }).settle team)

end Sys2Proof.Machine
end

