-- ==== Sys2Proof/Machine/Integer.lean ====
section
/-! DEFINITION. The integer, bit and move instructions (13 to 16). -/
namespace Sys2Proof.Machine

/-- NOP (R415): no state changes. -/
def execNop (_k : Com) (s : State) : Out := onSplit s fun _ => s

/-- Sum, difference, product, minimum and maximum of the elements, exact before they are cut (R385). -/
def intBin (t : Ty) (sat : Bool) (op : Int → Int → Int) (a b : DWord) : DWord :=
  mapElems t (fun x y => intBits t sat (op (toInt t.signed t.width x) (toInt t.signed t.width y))) a b

/-- HI of IMAD (R113). -/
def FmtR.hi (f : FmtR) : Bool := f.m.getLsbD 7

/-- IADD (R385). -/
def execIadd (f : FmtR) (s : State) : Out :=
  aluR f f.t.is64 s fun c l => intBin f.t (FmtR.sat f) (· + ·) (c.rA f l) (c.rB f l)
/-- IADD, immediate form (R114, R385). -/
def execIaddImm (f : FmtI) (s : State) : Out :=
  aluI f s fun c l => intBin f.t false (· + ·) (c.iA f l) (FmtI.intImm f)
/-- ISUB (R385). -/
def execIsub (f : FmtR) (s : State) : Out :=
  aluR f f.t.is64 s fun c l => intBin f.t (FmtR.sat f) (· - ·) (c.rA f l) (c.rB f l)
/-- ISUB, immediate form. -/
def execIsubImm (f : FmtI) (s : State) : Out :=
  aluI f s fun c l => intBin f.t false (· - ·) (c.iA f l) (FmtI.intImm f)
/-- IMUL (R385). -/
def execImul (f : FmtR) (s : State) : Out :=
  aluR f f.t.is64 s fun c l => intBin f.t (FmtR.sat f) (· * ·) (c.rA f l) (c.rB f l)
/-- IMUL, immediate form. -/
def execImulImm (f : FmtI) (s : State) : Out :=
  aluI f s fun c l => intBin f.t false (· * ·) (c.iA f l) (FmtI.intImm f)
/-- IMAD of one lane (R385): the exact product and C, or with HI the high bits of the product and C modulo 2^w. -/
def imad (t : Ty) (sat hi : Bool) (a b k : DWord) : DWord :=
  let w := t.width
  let v (x : DWord) : Int := toInt t.signed w (elem x w 0)
  let p := v a * v b
  if hi then BitVec.ofNat 64 (wrapInt w (p / 2 ^ w + v k))
  else BitVec.ofNat 64 (intBits t sat (p + v k))
/-- IMAD (R385). -/
def execImad (f : FmtR) (s : State) : Out :=
  aluR f f.t.is64 s fun c l => imad f.t (FmtR.sat f) (FmtR.hi f) (c.rA f l) (c.rB f l) (c.rC f l)
/-- IMIN (R385). -/
def execImin (f : FmtR) (s : State) : Out :=
  aluR f f.t.is64 s fun c l => intBin f.t false min (c.rA f l) (c.rB f l)
/-- IMIN, immediate form. -/
def execIminImm (f : FmtI) (s : State) : Out := aluI f s fun c l => intBin f.t false min (c.iA f l) (FmtI.intImm f)
/-- IMAX (R385). -/
def execImax (f : FmtR) (s : State) : Out :=
  aluR f f.t.is64 s fun c l => intBin f.t false max (c.rA f l) (c.rB f l)
/-- IMAX, immediate form. -/
def execImaxImm (f : FmtI) (s : State) : Out := aluI f s fun c l => intBin f.t false max (c.iA f l) (FmtI.intImm f)
/-- IABS (R385). -/
def execIabs (f : FmtR) (s : State) : Out :=
  aluR f f.t.is64 s fun c l => intBin f.t (FmtR.sat f) (fun x _ => (x.natAbs : Int)) (c.rA f l) 0

/-- One element of a type as a number, the whole value for a single-element type. -/
def intVal (t : Ty) (d : DWord) : Int := toInt t.signed t.width (elem d t.width 0)

/-- ICMP (R386). -/
def execIcmp (f : FmtR) (s : State) : Out :=
  cmpR f s fun c l => condInt f.c.toNat (intVal f.t (c.rA f l)) (intVal f.t (c.rB f l))
/-- ICMP, immediate form (R378, R386): the condition stands in RM and DS. -/
def execIcmpImm (f : FmtI) (s : State) : Out :=
  cmpI f s fun c l => condInt (FmtI.cond f) (intVal f.t (c.iA f l)) (intVal f.t (FmtI.intImm f))

/-- A shift of each element (R439): `op` acts on `w` bits with a count below `w`. For single-element types the
count is B[31:0] modulo the width, for packed types the element of B modulo the element width. -/
def shiftElems (t : Ty) (op : Nat → Nat → Nat → Nat) (a : DWord) (b : Word) : DWord :=
  let w := t.width
  if t.elems = 1 then packElems w 1 fun _ => op w (elem a w 0) (b.toNat % w)
  else packElems w t.elems fun i => op w (elem a w i) (elem (b.setWidth 64) w i % w)
/-- The three shifts of one element (R439). -/
def shlElem (_w n c : Nat) : Nat := n * 2 ^ c
def shrElem (_w n c : Nat) : Nat := n / 2 ^ c
def sarElem (w n c : Nat) : Nat := wrapInt w (toInt true w n / 2 ^ c)

/-- SHL (R439). -/
def execShl (f : FmtR) (s : State) : Out :=
  aluR f f.t.is64 s fun c l => shiftElems f.t shlElem (c.rA f l) (c.rB1 f l)
/-- SHL, immediate form. -/
def execShlImm (f : FmtI) (s : State) : Out :=
  aluI f s fun c l => shiftElems f.t shlElem (c.iA f l) (f.imm.signExtend 32)
/-- SHR (R439). -/
def execShr (f : FmtR) (s : State) : Out :=
  aluR f f.t.is64 s fun c l => shiftElems f.t shrElem (c.rA f l) (c.rB1 f l)
/-- SHR, immediate form. -/
def execShrImm (f : FmtI) (s : State) : Out :=
  aluI f s fun c l => shiftElems f.t shrElem (c.iA f l) (f.imm.signExtend 32)
/-- SAR (R439). -/
def execSar (f : FmtR) (s : State) : Out :=
  aluR f f.t.is64 s fun c l => shiftElems f.t sarElem (c.rA f l) (c.rB1 f l)
/-- SAR, immediate form. -/
def execSarImm (f : FmtI) (s : State) : Out :=
  aluI f s fun c l => shiftElems f.t sarElem (c.iA f l) (f.imm.signExtend 32)

/-- The truth table of LOG3 (R396), applied to whole words: minterm i of A, B and the old D where tt[i] is set. -/
def log3 (tt : BitVec 8) (a b d : DWord) : DWord :=
  (List.range 8).foldl (fun acc i =>
    if tt.getLsbD i then
      acc ||| ((if i / 4 % 2 = 1 then a else ~~~a) &&& (if i / 2 % 2 = 1 then b else ~~~b) &&& (if i % 2 = 1 then d else ~~~d))
    else acc) 0
/-- LOG3 (R396). -/
def execLog3 (f : FmtR) (s : State) : Out :=
  aluR f f.t.is64 s fun c l => log3 f.c (c.rA f l) (c.rB f l) (c.src f.ds f.t.is64 f.d l)

/-- The number of set bits among the low `w` (R422). -/
def popCount (w : Nat) (d : DWord) : Nat := ((List.range w).filter fun i => d.getLsbD i).length
/-- The number of zero bits above the highest set bit of the low `w` (R359). -/
def leadingZeros (w : Nat) (d : DWord) : Nat :=
  ((List.range w).find? fun i => d.getLsbD (w - 1 - i)).getD w
/-- The low `w` bits in reverse order (R352). -/
def bitReverse (w : Nat) (d : DWord) : DWord :=
  (List.range w).foldl (fun acc i => if d.getLsbD i then acc ||| ((1 : DWord) <<< (w - 1 - i)) else acc) 0

/-- POPC (R422). -/
def execPopc (f : FmtR) (s : State) : Out := aluR f false s fun c l => BitVec.ofNat 64 (popCount f.t.width (c.rA f l))
/-- CLZ (R359). -/
def execClz (f : FmtR) (s : State) : Out := aluR f false s fun c l => BitVec.ofNat 64 (leadingZeros f.t.width (c.rA f l))
/-- BREV (R352). -/
def execBrev (f : FmtR) (s : State) : Out := aluR f f.t.is64 s fun c l => bitReverse f.t.width (c.rA f l)

/-- BFX of one lane (R346). -/
def bfx (t : Ty) (a : DWord) (ctl : Word) : DWord :=
  let w := t.width
  let pos := ctl.toNat % 256
  let len := ctl.toNat / 256 % 256
  if pos ≥ w || len = 0 then 0 else
  let n := min len (w - pos)
  let f := elem a w 0 / 2 ^ pos % 2 ^ n
  BitVec.ofNat 64 (if t.signed then wrapInt w (toInt true n f) else f)
/-- BFI of one lane (R346). -/
def bfi (t : Ty) (a base : DWord) (ctl : Word) : DWord :=
  let w := t.width
  let pos := ctl.toNat % 256
  let len := ctl.toNat / 256 % 256
  if pos ≥ w || len = 0 then base else
  let n := min len (w - pos)
  let m : DWord := BitVec.ofNat 64 ((2 ^ n - 1) * 2 ^ pos)
  (base &&& ~~~m) ||| ((a <<< pos) &&& m)
/-- BFX (R346). -/
def execBfx (f : FmtR) (s : State) : Out := aluR f f.t.is64 s fun c l => bfx f.t (c.rA f l) (c.rB1 f l)
/-- BFI (R346). -/
def execBfi (f : FmtR) (s : State) : Out :=
  aluR f f.t.is64 s fun c l => bfi f.t (c.rA f l) (c.rB f l) (loWord (c.src f.cs false f.c l))

/-- LEA of one lane (R393). -/
def lea (t : Ty) (sh : Nat) (a : DWord) (b : Word) : DWord :=
  match t with
  | .u64 => a + (b.setWidth 64 <<< sh)
  | .s64 => a + (b.signExtend 64 <<< sh)
  | _ => (loWord a + (b <<< sh)).setWidth 64
/-- LEA (R393). -/
def execLea (f : FmtR) (s : State) : Out := aluR f f.t.is64 s fun c l => lea f.t (f.c.toNat % 64) (c.rA f l) (c.rB1 f l)

/-- SEL (R445). -/
def execSel (f : FmtR) (s : State) : Out :=
  aluR f f.t.is64 s fun c l => if (c.rdP (f.c.toNat % 8)).getLsbD l then c.rA f l else c.rB f l
/-- MOV (R409). -/
def execMov (f : FmtR) (s : State) : Out := aluR f f.t.is64 s fun c l => c.rA f l
/-- MOVI (R410). -/
def execMovi (f : FmtL) (s : State) : Out :=
  onSplit s fun c => s.put (c.wrDest f.com f.ds false f.d fun _ => f.imm.setWidth 64)

end Sys2Proof.Machine
end

