-- ==== Sys2Proof/Machine/Lane.lean ====
section
/-! DEFINITION. The instructions across lanes: SHFL, VOTE, REDG and SCANG (R168, R169, R434, R440, R447, R461).
All four are long-latency (R124): what they write is written at issue, with the values from before kept for the
instruction's window. -/
namespace Sys2Proof.Machine

/-- The lane that a SHFL reads in lane `l`, and whether it is one (R447). -/
def shflSrc (c : Cur) (mode k l x : Nat) : Nat × Bool :=
  let seg := 2 ^ k
  let j := l % seg
  let i : Int := match mode with
    | 0 => ((x % seg : Nat) : Int)
    | 1 => (j : Int) - x
    | 2 => (j : Int) + x
    | _ => ((j ^^^ (x % seg) : Nat) : Int)
  let src := (l - j) + i.toNat
  if i < 0 || (seg : Int) ≤ i || c.group.width ≤ src || !c.split.mask.getLsbD src then (l, false) else (src, true)

/-- SHFL (R447). -/
def execShfl (f : FmtR) (s : State) : Out :=
  onSplit s fun c =>
    let n := f.c.toNat
    let src (l : Nat) := shflSrc c (n % 4) (n / 4 % 8) l (c.rB1 f l).toNat
    let d := (c.deferI (.shfl f) 0 true).wrDest f.com false f.t.is64 f.d fun l => c.rA f (src l).1
    s.put (d.wrPred f.com (n / 32) fun l => (src l).2)

/-- VOTE (R461). -/
def execVote (f : FmtR) (s : State) : Out :=
  onSplit s fun c =>
    let m := c.pass f.com
    let d := c.deferI (.vote f) 0 true
    if m = 0 then s.put d else
    let ps := c.rdP (f.a.toNat % 8) &&& m
    let yes := if f.c.toNat % 4 = 0 then ps ≠ 0 else ps = m
    s.put (
      if f.c.toNat % 4 = 2 then d.wrDest f.com true true f.d fun _ => ps
      else if f.ds then d.wrDest f.com true false f.d fun _ => if yes then 1 else 0
      else d.wrPred f.com (f.d.toNat % 8) fun _ => yes)

/-- The identity of an operation of REDG (R168). -/
def redIdent (op : Nat) (t : Ty) : Nat :=
  let ff := floatFmt t
  match op with
  | 1 => wrapInt t.width (intMax t.signed t.width)
  | 2 => wrapInt t.width (intMin t.signed t.width)
  | 3 => 2 ^ t.width - 1
  | 6 => ff.signBit true
  | 7 => ff.infCode false
  | 8 => ff.infCode true
  | _ => 0

/-- One combination of REDG and SCANG (R168, R434). -/
def redOp (op : Nat) (t : Ty) (mode : Nat) (a b : Nat) : Nat :=
  let ff := floatFmt t
  let x := toInt t.signed t.width a
  let y := toInt t.signed t.width b
  match op with
  | 0 => wrapInt t.width (x + y)
  | 1 => if x ≤ y then a else b
  | 2 => if x ≥ y then a else b
  | 3 => a &&& b
  | 4 => a ||| b
  | 5 => a ^^^ b
  | 6 => ff.round mode false ((ff.decode a).add mode (ff.decode b))
  | 7 => ff.round mode false ((ff.decode a).min (ff.decode b))
  | _ => ff.round mode false ((ff.decode a).max (ff.decode b))

/-- The tree of R168 over the 2^k lanes from `base`. -/
def redTree (op : Nat → Nat → Nat) (t : Nat → Nat) : Nat → Nat → Nat
  | 0, base => t base
  | k + 1, base => op (redTree op t k base) (redTree op t k (base + 2 ^ k))

/-- The inclusive value of R169 for lane `l` of a group of 2^n lanes. -/
def scanAt (op : Nat → Nat → Nat) (t : Nat → Nat) (n l : Nat) : Nat :=
  ((((List.range (n + 1)).reverse).foldl (fun (a : Option Nat × Nat) k =>
    if (l + 1) / 2 ^ k % 2 = 1 then
      let blk := redTree op t k a.2
      (some (match a.1 with | none => blk | some acc => op acc blk), a.2 + 2 ^ k)
    else a) (none, 0)).1).getD 0

/-- Each lane's input of REDG and SCANG: the identity where the lane does not pass (R168). -/
def redInput (c : Cur) (f : FmtR) (op l : Nat) : Nat :=
  if (c.pass f.com).getLsbD l then (c.rA f l).toNat % 2 ^ f.t.width else redIdent op f.t

/-- REDG (R434). -/
def execRedg (f : FmtR) (s : State) : Out :=
  onSplit s fun c =>
    let op := f.c.toNat % 16
    let r := redTree (redOp op f.t (FmtR.mode f)) (redInput c f op) (Nat.log2 c.group.width) 0
    s.put ((c.deferI (.redg f) 0 true).wrDest f.com f.ds f.t.is64 f.d fun _ => BitVec.ofNat 64 r)

/-- SCANG (R440). -/
def execScang (f : FmtR) (s : State) : Out :=
  onSplit s fun c =>
    let op := f.c.toNat % 16
    let at_ := scanAt (redOp op f.t (FmtR.mode f)) (redInput c f op) (Nat.log2 c.group.width)
    s.put ((c.deferI (.scang f) 0 true).wrDest f.com false f.t.is64 f.d fun l => BitVec.ofNat 64 (
      if f.c.getLsbD 4 then (if l = 0 then redIdent op f.t else at_ (l - 1)) else at_ l))

end Sys2Proof.Machine
end

