-- ==== Sys2Proof/Machine/Manage.lean ====
section
/-! DEFINITION. Lysja and the strip (01, 12): bridge frames (R9 to R12), failures and wraps (R15 to R20), partition modes (R23),
common time (R24 to R26), power (R30, R31), the mailbox (R33), lanes (R330, R331), and soft errors (R332). -/
namespace Sys2Proof.Machine

/-- A change of the management registers. -/
def State.modMgmt (s : State) (f : Mgmt → Mgmt) : State := { s with mgmt := f s.mgmt }
/-- A change of the conditions of HEALTH. -/
def State.modHealth (s : State) (f : Health → Health) : State := s.modMgmt fun m => { m with health := f m.health }

/-! ### Failures -/

/-- Some leaf or table under a node of a page table satisfies `bad` (R19): leaves of a node `levels` above them. -/
def State.reaches (s : State) (bad : Bool → DWord → Bool) : Nat → Nat → Bool
  | 0, node => (List.range 2048).any fun i =>
      let e := s.hbmWord (node + 8 * i)
      e.getLsbD 0 && bad true e
  | n + 1, node => (List.range 1024).any fun i =>
      let e := s.hbmWord (node + 8 * i)
      e.getLsbD 0 && (bad false e || s.reaches bad n (hbmBase (field e 12 4) + field e 16 25 * 2 ^ 13))

/-- A context has memory on a die, or interleaved over its partition (R19). -/
def State.memoryOn (s : State) (x d : Nat) : Bool :=
  let bad (leaf : Bool) (e : DWord) : Bool :=
    if leaf then field e 8 2 = 0 && (e.getLsbD 6 || field e 12 4 = d) else field e 12 4 = d
  (s.ctx x).rootDie = d || s.reaches bad 3 (hbmBase (s.ctx x).rootDie + (s.ctx x).rootOff)

/-- The contexts that a failed die ends (R19): of its device, with a team there or memory that it takes with it. -/
def State.lostWith (s : State) (d : Nat) : List Nat :=
  (s.ctxs.filter fun y => y.2.live && y.2.ended.isNone && ctxDevice y.1 = deviceOf s.mgmt.mode d &&
    (s.teams.any (fun t => t.2.ctx = y.1 && t.2.die = d) || s.memoryOn y.1 d)).map (·.1)

/-- The fault record of a context that an uncorrectable memory error ends (R332, R19): it names no split (log 101). -/
def State.eccRecord (s : State) (x detail : Nat) : List Byte :=
  let die := s.hostDie (ctxDevice x)
  faultRecord (trapInfo false 0 2 Cause.ecc.code (BitVec.ofNat 32 detail)) 0 (s.timeOf die) die 0 0 0 2 0

/-- A context ended by an uncorrectable memory error (R332, R19). -/
def State.eccEnd (s : State) (x detail : Nat) : State := s.endContext x Cause.ecc.code (s.eccRecord x detail) (s.hostDie (ctxDevice x))

/-- The header of a dump (R334) with its sections, and the sections' bytes. -/
def dumpBytes (d time : Nat) (health : DWord) (ring : Word) (sections : List (Nat × List Byte)) : List Byte :=
  let first := 0x20 + 16 * sections.length
  let entries := sections.foldl (fun (z : Nat × List Byte) q =>
    (z.1 + q.2.length, z.2 ++ bytesOfNat 8 z.1 ++ bytesOfNat 4 q.2.length ++ bytesOfNat 4 q.1)) (first, [])
  bytesOfNat 4 0x504D5544 ++ bytesOfNat 4 d ++ bytesOfNat 8 time ++ bytesOfNat 8 health.toNat ++ bytesOfNat 4 ring.toNat ++
    bytesOfNat 4 sections.length ++ entries.2 ++ sections.flatMap (·.2)

/-- What Lysja has to tell the host: through the mailbox of function 0, or, when the standby acts alone, through the fabric management
channel (R34, R334). -/
def State.signal (s : State) (d : Nat) : State :=
  s.modMgmt fun m => if m.alone then { m with reports := m.reports ++ [d] } else { m with mail := m.mail ++ [d] }

/-- A section whose contents the manual does not give: at most 4,096 free bytes (R334). -/
def State.freeSection (s : State) : State × List Byte := let q := s.pick 4097; q.1.freeBytes q.2

/-- The dump of a failure (R334), with RINGSTAT as the wrap will leave it: it is written into the HBM that Lysja reserves on a surviving
die, with the fault records of the contexts that the failure ended, and signalled. -/
def State.writeDump (s : State) (d : Nat) (records : List Byte) : State :=
  let dev := deviceOf s.mgmt.mode d
  let health := s.healthWord dev
  let ring := (s.modMgmt fun m => { m with brk := m.due.orElse fun _ => m.brk, falling := [] }).ringstat dev
  let time := s.mgmt.time
  let a := s.freeSection
  let b := a.1.freeSection
  let c := b.1.freeSection
  let e := c.1.freeSection
  let bytes := dumpBytes d time health ring [(1, a.2), (2, b.2), (3, records), (4, c.2), (5, e.2)]
  let at_ := ((List.range Config.dies).find? fun k => !(s.die k).failed).map fun k => hbmBase k + Config.dumpOffset d
  let s := match at_ with
    | some pa => e.1.hbmWrite pa bytes
    | none => e.1
  (s.modMgmt fun m => { m with dumps := m.dumps ++ [⟨d, time, health, ring, at_, bytes.length⟩] }).signal d

/-- What a failed die takes with it (R19): its cores with their L1 and local arrays, its HBM, and the stores on their way to or from
it. -/
def State.dropDie (s : State) (d : Nat) : State :=
  let mine (a : Nat) : Bool := a / 2 ^ 38 = d
  { s with hbm := s.hbm.filter fun e => !mine e.1, owned := s.owned.filter fun o => !mine (o.1 * 128) && o.2 / Config.cores ≠ d
           wbuf := s.wbuf.filter fun e => !mine e.pa && e.die ≠ d
           views := s.views.filter fun v => !mine v.pa && v.core / Config.cores ≠ d
           cores := s.cores.map fun k => (k.1, if k.1 / Config.cores = d then { badLanes := k.2.badLanes, removed := k.2.removed } else k.2) }

/-- A die leaves service (R15, R19): its contexts end, its teams and its memory are lost, and its partition is to be re-formed; a
device left without a die reports that it has failed. -/
def State.killDie (s : State) (d : Nat) : State :=
  if (s.die d).failed then s else
  let lost := s.lostWith d
  let s := (s.modDie d fun y => { y with failed := true }).modMgmt fun m => { m with falling := d :: m.falling }
  let records := lost.flatMap fun x => s.eccRecord x 7
  let s := lost.foldl (fun s x => s.eccEnd x 7) s
  let s := { s with teams := s.teams.filter fun t => t.2.die ≠ d }
  let s := lost.foldl (fun s x => s.releaseCtx x) s
  let s := s.dropDie d
  let dev := deviceOf s.mgmt.mode d
  let s := if (s.diesOf dev).isEmpty then s.modMgmt fun m => { m with lost := (dev :: m.lost).eraseDups }
    else s.modMgmt fun m => { m with closed := (dev :: m.closed).eraseDups, reform := (dev :: m.reform).eraseDups }
  s.writeDump d records

/-- The die, other than `d`, whose HBM holds a place. -/
def awayFrom (d : Nat) (p : Place) : Option Nat :=
  match p with | .hbm pa => if pa / 2 ^ 38 = d then none else some (pa / 2 ^ 38) | _ => none

/-- The dies between which a request goes, when the part has it to make (R12, R13): the accesses of lanes to another die's HBM, what begun
copies read or write there, the rows that drains write there, the tiles that ring engines hand on, and walks of tables there. -/
def State.stripRoute (s : State) (w : StripWhat) : Option (Nat × Nat) :=
  match w with
  | .lane team op lane half => (mget? s.teams team).bind fun t => (t.mayPerform op).bind fun m =>
      (m.lanes.find? fun l => l.lane = lane).bind fun l =>
        if m.units ≤ half || (mget? m.part (partKey lane half)).isSome then none else (awayFrom t.die l.place).map fun d => (t.die, d)
  | .seg team cmd i => (mget? s.teams team).bind fun t => (mget? t.cmds cmd).bind fun k => match k.kind with
      | .copy c => if !k.begun then none else (c.segs[i]?).bind fun g =>
          ((awayFrom t.die g.dst).orElse fun _ => awayFrom t.die g.src).map fun d => (t.die, d)
      | _ => none
  | .row core => match (s.core core).epq with
      | .drain d :: _ => if !d.global then none else
        (d.rows.head?).bind fun r =>
          let a := d.base + r.1 * d.pitch
          (mget? d.pages (a / 65536)).bind fun e => (mget? s.teams d.team).bind fun t => (s.placeOf t.ctx a e).bind fun p =>
            (awayFrom t.die p).map fun x => (t.die, x)
      | _ => none
  | .tile cmd x => (s.ringOfCmd cmd).bind fun q =>
      let k := q.2.2.2
      if !k.left.contains x then none else
      let next := if k.forwards x then (k.rank + (if k.goesCw x then 1 else k.n - 1)) % k.n else k.lands x
      (k.members[next]?).bind fun d => if d = k.die then none else some (k.die, d)
  | .walk die ctx _ => if (s.ctx ctx).rootDie = die then none else some (die, (s.ctx ctx).rootDie)

/-- Every request that the part has to make but for walks, which come and go at once. -/
def State.stripWhats (s : State) : List StripWhat :=
  (s.teams.flatMap fun t =>
    (t.2.mops.flatMap fun m => m.2.lanes.flatMap fun l => (List.range m.2.units).map fun h => StripWhat.lane t.1 m.1 l.lane h) ++
    t.2.cmds.flatMap fun q => match q.2.kind with
      | .ring k => k.left.map fun x => StripWhat.tile q.1 x
      | .copy c => (List.range c.segs.length).map fun i => StripWhat.seg t.1 q.1 i
      | _ => []) ++
  s.cores.filterMap fun k => match k.2.epq with | .drain _ :: _ => some (.row k.1) | _ => none

/-- A request goes out with the next number of its pair of dies, and its sender keeps it (R12). One that comes and goes within the step
that makes the access has no entry (log 95). -/
def State.stripSend (s : State) (w : StripWhat) : State :=
  match s.stripRoute w with
  | none => s
  | some (a, b) =>
    if s.mgmt.reqs.any fun r => r.what = w then s else
    let n := mget 0 s.mgmt.sent (a * 16 + b)
    s.modMgmt fun m => { m with sent := mput m.sent (a * 16 + b) (n + 1), reqs := m.reqs ++ [⟨a, b, n, w⟩] }

/-- An acknowledgement that a destination has given comes back: the sender keeps the request no longer (R12). -/
def State.stripAck (s : State) (src dst seq : Nat) : State :=
  if !s.mgmt.acks.contains (src, dst, seq) then s else
  s.modMgmt fun m => { m with acks := m.acks.erase (src, dst, seq), resend := m.resend.erase (src, dst, seq)
                              reqs := m.reqs.filter fun r => !(r.src = src && r.dst = dst && r.seq = seq) }

/-- What a request does where it arrives. -/
def State.stripApply (s : State) (w : StripWhat) : State :=
  let run (o : Out) : State := match o with | .next t => t | _ => s
  match w with
  | .lane team op lane half => s.lanePart team op lane half []
  | .seg team cmd i => match (mget? s.teams team).bind fun t => mget? t.cmds cmd with
      | some ⟨.copy c, _, _, _, _, _, _, _⟩ =>
        let first := ((c.segs.take i).map fun g => g.len / 4).foldl (· + ·) 0
        (List.range (((c.segs[i]?).map fun g => g.len / 4).getD 0)).foldl (fun s n => s.copyPart team cmd (first + n)) s
      | _ => s
  | .row core => run (execDrainRow core s)
  | .tile cmd x => match s.ringOfCmd cmd with
      | some q => run (if q.2.2.2.forwards x then execRingTileAccept cmd x s else execRingTileArrive cmd x s)
      | none => s
  | .walk die ctx va => match s.walk die ctx va with
      | .leaf e => (s.walkRecall none die ctx va).modDie die fun d => { d with tlb := tlbPut d.tlb ctx va e }
      | _ => s

/-- The boundaries that a failed element takes out of the rings (R15). -/
def Break.boundaries (b : Break) : List Nat := if b.kind then [b.fail] else [b.fail, (b.fail + Config.dies - 1) % Config.dies]

/-- A path from one die to another breaks with a failure. -/
def State.pathCut (s : State) (b : Break) (src dst : Nat) : Bool := (s.route src dst).any b.boundaries.contains

/-- The requests under way whose path a failure breaks have their numbers, and are sent again along the new one (R12); those whose access
has been made are done with. -/
def State.cutRequests (s : State) (b : Break) : State :=
  let cut := s.stripWhats.filter fun w => match s.stripRoute w with | some (x, y) => s.pathCut b x y | none => false
  let s := cut.foldl (fun s w => s.stripSend w) s
  s.modMgmt fun m =>
    let open_ := m.reqs.filter fun r => (s.stripRoute r.what).isSome
    { m with reqs := open_, resend := (m.resend ++ (open_.filter fun r => s.pathCut b r.src r.dst).map fun r => (r.src, r.dst, r.seq)).eraseDups }

/-- The devices whose ring has more than one member (R16, R18). -/
def State.ringDevices (s : State) : List Nat := s.devices.filter fun k => 1 < (s.diesOf k).length

/-- The surviving dies in order along the single ring from a break (R15). -/
def State.line (s : State) (b : Break) : List Nat :=
  sortCw ((b.fail + 1) % Config.dies) ((List.range Config.dies).filter fun d => !(s.die d).failed)

/-- The segment that goes out of service when a second element fails (R20): the one with fewer dies, or the one without the
lower-numbered die. -/
def loserOf (a b : List Nat) : List Nat :=
  if a.length < b.length then a else if b.length < a.length then b
  else if (a.foldl min Config.dies) < (b.foldl min Config.dies) then b else a

/-- The segments on either side of a second failure (R20). -/
def State.segments (s : State) (old new : Break) : List Nat × List Nat :=
  let start := (old.fail + 1) % Config.dies
  let ds := (s.line old).filter fun d => new.kind || d ≠ new.fail
  (ds.filter fun d => clockwise start d ≤ clockwise start new.fail, ds.filter fun d => clockwise start new.fail < clockwise start d)

/-- A failure declared (R15, R18 to R20): the wrap is due. After a second one the register names either element, freely. -/
def State.declare (s : State) (b : Break) : State :=
  let devs := s.ringDevices
  let before := s.mgmt.due.orElse fun _ => s.mgmt.brk
  let cut := match before with
    | none => []
    | some o => let g := s.segments o b; loserOf g.1 g.2
  let r : State × Nat := match before with | none => (s, 0) | some _ => s.pick 2
  let named := match before with
    | none => b
    | some o => if r.2 = 0 then o else b
  let s := (r.1.cutRequests b).modMgmt fun m => { m with
    due := some named, hit := (m.hit ++ devs).eraseDups, health := { m.health with rfr := true } }
  let s := if b.kind then s else s.killDie b.fail
  cut.foldl (fun s d => s.killDie d) s

/-- A die declared failed, if it was in service (R15). -/
def State.failDie (s : State) (d : Nat) : State :=
  if Config.dies ≤ d || (s.die d).failed then s else s.declare ⟨false, d⟩

/-- DIE_HEARTBEAT_TIMEOUT (R15). -/
def execDieHeartbeatTimeout (die : Nat) (s : State) : Out := .next (s.failDie die)
/-- DIE_FATAL_ERROR (R15). -/
def execDieFatalError (die : Nat) (s : State) : Out := .next (s.failDie die)
/-- DIE_OVERTEMP (R31). -/
def execDieOvertemp (die : Nat) (s : State) : Out := .next (s.failDie die)

/-- A byte of HBM is of a dump that the host has not acknowledged (R334). -/
def Mgmt.inDump (m : Mgmt) (a : Nat) : Bool := m.dumps.any fun d => d.at_.any fun pa => pa ≤ a && a < pa + d.len

/-- PARTITION_REFORM (R19): the interleaved area of the surviving dies reads zero, but for a dump there that the host has not acknowledged
(R334), and the ready queues open again. -/
def execPartitionReform (dev : Nat) (s : State) : Out :=
  .next (if !s.mgmt.reform.contains dev then s else
    let ds := s.diesOf dev
    let area (a : Nat) : Bool := ds.contains (a / 2 ^ 38) && s.ibase dev ≤ a % 2 ^ 38 && !s.mgmt.inDump a
    let s := { s with hbm := s.hbm.filter fun e => !area e.1, owned := s.owned.filter fun o => !area (o.1 * 128)
                      views := s.views.filter fun v => !area v.pa }
    s.modMgmt fun m => { m with
      reform := m.reform.erase dev, closed := if m.busy then m.closed else m.closed.erase dev, irq := m.irq + 1 })

/-- HOST_DUMP_ACK (R334): the oldest dump need not stay any longer. The host cannot reach the standby alone (R34). -/
def execHostDumpAck (s : State) : Out :=
  .next (if s.mgmt.alone then s else s.modMgmt fun m => { m with dumps := m.dumps.drop 1, mail := m.mail.drop 1 })

/-! ### Bridges -/

/-- The channels of one direction of a boundary, spares included (R9). -/
def linkCount : Nat := 104
/-- Frame channels of the package. -/
def allLinks : Nat := Config.dies * 2 * linkCount

/-- A frame channel changed. -/
def State.modLink (s : State) (k : Nat) (f : Link → Link) : State :=
  s.modMgmt fun m => { m with links := mput m.links k (f (mget {} m.links k)) }

/-- The die at which a channel ends: boundary `k` lies clockwise of die `k`, and the even direction runs clockwise. -/
def linkEnd (chan : Nat) : Nat := (chan / linkCount / 2 + (if chan / linkCount % 2 = 0 then 1 else 0)) % Config.dies
/-- The die at which it begins. -/
def linkStart (chan : Nat) : Nat := (chan / linkCount / 2 + (if chan / linkCount % 2 = 0 then 0 else 1)) % Config.dies

/-- The other direction of a boundary. -/
def otherWay (dir : Nat) : Nat := if dir % 2 = 0 then dir + 1 else dir - 1

/-- The channel that works in a channel's place: itself, or the spare that has taken it, and that one's (R11). -/
def Mgmt.worker (m : Mgmt) (chan : Nat) : Nat → Option Nat
  | 0 => none
  | n + 1 => if !(mget {} m.links chan).gone then some chan else (mget {} m.links chan).spare.bind fun k => m.worker k n

/-- The place in its direction that a channel has, by number (R11). -/
def Mgmt.place (m : Mgmt) (chan : Nat) : Nat → Nat
  | 0 => chan % linkCount
  | n + 1 => match m.links.find? fun l => l.2.spare = some chan with
    | some l => m.place l.1 n
    | none => chan % linkCount

/-- The channel whose control flits carry the acknowledgements of a channel's frames (R9, R11). The rules do not say which it is: DESIGN CHOICE,
the one that works in the same place of the other direction of the boundary, and where none does, the lowest that works there
(log 95). -/
def Mgmt.opposite (m : Mgmt) (chan : Nat) : Option Nat :=
  let dir := otherWay (chan / linkCount)
  (m.worker (dir * linkCount + m.place chan 5) 5).orElse fun _ =>
    (List.range 100).findSome? fun p => m.worker (dir * linkCount + p) 5

/-- Channels retired in one direction of a boundary. -/
def Mgmt.goneIn (m : Mgmt) (dir : Nat) : Nat := (m.links.filter fun l => l.1 / linkCount = dir && l.2.gone).length

/-- A spare of a direction that is neither retired nor in use (R11). -/
def Mgmt.freeSpare (m : Mgmt) (dir : Nat) : Option Nat :=
  ((List.range 4).map fun i => dir * linkCount + 100 + i).find? fun k =>
    !(mget {} m.links k).gone && !(m.links.any fun l => l.2.spare = some k)

/-- A channel carries frames: it is in service, and a spare has a channel's place. -/
def Mgmt.carries (m : Mgmt) (chan : Nat) : Bool :=
  chan < allLinks && !(mget {} m.links chan).gone && (chan % linkCount < 100 || m.links.any fun l => l.2.spare = some chan)

/-- A retired channel's place is taken by a spare, which sends the frames of its replay buffer again; without a spare what they carry is
sent again end to end (R11, R12). -/
def State.useSpare (s : State) (chan : Nat) (l : Link) : State :=
  if chan % linkCount ≥ 100 && !(s.mgmt.links.any fun x => x.2.spare = some chan) then s else
  match s.mgmt.freeSpare (chan / linkCount) with
  | some k =>
    (s.modLink chan fun x => { x with spare := some k }).modLink k fun _ =>
      { l with wire := l.buf.map (·.seq), want := false, fails := 0, gone := false, spare := none }
  | none => s.modMgmt fun m => { m with resend :=
      (m.resend ++ l.buf.flatMap fun f => (f.flits.map fun q => (q.src, q.dst, q.seq)).filter fun q => m.reqs.any fun r => (r.src, r.dst, r.seq) = q).eraseDups }

/-- A channel retired (R11). Below 50 working channels in a direction the boundary fails. -/
def State.retire (s : State) (chan : Nat) : State :=
  if allLinks ≤ chan || (mget {} s.mgmt.links chan).gone then s else
  let l := mget {} s.mgmt.links chan
  let s := (s.modLink chan fun l => { l with gone := true, want := false, buf := [], wire := [] }).useSpare chan l
  let dir := chan / linkCount
  let n := s.mgmt.goneIn dir
  let other := s.mgmt.goneIn (otherWay dir)
  let s := s.modHealth fun h => { h with chret := if 4 < n then h.chret + 1 else h.chret, rfr := h.rfr || decide (4 ≤ n) }
  if n = linkCount - 49 && other < linkCount - 49 then s.declare ⟨true, dir / 2⟩ else s

/-- CHANNEL_RETIRE (R11): firmware finds too many corrected errors. -/
def execChannelRetire (chan : Nat) (s : State) : Out := .next (s.retire chan)

/-- A channel crosses the next boundary of a route from where a flit of die `src` is, in the direction of the route. -/
def nextOn (chan src : Nat) (r : List Nat) (cw : Bool) : Bool :=
  let here := linkStart chan
  let next := if src = here then 0 else (r.findIdx? fun b => (if cw then (b + 1) % Config.dies else b) = here).elim r.length (· + 1)
  r[next]? = some (chan / linkCount / 2) && cw = decide (chan / linkCount % 2 = 0)

/-- A flit may leave on a channel: the route of a request between its dies, or of a reply, goes on there (R13, R14). -/
def State.onRoute (s : State) (chan : Nat) (f : Flit) : Bool :=
  nextOn chan f.src (s.route f.src f.dst) (s.goesCw f.src f.dst) || nextOn chan f.src (s.replyRoute f.dst f.src) (!s.goesCw f.dst f.src)

/-- A frame given to a channel (R9, R10): it enters the replay buffer, when one of the 32 places is free, and goes out. Flits of other dies
come from those in transit at the sending die, unchanged, and go on along their routes (R14); a request that was to be sent again has
been (R12). -/
def State.frameSend (s : State) (chan : Nat) (flits : List Flit) : State :=
  let l := mget {} s.mgmt.links chan
  let here := linkStart chan
  let held := mget [] s.mgmt.transit here
  let moved := flits.filter fun f => f.src ≠ here
  if !s.mgmt.carries chan || 32 ≤ l.buf.length || 15 < flits.length || flits.any (fun f => f.bytes.length ≠ 32 || !s.onRoute chan f) ||
    !moved.all (fun f => moved.count f ≤ held.count f) then s else
  let f : Frame := { seq := l.next, flits := flits }
  (s.modLink chan fun l => { l with next := l.next + 1, buf := l.buf ++ [f], wire := l.wire ++ [f.seq] }).modMgmt fun m => { m with
    transit := if moved.isEmpty then m.transit else mput m.transit here (moved.foldl (fun h f => h.erase f) held)
    resend := m.resend.filter fun r => !flits.any fun f => (f.src, f.dst, f.seq) = r }

/-- The next frame of a channel delivered (R9, R10): its flits, those for other dies in transit (R14), and the acknowledgements of its
control flit. -/
def State.deliverFrame (s : State) (chan : Nat) (f : Frame) : State :=
  let s := s.modLink chan fun l => { l with expect := f.seq + 1, fails := 0 }
  let acked (k : Nat) : Bool := k / linkCount = otherWay (chan / linkCount) && s.mgmt.opposite k = some chan
  let links := s.mgmt.links.map fun l => if acked l.1 then (l.1, { l.2 with buf := l.2.buf.filter fun g => l.2.expect ≤ g.seq }) else l
  let at_ := linkEnd chan
  s.modMgmt fun m => { m with
    links := links
    inbox := mput m.inbox at_ (mget [] m.inbox at_ ++ f.flits.filter fun q => q.dst = at_)
    transit := mput m.transit at_ (mget [] m.transit at_ ++ f.flits.filter fun q => q.dst ≠ at_) }

/-- FRAME_RECEIVE (R10, R11): the frame that the channel has sent comes in. What its FEC corrects is counted; one that fails its check
then is asked for again, but after eight failed replays the channel is retired; the next frame in order is delivered, and no
other. -/
def execFrameReceive (chan seq : Nat) (ok : Bool) (s : State) : Out :=
  let l := mget {} s.mgmt.links chan
  .next (if allLinks ≤ chan || l.gone then s else
    match l.wire.head?, l.buf.find? fun f => f.seq = seq with
    | some k, some f =>
      if k ≠ seq then s else
      let s := s.modLink chan fun l => { l with wire := l.wire.drop 1, hurt := 0, fixed := if l.hurt = 0 then l.fixed else l.fixed + 1 }
      let s := s.modHealth fun h => { h with cecc := min 255 (h.cecc + l.hurt) }
      if l.want || seq ≠ l.expect then s
      else if ok then s.deliverFrame chan f
      else if 8 ≤ l.fails then s.retire chan
      else s.modLink chan fun l => { l with want := true }
    | _, _ => s)

/-- FRAME_REPLAY (R10): the frame asked for, and every later one, is sent again from the replay buffer. -/
def execFrameReplay (chan : Nat) (s : State) : Out :=
  .next (if allLinks ≤ chan || !(mget {} s.mgmt.links chan).want then s
    else s.modLink chan fun l =>
      { l with want := false, fails := l.fails + 1, wire := (l.buf.map (·.seq)).filter fun k => l.expect ≤ k })

/-- Sequence numbers taken, gaps closed. -/
def SeqSeen.close (q : SeqSeen) : Nat → SeqSeen
  | 0 => q
  | n + 1 => if q.early.contains q.below then SeqSeen.close ⟨q.below + 1, q.early.erase q.below⟩ n else q

/-- REQUEST_ARRIVE (R12): a sequence number is taken once, and what its request does is done then; a duplicate is discarded and acknowledged
again. -/
def execRequestArrive (src dst seq : Nat) (s : State) : Out :=
  let k := src * 16 + dst
  let q := mget {} s.mgmt.seqs k
  .next (if Config.dies ≤ src || Config.dies ≤ dst then s else
    let s := s.modMgmt fun m => { m with
      acks := m.acks ++ [(src, dst, seq)]
      inbox := mmod m.inbox dst fun l => l.filter fun f => !(f.src = src && f.dst = dst && f.seq = seq) }
    if seq < q.below || q.early.contains seq then s else
    let q : SeqSeen := { q with early := seq :: q.early }
    let what := (s.mgmt.reqs.find? fun r => r.src = src && r.dst = dst && r.seq = seq).map (·.what)
    let s := s.modMgmt fun m => { m with seqs := mput m.seqs k (q.close q.early.length) }
    match what with
    | some w => s.stripApply w
    | none => s)

/-! ### Partition modes -/

/-- PARTMODE_REQUEST (R23). -/
def execPartmodeRequest (value : Word) (s : State) : Out := .next (s.requestMode value)

/-- Some remote request has not posted its completion (R23 step 3). -/
def State.remoteOpen (s : State) : Bool := s.fab.conns.any fun c => !c.2.reqs.isEmpty

/-- Every live context ends (R23 step 5). -/
def State.endAll (s : State) : State := (s.ctxs.map (·.1)).foldl (fun s x => s.hostEnd x) s

/-- Every resident team pre-empted, once each can be (R23 step 2). -/
def State.saveAll (s : State) : Option State :=
  let ts := s.residentTeams fun _ => true
  if ts.all s.canSave then some (s.preemptAll ts) else none

/-- MODE_CHANGE_COMPLETE (R23): steps 2 to 7, once the remote operations have posted their completions. -/
def execModeChangeComplete (s : State) : Out :=
  .next (if !s.mgmt.busy || s.remoteOpen then s else
    match s.saveAll with
    | none => s
    | some s =>
      let s := s.endAll
      if !s.teams.isEmpty then s else
      let onDie (d : Die) : Die := { d with tlb := [], l2 := [], queues := [], projs := [], skipped := [], blocking := [] }
      let onCore (k : CoreSt) : CoreSt := { k with l1 := [], tlb := [] }
      let s := { s with hbm := s.hbm.filter fun e => s.mgmt.inDump e.1, owned := [], wbuf := [], views := [], dies := mmap s.dies onDie, cores := mmap s.cores onCore }
      let s := s.modMgmt fun m => { m with
        mode := m.req, stat := 1, busy := false, closed := [], reform := [], irq := m.irq + 1, bar2Log := [] }
      s.modMgmt fun m => { m with lost := s.devices.filter fun k => (s.diesOf k).isEmpty })

/-- MODE_CHANGE_DRAIN_TIMEOUT (R23): the drain has taken too long; the mode stays, and its contexts are ended. -/
def execModeChangeDrainTimeout (s : State) : Out :=
  .next (if !s.mgmt.busy || !s.remoteOpen || s.mgmt.time < s.mgmt.since + s.mgmt.drain then s else
    match s.saveAll with
    | none => s
    | some s => (s.endAll).modMgmt fun m => { m with stat := 3, busy := false, closed := m.reform })

/-! ### Common time -/

/-- TIME_SYNC_MESSAGE (R24): a die's copy follows the master, at most 4 ns ahead of it, and never goes back. -/
def execTimeSyncMessage (die skew : Nat) (s : State) : Out :=
  .next (if Config.dies ≤ die || 4 < skew || s.mgmt.master = 1 then s else
    s.modDie die fun d => { d with skew := skew, time := max d.time (s.mgmt.time + skew) })

/-- Every die's copy follows the master, and never goes back (R24). -/
def State.followTime (s : State) : State :=
  { s with dies := (List.range Config.dies).foldl (fun m d =>
      let x := mget {} m d
      mput m d { x with time := max x.time (s.mgmt.time + x.skew) }) s.dies }

/-- The latest copy of common time, or the master's count. -/
def State.latestTime (s : State) : Nat := (List.range Config.dies).foldl (fun n d => max n (s.die d).time) s.mgmt.time

/-- TIME_MASTER_FAILOVER (R26): the West master fails, and the bound of R24 is not guaranteed; then the East I/O die has taken
over the count, behind no copy, and the copies follow it. -/
def execTimeMasterFailover (s : State) : Out :=
  .next (if s.mgmt.master = 0 then (s.modMgmt fun m => { m with master := 1 }).modHealth fun h => { h with tunc := true }
    else if s.mgmt.master = 1 then
      (((s.account (s.latestTime - s.mgmt.time)).modMgmt fun m => { m with master := 2, time := s.latestTime }).modHealth fun h => { h with tunc := false }).followTime
    else s)

/-! ### Lanes -/

/-- LANEMAP of a slot with given failed lanes (R330, R331). -/
def laneWord (bad : List Nat) : DWord :=
  let lo := bad.filter (· < 32)
  let hi := bad.filter (32 ≤ ·)
  let v0 := match lo with | l :: _ => 32 + l | [] => 0
  let v1 := match hi with | l :: _ => 2 ^ 13 + (l - 32) * 2 ^ 8 | [] => 0
  let two := if 2 ≤ lo.length then 2 ^ 17 + 2 ^ 16 else if 2 ≤ hi.length then 2 ^ 16 else 0
  BitVec.ofNat 64 (v0 + v1 + two)

/-- LANEMAP of every slot of a core brought up to date (R331). -/
def CoreSt.refreshLanes (k : CoreSt) : CoreSt := { k with lanemap := k.badLanes.map fun e => (e.1, laneWord e.2) }

/-- The resident teams of a core. -/
def State.residentOn (s : State) (core : Nat) : List Nat := s.residentTeams fun t => t.coreKey = core

/-- LANE_FAILURE (R331): a test, which has pre-empted the core's teams, finds a failed lane. The third one of a slot removes the
core from placement. -/
def execLaneFailure (core slot lane : Nat) (s : State) : Out :=
  .next (if Config.dies * Config.cores ≤ core || Config.slots ≤ slot || 64 ≤ lane then s else
    let bad := mget [] (s.core core).badLanes slot
    let ts := s.residentOn core
    if bad.contains lane || !ts.all s.canSave then s else
    (s.preemptAll ts).modCore core fun k => ({ k with
      badLanes := mput k.badLanes slot (bad ++ [lane]), removed := k.removed || decide (2 ≤ bad.length) }).refreshLanes)

/-- IN_SERVICE_TEST (R331): the core's teams are pre-empted, and the scheduler puts them back. -/
def execInServiceTest (core : Nat) (s : State) : Out :=
  let ts := s.residentOn core
  .next (if ts.all s.canSave then (s.preemptAll ts).modCore core CoreSt.refreshLanes else s)

/-! ### Bring-up, power, firmware, mailbox -/

/-- The cores as bring-up finds them: their failed lanes stay failed. -/
def CoreSt.atBringup (k : CoreSt) : CoreSt := ({ badLanes := k.badLanes, removed := k.removed } : CoreSt).refreshLanes

/-- The break in effect at once, with no ring command in flight. -/
def State.wrapNow (s : State) : State := s.modMgmt fun m => { m with brk := m.due.orElse fun _ => m.brk, due := none, hit := [], falling := [] }

/-- POWER_ON_BRINGUP (R32): the state after reset in the stored mode, with common time started; bits 15:0 of `failed` name dies and
bits 31:16 boundaries that fail (R15). A request for replacement stands (R333). -/
def execPowerOnBringup (stored failed : Nat) (s : State) : Out :=
  let m : Mgmt :=
    { mode := if stored < 3 then stored else 0, bank := s.mgmt.bank, staged := s.mgmt.staged, start := s.mgmt.start
      time := s.mgmt.start, health := { rfr := s.needsReplacing } }
  let fresh : State :=
    { agenda := s.agenda, free := s.free, nextId := s.nextId, mgmt := m
      dies := (List.range Config.dies).map fun d => (d, { time := s.mgmt.start }), cores := mmap s.cores CoreSt.atBringup }
  let s := (List.range Config.dies).foldl (fun s d => if failed.testBit d then (s.failDie d).wrapNow else s) fresh
  .next ((List.range Config.dies).foldl (fun s b => if failed.testBit (16 + b) then (s.declare ⟨true, b⟩).wrapNow else s) s)

/-- The power cap set, within its bounds, and left as it is by a value outside them (R30; log 102). -/
def State.setCap (s : State) (watts : Nat) : State :=
  if 6000 ≤ watts && watts ≤ 11000 then s.modMgmt fun m => { m with cap := watts } else s

/-- POWER_CAP_SET (R30): through the mailbox, which does not reach the standby alone (R34). -/
def execPowerCapSet (watts : Nat) (s : State) : Out := .next (if s.mgmt.alone then s else s.setCap watts)

/-- POWER_GATING (R30): vector issue is gated, on the hottest dies, only where matrix issue is gated already. -/
def execPowerGating (matrix vector : List Nat) (s : State) : Out :=
  .next (if vector.all matrix.contains then s.modMgmt fun m => { m with gateM := matrix, gateV := vector } else s)

/-- THERMAL_LIMIT (R31): THERM stays set until bring-up (log 103). -/
def execThermalLimit (s : State) : Out :=
  .next ((s.modMgmt fun m => { m with cap := 6000 }).modHealth fun h => { h with therm := true })

/-- FIRMWARE_BANK_SWITCH (R33). -/
def execFirmwareBankSwitch (s : State) : Out :=
  .next (if s.mgmt.staged then s.modMgmt fun m => { m with bank := 1 - m.bank, staged := false } else s)

/-- LYSJA_WATCHDOG_TAKEOVER (R34): the standby acts alone, and the host cannot reach it. -/
def execLysjaWatchdogTakeover (s : State) : Out := .next (s.modMgmt fun m => { m with alone := true })

/-- HEALTH_SAMPLE (R33, R332). -/
def execHealthSample (corrected : Nat) (s : State) : Out := .next (s.modHealth fun h => { h with cecc := min 255 corrected })
/-- ECC_CORRECTED (R332). -/
def execEccCorrected (count : Nat) (s : State) : Out := .next (s.modHealth fun h => { h with cecc := min 255 (h.cecc + count) })

/-- ECC_UNCORRECTABLE (R332): the owner's context ends with ECC and the place of the error, 1 to 6; with no owner the die fails. -/
def execEccUncorrectable (owner : Option Nat) (die kind : Nat) (s : State) : Out :=
  .next (match owner with
    | some x => if 1 ≤ kind && kind ≤ 6 then s.eccEnd x kind else s
    | none => s.failDie die)

/-- A hardware work queue bound (R91): die, context, local queue, hardware queue, descriptor. R91 does not say what becomes of a
binding of a hardware queue that is bound elsewhere, of a number out of range, or for a context that is not live: DESIGN CHOICE,
nothing (log 116). -/
def State.bindWork (s : State) (die ctx q hw desc : Nat) : State :=
  let taken := (s.die die).queues.any fun e => e.2.hw = hw && e.1 ≠ ctx * 16 + q
  if Config.dies ≤ die || 16 ≤ q || 64 ≤ hw || taken || !(s.ctx ctx).live then s
  else s.modDie die fun d => { d with queues := mput d.queues (ctx * 16 + q) ⟨hw, desc⟩ }

/-- A remote queue bound (R296): die, context, queue, descriptor, whose software fields are read and whose own fields begin at
zero; one with a zero bit of PEER, PCTX or CQB set is not bound, and other zero bits are not looked at (logs 92, 99). -/
def State.bindRemote (s : State) (die ctx q desc : Nat) : State :=
  if Config.dies ≤ die || 16 ≤ q || !(s.ctx ctx).live || (s.ctx ctx).ended.isSome then s else
  match s.vRead die ctx desc 64 with
  | none => s
  | some b =>
    let qctl := le b 0x10 4
    let log := qctl % 32
    if 2 ^ 17 ≤ le b 0 4 || 64 ≤ le b 4 4 || le b 8 8 % 4096 ≠ 0 || 2 ^ 57 ≤ le b 8 8 || log < 4 || 16 < log then s else
    let k := connKey die ctx q
    let c : Conn :=
      { ctx := ctx, die := die, desc := desc, peer := le b 0 4, pctx := le b 4 4, cqb := le b 8 8, cqlog := log
        win := (qctl / 2 ^ 12 % 2 ^ 12 + 1) * 16384 }
    ((s.recallSpan die ctx desc 64 { rd := true }).modFab fun f => { f with conns := mput f.conns k c }).showConn k

/-- A context created by the host driver, in place of one that has ended and holds nothing any more: root die and offset,
privilege, owner, fault queue base and records, save area. Nothing of the ended one's translations, copies or dictionaries is left. -/
def State.newCtx (s : State) (x rootDie rootOff priv owner fqBase fqSize save : Nat) : State :=
  let free : Bool := !(s.ctx x).live || (s.ctx x).ended.isSome
  if 64 * nDevices s.mgmt.mode ≤ x || !free || s.teams.any (fun t => t.2.ctx = x) then s else
  let y : Context :=
    { live := true, owner := BitVec.ofNat 32 (owner % 65536), rootDie := rootDie, rootOff := rootOff, priv := decide (priv ≠ 0)
      fqBase := BitVec.ofNat 64 fqBase, fqSize := fqSize, saveArea := BitVec.ofNat 64 save }
  let purge (k : CoreSt) : CoreSt :=
    { k with holder := k.holder.filter fun h => h.2 ≠ x, dicts := k.dicts.filter fun d => d.1 ≠ x
             tlb := k.tlb.filter fun e => e.1 / 2 ^ 41 ≠ x }
  let ofDie (d : Die) : Die := { d with tlb := d.tlb.filter fun e => e.1 / 2 ^ 41 ≠ x, l2 := d.l2.filter fun e => e.1 / 2 ^ 64 ≠ x }
  { s with ctxs := mput s.ctxs x y, dies := mmap s.dies ofDie, cores := mmap s.cores purge, fab := { s.fab with conns := s.fab.conns.filter fun c => c.2.ctx ≠ x } }

/-- MAILBOX_COMMAND (R25, R23, R30, R33, R91, R197, R255, R296, R306): a command of function 0, by its number and operands, which
are the model's own (log 100); the standby alone cannot be reached (R34). R197 speaks of "the driver's management table" without
saying whether each device's BAR2 window has one of its own: DESIGN CHOICE, one table for all of them (log 117). -/
def execMailboxCommand (m : Mailbox) (s : State) : Out :=
  .next (if s.mgmt.alone then s else
    match m.cmd, m.args with
    | 1, [v] => s.modMgmt fun m => { m with start := v % 2 ^ 64 }
    | 2, [v] => s.modMgmt fun m => { m with drain := v }
    | 3, [v] => s.setCap v
    | 4, owner :: key :: lists =>
      s.modFab fun f => { f with admitTab := f.admitTab.filter (fun e => e.owner ≠ owner) ++ [⟨owner, BitVec.ofNat 64 key, lists⟩] }
    | 5, [ch] => s.modFab fun f => { f with isol := f.isol.erase ch }
    | 6, [die, ctx, q, hw, desc] => s.bindWork die ctx q hw desc
    | 7, [die, ctx, q, desc] => s.bindRemote die ctx q desc
    | 8, [x, rootDie, rootOff, priv, owner, fqBase, fqSize, save] => s.newCtx x rootDie rootOff priv owner fqBase fqSize save
    | 9, [dev, v] => s.modMgmt fun m => { m with ibase := mput m.ibase dev v }
    | 10, [] => s.modMgmt fun m => { m with staged := true }
    | 11, [die, v] => s.modDie die fun d => { d with flhead := BitVec.ofNat 64 v &&& 0x01FFFFFFFFFFF000 }
    | 12, [vpn, leaf] => s.modMgmt fun m => { m with mtab := if leaf = 0 then mdel m.mtab vpn else mput m.mtab vpn (BitVec.ofNat 64 leaf) }
    | _, _ => s)

end Sys2Proof.Machine
end

