-- ==== Sys2Proof/Machine/System.lean ====
section
/-! DEFINITION. The system registers (R150) and values (R149), and the system instructions MOVSR, MOVSV, TIME, CYCLE, PGDIST
and SETFMT (R366, R411 to R414, R419, R446, R457). -/
namespace Sys2Proof.Machine

/-- The access codes of R150. -/
inductive SysAccess where
  | u | ur | p
deriving DecidableEq, Repr

/-- The access of a system register; none for an identifier absent from R150. -/
def sysAccess (id : Nat) : Option SysAccess :=
  match id with
  | 0x01 | 0x03 | 0x10 | 0x11 | 0x12 | 0x13 | 0x14 | 0x15 | 0x20 | 0x21 | 0x31 | 0x33 => some .u
  | 0x02 | 0x40 | 0x41 | 0x51 => some .ur
  | 0x30 | 0x32 | 0x50 | 0x60 | 0x61 | 0x62 | 0x70 | 0x71 => some .p
  | _ => none

/-- A written value as the register's map stores it (R3, R412). -/
def sysStored (id : Nat) (v : DWord) : DWord :=
  match id with
  | 0x01 | 0x03 => v &&& 0x01FFFFFFFFFFFFF8
  | 0x12 | 0x15 => v &&& 0x7FFF
  | 0x20 => v &&& 0xFFFFC
  | 0x21 => v &&& 0x01FFFFFFFFFFFF80
  | 0x30 | 0x31 => v &&& 0x01FFFFFFFFFFF01F
  | 0x32 => v &&& 0x01FFFFFFFFFFF000
  | 0x33 => BitVec.ofNat 64 (max 1 (field v 8 16) * 2 ^ 8 + min 64 (field v 0 7))
  | 0x62 => v &&& 0xFFFF
  | 0x70 => BitVec.ofNat 64 (max 64 (field v 0 16))
  | 0x71 => BitVec.ofNat 64 (min 65536 (field v 8 17) * 2 ^ 8 + field v 0 2)
  | _ => v

/-- A register that a group holds (R150). -/
def GroupRegs.get (r : GroupRegs) (id : Nat) : DWord :=
  match id with
  | 0x01 => r.trapvec | 0x02 => r.trapinfo | 0x03 => r.trappc
  | 0x10 => r.sctba | 0x11 => r.scsba | 0x12 => r.scga.setWidth 64
  | 0x13 => r.sctbb | 0x14 => r.scsbb | 0x15 => r.scgb.setWidth 64
  | 0x20 => r.epprog.setWidth 64 | 0x21 => r.epconst
  | _ => 0

/-- A register that a group holds, written with a stored value. -/
def GroupRegs.set (r : GroupRegs) (id : Nat) (v : DWord) : GroupRegs :=
  match id with
  | 0x01 => { r with trapvec := v } | 0x03 => { r with trappc := v }
  | 0x10 => { r with sctba := v } | 0x11 => { r with scsba := v } | 0x12 => { r with scga := loWord v }
  | 0x13 => { r with sctbb := v } | 0x14 => { r with scsbb := v } | 0x15 => { r with scgb := loWord v }
  | 0x20 => { r with epprog := loWord v } | 0x21 => { r with epconst := v }
  | _ => r

/-- A register held per context, die, slot, device, partition, owner or package, as a group of core `core`, context `x`,
slot `slot` reads it. FABKEY reads 0 (R306). -/
def State.sharedGet (s : State) (die core slot x id : Nat) : DWord :=
  match id with
  | 0x30 => (s.ctx x).strandtab
  | 0x31 => (s.ctx x).pfxtab
  | 0x32 => (s.die die).flhead
  | 0x33 => (s.ctx x).densef.setWidth 64
  | 0x40 => mget 0 (s.core core).lanemap slot
  | 0x41 => s.healthWord (ctxDevice x)
  | 0x50 => s.mgmt.partmode.setWidth 64
  | 0x51 => (s.ringstat (ctxDevice x)).setWidth 64
  | 0x60 => s.fab.slottab
  | 0x62 => (s.ctx x).owner.setWidth 64
  | 0x70 => (s.die die).fairtime.setWidth 64
  | 0x71 => (s.ctx x).prio.setWidth 64
  | _ => 0

/-- A register that no group holds, written with a stored value: PARTMODE and SLOTTAB have behaviour of their own (R23,
R291). -/
def State.sharedSet (s : State) (die x id : Nat) (v : DWord) : State :=
  match id with
  | 0x30 => s.modCtx x fun y => { y with strandtab := v }
  | 0x31 => s.modCtx x fun y => { y with pfxtab := v }
  | 0x32 => s.modDie die fun d => { d with flhead := v }
  | 0x33 => s.modCtx x fun y => { y with densef := loWord v }
  | 0x50 => s.requestMode (loWord v)
  | 0x60 => s.writeSlottab die x v
  | 0x61 => s.modFab fun f => { f with keys := mput f.keys (s.ctx x).owner.toNat v }
  | 0x62 => s.modCtx x fun y => { y with owner := loWord v }
  | 0x70 => s.modDie die fun d => { d with fairtime := loWord v }
  | 0x71 => s.modCtx x fun y => { y with prio := loWord v }
  | _ => s

/-- A register is one that a group holds. -/
def sysOfGroup (id : Nat) : Bool := id < 0x30

/-- A system register as the acting split reads it. -/
def State.sysGet (s : State) (c : Cur) (id : Nat) : DWord :=
  if sysOfGroup id then c.group.regs.get id
  else s.sharedGet c.team.die c.team.coreKey c.group.slot c.team.ctx id

/-- A system register written by the acting split (R412, R413). -/
def State.sysSet (s : State) (c : Cur) (id : Nat) (v : DWord) : State :=
  if sysOfGroup id then s.put { c with group := { c.group with regs := c.group.regs.set id (sysStored id v) } }
  else s.sharedSet c.team.die c.team.ctx id (sysStored id v)

/-- An access that R412 refuses. -/
def State.sysDenied (s : State) (c : Cur) (id : Nat) (write : Bool) : Bool :=
  match sysAccess id with
  | none => true
  | some .u => false
  | some .ur => write
  | some .p => !(s.ctx c.team.ctx).priv

/-- MOVSR, read (R411, R412). -/
def execMovsr (f : FmtS) (s : State) : Out :=
  onSplit s fun c =>
    if !c.acts f.com then s
    else if s.sysDenied c f.sys.toNat false then s.protAt c 3
    else s.put (c.wrDest f.com true (sysWide f.sys.toNat) f.d fun _ => s.sysGet c f.sys.toNat)

/-- MOVSR, write (R411 to R413). -/
def execMovsrWrite (f : FmtS) (s : State) : Out :=
  onSplit s fun c =>
    if !c.acts f.com then s
    else if s.sysDenied c f.sys.toNat true then s.protAt c 3
    else s.sysSet c f.sys.toNat (if sysWide f.sys.toNat then c.rdPair f.a.toNat else (c.rdS f.a.toNat).setWidth 64)

/-- SYSTEM_REGISTER_WRITE (R412): the host driver writes a register of a context or a die, which stores the value as its map
states. -/
def execSystemRegisterWrite (die ctx id : Nat) (value : DWord) (s : State) : Out :=
  .next (match id with
    | 0x30 | 0x31 | 0x32 | 0x33 | 0x61 | 0x62 | 0x70 | 0x71 => s.sharedSet die ctx id (sysStored id value)
    | _ => s)

/-- The part of a task that MOVSV reads. -/
def Cur.sysTask {α : Type} [Inhabited α] (s : State) (c : Cur) (f : Task → α) : α := ((s.taskOf c.team).map f).getD default

/-- A system value in a lane (R149): the arguments' and the task record's addresses in halves, the count of teams capped from 2^32 on,
and the context, its owner, device and count of devices (R86) among them. -/
def State.sysValue (s : State) (c : Cur) (id lane : Nat) : Word :=
  let n (k : Nat) : Word := BitVec.ofNat 32 k
  let g := c.group
  match id with
  | 0x00 => n lane
  | 0x01 => n (g.base + lane / 4)
  | 0x02 => n g.width
  | 0x03 => n c.ref.group
  | 0x04 => n c.ref.split
  | 0x05 => n c.team.index
  | 0x06 => n (c.team.index / 2 ^ 32)
  | 0x07 => match s.taskOf c.team with
    | some k => if k.graph then 1 else if k.teams < 2 ^ 32 then n k.teams else 0xFFFFFFFF
    | none => 0
  | 0x08 => n g.role
  | 0x09 => n g.roleIdx
  | 0x0A => n c.team.core
  | 0x0B => n c.team.die
  | 0x0C => Cur.sysTask s c (·.gridId)
  | 0x0D => loWord (Cur.sysTask s c (·.args))
  | 0x0E => hiWord (Cur.sysTask s c (·.args))
  | 0x0F => g.recBase
  | 0x10 => g.recCnt
  | 0x11 => n (c.team.ctx % 64)
  | 0x12 => (s.ctx c.team.ctx).owner
  | 0x13 => n (ctxDevice c.team.ctx)
  | 0x14 => n (nDevices s.mgmt.mode)
  | 0x15 => loWord c.split.mask
  | 0x16 => hiWord c.split.mask
  | 0x17 => n (Cur.sysTask s c (·.addr))
  | _ => n (Cur.sysTask s c (·.addr) / 2 ^ 32)

/-- MOVSV (R414). -/
def execMovsv (f : FmtS) (s : State) : Out :=
  onSplit s fun c => s.put (c.wrDest f.com (f.imm = 1) false f.d fun l => (s.sysValue c f.a.toNat l).setWidth 64)

/-- A system instruction that reads one value into scalars when some lane passes (R338). -/
def readScalar (f : FmtS) (wide : Bool) (s : State) (val : Cur → DWord) : Out :=
  onSplit s fun c => s.put (c.wrDest f.com true wide f.d fun _ => val c)

/-- CYCLE (R366). -/
def execCycle (f : FmtS) (s : State) : Out := readScalar f true s fun c => BitVec.ofNat 64 (s.die c.team.die).cycle

/-- A long-latency read of one value, whose destination stays pending for its window (R124, R125); another split reads the new value
at once (log 105). -/
def readLate (i : Instr) (f : FmtS) (wide : Bool) (s : State) (val : Cur → DWord) : Out :=
  onSplit s fun c =>
    if !c.acts f.com then s else
    s.put ((c.deferI i 0 true).wrDest f.com true wide f.d fun _ => val c)

/-- TIME (R457). -/
def execTime (f : FmtS) (s : State) : Out :=
  readLate (.time f) f true s fun c => BitVec.ofNat 64 (s.timeOf c.team.die)

/-- PGDIST (R200, R419). -/
def execPgdist (f : FmtS) (s : State) : Out :=
  readLate (.pgdist f) f false s fun c => (s.pgdist c.team.die c.team.ctx (c.rdPair f.a.toNat)).setWidth 64

/-- SETFMT (R446); a value that breaks R151 does not come here. -/
def execSetfmt (f : FmtS) (s : State) : Out :=
  onSplit s fun c => if c.acts f.com then s.put { c with split := { c.split with fmt := f.imm } } else s

end Sys2Proof.Machine
end

