-- ==== Sys2Proof/Machine/Dispatch.lean ====
section
/-! DEFINITION. The one place where an instruction or an event gets its meaning: one arm for each row of the
opcode table. -/
namespace Sys2Proof.Machine

def exec (i : Instr) (s : State) : Host.Outcome State Fault Refusal :=
  match i with
  | .nop c => Sys2Proof.Machine.execNop c s
  | .iadd f => Sys2Proof.Machine.execIadd f s
  | .iaddImm f => Sys2Proof.Machine.execIaddImm f s
  | .isub f => Sys2Proof.Machine.execIsub f s
  | .isubImm f => Sys2Proof.Machine.execIsubImm f s
  | .imul f => Sys2Proof.Machine.execImul f s
  | .imulImm f => Sys2Proof.Machine.execImulImm f s
  | .imad f => Sys2Proof.Machine.execImad f s
  | .imin f => Sys2Proof.Machine.execImin f s
  | .iminImm f => Sys2Proof.Machine.execIminImm f s
  | .imax f => Sys2Proof.Machine.execImax f s
  | .imaxImm f => Sys2Proof.Machine.execImaxImm f s
  | .iabs f => Sys2Proof.Machine.execIabs f s
  | .icmp f => Sys2Proof.Machine.execIcmp f s
  | .icmpImm f => Sys2Proof.Machine.execIcmpImm f s
  | .shl f => Sys2Proof.Machine.execShl f s
  | .shlImm f => Sys2Proof.Machine.execShlImm f s
  | .shr f => Sys2Proof.Machine.execShr f s
  | .shrImm f => Sys2Proof.Machine.execShrImm f s
  | .sar f => Sys2Proof.Machine.execSar f s
  | .sarImm f => Sys2Proof.Machine.execSarImm f s
  | .log3 f => Sys2Proof.Machine.execLog3 f s
  | .popc f => Sys2Proof.Machine.execPopc f s
  | .clz f => Sys2Proof.Machine.execClz f s
  | .brev f => Sys2Proof.Machine.execBrev f s
  | .bfx f => Sys2Proof.Machine.execBfx f s
  | .bfi f => Sys2Proof.Machine.execBfi f s
  | .lea f => Sys2Proof.Machine.execLea f s
  | .sel f => Sys2Proof.Machine.execSel f s
  | .mov f => Sys2Proof.Machine.execMov f s
  | .movi f => Sys2Proof.Machine.execMovi f s
  | .fadd f => Sys2Proof.Machine.execFadd f s
  | .faddImm f => Sys2Proof.Machine.execFaddImm f s
  | .fmul f => Sys2Proof.Machine.execFmul f s
  | .fmulImm f => Sys2Proof.Machine.execFmulImm f s
  | .ffma f => Sys2Proof.Machine.execFfma f s
  | .fmin f => Sys2Proof.Machine.execFmin f s
  | .fminImm f => Sys2Proof.Machine.execFminImm f s
  | .fmax f => Sys2Proof.Machine.execFmax f s
  | .fmaxImm f => Sys2Proof.Machine.execFmaxImm f s
  | .fcmp f => Sys2Proof.Machine.execFcmp f s
  | .fcmpImm f => Sys2Proof.Machine.execFcmpImm f s
  | .frcp f => Sys2Proof.Machine.execFrcp f s
  | .frsq f => Sys2Proof.Machine.execFrsq f s
  | .fsqrt f => Sys2Proof.Machine.execFsqrt f s
  | .fex2 f => Sys2Proof.Machine.execFex2 f s
  | .flg2 f => Sys2Proof.Machine.execFlg2 f s
  | .fsin f => Sys2Proof.Machine.execFsin f s
  | .fcos f => Sys2Proof.Machine.execFcos f s
  | .ftanh f => Sys2Proof.Machine.execFtanh f s
  | .cvt f => Sys2Proof.Machine.execCvt f s
  | .cvtef f => Sys2Proof.Machine.execCvtef f s
  | .pack4 f => Sys2Proof.Machine.execPack4 f s
  | .unpk4 f => Sys2Proof.Machine.execUnpk4 f s
  | .shfl f => Sys2Proof.Machine.execShfl f s
  | .vote f => Sys2Proof.Machine.execVote f s
  | .redg f => Sys2Proof.Machine.execRedg f s
  | .scang f => Sys2Proof.Machine.execScang f s
  | .ld f => Sys2Proof.Machine.execLd f s
  | .st f => Sys2Proof.Machine.execSt f s
  | .ldrsv f => Sys2Proof.Machine.execLdrsv f s
  | .stcnd f => Sys2Proof.Machine.execStcnd f s
  | .atom f => Sys2Proof.Machine.execAtom f s
  | .atcas f => Sys2Proof.Machine.execAtcas f s
  | .red f => Sys2Proof.Machine.execRed f s
  | .fence f => Sys2Proof.Machine.execFence f s
  | .pref f => Sys2Proof.Machine.execPref f s
  | .stashm f => Sys2Proof.Machine.execStashm f s
  | .stashw f => Sys2Proof.Machine.execStashw f s
  | .stashu f => Sys2Proof.Machine.execStashu f s
  | .cpy f => Sys2Proof.Machine.execCpy f s
  | .cpyt f => Sys2Proof.Machine.execCpyt f s
  | .closeb f => Sys2Proof.Machine.execCloseb f s
  | .waitb f => Sys2Proof.Machine.execWaitb f s
  | .bufcfg f => Sys2Proof.Machine.execBufcfg f s
  | .bufwait f => Sys2Proof.Machine.execBufwait f s
  | .bufrel f => Sys2Proof.Machine.execBufrel f s
  | .lnstart f => Sys2Proof.Machine.execLnstart f s
  | .lnstop f => Sys2Proof.Machine.execLnstop f s
  | .mma f => Sys2Proof.Machine.execMma f s
  | .mmas f => Sys2Proof.Machine.execMmas f s
  | .mdrain f => Sys2Proof.Machine.execMdrain f s
  | .epload f => Sys2Proof.Machine.execEpload f s
  | .bra f => Sys2Proof.Machine.execBra f s
  | .brx f => Sys2Proof.Machine.execBrx f s
  | .call f => Sys2Proof.Machine.execCall f s
  | .ret f => Sys2Proof.Machine.execRet f s
  | .retT f => Sys2Proof.Machine.execRetT f s
  | .merge f => Sys2Proof.Machine.execMerge f s
  | .loop f => Sys2Proof.Machine.execLoop f s
  | .exit f => Sys2Proof.Machine.execExit f s
  | .yield f => Sys2Proof.Machine.execYield f s
  | .trap f => Sys2Proof.Machine.execTrap f s
  | .bkpt f => Sys2Proof.Machine.execBkpt f s
  | .bar f => Sys2Proof.Machine.execBar f s
  | .bara f => Sys2Proof.Machine.execBara f s
  | .barw f => Sys2Proof.Machine.execBarw f s
  | .movsr f => Sys2Proof.Machine.execMovsr f s
  | .movsrWrite f => Sys2Proof.Machine.execMovsrWrite f s
  | .movsv f => Sys2Proof.Machine.execMovsv f s
  | .time f => Sys2Proof.Machine.execTime f s
  | .cycle f => Sys2Proof.Machine.execCycle f s
  | .pgdist f => Sys2Proof.Machine.execPgdist f s
  | .setfmt f => Sys2Proof.Machine.execSetfmt f s
  | .rag f => Sys2Proof.Machine.execRag f s
  | .rrs f => Sys2Proof.Machine.execRrs f s
  | .rhnd f => Sys2Proof.Machine.execRhnd f s
  | .rwait f => Sys2Proof.Machine.execRwait f s
  | .rrank f => Sys2Proof.Machine.execRrank f s
  | .rput f => Sys2Proof.Machine.execRput f s
  | .rget f => Sys2Proof.Machine.execRget f s
  | .ratom f => Sys2Proof.Machine.execRatom f s
  | .rpost f => Sys2Proof.Machine.execRpost f s
  | .rpostGet f => Sys2Proof.Machine.execRpostGet f s
  | .rcqw f => Sys2Proof.Machine.execRcqw f s
  | .wreg f => Sys2Proof.Machine.execWreg f s
  | .wrev f => Sys2Proof.Machine.execWrev f s
  | .tasknew f => Sys2Proof.Machine.execTasknew f s
  | .taskdec f => Sys2Proof.Machine.execTaskdec f s
  | .temit f => Sys2Proof.Machine.execTemit f s
  | .qpull f => Sys2Proof.Machine.execQpull f s
  | .qpush f => Sys2Proof.Machine.execQpush f s
  | .qpushClose f => Sys2Proof.Machine.execQpushClose f s
  | .arrv f => Sys2Proof.Machine.execArrv f s
  | .snew f => Sys2Proof.Machine.execSnew f s
  | .sres f => Sys2Proof.Machine.execSres f s
  | .scommit f => Sys2Proof.Machine.execScommit f s
  | .sfork f => Sys2Proof.Machine.execSfork f s
  | .slen f => Sys2Proof.Machine.execSlen f s
  | .srel f => Sys2Proof.Machine.execSrel f s
  | .sseek f => Sys2Proof.Machine.execSseek f s
  | .kst f => Sys2Proof.Machine.execKst f s
  | .bgath f => Sys2Proof.Machine.execBgath f s
  | .projld f => Sys2Proof.Machine.execProjld f s
  | .projldFree f => Sys2Proof.Machine.execProjldFree f s
  | .flpop f => Sys2Proof.Machine.execFlpop f s
  | .flpush f => Sys2Proof.Machine.execFlpush f s
  | .pfxfind f => Sys2Proof.Machine.execPfxfind f s
  | .pfxins f => Sys2Proof.Machine.execPfxins f s
  | .hashb f => Sys2Proof.Machine.execHashb f s
  | .plcq f => Sys2Proof.Machine.execPlcq f s
  | .plcqShort f => Sys2Proof.Machine.execPlcqShort f s
  | .epadd f => Sys2Proof.Machine.execEpadd f s
  | .epmul f => Sys2Proof.Machine.execEpmul f s
  | .epfma f => Sys2Proof.Machine.execEpfma f s
  | .epmax f => Sys2Proof.Machine.execEpmax f s
  | .epmin f => Sys2Proof.Machine.execEpmin f s
  | .epexp f => Sys2Proof.Machine.execEpexp f s
  | .eplut f => Sys2Proof.Machine.execEplut f s
  | .epcvt f => Sys2Proof.Machine.execEpcvt f s
  | .epbias f => Sys2Proof.Machine.execEpbias f s
  | .epscl f => Sys2Proof.Machine.execEpscl f s
  | .epst f => Sys2Proof.Machine.execEpst f s
  | .epend => Sys2Proof.Machine.execEpend s
  | .clauseBegin r => Sys2Proof.Machine.execClauseBegin r s
  | .splitMerge r other => Sys2Proof.Machine.execSplitMerge r other s
  | .mergeComplete team group => Sys2Proof.Machine.execMergeComplete team group s
  | .parkTimeout r => Sys2Proof.Machine.execParkTimeout r s
  | .fairnessYield r => Sys2Proof.Machine.execFairnessYield r s
  | .loadReturn team op ext => Sys2Proof.Machine.execLoadReturn team op ext s
  | .storePerformed team op => Sys2Proof.Machine.execStorePerformed team op s
  | .splitExitComplete r => Sys2Proof.Machine.execSplitExitComplete r s
  | .matrixOpComplete core op => Sys2Proof.Machine.execMatrixOpComplete core op s
  | .matrixPassStart core op => Sys2Proof.Machine.execMatrixPassStart core op s
  | .drainRow core => Sys2Proof.Machine.execDrainRow core s
  | .epiloguePlaceTake team place => Sys2Proof.Machine.execEpiloguePlaceTake team place s
  | .copyComplete team cmd => Sys2Proof.Machine.execCopyComplete team cmd s
  | .engineCommandStart team cmd => Sys2Proof.Machine.execEngineCommandStart team cmd s
  | .engineCommandComplete team cmd => Sys2Proof.Machine.execEngineCommandComplete team cmd s
  | .bufferEntryTake team cmd => Sys2Proof.Machine.execBufferEntryTake team cmd s
  | .bufcfgTakeEffect team cmd => Sys2Proof.Machine.execBufcfgTakeEffect team cmd s
  | .windlassRunStart team => Sys2Proof.Machine.execWindlassRunStart team s
  | .windlassIteration team => Sys2Proof.Machine.execWindlassIteration team s
  | .qpullWake r => Sys2Proof.Machine.execQpullWake r s
  | .qpushAppend team cmd => Sys2Proof.Machine.execQpushAppend team cmd s
  | .projldTakeEffect team cmd => Sys2Proof.Machine.execProjldTakeEffect team cmd s
  | .dieSchedulerPlace p => Sys2Proof.Machine.execDieSchedulerPlace p s
  | .taskBlocking die task => Sys2Proof.Machine.execTaskBlocking die task s
  | .starvationForcedPlacement ctx p => Sys2Proof.Machine.execStarvationForcedPlacement ctx p s
  | .teamCompletionEvent team => Sys2Proof.Machine.execTeamCompletionEvent team s
  | .graphRecordWritten team cmd => Sys2Proof.Machine.execGraphRecordWritten team cmd s
  | .graphNodeLaunch p => Sys2Proof.Machine.execGraphNodeLaunch p s
  | .graphFlushTimeout p => Sys2Proof.Machine.execGraphFlushTimeout p s
  | .hostTaskDoorbell ctx rec => Sys2Proof.Machine.execHostTaskDoorbell ctx rec s
  | .stashRecall team win line => Sys2Proof.Machine.execStashRecall team win line s
  | .weathervaneDecay die => Sys2Proof.Machine.execWeathervaneDecay die s
  | .migrationRequest die ctx vpn => Sys2Proof.Machine.execMigrationRequest die ctx vpn s
  | .tlbInvalidateCommand ctx lo len => Sys2Proof.Machine.execTlbInvalidateCommand ctx lo len s
  | .hostBar2Access a => Sys2Proof.Machine.execHostBar2Access a s
  | .hostContextResume ctx => Sys2Proof.Machine.execHostContextResume ctx s
  | .hostContextSwitch ctx die => Sys2Proof.Machine.execHostContextSwitch ctx die s
  | .contextEnd ctx => Sys2Proof.Machine.execContextEnd ctx s
  | .hostSetDebugMode ctx mode breaks => Sys2Proof.Machine.execHostSetDebugMode ctx mode breaks s
  | .teamStop ctx team => Sys2Proof.Machine.execTeamStop ctx team s
  | .hostSingleStep r => Sys2Proof.Machine.execHostSingleStep r s
  | .hostResumeGroup team group => Sys2Proof.Machine.execHostResumeGroup team group s
  | .frameReceive chan seq ok => Sys2Proof.Machine.execFrameReceive chan seq ok s
  | .frameReplay chan => Sys2Proof.Machine.execFrameReplay chan s
  | .channelRetire chan => Sys2Proof.Machine.execChannelRetire chan s
  | .requestArrive src dst seq => Sys2Proof.Machine.execRequestArrive src dst seq s
  | .dieHeartbeatTimeout die => Sys2Proof.Machine.execDieHeartbeatTimeout die s
  | .dieFatalError die => Sys2Proof.Machine.execDieFatalError die s
  | .dieOvertemp die => Sys2Proof.Machine.execDieOvertemp die s
  | .wrapEffect => Sys2Proof.Machine.execWrapEffect s
  | .partitionReform dev => Sys2Proof.Machine.execPartitionReform dev s
  | .hostDumpAck => Sys2Proof.Machine.execHostDumpAck s
  | .partmodeRequest value => Sys2Proof.Machine.execPartmodeRequest value s
  | .modeChangeComplete => Sys2Proof.Machine.execModeChangeComplete s
  | .modeChangeDrainTimeout => Sys2Proof.Machine.execModeChangeDrainTimeout s
  | .timeSyncMessage die skew => Sys2Proof.Machine.execTimeSyncMessage die skew s
  | .timeMasterFailover => Sys2Proof.Machine.execTimeMasterFailover s
  | .powerOnBringup stored failed => Sys2Proof.Machine.execPowerOnBringup stored failed s
  | .powerCapSet watts => Sys2Proof.Machine.execPowerCapSet watts s
  | .powerGating matrix vector => Sys2Proof.Machine.execPowerGating matrix vector s
  | .thermalLimit => Sys2Proof.Machine.execThermalLimit s
  | .firmwareBankSwitch => Sys2Proof.Machine.execFirmwareBankSwitch s
  | .mailboxCommand m => Sys2Proof.Machine.execMailboxCommand m s
  | .healthSample corrected => Sys2Proof.Machine.execHealthSample corrected s
  | .lysjaWatchdogTakeover => Sys2Proof.Machine.execLysjaWatchdogTakeover s
  | .laneFailure core slot lane => Sys2Proof.Machine.execLaneFailure core slot lane s
  | .eccCorrected count => Sys2Proof.Machine.execEccCorrected count s
  | .eccUncorrectable owner die kind => Sys2Proof.Machine.execEccUncorrectable owner die kind s
  | .ringTileArrive cmd tile => Sys2Proof.Machine.execRingTileArrive cmd tile s
  | .ringTileAccept cmd tile => Sys2Proof.Machine.execRingTileAccept cmd tile s
  | .rwaitSatisfied r => Sys2Proof.Machine.execRwaitSatisfied r s
  | .fabricSlotBegin slot dark => Sys2Proof.Machine.execFabricSlotBegin slot dark s
  | .slottabEnable ctx value => Sys2Proof.Machine.execSlottabEnable ctx value s
  | .slottabDisable value => Sys2Proof.Machine.execSlottabDisable value s
  | .slotTableTakeEffect => Sys2Proof.Machine.execSlotTableTakeEffect s
  | .fabricPacketReceive p => Sys2Proof.Machine.execFabricPacketReceive p s
  | .relayForward p => Sys2Proof.Machine.execRelayForward p s
  | .fabricAckReceive queue epoch items => Sys2Proof.Machine.execFabricAckReceive queue epoch items s
  | .fabricRetransmit queue => Sys2Proof.Machine.execFabricRetransmit queue s
  | .connectionReset queue => Sys2Proof.Machine.execConnectionReset queue s
  | .rpostDeadline queue => Sys2Proof.Machine.execRpostDeadline queue s
  | .rcqwSatisfied queue => Sys2Proof.Machine.execRcqwSatisfied queue s
  | .channelIsolation chan => Sys2Proof.Machine.execChannelIsolation chan s
  | .systemRegisterWrite die ctx id value => Sys2Proof.Machine.execSystemRegisterWrite die ctx id value s
  | .inServiceTest core => Sys2Proof.Machine.execInServiceTest core s

end Sys2Proof.Machine
end

