-- ==== Sys2Proof/Machine/Units.lean ====
section
/-! DEFINITION. When a unit of the core holds an instruction on its port: the matrix scoreboard and queue (R127,
R231), gated issue (R30), the footprint tracker (R222), and a buffer or projection set that is to change (R355, R425). -/
namespace Sys2Proof.Machine

/-- An accumulator tile in flight (R127): its group, octet and first register, and for an octet operation its type. -/
structure Tile where
  group : Nat
  octet : Nat
  reg   : Nat
  acc   : Option Nat
deriving DecidableEq, Repr

/-- The tile of an octet operation. -/
def MatOp.tile (o : MatOp) : Tile := ⟨o.group, o.octet, o.dreg, some o.acc⟩
/-- The tiles of a drain, held until its last row (R127). -/
def Drain.tiles (d : Drain) : List Tile := d.octets.map fun o => ⟨d.group, o, d.acc, none⟩
/-- The tiles of an epilogue item. -/
def EpItem.tiles : EpItem → List Tile
  | .load _ _ => []
  | .drain d => d.tiles

/-- The tiles of a team's operations and drains in flight. -/
def State.tilesOf (s : State) (tid : Nat) (t : Team) : List Tile :=
  let k := s.core t.coreKey
  (k.mq.flatMap fun q => (q.2.filter fun o => o.team = tid).map MatOp.tile) ++
    ((k.epq.filter fun i => i.isOf tid).flatMap EpItem.tiles) ++ t.ep.wait.flatMap fun w => w.1.tiles

/-- The instruction chains behind the operation that owns the tile (R127): its use of its own accumulator is exempt. The rule does not
say whether `the same TC` is the field or the type that it names: DESIGN CHOICE, the type, so that TC 0 chains behind a TC 3 that
FMT.ACC resolves to it (log 112). -/
def Cur.chains (c : Cur) (i : Instr) (q : Tile) : Bool :=
  match i with
  | .mma f | .mmas f => !f.zc && q.reg = f.d.toNat && q.acc = some (c.matTypes f).2
  | _ => false

/-- A use of registers meets a tile, and is not the accumulator of an instruction that chains behind it (R127). -/
def Cur.meets (c : Cur) (i : Instr) (u : RegUse) (q : Tile) : Bool :=
  u.file == .v && u.first < q.reg + 16 && q.reg < u.first + u.count && !(u.first = q.reg && u.write && c.chains i q)

/-- The lanes in which an instruction uses a register: those that pass its guard, and those whose source a SHFL moves there
(R447). -/
def Cur.usesIn (c : Cur) (i : Instr) (k : Com) (u : RegUse) : Lanes :=
  match i with
  | .shfl f =>
    let srcs := (lanes (c.pass k)).foldl (fun m l =>
      m ||| laneBit (shflSrc c (f.c.toNat % 4) (f.c.toNat / 4 % 8) l (c.rB1 f l).toNat).1) 0
    if u.write then c.pass k else
    (if u.first = f.a.toNat then srcs else 0) ||| (if u.first = f.b.toNat then c.pass k else 0)
  | _ => c.pass k

/-- The registers from which an operation in the queue still reads A, and B when it is in registers (R127, R229): first register and
count. Other operations have read theirs at issue. -/
def MatOp.unread (o : MatOp) : List (Nat × Nat) :=
  let n := if o.shape = 2 then 32 else 16
  match o.regs with
  | none => []
  | some (a, b) => (a, n) :: match b with | some b => [(b, 2 * n)] | none => []

/-- The instruction writes a register that an operation of its group in the queue has not read yet (R127). -/
def State.readHolds (s : State) (c : Cur) (i : Instr) (k : Com) : Bool :=
  (s.core c.team.coreKey).mq.any fun q => q.2.any fun o => o.team = c.ref.team && o.group = c.ref.group && o.unread.any fun f =>
    i.check.regs.any fun u => u.file == .v && u.write && u.first < f.1 + f.2 && f.1 < u.first + u.count &&
      c.usesIn i k u &&& octetLanes o.octet != 0

/-- The matrix scoreboard (R127). -/
def State.scoreHolds (s : State) (c : Cur) (i : Instr) : Bool :=
  match i.com? with
  | none => false
  | some k => c.acts k && (s.readHolds c i k || (s.tilesOf c.ref.team c.team).any fun q =>
      q.group = c.ref.group && i.check.regs.any fun u => c.usesIn i k u &&& octetLanes q.octet != 0 && c.meets i u q)

/-- Too few free entries in the slot's queue (R231). -/
def State.queueHolds (s : State) (c : Cur) (i : Instr) : Bool :=
  match i with
  | .mma f | .mmas f =>
    match c.octets f.com with
    | .ok os => 16 < (mget [] (s.core c.team.coreKey).mq c.group.slot).length + os.length
    | .error _ => false
  | _ => false

/-- Issue gated on a die by the power manager (R30). -/
def State.gateHolds (s : State) (die : Nat) (i : Instr) : Bool :=
  match i with
  | .mma _ | .mmas _ => s.mgmt.gateM.contains die
  | _ => s.mgmt.gateV.contains die && i.cls == 0

/-- The circular buffer that an instruction names (R241). -/
def bufNamed : Instr → Option Nat
  | .cpy f | .cpyt f => if f.flg.getLsbD 2 then some f.qb.toNat else none
  | .bufwait f | .bufrel f => some f.qb.toNat
  | .mdrain f => if f.sub.toNat % 4 = 2 then some f.qb.toNat else none
  | .mma f | .mmas f => if f.bb then some f.b.toNat else none
  | _ => none

/-- How many entries of its buffer, from HEAD on, a consumer needs (R243): none for what is no consumer. -/
def consumes : Instr → Option Nat
  | .bufwait f => some (f.flg.toNat % 16 + 1)
  | .bufrel f => some (f.flg.toNat % 32)
  | .mma f | .mmas f => if f.bb then some 1 else none
  | _ => none

/-- The first `n` entries of a buffer from HEAD on are taken, or a producer of the team waits to take them (R242). -/
def Team.promised (t : Team) (b n : Nat) : Bool :=
  let waiting := (t.cmds.filter fun q => match q.2.kind with | .copy c => c.buf = some b && c.entry.isNone | _ => false).length +
    (t.ep.wait.filter fun w => match w.1 with | .drain d => d.buf = some b && d.entry.isNone | _ => false).length
  (t.buf b).head + n ≤ (t.buf b).tail + waiting

/-- A BUFCFG that has not taken effect holds what names its buffer, and every LNSTART (R355). A consumer whose entries come from
producers before the BUFCFG goes on: without it they might never free theirs. -/
def Cur.bufHolds (c : Cur) (i : Instr) : Bool :=
  c.team.cmds.any fun q => match q.2.kind with
    | .bufcfg b _ => match i with
      | .lnstart _ => true
      | _ => bufNamed i = some b && !((consumes i).map (c.team.promised b)).getD false
    | _ => false

/-- A PROJLD of the die that has not taken effect holds KST and BGATH (R425). -/
def State.projHolds (s : State) (c : Cur) (i : Instr) : Bool :=
  match i with
  | .kst _ | .bgath _ => s.teams.any fun t => t.2.die = c.team.die && t.2.cmds.any fun q =>
      match q.2.kind with | .projld _ _ _ => true | _ => false
  | _ => false

/-- The footprint tracker is full (R222). -/
def State.trackHolds (s : State) (c : Cur) (i : Instr) : Bool :=
  (i.cls == 4 || (match i with | .mdrain _ | .epload _ => true | _ => false)) && 64 ≤ s.tracked c.team.coreKey

/-- An access of the split that a plain load of one of an MMAS's scale words would follow is not performed yet (R204, R236). -/
def State.scaleHolds (s : State) (c : Cur) (i : Instr) : Bool :=
  match i with
  | .mmas f =>
    match c.octets f.com with
    | .ok os =>
      match os.mapM fun o => c.scaleAddrs f o with
      | some as => !(c.depsOf 0 4 (as.flatten.filterMap fun a =>
          match s.laneCheck c.team false (BitVec.ofNat 64 a) 4 { rd := true } with
          | .ok p _ => some ⟨0, a, p, 0, 0⟩
          | _ => none) false).isEmpty
      | none => false
    | .error _ => false
  | _ => false

/-- A unit holds the instruction, whatever earlier commands of its team are in its way (R30, R127, R222, R231, R236, R355, R425). -/
def State.unitBusy (s : State) (c : Cur) (i : Instr) : Bool :=
  s.gateHolds c.team.die i || s.queueHolds c i || s.scoreHolds c i || s.trackHolds c i || c.bufHolds i || s.projHolds c i ||
    s.scaleHolds c i

/-- A unit holds the instruction, or an earlier command of its team does (R222). -/
def State.unitHolds (s : State) (c : Cur) (i : Instr) : Bool := s.unitBusy c.settled i || s.footHolds c.settled i

end Sys2Proof.Machine
end

