-- ==== Sys2Proof/Machine/Issue.lean ====
section
/-! DEFINITION. The port: when an instruction of an open clause may issue (R108, R125, R127, R213, R222), what its
issue does around its meaning, the end of a clause, and the inputs that are no event. -/
namespace Sys2Proof.Machine

/-- OR of an access (R116): bit 0 acquire, bit 1 release. -/
def orderOf : Instr → BitVec 2
  | .ld f | .st f | .ldrsv f | .stcnd f | .atom f | .atcas f | .red f | .fence f => f.ord
  | _ => 0

/-- An instruction that acts as a release of the split's prior accesses when some lane passes: barrier arrivals
(R64) and engine commands, which observe them (R221). -/
def releasesPrior (i : Instr) : Bool :=
  match i with
  | .bar _ | .bara _ | .mdrain _ => true
  | _ => i.cls == 4

/-- Accesses of the split that are issued and not performed. -/
def Cur.inFlight (c : Cur) : Bool := !c.split.ctrs.ldc.isEmpty || !c.split.ctrs.stc.isEmpty

/-- A fence of order `ord` waits: with a release part for every access of the split in flight, with an acquire part
alone for the reads among them (R204, R213). -/
def Cur.orderHolds (c : Cur) (ord : BitVec 2) : Bool :=
  if ord.getLsbD 1 then c.inFlight
  else ord.getLsbD 0 && c.outstanding.any fun q =>
    match q.2.kind with
    | .st | .stashMap | .stash _ _ => false
    | _ => true

/-- The port holds the instruction because of prior accesses: a fence, or an access with an order whose lanes are all
guarded off and which acts as one (R212, R213), a barrier arrival, an engine command (R64, R221), or a TIME (R458). -/
def Cur.fenceHolds (c : Cur) (i : Instr) : Bool :=
  let c := c.settled
  match i.com? with
  | none => false
  | some k =>
    match i with
    | .fence f =>
      c.orderHolds f.ord || (f.off.getLsbD 0 && !(c.split.ctrs.cpc.isEmpty && c.split.ctrs.mxc.isEmpty && c.split.ctrs.enc.isEmpty))
    | .time _ => c.outstanding.any fun q => q.2.ord % 2 = 1
    | _ => (!c.acts k && c.orderHolds (orderOf i)) || (releasesPrior i && c.acts k && c.inFlight)

/-- The instruction's counter is full (R108). -/
def Cur.counterFull (c : Cur) (i : Instr) : Bool :=
  match i.counter with
  | some x => 63 ≤ (c.split.ctrs.get x).length
  | none => false

/-- A pending write whose window has closed holds every instruction (R125). -/
def Cur.windowHolds (c : Cur) : Bool := c.split.pend.any fun p => p.window = 0 && !p.landed

/-- The windows after one more instruction of the split has issued (R125). -/
def Split.tick (p : Split) : Split :=
  { p with pend := (p.pend.filter fun q => !(q.window = 0 && q.landed)).map fun q => { q with window := q.window - 1 } }

/-- The instruction writes a register that an open window covers (R125). -/
def Cur.hazard (c : Cur) (i : Instr) : Bool :=
  c.split.pend.any fun q => !(q.window = 0 && q.landed) &&
    ((destRegs i .v).any q.dv.contains || (destRegs i .s).any q.ds.contains ||
      ((destRegs i .p).filter (· < 7)).any q.dp.contains)

/-- The words of the clause that have not issued, without the first; the index moves on. -/
def Split.advance (p : Split) (i : Instr) : Split :=
  { p.tick with code := p.code.drop 1, idx := p.idx + 1, waits := false, stalls := false, needRe := p.needRe || i.commitPoint }

/-- The end of a clause: an open clause with no word left, of a split that is not parked, is closed (R101, R399).
A split of an ended context stops there (R315). -/
def State.finish (s : State) (r : Ref) : State :=
  match s.lookup? r with
  | none => s
  | some c =>
    let s := if c.split.opn && c.split.code.isEmpty && c.split.park = .none then s.put c.fall else s
    match s.lookup? r with
    | some c => if c.team.status = .ending && !c.split.opn then (s.endSplit r).reap r.team else s
    | none => s

/-- What an instruction that acts as a release makes visible first (R64, R221): a barrier arrival to the team, an engine command
everywhere, since the command observes it at the home slices. -/
def State.releases (s : State) (c : Cur) (i : Instr) : State :=
  if releasesPrior i && (i.com?.map c.acts).getD false then
    s.raiseFor c.ref.team c.ref.group (match i with | .bar _ | .bara _ => 1 | _ => 4)
  else s

/-- The pages that a command issued since name `id` translates are counted for their migration (R180), and the lines that its walks
and its effect read recalled from their owners (R191). -/
def State.countPages (s : State) (c : Cur) (id : Nat) : State :=
  match mget? s.teams c.ref.team with
  | none => s
  | some t => (t.cmds.filter fun k => id ≤ k.1).foldl (fun s k => (k.2.vpns.foldl (fun s p =>
      (s.walkRecall none t.die t.ctx (p * 65536)).countMigr t.die t.ctx (p * 65536)
        (s.translate t.die t.ctx (BitVec.ofNat 64 (p * 65536)) {})) s).recallAll k.2.touched) s

/-- The split with the window that an instruction no lane of which passes opens all the same (R125): one that acts for the split as
a whole has no other effect there (R338); the others open it in their meanings. -/
def State.guardedWindow (s : State) (c : Cur) (i : Instr) : State :=
  if i.longLatency && 4 ≤ i.cls && !(i.com?.map c.acts).getD false then s.emptyWindow c.ref i else s

/-- The state in which an instruction's meaning runs: its word taken off the clause, its index and windows moved on, and what a
release makes visible made so. -/
def State.issuing (s : State) (c : Cur) (i : Instr) : State :=
  ((s.put { c with split := c.split.advance i }).releases c i).guardedWindow c i

/-- As `Group.scalarsWritten`, for the destination of an instruction that some lane passed; `c` is its split as it issued. -/
def State.noteScalars (t : State) (c : Cur) (i : Instr) : State :=
  match destRegs i .s with
  | [] => t
  | ns => if (i.com?.map c.acts).getD false then t.modGroup c.ref.team c.ref.group fun g => g.scalarsWritten c.group.s c.ref.split ns else t

/-- Vector registers that an instruction wrote in the lanes that passed read as written from then on (R141). -/
def State.noteVectors (t : State) (c : Cur) (i : Instr) : State :=
  let ns := destRegs i .v
  if c.split.staleV.isEmpty || ns.isEmpty then t else
  let m := (i.com?.map c.pass).getD 0
  t.modSplit c.ref fun p => { p with staleV := p.staleV.filter fun e => !(m.getLsbD (e.1 / 256) && ns.contains (e.1 % 256)) }

/-- A command whose effect an instruction made, or began, keeps the footprint that it declared until it is complete (R222, R223). -/
def Cmd.declaring (fs : List Foot) (k : Cmd) : Cmd :=
  match k.kind with
  | .effected | .signed _ | .temit _ _ _ | .lnstart | .epload | .remote _ _ => { k with foot := fs ++ k.foot }
  | _ => k

/-- The commands issued since name `id` with the footprint that their instruction declared at `s` (R223). -/
def State.footed (t s : State) (c : Cur) (i : Instr) : State :=
  if (t.teams.any fun q => q.1 = c.ref.team && q.2.cmds.any fun k => s.nextId ≤ k.1) then
    let fs := s.declares c.settled i
    t.modTeam c.ref.team fun q => { q with cmds := q.cmds.map fun k => (k.1, if s.nextId ≤ k.1 then k.2.declaring fs else k.2) }
  else t

/-- What follows the meaning `t` of an instruction that issued at `s`. -/
def State.issued (s : State) (c : Cur) (i : Instr) (t : State) : State :=
  (((((t.footed s c i).countPages c s.nextId).noteScalars c i).noteVectors c i).unask fun a =>
    a.who = .split c.ref.group c.ref.split && a.team = some c.ref.team).finish c.ref

/-- An instruction that makes its effect later enters its team's commands (R221, R222): its destination is written when it has taken
effect, and one outside the long-latency set lets nothing issue until then (R124). -/
def State.later (s : State) (c d : Cur) (i : Instr) (k : CmdKind) (foot : List Foot) (vps : List Nat) : State :=
  let (s₁, id) := s.fresh
  let d := d.command i id ⟨k, c.ref.group, c.ref.split, foot, false, false, vps, none⟩
  let d := if (destRegs i .s).isEmpty && (destRegs i .p).isEmpty then d else d.deferI i id false
  ((s₁.put d).noteScalars c i).finish c.ref

/-- An instruction of an open clause issues as a command whose effect comes later, if its meaning would post a command now (R221,
R222). -/
def State.handOver (s : State) (c : Cur) (i : Instr) : Option State :=
  let s₁ := s.issuing c i
  match (s₁.ran c.ref i).2, s₁.lookup? c.ref with
  | some _, some d =>
    let vps := (s.declared c.settled i).flatMap fun x => if x.loc then [] else vpages x.addr x.len
    some ((s₁.later c d i (.later (s.heldFor c.team d.newGroup vps)) (s.declares c.settled i) vps).countPages c s.nextId)
  | _, _ => none

/-- A QPULL that an item waits for takes it now and fetches it after its issue (R221, R427). -/
def State.handItem (s : State) (c : Cur) (f : FmtE) : Option State :=
  let s₁ := s.issuing c (.qpull f)
  (s₁.lookup? c.ref).bind fun d => (s₁.takeItem d f).bind fun r => (r.1.lookup? c.ref).map fun d =>
    r.1.later c d (.qpull f) (.item r.2.1 f.s0.toNat r.2.2.1) r.2.2.2 []

/-- The pieces of peers' pages that an instruction reads at its issue (R180, R184): the tables, records and constants of engine
commands, and the scales of an MMAS. -/
def State.issueReads (s : State) (c : Cur) (i : Instr) : List (Place × Nat) :=
  if !(i.com?.map c.acts).getD false then [] else
  ((match i with
    | .mmas f => s.scaleReads c f
    | .rag _ | .rrs _ | .rhnd _ | .rpost _ | .rpostGet _ | .mdrain _ | .epload _ | .lnstart _ =>
      (s.declares c i).map fun f => (f.place, f.len)
    | _ => []) : List (Place × Nat)).filter fun p => !(peerCuts p).isEmpty

/-- An instruction whose effect takes bytes of a peer's page, or is made there (R180): a KST, HASHB or ARRV that goes on as a command. -/
def State.goesAway (s : State) (c : Cur) (i : Instr) : Bool :=
  match i with
  | .kst _ | .hashb _ | .arrv _ => (i.com?.map c.acts).getD false && (s.declares c i).any fun f => !(peerCuts (f.place, f.len)).isEmpty
  | _ => false

/-- What an instruction that is free to issue waits for at peers' pages (R180): none when there is nothing; else the state in which its
split stalls on its port until it has come, or the instruction has issued as a command that waits for it. -/
def State.peersHold (s : State) (c : Cur) (i : Instr) : Option State :=
  if s.goesAway c.settled i then s.handOver c i
  else (s.needPeers (.split c.ref.group c.ref.split) (some c.ref.team) c.team.ctx (s.issueReads c.settled i)).map fun s =>
    s.put { c with split := { c.split with stalls := true } }

/-- One instruction of an open clause issues, unless its port holds it (R125, R127). Behind an earlier command of its team a command
issues and waits in the tracker (R222; log 77); what reads at its issue stalls on its port until the earlier one is complete, and so
does a command that would trap as things stand. -/
def State.issue (s : State) (c : Cur) (i : Instr) : Out :=
  if c.windowHolds || c.counterFull i || c.fenceHolds i || s.unitBusy c.settled i then .next s
  else if c.hazard i then .next (s.fatal c.ref .hazard (BitVec.ofNat 32 (c.split.idx % 16)))
  else if s.footHolds c.settled i then
    .next (((if mayWait i then s.handOver c i else none)).getD (s.put { c with split := { c.split with stalls := true } }))
  else match s.peersHold c i with
    | some t => .next t
    | none => match exec i (s.issuing c i) with
      | .next t => .next (s.issued c i t)
      | o => o

/-- The next instruction of a split's open clause issues as a command whose effect comes later (R221). -/
def State.issueLater (s : State) (r : Ref) : State :=
  match s.lookup? r, s.lookup? r |>.map (·.split.code) with
  | some c, some (w :: _) =>
    match decodeWord w with
    | .error _ => s
    | .ok i =>
      if c.team.status ≠ .resident || !c.split.opn || c.split.park ≠ .none || (c.split.waits && !s.portOpen c) || !mayWait i ||
        (i.illegal c.group.budget).isSome || !(i.com?.map c.acts).getD false || c.windowHolds || c.counterFull i || c.fenceHolds i ||
        s.unitBusy c.settled i || c.hazard i then s else
      match i with
      | .qpull f => if s.footHolds c.settled i then s else (s.handItem c f).getD s
      | _ => (s.handOver c i).getD s
  | _, _ => s

/-- The split that is to act takes one step: a word of its open clause, or what it does at a boundary. -/
def State.splitStep (s : State) (r : Ref) : Out :=
  match s.lookup? r with
  | none => .next s
  | some c =>
    if c.team.status = .saved then .next s
    else if c.split.opn then
      if c.split.park ≠ .none then .next s else
      match c.split.code with
      | [] => .next (s.finish r)
      | w :: _ =>
        match decodeWord w with
        | .error k => .next (s.fatal r .illop (illDetail (some c.split.idx) k))
        | .ok i =>
          if c.split.waits && !s.portOpen c then .next s else
          match i.illegal c.group.budget with
          | some k => .next (s.fatal r .illop (illDetail (some c.split.idx) k))
          | none => s.issue c i
    else match c.split.park with
      | .merge _ => exec (.mergeComplete r.team r.group) s
      | .exit => exec (.splitExitComplete r) s
      | _ => match s.mergePartner c with
        | some o => exec (.splitMerge r o) s
        | none => match c.split.park with
          | .reconv => exec (.parkTimeout r) s
          | _ => if s.mustYield c then exec (.fairnessYield r) s else exec (.clauseBegin r) s

/-- One word of the program that an epilogue processor is running (R237). -/
def State.epilogueStep (s : State) (core : Nat) : Out :=
  match (s.core core).epi.prog with
  | [] => .next s
  | w :: rest =>
    let s := s.modCore core fun k => { k with epi := { k.epi with prog := rest } }
    match decodeEp w with
    | some i => exec i s
    | none => .next s

/-- Common time passes (R24): the slot under way carries what has joined the send queues (R292). Each die's copy follows the master,
and never goes back. While the master is being taken over the copies run free (R26): `Input.freeRun` moves each of them. -/
def State.elapse (s : State) (ns : Nat) : State :=
  let s := s.carryOn.account ns
  let s := { s with mgmt := { s.mgmt with time := s.mgmt.time + ns } }
  if s.mgmt.master = 1 then s else s.followTime

/-- The next word of an open clause waits for the split's own completion counters: a FENCE with ENG, or a full counter (R69, R108,
R213). -/
def Cur.counterWaits (c : Cur) : Bool :=
  match c.split.code with
  | [] => false
  | w :: _ => match decodeWord w with
    | .ok i => c.counterFull i || (match i with
      | .fence f => f.off.getLsbD 0 && !(c.split.ctrs.cpc.isEmpty && c.split.ctrs.mxc.isEmpty && c.split.ctrs.enc.isEmpty)
      | _ => false)
    | .error _ => false

/-- The clock of one split over `n` cycles (R57, R60, R66, R69, R94, R98). While its group is halted its parks and its fairness
timer stand (R328), and while it waits for its own counters it gathers no fairness time (R69). `refuses`: a ready sibling is refused
a port. -/
def Split.pass (p : Split) (halted refuses counterWaits : Bool) (n : Nat) : Split :=
  { p with age := p.age + n, hold := p.hold - n
           parked := if halted then p.parked else if p.park = .none then 0 else p.parked + n
           cont := if halted then p.cont else if p.opn && !p.waits && p.park = .none && refuses then
             (if counterWaits then p.cont else p.cont + n) else 0 }

/-- The clocks of a team's splits over `n` cycles. -/
def State.passTeam (s : State) (tid : Nat) (t : Team) (n : Nat) : Team :=
  let onSplit (gi : Nat) (g : Group) (p : Nat × Split) : Nat × Split :=
    let c : Cur := ⟨⟨tid, gi, p.1⟩, t, g, p.2⟩
    (p.1, p.2.pass g.halted (s.refuses c) c.counterWaits n)
  { t with groups := t.groups.map fun g => (g.1, { g.2 with splits := g.2.splits.map (onSplit g.1 g.2), cyc := g.2.cyc + n }) }

/-- What a split does at a clause boundary but for beginning its clause: its merge, the end of its park, its exit, a yield that is due
(R55 to R58, R66, R326). -/
def State.boundary (s : State) (r : Ref) : State :=
  match s.lookup? r with
  | none => s
  | some c =>
    if c.team.status ≠ .resident || c.split.opn then s else
    let o : Out := match c.split.park with
      | .merge _ => execMergeComplete r.team r.group s
      | .exit => execSplitExitComplete r s
      | _ => match s.mergePartner c with
        | some o => execSplitMerge r o s
        | none => match c.split.park with
          | .reconv => execParkTimeout r s
          | _ => if s.mustYield c then execFairnessYield r s else .next (s.startClause r fun _ => false)
    match o with | .next t => t | _ => s

/-- The splits of a die's resident teams. -/
def State.splitsOn (s : State) (d : Nat) : List Cur := s.allSplits.filter fun c => c.team.die = d && c.team.status = .resident

/-- The arbiters of a die fill their ports (R95): what stands at a boundary and needs none goes first, and then every entry that the
order of the rule names begins its clause. -/
def State.arbitrate (s : State) (d : Nat) : State :=
  let s := (s.splitsOn d).foldl (fun s c => s.boundary c.ref) s
  (((s.splitsOn d).filter fun c => s.portFree c.bound).map (·.ref)).foldl (fun s r => s.startClause r fun _ => true) s

/-- Main-clock cycles of a die pass (R27), once its arbiters have filled their ports: no ready entry that they would start is kept
waiting (R67, R95). -/
def State.passCycles (s : State) (d n : Nat) : State :=
  let s := s.arbitrate d
  let x := s.modDie d fun x => { x with cycle := x.cycle + n }
  { x with teams := s.teams.map fun t => (t.1, if t.2.die ≠ d || t.2.status = .saved then t.2 else s.passTeam t.1 t.2 n) }

/-- A core's L1 loses a sector, and with it the ownership of its line (R194, R196). -/
def State.l1Drop (s : State) (core sector : Nat) : State :=
  let s := s.modCore core fun k => { k with l1 := mdel k.l1 sector }
  { s with owned := s.owned.filter fun o => !(o.1 = sector / 8 && o.2 = core) }

/-- One choice of the environment carried out. -/
def applyInput (x : Input) (s : State) : Out :=
  match x with
  | .event i => if i.isEvent then exec i s else .next s
  | .turn t => .next { s with turn := t }
  | .l1Drop core sector => .next (s.l1Drop core sector)
  | .migrDrop die key => .next (s.modDie die fun k => { k with migr := mdel k.migr key })
  | .copyPart team cmd word => .next (s.copyPart team cmd word)
  | .tlbDrop die key => .next (s.modDie die fun k => { k with tlb := tlbDel k.tlb key })
  | .coreTlbDrop core key => .next (s.modCore core fun k => { k with tlb := tlbDel k.tlb key })
  | .lanePart team op lane half ext => .next (s.lanePart team op lane half ext)
  | .storeEarly team op => .next (s.storeEarly team op)
  | .storeMove id => .next (s.storeMove id)
  | .keepView core pa n => .next (s.keepView core pa n)
  | .dropView core pa => .next (s.dropViews core pa 1)
  | .keepVector team group key => .next (s.modGroup team group fun g =>
      { g with pastV := mput g.pastV key (mget 0 g.v key :: mget [] g.pastV key) })
  | .keepScalar team group n => .next (s.modGroup team group fun g =>
      { g with pastS := mput g.pastS n (mget 0 g.s n :: mget [] g.pastS n) })
  | .keepByte core addr => .next (s.modCore core fun k =>
      { k with past := mput k.past addr (rdByte k.arr addr :: mget [] k.past addr) })
  | .relayRefused queue seq at_ => .next (s.relayRefused queue seq at_)
  | .peerAnswer ask bytes => .next (s.peerAnswer ask bytes)
  | .frameSend chan flits => .next (s.frameSend chan flits)
  | .frameHurt chan n => .next (if s.mgmt.carries chan then s.modLink chan fun l => { l with hurt := n } else s)
  | .stripSend w => .next (s.stripSend w)
  | .stripAck src dst seq => .next (s.stripAck src dst seq)
  | .freeRun die ns => .next (if s.mgmt.master = 1 && die < Config.dies then s.modDie die fun d => { d with time := d.time + ns } else s)
  | .l2Drop die key => .next (s.modDie die fun d => { d with l2 := mdel d.l2 key })
  | .fetchCell core inst cell => .next (s.fetchCell core inst cell)
  | .tileRow cmd tile row => .next (s.tileRow cmd tile row)
  | .later r => .next (s.issueLater r)
  | .fabricStamp peer count root => .next (s.stamp peer count root)
  | .fabricSteer peer ns => .next (s.steer peer ns)
  | .mgmtSend chan bytes => .next (s.mgmtSend chan bytes)
  | .mgmtReceive chan key bytes => .next (s.mgmtReceive chan key bytes)
  | .bar2Resize dev log => .next (if 20 ≤ log && log ≤ 57 then { s with mgmt := { s.mgmt with bar2Log := mput s.mgmt.bar2Log dev log } } else s)
  | .elapse ns => .next (s.elapse ns)
  | .cycles die n => .next (s.passCycles die n)

end Sys2Proof.Machine
end

