-- ==== Sys2Proof/Machine/Step.lean ====
section
/-! DEFINITION. One step of the machine, and the state in which a given word is the next to run. -/
namespace Sys2Proof.Machine

/-- One step: the environment's next choice when the agenda holds one, else the agent whose turn it is. -/
def step (s : State) : Host.Outcome State Fault Refusal :=
  match s.agenda with
  | x :: rest => applyInput x { s with agenda := rest }
  | [] =>
    match s.turn with
    | .idle => .next s
    | .split r => s.splitStep r
    | .epilogue core => s.epilogueStep core

/-- The split, alone in a team of one group, whose open clause is the word `w` (log 4). -/
def State.wordSplit (w : DWord) : Split :=
  { pc := 0, mask := widthMask 8, opn := true, code := [w], next := 16 }

/-- A team of one group of eight lanes and the largest budget, resident on core 0 of die 0 (log 4). -/
def State.wordTeam (w : DWord) : Team :=
  { ctx := 0, task := 0, index := 0, die := 0, core := 0, base := 0, bytes := 4096
    groups := [(0, { role := 0, roleIdx := 0, width := 8, budget := 256, slot := 0, base := 0, splits := [(0, State.wordSplit w)] })] }

/-- `s` with an instruction word, or an epilogue word, as the next to run. A program comes to run on this machine
only through a task (R78), a placement (R82) and a clause (R130): this stands for that load (log 4). -/
def State.withFetchWord (s : State) (nbits w : Nat) : State :=
  if nbits ≤ 32 then
    { s.modCore 0 (fun k => { k with epi := { k.epi with prog := [BitVec.ofNat 32 w] } }) with
      agenda := [], turn := .epilogue 0 }
  else
    { s with agenda := [], turn := .split ⟨s.nextId, 0, 0⟩, nextId := s.nextId + 1
             teams := mput s.teams s.nextId (State.wordTeam (BitVec.ofNat 64 w)) }

end Sys2Proof.Machine
end

