-- ==== Sys2Proof/Safety.lean ====
section
/-! DEFINITION. What a safe run is, and the words in which the claims speak of registers, of memory, and of what an instruction
leaves as it was. -/
namespace Sys2Proof.Machine

/-- The byte memories of a state are in their canonical form: HBM and every core's local array. -/
def State.memOk (s : State) : Bool := Memory.wf s.hbm && s.cores.all fun k => Memory.wf k.2.arr

/-- A state from which the machine takes a step: neither a fault nor a refusal. -/
def State.goesOn (s : State) : Bool :=
  match step s with
  | .next _ => true
  | _ => false

/-! ### Registers as they stand -/

/-- A vector register of a lane (R144). -/
def Group.vreg (g : Group) (lane n : Nat) : Word := mget 0 g.v (vkey lane n)
/-- A scalar register (R145). -/
def Group.sreg (g : Group) (n : Nat) : Word := mget 0 g.s n
/-- A predicate in a lane (R146): p7 is true. -/
def Group.preg (g : Group) (n lane : Nat) : Bool := if n ≥ 7 then true else (mget 0 g.p n).getLsbD lane

/-! ### What stays as it was -/

/-- Every byte of HBM and of every core's local array reads as before. -/
def SameMemory (s t : State) : Prop :=
  (∀ a, rdByte t.hbm a = rdByte s.hbm a) ∧ ∀ k a, rdByte (t.core k).arr a = rdByte (s.core k).arr a

/-- Everything but the teams is as before: every byte of memory, every store on its way home, every view of a core, every die, core, context, task and management or fabric
register. Only the model's own counters of fresh names and free values may have moved. -/
def SameMachine (s t : State) : Prop :=
  SameMemory s t ∧ t.owned = s.owned ∧ t.wbuf = s.wbuf ∧ t.views = s.views ∧ t.dies = s.dies ∧ t.cores = s.cores ∧ t.ctxs = s.ctxs ∧ t.tasks = s.tasks ∧
  t.tiles = s.tiles ∧ t.fab = s.fab ∧ t.mgmt = s.mgmt

/-- From `s` to `t` the split `c`, now `d`, and its own group are all that may have changed: every other team, every other
group of its team and every other split of its group are as before. -/
def ActsAlone (s t : State) (c d : Cur) : Prop :=
  t.lookup? c.ref = some d ∧ SameMachine s t ∧
  (∀ k, k ≠ c.ref.team → mget? t.teams k = mget? s.teams k) ∧
  (∀ k, k ≠ c.ref.group → mget? d.team.groups k = mget? c.team.groups k) ∧
  (∀ k, k ≠ c.ref.split → mget? d.group.splits k = mget? c.group.splits k)

/-- As `ActsAlone`, for a late write of a scalar: a sibling keeps what its open clause goes on seeing of it, and notes it for its
restarts (R40, R321). -/
def WritesLate (s t : State) (c d : Cur) : Prop :=
  t.lookup? c.ref = some d ∧ SameMachine s t ∧
  (∀ k, k ≠ c.ref.team → mget? t.teams k = mget? s.teams k) ∧
  (∀ k, k ≠ c.ref.group → mget? d.team.groups k = mget? c.team.groups k) ∧
  ∀ k q, k ≠ c.ref.split → mget? d.group.splits k = some q →
    ∃ p, mget? c.group.splits k = some p ∧ q = { p with seen := q.seen, stale := q.stale, foreign := q.foreign }

/-- The split leaves its park, with its clause's and its restart's own views of a scalar that has been written dropped (R40, R321). -/
def Leaves (c d : Cur) : Prop := d.split = { c.split with park := .none, parked := 0, seen := d.split.seen, stale := d.split.stale }

/-- The team's own fields are as before: its barriers, windows, operations, commands, buffers, runs and issue counts. -/
def TeamAsBefore (c d : Cur) : Prop := d.team = { c.team with groups := d.team.groups }

/-- Vector and scalar registers after an instruction with destination `r` (R144, R145, R337): `wide` writes the pair, `scal`
the scalar file once when some lane passes, else each lane that passes; every other register, and every other field of the
group, is as before. -/
def DestIs (c d : Cur) (k : Com) (scal wide : Bool) (r : Nat) (val : Nat → DWord) : Prop :=
  (∀ l n, l < 64 → n < 256 → d.group.vreg l n =
    if !scal && (c.pass k).getLsbD l && n == r then loWord (val l)
    else if !scal && wide && (c.pass k).getLsbD l && n == r + 1 then hiWord (val l)
    else c.group.vreg l n) ∧
  (∀ n, n < 256 → d.group.sreg n =
    if scal && c.acts k && n == r then loWord (val 0)
    else if scal && wide && c.acts k && n == r + 1 then hiWord (val 0)
    else c.group.sreg n) ∧
  d.group = { c.group with v := d.group.v, s := d.group.s, splits := d.group.splits }

/-- A predicate after an instruction that writes it (R146): each lane that passes takes its value, every other lane and every
other register of the group is as before; a write to p7 changes nothing. -/
def PredIs (c d : Cur) (k : Com) (p : Nat) (val : Nat → Bool) : Prop :=
  (∀ l n, l < 64 → d.group.preg n l =
    if n == p && p < 7 && (c.pass k).getLsbD l then val l else c.group.preg n l) ∧
  d.group = { c.group with p := d.group.p, splits := d.group.splits }

/-- `i` completes at `s`: it writes its destination, and nothing else changes but what the clause's own progress changes
elsewhere (the split itself is as before). -/
def Computes (i : Instr) (s : State) (c : Cur) (k : Com) (scal wide : Bool) (r : Nat) (val : Nat → DWord) : Prop :=
  ∃ t d, exec i s = .next t ∧ ActsAlone s t c d ∧ TeamAsBefore c d ∧ d.split = c.split ∧ DestIs c d k scal wide r val

/-- As `Computes`, for an instruction that writes a predicate. -/
def Compares (i : Instr) (s : State) (c : Cur) (k : Com) (p : Nat) (val : Nat → Bool) : Prop :=
  ∃ t d, exec i s = .next t ∧ ActsAlone s t c d ∧ TeamAsBefore c d ∧ d.split = c.split ∧ PredIs c d k p val

/-- A pair destination is named by its even register (R144); R129 makes any other an illegal instruction. -/
def PairOk (wide : Bool) (r : BitVec 8) : Prop := wide = true → r.toNat % 2 = 0

/-- A split's own record of the port's work may have moved on: its pending writes. -/
def PendingMoved (c d : Cur) : Prop := d.split = { c.split with pend := d.split.pend }

/-- `i`, a long-latency instruction whose result is written at issue (R124, R125), completes at `s`: as `Computes`, with its
destination pending for a window of LA instructions, and nothing pending for a window of 0. -/
def ComputesLate (i : Instr) (s : State) (c : Cur) (k : Com) (scal wide : Bool) (r : Nat) (val : Nat → DWord) : Prop :=
  ∃ t d, exec i s = .next t ∧ ActsAlone s t c d ∧ TeamAsBefore c d ∧ PendingMoved c d ∧ (k.la = 0 → d.split.pend = c.split.pend) ∧
    DestIs c d k scal wide r val

/-- Where a split goes after its clause (R101, R398, R399): the loop levels that it keeps, and the address. -/
def Cur.after (c : Cur) : List Loop × DWord :=
  match c.split.jump with
  | some a => (c.split.loops, a)
  | none => fallThrough c.split.loops c.split.next

/-- The split stands at a clause boundary at `pc` with the loop levels `loops`; its lanes, FMT, counters, pending writes, entry
record and stack, and every register of its group, are as before. -/
def Lands (s t : State) (c d : Cur) (loops : List Loop) (pc : DWord) : Prop :=
  ActsAlone s t c d ∧ TeamAsBefore c d ∧ d.split.opn = false ∧ d.split.code = [] ∧ d.split.pc = pc ∧ d.split.loops = loops ∧
  d.split.mask = c.split.mask ∧ d.split.fmt = c.split.fmt ∧ d.split.ctrs = c.split.ctrs ∧ d.split.pend = c.split.pend ∧
  d.split.ovf = c.split.ovf ∧ d.split.park = c.split.park ∧
  d.group = { c.group with splits := d.group.splits }

/-- Nothing is being asked at another package for the instruction of a split (R180). -/
def State.asksNothing (s : State) (r : Ref) : Prop := ∀ a ∈ s.fab.asks, ¬ (a.who = .split r.group r.split ∧ a.team = some r.team)

/-- The port may issue `i`, the next word of the split's open clause: nothing holds it (R108, R125, R127, R213, R222), the split stands
on its port, or a port is open to it (R64, R95), nothing that it reads at its issue is still to come from another package (R180), and it
writes no register that an open window covers (R125). -/
def PortAdmits (s : State) (c : Cur) (w : DWord) (i : Instr) : Prop :=
  s.agenda = [] ∧ s.cur? = some c ∧ c.team.status ≠ .saved ∧ c.split.opn = true ∧ c.split.park = .none ∧
  c.split.code.head? = some w ∧ decodeWord w = .ok i ∧ i.illegal c.group.budget = none ∧
  (c.windowHolds || c.counterFull i || c.fenceHolds i || s.unitHolds c i) = false ∧ c.hazard i = false ∧
  (c.split.waits = false ∨ s.portOpen c = true) ∧ s.peersHold c i = none

/-! ### Operations and commands in flight -/

/-- No stash window of any team has a filled line, so no access recalls a line (R191). -/
def State.noLines (s : State) : Prop := ∀ q ∈ s.teams, ∀ w ∈ q.2.wins, w.2.lines = []

/-- No window has a filled line, and no store is on its way to its home slice (R206 to R210): memory is what HBM and the arrays
hold. -/
def State.noStash (s : State) : Prop := s.noLines ∧ s.wbuf = []

/-- Everything in every group is as before, but for reservations that a write may have cleared (R219). -/
def OnlyReservations (s u : State) : Prop :=
  ∀ k j g', (mget? u.teams k).bind (fun t => mget? t.groups j) = some g' →
    ∃ g, (mget? s.teams k).bind (fun t => mget? t.groups j) = some g ∧ g' = { g with resv := g'.resv }

/-- The bytes of a memory at a place of a team: HBM or the team's array. -/
def State.bytesAt (s : State) (t : Team) (p : Place) (n : Nat) : List Byte :=
  match p with
  | .hbm pa => rdBytes s.hbm pa n
  | .arr off => s.arrRead t off n
  | .peer _ _ => []

/-- From `s` to `u` the bytes at a place of a team take the number `v`, least significant byte first, and no other byte of HBM or of an
array changes. -/
def Stored (s u : State) (t : Team) (p : Place) (n v : Nat) : Prop :=
  match p with
  | .hbm pa => (∀ i, i < n → rdByte u.hbm (pa + i) = BitVec.ofNat 8 (v / 2 ^ (8 * i))) ∧
      (∀ a, a < pa ∨ pa + n ≤ a → rdByte u.hbm a = rdByte s.hbm a) ∧ ∀ k, (u.core k).arr = (s.core k).arr
  | .arr off => u.hbm = s.hbm ∧
      (∀ i, i < n → rdByte (u.core t.coreKey).arr (t.base + off + i) = BitVec.ofNat 8 (v / 2 ^ (8 * i))) ∧
      (∀ a, a < t.base + off ∨ t.base + off + n ≤ a → rdByte (u.core t.coreKey).arr a = rdByte (s.core t.coreKey).arr a) ∧
      ∀ k, k ≠ t.coreKey → (u.core k).arr = (s.core k).arr
  | .peer _ _ => False

/-- The accesses of an operation lie in memory of this package, aligned and outside every window, none of them has been made ahead
(R175, R202), nothing is on its way home and no window holds a line. -/
def Plain (s : State) (t : Team) (m : MemOp) : Prop :=
  s.noStash ∧ s.memOk = true ∧ m.part = [] ∧ m.bytes ∈ [1, 2, 4, 8, 16] ∧ m.dreg + 4 ≤ 256 ∧ ∀ x ∈ m.lanes, x.lane < 64 ∧
    match x.place with
    | .hbm pa => t.winOf x.va = none ∧ pa % m.bytes = 0
    | .arr off => off % m.bytes = 0
    | .peer _ _ => False

/-- The bytes that a lane of a core's load or L1 atomic finds (R193, R214): the L1's where it admits the access and holds them. -/
def State.found (s : State) (t : Team) (m : MemOp) (p : Place) : List Byte :=
  match p with
  | .hbm pa => if m.inL1 && (s.core t.coreKey).l1Has pa m.bytes then (s.core t.coreKey).l1Read pa m.bytes else s.bytesAt t p m.bytes
  | _ => s.bytesAt t p m.bytes

/-- From `s` to `u` the lanes of an operation of a group receive the values `v` in its destination registers; every other register of
every group, and everything else in the groups but reservations, is as before. -/
def LanesTake (s u : State) (team : Nat) (m : MemOp) (v : Nat → Option Nat) : Prop :=
  ∀ k j g', (mget? u.teams k).bind (fun t => mget? t.groups j) = some g' →
    ∃ g, (mget? s.teams k).bind (fun t => mget? t.groups j) = some g ∧ g' = { g with v := g'.v, resv := g'.resv } ∧
      ∀ l n, l < 64 → n < 256 → g'.vreg l n =
        match v l with
        | some w => if k = team ∧ j = m.group ∧ m.dest.1 ≤ n ∧ n < m.dest.1 + m.dest.2 then BitVec.ofNat 32 (w / 2 ^ (32 * (n - m.dest.1)))
            else g.vreg l n
        | none => g.vreg l n

/-- No group holds a reservation on the granule of a place any more; of a place in a team's array, no group of the team (R219). -/
def Cleared (u : State) (team : Nat) (p : Place) : Prop :=
  ∀ k j g, (mget? u.teams k).bind (fun t => mget? t.groups j) = some g → (k = team ∨ ∃ pa, p = .hbm pa) →
    ∀ q ∈ g.resv, q.2 ≠ granule p

/-- Every lane that passes may make its access: its address is aligned to its size, and translates or lies in the team's own
bytes, with the permission it needs (R173, R178, R183, R192, R478). -/
def Admitted (s : State) (c : Cur) (f : FmtM) (off : BitVec 8) (need : Need) : Prop :=
  ∀ l ∈ lanes (c.pass f.com), (c.ea f off l).toNat % FmtM.bytes f = 0 ∧
    ∃ p e, s.laneCheck c.team f.sp (c.ea f off l) (FmtM.bytes f) need = .ok p e

/-- The registers of a group are those of another. -/
def SameRegisters (g h : Group) : Prop := h.v = g.v ∧ h.s = g.s ∧ h.p = g.p ∧ h.regs = g.regs

/-- The memory instruction `i` completes its issue at `s` (R108, R204): one operation, with a fresh name, is in flight for its
split and counted on `x`; it holds, for every lane that passes and for no other, the lane's address, its place, its data and the
value it compares, and the operations that must be performed before it. The registers, the split's lanes and its place in the
code are as before; so is every byte of memory, where the issue takes no copy of a line that a stash window owns. -/
def Issues (i : Instr) (s : State) (c : Cur) (f : FmtM) (kind : MemKind) (off : BitVec 8) (need : Need) (x : Ctr)
    (data cmp : Nat → Nat) : Prop :=
  ∃ t d m, exec i s = .next t ∧ t.lookup? c.ref = some d ∧ mget? d.team.mops s.nextId = some m ∧
    m.kind = kind ∧ m.group = c.ref.group ∧ m.split = c.ref.split ∧ m.bytes = FmtM.bytes f ∧ m.dreg = f.d.toNat ∧
    m.sc = FmtM.scope f ∧ m.ord = f.ord.toNat ∧ m.cp = f.cp.toNat ∧ m.aop = f.off.toNat ∧
    m.lanes.map (·.lane) = lanes (c.pass f.com) ∧
    (∀ y ∈ m.lanes, y.va = (c.ea f off y.lane).toNat ∧ y.data = data y.lane ∧ y.cmp = cmp y.lane ∧
      ∃ e, s.laneCheck c.team f.sp (c.ea f off y.lane) (FmtM.bytes f) need = .ok y.place e) ∧
    m.deps = c.depsOf f.ord.toNat (FmtM.bytes f) m.lanes need.wr ∧ m.part = [] ∧
    (∀ n, n ≠ s.nextId → mget? d.team.mops n = mget? c.team.mops n) ∧
    d.split.ctrs = c.split.ctrs.add x s.nextId ∧ d.split.mask = c.split.mask ∧ d.split.pc = c.split.pc ∧
    d.split.code = c.split.code ∧ SameRegisters c.group d.group ∧ (s.noStash → SameMemory s t)

/-- From `s` to `u` the engine command `k` enters the list of the team of `c`, under a fresh name that the counter `x` of its
split counts (R108); the team's other commands are as before, and so are the other teams, the other groups, the other splits
and everything outside the teams. -/
def Posted (s u : State) (c d : Cur) (x : Ctr) (k : Cmd) : Prop :=
  ActsAlone s u c d ∧ mget? d.team.cmds s.nextId = some k ∧ d.split.ctrs = c.split.ctrs.add x s.nextId ∧
  (∀ n, n ≠ s.nextId → mget? d.team.cmds n = mget? c.team.cmds n) ∧ k.group = c.ref.group ∧ k.split = c.ref.split

/-- From `s` to `u` group `g` of team `k` becomes `g'`; every other team, every other group of the team and the team's own fields
are as before, reservations apart: a write to an array may clear some (R219). -/
def GroupBecomes (s u : State) (k g : Nat) (g' : Group) : Prop :=
  ∃ tm tm', mget? s.teams k = some tm ∧ mget? u.teams k = some tm' ∧ tm' = { tm with groups := tm'.groups } ∧
    mget? tm'.groups g = some g' ∧
    (∀ j, j ≠ g → (mget? tm'.groups j).map (fun x => { x with resv := [] }) = (mget? tm.groups j).map fun x => { x with resv := [] }) ∧
    ∀ j, j ≠ k → mget? u.teams j = mget? s.teams j

/-- The split has ended its clause and waits in `p`; its lanes, its registers and its place after the clause are kept. -/
def Waits (c d : Cur) (p : Park) : Prop :=
  d.split.park = p ∧ d.split.opn = false ∧ d.split.pc = c.after.2 ∧ d.split.loops = c.after.1 ∧ d.split.mask = c.split.mask ∧
  SameRegisters c.group d.group

/-- The split goes on in its clause: only its counters have moved. -/
def OnlyCounts (c d : Cur) : Prop := d.split = { c.split with ctrs := d.split.ctrs }

/-- An epilogue word writes e register `d` with `val`, element by element, and changes nothing else in the machine (R367). -/
def EpWrites (i : Instr) (s : State) (core d : Nat) (val : Nat → Nat) : Prop :=
  ∃ t : State, exec i s = .next t ∧ t = { s with cores := t.cores } ∧ (∀ k, k ≠ core → t.core k = s.core k) ∧
    t.core core = { s.core core with epi := { (s.core core).epi with e := (t.core core).epi.e } } ∧
    ∀ r m, m < 16 → (t.core core).epi.eAt r m = if r = d then BitVec.ofNat 32 (val m) else (s.core core).epi.eAt r m

/-! ### Records of the part in memory -/

/-- `n` bytes at the virtual address `va` of context `x`, as die `die` sees them, lie in HBM at `pa`, and stay there whatever the
addresses of `D` hold: no page table that maps them lies in `D`. -/
def Mapped (s : State) (D : Nat → Prop) (die x va n pa : Nat) : Prop :=
  ∀ h : Memory, (∀ a, ¬ D a → rdByte h a = rdByte s.hbm a) → ∀ k m need, 0 < m → k + m ≤ n → need.ex = false →
    State.span { s with hbm := h } die x (va + k) m need = .ok [(.hbm (pa + k), m)]

/-- The addresses of `n` bytes from `pa`. -/
def Bytes (pa n : Nat) (a : Nat) : Prop := pa ≤ a ∧ a < pa + n

/-- A number of `n` bytes in HBM. -/
def State.hbmNat (s : State) (pa n : Nat) : Nat := natOfBytes (rdBytes s.hbm pa n)

/-- From `s` to `t` HBM takes the number `v` in `n` bytes at `pa`, and no other byte of it changes. -/
def HbmTakes (s t : State) (pa n v : Nat) : Prop :=
  t.hbmNat pa n = v % 2 ^ (8 * n) ∧ ∀ a, ¬ Bytes pa n a → rdByte t.hbm a = rdByte s.hbm a

/-- A scalar destination takes `v`; every other register of the group is as before. -/
def ScalarIs (c d : Cur) (r : Nat) (v : Word) : Prop :=
  d.group.sreg r = v ∧ (∀ n, n ≠ r → d.group.sreg n = c.group.sreg n) ∧ d.group.v = c.group.v ∧ d.group.regs = c.group.regs

/-- The engine command `i`, whose effect has led from the present state to `s₁`, completes: its registers are written as `wr`
says, with `acq` the core's L1 is emptied, and what is left is the posting of its completion, counted on `x`. -/
def Effected (i : Instr) (s : State) (c : Cur) (x : Ctr) (s₁ : State) (acq : Bool) (wr : Group → Group) : Prop :=
  ∀ c₁, s₁.lookup? c.ref = some c₁ → ∃ t d q, exec i s = .next t ∧
    Posted (if acq then s₁.l1Clear c.team.coreKey else s₁) t c₁ d x q ∧ q.kind = .effected ∧
    d.group = { wr c₁.group with splits := d.group.splits } ∧ d.split = { c₁.split with ctrs := d.split.ctrs, pend := d.split.pend }

end Sys2Proof.Machine
end

