-- ==== Sys2Proof/Certificates/Slice0/Obligations.lean ====
section
/-! DEFINITION. The statements of this model, each a proposition about it, for the provers. -/
section SliceStatements
open Sys2Proof Sys2Proof.Machine

/-! ### Encoding -/

/-- Decode of encode, for every well-formed instruction word (R111 to R120, R128) and epilogue word (R121), and the eight
bytes of a word give the word back (R2). -/
def Obligations.DecodeOfEncodeIsIdentity : Prop :=
  (∀ i : Instr, i.com?.isSome = true → i.wellFormed = true → decodeWord (encode i) = .ok i) ∧
  (∀ i : Instr, i.isEp = true → i.wellFormed = true → decodeEp (encodeEp i) = some i) ∧
  (∀ w : DWord, wordOfBytes (bytesOfWord w) = w)

/-- Every word that the decoder accepts as a well-formed instruction is the encoding of that instruction: no two words are
one instruction, and no bit of a word goes unread. -/
def Obligations.AcceptedWordsAreCanonical : Prop :=
  (∀ (w : DWord) (i : Instr), decodeWord w = .ok i → i.wellFormed = true → encode i = w) ∧
  (∀ (w : Word) (i : Instr), decodeEp w = some i → encodeEp i = w)

/-! ### The step -/

/-- A step of the split whose turn it is runs the instruction that the next word of its clause decodes to, with the word
taken off the clause, the index and the windows moved on before it, and the end of the clause looked at after it. Beside
these, a step makes buffered stores visible before a release, opens the window of an instruction that no lane passes, counts
the pages of the commands issued, notes the registers written for the splits that restart (R141, R321), and forgets what came from other
packages for the instruction (R180): with none of these to do, the state before is that with the word taken off, and the state after
that of the meaning with the clause ended. A split that waits off its port issues only once a port is open to it (R64, R95).

With an event of the opcode table as the environment's choice on the agenda, a step runs it by its meaning. An epilogue processor whose turn it is runs the next word of its program (R237). -/
def Obligations.StepRunsTheDecodedInstruction : Prop :=
  (∀ (s : State) (c : Cur) (w : DWord) (i : Instr), PortAdmits s c w i →
    step s = match exec i (s.issuing c i) with
      | .next t => .next (s.issued c i t)
      | o => o) ∧
  (∀ (s : State) (c : Cur) (i : Instr), s.wbuf = [] → (i.longLatency = false ∨ i.cls < 4 ∨ (i.com?.map c.acts).getD false = true) →
    s.issuing c i = s.put { c with split := c.split.advance i }) ∧
  (∀ (s t : State) (c : Cur) (i : Instr), (∀ k ∈ t.teams, ∀ q ∈ k.2.cmds, q.1 < s.nextId) → destRegs i .s = [] →
    (destRegs i .v = [] ∨ c.split.staleV = []) → t.asksNothing c.ref → s.issued c i t = t.finish c.ref) ∧
  ((∀ (s : State) (i : Instr) (rest : List Input), s.agenda = .event i :: rest → i.isEvent = true →
    step s = exec i { s with agenda := rest }) ∧
  (∀ (s : State) (core : Nat) (w : Word) (rest : List Word) (i : Instr), s.agenda = [] → s.turn = .epilogue core →
    (s.core core).epi.prog = w :: rest → decodeEp w = some i →
    step s = exec i (s.modCore core fun k => { k with epi := { k.epi with prog := rest } })))

/-- The detail of ILLOP, ILLCLAUSE and HAZARD, which TRAPINFO holds in its low word (R131): the instruction's index or the mark of
the header, zeros, the reason, zeros. A word that is no instruction, or breaks a rule of its instruction, raises ILLOP with its
index and the reason of R129; a write to a register that an open window covers (R125) raises HAZARD with its index and reason 0; a
clause that fails a check (R130) raises the trap of the check. Nothing of the word is carried out. Of several rules that a word
breaks, which one gives the reason is the model's own choice: log 10. -/
def Obligations.IllegalWordsTrap : Prop :=
  (∀ (idx reason : Nat), idx < 16 → reason < 256 →
    let d := illDetail (some idx) reason
    let h := illDetail none reason
    field (d.setWidth 64) 0 4 = idx ∧ d.getLsbD 4 = false ∧ field (h.setWidth 64) 0 4 = 0 ∧ h.getLsbD 4 = true ∧
    ∀ x ∈ [d, h], field (x.setWidth 64) 5 3 = 0 ∧ field (x.setWidth 64) 8 8 = reason ∧ field (x.setWidth 64) 16 16 = 0) ∧
  (∀ act split cls code detail, (trapInfo act split cls code detail).extractLsb' 0 32 = detail) ∧
  (∀ (s : State) (c : Cur) (w : DWord) (rest : List DWord), s.agenda = [] → s.cur? = some c → c.team.status ≠ .saved →
    c.split.opn = true → c.split.park = .none → c.split.code = w :: rest →
    (∀ k, decodeWord w = .error k → step s = .next (s.fatal c.ref .illop (illDetail (some c.split.idx) k))) ∧
    (∀ i k, decodeWord w = .ok i → i.illegal c.group.budget = some k →
      (c.split.waits = false ∨ s.portOpen c = true) → step s = .next (s.fatal c.ref .illop (illDetail (some c.split.idx) k))) ∧
    (∀ i, decodeWord w = .ok i → i.illegal c.group.budget = none → (c.split.waits = false ∨ s.portOpen c = true) →
      (c.windowHolds || c.counterFull i || c.fenceHolds i || s.unitHolds c i) = false → c.hazard i = true →
      step s = .next (s.fatal c.ref .hazard (illDetail (some c.split.idx) 0)))) ∧
  (∀ (s : State) (c : Cur) (cause : Cause) (idx : Option Nat) (reason : Nat),
    s.clauseTrap c (.ill cause idx reason) = s.fatal c.ref cause (illDetail idx reason))

/-! ### Integer, bit and move instructions -/

/-- The integer and bit instructions of format R: each writes its destination, a pair for a 64-bit type, with the result of its
rule (R156, R346, R359, R385, R393, R396, R410, R422, R439, R445 and the entries of 13 to 16) in every lane that passes, and changes
nothing else.

The immediate forms: each writes its 32-bit destination with the result of its rule (R377, R385, R439) on A and the extended immediate
(R114), and MOVI its immediate (R115, R409), in every lane that passes; nothing else changes. -/
def Obligations.IntegerInstructionsComplete : Prop :=
  (∀ (s : State) (c : Cur) (f : FmtR), s.cur? = some c → PairOk f.t.is64 f.d →
    Computes (.iadd f) s c f.com f.ds f.t.is64 f.d.toNat (fun l => intBin f.t (FmtR.sat f) (· + ·) (c.rA f l) (c.rB f l)) ∧
    Computes (.isub f) s c f.com f.ds f.t.is64 f.d.toNat (fun l => intBin f.t (FmtR.sat f) (· - ·) (c.rA f l) (c.rB f l)) ∧
    Computes (.imul f) s c f.com f.ds f.t.is64 f.d.toNat (fun l => intBin f.t (FmtR.sat f) (· * ·) (c.rA f l) (c.rB f l)) ∧
    Computes (.imad f) s c f.com f.ds f.t.is64 f.d.toNat (fun l => imad f.t (FmtR.sat f) (FmtR.hi f) (c.rA f l) (c.rB f l) (c.rC f l)) ∧
    Computes (.imin f) s c f.com f.ds f.t.is64 f.d.toNat (fun l => intBin f.t false min (c.rA f l) (c.rB f l)) ∧
    Computes (.imax f) s c f.com f.ds f.t.is64 f.d.toNat (fun l => intBin f.t false max (c.rA f l) (c.rB f l)) ∧
    Computes (.iabs f) s c f.com f.ds f.t.is64 f.d.toNat (fun l => intBin f.t (FmtR.sat f) (fun x _ => (x.natAbs : Int)) (c.rA f l) 0) ∧
    Computes (.shl f) s c f.com f.ds f.t.is64 f.d.toNat (fun l => shiftElems f.t shlElem (c.rA f l) (c.rB1 f l)) ∧
    Computes (.shr f) s c f.com f.ds f.t.is64 f.d.toNat (fun l => shiftElems f.t shrElem (c.rA f l) (c.rB1 f l)) ∧
    Computes (.sar f) s c f.com f.ds f.t.is64 f.d.toNat (fun l => shiftElems f.t sarElem (c.rA f l) (c.rB1 f l)) ∧
    Computes (.log3 f) s c f.com f.ds f.t.is64 f.d.toNat
      (fun l => log3 f.c (c.rA f l) (c.rB f l) (c.src f.ds f.t.is64 f.d l)) ∧
    Computes (.popc f) s c f.com f.ds false f.d.toNat (fun l => BitVec.ofNat 64 (popCount f.t.width (c.rA f l))) ∧
    Computes (.clz f) s c f.com f.ds false f.d.toNat (fun l => BitVec.ofNat 64 (leadingZeros f.t.width (c.rA f l))) ∧
    Computes (.bfx f) s c f.com f.ds f.t.is64 f.d.toNat (fun l => bfx f.t (c.rA f l) (c.rB1 f l)) ∧
    Computes (.bfi f) s c f.com f.ds f.t.is64 f.d.toNat
      (fun l => bfi f.t (c.rA f l) (c.rB f l) (loWord (c.src f.cs false f.c l))) ∧
    Computes (.lea f) s c f.com f.ds f.t.is64 f.d.toNat (fun l => lea f.t (f.c.toNat % 64) (c.rA f l) (c.rB1 f l)) ∧
    Computes (.sel f) s c f.com f.ds f.t.is64 f.d.toNat
      (fun l => if (c.rdP (f.c.toNat % 8)).getLsbD l then c.rA f l else c.rB f l) ∧
    Computes (.mov f) s c f.com f.ds f.t.is64 f.d.toNat (fun l => c.rA f l)) ∧
  ((∀ (s : State) (c : Cur) (f : FmtI), s.cur? = some c →
    Computes (.iaddImm f) s c f.com f.ds false f.d.toNat (fun l => intBin f.t false (· + ·) (c.iA f l) (FmtI.intImm f)) ∧
    Computes (.isubImm f) s c f.com f.ds false f.d.toNat (fun l => intBin f.t false (· - ·) (c.iA f l) (FmtI.intImm f)) ∧
    Computes (.imulImm f) s c f.com f.ds false f.d.toNat (fun l => intBin f.t false (· * ·) (c.iA f l) (FmtI.intImm f)) ∧
    Computes (.iminImm f) s c f.com f.ds false f.d.toNat (fun l => intBin f.t false min (c.iA f l) (FmtI.intImm f)) ∧
    Computes (.imaxImm f) s c f.com f.ds false f.d.toNat (fun l => intBin f.t false max (c.iA f l) (FmtI.intImm f)) ∧
    Computes (.shlImm f) s c f.com f.ds false f.d.toNat (fun l => shiftElems f.t shlElem (c.iA f l) (f.imm.signExtend 32)) ∧
    Computes (.shrImm f) s c f.com f.ds false f.d.toNat (fun l => shiftElems f.t shrElem (c.iA f l) (f.imm.signExtend 32)) ∧
    Computes (.sarImm f) s c f.com f.ds false f.d.toNat (fun l => shiftElems f.t sarElem (c.iA f l) (f.imm.signExtend 32)) ∧
    Computes (.faddImm f) s c f.com f.ds false f.d.toNat
      (fun l => floatI f.t f.rm.toNat (FVal.add f.rm.toNat) (c.iA f l) (FmtI.floatImm f)) ∧
    Computes (.fmulImm f) s c f.com f.ds false f.d.toNat (fun l => floatI f.t f.rm.toNat FVal.mul (c.iA f l) (FmtI.floatImm f)) ∧
    Computes (.fminImm f) s c f.com f.ds false f.d.toNat (fun l => floatI f.t 0 FVal.min (c.iA f l) (FmtI.floatImm f)) ∧
    Computes (.fmaxImm f) s c f.com f.ds false f.d.toNat (fun l => floatI f.t 0 FVal.max (c.iA f l) (FmtI.floatImm f))) ∧
  (∀ (s : State) (c : Cur) (f : FmtL), s.cur? = some c →
    Computes (.movi f) s c f.com f.ds false f.d.toNat (fun _ => f.imm.setWidth 64)))

/-- What integer addition, subtraction and multiplication give (R156, R385): element by element, with no carry between
elements, the exact result modulo 2^w; with SAT the nearest bound of the type. -/
def Obligations.IntegerElementsWrapOrSaturate : Prop :=
  ∀ (t : Ty) (op : Int → Int → Int) (a b : DWord) (i : Nat), i < t.elems →
    let x := toInt t.signed t.width (elem a t.width i)
    let y := toInt t.signed t.width (elem b t.width i)
    elem (intBin t false op a b) t.width i = (op x y % 2 ^ t.width).toNat ∧
    toInt t.signed t.width (elem (intBin t true op a b) t.width i) =
      max (intMin t.signed t.width) (min (intMax t.signed t.width) (op x y))

/-- BREV (R352): opcode 0x0F of format R, in a compute or mixed clause; of type u32 or u64, with B, C and M zero and even pairs at
u64; bit i of the result is bit w - 1 - i of A, in every lane that passes, and nothing else changes. -/
def Obligations.BrevReversesBits : Prop :=
  (∀ (w i : Nat) (d : DWord), i < w → w ≤ 64 → (bitReverse w d).getLsbD i = d.getLsbD (w - 1 - i)) ∧
  (∀ (f : FmtR) (bud : Nat), (encode (.brev f)).extractLsb' 0 8 = 0x0F ∧ ((Instr.brev f).illegal bud = none →
    (f.t = .u32 ∨ f.t = .u64) ∧ f.b = 0 ∧ f.c = 0 ∧ f.m = 0 ∧ (f.t = .u64 → f.d.toNat % 2 = 0 ∧ f.a.toNat % 2 = 0))) ∧
  (∀ cls, cls ≤ 6 → (opAdmitted cls 0x0F = true ↔ cls = 0 ∨ cls = 6)) ∧
  (∀ (s : State) (c : Cur) (f : FmtR), s.cur? = some c → PairOk f.t.is64 f.d →
    Computes (.brev f) s c f.com f.ds f.t.is64 f.d.toNat (fun l => bitReverse f.t.width (c.rA f l))) ∧
  decodeWord 0x000000000203070F = .ok (.brev ⟨⟨0, false, 7⟩, 0, false, false, false, false, .u32, 0, 0, 2, 3⟩) ∧
  (Instr.brev ⟨⟨0, false, 7⟩, 0, false, false, false, false, .u32, 0, 0, 2, 3⟩).illegal 256 = none ∧ bitReverse 32 1 = 0x80000000

/-! ### Floating point and conversion -/

/-- The float instructions of format R (R152, R377), CVT (R363, R364), CVTEF (R365) and PACK4 (R416): each writes its destination with
the result of its rule in every lane that passes, and changes nothing else.

UNPK4 writes its four destination registers, in every lane that passes, with the four elements of A as they stood before
any of them was written (R460), and changes nothing else. -/
def Obligations.FloatInstructionsComplete : Prop :=
  (∀ (s : State) (c : Cur) (f : FmtR), s.cur? = some c →
    (PairOk f.t.is64 f.d →
      Computes (.fadd f) s c f.com f.ds f.t.is64 f.d.toNat
        (fun l => floatR f (fun a b _ => a.add (FmtR.mode f) b) (c.rA f l) (c.rB f l) 0) ∧
      Computes (.fmul f) s c f.com f.ds f.t.is64 f.d.toNat (fun l => floatR f (fun a b _ => a.mul b) (c.rA f l) (c.rB f l) 0) ∧
      Computes (.ffma f) s c f.com f.ds f.t.is64 f.d.toNat
        (fun l => floatR f (fun a b k => (a.mul b).add (FmtR.mode f) k) (c.rA f l) (c.rB f l) (c.rC f l)) ∧
      Computes (.fmin f) s c f.com f.ds f.t.is64 f.d.toNat (fun l => floatR f (fun a b _ => a.min b) (c.rA f l) (c.rB f l) 0) ∧
      Computes (.fmax f) s c f.com f.ds f.t.is64 f.d.toNat (fun l => floatR f (fun a b _ => a.max b) (c.rA f l) (c.rB f l) 0) ∧
      Computes (.cvt f) s c f.com f.ds f.t.is64 f.d.toNat
        (fun l => cvtAll f c.split.fmtSat (c.src f.as (FmtR.cvtSrc f).is64 f.a l))) ∧
    (PairOk true f.d → Computes (.cvtef f) s c f.com f.ds true f.d.toNat
        (fun l => cvtef f.t (FmtR.cvtMods f) c.split.fmtSat (loWord (c.src f.as false f.a l)))) ∧
    Computes (.pack4 f) s c f.com f.ds false f.d.toNat
      (fun l => pack4 f.t (FmtR.cvtMods f) c.split.fmtSat fun i => loWord (c.src f.as false (f.a + BitVec.ofNat 8 i) l))) ∧
  (∀ (s : State) (c : Cur) (f : FmtR), s.cur? = some c → f.ds = false → f.d.toNat + 3 < 256 →
    ∃ t d, exec (.unpk4 f) s = .next t ∧ ActsAlone s t c d ∧ TeamAsBefore c d ∧ d.split = c.split ∧
      d.group = { c.group with v := d.group.v, splits := d.group.splits } ∧
      ∀ l n, l < 64 → n < 256 → d.group.vreg l n =
        if (c.pass f.com).getLsbD l ∧ f.d.toNat ≤ n ∧ n < f.d.toNat + 4 then
          BitVec.ofNat 32 (unpk4 f.t (c.src f.as false f.a l) (n - f.d.toNat))
        else c.group.vreg l n)

/-- The narrow float formats lose nothing (R157, R158): rounding the value that a code stands for gives the code back, for
every code of e4m3 and e5m2 that is no NaN, in every rounding mode. -/
def Obligations.NarrowFloatsRoundTrip : Prop :=
  ∀ (t : Ty) (mode n : Nat), (t = .e4m3x4 ∨ t = .e5m2x4) → mode < 4 → n < 256 →
    (floatFmt t).decode n = .nan ∨ (floatFmt t).round mode false ((floatFmt t).decode n) = n

/-! ### Comparisons and predicates -/

/-- The comparisons: each writes its predicate in every lane that passes with the outcome of its condition (R378, R386), a
comparison with a NaN by the unordered conditions, and changes nothing else.

p7 reads as true in every lane, and a write to it changes nothing (R146). -/
def Obligations.ComparisonsComplete : Prop :=
  ((∀ (s : State) (c : Cur) (f : FmtR), s.cur? = some c →
    Compares (.icmp f) s c f.com f.d.toNat (fun l => condInt f.c.toNat (intVal f.t (c.rA f l)) (intVal f.t (c.rB f l))) ∧
    Compares (.fcmp f) s c f.com f.d.toNat (fun l => condFloat f.c.toNat
      (((FmtR.fA f) (elem (c.rA f l) f.t.width 0)).cmp ((FmtR.fB f) (elem (c.rB f l) f.t.width 0))))) ∧
  (∀ (s : State) (c : Cur) (f : FmtI), s.cur? = some c →
    Compares (.icmpImm f) s c f.com f.d.toNat (fun l => condInt (FmtI.cond f) (intVal f.t (c.iA f l)) (intVal f.t (FmtI.intImm f))) ∧
    Compares (.fcmpImm f) s c f.com f.d.toNat (fun l => condFloat (FmtI.cond f)
      (((floatFmt f.t).decode (elem (c.iA f l) f.t.width 0)).cmp ((floatFmt f.t).decode (elem (FmtI.floatImm f) f.t.width 0)))))) ∧
  ((∀ (c : Cur), c.rdP 7 = BitVec.allOnes 64) ∧ (∀ (g : Group) (m v : Lanes), g.wrP 7 m v = g))

/-! ### The SFU and the instructions across lanes -/

/-- The SFU instructions: each writes its destination with the function of every element of A (R379 to R381) in every lane that
passes, its destination pending for its window; nothing else changes. The approximated functions hold for every choice within
the bound that R380 leaves open (log 7). -/
def Obligations.SfuInstructionsComplete : Prop :=
  ∀ (s : State) (c : Cur) (f : FmtR), s.cur? = some c →
    let each (fn : Nat → Nat) (l : Nat) : DWord := packElems f.t.width f.t.elems fun k => fn (elem (c.rA f l) f.t.width k)
    ComputesLate (.frcp f) s c f.com f.ds false f.d.toNat (each (sfuExact f FVal.recip)) ∧
    ComputesLate (.fsqrt f) s c f.com f.ds false f.d.toNat (each (sfuExact f FVal.root)) ∧
    ComputesLate (.frsq f) s c f.com f.ds false f.d.toNat (each (sfuApprox f frsq32)) ∧
    ComputesLate (.fex2 f) s c f.com f.ds false f.d.toNat (each (sfuApprox f (fex232 0x2B))) ∧
    ComputesLate (.flg2 f) s c f.com f.ds false f.d.toNat (each (sfuApprox f flg232)) ∧
    ComputesLate (.fsin f) s c f.com f.ds false f.d.toNat (each (sfuApprox f (ftrig32 0x2D 0))) ∧
    ComputesLate (.fcos f) s c f.com f.ds false f.d.toNat (each (sfuApprox f (ftrig32 0x2E 1))) ∧
    ComputesLate (.ftanh f) s c f.com f.ds false f.d.toNat (each (sfuApprox f ftanh32))

/-- REDG and SCANG: REDG writes the tree of R168 over all lanes of the group, lanes that do not pass giving the identity, and
SCANG the inclusive or exclusive value of R169; the destination is pending for its window, and nothing else changes.

SHFL gives every lane that passes the value of A in its source lane, which is the lane itself where the source is outside
its segment or not active (R447), and the predicate tells which; every other register is as before.

VOTE in its three modes (R461): the predicate or the scalar says whether some lane, or every lane, that passes has pA; the
ballot gives the lanes that have it. With no lane that passes nothing changes.
The model's own choices that it touches: log 86. -/
def Obligations.LaneCrossingInstructionsComplete : Prop :=
  (∀ (s : State) (c : Cur) (f : FmtR), s.cur? = some c → PairOk f.t.is64 f.d →
    let op := f.c.toNat % 16
    ComputesLate (.redg f) s c f.com f.ds f.t.is64 f.d.toNat
      (fun _ => BitVec.ofNat 64 (redTree (redOp op f.t (FmtR.mode f)) (redInput c f op) (Nat.log2 c.group.width) 0)) ∧
    ComputesLate (.scang f) s c f.com false f.t.is64 f.d.toNat
      (fun l => BitVec.ofNat 64 (
        let upTo := scanAt (redOp op f.t (FmtR.mode f)) (redInput c f op) (Nat.log2 c.group.width)
        if f.c.getLsbD 4 then (if l = 0 then redIdent op f.t else upTo (l - 1)) else upTo l))) ∧
  (∀ (s : State) (c : Cur) (f : FmtR), s.cur? = some c → f.t.is64 = false → f.d.toNat < 256 →
    let src (l : Nat) := shflSrc c (f.c.toNat % 4) (f.c.toNat / 4 % 8) l (c.rB1 f l).toNat
    ∃ t d, exec (.shfl f) s = .next t ∧ ActsAlone s t c d ∧ TeamAsBefore c d ∧ PendingMoved c d ∧
      d.group = { c.group with v := d.group.v, p := d.group.p, splits := d.group.splits } ∧
      (∀ l n, l < 64 → n < 256 → d.group.vreg l n =
        if (c.pass f.com).getLsbD l ∧ n = f.d.toNat then loWord (c.rA f (src l).1) else c.group.vreg l n) ∧
      (∀ l n, l < 64 → d.group.preg n l =
        if n = f.c.toNat / 32 ∧ n < 7 ∧ (c.pass f.com).getLsbD l then (src l).2 else c.group.preg n l)) ∧
  (∀ (s : State) (c : Cur) (f : FmtR), s.cur? = some c →
    let m := c.pass f.com
    let ps := c.rdP (f.a.toNat % 8) &&& m
    (m = 0 → exec (.vote f) s = .next (s.put (c.deferI (.vote f) 0 true))) ∧
    (m ≠ 0 → f.c.toNat % 4 = 2 → PairOk true f.d → ComputesLate (.vote f) s c f.com true true f.d.toNat (fun _ => ps)) ∧
    (m ≠ 0 → f.c.toNat % 4 ≠ 2 → f.ds = true → ComputesLate (.vote f) s c f.com true false f.d.toNat
      (fun _ => if (if f.c.toNat % 4 = 0 then ps ≠ 0 else ps = m) then 1 else 0)) ∧
    (m ≠ 0 → f.c.toNat % 4 ≠ 2 → f.ds = false → ∃ t d, exec (.vote f) s = .next t ∧ ActsAlone s t c d ∧ TeamAsBefore c d ∧
      PendingMoved c d ∧ PredIs c d f.com (f.d.toNat % 8) (fun _ => if f.c.toNat % 4 = 0 then ps ≠ 0 else ps = m)))

/-! ### System registers and values -/

/-- The instructions that read the system (R366, R411, R412, R414, R419, R457): MOVSR gives the register that R150 names to a
split that may read it, MOVSV the system value of each lane, CYCLE the die's cycle counter, TIME its copy of common time, PGDIST
the word of R200. Each writes its destination and changes nothing else; MOVSR, TIME and PGDIST with no lane that passes change
nothing at all. The model's own choices that it touches: log 89, 94. -/
def Obligations.SystemReadsComplete : Prop :=
  ∀ (s : State) (c : Cur) (f : FmtS), s.cur? = some c →
    (c.acts f.com = false → exec (.movsr f) s = .next s ∧ exec (.time f) s = .next s ∧ exec (.pgdist f) s = .next s) ∧
    (c.acts f.com = true → s.sysDenied c f.sys.toNat false = false → PairOk (sysWide f.sys.toNat) f.d →
      Computes (.movsr f) s c f.com true (sysWide f.sys.toNat) f.d.toNat (fun _ => s.sysGet c f.sys.toNat)) ∧
    Computes (.movsv f) s c f.com (f.imm = 1) false f.d.toNat (fun l => (s.sysValue c f.a.toNat l).setWidth 64) ∧
    (PairOk true f.d →
      Computes (.cycle f) s c f.com true true f.d.toNat (fun _ => BitVec.ofNat 64 (s.die c.team.die).cycle)) ∧
    (c.acts f.com = true → PairOk true f.d →
      ComputesLate (.time f) s c f.com true true f.d.toNat (fun _ => BitVec.ofNat 64 (s.die c.team.die).time)) ∧
    (c.acts f.com = true → ComputesLate (.pgdist f) s c f.com true false f.d.toNat
      (fun _ => (s.pgdist c.team.die c.team.ctx (c.rdPair f.a.toNat)).setWidth 64))

/-- MOVSR writes and SETFMT (R411 to R413, R446): a register of the group takes the value that its map stores and every other
register of the group keeps its own; a shared register is written as a write of the host driver writes it; SETFMT sets the
split's FMT and nothing else.

An access to a system register that R412 refuses, for want of privilege, of write access, or of the register, raises PROT
with kind 3 and has no other effect; with no lane that passes it has none at all. -/
def Obligations.SystemWritesComplete : Prop :=
  (∀ (s : State) (c : Cur) (f : FmtS), s.cur? = some c → c.acts f.com = true →
    let id := f.sys.toNat
    let v := if sysWide id then c.rdPair f.a.toNat else (c.rdS f.a.toNat).setWidth 64
    (s.sysDenied c id true = false → sysOfGroup id = true →
      ∃ t d, exec (.movsrWrite f) s = .next t ∧ ActsAlone s t c d ∧ TeamAsBefore c d ∧ d.split = c.split ∧
        d.group = { c.group with regs := d.group.regs, splits := d.group.splits } ∧
        d.group.regs.get id = (if sysWide id then sysStored id v else (loWord (sysStored id v)).setWidth 64) ∧
        ∀ k, k ≠ id → d.group.regs.get k = c.group.regs.get k) ∧
    (s.sysDenied c id true = false → sysOfGroup id = false →
      exec (.movsrWrite f) s = .next (s.sharedSet c.team.die c.team.ctx id (sysStored id v))) ∧
    (∃ t d, exec (.setfmt f) s = .next t ∧ ActsAlone s t c d ∧ TeamAsBefore c d ∧ d.split = { c.split with fmt := f.imm } ∧
      d.group = { c.group with splits := d.group.splits })) ∧
  (∀ (s : State) (c : Cur) (f : FmtS), s.cur? = some c →
    (c.acts f.com = true → s.sysDenied c f.sys.toNat false = true → exec (.movsr f) s = .next (s.protAt c 3)) ∧
    (c.acts f.com = true → s.sysDenied c f.sys.toNat true = true → exec (.movsrWrite f) s = .next (s.protAt c 3)) ∧
    (c.acts f.com = false → exec (.movsrWrite f) s = .next s) ∧
    (∀ id w, sysAccess id = some .p → s.sysDenied c id w = !(s.ctx c.team.ctx).priv))

/-- A register of a context or a die reads back, in the context and on the die to which it was written, as its map stores the
value (R3, R150, R412): STRANDTAB, PFXTAB, FLHEAD, DENSEF, OWNER, FAIRTIME and PRIO. FABKEY reads 0 whatever is written
(R306). The write leaves every byte of memory and every team as it was. -/
def Obligations.SharedRegistersReadBack : Prop :=
  ∀ (s : State) (die ctx core slot id : Nat) (v : DWord), id ∈ [0x30, 0x31, 0x32, 0x33, 0x61, 0x62, 0x70, 0x71] →
    ∃ t, exec (.systemRegisterWrite die ctx id v) s = .next t ∧
      t.sharedGet die core slot ctx id = (if id = 0x61 then 0 else sysStored id v) ∧
      SameMemory s t ∧ t.teams = s.teams ∧ t.tasks = s.tasks ∧ t.mgmt = s.mgmt

/-! ### Control -/

/-- NOP (R415): its word has opcode 0 and nothing above bit 11, with any guard; no other word of opcode 0 is legal; it stands in
every class of clause; a step issues it alone, and it changes no state: it only moves its clause on. That step takes place where the
commands of teams have the names that were given to them, as they have in every state of a run, and nothing is being asked at another
package for the split. -/
def Obligations.NopChangesNothing : Prop :=
  (∀ (k : Com) (bud : Nat), k.la = 0 → (Instr.nop k).illegal bud = none ∧ decodeWord (encode (.nop k)) = .ok (.nop k) ∧
    (encode (.nop k)).extractLsb' 0 8 = 0 ∧ (encode (.nop k)).extractLsb' 12 52 = 0) ∧
  (∀ (w : DWord) (bud : Nat), w.extractLsb' 0 8 = 0 → w.extractLsb' 12 52 ≠ 0 →
    (∃ r, decodeWord w = .error r) ∨ ∃ i, decodeWord w = .ok i ∧ (i.illegal bud).isSome = true) ∧
  encode (.nop ⟨0, false, 7⟩) = 0x700 ∧ (∀ cls, cls ≤ 6 → opAdmitted cls 0 = true) ∧
  (∀ (s : State) (c : Cur) (k : Com), s.cur? = some c → exec (.nop k) s = .next s) ∧
  (∀ (s : State) (c : Cur) (w : DWord) (k : Com), PortAdmits s c w (.nop k) → (∀ t ∈ s.teams, ∀ q ∈ t.2.cmds, q.1 < s.nextId) →
    s.asksNothing c.ref →
    step s = .next ((s.put { c with split := c.split.advance (.nop k) }).finish c.ref))

/-- The control instructions when all lanes of the split go one way: BRA whose lanes all take or all fall (R350), BRX of either
KIND and CALL, direct or indirect, to one address in the code (R353, R357), RET to the pair s62 (R435), and YIELD and LOOP, which
stay in their clause (R397, R398, R465). The link of a CALL is the address after its clause, in s62 and s63; an indirect target is
read before it is written. A target outside the code raises PROT with kind 4, and nothing moves. LOOP with a count, direct or in a
scalar, opens a level inside those that are open; with count 0 the split goes to the exit address after its clause; at depth 3, or
with an exit beyond that of the level around it, it raises ILLOP with reason 10. The model's own choices that it touches: log 13. -/
def Obligations.ControlTransfersComplete : Prop :=
  ∀ (s : State) (c : Cur) (f : FmtB), s.cur? = some c → c.split.mask ≠ 0 →
    (c.pass f.com = c.split.mask → ∃ t d, exec (.bra f) s = .next t ∧
      Lands s t c d (takenLoops c.split.pc (c.offset f.tgt) c.split.loops) (c.offset f.tgt)) ∧
    (c.pass f.com = 0 → ∃ t d, exec (.bra f) s = .next t ∧ Lands s t c d c.after.1 c.after.2) ∧
    (c.pass f.com = c.split.mask →
      let goal (l : Nat) : DWord := BitVec.ofNat 64 (((s.taskOf c.team).map (·.kimg)).getD 0 +
        (if f.kind = 1 then c.rdS (f.tgt.extractLsb' 0 8).toNat else c.rdV l (f.tgt.extractLsb' 0 8).toNat).toNat)
      (∀ a, (∀ l ∈ lanes c.split.mask, goal l = a) → s.codeOk c a = true →
        ∃ t d, exec (.brx f) s = .next t ∧ Lands s t c d (takenLoops c.split.pc a c.split.loops) a) ∧
      ((∃ l ∈ lanes c.split.mask, s.codeOk c (goal l) = false) → exec (.brx f) s = .next (s.protAt c 4))) ∧
    (∀ a : DWord, c.acts f.com = true → ((f.kind = 0 ∧ a = c.offset f.tgt) ∨ (f.kind = 1 ∧ s.codeOk c a = true ∧
        a = BitVec.ofNat 64 (((s.taskOf c.team).map (·.kimg)).getD 0 + (c.rdS (f.tgt.extractLsb' 0 8).toNat).toNat))) →
      ∃ t d, exec (.call f) s = .next t ∧ ActsAlone s t c d ∧ TeamAsBefore c d ∧
        d.split.pc = a ∧ d.split.mask = c.split.mask ∧ d.split.opn = false ∧ d.split.loops = c.split.loops ∧
        d.group.sreg 62 = loWord c.split.next ∧ d.group.sreg 63 = hiWord c.split.next ∧
        (∀ n, n ≠ 62 → n ≠ 63 → d.group.sreg n = c.group.sreg n) ∧ d.group.v = c.group.v ∧ d.group.p = c.group.p) ∧
    (c.acts f.com = true → f.kind = 1 → s.codeOk c (BitVec.ofNat 64 (((s.taskOf c.team).map (·.kimg)).getD 0 +
        (c.rdS (f.tgt.extractLsb' 0 8).toNat).toNat)) = false → exec (.call f) s = .next (s.protAt c 4)) ∧
    (c.acts f.com = true → s.codeOk c (c.rdPair 62) = true → ∃ t d, exec (.ret f) s = .next t ∧
      Lands s t c d c.split.loops (c.rdPair 62)) ∧
    (c.acts f.com = true → s.codeOk c (c.rdPair 62) = false → exec (.ret f) s = .next (s.protAt c 4)) ∧
    (c.acts f.com = true → ∃ t d, exec (.yield f) s = .next t ∧ ActsAlone s t c d ∧ TeamAsBefore c d ∧
      d.split = { c.split with yld := true } ∧ d.group = { c.group with splits := d.group.splits }) ∧
    (c.acts f.com = true →
      let x := c.offset f.tgt
      let n : Word := if f.kind = 1 then c.rdS (f.rcv.extractLsb' 0 8).toNat else f.rcv.setWidth 32
      (c.split.loops.length < 3 → (∀ l, c.split.loops.head? = some l → x.toNat ≤ l.exit.toNat) →
        ∃ t d, exec (.loop f) s = .next t ∧ ActsAlone s t c d ∧ TeamAsBefore c d ∧ d.group = { c.group with splits := d.group.splits } ∧
          (n ≠ 0 → d.split = { c.split with loops := ⟨c.split.next, x, n⟩ :: c.split.loops }) ∧
          (n = 0 → d.split = { c.split with jump := some x } ∧ d.after = (c.split.loops, x))) ∧
      (3 ≤ c.split.loops.length → exec (.loop f) s = .next (s.illop c 10)) ∧
      (∀ l, c.split.loops.head? = some l → l.exit.toNat < x.toNat → exec (.loop f) s = .next (s.illop c 10)))

/-- A BRA that diverges in a group with room for a split (R47 to R49): the lanes that fall keep the split, the lanes that are
taken become a new one at the lowest free index with no wait, batch or arrival of its own, the two masks part the old one, and
both go on with the same counters. The model's own choices that it touches: log 68.

A BRX whose lanes go to two addresses (R48, R353): the lanes that go where the lowest goes keep the split, the others become the new
one. In a group of four splits, or with an overflow stack that is not empty, a BRA or BRX is served serially (R52): the split goes
on with the taken side, or the side of the lowest lane, and one entry holds the other side's lanes, PC and loop state, the join mask
and X; a ninth entry is DIVDEPTH with detail 1, no X is DIVDEPTH with detail 2. Before its next clause (R53) a split at X of its top
entry goes on with the lanes that the entry holds back, and, when they too have come to X, with the join mask.
The lanes that have exited are never among them. -/
def Obligations.BranchDivergesIntoTwoSplits : Prop :=
  (∀ (s : State) (c : Cur) (f : FmtB), s.cur? = some c → f.kind = 0 → c.split.ovf = [] → c.group.splits.length < 4 →
    c.pass f.com ≠ 0 → c.split.mask &&& ~~~(c.pass f.com) ≠ 0 → c.split.jump = none →
    (fallThrough c.split.loops c.split.next).2 ≠ c.offset f.tgt →
    ∃ t d e, exec (.bra f) s = .next t ∧ t.lookup? c.ref = some d ∧
      t.lookup? { c.ref with split := c.group.freeSplit } = some e ∧ c.group.freeSplit ≠ c.ref.split ∧
      d.split.mask = c.split.mask &&& ~~~(c.pass f.com) ∧ e.split.mask = c.pass f.com ∧
      d.split.mask &&& e.split.mask = 0 ∧ d.split.mask ||| e.split.mask = c.split.mask ∧
      d.split.pc = (fallThrough c.split.loops c.split.next).2 ∧ e.split.pc = c.offset f.tgt ∧
      d.split.ctrs = c.split.ctrs ∧ e.split.ctrs = c.split.ctrs ∧ e.split.arr = [] ∧ e.split.held = [] ∧ e.split.batch = [] ∧
      d.split.drec = e.split.drec ∧ SameMachine s t ∧
      d.group.v = c.group.v ∧ d.group.s = c.group.s ∧ d.group.p = c.group.p) ∧
  (∀ (s : State) (c : Cur) (f : FmtB) (m n : Lanes) (a b : DWord), s.cur? = some c → c.pass f.com = c.split.mask →
    c.split.mask = m ||| n → m &&& n = 0 → n ≠ 0 → m.getLsbD (lowLane c.split.mask) = true → a ≠ b →
    (let goal (l : Nat) : DWord := BitVec.ofNat 64 (((s.taskOf c.team).map (·.kimg)).getD 0 +
      (c.rdV l (f.tgt.extractLsb' 0 8).toNat).toNat)
    f.kind = 0 ∧ (∀ l ∈ lanes m, goal l = a) ∧ ∀ l ∈ lanes n, goal l = b) → s.codeOk c a = true → s.codeOk c b = true →
    (c.split.ovf = [] → c.group.splits.length < 4 →
      ∃ t d e, exec (.brx f) s = .next t ∧ t.lookup? c.ref = some d ∧
        t.lookup? { c.ref with split := c.group.freeSplit } = some e ∧ c.group.freeSplit ≠ c.ref.split ∧
        d.split.mask = m ∧ d.split.pc = a ∧ d.split.loops = takenLoops c.split.pc a c.split.loops ∧
        e.split.mask = n ∧ e.split.pc = b ∧ e.split.loops = takenLoops c.split.pc b c.split.loops ∧
        d.split.ctrs = c.split.ctrs ∧ e.split.ctrs = c.split.ctrs ∧ d.split.drec = e.split.drec ∧ SameMachine s t ∧
        SameRegisters c.group d.group) ∧
    (∀ x, (c.split.ovf ≠ [] ∨ 4 ≤ c.group.splits.length) → c.joinPc f = some x → c.split.ovf.length < 8 →
      ∃ t d, exec (.brx f) s = .next t ∧ ActsAlone s t c d ∧ TeamAsBefore c d ∧ d.split.mask = m ∧ d.split.pc = a ∧
        d.split.loops = takenLoops c.split.pc a c.split.loops ∧ d.split.fmt = c.split.fmt ∧ d.split.ctrs = c.split.ctrs ∧
        d.split.ovf = ⟨some n, b, some c.split.mask, x, c.split.fmt, takenLoops c.split.pc b c.split.loops⟩ :: c.split.ovf ∧
        SameRegisters c.group d.group)) ∧
  (∀ (s : State) (c : Cur) (f : FmtB), s.cur? = some c → f.kind = 0 → (c.split.ovf ≠ [] ∨ 4 ≤ c.group.splits.length) →
    c.pass f.com ≠ 0 → c.split.mask &&& ~~~(c.pass f.com) ≠ 0 → c.split.jump = none →
    let fall := fallThrough c.split.loops c.split.next
    fall.2 ≠ c.offset f.tgt →
    (∀ x, c.joinPc f = some x → c.split.ovf.length < 8 →
      ∃ t d, exec (.bra f) s = .next t ∧ ActsAlone s t c d ∧ TeamAsBefore c d ∧ d.split.mask = c.pass f.com ∧
        d.split.pc = c.offset f.tgt ∧ d.split.loops = takenLoops c.split.pc (c.offset f.tgt) c.split.loops ∧
        d.split.fmt = c.split.fmt ∧ d.split.ctrs = c.split.ctrs ∧
        d.split.ovf = ⟨some (c.split.mask &&& ~~~(c.pass f.com)), fall.2, some c.split.mask, x, c.split.fmt, fall.1⟩ :: c.split.ovf ∧
        SameRegisters c.group d.group) ∧
    (∀ x, c.joinPc f = some x → 8 ≤ c.split.ovf.length → exec (.bra f) s = .next (s.fatal c.ref .divdepth 1)) ∧
    (c.joinPc f = none → exec (.bra f) s = .next (s.fatal c.ref .divdepth 2))) ∧
  ∀ (c : Cur) (e : Ovf) (rest : List Ovf), c.split.opn = false → c.split.park = .none → c.split.left = false → c.split.passed = false →
    c.split.hit = false → c.split.ovf = e :: rest → (c.split.mask = 0 ∨ e.x = c.split.pc) →
    (∀ m, e.pend = some m → m &&& ~~~c.group.exited ≠ 0 → c.bound.split = { c.split with
      mask := m &&& ~~~c.group.exited, pc := e.resume, fmt := e.fmt, loops := e.loops, ovf := { e with pend := none } :: rest }) ∧
    (∀ m, e.pend = none → e.join = some m → m &&& ~~~c.group.exited ≠ 0 → (∀ q, rest.head? = some q → q.x ≠ e.x) →
      c.bound.split = { c.split with mask := m &&& ~~~c.group.exited, pc := e.x, fmt := e.fmt, ovf := rest })

/-- EXIT and MERGE (R376, R405): every lane of an exiting split has left, and the split with nothing to fall back to waits for
its work in flight; one with an overflow entry goes on with the lanes that the entry holds back (R53). A split that comes to a MERGE
while another split of its group is not at one waits there; with an overflow entry MERGE is DIVDEPTH with detail 3 (R54).
The model's own choices that it touches: log 66. -/
def Obligations.ExitAndMergeComplete : Prop :=
  (∀ (s : State) (c : Cur) (f : FmtB) (e : Ovf) (rest : List Ovf), s.cur? = some c → c.acts f.com = true → c.split.ovf = e :: rest →
    exec (.merge f) s = .next (s.fatal c.ref .divdepth 3) ∧
    ∀ m, e.pend = some m → m &&& ~~~(c.group.exited ||| c.split.mask) ≠ 0 →
      ∃ t d, exec (.exit f) s = .next t ∧ ActsAlone s t c d ∧ TeamAsBefore c d ∧ d.group.exited = c.group.exited ||| c.split.mask ∧
        d.split.mask = m &&& ~~~(c.group.exited ||| c.split.mask) ∧ d.split.pc = e.resume ∧ d.split.fmt = e.fmt ∧
        d.split.loops = e.loops ∧ d.split.ovf = { e with pend := none } :: rest ∧ d.split.park = c.split.park ∧ d.split.opn = false ∧
        SameRegisters c.group d.group) ∧
  ∀ (s : State) (c : Cur) (f : FmtB), s.cur? = some c → c.acts f.com = true → c.split.ovf = [] →
    (∃ t d, exec (.exit f) s = .next t ∧ ActsAlone s t c d ∧ TeamAsBefore c d ∧ d.split.mask = 0 ∧ d.split.park = .exit ∧
      d.split.opn = false ∧ d.group.exited = c.group.exited ||| c.split.mask ∧ d.group.v = c.group.v ∧ d.group.s = c.group.s ∧
      d.group.p = c.group.p) ∧
    ((∃ q ∈ c.group.splits, q.1 ≠ c.ref.split ∧ q.2.park = .none ∧ mget? c.group.splits q.1 = some q.2) →
      ∃ t d, exec (.merge f) s = .next t ∧ ActsAlone s t c d ∧ TeamAsBefore c d ∧ d.split.park = .merge (c.group.arrival c.ref.split) ∧
        d.split.opn = false ∧ d.split.pc = c.split.pc ∧ d.split.mask = c.split.mask ∧
        d.group = { c.group with splits := d.group.splits })

/-! ### Traps and the return from them -/

/-- Taking a user trap (R310 to R312): with a handler set and none running in the group, TRAPINFO says the cause, the split and
that a handler runs, TRAPPC holds the resume point, the trap entry record the split's entry record, and the split goes on at
TRAPVEC, where the next clause must be a region entry; its lanes and every other register are as before.

TRAP raises SWTRAP with its code as detail, and resumes after its clause (R459); with no lane that passes it has no effect. -/
def Obligations.TrapInstructionsComplete : Prop :=
  (∀ (s : State) (c : Cur) (cause : Cause) (detail : Word) (resume : DWord), s.lookup? c.ref = some c →
    c.group.regs.trapvec ≠ 0 → c.group.act = false →
    ∃ d, ActsAlone s (s.userTrap c.ref cause detail resume) c d ∧ TeamAsBefore c d ∧
      d.split.pc = c.group.regs.trapvec ∧ d.split.needRe = true ∧ d.split.park = .none ∧ d.split.opn = false ∧
      d.split.mask = c.split.mask ∧ d.split.loops = c.split.loops ∧ d.split.fmt = c.split.fmt ∧
      d.group.act = true ∧ d.group.trapSplit = c.ref.split % 4 ∧ d.group.regs.trappc = resume ∧
      d.group.regs.trapinfo.extractLsb' 0 32 = detail ∧ (d.group.regs.trapinfo.extractLsb' 32 8).toNat = cause.code ∧
      (d.group.regs.trapinfo.extractLsb' 44 2).toNat = 1 ∧ d.group.trapEntry = c.split.entry ∧
      d.group = { c.group with
        regs := { c.group.regs with trapinfo := d.group.regs.trapinfo, trappc := resume }
        trapEntry := c.split.entry, splits := d.group.splits }) ∧
  ((∀ (s : State) (c : Cur) (f : FmtS), s.cur? = some c → c.acts f.com = true → c.group.regs.trapvec ≠ 0 → c.group.act = false →
    ∃ t d, exec (.trap f) s = .next t ∧ ActsAlone s t c d ∧ TeamAsBefore c d ∧ d.split.pc = c.group.regs.trapvec ∧
      d.split.mask = c.split.mask ∧ d.group.act = true ∧ d.group.regs.trappc = c.after.2 ∧
      d.group.regs.trapinfo.extractLsb' 0 32 = f.imm.setWidth 32 ∧
      (d.group.regs.trapinfo.extractLsb' 32 8).toNat = 0x10 ∧
      d.group.v = c.group.v ∧ d.group.s = c.group.s ∧ d.group.p = c.group.p) ∧
  (∀ (s : State) (c : Cur) (f : FmtS), s.cur? = some c → c.acts f.com = false →
    ∃ t d, exec (.trap f) s = .next t ∧ Lands s t c d c.after.1 c.after.2))

/-- BKPT acts by its context's debug mode (R314), which the host driver sets and which is 0 after reset: in mode 0 it does nothing,
and the split goes on after its clause; in mode 1 it is the user trap BKPT with its number as detail (R311), resumed after its
clause; in mode 2 it halts the group, with the split's PC after its clause. -/
def Obligations.BkptActsByTheDebugMode : Prop :=
  (∀ x, (State.reset.ctx x).debug = 0) ∧
  (∀ (s : State) (ctx mode : Nat), mode ≤ 2 → ∃ t : State, exec (.hostSetDebugMode ctx mode []) s = .next t ∧ (t.ctx ctx).debug = mode) ∧
  (∀ (s : State) (c : Cur) (f : FmtB), s.cur? = some c → c.acts f.com = true →
    ((s.ctx c.team.ctx).debug = 0 → ∃ t d, exec (.bkpt f) s = .next t ∧ Lands s t c d c.after.1 c.after.2) ∧
    ((s.ctx c.team.ctx).debug = 1 → exec (.bkpt f) s = .next ((s.put { c.fall with split := { c.fall.split with
      pc := c.split.pc } }).userTrap c.ref .bkpt (f.rcv.setWidth 32) c.after.2)) ∧
    ((s.ctx c.team.ctx).debug = 1 → c.group.regs.trapvec ≠ 0 → c.group.act = false →
      ∃ t d, exec (.bkpt f) s = .next t ∧ ActsAlone s t c d ∧ TeamAsBefore c d ∧ d.split.pc = c.group.regs.trapvec ∧
        d.split.mask = c.split.mask ∧ d.group.act = true ∧ d.group.regs.trappc = c.after.2 ∧
        d.group.regs.trapinfo.extractLsb' 0 32 = f.rcv.setWidth 32 ∧
        (d.group.regs.trapinfo.extractLsb' 32 8).toNat = 0x12 ∧
        d.group.v = c.group.v ∧ d.group.s = c.group.s ∧ d.group.p = c.group.p) ∧
    ((s.ctx c.team.ctx).debug = 2 → s.noStash → ∃ (t : State) (d : Cur), exec (.bkpt f) s = .next t ∧ t.lookup? c.ref = some d ∧
      d.group.halted = true ∧ d.split.opn = false ∧ d.split.pc = c.after.2 ∧ d.split.mask = c.split.mask ∧ SameRegisters c.group d.group))

/-- RET.t in a group whose handler runs (R313): TRAPINFO.ACT is cleared and the rest of TRAPINFO kept, the trap entry record
becomes the split's entry record, and the split goes on at TRAPPC. Outside a handler it raises ILLOP with reason 10.

A fatal trap ends its context (R315): the context is marked with the cause, and no team of it is resident any more: each has
been released or is stopping, and stopping splits only finish the clause that they have begun.

A trap of the resumable class (R183, R309, R318): TRAPINFO says it with ACT kept, and the split waits for the driver, discarded: where
it stands at a region entry that it has not issued its entry record becomes what it stands at; else its PC, mask, stack, loop state,
FMT and record pointer are those of its entry record, without lanes that have exited or gone to another split, and its lanes hold no
reservation. The registers are as before.

Pre-emption saves a team with its local bytes, registers, barriers, buffers and commands, and without its reservations (R322). A saved
team that is put back stands on its new core with its local bytes, in its new slots, with the groups and splits that were saved (R324);
what commands it has are then issued again.
The model's own choices that it touches: log 8, 9, 73, 87. -/
def Obligations.ReturnsAndFatalTraps : Prop :=
  (∀ (s : State) (c : Cur) (f : FmtB), s.cur? = some c → c.acts f.com = true →
    (c.group.act = true → ∃ t d, exec (.retT f) s = .next t ∧ ActsAlone s t c d ∧ TeamAsBefore c d ∧
      d.split.pc = c.group.regs.trappc ∧ d.split.mask = c.split.mask ∧ d.split.opn = false ∧
      d.split.entry = c.group.trapEntry ∧ d.group.act = false ∧
      d.group.regs.trapinfo.extractLsb' 0 63 = c.group.regs.trapinfo.extractLsb' 0 63 ∧
      d.group.regs.trappc = c.group.regs.trappc ∧ d.group.regs.trapvec = c.group.regs.trapvec ∧
      d.group.v = c.group.v ∧ d.group.s = c.group.s ∧ d.group.p = c.group.p) ∧
    (c.group.act = false → exec (.retT f) s = .next (s.illop c 10))) ∧
  (∀ (s : State) (c : Cur) (cause : Cause) (detail : Word), s.lookup? c.ref = some c → (s.ctx c.team.ctx).live = true →
    (s.ctx c.team.ctx).ended = none →
    let t := s.fatal c.ref cause detail
    (t.ctx c.team.ctx).ended = some cause.code ∧
    ∀ k tm, mget? t.teams k = some tm → tm.ctx = c.team.ctx → tm.status = .ending) ∧
  (∀ (s : State) (c : Cur) (cause : Cause) (detail : Word) (va : Nat), s.lookup? c.ref = some c → c.split.park = .none →
    c.split.waits = false → c.split.stalls = false →
    let gone := c.group.othersLanes c.ref.split ||| c.group.exited
    let p := c.split
    ∃ d, (s.resumable c.ref cause detail va).lookup? c.ref = some d ∧ d.split.park = .fault ∧ d.group.v = c.group.v ∧
      d.group.s = c.group.s ∧ d.group.p = c.group.p ∧
      d.group.regs = { c.group.regs with trapinfo := trapInfo c.group.act c.ref.split 0 cause.code detail } ∧
      (s.atEntry c = true → d.split.pc = p.pc ∧ d.split.mask = p.mask ∧ d.split.loops = p.loops ∧ d.split.fmt = p.fmt ∧
        d.split.entry = some (p.here p.ridx)) ∧
      ∀ e, s.atEntry c = false → p.entry = some e → d.split.opn = false ∧ d.split.code = [] ∧ d.split.pc = e.pc ∧
        d.split.mask = e.mask &&& ~~~gone ∧ d.split.loops = e.loops ∧ d.split.fmt = e.fmt ∧ d.split.drec = e.drec ∧
        d.split.ovf = e.ovf.map (fun o => { o with pend := o.pend.map (· &&& ~~~gone), join := o.join.map (· &&& ~~~gone) }) ∧
        ∀ q ∈ d.group.resv, q ∈ c.group.resv ∧ p.allLanes.getLsbD q.1 = false) ∧
  (∀ (s : State) (tid : Nat) (after : Option Nat) (t : Team), mget? s.teams tid = some t →
    ∃ t', mget? (s.preempt tid after).teams tid = some t' ∧ t'.status = .saved ∧ t'.after = after ∧ t'.saved = s.arrRead t 0 t.bytes ∧
      t'.bars = t.bars ∧ t'.bufs = t.bufs ∧ t'.cmds = t.cmds ∧
      ∀ g gr, mget? t.groups g = some gr → ∃ gr', mget? t'.groups g = some gr' ∧ SameRegisters gr gr' ∧ gr'.resv = []) ∧
  (∀ (s : State) (tid core : Nat) (slots : List (Nat × Nat)) (base : Nat) (t : Team), mget? s.teams tid = some t → s.memOk = true →
    t.frame = none → t.ep.back = none → t.cmds = [] → t.runs = [] → core = coreKey t.die (core % Config.cores) →
    t.saved.length = t.bytes → slots.length = t.groups.length →
    (∀ k, mget? s.tasks t.task = some k → ((s.core core).dicts.any fun d => d.1 = t.ctx && d.2.1 = k.kimg) = true) →
    ∃ (u : State) (t' : Team), s.restore tid core slots base = (u.epFlow tid).settle tid ∧ mget? u.teams tid = some t' ∧
      t'.status = .resident ∧ t'.coreKey = core ∧ t'.base = base ∧ t'.bars = t.bars ∧ t'.bufs = t.bufs ∧
      u.arrRead t' 0 t.bytes = t.saved ∧ (u.core core).l1 = [] ∧
      ∀ (i : Nat) (g : Nat × Group) (q : Nat × Nat), t.groups[i]? = some g → slots[i]? = some q → t'.groups[i]? = some (g.1,
        { g.2 with slot := q.1, base := q.2, splits := mmap g.2.splits fun p => { p with age := 0 } }))

/-! ### Barriers -/

/-- BAR, BARA and BARW (R62 to R64, R344). BAR and BARA complete: a split that arrives while its group still has a live split that
has not arrived is recorded, and for BAR waits for the phase to complete; the arrival that makes up its group's is counted; when
the count reaches E the barrier's phase and count move on and BAR goes on after its clause, BARA inside it; while it is short of E,
BAR waits and BARA goes on. With no lane that passes, neither arrives. BARW goes on after its clause when the phase in which the
group last arrived has completed, when the group has never arrived, and when no lane passes; else it waits.
The model's own choices that it touches: log 12. -/
def Obligations.BarriersComplete : Prop :=
  (∀ (s : State) (c : Cur) (f : FmtE), s.cur? = some c → f.qb.toNat < c.team.bars.length → c.split.park = .none →
    let b := f.qb.toNat
    let k := c.team.bar b
    let e := if k.count = 0 then barE c f else k.e
    let goesOn (i : Instr) (k' : Barrier) : Prop := ∃ t d, exec i s = .next t ∧ t.lookup? c.ref = some d ∧ SameMachine s t ∧
      (∀ j, j ≠ c.ref.team → mget? t.teams j = mget? s.teams j) ∧ d.team.bar b = k' ∧
      (∀ j, j ≠ b → d.team.bar j = c.team.bar j) ∧ d.split.mask = c.split.mask ∧ SameRegisters c.group d.group ∧ d.split.park = .none ∧
      (match i with
       | .bar _ => d.split.opn = false ∧ d.split.pc = c.after.2 ∧ d.split.loops = c.after.1
       | _ => d.split.opn = c.split.opn ∧ d.split.code = c.split.code ∧ d.split.pc = c.split.pc ∧ d.split.loops = c.split.loops)
    (c.acts f.com = false →
      (∃ t d, exec (.bar f) s = .next t ∧ Lands s t c d c.after.1 c.after.2) ∧ exec (.bara f) s = .next s ∧
      ∃ t d, exec (.barw f) s = .next t ∧ Lands s t c d c.after.1 c.after.2) ∧
    (mget? c.group.phase b = none → ∃ t d, exec (.barw f) s = .next t ∧ Lands s t c d c.after.1 c.after.2) ∧
    (c.acts f.com = true → mwf c.team.groups = true → mwf c.group.splits = true → c.group.halted = false →
      mget? c.split.arr b = none → (∀ q ∈ c.group.splits, q.1 ≠ c.ref.split → (mget? q.2.arr b).isSome = true) →
      (∀ q ∈ c.group.splits, ∀ x, mget? q.2.arr b = some x → x.2 < c.group.clock) → mget? c.group.phase b ≠ some k.phase →
      (∀ g ∈ c.team.groups, g.1 ≠ c.ref.group → g.2.arrived b = true → g.2.halted = true ∨ mget? g.2.phase b = some k.phase) →
      (k.count = 0 → 1 ≤ barE c f ∧ barE c f ≤ 32) →
      (k.count + 1 = e → (∀ g ∈ c.team.groups, ∀ q ∈ g.2.splits, mget? q.2.held b = none) →
        goesOn (.bar f) { e := e, count := 0, phase := k.phase + 1 } ∧ goesOn (.bara f) { e := e, count := 0, phase := k.phase + 1 }) ∧
      (k.count + 1 ≠ e →
        goesOn (.bara f) { e := e, count := k.count + 1, phase := k.phase } ∧
        ∃ t d, exec (.bar f) s = .next t ∧ ActsAlone s t c d ∧ d.team.bar b = { e := e, count := k.count + 1, phase := k.phase } ∧
          Waits c d (.bar b (k.phase + 1))))) ∧
  ∀ (s : State) (c : Cur) (f : FmtE), s.cur? = some c → c.acts f.com = true → f.qb.toNat < c.team.bars.length →
    let b := f.qb.toNat
    let e := barE c f
    ((mget? c.split.arr b = none) →
      (∃ q ∈ c.group.splits, q.1 ≠ c.ref.split ∧ mget? c.group.splits q.1 = some q.2 ∧ mget? q.2.arr b = none) →
      (∃ t d, exec (.bar f) s = .next t ∧ ActsAlone s t c d ∧ TeamAsBefore c d ∧
        d.split.arr = mput c.split.arr b (e, c.group.clock) ∧ d.split.park = .bar b ((c.team.bar b).phase + 1) ∧
        d.split.pc = c.after.2 ∧ d.split.opn = false ∧ d.split.mask = c.split.mask ∧
        d.group.v = c.group.v ∧ d.group.s = c.group.s ∧ d.group.p = c.group.p) ∧
      (∃ t d, exec (.bara f) s = .next t ∧ ActsAlone s t c d ∧ TeamAsBefore c d ∧
        d.split = { c.split with arr := mput c.split.arr b (e, c.group.clock) } ∧
        d.group.v = c.group.v ∧ d.group.s = c.group.s ∧ d.group.p = c.group.p)) ∧
    (∀ n, mget? c.group.phase b = some n → n < (c.team.bar b).phase →
      ∃ t d, exec (.barw f) s = .next t ∧ Lands s t c d c.after.1 c.after.2) ∧
    (∀ n, mget? c.group.phase b = some n → (c.team.bar b).phase ≤ n →
      ∃ t d, exec (.barw f) s = .next t ∧ ActsAlone s t c d ∧ TeamAsBefore c d ∧ d.split.park = .bar b (n + 1) ∧
        d.split.pc = c.after.2 ∧ d.split.mask = c.split.mask)

/-! ### Memory instructions -/

/-- The loads, stores and atomics (R341, R342, R390 to R392, R433, R448, R453): with lanes that may all make their accesses
(R478), each puts one operation in flight, LD, LDRSV, STCND, ATOM and ATCAS counted on LDC, ST and RED on STC. STCND, ST and
the atomics take their data from D as it stands at issue; ATCAS compares with D and swaps in the register or pair after it.
The model's own choices that it touches: log 80. -/
def Obligations.MemoryInstructionsIssue : Prop :=
  ∀ (s : State) (c : Cur) (f : FmtM), s.cur? = some c → c.acts f.com = true →
    let data (r l : Nat) : Nat := c.laneData f r l
    let none (_ : Nat) : Nat := 0
    let d := f.d.toNat
    (Admitted s c f f.off { rd := true } →
      Issues (.ld f) s c f .ld f.off { rd := true } .ldc none none ∧
      Issues (.ldrsv f) s c f .ldrsv f.off { rd := true } .ldc none none) ∧
    (Admitted s c f f.off { wr := true } →
      Issues (.st f) s c f .st f.off { wr := true } .stc (data d) none ∧
      Issues (.stcnd f) s c f .stcnd f.off { wr := true } .ldc (data d) none) ∧
    (Admitted s c f 0 { rd := true, wr := true } →
      Issues (.atom f) s c f .atom 0 { rd := true, wr := true } .ldc (data d) none ∧
      Issues (.red f) s c f .red 0 { rd := true, wr := true } .stc (data d) none ∧
      Issues (.atcas f) s c f .atcas 0 { rd := true, wr := true } .ldc (data (d + (if f.w = 3 then 2 else 1))) (data d))

/-- A memory instruction none of whose lanes passes touches nothing (R212): without an acquire at die scope or wider, with no store
on its way home to be released, no view of a core and no lookahead window to open, the state is as before. A lane whose address is not a multiple of the access's size raises ALIGN before any other fault (R478), and the
instruction performs no lane's access.

FENCE changes no register and no byte of memory: one with an acquire at die scope or wider empties its core's L1 (R194,
R213), at fabric scope also what the device holds of peers' pages for the context (R295), any other leaves the state as it is; the model lets one with a release part leave no store that its group sees, its own or another's,
on its way to the agents of its scope (stronger than R208 and R213, which speak of the split's accesses), and one with an acquire part
no older bytes that its core's groups may still read and that a release it matches, or another agent's write, has ended: both the
model's own reading, log 80 (DEDUCED). PREF brings the whole line of each lane's address that translates to memory
outside the windows into the core's L1 with CP 0 and 1, and raises no fault (R423). -/
def Obligations.FencesAndLaneChecksHold : Prop :=
  (∀ (s : State) (c : Cur) (f : FmtM), s.cur? = some c →
    (c.acts f.com = false → s.wbuf = [] → s.views = [] → f.com.la = 0 → (f.ord.toNat % 2 = 0 ∨ FmtM.scope f < 3) →
      ∀ i ∈ [Instr.ld f, .ldrsv f, .st f, .stcnd f, .atom f, .atcas f, .red f], exec i s = .next s) ∧
    ((∃ l ∈ lanes (c.pass f.com), (c.ea f f.off l).toNat % FmtM.bytes f ≠ 0) →
      ∀ i ∈ [Instr.ld f, .ldrsv f, .st f, .stcnd f], exec i s = .next (s.alignAt c)) ∧
    ((∃ l ∈ lanes (c.pass f.com), (c.ea f 0 l).toNat % FmtM.bytes f ≠ 0) →
      ∀ i ∈ [Instr.atom f, .atcas f, .red f], exec i s = .next (s.alignAt c))) ∧
  (∀ (s : State) (c : Cur) (f : FmtM), s.cur? = some c →
    (s.wbuf = [] → s.views = [] → exec (.fence f) s = .next (if f.ord.toNat % 2 = 0 ∨ f.sc.toNat < 3 then s
      else if f.sc.toNat = 6 then (s.dropCopies c.team.ctx).l1Clear c.team.coreKey else s.l1Clear c.team.coreKey)) ∧
    (∀ d key, key / 2 ^ 64 = c.team.ctx → deviceOf s.mgmt.mode d = ctxDevice c.team.ctx →
      mget? ((s.dropCopies c.team.ctx).die d).l2 key = none) ∧
    (2 ≤ f.ord.toNat → ∃ t : State, exec (.fence f) s = .next t ∧
      ∀ e ∈ t.stores c.ref.team c.ref.group, scopeLevel f.sc.toNat ≤ e.level) ∧
    (f.ord.toNat % 2 = 1 → 3 ≤ f.sc.toNat → ∃ t : State, exec (.fence f) s = .next t ∧ (t.core c.team.coreKey).l1 = [] ∧
      ∀ v ∈ t.views, v.core = c.team.coreKey → v.endsAt c.team.die (min (scopeLevel f.sc.toNat) (c.split.rdScope - 1)) none = false) ∧
    ((s.l1Clear c.team.coreKey).core c.team.coreKey).l1 = [] ∧ SameMemory s (s.l1Clear c.team.coreKey) ∧
    (s.noStash → ∃ t : State, exec (.pref f) s = .next t ∧ SameMemory s t ∧ t.teams = s.teams ∧ t.ctxs = s.ctxs ∧ t.dies = s.dies ∧
      ∀ l ∈ lanes (c.pass f.com), ∀ pa e, s.translateAt c.team.coreKey c.team.die c.team.ctx (c.ea f f.off l) { rd := true } = .ok (.hbm pa) e →
        (c.ea f f.off l).toNat % FmtM.bytes f = 0 → c.team.winOf (c.ea f f.off l).toNat = none → f.cp.toNat < 2 →
        (t.core c.team.coreKey).l1Has (pa / 128 * 128) 128 = true))

/-- The stash instructions (R188, R190, R450, R451): STASHM maps the window that it names over its ranges, with no line filled;
its repetition by the same split and region entry only counts again; on any other mapped window it raises ILLOP with reason 10.
STASHW and STASHU put the window's write-back in flight, and do nothing where it is not mapped. Each is counted on STC.
The model's own choices that it touches: log 81. -/
def Obligations.StashInstructionsComplete : Prop :=
  ∀ (s : State) (c : Cur) (f : FmtM), s.cur? = some c → c.acts f.com = true →
    let w := FmtM.win f
    let ga := (c.rdPair f.a.toNat).toNat
    let lo := (c.rdS f.d.toNat).toNat
    let len := (c.rdS f.b.toNat).toNat
    let counted (i : Instr) (kind : MemKind) (wins : SMap StashWin) : Prop :=
      ∃ t d m, exec i s = .next t ∧ ActsAlone s t c d ∧ mget? d.team.mops s.nextId = some m ∧ m.kind = kind ∧ m.lanes = [] ∧
        d.team = { c.team with mops := d.team.mops, wins := wins, groups := d.team.groups } ∧
        d.split = { c.split with ctrs := c.split.ctrs.add .stc s.nextId } ∧
        d.group = { c.group with splits := d.group.splits }
    (mget? c.team.wins w = none → ga % 128 = 0 → lo % 128 = 0 → len % 128 = 0 → 128 ≤ len → lo + len ≤ c.team.bytes →
      (∀ v ∈ c.team.wins, rangesMeet lo len v.2.lo v.2.len = false ∧ rangesMeet ga len v.2.ga v.2.len = false) →
      counted (.stashm f) .stashMap (mput c.team.wins w { lo := lo, len := len, ga := ga, group := c.ref.group, split := c.ref.split, entry := c.split.entry.map (·.pc) })) ∧
    (∀ win, mget? c.team.wins w = some win →
      ((win.split = c.ref.split ∧ win.group = c.ref.group ∧ win.entry = c.split.entry.map (·.pc) ∧ win.ga = ga ∧ win.lo = lo ∧ win.len = len) →
        counted (.stashm f) .stashMap c.team.wins) ∧
      (¬ (win.split = c.ref.split ∧ win.group = c.ref.group ∧ win.entry = c.split.entry.map (·.pc) ∧ win.ga = ga ∧ win.lo = lo ∧ win.len = len) →
        exec (.stashm f) s = .next (s.illop c 10)) ∧
      counted (.stashw f) (.stash w false) c.team.wins ∧ counted (.stashu f) (.stash w true) c.team.wins) ∧
    (mget? c.team.wins w = none → exec (.stashw f) s = .next s ∧ exec (.stashu f) s = .next s)

/-- LOAD_RETURN and STORE_PERFORMED of operations on the local array (R108, R173, R390, R448). A load of lanes in the array
writes every lane's registers with the bytes at its offset, least significant first, zero-extended, and changes no other
register and no memory; a store of one lane writes its bytes at its offset and no other byte of any memory. What follows is the
operation's completion.

An atomic of one lane on the local array (R173, R342, R433): the array takes the result of the operation on the value that
stood there, and for ATOM the lane's registers receive that value; ATCAS writes only where the value is the one that it
compares with, and gives it back in either case. No other byte of any memory changes.

In HBM as in the array (R193, R214, R219, R220, R392, R453), for accesses outside every window while nothing is on its way home: a load
gives each lane the bytes that its core's L1 or the home slice holds; LDRSV also sets the lane's reservation on its granule; a store,
an atomic that writes, and a STCND whose reservation stands write their bytes and no other, and clear every reservation on the granule;
STCND gives 0 or 1 and ends its lane's reservation; of two lanes of one STCND on a granule at most one succeeds.

The completion of an operation (R49, R55, R108): the team's list loses it, and every counter of every split of every group
of the team loses its one count of it; its pending writes have landed. Nothing else of a group changes but its batches.
The model's own choices that it touches: log 80. -/
def Obligations.ArrayOperationsPerform : Prop :=
  (∀ (s : State) (team op : Nat) (tm : Team) (g : Group) (m : MemOp), mget? s.teams team = some tm →
    tm.mayPerform op = some m → mget? tm.groups m.group = some g →
    (m.kind = .ld → (∀ x ∈ m.lanes, ∃ off, x.place = .arr off) → (m.lanes.map (·.lane)).Nodup → (∀ x ∈ m.lanes, x.lane < 64) →
      m.ord % 2 = 0 → m.dreg + 4 ≤ 256 → m.bytes ≤ 16 → m.part = [] →
      ∃ (u : State) (g' : Group), exec (.loadReturn team op []) s = .next (u.mopDone team op) ∧ u.hbm = s.hbm ∧
        u.cores = s.cores ∧ GroupBecomes s u team m.group g' ∧ g' = { g with v := g'.v } ∧
        (∀ x ∈ m.lanes, ∀ off, x.place = .arr off → ∀ n, n < m.dest.2 → g'.vreg x.lane (m.dreg + n) =
          BitVec.ofNat 32 (natOfBytes (s.arrRead tm off m.bytes) / 2 ^ (32 * n))) ∧
        ∀ l n, l < 64 → n < 256 → ((∀ x ∈ m.lanes, x.lane ≠ l) ∨ n < m.dreg ∨ m.dreg + m.dest.2 ≤ n) → g'.vreg l n = g.vreg l n) ∧
    (∀ l off, m.kind = .st → m.lanes = [l] → l.place = .arr off → Memory.wf (s.core tm.coreKey).arr = true →
      m.bytes ∈ [1, 2, 4, 8, 16] → m.part = [] → (s.wbuf = [] ∨ ∀ q ∈ tm.mops, q.2.ord < 2) →
      ∃ u : State, exec (.storePerformed team op) s = .next (u.mopDone team op) ∧ u.hbm = s.hbm ∧
        (∀ i, i < m.bytes → rdByte (u.core tm.coreKey).arr (tm.base + off + i) = BitVec.ofNat 8 (l.data / 2 ^ (8 * i))) ∧
        (∀ a, a < tm.base + off ∨ tm.base + off + m.bytes ≤ a → rdByte (u.core tm.coreKey).arr a = rdByte (s.core tm.coreKey).arr a) ∧
        ∀ k, k ≠ tm.coreKey → u.core k = s.core k)) ∧
  (∀ (s : State) (team op : Nat) (tm : Team) (g : Group) (m : MemOp) (l : LaneOp) (off : Nat), mget? s.teams team = some tm →
    tm.mayPerform op = some m → mget? tm.groups m.group = some g → m.lanes = [l] → l.place = .arr off → l.lane < 64 →
    Memory.wf (s.core tm.coreKey).arr = true → (m.bytes = 4 ∨ m.bytes = 8) → m.dreg + 2 ≤ 256 → m.part = [] →
    (s.wbuf = [] ∨ ∀ q ∈ tm.mops, q.2.ord < 2) →
    let old := natOfBytes (s.arrRead tm off m.bytes)
    let result := atomVal (m.aop % 16) (m.aop / 16 % 2 = 1) (8 * m.bytes) old l.data
    let wrote (u : State) (v : Nat) : Prop :=
      u.hbm = s.hbm ∧ (∀ i, i < m.bytes → rdByte (u.core tm.coreKey).arr (tm.base + off + i) = BitVec.ofNat 8 (v / 2 ^ (8 * i))) ∧
      (∀ a, a < tm.base + off ∨ tm.base + off + m.bytes ≤ a → rdByte (u.core tm.coreKey).arr a = rdByte (s.core tm.coreKey).arr a) ∧
      ∀ k, k ≠ tm.coreKey → u.core k = s.core k
    let gave (u : State) : Prop := ∃ g', GroupBecomes s u team m.group g' ∧
      (∀ n, n < m.dest.2 → g'.vreg l.lane (m.dreg + n) = BitVec.ofNat 32 (old / 2 ^ (32 * n))) ∧
      ∀ x n, x < 64 → n < 256 → (x ≠ l.lane ∨ n < m.dreg ∨ m.dreg + m.dest.2 ≤ n) → g'.vreg x n = g.vreg x n
    (m.kind = .atom → ∃ u : State, exec (.loadReturn team op []) s = .next (u.mopDone team op) ∧ wrote u result ∧ gave u) ∧
    (m.kind = .atcas → ∃ u : State, exec (.loadReturn team op []) s = .next (u.mopDone team op) ∧
      wrote u (if old = l.cmp then l.data else old) ∧ gave u) ∧
    (m.kind = .red → ∃ u : State, exec (.storePerformed team op) s = .next (u.mopDone team op) ∧ wrote u result)) ∧
  (∀ (s : State) (team op : Nat) (tm : Team) (g : Group) (m : MemOp), mget? s.teams team = some tm →
    tm.mayPerform op = some m → mget? tm.groups m.group = some g → Plain s tm m →
    let one (l : LaneOp) (v : Nat) (x : Nat) : Option Nat := if x = l.lane then some v else none
    let resv (u : State) (l : LaneOp) : Option (Option Nat) :=
      (mget? u.teams team).bind fun t => (mget? t.groups m.group).map fun g => mget? g.resv l.lane
    (m.kind = .ld → m.inL1 = false → s.views = [] → (m.lanes.map (·.lane)).Nodup →
      ∃ u : State, exec (.loadReturn team op []) s = .next (u.mopDone team op) ∧ SameMemory s u ∧
        LanesTake s u team m fun x => (m.lanes.find? fun l => l.lane = x).map fun l => natOfBytes (s.bytesAt tm l.place m.bytes)) ∧
    (∀ l, m.lanes = [l] →
      let old := natOfBytes (s.found tm m l.place)
      (m.kind = .ld → s.views = [] → ∃ u : State, exec (.loadReturn team op []) s = .next (u.mopDone team op) ∧ SameMemory s u ∧
        LanesTake s u team m (one l old)) ∧
      (m.kind = .ldrsv → ∃ u : State, exec (.loadReturn team op []) s = .next (u.mopDone team op) ∧ SameMemory s u ∧
        LanesTake s u team m (one l (natOfBytes (s.bytesAt tm l.place m.bytes))) ∧ resv u l = some (some (granule l.place))) ∧
      (m.kind = .stcnd → mwf g.resv = true → ∃ u : State, exec (.loadReturn team op []) s = .next (u.mopDone team op) ∧
        resv u l = some none ∧
        (mget? g.resv l.lane = some (granule l.place) →
          Stored s u tm l.place m.bytes l.data ∧ Cleared u team l.place ∧ LanesTake s u team m (one l 0)) ∧
        (mget? g.resv l.lane ≠ some (granule l.place) → SameMemory s u ∧ LanesTake s u team m (one l 1))) ∧
      (m.kind = .st → ∃ u : State, exec (.storePerformed team op) s = .next (u.mopDone team op) ∧
        Stored s u tm l.place m.bytes l.data ∧ Cleared u team l.place ∧ OnlyReservations s u) ∧
      ((m.kind = .atom ∨ m.kind = .atcas ∨ m.kind = .red) → ∃ u : State,
        exec (if m.kind = .red then .storePerformed team op else .loadReturn team op []) s = .next (u.mopDone team op) ∧
        (∀ v, m.update l old = some v → Stored s u tm l.place m.bytes v ∧ Cleared u team l.place) ∧
        (m.update l old = none → SameMemory s u) ∧
        (if m.kind = .red then OnlyReservations s u else LanesTake s u team m (one l old)))) ∧
    (∀ a b, m.kind = .stcnd → m.lanes = [a, b] → a.lane ≠ b.lane → granule a.place = granule b.place →
      ∃ (u : State) (g' : Group), exec (.loadReturn team op []) s = .next (u.mopDone team op) ∧
        (mget? u.teams team).bind (fun t => mget? t.groups m.group) = some g' ∧
        ¬ (g'.vreg a.lane m.dest.1 = 0 ∧ g'.vreg b.lane m.dest.1 = 0))) ∧
  (∀ (t : Team) (id g p : Nat) (gr : Group) (sp : Split), mget? t.groups g = some gr → mget? gr.splits p = some sp →
    ∃ gr' sp', mget? (t.complete id).groups g = some gr' ∧ mget? gr'.splits p = some sp' ∧
      (∀ x : Ctr, sp'.ctrs.get x = (sp.ctrs.get x).erase id) ∧
      sp' = { sp with ctrs := sp'.ctrs, batch := sp'.batch, pend := sp'.pend } ∧
      sp'.pend.map (·.id) = sp.pend.map (·.id) ∧ (∀ q ∈ sp'.pend, q.id = id → q.landed = true) ∧
      gr' = { gr with splits := gr'.splits, closed := gr'.closed })

/-- What memory gives back is what was last written (R2, R173): after a write of bytes to HBM or to a team's local array, each of
those bytes reads as written and every other byte as before; a number written least significant byte first reads as itself. -/
def Obligations.MemoryReadsAfterWrites : Prop :=
  ∀ (s : State) (tid : Nat) (t : Team) (a : Nat) (bs : List Byte), s.memOk = true →
    (∀ i, i < bs.length → rdByte (s.hbmWrite a bs).hbm (a + i) = (bs[i]?).getD 0) ∧
    (∀ b, b < a ∨ a + bs.length ≤ b → rdByte (s.hbmWrite a bs).hbm b = rdByte s.hbm b) ∧
    (s.hbmWrite a bs).memOk = true ∧
    (s.arrWrite tid t a bs).arrRead t a bs.length = bs ∧
    (∀ b, b < t.base + a ∨ t.base + a + bs.length ≤ b →
      rdByte ((s.arrWrite tid t a bs).core t.coreKey).arr b = rdByte (s.core t.coreKey).arr b) ∧
    (s.arrWrite tid t a bs).memOk = true ∧
    (∀ n v, v < 2 ^ (8 * n) → natOfBytes (bytesOfNat n v) = v)

/-- The events of the memory system: a recall writes a dirty line of a window back to its place in HBM and unfills it (R190,
R191); the weathervane's counters fall by one, not below zero (R215); a migrating page that has reached its threshold is
requested once (R180); a TLB invalidation drops the context's entries in its range from the TLBs of its device's dies and cores,
and of single pages no other, once no access in flight holds one of the pages (R181, R182). -/
def Obligations.MemoryEventsComplete : Prop :=
  ∀ (s : State),
    (∀ team win line tm w pa, s.memOk = true → mget? s.teams team = some tm → mget? tm.wins win = some w → mget? w.lines line = some ⟨pa, true⟩ →
      ∃ t : State, exec (.stashRecall team win line) s = .next t ∧
        (∀ i, i < 128 → rdByte t.hbm (pa + i) = rdByte (s.core tm.coreKey).arr (tm.base + (w.lo + 128 * line) + i)) ∧
        (∀ a, a < pa ∨ pa + 128 ≤ a → rdByte t.hbm a = rdByte s.hbm a) ∧ t.cores = s.cores ∧
        (mwf w.lines = true → ∃ tm' w', mget? t.teams team = some tm' ∧ mget? tm'.wins win = some w' ∧ mget? w'.lines line = none)) ∧
    (∀ die i, mwf (s.die die).vane = true → ∃ t : State, exec (.weathervaneDecay die) s = .next t ∧ SameMemory s t ∧ t.teams = s.teams ∧
      mget 0 (t.die die).vane i = mget 0 (s.die die).vane i - 1) ∧
    (∀ die ctx vpn e, s.walk die ctx (vpn * 65536) = .leaf e → field e 8 2 = 3 →
      2 ^ (8 + 2 * field e 10 2) ≤ mget 0 (s.die die).migr (ctx * 2 ^ 41 + vpn) → (ctx * 2 ^ 41 + vpn) ∉ (s.die die).migrReq →
      ∃ t : State, exec (.migrationRequest die ctx vpn) s = .next t ∧ SameMemory s t ∧ t.teams = s.teams ∧
        (t.die die).migrReq = (ctx * 2 ^ 41 + vpn) :: (s.die die).migrReq) ∧
    (∀ ctx lo len, (s.teams.any fun t => t.2.ctx = ctx && t.2.holdsPage lo len) = false → s.wbuf = [] →
      ∃ t : State, exec (.tlbInvalidateCommand ctx lo len) s = .next t ∧ SameMemory s t ∧ t.teams = s.teams ∧
        ∀ die ∈ s.diesOf (ctxDevice ctx), (t.die die).tlb = tlbInvalidate (s.die die).tlb ctx lo len ∧
          (∀ core, core < Config.cores →
            (t.core (coreKey die core)).tlb = tlbInvalidate (s.core (coreKey die core)).tlb ctx lo len) ∧
          ∀ m : SMap DWord, ∀ e ∈ m, (e ∈ tlbInvalidate m ctx lo len → ¬ (e.1 / 2 ^ 41 = ctx ∧ inPages lo len (e.1 % 2 ^ 41) = true)) ∧
            (e.2.getLsbD 4 = false → e ∉ tlbInvalidate m ctx lo len → e.1 / 2 ^ 41 = ctx ∧ inPages lo len (e.1 % 2 ^ 41) = true))

/-! ### Copies, batches and buffers -/

/-- CPY and CPYT (R360 to R362): with operands in their ranges and every range translated (R184), a copy enters the team's
commands, counted on CPC and in its split's open batch, with the pieces that it is to move; its registers and memory are as
before. A copy inside the local array has the one piece that its operands name. Operands out of range raise ILLOP with
reason 10.

COPY_COMPLETE and the events of engine commands (R108, R222, R362). A copy within the local array, begun and not
overlapping itself, leaves its source's bytes at its destination, every other byte as before, and the team's list without the
copy. ENGINE_COMMAND_START begins a copy that no earlier command of the team clashes with; ENGINE_COMMAND_COMPLETE takes a
command whose effect is made out of the team's list and counters. The model's own choices that it touches: log 84. -/
def Obligations.CopiesComplete : Prop :=
  (∀ (s : State) (c : Cur) (f : FmtE), s.cur? = some c → c.acts f.com = true →
    let dl := f.flg.getLsbD 1
    let sl := f.flg.getLsbD 0
    let dst := c.addrOf dl f.s0
    let src := c.addrOf sl f.s1
    let n := (c.rdS f.s2.toNat).toNat
    let posts (i : Instr) (buf : Option Nat) (segs : List Seg) : Prop :=
      ∃ (u : State) (d : Cur) (k : Cmd), exec i s = .next ((u.modTeam c.ref.team fun t => t.tryCopy s.nextId).settle c.ref.team) ∧
        Posted s u c d .cpc k ∧ k.kind = .copy { segs := segs, buf := buf } ∧ k.begun = false ∧
        d.split = { c.split with ctrs := d.split.ctrs, batch := s.nextId :: c.split.batch } ∧
        d.group = { c.group with splits := d.group.splits } ∧ d.team = { c.team with groups := d.team.groups, cmds := d.team.cmds }
    (f.flg.getLsbD 3 = false → f.flg.getLsbD 2 = false → dst % 16 = 0 → src % 16 = 0 → n % 16 = 0 → 16 ≤ n → n ≤ 16777216 →
      (∀ segs, s.copySegs c ⟨sl, dl, none, 4, [⟨src, dst, n⟩], []⟩ = .ok segs → posts (.cpy f) none segs) ∧
      (sl = true → dl = true → src + n ≤ c.team.bytes → dst + n ≤ c.team.bytes → c.team.wins = [] →
        posts (.cpy f) none [⟨.arr src, .arr dst, n, 4⟩])) ∧
    (f.flg.getLsbD 3 = false → f.flg.getLsbD 2 = true → dl = true → f.qb.toNat < 8 → c.bufOk f.qb.toNat = true →
      dst + n ≤ (c.team.buf f.qb.toNat).esz → dst % 16 = 0 → src % 16 = 0 → n % 16 = 0 → 16 ≤ n → n ≤ 16777216 →
      ∀ segs, s.copySegs c ⟨sl, dl, some f.qb.toNat, 4, [⟨src, dst, n⟩], []⟩ = .ok segs → posts (.cpy f) (some f.qb.toNat) segs) ∧
    (f.flg.getLsbD 3 = true → f.flg.getLsbD 2 = false →
      let list := (c.rdS f.s1.toNat).toNat
      let esz := (c.rdS f.s3.toNat).toNat
      let entry (k : Nat) : Nat := natOfBytes (s.arrRead c.team (list + 8 * k) 8)
      dst % 16 = 0 → list % 8 = 0 → 1 ≤ n → n ≤ 4096 → esz % 16 = 0 → 16 ≤ esz → esz ≤ 4096 → list + 8 * n ≤ c.team.bytes →
      c.team.inWindow list (8 * n) = false → (∀ k, k < n → entry k % 16 = 0) →
      ∀ segs, s.copySegs c ⟨sl, dl, none, 4, (List.range n).map fun k => ⟨entry k, dst + k * esz, esz⟩, [⟨true, list, 8 * n, {}⟩]⟩ = .ok segs →
        posts (.cpy f) none segs) ∧
    (let rows := (c.rdS f.s2.toNat).toNat / 65536
     let rb := (c.rdS f.s2.toNat).toNat % 65536
     let dp := (c.rdS f.s3.toNat).toNat / 65536 * 16
     let sp := (c.rdS f.s3.toNat).toNat % 65536 * 16
     let col := f.flg.getLsbD 4
     f.flg.getLsbD 2 = false → dst % 16 = 0 → src % 16 = 0 → 1 ≤ rows → rows ≤ 1024 → rb % 16 = 0 → 16 ≤ rb → rb ≤ 4096 →
      rb ≤ sp → 0 < dp → (if col then 4 * rows ≤ dp else rb ≤ dp) →
      ∀ segs, s.copySegs c ⟨sl, dl, none, if col then dp else 4,
          (List.range rows).map fun r => ⟨src + r * sp, if col then dst + 4 * r else dst + r * dp, rb⟩, []⟩ = .ok segs →
        posts (.cpyt f) none segs) ∧
    (f.flg.getLsbD 3 = false → (dst % 16 ≠ 0 ∨ src % 16 ≠ 0 ∨ n % 16 ≠ 0 ∨ n < 16 ∨ 16777216 < n) →
      exec (.cpy f) s = .next (s.illop c 10))) ∧
  (∀ (s : State) (team cmd : Nat) (tm : Team) (k : Cmd), mget? s.teams team = some tm → mget? tm.cmds cmd = some k →
    (∀ (c : Copy) (a b n : Nat), k.kind = .copy c → k.begun = true → c.moved = [] → c.buf = none → c.segs = [⟨.arr a, .arr b, n, 4⟩] →
      (a + n ≤ b ∨ b + n ≤ a) → Memory.wf (s.core tm.coreKey).arr = true →
      ∃ u : State, exec (.copyComplete team cmd) s = .next (u.settle team) ∧ u.hbm = s.hbm ∧
        (∀ i, i < n → rdByte (u.core tm.coreKey).arr (tm.base + b + i) = rdByte (s.core tm.coreKey).arr (tm.base + a + i)) ∧
        (∀ x, x < tm.base + b ∨ tm.base + b + n ≤ x → rdByte (u.core tm.coreKey).arr x = rdByte (s.core tm.coreKey).arr x) ∧
        ∃ tm', mget? u.teams team = some tm' ∧ tm'.cmds = mdel tm.cmds cmd ∧ tm'.bufs = tm.bufs) ∧
    (∀ c : Copy, k.kind = .copy c → c.buf = none → tm.status ≠ .saved → tm.clear cmd k.foot = true →
      ∃ (t : State) (tm' : Team), exec (.engineCommandStart team cmd) s = .next t ∧ SameMachine s t ∧ mget? t.teams team = some tm' ∧
        tm' = { tm with cmds := mput tm.cmds cmd { k with begun := true } } ∧
        ∀ j, j ≠ team → mget? t.teams j = mget? s.teams j) ∧
    (k.kind = .effected → ∃ u : State, exec (.engineCommandComplete team cmd) s = .next (u.settle team) ∧ SameMachine s u ∧
      (∃ tm', mget? u.teams team = some tm' ∧ tm' = ({ tm with cmds := mdel tm.cmds cmd } : Team).complete cmd) ∧
      ∀ j, j ≠ team → mget? u.teams j = mget? s.teams j))

/-- CLOSEB and WAITB (R358, R462). CLOSEB numbers the split's open batch, one more than the group's last number, in its
destination, and opens an empty one; the command is counted on ENC. WAITB ends its clause and waits; the wait ends when the
group has no batch up to its number with a copy that is not complete. -/
def Obligations.BatchInstructionsComplete : Prop :=
  ∀ (s : State) (c : Cur) (f : FmtE), s.cur? = some c → c.acts f.com = true →
    (∃ t d k, exec (.closeb f) s = .next t ∧ Posted s t c d .enc k ∧ k.kind = .effected ∧
      d.group.batchNo = (c.group.batchNo + 1) % 2 ^ 32 ∧ d.group.sreg f.s0.toNat = BitVec.ofNat 32 (c.group.batchNo + 1) ∧
      (∀ n, n ≠ f.s0.toNat → d.group.sreg n = c.group.sreg n) ∧ d.group.v = c.group.v ∧ d.group.p = c.group.p ∧
      d.split = { c.split with ctrs := d.split.ctrs, pend := d.split.pend, batch := [] } ∧
      (c.split.batch ≠ [] → mget? d.group.closed ((c.group.batchNo + 1) % 2 ^ 32) = some c.split.batch)) ∧
    (∃ (u : State) (d : Cur) (k : Cmd), exec (.waitb f) s = .next (u.settle c.ref.team) ∧ Posted s u c d .enc k ∧
      k.kind = .waitb (c.rdS f.s0.toNat) ∧ Waits c d (.waitb s.nextId)) ∧
    (∀ (t : Team) (g : Group) (id : Nat) (k : Cmd) (n : Word) (p : Nat) (sp : Split), k.kind = .waitb n → t.status = .resident →
      mget? t.groups k.group = some g → g.halted = false → g.batchesDone n = true → mget? g.splits p = some sp →
      sp.park = .waitb id → ∃ g' sp', mget? (t.wakeOne id k).groups k.group = some g' ∧ mget? g'.splits p = some sp' ∧
        sp'.park = .none ∧ (t.wakeOne id k).cmds = mdel t.cmds id)

/-- The buffer instructions (R241 to R243, R354 to R356). A legal BUFCFG takes effect at once where nothing issued before it
uses the buffer, emptying it, and else waits for BUFCFG_TAKE_EFFECT; BUFWAIT ends its clause and waits for the entry that it
names; BUFREL passes full entries; each is counted on ENC. A field outside its range raises ILLOP with reason 10.

The events of buffers. BUFCFG_TAKE_EFFECT resets the buffer of a held BUFCFG when nothing issued before it is under way
(R355); BUFFER_ENTRY_TAKE gives the entry at TAIL to the waiting copy that is next, whose pieces then go to it (R242); the wait
of a BUFWAIT ends with the entry's address in its register once the entry is full (R356). -/
def Obligations.BuffersComplete : Prop :=
  (∀ (s : State) (c : Cur) (f : FmtE), s.cur? = some c → c.acts f.com = true →
    let b := f.qb.toNat
    let k : Buf := { base := (c.rdS f.s0.toNat).toNat, esz := (c.rdS f.s1.toNat).toNat, pitch := (c.rdS f.s2.toNat).toNat,
                     cnt := (c.rdS f.s3.toNat).toNat }
    let foot : List Foot := [{ place := .arr k.base, len := k.cnt * k.esz, write := true }]
    let free := c.team.bufBusy b s.nextId = false ∧ c.team.clear s.nextId foot = true
    (b < 8 → k.base % 128 = 0 → k.esz % 128 = 0 → 128 ≤ k.esz → k.esz ≤ 65536 → k.pitch ≠ 0 → k.pitch % 16 = 0 → 2 ≤ k.cnt →
      k.cnt ≤ 16 → k.base + k.cnt * k.esz ≤ c.team.bytes → (∀ r ∈ c.team.runs, r.buf ≠ b) →
      ∃ t d q, exec (.bufcfg f) s = .next t ∧ Posted s t c d .enc q ∧ OnlyCounts c d ∧ SameRegisters c.group d.group ∧
        (free → q.kind = .effected ∧ d.team.bufs = mput c.team.bufs b k) ∧
        (¬ free → q.kind = .bufcfg b k ∧ d.team.bufs = c.team.bufs)) ∧
    ((8 ≤ b ∨ k.base % 128 ≠ 0 ∨ k.esz % 128 ≠ 0 ∨ 65536 < k.esz ∨ k.pitch = 0 ∨ k.cnt < 2 ∨ 16 < k.cnt) →
      exec (.bufcfg f) s = .next (s.illop c 10)) ∧
    (b < 8 → f.flg.toNat % 16 < (c.team.buf b).cnt →
      ∃ (u : State) (d : Cur) (q : Cmd), exec (.bufwait f) s = .next (u.settle c.ref.team) ∧ Posted s u c d .enc q ∧
        q.kind = .bufwait b (f.flg.toNat % 16) f.s0.toNat ∧ Waits c d (.bufwait s.nextId)) ∧
    (let n := f.flg.toNat % 32
     b < 8 → 1 ≤ n → n ≤ (c.team.buf b).cnt → (∀ i, i < n → (c.team.buf b).isFull ((c.team.buf b).head + i) = true) →
      ∃ (u : State) (d : Cur) (q : Cmd), exec (.bufrel f) s = .next (u.settle c.ref.team) ∧ Posted s u c d .enc q ∧
        q.kind = .effected ∧ OnlyCounts c d ∧ SameRegisters c.group d.group ∧
        (d.team.buf b).head = (c.team.buf b).head + n ∧ (d.team.buf b).tail = (c.team.buf b).tail ∧
        ∀ j, j ≠ b → mget? d.team.bufs j = mget? c.team.bufs j) ∧
    (8 ≤ b → exec (.bufwait f) s = .next (s.illop c 10) ∧ exec (.bufrel f) s = .next (s.illop c 10))) ∧
  (∀ (s : State) (team cmd : Nat) (tm : Team) (k : Cmd), mget? s.teams team = some tm → mget? tm.cmds cmd = some k →
    tm.status = .resident →
    (∀ b cfg, k.kind = .bufcfg b cfg → tm.clear cmd k.foot = true → tm.bufBusy b cmd = false →
      ∃ (u : State) (tm' : Team), exec (.bufcfgTakeEffect team cmd) s = .next (u.settle team) ∧ SameMachine s u ∧
        mget? u.teams team = some tm' ∧
        tm' = { tm with bufs := mput tm.bufs b cfg, cmds := mput tm.cmds cmd { k with kind := .effected, begun := true } }) ∧
    (∀ (c : Copy) (b : Nat), k.kind = .copy c → c.buf = some b → c.entry = none → tm.mayTake cmd b = true →
      ∃ (u : State) (tm' : Team) (k' : Cmd), exec (.bufferEntryTake team cmd) s = .next (u.settle team) ∧ SameMachine s u ∧
        mget? u.teams team = some tm' ∧ (tm'.buf b).tail = (tm.buf b).tail + 1 ∧ (tm'.buf b).head = (tm.buf b).head ∧
        mget? tm'.cmds cmd = some k' ∧ k'.kind = .copy (c.take (tm.buf b).tail ((tm.buf b).addr (tm.buf b).tail)) ∧ k'.taken = true) ∧
    (∀ (g : Group) (b j reg p : Nat) (sp : Split), k.kind = .bufwait b j reg → mget? tm.groups k.group = some g →
      g.halted = false → (tm.buf b).isFull ((tm.buf b).head + j) = true → mget? g.splits p = some sp → sp.park = .bufwait cmd →
      ∃ g' sp', mget? (tm.wakeOne cmd k).groups k.group = some g' ∧ mget? g'.splits p = some sp' ∧ sp'.park = .none ∧
        g'.sreg reg = BitVec.ofNat 32 ((tm.buf b).addr ((tm.buf b).head + j)) ∧
        (∀ n, n ≠ reg → g'.sreg n = g.sreg n) ∧ g'.v = g.v ∧ g'.p = g.p))

/-! ### The windlass -/

/-- LNSTART and LNSTOP (R244, R245, R394, R395). With its table read from the constant section and its bases from the
arguments, LNSTART adds a run with every index zero, counted on ENC, which starts at once where the team has no run and the
windlass is free; LNSTOP ends every run of the team after its present iteration. A table in disorder raises ILLOP with
reason 10.

WINDLASS_RUN_START gives the free windlass to the team's next run (R244, R395). WINDLASS_ITERATION takes the entry at TAIL,
issues one copy for each stream into it and moves the innermost index on (R246); a page that is not mapped holds the run at
the stream that it has come to, from which it goes on once it is resumed (R247). The model's own choices that it touches: log 88. -/
def Obligations.WindlassCompletes : Prop :=
  (∀ (s : State) (c : Cur) (f : FmtE), s.cur? = some c → c.acts f.com = true → s.noStash →
    (∀ (k : Task) (s₁ s₂ : State) (hd bs : List Byte), mget? s.tasks c.team.task = some k →
      let off := (c.rdS f.s0.toNat).toNat
      let a := k.kimg + k.constOff + off
      let n := 64 + 64 * (le hd 0 4 / 4 % 4 + 1)
      off % 64 = 0 → k.constOff + off + n ≤ k.imgSize → s.issueRead c a 64 = .ok (s₁, hd) → s₁.issueRead c a n = .ok (s₂, bs) →
      (nestOf c.team bs = none → exec (.lnstart f) s = .next (s₂.illop c 10)) ∧
      (∀ (b : Nat) (bounds : List Nat) (st : List (Nat × Stream)) (ps : List (List (Place × Nat))),
        nestOf c.team bs = some (b, bounds, st) →
        s₂.engRanges c (st.map fun x => ⟨false, k.args.toNat + x.1, 8, { rd := true }⟩) = .ok ps →
        (∀ p ∈ ps.flatten, ∃ pa, p.1 = .hbm pa) →
        let values := ps.map fun l => natOfBytes (l.flatMap fun p => match p.1 with | .hbm pa => rdBytes s.hbm pa p.2 | _ => [])
        ∃ (t : State) (d : Cur) (q : Cmd) (r : Run), exec (.lnstart f) s = .next t ∧ t.lookup? c.ref = some d ∧ SameMemory s t ∧
          mget? d.team.cmds s.nextId = some q ∧ q.kind = .lnstart ∧ d.split.ctrs = c.split.ctrs.add .enc s.nextId ∧
          d.team.runs = c.team.runs ++ [r] ∧ r.id = s.nextId ∧ r.buf = b ∧ r.bounds = bounds ∧
          r.idx = some (bounds.map fun _ => 0) ∧ r.held = false ∧
          r.streams = (st.zip values).map (fun x => { x.1.2 with base := x.2 }) ∧
          (r.started = true ↔ c.team.runs = [] ∧ c.team.status = .resident ∧
            ((s.core c.team.coreKey).windlass = none ∨ (s.core c.team.coreKey).windlass = some c.ref.team)) ∧
          (r.started = true → (t.core c.team.coreKey).windlass = some c.ref.team) ∧ SameRegisters c.group d.group)) ∧
    (∃ (u : State) (d : Cur) (q : Cmd), exec (.lnstop f) s = .next (u.settle c.ref.team) ∧ Posted s u c d .enc q ∧
      d.team.runs = c.team.runs.map (fun r => { r with idx := none }) ∧
      q.kind = (if c.team.runs = [] then .effected else .lnstop (c.team.runs.map (·.id))) ∧ OnlyCounts c d ∧
      SameRegisters c.group d.group)) ∧
  (∀ (s : State) (team : Nat) (tm : Team) (r : Run) (rest : List Run), mget? s.teams team = some tm → tm.runs = r :: rest →
    tm.status = .resident →
    (r.started = false → ((s.core tm.coreKey).windlass = none ∨ (s.core tm.coreKey).windlass = some team) →
      ∃ t : State, exec (.windlassRunStart team) s = .next t ∧ SameMemory s t ∧
        (t.core tm.coreKey).windlass = some team ∧
        mget? t.teams team = some { tm with runs := { r with started := true } :: rest } ∧
        ∀ j, j ≠ team → mget? t.teams j = mget? s.teams j) ∧
    (r.started = true → r.held = false → (s.core tm.coreKey).windlass = some team →
      let fits (sts : List Stream) (ix : List Nat) (e : Nat) : Prop :=
        s.tracked tm.coreKey + sts.length ≤ 64 ∧
        ∀ st ∈ sts, (∀ p ∈ s.runPieces tm (st.copyRows ix), ∃ q x, p.2.2 = .ok q x) ∧
          ∀ p ∈ s.runDest tm (st.copyRows ix) ((tm.buf r.buf).addr e), ∃ q x, p.2.2 = .ok q x
      let issued (tm' : Team) (n e : Nat) : Prop :=
        ∀ i, i < n → ∃ (k : Cmd) (c : Copy), mget? tm'.cmds (s.nextId + i) = some k ∧ k.kind = .copy c ∧
          k.taken = true ∧ c.buf = some r.buf ∧ c.entry = some e ∧ c.run = some r.id
      (∀ ix, r.idx = some ix → r.cur = none → tm.mayTake s.nextId r.buf = true → fits r.streams ix (tm.buf r.buf).tail →
        ∃ (t : State) (tm' : Team), exec (.windlassIteration team) s = .next t ∧ SameMemory s t ∧ mget? t.teams team = some tm' ∧
          tm'.runs = { r with idx := nextIdx ix r.bounds } :: rest ∧ (tm'.buf r.buf).tail = (tm.buf r.buf).tail + 1 ∧
          tm'.groups = tm.groups ∧ issued tm' r.streams.length (tm.buf r.buf).tail) ∧
      (∀ ix e k, r.cur = some (ix, e, k) → fits (r.streams.drop k) ix e →
        ∃ (t : State) (tm' : Team), exec (.windlassIteration team) s = .next t ∧ SameMemory s t ∧ mget? t.teams team = some tm' ∧
          tm'.runs = { r with cur := none } :: rest ∧ tm'.bufs = tm.bufs ∧ tm'.groups = tm.groups ∧
          issued tm' (r.streams.drop k).length e) ∧
      (∀ ix e k st, r.cur = some (ix, e, k) → r.streams[k]? = some st → s.tracked tm.coreKey < 64 →
        (∀ p ∈ s.runPieces tm (st.copyRows ix), (∃ q x, p.2.2 = .ok q x) ∨ p.2.2 = .pageflt) →
        (∃ p ∈ s.runPieces tm (st.copyRows ix), p.2.2 = .pageflt) →
        (∀ p ∈ s.runDest tm (st.copyRows ix) ((tm.buf r.buf).addr e), ∃ q x, p.2.2 = .ok q x) → (s.ctx tm.ctx).fqSize = 0 →
        ∃ t : State, exec (.windlassIteration team) s = .next t ∧ SameMemory s t ∧
          mget? t.teams team = some { tm with runs := { r with held := true } :: rest })))

/-! ### The matrix unit -/

/-- MMA and MMAS (R228 to R236, R406 to R408). With whole octets and legal types, and B (and for MMAS the scales) at hand, the
instruction puts one operation for each octet that issues at the end of its slot's queue, in ascending order, with the A
fragment as its registers stand, and is counted once on MXC; no register and no memory changes. With no octet it does nothing;
a partly active octet raises MMASK with the mask of such octets, an illegal combination of types ILLOP with reason 6.

The matrix events (R229 to R233, R407). MATRIX_PASS_START reads the B tile of an operation's instruction from the team's
array; MATRIX_OP_COMPLETE takes the oldest operation of its slot off the queue and writes its accumulator tile, element by
element, from the incoming values or, with ZC, from none; every other register and all of memory are as before.
The model's own choices that it touches: log 32, 83. -/
def Obligations.MatrixCompletes : Prop :=
  (∀ (s : State) (c : Cur) (f : FmtX), s.cur? = some c →
    let ty := (c.matTypes f).1
    let acc := (c.matTypes f).2
    let queued (i : Instr) (s₁ : State) (os : List Nat) (bs : List BSource) (ss : List (Option Scales)) : Prop :=
      ∃ (t : State) (d : Cur) (ops : List MatOp), exec i s = .next t ∧ t.lookup? c.ref = some d ∧ SameMemory s₁ t ∧
        mget [] (t.core c.team.coreKey).mq c.group.slot = mget [] (s₁.core c.team.coreKey).mq c.group.slot ++ ops ∧
        ops.map (·.octet) = os ∧ ops.map (·.b) = bs ∧ ops.map (·.scales) = ss ∧
        (∀ o ∈ ops, o.inst = s.nextId ∧ o.team = c.ref.team ∧ o.group = c.ref.group ∧ o.dreg = f.d.toNat ∧ o.acc = acc ∧
          o.shape = f.sh.toNat ∧ o.ty = ty ∧ o.zc = f.zc ∧
          (f.ru = false → o.a = c.fragment o.octet f.a.toNat (if f.sh = 2 then 32 else 16))) ∧
        d.split.ctrs = c.split.ctrs.add .mxc s.nextId ∧ d.split.mask = c.split.mask ∧ SameRegisters c.group d.group
    (∀ os bs, c.octets f.com = .ok os → os ≠ [] → (os.mapM fun o => c.bSource f ty o) = .ok bs →
      (matTypesOk false ty acc f.sh.toNat = true → queued (.mma f) s os bs (os.map fun _ => none)) ∧
      (∀ s₁ ss, s.noStash → matTypesOk true ty acc f.sh.toNat = true → s.scalesOf c f os = .ok (s₁, ss) →
        queued (.mmas f) s₁ os bs (ss.map some))) ∧
    (c.octets f.com = .ok [] → exec (.mma f) s = .next s ∧ exec (.mmas f) s = .next s) ∧
    (∀ m, c.octets f.com = .error m → exec (.mma f) s = .next (s.fatal c.ref .mmask m) ∧ exec (.mmas f) s = .next (s.fatal c.ref .mmask m)) ∧
    (∀ os, c.octets f.com = .ok os → os ≠ [] →
      (matTypesOk false ty acc f.sh.toNat = false → exec (.mma f) s = .next (s.illop c 6)) ∧
      (matTypesOk true ty acc f.sh.toNat = false → exec (.mmas f) s = .next (s.illop c 6)))) ∧
  (∀ (s : State) (core slot : Nat) (o : MatOp) (rest : List MatOp) (tm : Team) (g : Group),
    mget? (s.core core).mq slot = some (o :: rest) → mget? s.teams o.team = some tm → mget? tm.groups o.group = some g →
    (∀ q ∈ (s.core core).mq, ∀ x ∈ q.2, x.id = o.id → x = o) →
    (∀ q ∈ (s.core core).mq, q.1 ≠ slot → ∀ x ∈ q.2, x.id ≠ o.id) →
    (∀ a p cols, o.b = .tile a p cols →
      ∃ (t : State) (o' : MatOp) (rest' : List MatOp), exec (.matrixPassStart core o.id) s = .next t ∧ SameMemory s t ∧
        t.teams = s.teams ∧ mget? (t.core core).mq slot = some (o' :: rest') ∧
        o' = { o with b := .ready (s.tileRead tm a p o.shape o.ty cols) }) ∧
    (∀ elems, o.b = .ready elems → o.regs = none → o.dreg + 16 ≤ 256 → (∃ x ∈ rest, x.inst = o.inst) →
      ∃ (t : State) (tm' : Team) (g' : Group), exec (.matrixOpComplete core o.id) s = .next t ∧ SameMemory s t ∧
        mget? (t.core core).mq slot = some rest ∧ mget? t.teams o.team = some tm' ∧ tm' = { tm with groups := tm'.groups } ∧
        mget? tm'.groups o.group = some g' ∧ g' = { g with v := g'.v } ∧
        (∀ j n, j < 8 → n < 16 → g'.vreg (8 * o.octet + j) (o.dreg + n) =
          (let d := if o.zc then none else some (g.vreg (8 * o.octet + j) (o.dreg + n)).toNat
           BitVec.ofNat 32 (if o.acc = 2 then o.element elems j n d % 65536 else o.element elems j n d))) ∧
        ∀ l n, n < 256 → (l / 8 ≠ o.octet ∨ n < o.dreg ∨ o.dreg + 16 ≤ n) → g'.vreg l n = g.vreg l n))

/-- What an MMA on s8 sources gives (R166): the exact sum of the products and the incoming value, modulo 2^32, whatever the
order of the products. -/
def Obligations.IntegerMatrixElementIsExact : Prop :=
  ∀ (a b : List Nat) (d : Nat), d < 2 ^ 32 →
    let sum := ((a.zip b).map fun y => toInt true 8 y.1 * toInt true 8 y.2).sum
    ((mmaInt a b (some d) : Nat) : Int) = (toInt true 32 d + sum) % 2 ^ 32 ∧
    ∀ a' b' : List Nat, (a'.zip b').Perm (a.zip b) → mmaInt a' b' (some d) = mmaInt a b (some d)

/-! ### The epilogue processor -/

/-- The epilogue words (R237, R367 to R373), each run on the processor whose turn it is: the arithmetic words write their e
register element by element from sources all read before, and nothing else; EPST stores its row in its narrow type at the
row's address, in the local array (where a drain to a buffer goes too, R401) or, under the leaf that the drain holds for its page, in
HBM, and no other byte; EPEND ends the row's program. The value of EPEXP within the bound of R380 is one that the model picks freely,
by its own choice: log 7. -/
def Obligations.EpilogueWordsComplete : Prop :=
  ∀ (s : State) (core : Nat) (f : FmtEp), s.turn = .epilogue core →
    let x := (s.core core).epi
    let A (m : Nat) := x.src (f.tm.getLsbD 0) f.a m
    let B (m : Nat) := x.src (f.tm.getLsbD 1) f.b m
    let C (m : Nat) := x.src (f.tm.getLsbD 2) f.c m
    let d := f.d.toNat
    EpWrites (.epadd f) s core d (fun m => rf32 (FVal.add 0 (A m) (B m))) ∧
    EpWrites (.epmul f) s core d (fun m => rf32 (FVal.mul (A m) (B m))) ∧
    EpWrites (.epfma f) s core d (fun m => rf32 (FVal.add 0 (FVal.mul (A m) (B m)) (C m))) ∧
    EpWrites (.epmax f) s core d (fun m => rf32 (FVal.max (A m) (B m))) ∧
    EpWrites (.epmin f) s core d (fun m => rf32 (FVal.min (A m) (B m))) ∧
    EpWrites (.epexp f) s core d (fun m => (fex232 0x106 (BitVec.ofNat 32 (rf32 (A m))) (A m)).toNat) ∧
    EpWrites (.eplut f) s core d (fun m =>
      if A m = .nan then f32Fmt.nanCode
      else
        let i := lutIndex (A m)
        let fr := FVal.add 0 (A m) (FVal.ofInt (-(i : Int)) 0)
        rf32 (FVal.add 0 (FVal.mul fr (f32Fmt.decode (x.cAt f.c.toNat i).toNat)) (f32Fmt.decode (x.cAt f.b.toNat i).toNat))) ∧
    EpWrites (.epbias f) s core d (fun m =>
      rf32 (FVal.add 0 (A m) (f32Fmt.decode (x.cAt (f.b.toNat + x.row / 16) (x.row % 16)).toNat))) ∧
    EpWrites (.epscl f) s core d (fun m => rf32 (FVal.mul (A m) (.fin false 1 f.imm.toInt))) ∧
    (∃ t : State, exec (.epcvt f) s = .next t ∧ t = { s with cores := t.cores } ∧ (∀ k, k ≠ core → t.core k = s.core k) ∧
      ∀ r m, m < 16 → (t.core core).epi.eAt r m =
        (let q := cvtef (epcvtTy f.tm) x.mods x.sat (x.eAt f.a.toNat m)
         if r = d + 1 then hiWord q
         else if r = d then BitVec.ofNat 32 (rf32 ((floatFmt (epcvtTy f.tm)).decode (elem ((loWord q).setWidth 64) (epcvtTy f.tm).width 0)))
         else x.eAt r m)) ∧
    (∀ tm, x.dest.global = false → mget? s.teams x.dest.team = some tm → Memory.wf (s.core tm.coreKey).arr = true →
      let a := tm.base + (x.dest.addr + 16 * f.imm.toNat)
      ∃ t : State, exec (.epst f) s = .next t ∧ t.hbm = s.hbm ∧ (t.core core).epi = x ∧
        (∀ i, i < (epstBytes f x).length → rdByte (t.core tm.coreKey).arr (a + i) = ((epstBytes f x)[i]?).getD 0) ∧
        (∀ b, b < a ∨ a + (epstBytes f x).length ≤ b → rdByte (t.core tm.coreKey).arr b = rdByte (s.core tm.coreKey).arr b)) ∧
    (∀ tm leaf pa, x.dest.global = true → mget? s.teams x.dest.team = some tm → s.noStash → Memory.wf s.hbm = true →
      let a := x.dest.addr + 16 * f.imm.toNat
      let n := (epstBytes f x).length
      (∀ i, 16 * i < n → mget? x.dest.pages ((a + 16 * i) / 65536) = some leaf ∧
        s.placeOf tm.ctx (a + 16 * i) leaf = some (.hbm (pa + 16 * i))) →
      ∃ t : State, exec (.epst f) s = .next t ∧ (t.core core).epi = x ∧ (∀ k, (t.core k).arr = (s.core k).arr) ∧
        (∀ i, i < n → rdByte t.hbm (pa + i) = ((epstBytes f x)[i]?).getD 0) ∧
        ∀ b, b < pa ∨ pa + n ≤ b → rdByte t.hbm b = rdByte s.hbm b) ∧
    (∃ t : State, exec .epend s = .next t ∧ t = { s with cores := t.cores } ∧ (t.core core).epi = { x with prog := [] } ∧
      ∀ k, k ≠ core → t.core k = s.core k)

/-- EPLOAD and MDRAIN (R237 to R240, R374, R375, R401 to R403). EPLOAD of a program that the team does not hold, with a place
for it, is counted on MXC and takes the place; of the program that it holds, it changes nothing. MDRAIN to the local array puts
a drain of its octets' rows, with the accumulator as it stands, behind the team's epilogue work, counted on MXC.

The epilogue events. DRAIN_ROW runs the program of the drain at the head of its core's queue on its next row: e0 holds the
row, the c registers the constants, and the words run in order (R237, R239); EPILOGUE_PLACE_TAKE gives a free place, or one that
holds its program, to the team's first waiting EPLOAD, or the team's own once its drains are complete (R240). The model's own choices that it touches: log 88. -/
def Obligations.EpilogueUnitsComplete : Prop :=
  (∀ (s : State) (c : Cur) (f : FmtE), s.cur? = some c → s.noStash →
    let off := c.group.regs.epprog.toNat / 4 % 2 ^ 18
    (∀ (k : Task) (s₁ : State) (prog : List Word), c.acts f.com = true → mget? s.tasks c.team.task = some k →
      s.epWords c k off 64 0 [] = .ok s₁ prog →
      let name : EpName := ⟨c.team.ctx, k.kimg, off⟩
      (c.team.ep.name = some name → exec (.epload f) s = .next s₁ ∧ SameMemory s s₁ ∧ s₁.teams = s.teams) ∧
      (∀ n, c.team.ep.name ≠ some name → c.team.waitingLoad = none →
        (s.core c.team.coreKey).placeFor c.ref.team name (s.drainsBefore c.team c.ref.team) = some n →
        ∃ (u : State) (d : Cur) (q : Cmd), exec (.epload f) s = .next (u.epTake c.ref.team s.nextId n name) ∧
          Posted s₁ u c d .mxc q ∧ q.kind = .epload ∧ d.team.ep.name = some name ∧ d.team.ep.code = prog ∧ OnlyCounts c d ∧
          SameRegisters c.group d.group)) ∧
    (∀ (os : List Nat) (k : Task) (ps : List (List (Place × Nat))) (s₁ : State) (consts : List Byte),
      c.octets f.com = .ok os → os ≠ [] → f.sub.toNat % 4 = 0 → mget? s.tasks c.team.task = some k →
      let acc := if f.sub.toNat / 4 = 3 then c.split.fmt.toNat / 8 % 4 else f.sub.toNat / 4
      let base := (c.rdS f.s0.toNat).toNat
      let pitch := (c.rdS f.s1.toNat).toNat
      let rows := os.flatMap fun o => (List.range 8).map fun i => 8 * o + i
      let dst := rows.flatMap fun j => (epstSpans c.team.ep.code).map fun x =>
        (⟨true, base + j * pitch + x.1, x.2, { wr := true }⟩ : ERange)
      let tab : ERange := ⟨false, c.group.regs.epconst.toNat, 1024, { rd := true }⟩
      c.team.ep.name = some ⟨c.team.ctx, k.kimg, off⟩ → base % 16 = 0 → pitch % 16 = 0 → 16 ≤ pitch → pitch ≤ 65536 →
      s.engRanges c (tab :: dst) = .ok ps → s.issueRead c tab.addr 1024 = .ok (s₁, consts) →
      ∃ (u : State) (d : Cur) (q : Cmd) (x : Drain), exec (.mdrain f) s = .next (u.epFlow c.ref.team) ∧ Posted s₁ u c d .mxc q ∧
        q.kind = .drain ∧ d.team.ep.wait = c.team.ep.wait ++ [(.drain x, none)] ∧ x.id = s.nextId ∧ x.team = c.ref.team ∧
        x.fmt = c.split.fmt ∧ x.prog = c.team.ep.code ∧ x.octets = os ∧ x.acc = f.flg.toNat ∧ x.global = false ∧ x.base = base ∧
        x.pitch = pitch ∧ x.buf = none ∧ x.rows = rows.map (fun j => (j, c.drainRow acc f.flg.toNat j)) ∧
        x.consts = (List.range 256).map (fun i => BitVec.ofNat 32 (natOfBytes ((consts.drop (4 * i)).take 4))) ∧
        OnlyCounts c d ∧ SameRegisters c.group d.group)) ∧
  ((∀ (s : State) (core : Nat) (x : Drain) (q : List EpItem) (tm : Team) (k : Cmd) (row : Nat × List Word) (left : List (Nat × List Word)),
    (s.core core).epq = .drain x :: q → mget? s.teams x.team = some tm → mget? tm.cmds x.id = some k → tm.status ≠ .saved →
    (k.begun = true ∨ tm.clear x.id k.foot = true) → x.rows = row :: left →
    ∃ (u v : State) (tm' : Team), SameMemory s u ∧ mget? u.teams x.team = some tm' ∧
      tm' = { tm with cmds := mput tm.cmds x.id { k with begun := true } } ∧
      v = x.prog.foldl (fun t w => match decodeEp w with | some i => t.epRun core i | none => t) u ∧
      (u.core core).epi.row = row.1 ∧ (u.core core).epi.fmt = x.fmt ∧
      (u.core core).epi.dest = ⟨x.team, x.global, x.base + row.1 * x.pitch, x.pages⟩ ∧
      (∀ m, m < row.2.length → row.2.length ≤ 16 → (u.core core).epi.eAt 0 m = (row.2[m]?).getD 0) ∧
      (left ≠ [] → exec (.drainRow core) s = .next (v.modCore core fun z => { z with epq := .drain { x with rows := left } :: q })) ∧
      (left = [] → x.buf = none → (∀ q ∈ k.foot, ∀ pkg off, q.place ≠ .peer pkg off) → exec (.drainRow core) s =
        .next ((((v.modCore core fun z => { z with epq := q }).modTeam x.team fun t => t.cmdDone x.id).settle x.team).epSettle core 64))) ∧
  (∀ (s : State) (team place id : Nat) (tm : Team) (name : EpName), mget? s.teams team = some tm → tm.waitingLoad = some (id, name) →
    tm.status = .resident → mwf (s.core tm.coreKey).places = true →
    (s.core tm.coreKey).mayPlace team name (s.drainsBefore tm team) place = true →
    ∃ u : State, exec (.epiloguePlaceTake team place) s = .next (u.epFlow team) ∧ SameMemory s u ∧
      (∃ p, mget? (u.core tm.coreKey).places place = some p ∧ p.name = name ∧ team ∈ p.teams) ∧
      (u.core tm.coreKey).epq = (s.core tm.coreKey).epq ++ [.load id team]))

/-! ### Tasks, graph nodes and queues -/

/-- Creation of a task from a record in memory (R70 to R76), in the order of its checks: FULL, FIELD, SHAPE, IMAGE, and no task
is made; else status 0, and the task stands in the table with what its record and image say, its STATE in memory 1, or, of a compute
task whose DEP is not above zero, 2 and ready. No byte but STATE's changes.

TASKNEW, TASKDEC and TEMIT (R76, R88, R454 to R456), each counted on ENC. TASKNEW gives the status of the creation; TASKDEC
takes its amount from DEP in memory, and a task whose DEP comes to zero or below is ready; TEMIT reserves the next record of a
node with room, its predicate true, and with no room makes its predicate false.
The model's own choices that it touches: log 40, 75, 76, 77. -/
def Obligations.TaskInstructionsComplete : Prop :=
  (∀ (s : State) (die x rec pa : Nat), s.noStash → s.memOk = true → Mapped s (Bytes pa 128) die x rec 128 pa →
    let b := rdBytes s.hbm pa 128
    let shape := BitVec.ofNat 64 (le b 0x10 8)
    let dep := (BitVec.ofNat 32 (le b 0x28 4)).toInt
    let r := s.createTask die x rec
    let absent (h : List Byte) : Bool := (rolesOf shape).any fun q => le h (0x28 + 4 * q.1) 4 = 0xFFFFFFFF
    (s.tasksFull x = true → r.2 = 1 ∧ r.1.tasks = s.tasks) ∧
    (s.tasksFull x = false → recordBad b = true → r.2 = 2 ∧ r.1.tasks = s.tasks) ∧
    (s.tasksFull x = false → recordBad b = false → shapeBad shape (le b 0x1C 4 / 4 % 2 = 1) = true → r.2 = 3 ∧ r.1.tasks = s.tasks) ∧
    (s.tasksFull x = false → recordBad b = false → shapeBad shape (le b 0x1C 4 / 4 % 2 = 1) = false →
      (s.image die x (le b 0 8) = none ∨ ∃ h, s.image die x (le b 0 8) = some h ∧ absent h = true) → r.2 = 4 ∧ r.1.tasks = s.tasks) ∧
    (∀ h, s.tasksFull x = false → recordBad b = false → shapeBad shape (le b 0x1C 4 / 4 % 2 = 1) = false →
      s.image die x (le b 0 8) = some h → absent h = false → (dep ≤ 0 → le b 0x1C 4 / 4 % 2 = 0) →
      ∃ k, r.2 = 0 ∧ mget? r.1.tasks s.nextId = some k ∧
        k = { taskOfRecord x rec (BitVec.ofNat 32 (s.ctx x).created) b h with state := k.state, ready := k.ready } ∧
        (0 < dep → k.state = 1 ∧ k.ready = none ∧ HbmTakes s r.1 (pa + 0x2C) 4 1) ∧
        (dep ≤ 0 → le b 0x1C 4 / 4 % 2 = 0 → k.state = 2 ∧ k.ready = some s.mgmt.time ∧ HbmTakes s r.1 (pa + 0x2C) 4 2) ∧
        (r.1.ctx x).created = (s.ctx x).created + 1 ∧ ∀ j, j ≠ s.nextId → mget? r.1.tasks j = mget? s.tasks j)) ∧
  (∀ (s : State) (c : Cur) (f : FmtE), s.cur? = some c → c.acts f.com = true → s.noStash → s.memOk = true →
    (∀ c₁, let rec_ := (c.rdPair f.s1.toNat).toNat
      let r := s.createTask c.team.die c.team.ctx rec_ (some c.team.coreKey)
      rec_ % 128 = 0 → r.2 ≠ 5 → r.1.lookup? c.ref = some c₁ →
      ∃ (t : State) (d : Cur) (q : Cmd), exec (.tasknew f) s = .next t ∧ Posted r.1 t c₁ d .enc q ∧ q.kind = .effected ∧
        ScalarIs c₁ d f.s0.toNat (BitVec.ofNat 32 r.2) ∧ d.group.p = c₁.group.p) ∧
    (∀ pa, let rec_ := (c.rdPair f.s0.toNat).toNat
      let old := BitVec.ofNat 32 (s.hbmNat (pa + 0x28) 4)
      let new := old - c.rdS f.s1.toNat
      let s₁ := s.decrement c.team.die c.team.ctx rec_ (c.rdS f.s1.toNat).toNat (some c.team.coreKey)
      rec_ % 128 = 0 → c.rdS f.s1.toNat ≠ 0 → (c.rdS f.s1.toNat).toNat < 2 ^ 31 → Mapped s (Bytes pa 128) c.team.die c.team.ctx rec_ 128 pa →
      ((∀ t ∈ s.tasks, ¬ (t.2.ctx = c.team.ctx ∧ t.2.addr = rec_)) → HbmTakes s s₁ (pa + 0x28) 4 new.toNat ∧
        ∃ (c₁ : Cur) (t : State) (d : Cur) (q : Cmd), s₁.lookup? c.ref = some c₁ ∧ SameRegisters c.group c₁.group ∧
          exec (.taskdec f) s = .next t ∧ Posted s₁ t c₁ d .enc q ∧ q.kind = .effected ∧ OnlyCounts c₁ d ∧
          SameRegisters c₁.group d.group) ∧
      (∀ k tk, (s.tasks.find? fun t => t.2.ctx = c.team.ctx && t.2.addr = rec_) = some (k, tk) → mget? s.tasks k = some tk →
        tk.graph = false → tk.state = 1 → tk.ready = none → 0 < old.toInt → new.toInt ≤ 0 →
        ∃ tk' t, exec (.taskdec f) s = .next t ∧ mget? t.tasks k = some tk' ∧ tk' = { tk with state := 2, ready := some s.mgmt.time } ∧
          t.hbmNat (pa + 0x28) 4 = new.toNat ∧ t.hbmNat (pa + 0x2C) 4 = 2)) ∧
    (∀ k tk ps pa, let node := (c.rdPair f.s0.toNat).toNat
      let glb := f.flg.getLsbD 3
      let src := if glb then (c.rdPair f.s1.toNat).toNat else (c.rdS f.s1.toNat).toNat
      let pd := f.flg.toNat % 8
      let resv := s.nodeGet c.team.die tk 0
      (s.tasks.find? fun t => t.2.ctx = c.team.ctx && t.2.addr = node && t.2.graph) = some (k, tk) → node % 128 = 0 →
      (glb = false → src % 16 = 0) → s.engRanges c [⟨!glb, src, tk.rsz, { rd := true }⟩] = .ok ps →
      s.nodeLost c.team.die tk = none →
      (tk.ring < resv + 1 - s.nodeGet c.team.die tk 24 →
        ∃ (t : State) (d : Cur) (q : Cmd), exec (.temit f) s = .next t ∧ Posted s t c d .enc q ∧ q.kind = .effected ∧
          PredIs c d f.com pd (fun _ => false)) ∧
      (resv + 1 - s.nodeGet c.team.die tk 24 ≤ tk.ring → 0 < s.depOf c.team.die tk.ctx tk.addr → tk.ctx = c.team.ctx →
        Mapped s (Bytes pa 64) c.team.die tk.ctx tk.qbase 64 pa →
        let s₁ := s.nodeSet c.team.die tk 0 (resv + 1) (some c.team.coreKey)
        HbmTakes s s₁ pa 8 (resv + 1) ∧
        ∃ (c₁ : Cur) (t : State) (d : Cur) (q : Cmd), s₁.lookup? c.ref = some c₁ ∧ SameRegisters c.group c₁.group ∧
          exec (.temit f) s = .next t ∧ Posted s₁ t c₁ d .enc q ∧ q.kind = .temit k resv ps.flatten ∧
          PredIs c₁ d f.com pd (fun _ => true))))

/-- QPULL (R91, R92, R426, R427). From a queue with an item it moves the item at HEAD to its local offset, HEAD in memory moves
on, and the status is 0; from an empty queue the query form gives status 1, a closed queue status 2, and otherwise its split
waits. An unbound queue raises ILLOP with reason 10.

QPUSH, QPUSH.close and ARRV (R339, R340, R426, R428). A push to an open queue waits in its team's commands for its append; a
close with no earlier push of its die left sets CLOSED in memory. ARRV adds one to its counter in memory, or with .rst and the
last arrival clears it, gives the count that stood there, and its predicate says whether it was the last.
The model's own choices that it touches: log 76, 77. -/
def Obligations.QueueInstructionsComplete : Prop :=
  (∀ (s : State) (c : Cur) (f : FmtE), s.cur? = some c → c.acts f.com = true → s.noStash → s.memOk = true →
    let loc := (c.rdS f.s1.toNat).toNat
    (s.queueAt c.team.die c.team.ctx f.qb.toNat = none → exec (.qpull f) s = .next (s.illop c 10)) ∧
    (∀ a q pa, s.queueAt c.team.die c.team.ctx f.qb.toNat = some a → Mapped s (Bytes pa 64) c.team.die c.team.ctx a 64 pa →
      s.readDesc c.team.die c.team.ctx a = some q → q.ok = true → loc % 16 = 0 → loc + q.isz ≤ c.team.bytes → c.team.wins = [] →
      (∀ item, q.head ≠ q.tail → s.vRead c.team.die c.team.ctx (q.slot q.head) q.isz = some item → item.length = q.isz →
        ∃ (s₁ : State) (c₁ : Cur) (t : State) (d : Cur) (k : Cmd), s.pullItem c.ref.team c.team q loc = some s₁ ∧
          HbmTakes s s₁ (pa + 0x18) 8 (q.head + 1) ∧ s₁.arrRead c.team loc q.isz = item ∧
          (∀ x, x < c.team.base + loc ∨ c.team.base + loc + q.isz ≤ x →
            rdByte (s₁.core c.team.coreKey).arr x = rdByte (s.core c.team.coreKey).arr x) ∧
          s₁.lookup? c.ref = some c₁ ∧ SameRegisters c.group c₁.group ∧
          exec (.qpull f) s = .next t ∧ Posted s₁ t c₁ d .enc k ∧ k.kind = .effected ∧ ScalarIs c₁ d f.s0.toNat 0 ∧ d.group.p = c₁.group.p) ∧
      (q.head = q.tail → (f.flg.getLsbD 0 = true ∨ q.isClosed = true) →
        ∃ (t : State) (d : Cur) (k : Cmd), exec (.qpull f) s = .next t ∧ Posted s t c d .enc k ∧ k.kind = .effected ∧
          ScalarIs c d f.s0.toNat (if f.flg.getLsbD 0 then 1 else 2) ∧ d.group.p = c.group.p) ∧
      (q.head = q.tail → f.flg.getLsbD 0 = false → q.isClosed = false →
        ∃ (t : State) (d : Cur) (k : Cmd), exec (.qpull f) s = .next t ∧ Posted s t c d .enc k ∧
          k.kind = .qpull f.qb.toNat loc f.s0.toNat ∧ Waits c d (.qpull s.nextId)))) ∧
  (∀ (s : State) (c : Cur) (f : FmtE), s.cur? = some c → c.acts f.com = true → s.noStash → s.memOk = true →
    let loc := (c.rdS f.s1.toNat).toNat
    (∀ d q, s.pushAsk c f = .ok (d, q) →
      (∀ pi, q.isClosed = false → loc % 16 = 0 → loc + q.isz ≤ c.team.bytes → c.team.wins = [] →
        Mapped s (Bytes pi q.isz) c.team.die c.team.ctx (q.slot q.tail) q.isz pi →
        ∃ (t : State) (e : Cur) (k : Cmd), exec (.qpush f) s = .next t ∧ Posted s t c e .enc k ∧ k.kind = .qpush d f.qb.toNat loc ∧
          OnlyCounts c e ∧ SameRegisters c.group e.group) ∧
      (q.isClosed = true → exec (.qpush f) s = .next (s.illop c 10)) ∧
      (∀ pa a, s.pushesBefore c.team.die c.team.ctx d f.qb.toNat s.nextId = false → s.queueAt d c.team.ctx f.qb.toNat = some a →
        s.readDesc c.team.die c.team.ctx a = some q → q.at_ = a → Mapped s (Bytes pa 64) c.team.die c.team.ctx a 64 pa →
        ∃ (t : State) (e : Cur) (k : Cmd), exec (.qpushClose f) s = .next t ∧ t.lookup? c.ref = some e ∧
          mget? e.team.cmds s.nextId = some k ∧ k.kind = .effected ∧ e.split.ctrs = c.split.ctrs.add .enc s.nextId ∧
          HbmTakes s t (pa + 8) 4 (q.cfg ||| 256) ∧ SameRegisters c.group e.group)) ∧
    (∀ pa, let a := (c.rdPair f.s1.toNat).toNat
      let n := c.rdS f.s2.toNat
      let old : Word := BitVec.ofNat 32 (s.hbmNat pa 4)
      let new : Word := if old + 1 = n ∧ f.flg.getLsbD 3 = true then 0 else old + 1
      n ≠ 0 → a % 4 = 0 → c.team.winOf a = none → s.engRanges c [⟨false, a, 4, { wr := true }⟩] = .ok [[(.hbm pa, 4)]] →
      ∃ (s₁ : State) (c₁ : Cur) (t : State) (d : Cur) (k : Cmd), HbmTakes s s₁ pa 4 new.toNat ∧ s₁.lookup? c.ref = some c₁ ∧
        SameRegisters c.group c₁.group ∧ exec (.arrv f) s = .next t ∧ Posted s₁ t c₁ d .enc k ∧ k.kind = .effected ∧
        ScalarIs c₁ d f.s0.toNat old ∧
        (∀ p l, l < 64 → d.group.preg p l = if p = f.flg.toNat % 8 ∧ p < 7 ∧ (c₁.pass f.com).getLsbD l = true then decide (old + 1 = n)
          else c₁.group.preg p l)))

/-- The events of queues and the doorbell (R78, R92, R427, R428). A parked QPULL that no earlier command of its
team holds back takes the item at HEAD, its split goes on with status 0, and on a closed empty queue with status 2; an append writes the item behind TAIL and moves TAIL on; a doorbell's
status stands in its page. The model's own choices that it touches: log 41, 76. -/
def Obligations.QueueEventsComplete : Prop :=
  ∀ (s : State), s.noStash → s.memOk = true →
    (∀ (r : Ref) (c : Cur) (id q loc reg pa : Nat) (k : Cmd) (d : QDesc), s.lookup? r = some c → c.split.park = .qpull id →
      mget? c.team.cmds id = some k → k.kind = .qpull q loc reg → c.team.status = .resident → c.group.halted = false → c.team.clear id k.foot = true →
      ((s.queueAt c.team.die c.team.ctx q).bind fun a => s.readDesc c.team.die c.team.ctx a) = some d →
      (∀ item, d.head ≠ d.tail → s.vRead c.team.die c.team.ctx (d.slot d.head) d.isz = some item → item.length = d.isz →
        Mapped s (Bytes pa 64) c.team.die c.team.ctx d.at_ 64 pa →
        ∃ (u : State) (e : Cur), exec (.qpullWake r) s = .next (u.cmdDone r.team id) ∧ HbmTakes s u (pa + 0x18) 8 (d.head + 1) ∧
          u.arrRead c.team loc d.isz = item ∧ u.lookup? r = some e ∧ Leaves c e ∧ ScalarIs c e reg 0) ∧
      (d.head = d.tail → d.isClosed = true →
        ∃ (u : State) (e : Cur), exec (.qpullWake r) s = .next (u.cmdDone r.team id) ∧ WritesLate s u c e ∧ Leaves c e ∧
          ScalarIs c e reg 2)) ∧
    (∀ (team cmd q die loc pd pi : Nat) (t : Team) (k : Cmd) (d : QDesc), mget? s.teams team = some t → mget? t.cmds cmd = some k →
      k.kind = .qpush die q loc → t.status = .resident → t.clear cmd k.foot = true →
      ((s.queueAt die t.ctx q).bind fun a => s.readDesc t.die t.ctx a) = some d → d.tail - d.head < d.cap → d.isClosed = false →
      (let D a := Bytes pd 64 a ∨ Bytes pi d.isz a
       Mapped s D t.die t.ctx d.at_ 64 pd → Mapped s D t.die t.ctx (d.slot d.tail) d.isz pi → (∀ a, ¬ (Bytes pd 64 a ∧ Bytes pi d.isz a)) →
       (∀ u ∈ s.teams, ∀ m ∈ u.2.cmds, ∀ e x, m.2.kind ≠ .qclose e x) →
       ∃ u : State, exec (.qpushAppend team cmd) s = .next (u.cmdDone team cmd) ∧
        rdBytes u.hbm pi d.isz = s.arrRead t loc d.isz ∧ u.hbmNat (pd + 0x10) 8 = (d.tail + 1) % 2 ^ 64 ∧
        ∀ a, ¬ Bytes pi d.isz a → ¬ Bytes (pd + 0x10) 8 a → rdByte u.hbm a = rdByte s.hbm a)) ∧
    (∀ (x : Nat) (rec : DWord), (s.ctx x).live = true → (s.ctx x).ended = none →
      ∃ t : State, exec (.hostTaskDoorbell x rec) s = .next t ∧ (t.ctx x).doorbell = BitVec.ofNat 32
        (if rec.toNat % 128 ≠ 0 then 2 else (s.createTask (s.hostDie (ctxDevice x)) x rec.toNat).2))

/-! ### The die schedulers -/

/-- GRAPH_RECORD_WRITTEN and the launches of graph nodes (R87 to R89). The record's bytes go to the slot that its TEMIT reserved
and it counts as written; a node with enough records waiting, or sealed with some, launches a team whose group sees the first of
them and their number, and TAKEN moves past them, as does one whose oldest record has waited FLUSH ns; the launches of a node that
is ready go the way of every ready task.

DIE_SCHEDULER_PLACE, TASK_BLOCKING and the forced placement of a starved context (R82 to R86, R93, R99, R100). The scheduler
places a new team of the task whose turn it is, of any index not placed before (R45), where the team has room; a task that a die has skipped for 1 ms, and that
still wants a team there, becomes blocking; a starved context's team takes the core that it is given, and is protected there for
1 ms. The model's own choices that it touches: log 74, 75, 78. -/
def Obligations.GraphAndSchedulerEventsComplete : Prop :=
  ((∀ (s : State) (team cmd node i off : Nat) (t : Team) (k : Cmd) (n : Task) (v : State), mget? s.teams team = some t →
    mget? t.cmds cmd = some k → k.kind = .temit node i [(.arr off, n.rsz)] → t.clear cmd k.foot = true →
    mget? (s.cmdDone team cmd).tasks node = some n →
    (s.cmdDone team cmd).vWrite t.die n.ctx (n.recAddr i) (s.arrRead t off n.rsz) = some v →
    exec (.graphRecordWritten team cmd) s = .next (v.nodeWritten node t.die i (some t.coreKey))) ∧
  (∀ (s : State) (p : Placement) (k : Task) (flush : Bool), mget? s.tasks p.task = some k → k.graph = true → k.ready = none →
    s.nodeLost p.die k = none → 0 < s.launchSize k p.die flush → (∀ b ∈ (s.die p.die).blocking, b = p.task) → s.mgmt.busy = false →
    (s.ctx k.ctx).ended = none → (s.die p.die).failed = false → s.legalNew k p = true →
    let n := s.launchSize k p.die flush
    let taken := s.nodeGet p.die k 16
    let s₁ := (s.modTask p.task fun k => { k with
      running := mput k.running k.placed (taken, n), waiting := k.waiting.filter fun w => taken + n ≤ w.1 }).nodeSet p.die k 16 (taken + n)
    exec (if flush then .graphFlushTimeout p else .graphNodeLaunch p) s =
      .next (s₁.launch p.task p k.placed (BitVec.ofNat 32 (k.recAddr taken)) (BitVec.ofNat 32 n)).tidyQueues ∧
    (∀ pa, s.noStash → s.memOk = true → Mapped s (Bytes pa 64) p.die k.ctx k.qbase 64 pa → HbmTakes s s₁ (pa + 16) 8 (taken + n)))) ∧
  (∀ (s : State) (p : Placement) (k : Task) (flush : Bool), mget? s.tasks p.task = some k → k.graph = true → k.ready.isSome = true →
    s.nodeLost p.die k = none →
    exec (if flush then .graphFlushTimeout p else .graphNodeLaunch p) s = exec (.dieSchedulerPlace p) s) ∧
  (∀ (s : State) (p : Placement) (k : Task), mget? s.tasks p.task = some k → s.mgmt.busy = false → (s.die p.die).failed = false →
    k.graph = false → k.hasPlaced p.index = false → p.index < k.teams →
    let s₁ := s.modTask p.task fun k => k.take p.index
    (p.die < Config.dies → s.turnOf p.die p.task = true → p.victims = [] → p.restore = none → s.wantsNew p.die k = true →
      s.legalNew k p = true →
      ∃ t : State, exec (.dieSchedulerPlace p) s = .next t ∧
        t = ((s₁.launch p.task p p.index 0 0).skip p.die (s.aheadOn p.die p.task)).served p.die p.task ∧
        p.task ∉ (t.die p.die).blocking) ∧
    (∀ die since, mget? (s.die die).skipped p.task = some since → since + 1000000 ≤ s.mgmt.time → s.wantsOn die p.task = true →
      p.task ∉ (s.die die).blocking →
      ∃ t : State, exec (.taskBlocking die p.task) s = .next t ∧ SameMemory s t ∧ t.teams = s.teams ∧ t.tasks = s.tasks ∧
        (t.die die).blocking = p.task :: (s.die die).blocking ∧ ∀ d, d ≠ die → t.die d = s.die d) ∧
    (∀ ctx f, s.starved p.die ctx = true → s.forcedFit ctx p = some f → p.victims = [] → p.restore = none → s.wantsNew p.die k = true →
      s.legalNew k p = true →
      ∃ t : State, exec (.starvationForcedPlacement ctx p) s = .next t ∧
        t = ((s₁.launch p.task p p.index 0 0).served p.die p.task).modDie p.die (fun d =>
          { d with protect := mput d.protect (ctx * Config.cores + p.core) (s.mgmt.time + 1000000) }) ∧
        mget? (t.die p.die).protect (ctx * Config.cores + p.core) = some (s.mgmt.time + 1000000)))

/-- A launch (R38, R42, R44, R80, R84 to R86): the new team stands on its core with all of its groups, each with every lane of
its one split at its role's entry, and with no bit of a register set; and of the local array it reads nothing that another
context left there.

TEAM_COMPLETION_EVENT (R79, R80, R326): a team with every group ended and nothing under way leaves its core and the table;
with no completion target, the task counts it. A team with anything under way stays.
The model's own choices that it touches: log 40 (the PC of an entry: its offset's low three bits are dropped), 69, 70. -/
def Obligations.TeamsStartCleanAndLeave : Prop :=
  (∀ (s : State) (p : Placement) (k : Task) (index : Nat) (rb rc : Word), mget? s.tasks p.task = some k →
    let core := coreKey p.die p.core
    let s₂ := ((s.scrub core k.ctx p.base (arrBytes k.local_)).loadDict p.die core k.ctx k).l1Clear core
    (mget? s₂.tasks p.task).isSome = true → s.memOk = true → (∃ pa, Mapped s (Bytes pa 128) p.die k.ctx k.addr 128 pa) →
    ∃ tm, mget? (s.launch p.task p index rb rc).teams s₂.nextId = some tm ∧ tm.ctx = k.ctx ∧ tm.task = p.task ∧ tm.index = index ∧
      tm.die = p.die ∧ tm.core = p.core ∧ tm.base = p.base ∧ tm.bytes = k.local_ ∧ tm.bars = List.replicate k.nbars {} ∧
      tm.cmds = [] ∧ tm.mops = [] ∧ tm.wins = [] ∧ tm.groups = k.newGroups p.slots rb rc ∧
      (∀ g ∈ tm.groups, g.2.v = [] ∧ g.2.s = [] ∧ g.2.p = [] ∧ g.2.resv = [] ∧ ∃ sp, g.2.splits = [(0, sp)] ∧
        sp.mask = widthMask g.2.width ∧ sp.pc = BitVec.ofNat 64 (k.kimg + ((k.entries[g.2.role]?).getD 0).toNat / 8 * 8)) ∧
      (∀ a, p.base ≤ a → a < p.base + arrBytes k.local_ → mget? (s.core core).holder (a / 4096) ≠ some k.ctx →
        rdByte ((s.scrub core k.ctx p.base (arrBytes k.local_)).core core).arr a = 0) ∧
      (∀ a, (a < p.base ∨ p.base + arrBytes k.local_ ≤ a) →
        rdByte ((s.scrub core k.ctx p.base (arrBytes k.local_)).core core).arr a = rdByte (s.core core).arr a)) ∧
  (∀ (s : State) (team : Nat) (tm : Team) (k : Task), mget? s.teams team = some tm → mget? s.tasks tm.task = some k →
    (s.teamOver team = false → exec (.teamCompletionEvent team) s = .next s) ∧
    (s.teamOver team = true → tm.wins = [] → s.wbuf = [] → mwf s.teams = true → k.graph = false → (∀ a ∈ k.ttgt, a = 0) → k.done + 1 ≠ k.teams →
      ∃ t : State, exec (.teamCompletionEvent team) s = .next t ∧ SameMemory s t ∧ mget? t.teams team = none ∧
        (∀ j, j ≠ team → mget? t.teams j = mget? s.teams j) ∧ mget? t.tasks tm.task = some { k with done := k.done + 1 } ∧
        (∀ q ∈ (t.core tm.coreKey).places, team ∉ q.2.teams) ∧ (t.core tm.coreKey).windlass ≠ some team))

/-! ### Strands -/

/-- The strand commands (R250 to R269, R441 to R443): each, with the strand area, the handle and the operands in order, makes its
effect on the structures in memory, writes its result, and is counted on ENC; SLEN and SSEEK empty the core's L1 as an acquire
does. Where a check fails, it raises its trap and has no effect. SLEN gives CL (R264).
The model's own choices that it touches: log 42, 77. -/
def Obligations.StrandInstructionsComplete : Prop :=
  ∀ (s : State) (c : Cur) (f : FmtE), s.cur? = some c → c.acts f.com = true →
    let rd (r : BitVec 8) : Nat := (c.rdS r.toNat).toNat
    let pr (r : BitVec 8) : Nat := (c.rdPair r.toNat).toNat
    let e := c.senv
    let d := f.s0.toNat
    (∀ r, s.snew e (rd f.s1) (pr f.s2) (pr f.s3) = .ok r →
      Effected (.snew f) s c .enc r.1 false (fun g => g.wrS d (BitVec.ofNat 32 r.2))) ∧
    (∀ x, s.snew e (rd f.s1) (pr f.s2) (pr f.s3) = .error x → exec (.snew f) s = .next (s.sTrap c x)) ∧
    (∀ r, s.sres e (rd f.s1) (rd f.s2) = .ok r →
      Effected (.sres f) s c .enc r.1 false (fun g => g.wrS d (BitVec.ofNat 32 r.2))) ∧
    (∀ x, s.sres e (rd f.s1) (rd f.s2) = .error x → exec (.sres f) s = .next (s.sTrap c x)) ∧
    (∀ t, s.scommit e (rd f.s0) (rd f.s1) (rd f.s2) = .ok t → Effected (.scommit f) s c .enc t false id) ∧
    (∀ x, s.scommit e (rd f.s0) (rd f.s1) (rd f.s2) = .error x → exec (.scommit f) s = .next (s.sTrap c x)) ∧
    (∀ r, s.sfork e (rd f.s1) (rd f.s2) (pr f.s3) = .ok r →
      Effected (.sfork f) s c .enc r.1 false (fun g => g.wrS d (BitVec.ofNat 32 r.2))) ∧
    (∀ x, s.sfork e (rd f.s1) (rd f.s2) (pr f.s3) = .error x → exec (.sfork f) s = .next (s.sTrap c x)) ∧
    (∀ a h, s.area e = .ok a → s.openStrand e a (rd f.s1) = .ok h →
      Effected (.slen f) s c .enc s true (fun g => g.wrS d (BitVec.ofNat 32 h.cl))) ∧
    (∀ a t, s.area e = .ok a → s.srel e a 16 (rd f.s0) = .ok t → Effected (.srel f) s c .enc t false id) ∧
    (∀ a x, s.area e = .ok a → s.openStrand e a (rd f.s1) = .error x → exec (.slen f) s = .next (s.sTrap c x)) ∧
    (∀ a x, s.area e = .ok a → s.srel e a 16 (rd f.s0) = .error x → exec (.srel f) s = .next (s.sTrap c x)) ∧
    (∀ r, s.sseek e (rd f.s1) (rd f.s2) (rd f.s3) = .ok r →
      Effected (.sseek f) s c .enc s true (fun g => (g.wrPair d r.1).wrS f.s3.toNat r.2)) ∧
    (∀ x, s.sseek e (rd f.s1) (rd f.s2) (rd f.s3) = .error x → exec (.sseek f) s = .next (s.sTrap c x))

/-- The free stacks, the prefix index, the block hash and the placement tables (R255, R256, R271, R272, R277, R382, R384, R417,
R420): each gives its answer in its destination and is counted on ENC. FLPOP of an empty stack gives all ones; HASHB chains
the sixteen tokens of its block from its pair; a table entry beyond the table reads as all ones.
The model's own choices that it touches: log 77, 85. -/
def Obligations.IndexInstructionsComplete : Prop :=
  ∀ (s : State) (c : Cur) (f : FmtE), s.cur? = some c → c.acts f.com = true →
    let rd (r : BitVec 8) : Nat := (c.rdS r.toNat).toNat
    let pr (r : BitVec 8) : Nat := (c.rdPair r.toNat).toNat
    let e := c.senv
    let d := f.s0.toNat
    (∀ t p, s.pop e c.team.die = .ok (t, some p) →
      Effected (.flpop f) s c .enc t true (fun g => g.wrS d (BitVec.ofNat 32 p))) ∧
    (∀ t, s.pop e c.team.die = .ok (t, none) → Effected (.flpop f) s c .enc t true (fun g => g.wrS d 0xFFFFFFFF)) ∧
    (∀ t, s.push e (rd f.s0) = .ok t → Effected (.flpush f) s c .enc t false id) ∧
    (∀ x, s.push e (rd f.s0) = .error x → exec (.flpush f) s = .next (s.sTrap c x)) ∧
    (∀ r, s.pfxfind e (pr f.s1) (rd f.s2) (f.flg.getLsbD 0) = .ok r →
      Effected (.pfxfind f) s c .enc r.1 true (fun g => g.wrS d (BitVec.ofNat 32 r.2))) ∧
    (∀ r, s.pfxins e (pr f.s1) (rd f.s2) (rd f.s3) (f.flg.getLsbD 0) = .ok r →
      Effected (.pfxins f) s c .enc r.1 true (fun g => (g.wrS d (BitVec.ofNat 32 r.2.1)).wrS (d + 1) (BitVec.ofNat 32 r.2.2))) ∧
    (∀ x, s.pfxins e (pr f.s1) (rd f.s2) (rd f.s3) (f.flg.getLsbD 0) = .error x → exec (.pfxins f) s = .next (s.sTrap c x)) ∧
    (f.flg.getLsbD 0 = true → rd f.s1 % 4 = 0 → rd f.s1 + 64 ≤ c.team.bytes → c.team.wins = [] →
      Effected (.hashb f) s c .enc s false (fun g => g.wrPair d
        (hashBlock (c.rdPair f.s2.toNat) ((List.range 16).map fun j => BitVec.ofNat 32 (le (s.arrRead c.team (rd f.s1) 64) (4 * j) 4))))) ∧
    (∀ pa, f.flg.getLsbD 0 = false → pr f.s1 % 4 = 0 →
      s.engRanges c [⟨false, pr f.s1, 64, { rd := true }⟩] = .ok [[(.hbm pa, 64)]] → s.noStash →
      ∃ s₁, SameMemory s s₁ ∧ s₁.teams = s.teams ∧ Effected (.hashb f) s c .enc s₁ false (fun g => g.wrPair d
        (hashBlock (c.rdPair f.s2.toNat) ((List.range 16).map fun j => BitVec.ofNat 32 (s.hbmNat (pa + 4 * j) 4))))) ∧
    (∀ x, s.plcBlock e (rd f.s1) (rd f.s2) = .ok x → Effected (.plcq f) s c .enc s true (fun g => g.wrPair d x)) ∧
    (∀ x, s.plcBlock e (rd f.s1) (rd f.s2) = .error x → exec (.plcq f) s = .next (s.sTrap c x)) ∧
    (∀ t, s.placement e (rd f.s1) = .ok t → Effected (.plcqShort f) s c .enc s true (fun g => g.wrPair d
      (BitVec.ofNat 64 (le t.2 (0x10 + 8 * shortest t.2) 8 + shortest t.2 * 2 ^ 32))))

/-- KST, BGATH and the projection sets (R262, R273 to R276, R347, R387, R424, R425). KST stores its key where its strand's token
stands; BGATH of at most LIM entries, no more than the share that FRAC allows, writes them to the array in descending order of
token and gives their number; PROJLD loads its rows, and PROJLD.free empties the set, once nothing issued before uses it.

PROJLD_TAKE_EFFECT (R425): once nothing issued before uses the set, a load puts the rows that stand in memory into the set
of its die, for its context and owner, and a free removes it; the other sets are as before, and the command is complete but
for its posting. The model's own choices that it touches: log 77, 85. -/
def Obligations.SignatureInstructionsComplete : Prop :=
  (∀ (s : State) (c : Cur) (f : FmtE), s.cur? = some c → c.acts f.com = true →
    let rd (r : BitVec 8) : Nat := (c.rdS r.toNat).toNat
    let e := c.senv
    (∀ a h ps t c₁, let sg := f.flg.getLsbD 0
      let src := c.addrOf (!sg) f.s2
      s.area e = .ok a → s.openStrand e a (rd f.s0) = .ok h → src % 16 = 0 →
      s.engRanges c [⟨!sg, src, h.slotBytes, { rd := true }⟩] = .ok ps →
      let r := ps.flatten.foldl (fun (z : State × List Byte) p =>
        let q := z.1.engRead c.ref.team p.1 p.2
        (q.1, z.2 ++ q.2)) (s, [])
      r.1.kst e a h (rd f.s1) (c.rdS f.s3.toNat) r.2 = .ok t → t.lookup? c.ref = some c₁ →
      ∃ (u : State) (d : Cur) (q : Cmd), exec (.kst f) s = .next u ∧ Posted t u c₁ d .enc q ∧ q.kind = .signed h.pset ∧
        OnlyCounts c₁ d ∧ SameRegisters c₁.group d.group) ∧
    (∀ a h es, let q := rd f.s2
      let out := rd f.s3
      let densef := (s.ctx c.team.ctx).densef.toNat
      let lim := densef / 256 % 65536
      s.area e = .ok a → s.openStrand e a (rd f.s1) = .ok h → q % 16 = 0 → out % 16 = 0 → q + 2 * h.dim ≤ c.team.bytes →
      out + 16 * lim ≤ c.team.bytes → c.team.wins = [] → s.bgath e a h (f.flg.getLsbD 0) (s.arrRead c.team q (2 * h.dim)) = .ok es →
      es.length ≤ lim → 64 * es.length ≤ densef % 128 * h.cl → s.memOk = true →
      es.Pairwise (fun x y => y.1 ≤ x.1) ∧
      ∃ (s₁ : State) (c₁ : Cur) (t : State) (d : Cur) (k : Cmd), exec (.bgath f) s = .next t ∧ s₁.lookup? c.ref = some c₁ ∧
        SameRegisters c.group c₁.group ∧ Posted s₁ t c₁ d .enc k ∧ k.kind = .signed h.pset ∧
        ScalarIs c₁ d f.s0.toNat (BitVec.ofNat 32 es.length) ∧ d.group.p = c₁.group.p ∧
        t.arrRead c.team out (16 * es.length) = (es.map entryBytes).flatten ∧
        (∀ x, x < c.team.base + out ∨ c.team.base + out + 16 * es.length ≤ x →
          rdByte (t.core c.team.coreKey).arr x = rdByte (s.core c.team.coreKey).arr x) ∧ t.hbm = s.hbm) ∧
    (∀ b hd ps, let set := rd f.s0
      let addr := (c.rdPair f.s1.toNat).toNat
      let shape := rd f.s2
      set ≤ 63 → (∀ p, mget? (s.die c.team.die).projs set = some p → p.owner = (s.ctx c.team.ctx).owner) →
      (addr % 16 = 0 → shape < 512 → b = shape % 256 → 4 ≤ b → b ≤ 12 → hd = shape.testBit 8 →
        s.engRanges c [⟨false, addr, 2 * (if hd then 128 else 64) * b, { rd := true }⟩] = .ok ps →
        ∃ (u : State) (d : Cur) (k : Cmd), exec (.projld f) s = .next (u.tryProj c.ref.team s.nextId) ∧ Posted s u c d .enc k ∧
          k.kind = .projld set (some (b, hd)) ps.flatten ∧ OnlyCounts c d ∧ SameRegisters c.group d.group) ∧
      (∃ (u : State) (d : Cur) (k : Cmd), exec (.projldFree f) s = .next (u.tryProj c.ref.team s.nextId) ∧ Posted s u c d .enc k ∧
          k.kind = .projld set none [] ∧ OnlyCounts c d ∧ SameRegisters c.group d.group))) ∧
  (∀ (s : State) (team cmd set : Nat) (tm : Team) (k : Cmd), mget? s.teams team = some tm → mget? tm.cmds cmd = some k →
    tm.status ≠ .saved → tm.clear cmd k.foot = true → s.setBusy tm.die set cmd = false →
    (∀ p, mget? (s.die tm.die).projs set = some p → p.owner = (s.ctx tm.ctx).owner) →
    (∀ b hd pa, let n := 2 * (if hd then 128 else 64) * b
      k.kind = .projld set (some (b, hd)) [(.hbm pa, n)] → s.noStash →
      ∃ (t : State) (p : ProjSet) (tm' : Team) (k' : Cmd), exec (.projldTakeEffect team cmd) s = .next t ∧ SameMemory s t ∧
        mget? (t.die tm.die).projs set = some p ∧ p.ctx = tm.ctx ∧ p.owner = (s.ctx tm.ctx).owner ∧ p.bits = b ∧ p.hdim = hd ∧
        p.rows = (List.range b).map (fun q => (List.range (if hd then 128 else 64)).map fun i =>
          s.hbmNat (pa + 2 * ((if hd then 128 else 64) * q + i)) 2) ∧
        (∀ j, j ≠ set → mget? (t.die tm.die).projs j = mget? (s.die tm.die).projs j) ∧ (∀ j, j ≠ tm.die → t.die j = s.die j) ∧
        mget? t.teams team = some tm' ∧ mget? tm'.cmds cmd = some k' ∧ k'.kind = .effected) ∧
    (k.kind = .projld set none [] → mwf (s.die tm.die).projs = true →
      ∃ (t : State), exec (.projldTakeEffect team cmd) s = .next t ∧ SameMemory s t ∧ mget? (t.die tm.die).projs set = none ∧
        ∀ j, j ≠ set → mget? (t.die tm.die).projs j = mget? (s.die tm.die).projs j))

/-- SCOMMIT (R263): a legal commit of stored tokens marks them, and CL passes over the marked tokens that begin at it, both
windows moving along; a token not stored, or not in the range from CL to RL, or marked already, raises COMMITTED.

A free stack gives back the frame pushed last, and stands then as before the push (R255, R256). -/
def Obligations.StrandStructuresBehave : Prop :=
  (∀ (s : State) (e : SEnv) (a : Area) (h : Hdr) (handle i n pa : Nat), s.area e = .ok a → s.openStrand e a handle = .ok h →
    1 ≤ n → n ≤ 256 →
    let m := rangeBits (i - h.cl) n
    let w := h.cwin ||| m
    let k := onesFrom w 256
    ((i < h.cl ∨ h.rl < i + n) → s.scommit e handle i n = .error (.committed 4)) ∧
    (h.cl ≤ i → i + n ≤ h.rl → h.kwin &&& m ≠ m → s.scommit e handle i n = .error (.committed 3)) ∧
    (h.cl ≤ i → i + n ≤ h.rl → h.kwin &&& m = m → h.cwin &&& m ≠ 0 → s.scommit e handle i n = .error (.committed 4)) ∧
    (h.cl ≤ i → i + n ≤ h.rl → h.kwin &&& m = m → h.cwin &&& m = 0 → h.cl + 256 < 2 ^ 32 → s.noStash → s.memOk = true →
      Mapped s (Bytes pa 128) e.die e.ctx (a.base + 256 * h.idx) 128 pa → i + n ≤ h.cl + 256 →
      ∃ t, s.scommit e handle i n = .ok t ∧
        t.hdrAt e a h.idx = .ok { h with cl := h.cl + k, cwin := w / 2 ^ k, kwin := h.kwin / 2 ^ k } ∧
        (∀ j, j < k → w.testBit j = true) ∧ (k < 256 → w.testBit k = false) ∧
        ∀ x, ¬ Bytes pa 124 x → rdByte t.hbm x = rdByte s.hbm x)) ∧
  (∀ (s : State) (e : SEnv) (pfn pa : Nat) (k : Stack), s.noStash → s.memOk = true → pfn < 0xFFFFFF →
    (s.diesOf (ctxDevice e.ctx)).contains (pfn / 2 ^ 20) = true → s.stack e (pfn / 2 ^ 20) = .ok k → k.top < k.cap →
    (let D a := Bytes k.at_ 16 a ∨ Bytes pa 4 a
     Mapped s D e.die e.ctx (k.arr + 4 * k.top) 4 pa) → (∀ a, ¬ (Bytes k.at_ 16 a ∧ Bytes pa 4 a)) →
    ∃ t u, s.push e pfn = .ok t ∧ t.stack e (pfn / 2 ^ 20) = .ok { k with top := k.top + 1 } ∧
      t.pop e (pfn / 2 ^ 20) = .ok (u, some pfn) ∧ u.stack e (pfn / 2 ^ 20) = .ok k)

/-! ### The rings -/

/-- The ring instructions (R278 to R285, R429, R436 to R438). With a legal descriptor, its die among the members and every range
translated, RAG, RRS and RHND enter their team's commands with every tile of their own still to be done, counted on ENC, and the
team's count on the descriptor rises; a die that is no member raises ILLOP with reason 10. RWAIT ends its clause and waits for
its counter; RRANK leaves its pair to its completion, which writes the rank and the ring's size as they then stand.
The model's own choices that it touches: log 90. -/
def Obligations.RingInstructionsComplete : Prop :=
  ∀ (s : State) (c : Cur) (f : FmtE), s.cur? = some c → c.acts f.com = true → s.noStash →
    let a := (c.rdPair f.s0.toNat).toNat
    (∀ i op, (i, op) ∈ [(Instr.rag f, RingOp.rag), (.rrs f, .rrs), (.rhnd f, .rhnd)] →
      ∀ dp s₁ b, a % 128 = 0 → s.engRanges c [⟨false, a, 128, { rd := true }⟩] = .ok dp → s.issueRead c a 128 = .ok (s₁, b) →
      let d := ringDescOf b
      let ms := s.ringMembers (ctxDevice c.team.ctx) d
      let target := if op = .rhnd then (c.rdS f.s1.toNat).toNat else 0
      (rankIn ms c.team.die = none → exec i s = .next (s₁.illop c 10)) ∧
      (∀ rank, rankIn ms c.team.die = some rank → (ringDescOk b op = false ∨ ms.length ≤ target) → exec i s = .next (s₁.illop c 10)) ∧
      (∀ rank k ps, rankIn ms c.team.die = some rank → ringDescOk b op = true → target < ms.length →
        k = ({ op := op, d := d, desc := a, count := mget 0 c.team.issues a, die := c.team.die, members := ms, rank := rank,
               target := target, rnd := c.split.fmtRnd, sat := c.split.fmtSat, pages := [], left := [] } : RingCmd) →
        s₁.engRanges c ({ k with left := k.tiles } : RingCmd).ranges = .ok ps →
        ∃ (u : State) (e : Cur) (q : Cmd) (k' : RingCmd), exec i s = .next (u.modTeam c.ref.team fun t => t.startCopy s.nextId) ∧
          Posted s₁ u c e .enc q ∧ q.kind = .ring k' ∧ k' = { k with left := k.tiles, pages := k'.pages } ∧ q.begun = false ∧
          mget 0 e.team.issues a = mget 0 c.team.issues a + 1 ∧ OnlyCounts c e ∧ SameRegisters c.group e.group)) ∧
    (∀ p, a % 4 = 0 → c.team.winOf a = none → s.engRanges c [⟨false, a, 4, { rd := true }⟩] = .ok [[(p, 4)]] →
      ∃ (t : State) (e : Cur) (q : Cmd), exec (.rwait f) s = .next t ∧ Posted s t c e .enc q ∧
        q.kind = .rwait p (c.rdS f.s1.toNat) (f.flg.toNat % 8) (c.pass f.com) false ∧ Waits c e (.rwait s.nextId)) ∧
    (a % 4 ≠ 0 → exec (.rwait f) s = .next (s.alignAt c)) ∧
    (∃ (t : State) (e : Cur) (q : Cmd), exec (.rrank f) s = .next t ∧ Posted s t c e .enc q ∧ q.kind = .rrank f.s0.toNat ∧
      e.split = { c.split with ctrs := e.split.ctrs, pend := e.split.pend } ∧ SameRegisters c.group e.group) ∧
    (∀ (team cmd reg : Nat) (tm : Team) (k : Cmd) (g : Group), mget? s.teams team = some tm → mget? tm.cmds cmd = some k →
      k.kind = .rrank reg → mget? tm.groups k.group = some g →
      let ring := s.ringOf (ctxDevice tm.ctx)
      ∃ (u : State) (g' : Group), exec (.engineCommandComplete team cmd) s = .next (u.cmdDone team cmd) ∧ GroupBecomes s u team k.group g' ∧
        g'.sreg (reg + 1) = BitVec.ofNat 32 ring.length ∧ g'.sreg reg = BitVec.ofNat 32 ((rankIn ring tm.die).getD 0) ∧
        (∀ n, n ≠ reg → n ≠ reg + 1 → g'.sreg n = g.sreg n) ∧ g'.v = g.v ∧ g'.p = g.p)

/-- The events of ring commands (R282 to R285, R288, R438). A begun command's engine reads a tile of its local source as it then
stands; a tile arrives with its rows, but for those that have landed before, written where it lands and its counter one
higher; a waiting RWAIT goes on with its
predicate true once its counter reads at least its target, with the L1 emptied; a wrap takes effect with the new break, and no
tile of an affected device is left in a ring engine. The model's own choices that it touches: log 89, 90. -/
def Obligations.RingEventsComplete : Prop :=
  (∀ (s : State) (cmd tile tid : Nat) (t : Team) (q : Cmd) (k : RingCmd), s.ringOfCmd cmd = some (tid, t, q, k) → q.begun = true →
    k.left.contains tile = true → mget? s.teams tid = some t → mget? t.cmds cmd = some q →
    (k.op ≠ .rrs → mget? k.held tile = none → k.d.sloc = true → t.status ≠ .saved →
      ∃ (u : State) (t' : Team) (q' : Cmd) (k' : RingCmd), exec (.ringTileAccept cmd tile) s = .next u ∧ SameMemory s u ∧
        mget? u.teams tid = some t' ∧ mget? t'.cmds cmd = some q' ∧ q'.kind = .ring k' ∧ k'.left = k.left ∧
        mget? k'.held tile = some ((k.srcRows (k.chunkOf tile) (tile % k.d.nt)).flatMap fun a => s.arrRead t a k.d.rbytes)) ∧
    (∀ s₁ rows, s.tileAsks tid cmd t k tile = none → s.landing tid t k tile = some (s₁, rows) → k.d.dloc = false →
      exec (.ringTileArrive cmd tile) s =
        .next (((s₁.landRows tid t k none (k.rowsLeft tile rows)).bumpCounter tid t.ctx k.pages (k.counter tile)).ringTileDone tid cmd tile)) ∧
    (s.tileAsks tid cmd t k tile = none → s.landing tid t k tile = none → exec (.ringTileArrive cmd tile) s = .next s)) ∧
  (∀ (s : State) (tid x a pa : Nat) (pages : SMap DWord), s.noStash → s.memOk = true →
    s.heldPieces x pages a 4 = [(.hbm pa, 4)] → HbmTakes s (s.bumpCounter tid x pages a) pa 4 (s.hbmNat pa 4 + 1)) ∧
  (∀ (s : State) (tid x a pa : Nat) (pages : SMap DWord) (bs : List Byte) (t : Team) (k : RingCmd), s.noStash → s.memOk = true →
    k.pages = pages → t.ctx = x → s.heldPieces x pages a bs.length = [(.hbm pa, bs.length)] →
    let u := s.landRows tid t k none [(a, bs)]
    rdBytes u.hbm pa bs.length = bs ∧ ∀ y, ¬ Bytes pa bs.length y → rdByte u.hbm y = rdByte s.hbm y) ∧
  (∀ (s : State) (r : Ref) (c : Cur) (id pa pd : Nat) (target : Word) (ls : Lanes) (q : Cmd), s.lookup? r = some c →
    c.split.park = .rwait id → mget? c.team.cmds id = some q → q.kind = .rwait (.hbm pa) target pd ls false →
    c.team.status = .resident → c.group.halted = false → c.team.clear id q.foot = true → s.noStash →
    (target.toNat ≤ s.hbmNat pa 4 →
      ∃ (u : State) (e : Cur), exec (.rwaitSatisfied r) s = .next (u.cmdDone r.team id) ∧ SameMemory s u ∧
        (u.core c.team.coreKey).l1 = [] ∧ u.lookup? r = some e ∧ e.split = { c.split with park := .none, parked := 0 } ∧
        e.group.s = c.group.s ∧ e.group.v = c.group.v ∧
        ∀ n l, l < 64 → e.group.preg n l = if n = pd ∧ pd < 7 ∧ ls.getLsbD l = true then true else c.group.preg n l) ∧
    (s.hbmNat pa 4 < target.toNat → (∀ a ∈ s.fab.asks, a.who ≠ .cmd id) → exec (.rwaitSatisfied r) s = .next s)) ∧
  (∀ (s : State) (b : Break), s.mgmt.due = some b → ∃ t : State, exec .wrapEffect s = .next t ∧ t.mgmt.brk = some b ∧
    t.mgmt.due = none ∧ t.mgmt.hit = [] ∧ t.mgmt.falling = [] ∧ ∀ h ∈ t.tiles, ctxDevice h.ctx ∉ s.mgmt.hit)

/-- The order in which the ranks reduce a chunk (R170): every member once, in either direction, and its owner last. -/
def Obligations.ReductionOrderVisitsEveryMember : Prop :=
  ∀ (n owner : Nat) (cw : Bool), owner < n →
    (ringPath n owner cw).Perm (List.range n) ∧ (ringPath n owner cw).getLast? = some owner ∧
    (ringPath n owner cw).length = n

/-! ### Clauses, splits and the host driver -/

/-- The events of clauses and splits (R50, R55, R56, R57, R58, R66, R94, R98, R106, R109, R130, R326). A split that may begin
parks at its reconvergence PC, waits for its thresholds, traps on a clause that fails a check, or holds the clause's words (owned
lines among them are recalled first, R191), and a region entry writes its entry record. Two splits at one region entry become the one of the lower index with all their lanes, as
do all splits of a group parked at one MERGE, which go on after it. A park ends when every other split is parked, or after
FAIRTIME cycles; a split that has issued for FAIRTIME cycles while a sibling was refused a port yields to it once it is ready; a group ends with its last split.

The words of a clause that begins, when its header says that they are not dictionary codes (R101), are the doublewords
that follow the header, fetched with execute permission, and the clause ends at the address after the last of them.
The model's own choices that it touches: log 65, 66, 68, 106. -/
def Obligations.ClauseAndSplitEventsComplete : Prop :=
  ((∀ (s : State) (r : Ref) (c : Cur) (h : DWord), s.lookup? r = some c → c.team.status = .resident → c.split.opn = false →
    c.owes = false → c.group.halted = false → c.split.park = .none → c.split.ovf = [] → c.split.mask ≠ 0 → s.mergePartner c = none →
    s.atBreak c = false → s.header c = .ok h →
    (c.parksHere (headerRe h) = true → ∃ t d, exec (.clauseBegin r) s = .next t ∧ ActsAlone s t c d ∧ TeamAsBefore c d ∧
      d.split = { c.split with park := .reconv, parked := 0, step := false } ∧ d.group = { c.group with splits := d.group.splits }) ∧
    (c.parksHere (headerRe h) = false → waitsMet h c.split.ctrs = false → exec (.clauseBegin r) s = .next s) ∧
    (c.parksHere (headerRe h) = false → waitsMet h c.split.ctrs = true → s.mustYield c = false → s.portFree c = true →
      (∀ e, s.checkClause c h = .error e → exec (.clauseBegin r) s = .next ((s.put c).clauseTrap c e)) ∧
      ∀ ws next, s.checkClause c h = .ok (ws, next) → ∃ u d, ActsAlone s u c d ∧ TeamAsBefore c d ∧
        (let t := u.fetchRecall c.team.die c.team.ctx c.split.pc.toNat (clauseBytes h)
         exec (.clauseBegin r) s = .next t ∧ (s.noneOwned = true → t = u)) ∧
        d.split.opn = true ∧ d.split.code = ws ∧ d.split.idx = 0 ∧ d.split.next = next ∧ d.split.pc = c.split.pc ∧
        d.split.mask = c.split.mask ∧ d.split.ctrs = c.split.ctrs ∧ d.split.loops = c.split.loops ∧ d.split.pend = c.split.pend ∧
        (headerRe h = true → d.split.entry = some (c.split.here (hdrRidx h))) ∧ SameRegisters c.group d.group)) ∧
  (∀ (s : State) (r : Ref) (c : Cur) (j : Nat) (q : Split), s.lookup? r = some c → c.team.status = .resident → j ≠ r.split →
    mget? c.group.splits j = some q → s.mergesWith c (c.sibling j q) = true → mwf c.group.splits = true →
    ∃ (t : State) (g : Group) (p : Split), exec (.splitMerge r j) s = .next t ∧ SameMachine s t ∧ GroupBecomes s t r.team r.group g ∧
      mget? g.splits (min r.split j) = some p ∧ p.mask = c.bound.split.mask ||| (c.sibling j q).bound.split.mask ∧ p.pc = c.bound.split.pc ∧
      p.loops = c.bound.split.loops ∧ p.park = .none ∧ mget? g.splits (max r.split j) = none ∧
      (∀ k, k ≠ r.split → k ≠ j → mget? g.splits k = mget? c.group.splits k) ∧ SameRegisters c.group g) ∧
  (∀ (s : State) (team group i : Nat) (tm : Team) (g : Group) (p : Split) (rest : SMap Split), mget? s.teams team = some tm →
    tm.status = .resident → mget? tm.groups group = some g → g.halted = false → g.splits = (i, p) :: rest → g.allAtMerge = true →
    g.sameMerge = true →
    ∃ t d, exec (.mergeComplete team group) s = .next t ∧ t.lookup? ⟨team, group, i⟩ = some d ∧ SameMachine s t ∧
      d.group.splits = [(i, d.split)] ∧ d.split.mask = g.splits.foldl (fun m q => m ||| q.2.mask) 0 ∧ d.split.park = .none ∧
      d.split.opn = false ∧ (d.split.loops, d.split.pc) = Cur.after ⟨⟨team, group, i⟩, tm, g, p⟩ ∧ SameRegisters g d.group ∧
      ∀ k, k ≠ team → mget? t.teams k = mget? s.teams k) ∧
  (∀ (s : State) (r : Ref) (c : Cur), s.lookup? r = some c →
    (c.team.status = .resident → c.split.park = .reconv → c.group.halted = false → s.mergePartner c = none →
      (s.othersParked c = true ∨ (s.die c.team.die).fairtime.toNat ≤ c.split.parked) →
      ∃ t d, exec (.parkTimeout r) s = .next t ∧ ActsAlone s t c d ∧ TeamAsBefore c d ∧
        d.split = { c.split with park := .none, parked := 0, left := true } ∧ d.group = { c.group with splits := d.group.splits }) ∧
    (∀ j q, mget? c.group.splits j = some q → j ≠ r.split →
      s.ready (s.mates (c.sibling j q).bound) (c.sibling j q).bound = true → (s.die c.team.die).fairtime.toNat ≤ c.split.cont →
      ∃ t d, exec (.fairnessYield r) s = .next t ∧ ActsAlone s t c d ∧ TeamAsBefore c d ∧
        d.split = (if c.split.opn then { c.split with yld := true, cont := 0 } else { c.split with age := 0, hold := 64, cont := 0 }) ∧
        d.group = { c.group with splits := d.group.splits }) ∧
    (c.split.park = .exit → c.split.drained = false → exec (.splitExitComplete r) s = .next s) ∧
    (c.split.park = .exit → c.split.drained = true → c.group.splits = [(r.split, c.split)] →
      ∃ (u : State) (tm : Team) (g : Group), exec (.splitExitComplete r) s = .next (u.settle r.team) ∧ SameMachine s u ∧
        mget? u.teams r.team = some tm ∧ mget? tm.groups r.group = some g ∧ g.splits = [] ∧ g.ended = true ∧
        g.v = c.group.v ∧ g.s = c.group.s ∧ g.p = c.group.p))) ∧
  (∀ (s : State) (c : Cur) (h : DWord) (ws : List DWord) (next : DWord), s.checkClause c h = .ok (ws, next) → hdrDx h = false →
    ws.length = hdrN h + 1 ∧ next = c.split.pc + BitVec.ofNat 64 (8 + 8 * (hdrN h + 1)) ∧
    ∀ (j : Nat) (w : DWord), ws[j]? = some w → s.fetchCode c (c.split.pc + BitVec.ofNat 64 (8 + 8 * j)) = .ok w)

/-- What the host driver does (R183, R197, R314, R315, R325, R327, R329). BAR2 reads and writes memory where the management table
maps it and has no effect elsewhere; a context's resumption lets the splits that wait after a fault go on; a context switch saves
every team of the context on the die, once each can be; a context that ends has ended with code 0 and its teams are ending; a debug
mode and at most four breakpoints are set; a team stop halts every group of the team; a halted group's split takes one clause; a
resumed group goes on, past the breakpoint that a split of it has hit, and its splits leave the barriers whose phase has gone by. A
write of BAR2 to a page of a peer goes out to it, one access for each 4,096 bytes.
The model's own choices that it touches: log 63, 93, 94, 109. -/
def Obligations.DriverEventsComplete : Prop :=
  ∀ (s : State),
    (∀ a : Bar2, s.noStash → s.memOk = true →
      (s.inBar2 a = false ∨ s.mgmtLeaf a.dev a.addr.toNat a.bytes.length a.write = none → exec (.hostBar2Access a) s = .next s) ∧
      (s.mgmtPlace a.dev a.addr.toNat a.bytes.length a.write = none →
        ∃ t : State, exec (.hostBar2Access a) s = .next t ∧ SameMemory s t ∧ t.teams = s.teams) ∧
      (∀ pkg off, s.inBar2 a = true →
        ((s.mgmtLeaf a.dev a.addr.toNat a.bytes.length a.write).bind fun e => s.placeOf (64 * a.dev) a.addr.toNat e) = some (.peer pkg off) →
        ∃ t : State, exec (.hostBar2Access a) s = .next t ∧ SameMemory s t ∧ t.teams = s.teams ∧ (a.write = true →
          ∀ k ∈ peerCuts (.peer pkg off, a.bytes.length), ∃ q ∈ t.fab.asks, q.who = .put ∧ (q.pkg, q.off, q.len) = k ∧
            q.data = some ((a.bytes.drop (k.2.1 - off)).take k.2.2))) ∧
      ∀ pa, s.inBar2 a = true → s.mgmtPlace a.dev a.addr.toNat a.bytes.length a.write = some pa →
        ∃ t : State, exec (.hostBar2Access a) s = .next t ∧
        (a.write = true → rdBytes t.hbm pa a.bytes.length = a.bytes ∧ ∀ x, ¬ Bytes pa a.bytes.length x → rdByte t.hbm x = rdByte s.hbm x) ∧
        (a.write = false → SameMemory s t ∧ t.mgmt.bar2 = rdBytes s.hbm pa a.bytes.length)) ∧
    (∀ ctx team tm, mget? s.teams team = some tm → ∃ t tm', exec (.hostContextResume ctx) s = .next t ∧ SameMachine s t ∧
      mget? t.teams team = some tm' ∧ (tm.ctx ≠ ctx → tm' = tm) ∧ (tm.ctx = ctx → (∀ r ∈ tm'.runs, r.held = false) ∧
        ∀ g p gr sp, mget? tm.groups g = some gr → mget? gr.splits p = some sp → ∃ gr', mget? tm'.groups g = some gr' ∧
          gr' = { gr with splits := gr'.splits } ∧
          mget? gr'.splits p = some (if sp.park = .fault then { sp with park := .none, parked := 0 } else sp))) ∧
    (∀ ctx die, let ts := s.residentTeams fun t => t.ctx = ctx && t.die = die
      (ts.all s.canSave = false → exec (.hostContextSwitch ctx die) s = .next s) ∧
      (ts.all s.canSave = true → ∃ t : State, exec (.hostContextSwitch ctx die) s = .next t ∧
        ∀ team tm, mget? s.teams team = some tm → tm.status = .resident → tm.ctx = ctx → tm.die = die →
          ∃ tm', mget? t.teams team = some tm' ∧ tm'.status = .saved ∧ tm'.saved = s.arrRead tm 0 tm.bytes)) ∧
    (∀ ctx, (s.ctx ctx).live = true → (s.ctx ctx).ended = none → ∃ t : State, exec (.contextEnd ctx) s = .next t ∧
      (t.ctx ctx).ended = some 0 ∧ ∀ k tm, mget? t.teams k = some tm → tm.ctx = ctx → tm.status = .ending) ∧
    (∀ ctx mode breaks, (mode ≤ 2 → breaks.length ≤ 4 →
        ∃ t : State, exec (.hostSetDebugMode ctx mode breaks) s = .next t ∧ t.teams = s.teams ∧ SameMemory s t ∧
          t.ctx ctx = { s.ctx ctx with debug := mode, breaks := breaks } ∧ ∀ x, x ≠ ctx → t.ctx x = s.ctx x) ∧
      (2 < mode ∨ 4 < breaks.length → exec (.hostSetDebugMode ctx mode breaks) s = .next s)) ∧
    (∀ team tm, mget? s.teams team = some tm → ∃ t tm', exec (.teamStop tm.ctx team) s = .next t ∧ mget? t.teams team = some tm' ∧
      (t.ctx tm.ctx).stopFlag = true ∧ ∀ g gr p sp rest, mget? tm.groups g = some gr → gr.ended = false → gr.splits = (p, sp) :: rest →
        ∃ gr', mget? tm'.groups g = some gr' ∧ gr'.halted = true ∧ SameRegisters gr gr') ∧
    (∀ r c, s.lookup? r = some c → c.group.halted = true → c.split.opn = false → c.split.park = .none →
      ∃ t d, exec (.hostSingleStep r) s = .next t ∧ ActsAlone s t c d ∧ TeamAsBefore c d ∧ d.split = { c.split with step := true } ∧
        d.group = { c.group with splits := d.group.splits }) ∧
    (∀ team group tm g, mget? s.teams team = some tm → mget? tm.groups group = some g → g.halted = true →
      ∃ (u : State) (tm' : Team) (g' : Group), exec (.hostResumeGroup team group) s = .next (u.settle team) ∧ SameMemory s u ∧
        mget? u.teams team = some tm' ∧ mget? tm'.groups group = some g' ∧ g'.halted = false ∧ SameRegisters g g' ∧
        (∀ j, j ≠ team → mget? u.teams j = mget? s.teams j) ∧ (u.ctx tm.ctx).stopFlag = false ∧
        ((∀ q ∈ tm.groups, ∀ b, b < tm.bars.length → q.2.arrived b = false) →
          GroupBecomes s u team group g' ∧ g' = { g with halted := false, splits := g'.splits } ∧
          ∀ p sp, mget? g.splits p = some sp → ∃ sp', mget? g'.splits p = some sp' ∧
            sp' = { sp with step := false, passed := sp.hit, hit := false, park := sp'.park, parked := sp'.parked } ∧
            ((∀ b n, sp.park = .bar b n → tm.bars.length ≤ b ∨ (tm.bar b).phase < n) → sp'.park = sp.park ∧ sp'.parked = sp.parked) ∧
            ∀ b n, sp.park = .bar b n → b < tm.bars.length → n ≤ (tm.bar b).phase → sp'.park = .none ∧ sp'.parked = 0))

/-! ### The fabric -/

/-- The remote instructions and the windows (R293, R296, R297, R301 to R304, R430 to R432, R463, R464). On a bound queue, with
operands in their limits and the local side translated, RPUT, RGET, RATOM, RPOST (whose record of 32 bytes is read at issue) and
RCQW append one request with the queue's next sequence number, counted on RMC, and the descriptor shows the new number; to a
peer that neither the slot table nor one accepted for a later START reaches the connection resets. An unbound queue raises ILLOP with reason 10. WREG of a privileged context writes its
window with a new generation and gives its key, and WREV revokes the window; any other context meets PROT of kind 3.
The model's own choices that it touches: log 30, 92. -/
def Obligations.FabricInstructionsComplete : Prop :=
  ∀ (s : State) (c : Cur) (f : FmtE), s.cur? = some c → c.acts f.com = true →
    let k := c.queueKey f.qb
    let loc := f.flg.getLsbD 0
    let la := c.addrOf loc f.s0
    let off := (c.rdPair f.s1.toNat).toNat
    let n := (c.rdS f.s2.toNat).toNat
    let goes (i : Instr) (s₁ : State) (a : RemoteAsk) : Prop :=
      ∀ q ps, s.conn? k = some q → s₁.engRanges c (if a.bytes = 0 then [] else [⟨a.loc, a.local_, a.bytes, a.need⟩]) = .ok ps →
        (∀ t d, a.post = some (t, d) → (mget [] s.fab.tags c.team.ctx).contains t = false) →
        ∃ (u : State) (d : Cur) (cmd : Cmd), Posted s₁ u c d .rmc cmd ∧ cmd.kind = .remote k q.next ∧ OnlyCounts c d ∧
          SameRegisters c.group d.group ∧
          let r : Req := { seq := q.next, op := a.op, team := c.ref.team, id := s₁.nextId, src := ps.flatten, len := a.len
                           off := a.off, key := a.key, tag := a.tag, post := a.post }
          let w := u.modFab fun b => { b with conns := mput b.conns k { q with next := q.next + 1, reqs := q.reqs ++ [r] } }
          exec i s = .next (if (s₁.hopFor q.peer).isNone && !s₁.meetsLater q.peer then w.resetConn k else w.showConn k)
    (s.conn? k = none → ∀ i ∈ [Instr.rput f, .rget f, .ratom f, .rpost f, .rpostGet f, .rcqw f], exec i s = .next (s.illop c 10)) ∧
    (remoteLen n = true → off % 16 = 0 → la % 16 = 0 →
      goes (.rput f) s { op := .put, loc := loc, local_ := la, bytes := n, need := { rd := true }, len := n, off := off
                         key := c.rdS f.s3.toNat, tag := (c.rdS (f.s2.toNat + 1)).toNat } ∧
      goes (.rget f) s { op := .get, loc := loc, local_ := la, bytes := n, need := { wr := true }, len := n, off := off
                         key := c.rdS f.s3.toNat }) ∧
    ((remoteLen n = false ∨ off % 16 ≠ 0 ∨ la % 16 ≠ 0) → (s.conn? k).isSome = true →
      ∀ i ∈ [Instr.rput f, .rget f], exec i s = .next (s.illop c 10)) ∧
    (let w := if loc then 8 else 4
     let x := (c.rdPair f.s2.toNat).toNat % 2 ^ (8 * w)
     let y := (c.rdPair (f.s2.toNat + 2)).toNat % 2 ^ (8 * w)
     let addr := (c.rdPair f.s0.toNat).toNat
     let ask (op : ReqOp) : RemoteAsk :=
       { op := op, local_ := addr, bytes := 8, need := { wr := true }, len := w, off := off, key := c.rdS f.s3.toNat }
     addr % 8 = 0 → off % w = 0 →
      (f.sub.toNat = 12 → goes (.ratom f) s (ask (.atom 12 w false y x))) ∧
      (f.sub.toNat ≠ 12 → goes (.ratom f) s (ask (.atom f.sub.toNat w (f.flg.getLsbD 1) x 0)))) ∧
    (∀ dp s₁ b, let a := (c.rdPair f.s0.toNat).toNat
      let tag := (c.rdS f.s1.toNat).toNat
      let from_ := if loc then le b 0 8 % 2 ^ 32 else le b 0 8
      let len := le b 0x10 4
      let ask (op : ReqOp) (need : Need) (t : Nat) : RemoteAsk :=
        { op := op, loc := loc, local_ := from_, bytes := len, need := need, extra := footOf false dp.flatten, len := len, off := le b 8 8
          key := BitVec.ofNat 32 (le b 0x14 4), tag := t, post := some (tag, le b 0x18 8) }
      s.noStash → s.engRanges c [⟨false, a, 32, { rd := true }⟩] = .ok dp → s.issueRead c a 32 = .ok (s₁, b) → tag ≠ 0 →
      remoteLen len = true → le b 8 8 % 16 = 0 → from_ % 16 = 0 →
      goes (.rpost f) s₁ (ask .put { rd := true } n) ∧ goes (.rpostGet f) s₁ (ask .get { wr := true } 0)) ∧
    (let b := connKey c.team.die c.team.ctx (f.flg.toNat % 16)
     (s.conn? b).isSome = true → goes (.rcqw f) s { op := .wait b (c.rdPair f.s0.toNat).toNat }) ∧
    ((s.ctx c.team.ctx).priv = false → exec (.wreg f) s = .next (s.protAt c 3) ∧ exec (.wrev f) s = .next (s.protAt c 3)) ∧
    ((s.ctx c.team.ctx).priv = true →
      let w := (c.rdS f.s0.toNat).toNat
      let base := off
      let len := (c.rdPair f.s2.toNat).toNat
      let p := c.rdS f.s3.toNat
      let old := mget {} s.fab.windows w
      let win : Window := { ctx := c.team.ctx, base := base, len := len, owner := p.toNat % 65536, rd := p.getLsbD 16, wr := p.getLsbD 17
                            at_ := p.getLsbD 18, gen := old.gen + 1, live := true }
      (w < 65536 → base % 16 = 0 → len % 16 = 0 → 16 ≤ len → len ≤ 2 ^ 40 → p.toNat < 2 ^ 19 → old.live = false →
        s.allPinned c base len = true →
        Effected (.wreg f) s c .enc (s.modFab fun b => { b with windows := mput b.windows w win }) false
          (fun g => g.wrS f.s0.toNat (BitVec.ofNat 32 (w * 65536 + (old.gen + 1) % 65536)))) ∧
      (65536 ≤ w ∨ base % 16 ≠ 0 ∨ len % 16 ≠ 0 ∨ len < 16 ∨ 2 ^ 40 < len ∨ 2 ^ 19 ≤ p.toNat ∨ old.live = true ∨
        s.allPinned c base len = false → exec (.wreg f) s = .next (s.illop c 10)) ∧
      (w < 65536 → old.live = true → old.ctx = c.team.ctx →
        Effected (.wrev f) s c .enc (s.modFab fun b => { b with windows := mput b.windows w { old with live := false } }) false id) ∧
      (w < 65536 → old.live = false → Effected (.wrev f) s c .enc s false id) ∧
      (65536 ≤ w ∨ (old.live = true ∧ old.ctx ≠ c.team.ctx) → exec (.wrev f) s = .next (s.illop c 10)))

/-- The events of the sender and of the slot table (R290 to R293, R297, R299, R303, R304). A slot table is accepted for its START
or refused, stops at the end of a slot, and is in force from its START; a slot passes once, and a send queue that its capacity
holds goes out whole, outside the slot's guard interval; an acknowledgement of the other incarnation is ignored, one whose owner the
admit table does not know with its key is dropped and counted (R306), and one of the whole of a put completes and posts it;
late packets join the send queue again; a page connection to an unreachable peer resets and ends its context (R295); a connection
without an acknowledgement for 10 ms resets and posts every request; a posted
request completes at its deadline, and a wait once the other queue has posted enough.

The completion of a request (R297, R298, R432): its entry of 16 bytes stands at its place in the completion ring, the
connection's count of completions rises by one, and the counters of its team lose it.
The model's own choices that it touches: log 50, 60, 62, 92, 109. -/
def Obligations.FabricSenderEventsComplete : Prop :=
  (∀ (s : State),
    (∀ ctx v, let base : DWord := v &&& 0x01FFFFFFFFFFF000
      let die := ((s.diesOf (ctxDevice ctx)).head?).getD 0
      v.getLsbD 0 = true →
      (∀ t, s.readTable die ctx base.toNat = some t → ∃ u : State, exec (.slottabEnable ctx v) s = .next u ∧ SameMemory s u ∧
        u.teams = s.teams ∧ u.fab = { s.fab with slottab := base ||| 1, later := some t } ∧ u.mgmt.health.slref = false) ∧
      (s.readTable die ctx base.toNat = none → ∃ u : State, exec (.slottabEnable ctx v) s = .next u ∧ SameMemory s u ∧
        u.teams = s.teams ∧ u.fab = { s.fab with slottab := base } ∧ u.mgmt.health.slref = true)) ∧
    (∀ v t, v.getLsbD 0 = false → s.tableNow = some t → s.fab.stop = none → t.start ≤ s.mgmt.time →
      ∃ u : State, exec (.slottabDisable v) s = .next u ∧ SameMemory s u ∧ u.teams = s.teams ∧
        u.fab = { s.fab with slottab := v &&& 0x01FFFFFFFFFFF000, later := none
                             stop := some (t.start + ((s.mgmt.time - t.start) / t.slotns + 1) * t.slotns) }) ∧
    (∀ t, s.fab.later = some t → (s.mgmt.time < t.start → exec .slotTableTakeEffect s = .next s) ∧
      (t.start ≤ s.mgmt.time → ∃ u : State, exec .slotTableTakeEffect s = .next u ∧ SameMemory s u ∧ u.teams = s.teams ∧
        u.tableNow = some t ∧ u.fab.later = none ∧ u.fab.slot = 0)) ∧
    (∀ slot dark t k, s.slotNow = some (t, k) →
      (slot ≠ k ∨ s.inGuard t = true → exec (.fabricSlotBegin slot dark) s = .next s) ∧
      (slot = k → s.inGuard t = false → slot < s.fab.slot → exec (.fabricSlotBegin slot dark) s = .next s.carryOn) ∧
      (slot = k → s.inGuard t = false → s.fab.slot ≤ slot → s.noStash →
        ∃ u : State, exec (.fabricSlotBegin slot dark) s = .next u ∧ SameMemory s u ∧ u.teams = s.teams ∧ u.fab.slot = slot + 1)) ∧
    (∀ (qs : List Queued) (cap : Nat), let n := (qs.map (·.left)).sum
      n ≤ cap → (s.carry qs cap).2 = ([], cap - n)) ∧
    (∀ (queue : Nat) (c : Conn), s.conn? queue = some c →
      (∀ epoch items, c.epoch ≠ epoch → (∀ a ∈ items, s.ackHeard c a = true → s.fab.knows a.owner a.key = true) →
        exec (.fabricAckReceive queue epoch items) s = .next s) ∧
      (∀ epoch a, c.epoch ≠ epoch → s.ackHeard c a = true → s.fab.knows a.owner a.key = false →
        exec (.fabricAckReceive queue epoch [a]) s = .next (s.dropOn a.channel)) ∧
      (∀ (r : Req) (a : AckItem), c.reqs = [r] → r.op = .put → r.status = 0 → r.bad = 0 → a.seq = r.seq → a.status = 1 → r.len ≤ a.upto →
        s.ackHeard c a = true → s.fab.knows a.owner a.key = true → s.putsOut r.team r.src = false →
        ∃ (u : State) (c' : Conn), exec (.fabricAckReceive queue c.epoch [a]) s = .next u ∧ u.conn? queue = some c' ∧ c'.reqs = [] ∧
          c'.cc = c.cc + 1 ∧ c'.ack = max c.ack c.next ∧ c'.next = c.next) ∧
      (∀ t hop, s.tableNow = some t → s.hopFor c.peer = some hop →
        ∃ u : State, exec (.fabricRetransmit queue) s = .next u ∧ SameMemory s u ∧ u.teams = s.teams ∧
          (∀ x ∈ mget [] s.fab.sendq hop, x ∈ mget [] u.fab.sendq hop) ∧
          ∀ r ∈ c.reqs, ∀ p ∈ r.pkts, p.first.isSome = true → p.last + 2 * (t.nslot * t.slotns) ≤ s.mgmt.time →
            ∃ x ∈ mget [] u.fab.sendq hop, x.conn = queue ∧ x.seq = r.seq ∧ x.at_ = p.at_) ∧
      (queue < 2 ^ 32 → c.stale s.mgmt.time = true → (∀ r ∈ c.reqs, s.putsOut r.team r.src = false) → ∃ (u : State) (c' : Conn), exec (.connectionReset queue) s = .next u ∧
        u.conn? queue = some c' ∧ c'.epoch = (c.epoch + 1) % 2 ^ 32 ∧ c'.reqs = [] ∧ c'.cc = c.cc + c.reqs.length ∧
        c'.next = c.next ∧ c'.base = c.next) ∧
      (queue < 2 ^ 32 → c.stale s.mgmt.time = false → (s.hopFor c.peer).isSome = true →
        exec (.connectionReset queue) s = .next s) ∧
      (∀ (r : Req) (t d : Nat), c.reqs = [r] → r.status = 0 → r.post = some (t, d) → d ≠ 0 →
        (s.mgmt.time < d → exec (.rpostDeadline queue) s = .next s) ∧
        (d ≤ s.mgmt.time → s.putsOut r.team r.src = false → ∃ (u : State) (c' : Conn), exec (.rpostDeadline queue) s = .next u ∧ u.conn? queue = some c' ∧
          c'.reqs = [] ∧ c'.cc = c.cc + 1)) ∧
      (∀ (r : Req) (b target : Nat) (o : Conn), c.reqs = [r] → r.status = 0 → r.op = .wait b target → s.conn? b = some o →
        (o.cc < target → exec (.rcqwSatisfied queue) s = .next s) ∧
        (target ≤ o.cc → s.putsOut r.team r.src = false → ∃ (u : State) (c' : Conn), exec (.rcqwSatisfied queue) s = .next u ∧ u.conn? queue = some c' ∧
          c'.reqs = [] ∧ c'.cc = c.cc + 1)))) ∧
  (∀ (s : State) (key : Nat), let x := key / 2 ^ 17
    x < 1024 → s.pageAccess x (key % 2 ^ 17) = true → s.hopFor (key % 2 ^ 17) = none → (s.ctx x).live = true → (s.ctx x).ended = none →
      ∃ u : State, exec (.connectionReset (pageQueue key)) s = .next u ∧ (u.ctx x).ended = some Cause.remote.code) ∧
  (∀ (s : State) (k : Nat) (c : Conn) (r : Req) (rest : List Req) (pe pd : Nat), s.conn? k = some c → c.reqs = r :: rest → s.noStash →
    s.memOk = true →
    let at_ := c.cqb + 16 * (r.seq % 2 ^ c.cqlog)
    let D (a : Nat) : Prop := Bytes pe 16 a ∨ Bytes pd 64 a
    Mapped s D c.die c.ctx at_ 16 pe → Mapped s D c.die c.ctx c.desc 64 pd → (∀ a, ¬ (Bytes pe 16 a ∧ Bytes pd 64 a)) →
    let u := s.postOne k c r
    u.conn? k = some { c with reqs := rest, cc := c.cc + 1 } ∧
    u.hbmNat pe 8 = r.seq % 2 ^ 64 ∧ u.hbmNat (pe + 8) 4 = r.status % 2 ^ 32 ∧ u.hbmNat (pe + 12) 4 = r.done % 2 ^ 32 ∧
    u.hbmNat (pd + 0x14) 4 = c.epoch % 2 ^ 32 ∧ u.hbmNat (pd + 0x18) 8 = c.next % 2 ^ 64 ∧ u.hbmNat (pd + 0x20) 8 = c.ack % 2 ^ 64 ∧
    u.hbmNat (pd + 0x28) 8 = (c.cc + 1) % 2 ^ 64 ∧
    (∀ a, ¬ Bytes pe 16 a → ¬ Bytes pd 64 a → rdByte u.hbm a = rdByte s.hbm a) ∧
    ∀ tm g p gr sp, mget? s.teams r.team = some tm → mget? tm.groups g = some gr → mget? gr.splits p = some sp →
      ∃ tm' gr' sp', mget? u.teams r.team = some tm' ∧ mget? tm'.groups g = some gr' ∧ mget? gr'.splits p = some sp' ∧
        sp'.ctrs.get .rmc = (sp.ctrs.get .rmc).erase r.id)

/-- The events of the target (R293, R298, R301, R306). A packet that the admit table does not know is dropped and counted; the next
packet of a put that its window allows is written to memory and acknowledged with status 1, and one that has been applied already
changes no memory; a packet for another package joins the relay area; a channel that has dropped 64 packets within 1 ms goes
dark. The model's own choices that it touches: log 60, 61, 92, 93. -/
def Obligations.FabricTargetEventsComplete : Prop :=
  (∀ (s : State) (p : Packet), s.fab.hears p = true → s.tableNow.isSome = true →
    (p.dst = Config.selfPackage → s.fab.admits p = false → ∃ u : State, exec (.fabricPacketReceive p) s = .next u ∧ SameMemory s u ∧
      u.teams = s.teams ∧ mget [] u.fab.drops p.channel = s.mgmt.time :: mget [] s.fab.drops p.channel) ∧
    (∀ c, p.dst = Config.selfPackage → s.fab.admits p = true → mget? s.fab.inc (p.src * 2 ^ 40 + p.conn) = some c → c.epoch = p.epoch →
      (c.isOld p = true → ∃ u : State, exec (.fabricPacketReceive p) s = .next u ∧ SameMemory s u ∧ u.teams = s.teams) ∧
      (∀ x va pa, s.noStash → s.memOk = true → c.applied = p.seq → c.part = 0 → c.perf = 0 → c.refused = 0 → c.early = [] → p.index = 0 →
        p.kind = 0 → p.last = true → p.tag = 0 → p.data.length = p.len → s.windowCheck p p.offset.toNat p.len = .ok (x, va, [(.hbm pa, p.len)]) →
        ∃ (u : State) (c' : InConn), exec (.fabricPacketReceive p) s = .next u ∧ rdBytes u.hbm pa p.len = p.data ∧
          (∀ a, ¬ Bytes pa p.len a → rdByte u.hbm a = rdByte s.hbm a) ∧ mget? u.fab.inc (p.src * 2 ^ 40 + p.conn) = some c' ∧
          c'.applied = p.seq + 1 ∧
          u.fab.acks = s.fab.acks ++ [s.ackOut p { seq := p.seq, upto := p.len, status := 1, done := p.len, data := [] }]) ∧
      (∀ e, c.applied = p.seq → c.part = 0 → c.perf = 0 → c.refused = 0 → c.early = [] → p.index = 0 → p.last = true → e ≠ 1 → e ≠ 8 →
        s.windowCheck p p.offset.toNat p.len = .error e →
        ∃ u : State, exec (.fabricPacketReceive p) s = .next u ∧ SameMemory s u ∧ u.teams = s.teams ∧
          u.fab.acks = s.fab.acks ++ [s.ackOut p { seq := p.seq, upto := p.len, status := e, done := 0, data := [] }])) ∧
    (p.dst ≠ Config.selfPackage → s.fab.admits p = true → (∀ o ∈ s.residents, s.fab.mutual p.owner o = true) →
      s.fab.relay.foldl (fun a q => a + q.data.length) p.data.length ≤ Config.relayBytes →
      ∃ u : State, exec (.relayForward p) s = .next u ∧ SameMemory s u ∧ u.teams = s.teams ∧ u.fab = { s.fab with relay := s.fab.relay ++ [p] })) ∧
  (∀ (s : State) (chan i a b : Nat), (mget [] s.fab.drops chan)[i]? = some a → (mget [] s.fab.drops chan)[i + 63]? = some b →
    a ≤ b + 1000000 → chan ∉ s.fab.isol → ∃ u : State, exec (.channelIsolation chan) s = .next u ∧ SameMemory s u ∧ u.teams = s.teams ∧
      u.fab.isol = s.fab.isol ++ [chan]) ∧
  (∀ (s : State) (chan : Nat), (mget [] s.fab.drops chan).length < 64 → exec (.channelIsolation chan) s = .next s)

/-! ### Lysja and the strip -/

/-- Failures, bridges and partition modes (R9 to R12, R15, R19, R23, R31, R334). A die whose heartbeat stops, that reports a fatal
error or grows too hot leaves service with its teams, and a wrap and a dump stand for it; one that has left already changes
nothing; the dump's header reads as R334 lays it out. A partition is re-formed with its interleaved area reading zero, but for a
dump that the host has not acknowledged. A frame that fails its check is asked for again, the expected frame is delivered with its
flits, those for other dies going on (R14), and acknowledges what its own die has received, and no other; a replay sends it and every later
one again; a frame that fails after eight replays retires its channel; a retired channel stays retired and a spare takes its place
with the frames of its replay buffer, and the 55th of a direction fails its boundary. A request is taken once, and what it does is done then, and it is
acknowledged each time. A mode change closes the ready queues, and once nothing remote is under way sets the
new mode with every context ended and memory reading zero; too long a drain leaves the mode with status 3.
The model's own choices that it touches: log 89, 91, 95. -/
def Obligations.PackageEventsComplete : Prop :=
  ∀ (s : State),
    (∀ d, ∀ i ∈ [Instr.dieHeartbeatTimeout d, .dieFatalError d, .dieOvertemp d],
      ((Config.dies ≤ d ∨ (s.die d).failed = true) → exec i s = .next s) ∧
      (d < Config.dies → (s.die d).failed = false → s.mgmt.brk = none → s.mgmt.due = none →
        ∃ t : State, exec i s = .next t ∧ (t.die d).failed = true ∧ t.mgmt.due = some ⟨false, d⟩ ∧ t.mgmt.health.rfr = true ∧
          (∀ q ∈ t.teams, q.2.die ≠ d) ∧ t.mgmt.dumps.length = s.mgmt.dumps.length + 1 ∧
          ∀ x ∈ s.lostWith d, (s.ctx x).live = true → (s.ctx x).ended = none → (t.ctx x).ended = some Cause.ecc.code)) ∧
    (∀ d time health ring sections, let b := dumpBytes d time health ring sections
      le b 0 4 = 0x504D5544 ∧ le b 4 4 = d % 2 ^ 32 ∧ le b 8 8 = time % 2 ^ 64 ∧ le b 0x10 8 = health.toNat ∧ le b 0x18 4 = ring.toNat ∧
        le b 0x1C 4 = sections.length % 2 ^ 32) ∧
    (∀ dev, (s.mgmt.reform.contains dev = false → exec (.partitionReform dev) s = .next s) ∧
      (s.mgmt.reform.contains dev = true → ∃ t : State, exec (.partitionReform dev) s = .next t ∧ t.teams = s.teams ∧
        t.mgmt.irq = s.mgmt.irq + 1 ∧
        ∀ a, rdByte t.hbm a =
          if a / 2 ^ 38 ∈ s.diesOf dev ∧ s.ibase dev ≤ a % 2 ^ 38 ∧ s.mgmt.inDump a = false then 0 else rdByte s.hbm a)) ∧
    (s.mgmt.alone = false → exec .hostDumpAck s =
      .next { s with mgmt := { s.mgmt with dumps := s.mgmt.dumps.drop 1, mail := s.mgmt.mail.drop 1 } }) ∧
    (s.mgmt.alone = true → exec .hostDumpAck s = .next s) ∧
    (∀ chan, chan < allLinks → (mget {} s.mgmt.links chan).gone = false →
      let l := mget {} s.mgmt.links chan
      let leads (i : Instr) (l' : Link) : Prop := ∃ t : State, exec i s = .next t ∧ SameMemory s t ∧ t.teams = s.teams ∧
        mget {} t.mgmt.links chan = l' ∧ ∀ k, k ≠ chan → mget {} t.mgmt.links k = mget {} s.mgmt.links k
      let retires (i : Instr) : Prop :=
        let m : Mgmt := { s.mgmt with links := mput s.mgmt.links chan { l with gone := true, want := false } }
        let dir := chan / linkCount
        ∃ t : State, exec i s = .next t ∧ SameMemory s t ∧ t.teams = s.teams ∧ (mget {} t.mgmt.links chan).gone = true ∧
          (∀ k, s.mgmt.freeSpare dir = some k → chan % linkCount < 100 → (mget {} t.mgmt.links chan).spare = some k ∧
            (mget {} t.mgmt.links k).wire = l.buf.map (·.seq) ∧ (mget {} t.mgmt.links k).buf = l.buf) ∧
          t.mgmt.due = (if m.goneIn dir = 55 ∧ m.goneIn (if dir % 2 = 0 then dir + 1 else dir - 1) < 55 then some ⟨true, dir / 2⟩ else none)
      (∀ seq f, l.wire.head? = some seq → (l.buf.find? fun g => g.seq = seq) = some f →
        let l₀ : Link := { l with wire := l.wire.drop 1, hurt := 0, fixed := if l.hurt = 0 then l.fixed else l.fixed + 1 }
        (l.want = true ∨ seq ≠ l.expect → ∀ ok, leads (.frameReceive chan seq ok) l₀) ∧
        (l.want = false → seq = l.expect → l.fails < 8 → leads (.frameReceive chan seq false) { l₀ with want := true }) ∧
        (l.want = false → seq = l.expect → 8 ≤ l.fails → s.mgmt.brk = none → s.mgmt.due = none → 
          ∃ t : State, exec (.frameReceive chan seq false) s = .next t ∧ (mget {} t.mgmt.links chan).gone = true) ∧
        (l.want = false → seq = l.expect → ∃ t : State, exec (.frameReceive chan seq true) s = .next t ∧ SameMemory s t ∧
          t.teams = s.teams ∧ mget {} t.mgmt.links chan = { l₀ with expect := seq + 1, fails := 0 } ∧
          mget [] t.mgmt.inbox (linkEnd chan) = mget [] s.mgmt.inbox (linkEnd chan) ++ f.flits.filter (fun q => q.dst = linkEnd chan) ∧
          mget [] t.mgmt.transit (linkEnd chan) = mget [] s.mgmt.transit (linkEnd chan) ++ f.flits.filter (fun q => q.dst ≠ linkEnd chan) ∧
          ∀ k, k / linkCount = otherWay (chan / linkCount) → s.mgmt.opposite k = some chan →
            (mget {} t.mgmt.links k).buf = (mget {} s.mgmt.links k).buf.filter fun g => (mget {} s.mgmt.links k).expect ≤ g.seq)) ∧
      (l.want = true → leads (.frameReplay chan)
        { l with want := false, fails := l.fails + 1, wire := (l.buf.map (·.seq)).filter fun k => l.expect ≤ k }) ∧
      (s.mgmt.brk = none → s.mgmt.due = none → retires (.channelRetire chan))) ∧
    (∀ src dst seq, let q := mget {} s.mgmt.seqs (src * 16 + dst)
      let taken (q : SeqSeen) (n : Nat) : Prop := n < q.below ∨ n ∈ q.early
      src < Config.dies → dst < Config.dies → ∃ u : State, SameMemory s u ∧ u.teams = s.teams ∧
        u.mgmt.acks = s.mgmt.acks ++ [(src, dst, seq)] ∧
        (taken q seq → exec (.requestArrive src dst seq) s = .next u ∧ u.mgmt.seqs = s.mgmt.seqs) ∧
        (¬ taken q seq → (∀ n, taken (mget {} u.mgmt.seqs (src * 16 + dst)) n ↔ taken q n ∨ n = seq) ∧
          exec (.requestArrive src dst seq) s = .next (match s.mgmt.reqs.find? fun r => r.src = src && r.dst = dst && r.seq = seq with
            | some r => u.stripApply r.what
            | none => u))) ∧
    (∀ v : Word, let req := v.toNat / 256 % 4
      (s.mgmt.busy = true → exec (.partmodeRequest v) s = .next s) ∧
      (s.mgmt.busy = false → req = 3 → exec (.partmodeRequest v) s = .next { s with mgmt := { s.mgmt with stat := 2 } }) ∧
      (s.mgmt.busy = false → req = s.mgmt.mode → req ≠ 3 →
        exec (.partmodeRequest v) s = .next { s with mgmt := { s.mgmt with stat := 1 } }) ∧
      (s.mgmt.busy = false → req ≠ s.mgmt.mode → req ≠ 3 → exec (.partmodeRequest v) s =
        .next { s with mgmt := { s.mgmt with busy := true, req := req, since := s.mgmt.time, closed := s.devices } })) ∧
    (s.mgmt.busy = false ∨ s.remoteOpen = true → exec .modeChangeComplete s = .next s) ∧
    (s.mgmt.busy = true → s.remoteOpen = false → s.teams = [] → ∃ t : State, exec .modeChangeComplete s = .next t ∧
      t.mgmt.mode = s.mgmt.req ∧ t.mgmt.stat = 1 ∧ t.mgmt.busy = false ∧ t.mgmt.irq = s.mgmt.irq + 1 ∧ t.teams = [] ∧
      (∀ a, s.mgmt.inDump a = false → rdByte t.hbm a = 0) ∧ ∀ x, (s.ctx x).live = true → (t.ctx x).ended.isSome = true) ∧
    (s.mgmt.busy = true → s.remoteOpen = true → s.teams = [] → s.mgmt.since + s.mgmt.drain ≤ s.mgmt.time →
      ∃ t : State, exec .modeChangeDrainTimeout s = .next t ∧ t.mgmt.mode = s.mgmt.mode ∧ t.mgmt.stat = 3 ∧ t.mgmt.busy = false ∧
        ∀ x, (s.ctx x).live = true → (t.ctx x).ended.isSome = true) ∧
    (s.mgmt.time < s.mgmt.since + s.mgmt.drain → exec .modeChangeDrainTimeout s = .next s)

/-- Time, power, lanes, firmware, health and the mailbox (R24 to R26, R30 to R34, R330 to R333). A die's copy of common time follows
the master and never goes back; the standby takes the master over in two steps, with a count that no copy is ahead of; a failed lane is mapped out once the core's teams
can be saved, and a third removes the core; a test saves the core's teams; bring-up starts an empty machine in the stored mode;
the cap stays in its bounds, vector issue is gated only after matrix issue, and a thermal limit sets the least cap; a staged bank
is switched to; an uncorrectable error ends its owner's context; a lone standby hears no mailbox command.
The model's own choices that it touches: log 92, 93, 94, 100, 102, 103. -/
def Obligations.ManagementEventsComplete : Prop :=
  ∀ (s : State),
    let mgmt (i : Instr) (m : Mgmt) : Prop := exec i s = .next { s with mgmt := m }
    let h := s.mgmt.health
    (∀ die skew, die < Config.dies → skew ≤ 4 → s.mgmt.master ≠ 1 → ∃ t : State, exec (.timeSyncMessage die skew) s = .next t ∧
      SameMemory s t ∧ t.teams = s.teams ∧ (s.die die).time ≤ (t.die die).time ∧ s.mgmt.time + skew ≤ (t.die die).time ∧
      (t.die die).time = max (s.die die).time (s.mgmt.time + skew) ∧ ∀ d, d ≠ die → t.die d = s.die d) ∧
    (s.mgmt.master = 0 → mgmt .timeMasterFailover { s.mgmt with master := 1, health := { h with tunc := true } }) ∧
    (s.mgmt.master = 1 → ∃ t : State, exec .timeMasterFailover s = .next t ∧ SameMemory s t ∧ t.teams = s.teams ∧
      t.mgmt = { s.mgmt with master := 2, time := t.mgmt.time, health := { h with tunc := false } } ∧ s.mgmt.time ≤ t.mgmt.time ∧
      ∀ d, d < Config.dies → (s.die d).time ≤ t.mgmt.time ∧ (t.die d).time = t.mgmt.time + (s.die d).skew) ∧
    (∀ core slot lane, let ts := s.residentOn core
      let bad := mget [] (s.core core).badLanes slot
      core < Config.dies * Config.cores → slot < Config.slots → lane < 64 →
      ((bad.contains lane = true ∨ ts.all s.canSave = false) → exec (.laneFailure core slot lane) s = .next s) ∧
      (bad.contains lane = false → ts.all s.canSave = true → ∃ t : State, exec (.laneFailure core slot lane) s = .next t ∧
        mget [] (t.core core).badLanes slot = bad ++ [lane] ∧ (t.core core).removed = ((s.core core).removed || decide (2 ≤ bad.length)) ∧
        mget? (t.core core).lanemap slot = some (laneWord (bad ++ [lane])))) ∧
    (∀ core, let ts := s.residentOn core
      (ts.all s.canSave = false → exec (.inServiceTest core) s = .next s) ∧
      (ts.all s.canSave = true → ∃ t : State, exec (.inServiceTest core) s = .next t ∧
        ∀ team tm, mget? s.teams team = some tm → tm.status = .resident → tm.coreKey = core →
          ∃ tm', mget? t.teams team = some tm' ∧ tm'.status = .saved)) ∧
    (∀ stored, ∃ t : State, exec (.powerOnBringup stored 0) s = .next t ∧ t.teams = [] ∧ t.ctxs = [] ∧ t.tasks = [] ∧
      (∀ a, rdByte t.hbm a = 0) ∧ t.mgmt.mode = (if stored < 3 then stored else 0) ∧ t.mgmt.time = s.mgmt.start ∧
      (∀ d, d < Config.dies → (t.die d).time = s.mgmt.start ∧ (t.die d).failed = false) ∧ t.mgmt.health.rfr = s.needsReplacing) ∧
    (∀ watts, (s.mgmt.alone = false → 6000 ≤ watts → watts ≤ 11000 → mgmt (.powerCapSet watts) { s.mgmt with cap := watts }) ∧
      (s.mgmt.alone = true ∨ watts < 6000 ∨ 11000 < watts → exec (.powerCapSet watts) s = .next s)) ∧
    (∀ matrix vector : List Nat, ((∀ d ∈ vector, d ∈ matrix) →
        mgmt (.powerGating matrix vector) { s.mgmt with gateM := matrix, gateV := vector }) ∧
      (∀ d, d ∈ vector → d ∉ matrix → exec (.powerGating matrix vector) s = .next s)) ∧
    mgmt .thermalLimit { s.mgmt with cap := 6000, health := { h with therm := true } } ∧
    (s.mgmt.staged = true → mgmt .firmwareBankSwitch { s.mgmt with bank := 1 - s.mgmt.bank, staged := false }) ∧
    (s.mgmt.staged = false → exec .firmwareBankSwitch s = .next s) ∧
    mgmt .lysjaWatchdogTakeover { s.mgmt with alone := true } ∧
    (∀ n, mgmt (.healthSample n) { s.mgmt with health := { h with cecc := min 255 n } } ∧
      mgmt (.eccCorrected n) { s.mgmt with health := { h with cecc := min 255 (h.cecc + n) } }) ∧
    (∀ die kind, exec (.eccUncorrectable none die kind) s = exec (.dieFatalError die) s ∧
      ∀ x, 1 ≤ kind → kind ≤ 6 → (s.ctx x).live = true → (s.ctx x).ended = none →
        ∃ t : State, exec (.eccUncorrectable (some x) die kind) s = .next t ∧ (t.ctx x).ended = some Cause.ecc.code) ∧
    (∀ m, s.mgmt.alone = true → exec (.mailboxCommand m) s = .next s) ∧
    (s.mgmt.alone = false → (∀ dev v, mgmt (.mailboxCommand ⟨1, [v]⟩) { s.mgmt with start := v % 2 ^ 64 } ∧
        mgmt (.mailboxCommand ⟨2, [v]⟩) { s.mgmt with drain := v } ∧ mgmt (.mailboxCommand ⟨9, [dev, v]⟩) { s.mgmt with ibase := mput s.mgmt.ibase dev v } ∧
        exec (.mailboxCommand ⟨3, [v]⟩) s = exec (.powerCapSet v) s) ∧
      (∀ vpn leaf, leaf ≠ 0 → mgmt (.mailboxCommand ⟨12, [vpn, leaf]⟩) { s.mgmt with mtab := mput s.mgmt.mtab vpn (BitVec.ofNat 64 leaf) }) ∧
      mgmt (.mailboxCommand ⟨10, []⟩) { s.mgmt with staged := true } ∧
      (∀ x die off priv owner base size save, x < 64 * nDevices s.mgmt.mode → (s.ctx x).live = false → (∀ t ∈ s.teams, t.2.ctx ≠ x) →
        ∃ t : State, exec (.mailboxCommand ⟨8, [x, die, off, priv, owner, base, size, save]⟩) s = .next t ∧ SameMemory s t ∧ t.teams = s.teams ∧
          t.ctx x = { live := true, owner := BitVec.ofNat 32 (owner % 65536), rootDie := die, rootOff := off, priv := decide (priv ≠ 0)
                      fqBase := BitVec.ofNat 64 base, fqSize := size, saveArea := BitVec.ofNat 64 save } ∧
          ∀ y, y ≠ x → t.ctx y = s.ctx y))

/-! ### Words, reset and whole-machine rules -/

/-- Words that the spec writes out decode to the instructions that it says they are, obey every rule of R112 and R129 in a group of
budget 256, and are the encodings of those instructions (R111 to R121): `ATOM.smax.b32.dev.ar v7, [s2]`; `BAR 3, #8`; `?p2 BRA
L180, L200`; `CPYT.dl.col [s20], [s10], s12, s13`; `FADD.f32.rz v3, -v2, v1`; `FFMA v10, v4, v5, v10`; `IADD.sat.s16x2 v9, v1,
s2`; `ICMP.ge.s32 p1, v3, #10`; `LD.b128.team.acq v8, [s4, v2, 3]`; `MDRAIN.buf3.af16 v32, _`; `MMAS.e4m3.af32.zc v64, v0, s4,
s8`; `MOVI s7, #0x12345678`; `MOVSR s4, SCTBA`; `QPULL s8, q3, [s4]`; `RATOM.add.b64`; `SFORK s12, s9, s10, [s4]`;
`SHFL.down.u32 v6, v4, s2, #32, p1`; `WREG s8, [s4], s6, s9`; and the epilogue word of EPADD e3, e1, e2. -/
def Obligations.SpecWordsDecode : Prop :=
  let word (w : DWord) (i : Instr) : Prop := decodeWord w = .ok i ∧ i.illegal 256 = none ∧ encode i = w
  word 0x120712FF02070744 (.atom ⟨⟨0, false, 7⟩, 18, 0, 3, 4, false, true, false, 2, 255, 2, 7⟩) ∧
  word 0x083000000000076A (.bar ⟨⟨0, false, 7⟩, 8, 3, 0, 0, 0, 0, 0⟩) ∧
  word 0x0020000010000260 (.bra ⟨⟨0, false, 2⟩, 32, 16, 0, 0⟩) ∧
  word 0x12000D0C0A140751 (.cpyt ⟨⟨0, false, 7⟩, 18, 0, 0, 13, 12, 10, 20⟩) ∧
  word 0x0906000102030720 (.fadd ⟨⟨0, false, 7⟩, 9, false, false, false, false, .f32, 0, 1, 2, 3⟩) ∧
  word 0x00060A05040A0722 (.ffma ⟨⟨0, false, 7⟩, 0, false, false, false, false, .f32, 10, 5, 4, 10⟩) ∧
  word 0x0445000201090701 (.iadd ⟨⟨0, false, 7⟩, 4, false, true, false, false, .s16x2, 0, 2, 1, 9⟩) ∧
  word 0x00000A9103010788 (.icmpImm ⟨⟨0, false, 7⟩, 0xa, 2, false, true, .s32, 3, 1⟩) ∧
  word 0x0302940204080740 (.ld ⟨⟨0, false, 7⟩, 3, 0, 1, 2, false, true, false, 4, 2, 4, 8⟩) ∧
  word 0x203A00000000075E (.mdrain ⟨⟨0, false, 7⟩, 32, 3, 10, 0, 0, 0, 0⟩) ∧
  word 0x084029040040075D (.mmas ⟨⟨0, false, 7⟩, 8, 1, false, false, 0, 0, 2, true, false, false, true, 4, 0, 64⟩) ∧
  word 0x1234567801070715 (.movi ⟨⟨0, false, 7⟩, 0x12345678, true, 7⟩) ∧
  word 0x0000001000040770 (.movsr ⟨⟨0, false, 7⟩, 0, 16, 0, 4⟩) ∧
  word 0x00300000040807D3 (.qpull ⟨⟨0, false, 7⟩, 0, 3, 0, 0, 0, 4, 8⟩) ∧
  word 0x01200A08060407CA (.ratom ⟨⟨0, false, 7⟩, 1, 2, 0, 10, 8, 6, 4⟩) ∧
  word 0x0000040A090C07E3 (.sfork ⟨⟨0, false, 7⟩, 0, 0, 0, 4, 10, 9, 12⟩) ∧
  word 0x0040360204060738 (.shfl ⟨⟨0, false, 7⟩, 0, false, true, false, false, .u32, 54, 2, 4, 6⟩) ∧
  word 0x00000906040807CD (.wreg ⟨⟨0, false, 7⟩, 0, 0, 0, 9, 6, 4, 8⟩) ∧
  decodeEp 0x000084C1 = some (.epadd ⟨0, 0, 0, 2, 1, 3⟩) ∧ encodeEp (.epadd ⟨0, 0, 0, 2, 1, 3⟩) = 0x000084C1

/-- The state after reset (R25, R30, R69, R81, R276, R290 and their registers): the memories are in their form and read zero (log 3),
nothing runs, common time and every die's copy of it are zero, FAIRTIME is 512, DENSEF has LIM 4,096 and FRAC 16, PRIO has QUOTA
65,536 and CAP 3, the power cap is 11 kW, and the fabric is off; and the machine takes a step from it.
The model's own choices that it touches: log 2. -/
def Obligations.ResetStateHolds : Prop :=
  State.reset.memOk = true ∧ State.reset.goesOn = true ∧ (∀ a, rdByte State.reset.hbm a = 0) ∧
  (∀ k a, rdByte (State.reset.core k).arr a = 0) ∧ State.reset.teams = [] ∧ State.reset.tasks = [] ∧ State.reset.mgmt.time = 0 ∧
  (∀ d, (State.reset.die d).time = 0 ∧ (State.reset.die d).fairtime = 512 ∧ (State.reset.die d).failed = false) ∧
  (∀ x, (State.reset.ctx x).live = false ∧ (State.reset.ctx x).densef = BitVec.ofNat 32 (4096 * 256 + 16) ∧
    (State.reset.ctx x).prio = BitVec.ofNat 32 (65536 * 256 + 3) ∧ (State.reset.ctx x).pfxtab = 0) ∧
  State.reset.mgmt.cap = 11000 ∧ State.reset.mgmt.mode = 0 ∧ State.reset.mgmt.busy = false ∧ State.reset.tableNow = none ∧
  State.reset.fab.slottab = 0

/-- Every step keeps the byte memories in their canonical form: HBM and every core's local array list each address once, rising, and
no address that reads as an unlisted one does (log 3). It holds of every state, reachable or not. -/
def Obligations.StepKeepsMemoryForm : Prop :=
  ∀ s t : State, s.memOk = true → step s = .next t → t.memOk = true

/-- Every state has a next one: the machine never refuses and never faults, and every trap of the spec is a next state (R130, R309).
A meaning taken alone faults only where nothing can act: an instruction word's with no split whose turn it is, an epilogue word's
with no epilogue processor whose turn it is. -/
def Obligations.EveryStateHasANextOne : Prop :=
  (∀ s : State, s.goesOn = true) ∧
  ∀ (i : Instr) (s : State), (∃ t, exec i s = .next t) ∨ (i.com?.isSome = true ∧ s.cur? = none ∧ exec i s = .fault .noSplit) ∨
    (i.isEp = true ∧ (∀ k, s.turn ≠ .epilogue k) ∧ exec i s = .fault .noEpilogue)

end SliceStatements
end

