-- ==== Sys2Proof/Laws/Exec.lean ====
section
/-! SUPPORT. What `exec` does at each constructor: one lemma for each, true by the case split of its definition. -/
namespace Sys2Proof.Machine

@[simp] theorem exec_nop (c : Com) (s : State) : exec (.nop c) s = execNop c s := rfl
@[simp] theorem exec_iadd (f : FmtR) (s : State) : exec (.iadd f) s = execIadd f s := rfl
@[simp] theorem exec_iaddImm (f : FmtI) (s : State) : exec (.iaddImm f) s = execIaddImm f s := rfl
@[simp] theorem exec_isub (f : FmtR) (s : State) : exec (.isub f) s = execIsub f s := rfl
@[simp] theorem exec_isubImm (f : FmtI) (s : State) : exec (.isubImm f) s = execIsubImm f s := rfl
@[simp] theorem exec_imul (f : FmtR) (s : State) : exec (.imul f) s = execImul f s := rfl
@[simp] theorem exec_imulImm (f : FmtI) (s : State) : exec (.imulImm f) s = execImulImm f s := rfl
@[simp] theorem exec_imad (f : FmtR) (s : State) : exec (.imad f) s = execImad f s := rfl
@[simp] theorem exec_imin (f : FmtR) (s : State) : exec (.imin f) s = execImin f s := rfl
@[simp] theorem exec_iminImm (f : FmtI) (s : State) : exec (.iminImm f) s = execIminImm f s := rfl
@[simp] theorem exec_imax (f : FmtR) (s : State) : exec (.imax f) s = execImax f s := rfl
@[simp] theorem exec_imaxImm (f : FmtI) (s : State) : exec (.imaxImm f) s = execImaxImm f s := rfl
@[simp] theorem exec_iabs (f : FmtR) (s : State) : exec (.iabs f) s = execIabs f s := rfl
@[simp] theorem exec_icmp (f : FmtR) (s : State) : exec (.icmp f) s = execIcmp f s := rfl
@[simp] theorem exec_icmpImm (f : FmtI) (s : State) : exec (.icmpImm f) s = execIcmpImm f s := rfl
@[simp] theorem exec_shl (f : FmtR) (s : State) : exec (.shl f) s = execShl f s := rfl
@[simp] theorem exec_shlImm (f : FmtI) (s : State) : exec (.shlImm f) s = execShlImm f s := rfl
@[simp] theorem exec_shr (f : FmtR) (s : State) : exec (.shr f) s = execShr f s := rfl
@[simp] theorem exec_shrImm (f : FmtI) (s : State) : exec (.shrImm f) s = execShrImm f s := rfl
@[simp] theorem exec_sar (f : FmtR) (s : State) : exec (.sar f) s = execSar f s := rfl
@[simp] theorem exec_sarImm (f : FmtI) (s : State) : exec (.sarImm f) s = execSarImm f s := rfl
@[simp] theorem exec_log3 (f : FmtR) (s : State) : exec (.log3 f) s = execLog3 f s := rfl
@[simp] theorem exec_popc (f : FmtR) (s : State) : exec (.popc f) s = execPopc f s := rfl
@[simp] theorem exec_clz (f : FmtR) (s : State) : exec (.clz f) s = execClz f s := rfl
@[simp] theorem exec_brev (f : FmtR) (s : State) : exec (.brev f) s = execBrev f s := rfl
@[simp] theorem exec_bfx (f : FmtR) (s : State) : exec (.bfx f) s = execBfx f s := rfl
@[simp] theorem exec_bfi (f : FmtR) (s : State) : exec (.bfi f) s = execBfi f s := rfl
@[simp] theorem exec_lea (f : FmtR) (s : State) : exec (.lea f) s = execLea f s := rfl
@[simp] theorem exec_sel (f : FmtR) (s : State) : exec (.sel f) s = execSel f s := rfl
@[simp] theorem exec_mov (f : FmtR) (s : State) : exec (.mov f) s = execMov f s := rfl
@[simp] theorem exec_movi (f : FmtL) (s : State) : exec (.movi f) s = execMovi f s := rfl
@[simp] theorem exec_fadd (f : FmtR) (s : State) : exec (.fadd f) s = execFadd f s := rfl
@[simp] theorem exec_faddImm (f : FmtI) (s : State) : exec (.faddImm f) s = execFaddImm f s := rfl
@[simp] theorem exec_fmul (f : FmtR) (s : State) : exec (.fmul f) s = execFmul f s := rfl
@[simp] theorem exec_fmulImm (f : FmtI) (s : State) : exec (.fmulImm f) s = execFmulImm f s := rfl
@[simp] theorem exec_ffma (f : FmtR) (s : State) : exec (.ffma f) s = execFfma f s := rfl
@[simp] theorem exec_fmin (f : FmtR) (s : State) : exec (.fmin f) s = execFmin f s := rfl
@[simp] theorem exec_fminImm (f : FmtI) (s : State) : exec (.fminImm f) s = execFminImm f s := rfl
@[simp] theorem exec_fmax (f : FmtR) (s : State) : exec (.fmax f) s = execFmax f s := rfl
@[simp] theorem exec_fmaxImm (f : FmtI) (s : State) : exec (.fmaxImm f) s = execFmaxImm f s := rfl
@[simp] theorem exec_fcmp (f : FmtR) (s : State) : exec (.fcmp f) s = execFcmp f s := rfl
@[simp] theorem exec_fcmpImm (f : FmtI) (s : State) : exec (.fcmpImm f) s = execFcmpImm f s := rfl
@[simp] theorem exec_frcp (f : FmtR) (s : State) : exec (.frcp f) s = execFrcp f s := rfl
@[simp] theorem exec_frsq (f : FmtR) (s : State) : exec (.frsq f) s = execFrsq f s := rfl
@[simp] theorem exec_fsqrt (f : FmtR) (s : State) : exec (.fsqrt f) s = execFsqrt f s := rfl
@[simp] theorem exec_fex2 (f : FmtR) (s : State) : exec (.fex2 f) s = execFex2 f s := rfl
@[simp] theorem exec_flg2 (f : FmtR) (s : State) : exec (.flg2 f) s = execFlg2 f s := rfl
@[simp] theorem exec_fsin (f : FmtR) (s : State) : exec (.fsin f) s = execFsin f s := rfl
@[simp] theorem exec_fcos (f : FmtR) (s : State) : exec (.fcos f) s = execFcos f s := rfl
@[simp] theorem exec_ftanh (f : FmtR) (s : State) : exec (.ftanh f) s = execFtanh f s := rfl
@[simp] theorem exec_cvt (f : FmtR) (s : State) : exec (.cvt f) s = execCvt f s := rfl
@[simp] theorem exec_cvtef (f : FmtR) (s : State) : exec (.cvtef f) s = execCvtef f s := rfl
@[simp] theorem exec_pack4 (f : FmtR) (s : State) : exec (.pack4 f) s = execPack4 f s := rfl
@[simp] theorem exec_unpk4 (f : FmtR) (s : State) : exec (.unpk4 f) s = execUnpk4 f s := rfl
@[simp] theorem exec_shfl (f : FmtR) (s : State) : exec (.shfl f) s = execShfl f s := rfl
@[simp] theorem exec_vote (f : FmtR) (s : State) : exec (.vote f) s = execVote f s := rfl
@[simp] theorem exec_redg (f : FmtR) (s : State) : exec (.redg f) s = execRedg f s := rfl
@[simp] theorem exec_scang (f : FmtR) (s : State) : exec (.scang f) s = execScang f s := rfl
@[simp] theorem exec_ld (f : FmtM) (s : State) : exec (.ld f) s = execLd f s := rfl
@[simp] theorem exec_st (f : FmtM) (s : State) : exec (.st f) s = execSt f s := rfl
@[simp] theorem exec_ldrsv (f : FmtM) (s : State) : exec (.ldrsv f) s = execLdrsv f s := rfl
@[simp] theorem exec_stcnd (f : FmtM) (s : State) : exec (.stcnd f) s = execStcnd f s := rfl
@[simp] theorem exec_atom (f : FmtM) (s : State) : exec (.atom f) s = execAtom f s := rfl
@[simp] theorem exec_atcas (f : FmtM) (s : State) : exec (.atcas f) s = execAtcas f s := rfl
@[simp] theorem exec_red (f : FmtM) (s : State) : exec (.red f) s = execRed f s := rfl
@[simp] theorem exec_fence (f : FmtM) (s : State) : exec (.fence f) s = execFence f s := rfl
@[simp] theorem exec_pref (f : FmtM) (s : State) : exec (.pref f) s = execPref f s := rfl
@[simp] theorem exec_stashm (f : FmtM) (s : State) : exec (.stashm f) s = execStashm f s := rfl
@[simp] theorem exec_stashw (f : FmtM) (s : State) : exec (.stashw f) s = execStashw f s := rfl
@[simp] theorem exec_stashu (f : FmtM) (s : State) : exec (.stashu f) s = execStashu f s := rfl
@[simp] theorem exec_cpy (f : FmtE) (s : State) : exec (.cpy f) s = execCpy f s := rfl
@[simp] theorem exec_cpyt (f : FmtE) (s : State) : exec (.cpyt f) s = execCpyt f s := rfl
@[simp] theorem exec_closeb (f : FmtE) (s : State) : exec (.closeb f) s = execCloseb f s := rfl
@[simp] theorem exec_waitb (f : FmtE) (s : State) : exec (.waitb f) s = execWaitb f s := rfl
@[simp] theorem exec_bufcfg (f : FmtE) (s : State) : exec (.bufcfg f) s = execBufcfg f s := rfl
@[simp] theorem exec_bufwait (f : FmtE) (s : State) : exec (.bufwait f) s = execBufwait f s := rfl
@[simp] theorem exec_bufrel (f : FmtE) (s : State) : exec (.bufrel f) s = execBufrel f s := rfl
@[simp] theorem exec_lnstart (f : FmtE) (s : State) : exec (.lnstart f) s = execLnstart f s := rfl
@[simp] theorem exec_lnstop (f : FmtE) (s : State) : exec (.lnstop f) s = execLnstop f s := rfl
@[simp] theorem exec_mma (f : FmtX) (s : State) : exec (.mma f) s = execMma f s := rfl
@[simp] theorem exec_mmas (f : FmtX) (s : State) : exec (.mmas f) s = execMmas f s := rfl
@[simp] theorem exec_mdrain (f : FmtE) (s : State) : exec (.mdrain f) s = execMdrain f s := rfl
@[simp] theorem exec_epload (f : FmtE) (s : State) : exec (.epload f) s = execEpload f s := rfl
@[simp] theorem exec_bra (f : FmtB) (s : State) : exec (.bra f) s = execBra f s := rfl
@[simp] theorem exec_brx (f : FmtB) (s : State) : exec (.brx f) s = execBrx f s := rfl
@[simp] theorem exec_call (f : FmtB) (s : State) : exec (.call f) s = execCall f s := rfl
@[simp] theorem exec_ret (f : FmtB) (s : State) : exec (.ret f) s = execRet f s := rfl
@[simp] theorem exec_retT (f : FmtB) (s : State) : exec (.retT f) s = execRetT f s := rfl
@[simp] theorem exec_merge (f : FmtB) (s : State) : exec (.merge f) s = execMerge f s := rfl
@[simp] theorem exec_loop (f : FmtB) (s : State) : exec (.loop f) s = execLoop f s := rfl
@[simp] theorem exec_exit (f : FmtB) (s : State) : exec (.exit f) s = execExit f s := rfl
@[simp] theorem exec_yield (f : FmtB) (s : State) : exec (.yield f) s = execYield f s := rfl
@[simp] theorem exec_trap (f : FmtS) (s : State) : exec (.trap f) s = execTrap f s := rfl
@[simp] theorem exec_bkpt (f : FmtB) (s : State) : exec (.bkpt f) s = execBkpt f s := rfl
@[simp] theorem exec_bar (f : FmtE) (s : State) : exec (.bar f) s = execBar f s := rfl
@[simp] theorem exec_bara (f : FmtE) (s : State) : exec (.bara f) s = execBara f s := rfl
@[simp] theorem exec_barw (f : FmtE) (s : State) : exec (.barw f) s = execBarw f s := rfl
@[simp] theorem exec_movsr (f : FmtS) (s : State) : exec (.movsr f) s = execMovsr f s := rfl
@[simp] theorem exec_movsrWrite (f : FmtS) (s : State) : exec (.movsrWrite f) s = execMovsrWrite f s := rfl
@[simp] theorem exec_movsv (f : FmtS) (s : State) : exec (.movsv f) s = execMovsv f s := rfl
@[simp] theorem exec_time (f : FmtS) (s : State) : exec (.time f) s = execTime f s := rfl
@[simp] theorem exec_cycle (f : FmtS) (s : State) : exec (.cycle f) s = execCycle f s := rfl
@[simp] theorem exec_pgdist (f : FmtS) (s : State) : exec (.pgdist f) s = execPgdist f s := rfl
@[simp] theorem exec_setfmt (f : FmtS) (s : State) : exec (.setfmt f) s = execSetfmt f s := rfl
@[simp] theorem exec_rag (f : FmtE) (s : State) : exec (.rag f) s = execRag f s := rfl
@[simp] theorem exec_rrs (f : FmtE) (s : State) : exec (.rrs f) s = execRrs f s := rfl
@[simp] theorem exec_rhnd (f : FmtE) (s : State) : exec (.rhnd f) s = execRhnd f s := rfl
@[simp] theorem exec_rwait (f : FmtE) (s : State) : exec (.rwait f) s = execRwait f s := rfl
@[simp] theorem exec_rrank (f : FmtE) (s : State) : exec (.rrank f) s = execRrank f s := rfl
@[simp] theorem exec_rput (f : FmtE) (s : State) : exec (.rput f) s = execRput f s := rfl
@[simp] theorem exec_rget (f : FmtE) (s : State) : exec (.rget f) s = execRget f s := rfl
@[simp] theorem exec_ratom (f : FmtE) (s : State) : exec (.ratom f) s = execRatom f s := rfl
@[simp] theorem exec_rpost (f : FmtE) (s : State) : exec (.rpost f) s = execRpost f s := rfl
@[simp] theorem exec_rpostGet (f : FmtE) (s : State) : exec (.rpostGet f) s = execRpostGet f s := rfl
@[simp] theorem exec_rcqw (f : FmtE) (s : State) : exec (.rcqw f) s = execRcqw f s := rfl
@[simp] theorem exec_wreg (f : FmtE) (s : State) : exec (.wreg f) s = execWreg f s := rfl
@[simp] theorem exec_wrev (f : FmtE) (s : State) : exec (.wrev f) s = execWrev f s := rfl
@[simp] theorem exec_tasknew (f : FmtE) (s : State) : exec (.tasknew f) s = execTasknew f s := rfl
@[simp] theorem exec_taskdec (f : FmtE) (s : State) : exec (.taskdec f) s = execTaskdec f s := rfl
@[simp] theorem exec_temit (f : FmtE) (s : State) : exec (.temit f) s = execTemit f s := rfl
@[simp] theorem exec_qpull (f : FmtE) (s : State) : exec (.qpull f) s = execQpull f s := rfl
@[simp] theorem exec_qpush (f : FmtE) (s : State) : exec (.qpush f) s = execQpush f s := rfl
@[simp] theorem exec_qpushClose (f : FmtE) (s : State) : exec (.qpushClose f) s = execQpushClose f s := rfl
@[simp] theorem exec_arrv (f : FmtE) (s : State) : exec (.arrv f) s = execArrv f s := rfl
@[simp] theorem exec_snew (f : FmtE) (s : State) : exec (.snew f) s = execSnew f s := rfl
@[simp] theorem exec_sres (f : FmtE) (s : State) : exec (.sres f) s = execSres f s := rfl
@[simp] theorem exec_scommit (f : FmtE) (s : State) : exec (.scommit f) s = execScommit f s := rfl
@[simp] theorem exec_sfork (f : FmtE) (s : State) : exec (.sfork f) s = execSfork f s := rfl
@[simp] theorem exec_slen (f : FmtE) (s : State) : exec (.slen f) s = execSlen f s := rfl
@[simp] theorem exec_srel (f : FmtE) (s : State) : exec (.srel f) s = execSrel f s := rfl
@[simp] theorem exec_sseek (f : FmtE) (s : State) : exec (.sseek f) s = execSseek f s := rfl
@[simp] theorem exec_kst (f : FmtE) (s : State) : exec (.kst f) s = execKst f s := rfl
@[simp] theorem exec_bgath (f : FmtE) (s : State) : exec (.bgath f) s = execBgath f s := rfl
@[simp] theorem exec_projld (f : FmtE) (s : State) : exec (.projld f) s = execProjld f s := rfl
@[simp] theorem exec_projldFree (f : FmtE) (s : State) : exec (.projldFree f) s = execProjldFree f s := rfl
@[simp] theorem exec_flpop (f : FmtE) (s : State) : exec (.flpop f) s = execFlpop f s := rfl
@[simp] theorem exec_flpush (f : FmtE) (s : State) : exec (.flpush f) s = execFlpush f s := rfl
@[simp] theorem exec_pfxfind (f : FmtE) (s : State) : exec (.pfxfind f) s = execPfxfind f s := rfl
@[simp] theorem exec_pfxins (f : FmtE) (s : State) : exec (.pfxins f) s = execPfxins f s := rfl
@[simp] theorem exec_hashb (f : FmtE) (s : State) : exec (.hashb f) s = execHashb f s := rfl
@[simp] theorem exec_plcq (f : FmtE) (s : State) : exec (.plcq f) s = execPlcq f s := rfl
@[simp] theorem exec_plcqShort (f : FmtE) (s : State) : exec (.plcqShort f) s = execPlcqShort f s := rfl
@[simp] theorem exec_epadd (f : FmtEp) (s : State) : exec (.epadd f) s = execEpadd f s := rfl
@[simp] theorem exec_epmul (f : FmtEp) (s : State) : exec (.epmul f) s = execEpmul f s := rfl
@[simp] theorem exec_epfma (f : FmtEp) (s : State) : exec (.epfma f) s = execEpfma f s := rfl
@[simp] theorem exec_epmax (f : FmtEp) (s : State) : exec (.epmax f) s = execEpmax f s := rfl
@[simp] theorem exec_epmin (f : FmtEp) (s : State) : exec (.epmin f) s = execEpmin f s := rfl
@[simp] theorem exec_epexp (f : FmtEp) (s : State) : exec (.epexp f) s = execEpexp f s := rfl
@[simp] theorem exec_eplut (f : FmtEp) (s : State) : exec (.eplut f) s = execEplut f s := rfl
@[simp] theorem exec_epcvt (f : FmtEp) (s : State) : exec (.epcvt f) s = execEpcvt f s := rfl
@[simp] theorem exec_epbias (f : FmtEp) (s : State) : exec (.epbias f) s = execEpbias f s := rfl
@[simp] theorem exec_epscl (f : FmtEp) (s : State) : exec (.epscl f) s = execEpscl f s := rfl
@[simp] theorem exec_epst (f : FmtEp) (s : State) : exec (.epst f) s = execEpst f s := rfl
@[simp] theorem exec_epend (s : State) : exec (.epend) s = execEpend s := rfl
@[simp] theorem exec_clauseBegin (r : Ref) (s : State) : exec (.clauseBegin r) s = execClauseBegin r s := rfl
@[simp] theorem exec_splitMerge (r : Ref) (other : Nat) (s : State) : exec (.splitMerge r other) s = execSplitMerge r other s := rfl
@[simp] theorem exec_mergeComplete (team : Nat) (group : Nat) (s : State) : exec (.mergeComplete team group) s = execMergeComplete team group s := rfl
@[simp] theorem exec_parkTimeout (r : Ref) (s : State) : exec (.parkTimeout r) s = execParkTimeout r s := rfl
@[simp] theorem exec_fairnessYield (r : Ref) (s : State) : exec (.fairnessYield r) s = execFairnessYield r s := rfl
@[simp] theorem exec_loadReturn (team : Nat) (op : Nat) (ext : List Byte) (s : State) : exec (.loadReturn team op ext) s = execLoadReturn team op ext s := rfl
@[simp] theorem exec_storePerformed (team : Nat) (op : Nat) (s : State) : exec (.storePerformed team op) s = execStorePerformed team op s := rfl
@[simp] theorem exec_splitExitComplete (r : Ref) (s : State) : exec (.splitExitComplete r) s = execSplitExitComplete r s := rfl
@[simp] theorem exec_matrixOpComplete (core : Nat) (op : Nat) (s : State) : exec (.matrixOpComplete core op) s = execMatrixOpComplete core op s := rfl
@[simp] theorem exec_matrixPassStart (core : Nat) (op : Nat) (s : State) : exec (.matrixPassStart core op) s = execMatrixPassStart core op s := rfl
@[simp] theorem exec_drainRow (core : Nat) (s : State) : exec (.drainRow core) s = execDrainRow core s := rfl
@[simp] theorem exec_epiloguePlaceTake (team : Nat) (place : Nat) (s : State) : exec (.epiloguePlaceTake team place) s = execEpiloguePlaceTake team place s := rfl
@[simp] theorem exec_copyComplete (team : Nat) (cmd : Nat) (s : State) : exec (.copyComplete team cmd) s = execCopyComplete team cmd s := rfl
@[simp] theorem exec_engineCommandStart (team : Nat) (cmd : Nat) (s : State) : exec (.engineCommandStart team cmd) s = execEngineCommandStart team cmd s := rfl
@[simp] theorem exec_engineCommandComplete (team : Nat) (cmd : Nat) (s : State) : exec (.engineCommandComplete team cmd) s = execEngineCommandComplete team cmd s := rfl
@[simp] theorem exec_bufferEntryTake (team : Nat) (cmd : Nat) (s : State) : exec (.bufferEntryTake team cmd) s = execBufferEntryTake team cmd s := rfl
@[simp] theorem exec_bufcfgTakeEffect (team : Nat) (cmd : Nat) (s : State) : exec (.bufcfgTakeEffect team cmd) s = execBufcfgTakeEffect team cmd s := rfl
@[simp] theorem exec_windlassRunStart (team : Nat) (s : State) : exec (.windlassRunStart team) s = execWindlassRunStart team s := rfl
@[simp] theorem exec_windlassIteration (team : Nat) (s : State) : exec (.windlassIteration team) s = execWindlassIteration team s := rfl
@[simp] theorem exec_qpullWake (r : Ref) (s : State) : exec (.qpullWake r) s = execQpullWake r s := rfl
@[simp] theorem exec_qpushAppend (team : Nat) (cmd : Nat) (s : State) : exec (.qpushAppend team cmd) s = execQpushAppend team cmd s := rfl
@[simp] theorem exec_projldTakeEffect (team : Nat) (cmd : Nat) (s : State) : exec (.projldTakeEffect team cmd) s = execProjldTakeEffect team cmd s := rfl
@[simp] theorem exec_dieSchedulerPlace (p : Placement) (s : State) : exec (.dieSchedulerPlace p) s = execDieSchedulerPlace p s := rfl
@[simp] theorem exec_taskBlocking (die : Nat) (task : Nat) (s : State) : exec (.taskBlocking die task) s = execTaskBlocking die task s := rfl
@[simp] theorem exec_starvationForcedPlacement (ctx : Nat) (p : Placement) (s : State) : exec (.starvationForcedPlacement ctx p) s = execStarvationForcedPlacement ctx p s := rfl
@[simp] theorem exec_teamCompletionEvent (team : Nat) (s : State) : exec (.teamCompletionEvent team) s = execTeamCompletionEvent team s := rfl
@[simp] theorem exec_graphRecordWritten (team : Nat) (cmd : Nat) (s : State) : exec (.graphRecordWritten team cmd) s = execGraphRecordWritten team cmd s := rfl
@[simp] theorem exec_graphNodeLaunch (p : Placement) (s : State) : exec (.graphNodeLaunch p) s = execGraphNodeLaunch p s := rfl
@[simp] theorem exec_graphFlushTimeout (p : Placement) (s : State) : exec (.graphFlushTimeout p) s = execGraphFlushTimeout p s := rfl
@[simp] theorem exec_hostTaskDoorbell (ctx : Nat) (rec : DWord) (s : State) : exec (.hostTaskDoorbell ctx rec) s = execHostTaskDoorbell ctx rec s := rfl
@[simp] theorem exec_stashRecall (team : Nat) (win : Nat) (line : Nat) (s : State) : exec (.stashRecall team win line) s = execStashRecall team win line s := rfl
@[simp] theorem exec_weathervaneDecay (die : Nat) (s : State) : exec (.weathervaneDecay die) s = execWeathervaneDecay die s := rfl
@[simp] theorem exec_migrationRequest (die : Nat) (ctx : Nat) (vpn : Nat) (s : State) : exec (.migrationRequest die ctx vpn) s = execMigrationRequest die ctx vpn s := rfl
@[simp] theorem exec_tlbInvalidateCommand (ctx : Nat) (lo : Nat) (len : Nat) (s : State) : exec (.tlbInvalidateCommand ctx lo len) s = execTlbInvalidateCommand ctx lo len s := rfl
@[simp] theorem exec_hostBar2Access (a : Bar2) (s : State) : exec (.hostBar2Access a) s = execHostBar2Access a s := rfl
@[simp] theorem exec_hostContextResume (ctx : Nat) (s : State) : exec (.hostContextResume ctx) s = execHostContextResume ctx s := rfl
@[simp] theorem exec_hostContextSwitch (ctx : Nat) (die : Nat) (s : State) : exec (.hostContextSwitch ctx die) s = execHostContextSwitch ctx die s := rfl
@[simp] theorem exec_contextEnd (ctx : Nat) (s : State) : exec (.contextEnd ctx) s = execContextEnd ctx s := rfl
@[simp] theorem exec_hostSetDebugMode (ctx : Nat) (mode : Nat) (breaks : List DWord) (s : State) : exec (.hostSetDebugMode ctx mode breaks) s = execHostSetDebugMode ctx mode breaks s := rfl
@[simp] theorem exec_teamStop (ctx : Nat) (team : Nat) (s : State) : exec (.teamStop ctx team) s = execTeamStop ctx team s := rfl
@[simp] theorem exec_hostSingleStep (r : Ref) (s : State) : exec (.hostSingleStep r) s = execHostSingleStep r s := rfl
@[simp] theorem exec_hostResumeGroup (team : Nat) (group : Nat) (s : State) : exec (.hostResumeGroup team group) s = execHostResumeGroup team group s := rfl
@[simp] theorem exec_frameReceive (chan seq : Nat) (ok : Bool) (s : State) : exec (.frameReceive chan seq ok) s = execFrameReceive chan seq ok s := rfl
@[simp] theorem exec_frameReplay (chan : Nat) (s : State) : exec (.frameReplay chan) s = execFrameReplay chan s := rfl
@[simp] theorem exec_channelRetire (chan : Nat) (s : State) : exec (.channelRetire chan) s = execChannelRetire chan s := rfl
@[simp] theorem exec_requestArrive (src : Nat) (dst : Nat) (seq : Nat) (s : State) : exec (.requestArrive src dst seq) s = execRequestArrive src dst seq s := rfl
@[simp] theorem exec_dieHeartbeatTimeout (die : Nat) (s : State) : exec (.dieHeartbeatTimeout die) s = execDieHeartbeatTimeout die s := rfl
@[simp] theorem exec_dieFatalError (die : Nat) (s : State) : exec (.dieFatalError die) s = execDieFatalError die s := rfl
@[simp] theorem exec_dieOvertemp (die : Nat) (s : State) : exec (.dieOvertemp die) s = execDieOvertemp die s := rfl
@[simp] theorem exec_wrapEffect (s : State) : exec (.wrapEffect) s = execWrapEffect s := rfl
@[simp] theorem exec_partitionReform (dev : Nat) (s : State) : exec (.partitionReform dev) s = execPartitionReform dev s := rfl
@[simp] theorem exec_hostDumpAck (s : State) : exec (.hostDumpAck) s = execHostDumpAck s := rfl
@[simp] theorem exec_partmodeRequest (value : Word) (s : State) : exec (.partmodeRequest value) s = execPartmodeRequest value s := rfl
@[simp] theorem exec_modeChangeComplete (s : State) : exec (.modeChangeComplete) s = execModeChangeComplete s := rfl
@[simp] theorem exec_modeChangeDrainTimeout (s : State) : exec (.modeChangeDrainTimeout) s = execModeChangeDrainTimeout s := rfl
@[simp] theorem exec_timeSyncMessage (die : Nat) (skew : Nat) (s : State) : exec (.timeSyncMessage die skew) s = execTimeSyncMessage die skew s := rfl
@[simp] theorem exec_timeMasterFailover (s : State) : exec (.timeMasterFailover) s = execTimeMasterFailover s := rfl
@[simp] theorem exec_powerOnBringup (stored : Nat) (failed : Nat) (s : State) : exec (.powerOnBringup stored failed) s = execPowerOnBringup stored failed s := rfl
@[simp] theorem exec_powerCapSet (watts : Nat) (s : State) : exec (.powerCapSet watts) s = execPowerCapSet watts s := rfl
@[simp] theorem exec_powerGating (matrix vector : List Nat) (s : State) : exec (.powerGating matrix vector) s = execPowerGating matrix vector s := rfl
@[simp] theorem exec_thermalLimit (s : State) : exec (.thermalLimit) s = execThermalLimit s := rfl
@[simp] theorem exec_firmwareBankSwitch (s : State) : exec (.firmwareBankSwitch) s = execFirmwareBankSwitch s := rfl
@[simp] theorem exec_mailboxCommand (m : Mailbox) (s : State) : exec (.mailboxCommand m) s = execMailboxCommand m s := rfl
@[simp] theorem exec_healthSample (corrected : Nat) (s : State) : exec (.healthSample corrected) s = execHealthSample corrected s := rfl
@[simp] theorem exec_lysjaWatchdogTakeover (s : State) : exec (.lysjaWatchdogTakeover) s = execLysjaWatchdogTakeover s := rfl
@[simp] theorem exec_laneFailure (core : Nat) (slot : Nat) (lane : Nat) (s : State) : exec (.laneFailure core slot lane) s = execLaneFailure core slot lane s := rfl
@[simp] theorem exec_eccCorrected (count : Nat) (s : State) : exec (.eccCorrected count) s = execEccCorrected count s := rfl
@[simp] theorem exec_eccUncorrectable (owner : Option Nat) (die : Nat) (kind : Nat) (s : State) : exec (.eccUncorrectable owner die kind) s = execEccUncorrectable owner die kind s := rfl
@[simp] theorem exec_ringTileArrive (cmd : Nat) (tile : Nat) (s : State) : exec (.ringTileArrive cmd tile) s = execRingTileArrive cmd tile s := rfl
@[simp] theorem exec_ringTileAccept (cmd : Nat) (tile : Nat) (s : State) : exec (.ringTileAccept cmd tile) s = execRingTileAccept cmd tile s := rfl
@[simp] theorem exec_rwaitSatisfied (r : Ref) (s : State) : exec (.rwaitSatisfied r) s = execRwaitSatisfied r s := rfl
@[simp] theorem exec_fabricSlotBegin (slot : Nat) (dark : List Nat) (s : State) : exec (.fabricSlotBegin slot dark) s = execFabricSlotBegin slot dark s := rfl
@[simp] theorem exec_slottabEnable (ctx : Nat) (value : DWord) (s : State) : exec (.slottabEnable ctx value) s = execSlottabEnable ctx value s := rfl
@[simp] theorem exec_slottabDisable (value : DWord) (s : State) : exec (.slottabDisable value) s = execSlottabDisable value s := rfl
@[simp] theorem exec_slotTableTakeEffect (s : State) : exec (.slotTableTakeEffect) s = execSlotTableTakeEffect s := rfl
@[simp] theorem exec_fabricPacketReceive (p : Packet) (s : State) : exec (.fabricPacketReceive p) s = execFabricPacketReceive p s := rfl
@[simp] theorem exec_relayForward (p : Packet) (s : State) : exec (.relayForward p) s = execRelayForward p s := rfl
@[simp] theorem exec_fabricAckReceive (queue : Nat) (epoch : Nat) (items : List AckItem) (s : State) : exec (.fabricAckReceive queue epoch items) s = execFabricAckReceive queue epoch items s := rfl
@[simp] theorem exec_fabricRetransmit (queue : Nat) (s : State) : exec (.fabricRetransmit queue) s = execFabricRetransmit queue s := rfl
@[simp] theorem exec_connectionReset (queue : Nat) (s : State) : exec (.connectionReset queue) s = execConnectionReset queue s := rfl
@[simp] theorem exec_rpostDeadline (queue : Nat) (s : State) : exec (.rpostDeadline queue) s = execRpostDeadline queue s := rfl
@[simp] theorem exec_rcqwSatisfied (queue : Nat) (s : State) : exec (.rcqwSatisfied queue) s = execRcqwSatisfied queue s := rfl
@[simp] theorem exec_channelIsolation (chan : Nat) (s : State) : exec (.channelIsolation chan) s = execChannelIsolation chan s := rfl
@[simp] theorem exec_systemRegisterWrite (die : Nat) (ctx : Nat) (id : Nat) (value : DWord) (s : State) : exec (.systemRegisterWrite die ctx id value) s = execSystemRegisterWrite die ctx id value s := rfl
@[simp] theorem exec_inServiceTest (core : Nat) (s : State) : exec (.inServiceTest core) s = execInServiceTest core s := rfl

end Sys2Proof.Machine
end

