-- ==== Sys2Proof/Laws/Mapped.lean ====
section
/-! SUPPORT. Ranges of virtual memory that lie in one place: pieces of one page, and a page that a TLB holds. -/
namespace Sys2Proof.Machine

/-- A range inside 4 KiB is one piece. -/
theorem pageChunks_one (va n : Nat) (h0 : 0 < n) (h : va % 4096 + n ≤ 4096) : pageChunks va n = [(va, n)] := by
  have h1 : (va % 4096 + n + 4095) / 4096 = 1 := by omega
  have h2 : max va (va / 4096 * 4096) = va := by omega
  have h3 : min (va + n) ((va / 4096 + 1) * 4096) = va + n := by omega
  unfold pageChunks
  rw [if_neg (by omega), h1]
  simp only [List.range_one, List.map_cons, List.map_nil, Nat.add_zero, h2, h3]
  simp

/-- A number below 2^57 has no bit of a non-canonical address. -/
theorem field_canonical (a : Nat) (h : a < 2 ^ 57) : field (BitVec.ofNat 64 a) 57 7 = 0 := by
  unfold field
  rw [BitVec.extractLsb'_toNat, BitVec.toNat_ofNat, Nat.shiftRight_eq_div_pow]
  omega

/-- A range inside 4 KiB of a page whose die-homed leaf with RD and WR a TLB holds is mapped, whatever memory holds (R182). -/
theorem mapped_of_tlb (s : State) (D : Nat → Prop) (die x va n : Nat) (e : DWord)
    (ht : mget? (s.die die).tlb (tlbKey x va) = some e) (hl : s.leafOk (ctxDevice x) e = true) (hr : e.getLsbD 1 = true)
    (hw : e.getLsbD 2 = true) (hf : field e 8 2 = 0) (hi : e.getLsbD 6 = false) (hp : va % 4096 + n ≤ 4096) (hv : va + n ≤ 2 ^ 57) :
    Mapped s D die x va n (hbmBase (field e 12 4) + field e 16 31 * 65536 + va % 65536) := by
  intro h _ k m need hm hk hx
  have hpc := pageChunks_one (va + k) m hm (by omega)
  have hkey : tlbKey x (va + k) = tlbKey x va := by unfold tlbKey; omega
  have hnat : (BitVec.ofNat 64 (va + k)).toNat = va + k := by rw [BitVec.toNat_ofNat]; omega
  have hwalk : State.walk { s with hbm := h } die x (va + k) = .leaf e := by
    unfold State.walk
    have hd : State.die { s with hbm := h } die = s.die die := rfl
    have hlo : State.leafOk { s with hbm := h } (ctxDevice x) e = s.leafOk (ctxDevice x) e := rfl
    rw [hd, hkey, ht]
    simp only [hlo, hl, if_true]
  have hplace : State.placeOf { s with hbm := h } x (va + k) e =
      some (.hbm (hbmBase (field e 12 4) + field e 16 31 * 65536 + va % 65536 + k)) := by
    unfold State.placeOf
    simp only [hf, hi, ne_eq, not_true_eq_false, if_false]
    have : (va + k) % 65536 = va % 65536 + k := by omega
    simp [this]
    omega
  have htr : State.translate { s with hbm := h } die x (BitVec.ofNat 64 (va + k)) need =
      .ok (.hbm (hbmBase (field e 12 4) + field e 16 31 * 65536 + va % 65536 + k)) e := by
    unfold State.translate State.checkLeaf
    rw [field_canonical _ (by omega), hnat, hwalk]
    simp only [ne_eq, not_true_eq_false, if_false, hr, hw, hx, hplace, Bool.not_true, Bool.and_false, Bool.or_self, Bool.false_and,
      Bool.false_eq_true]
  unfold State.span
  rw [hpc]
  simp only [List.foldlM_cons, List.foldlM_nil, htr, List.nil_append]
  rfl

end Sys2Proof.Machine
end

