-- ==== Sys2Proof/Laws/Maps.lean ====
section
/-! SUPPORT. The laws of finite maps and of the byte memories built on them: a read after a write, what a write leaves, and
that every operation keeps the canonical form. -/
namespace Sys2Proof.Machine

variable {α : Type}

/-- A lookup after a write; no order of the keys is needed. -/
theorem mget?_mput (m : SMap α) (k j : Nat) (v : α) : mget? (mput m k v) j = if k = j then some v else mget? m j := by
  induction m with
  | nil => simp [mput, mget?]
  | cons p t ih =>
    obtain ⟨k', v'⟩ := p
    by_cases h1 : k < k'
    · simp [mput, h1, mget?]
    · by_cases h2 : k = k'
      · subst h2; by_cases h3 : k = j <;> simp [mput, mget?, h3]
      · by_cases h3 : k' = j
        · have : k ≠ j := by omega
          simp only [mput, if_neg h1, if_neg h2, mget?, if_pos h3, if_neg this]
        · simp only [mput, if_neg h1, if_neg h2, mget?, if_neg h3, ih]

@[simp] theorem mget?_mput_self (m : SMap α) (k : Nat) (v : α) : mget? (mput m k v) k = some v := by simp [mget?_mput]

/-- A lookup with a default after a write. -/
theorem mget_mput (d : α) (m : SMap α) (k j : Nat) (v : α) : mget d (mput m k v) j = if k = j then v else mget d m j := by
  unfold mget; rw [mget?_mput]; split <;> rfl

/-- A lookup after a change in place. -/
theorem mget?_mmod (m : SMap α) (k j : Nat) (f : α → α) :
    mget? (mmod m k f) j = if k = j then (mget? m j).map f else mget? m j := by
  induction m with
  | nil => simp [mmod, mget?]
  | cons p t ih =>
    obtain ⟨k', v'⟩ := p
    have ih' : mget? (List.map (fun p : Nat × α => if p.1 = k then (p.1, f p.2) else p) t) j =
        if k = j then (mget? t j).map f else mget? t j := ih
    by_cases h1 : k' = k <;> by_cases h2 : k' = j
    · subst h1; subst h2; simp [mmod, mget?]
    · simp only [mmod, List.map_cons, if_pos h1, mget?, if_neg h2, ih']
    · have h3 : k ≠ j := by omega
      simp only [mmod, List.map_cons, if_neg h1, mget?, if_pos h2, if_neg h3]
    · simp only [mmod, List.map_cons, if_neg h1, mget?, if_neg h2, ih']

/-- A lookup after a change of every value. -/
theorem mget?_mmap (m : SMap α) (j : Nat) (f : α → α) : mget? (mmap m f) j = (mget? m j).map f := by
  induction m with
  | nil => rfl
  | cons p t ih =>
    obtain ⟨k', v'⟩ := p
    by_cases h : k' = j
    · simp [mmap, mget?, h]
    · simpa [mmap, mget?, h] using ih

/-- A key below every key of a map is not listed. -/
theorem mget?_below (m : SMap α) (k : Nat) (h : mwf m = true) (hk : ∀ p, m.head? = some p → k < p.1) : mget? m k = none := by
  induction m with
  | nil => rfl
  | cons p t ih =>
    obtain ⟨k', v'⟩ := p
    have hlt : k < k' := hk _ rfl
    have hne : k' ≠ k := by omega
    simp only [mget?, if_neg hne]
    apply ih
    · cases t with
      | nil => rfl
      | cons q t => obtain ⟨k2, v2⟩ := q; simp only [mwf, Bool.and_eq_true] at h; exact h.2
    · intro q hq
      cases t with
      | nil => cases hq
      | cons q' t =>
        obtain ⟨k2, v2⟩ := q'
        simp only [List.head?_cons, Option.some.injEq] at hq
        subst hq
        simp only [mwf, Bool.and_eq_true, decide_eq_true_eq] at h
        show k < k2
        omega

/-- The tail of a map with rising keys has rising keys. -/
theorem mwf_tail (p : Nat × α) (t : SMap α) (h : mwf (p :: t) = true) : mwf t = true := by
  cases t with
  | nil => rfl
  | cons q t => obtain ⟨k, v⟩ := p; obtain ⟨k2, v2⟩ := q; simp only [mwf, Bool.and_eq_true] at h; exact h.2

/-- Every key of a map with rising keys lies above its first. -/
theorem mwf_head (p q : Nat × α) (t : SMap α) (h : mwf (p :: t) = true) (hq : t.head? = some q) : p.1 < q.1 := by
  cases t with
  | nil => cases hq
  | cons r t =>
    obtain ⟨k, v⟩ := p; obtain ⟨k2, v2⟩ := r
    simp only [List.head?_cons, Option.some.injEq] at hq
    subst hq
    simp only [mwf, Bool.and_eq_true, decide_eq_true_eq] at h
    exact h.1

/-- A map with rising keys, from its first key and its tail. -/
theorem mwf_cons (p : Nat × α) (t : SMap α) (h : mwf t = true) (hp : ∀ q, t.head? = some q → p.1 < q.1) : mwf (p :: t) = true := by
  cases t with
  | nil => rfl
  | cons r t =>
    obtain ⟨k, v⟩ := p; obtain ⟨k2, v2⟩ := r
    simp only [mwf, Bool.and_eq_true, decide_eq_true_eq]
    exact ⟨hp _ rfl, h⟩

/-- A lookup after a removal. -/
theorem mget?_mdel (m : SMap α) (k j : Nat) (h : mwf m = true) : mget? (mdel m k) j = if k = j then none else mget? m j := by
  induction m with
  | nil => simp [mdel, mget?]
  | cons p t ih =>
    have ih := ih (mwf_tail p t h)
    have hh := fun q hq => mwf_head p q t h hq
    obtain ⟨k', v'⟩ := p
    simp only [mdel]
    split
    · rename_i h1
      by_cases h2 : k = j
      · subst h2; simp only [if_true]
        exact mget?_below _ _ h (fun q hq => by simp only [List.head?_cons, Option.some.injEq] at hq; subst hq; exact h1)
      · simp [h2]
    · split
      · rename_i h1 h2
        subst h2
        by_cases h3 : k = j
        · subst h3; simp only [if_true]
          exact mget?_below _ _ (mwf_tail _ _ h) hh
        · simp [mget?, h3]
      · rename_i h1 h2
        by_cases h3 : k' = j
        · have : k ≠ j := by omega
          simp [mget?, h3, this]
        · simp [mget?, h3, ih]

/-- The first key after a write is the key written or the first from before. -/
theorem mput_head (m : SMap α) (k : Nat) (v : α) (q : Nat × α) (h : (mput m k v).head? = some q) :
    q.1 = k ∨ ∃ r, m.head? = some r ∧ q.1 = r.1 := by
  cases m with
  | nil => simp [mput] at h; subst h; exact .inl rfl
  | cons p t =>
    obtain ⟨k', v'⟩ := p
    simp only [mput] at h
    split at h
    · simp at h; subst h; exact .inl rfl
    · split at h
      · simp at h; subst h; exact .inl rfl
      · simp at h; subst h; exact .inr ⟨_, rfl, rfl⟩

/-- A write keeps the keys rising. -/
theorem mwf_mput (m : SMap α) (k : Nat) (v : α) (h : mwf m = true) : mwf (mput m k v) = true := by
  induction m with
  | nil => rfl
  | cons p t ih =>
    have ht := ih (mwf_tail p t h)
    have hh := fun q hq => mwf_head p q t h hq
    obtain ⟨k', v'⟩ := p
    simp only [mput]
    split
    · exact mwf_cons _ _ h (fun q hq => by simp at hq; subst hq; assumption)
    · split
      · rename_i h2; subst h2
        exact mwf_cons _ _ (mwf_tail _ _ h) hh
      · rename_i h1 h2
        refine mwf_cons _ _ ht (fun q hq => ?_)
        rcases mput_head t k v q hq with h3 | ⟨r, hr, h3⟩
        · show k' < q.1; omega
        · have := hh r hr; show k' < q.1; simp at this; omega

/-- The first key after a removal is not below the first from before. -/
theorem mdel_head (m : SMap α) (k : Nat) (q : Nat × α) (h : mwf m = true) (hq : (mdel m k).head? = some q) :
    ∃ r, m.head? = some r ∧ r.1 ≤ q.1 := by
  cases m with
  | nil => cases hq
  | cons p t =>
    have hh := fun q hq => mwf_head p q t h hq
    obtain ⟨k', v'⟩ := p
    refine ⟨_, rfl, ?_⟩
    simp only [mdel] at hq
    split at hq
    · simp at hq; subst hq; exact Nat.le_refl _
    · split at hq
      · exact Nat.le_of_lt (hh q hq)
      · simp at hq; subst hq; exact Nat.le_refl _

/-- A removal keeps the keys rising. -/
theorem mwf_mdel (m : SMap α) (k : Nat) (h : mwf m = true) : mwf (mdel m k) = true := by
  induction m with
  | nil => rfl
  | cons p t ih =>
    have ht := ih (mwf_tail p t h)
    have hh := fun q hq => mwf_head p q t h hq
    have h0 := mwf_tail p t h
    obtain ⟨k', v'⟩ := p
    simp only [mdel]
    split
    · exact h
    · split
      · exact h0
      · refine mwf_cons _ _ ht (fun q hq => ?_)
        obtain ⟨r, hr, h3⟩ := mdel_head t k q h0 hq
        have := hh r hr
        simp at this
        show k' < q.1
        omega

/-! ### Byte memories -/

theorem all_mput (m : SMap α) (k : Nat) (v : α) (f : Nat × α → Bool) (h : m.all f = true) (hv : f (k, v) = true) :
    (mput m k v).all f = true := by
  induction m with
  | nil => simp [mput, hv]
  | cons p t ih =>
    obtain ⟨k', v'⟩ := p
    simp only [List.all_cons, Bool.and_eq_true] at h
    simp only [mput]
    split
    · simp [hv, h.1, h.2]
    · split
      · simp [hv, h.2]
      · simp [h.1, ih h.2]

theorem all_mdel (m : SMap α) (k : Nat) (f : Nat × α → Bool) (h : m.all f = true) : (mdel m k).all f = true := by
  induction m with
  | nil => rfl
  | cons p t ih =>
    obtain ⟨k', v'⟩ := p
    simp only [List.all_cons, Bool.and_eq_true] at h
    simp only [mdel]
    split
    · simp [h.1, h.2]
    · split
      · exact h.2
      · simp [h.1, ih h.2]

/-- A read of one byte after a write of one byte, of a memory in canonical form. -/
theorem rdByte_wrByte (m : Memory) (a b : Nat) (v : Byte) (h : Memory.wf m = true) :
    rdByte (wrByte m a v) b = if a = b then v else rdByte m b := by
  have hw : mwf m = true := by simp only [Memory.wf, Bool.and_eq_true] at h; exact h.1
  unfold wrByte rdByte mget
  split
  · rename_i hv; subst hv; rw [mget?_mdel m a b hw]; split <;> rfl
  · rw [mget?_mput]; split <;> rfl

/-- A write of one byte keeps the canonical form. -/
theorem wf_wrByte (m : Memory) (a : Nat) (v : Byte) (h : Memory.wf m = true) : Memory.wf (wrByte m a v) = true := by
  simp only [Memory.wf, Bool.and_eq_true] at h ⊢
  unfold wrByte
  split
  · exact ⟨mwf_mdel _ _ h.1, all_mdel _ _ _ h.2⟩
  · rename_i hv
    refine ⟨mwf_mput _ _ _ h.1, all_mput _ _ _ _ h.2 ?_⟩
    simpa using hv

/-- A write of any bytes keeps the canonical form. -/
theorem wf_wrBytes (m : Memory) (a : Nat) (bs : List Byte) (h : Memory.wf m = true) : Memory.wf (wrBytes m a bs) = true := by
  induction bs generalizing m a with
  | nil => exact h
  | cons b bs ih => exact ih _ _ (wf_wrByte m a b h)

/-- A read of one byte after a write of bytes. -/
theorem rdByte_wrBytes (m : Memory) (a b : Nat) (bs : List Byte) (h : Memory.wf m = true) :
    rdByte (wrBytes m a bs) b = if a ≤ b ∧ b < a + bs.length then bs[b - a]?.getD 0 else rdByte m b := by
  induction bs generalizing m a with
  | nil =>
    have : ¬ (a ≤ b ∧ b < a + ([] : List Byte).length) := by simp
    rw [if_neg this]; rfl
  | cons c bs ih =>
    have hx := ih (wrByte m a c) (a + 1) (wf_wrByte m a c h)
    show rdByte (wrBytes (wrByte m a c) (a + 1) bs) b = _
    rw [hx, rdByte_wrByte m a b c h]
    by_cases h1 : a = b
    · subst h1
      have h2 : ¬ (a + 1 ≤ a ∧ a < a + 1 + bs.length) := by omega
      rw [if_neg h2]
      simp
    · by_cases h3 : a + 1 ≤ b ∧ b < a + 1 + bs.length
      · have h4 : a ≤ b ∧ b < a + (c :: bs).length := by simp only [List.length_cons]; omega
        rw [if_pos h3, if_pos h4]
        have : b - a = (b - (a + 1)) + 1 := by omega
        rw [this]; simp
      · have h4 : ¬ (a ≤ b ∧ b < a + (c :: bs).length) := by simp only [List.length_cons]; omega
        rw [if_neg h3, if_neg h4, if_neg h1]

/-- A memory with some bytes taken out keeps the canonical form. -/
theorem mwf_filter (m : SMap α) (f : Nat × α → Bool) (h : mwf m = true) : mwf (m.filter f) = true ∧
    ∀ q, (m.filter f).head? = some q → ∃ r, m.head? = some r ∧ r.1 ≤ q.1 := by
  induction m with
  | nil => exact ⟨rfl, fun q hq => by cases hq⟩
  | cons p t ih =>
    have ht := ih (mwf_tail p t h)
    have hh := fun q hq => mwf_head p q t h hq
    simp only [List.filter]
    split
    · refine ⟨mwf_cons _ _ ht.1 (fun q hq => ?_), fun q hq => ⟨p, rfl, ?_⟩⟩
      · obtain ⟨r, hr, hle⟩ := ht.2 q hq
        have := hh r hr
        omega
      · simp at hq; subst hq; exact Nat.le_refl _
    · refine ⟨ht.1, fun q hq => ⟨p, rfl, ?_⟩⟩
      obtain ⟨r, hr, hle⟩ := ht.2 q hq
      have := hh r hr
      omega

theorem wf_filter (m : Memory) (f : Host.Cell → Bool) (h : Memory.wf m = true) : Memory.wf (m.filter f) = true := by
  simp only [Memory.wf, Bool.and_eq_true] at h ⊢
  refine ⟨(mwf_filter m f h.1).1, ?_⟩
  simp only [List.all_eq_true, List.mem_filter] at h ⊢
  exact fun x hx => h.2 x hx.1

/-- The bytes of a number are as many as are asked for. -/
theorem bytesOfNat_length (n v : Nat) : (bytesOfNat n v).length = n := by
  induction n generalizing v with
  | zero => rfl
  | succ n ih => simp [bytesOfNat, ih]

/-- The number that the bytes of a number hold. -/
theorem natOfBytes_bytesOfNat (n v : Nat) : natOfBytes (bytesOfNat n v) = v % 256 ^ n := by
  induction n generalizing v with
  | zero => simp [bytesOfNat, natOfBytes, Nat.mod_one]
  | succ n ih =>
    simp only [bytesOfNat, natOfBytes, ih, BitVec.toNat_ofNat]
    exact (show v % 256 ^ (n + 1) = v % 256 + 256 * (v / 256 % 256 ^ n) by rw [Nat.pow_succ', Nat.mod_mul]).symm

/-- Bytes read where they were written. -/
theorem rdBytes_wrBytes (m : Memory) (a : Nat) (bs : List Byte) (h : Memory.wf m = true) :
    rdBytes (wrBytes m a bs) a bs.length = bs := by
  apply List.ext_getElem
  · simp [rdBytes]
  · intro i h1 h2
    have h3 : i < bs.length := h2
    simp [rdBytes, rdByte_wrBytes _ _ _ _ h, h3]

end Sys2Proof.Machine
end

