-- ==== Sys2Proof/Laws/State.lean ====
section
/-! SUPPORT. What each update of a record leaves as it was, and what it sets: one lemma for each field of each update, true by
unfolding the update once, so that no proof unfolds a record update. -/
namespace Sys2Proof.Machine

/-! ### `s.put c` -/

@[simp] theorem State.put_agenda (s : State) (c : Cur) : (s.put c).agenda = s.agenda := rfl
@[simp] theorem State.put_turn (s : State) (c : Cur) : (s.put c).turn = s.turn := rfl
@[simp] theorem State.put_free (s : State) (c : Cur) : (s.put c).free = s.free := rfl
@[simp] theorem State.put_nextId (s : State) (c : Cur) : (s.put c).nextId = s.nextId := rfl
@[simp] theorem State.put_hbm (s : State) (c : Cur) : (s.put c).hbm = s.hbm := rfl
@[simp] theorem State.put_owned (s : State) (c : Cur) : (s.put c).owned = s.owned := rfl
@[simp] theorem State.put_wbuf (s : State) (c : Cur) : (s.put c).wbuf = s.wbuf := rfl
@[simp] theorem State.put_views (s : State) (c : Cur) : (s.put c).views = s.views := rfl
@[simp] theorem State.put_dies (s : State) (c : Cur) : (s.put c).dies = s.dies := rfl
@[simp] theorem State.put_cores (s : State) (c : Cur) : (s.put c).cores = s.cores := rfl
@[simp] theorem State.put_ctxs (s : State) (c : Cur) : (s.put c).ctxs = s.ctxs := rfl
@[simp] theorem State.put_tasks (s : State) (c : Cur) : (s.put c).tasks = s.tasks := rfl
@[simp] theorem State.put_teams (s : State) (c : Cur) : (s.put c).teams = mput s.teams c.ref.team c.newTeam := rfl
@[simp] theorem State.put_tiles (s : State) (c : Cur) : (s.put c).tiles = s.tiles := rfl
@[simp] theorem State.put_fab (s : State) (c : Cur) : (s.put c).fab = s.fab := rfl
@[simp] theorem State.put_mgmt (s : State) (c : Cur) : (s.put c).mgmt = s.mgmt := rfl

/-! ### `s.modTeam t f` -/

@[simp] theorem State.modTeam_agenda (s : State) (t : Nat) (f : Team → Team) : (s.modTeam t f).agenda = s.agenda := rfl
@[simp] theorem State.modTeam_turn (s : State) (t : Nat) (f : Team → Team) : (s.modTeam t f).turn = s.turn := rfl
@[simp] theorem State.modTeam_free (s : State) (t : Nat) (f : Team → Team) : (s.modTeam t f).free = s.free := rfl
@[simp] theorem State.modTeam_nextId (s : State) (t : Nat) (f : Team → Team) : (s.modTeam t f).nextId = s.nextId := rfl
@[simp] theorem State.modTeam_hbm (s : State) (t : Nat) (f : Team → Team) : (s.modTeam t f).hbm = s.hbm := rfl
@[simp] theorem State.modTeam_owned (s : State) (t : Nat) (f : Team → Team) : (s.modTeam t f).owned = s.owned := rfl
@[simp] theorem State.modTeam_wbuf (s : State) (t : Nat) (f : Team → Team) : (s.modTeam t f).wbuf = s.wbuf := rfl
@[simp] theorem State.modTeam_views (s : State) (t : Nat) (f : Team → Team) : (s.modTeam t f).views = s.views := rfl
@[simp] theorem State.modTeam_dies (s : State) (t : Nat) (f : Team → Team) : (s.modTeam t f).dies = s.dies := rfl
@[simp] theorem State.modTeam_cores (s : State) (t : Nat) (f : Team → Team) : (s.modTeam t f).cores = s.cores := rfl
@[simp] theorem State.modTeam_ctxs (s : State) (t : Nat) (f : Team → Team) : (s.modTeam t f).ctxs = s.ctxs := rfl
@[simp] theorem State.modTeam_tasks (s : State) (t : Nat) (f : Team → Team) : (s.modTeam t f).tasks = s.tasks := rfl
@[simp] theorem State.modTeam_teams (s : State) (t : Nat) (f : Team → Team) : (s.modTeam t f).teams = mmod s.teams t f := rfl
@[simp] theorem State.modTeam_tiles (s : State) (t : Nat) (f : Team → Team) : (s.modTeam t f).tiles = s.tiles := rfl
@[simp] theorem State.modTeam_fab (s : State) (t : Nat) (f : Team → Team) : (s.modTeam t f).fab = s.fab := rfl
@[simp] theorem State.modTeam_mgmt (s : State) (t : Nat) (f : Team → Team) : (s.modTeam t f).mgmt = s.mgmt := rfl

/-! ### `s.modGroup t g f` -/

@[simp] theorem State.modGroup_agenda (s : State) (t g : Nat) (f : Group → Group) : (s.modGroup t g f).agenda = s.agenda := rfl
@[simp] theorem State.modGroup_turn (s : State) (t g : Nat) (f : Group → Group) : (s.modGroup t g f).turn = s.turn := rfl
@[simp] theorem State.modGroup_free (s : State) (t g : Nat) (f : Group → Group) : (s.modGroup t g f).free = s.free := rfl
@[simp] theorem State.modGroup_nextId (s : State) (t g : Nat) (f : Group → Group) : (s.modGroup t g f).nextId = s.nextId := rfl
@[simp] theorem State.modGroup_hbm (s : State) (t g : Nat) (f : Group → Group) : (s.modGroup t g f).hbm = s.hbm := rfl
@[simp] theorem State.modGroup_owned (s : State) (t g : Nat) (f : Group → Group) : (s.modGroup t g f).owned = s.owned := rfl
@[simp] theorem State.modGroup_wbuf (s : State) (t g : Nat) (f : Group → Group) : (s.modGroup t g f).wbuf = s.wbuf := rfl
@[simp] theorem State.modGroup_views (s : State) (t g : Nat) (f : Group → Group) : (s.modGroup t g f).views = s.views := rfl
@[simp] theorem State.modGroup_dies (s : State) (t g : Nat) (f : Group → Group) : (s.modGroup t g f).dies = s.dies := rfl
@[simp] theorem State.modGroup_cores (s : State) (t g : Nat) (f : Group → Group) : (s.modGroup t g f).cores = s.cores := rfl
@[simp] theorem State.modGroup_ctxs (s : State) (t g : Nat) (f : Group → Group) : (s.modGroup t g f).ctxs = s.ctxs := rfl
@[simp] theorem State.modGroup_tasks (s : State) (t g : Nat) (f : Group → Group) : (s.modGroup t g f).tasks = s.tasks := rfl
@[simp] theorem State.modGroup_teams (s : State) (t g : Nat) (f : Group → Group) : (s.modGroup t g f).teams = mmod s.teams t fun y => { y with groups := mmod y.groups g f } := rfl
@[simp] theorem State.modGroup_tiles (s : State) (t g : Nat) (f : Group → Group) : (s.modGroup t g f).tiles = s.tiles := rfl
@[simp] theorem State.modGroup_fab (s : State) (t g : Nat) (f : Group → Group) : (s.modGroup t g f).fab = s.fab := rfl
@[simp] theorem State.modGroup_mgmt (s : State) (t g : Nat) (f : Group → Group) : (s.modGroup t g f).mgmt = s.mgmt := rfl

/-! ### `s.modDie d f` -/

@[simp] theorem State.modDie_agenda (s : State) (d : Nat) (f : Die → Die) : (s.modDie d f).agenda = s.agenda := rfl
@[simp] theorem State.modDie_turn (s : State) (d : Nat) (f : Die → Die) : (s.modDie d f).turn = s.turn := rfl
@[simp] theorem State.modDie_free (s : State) (d : Nat) (f : Die → Die) : (s.modDie d f).free = s.free := rfl
@[simp] theorem State.modDie_nextId (s : State) (d : Nat) (f : Die → Die) : (s.modDie d f).nextId = s.nextId := rfl
@[simp] theorem State.modDie_hbm (s : State) (d : Nat) (f : Die → Die) : (s.modDie d f).hbm = s.hbm := rfl
@[simp] theorem State.modDie_owned (s : State) (d : Nat) (f : Die → Die) : (s.modDie d f).owned = s.owned := rfl
@[simp] theorem State.modDie_wbuf (s : State) (d : Nat) (f : Die → Die) : (s.modDie d f).wbuf = s.wbuf := rfl
@[simp] theorem State.modDie_views (s : State) (d : Nat) (f : Die → Die) : (s.modDie d f).views = s.views := rfl
@[simp] theorem State.modDie_dies (s : State) (d : Nat) (f : Die → Die) : (s.modDie d f).dies = mput s.dies d (f (s.die d)) := rfl
@[simp] theorem State.modDie_cores (s : State) (d : Nat) (f : Die → Die) : (s.modDie d f).cores = s.cores := rfl
@[simp] theorem State.modDie_ctxs (s : State) (d : Nat) (f : Die → Die) : (s.modDie d f).ctxs = s.ctxs := rfl
@[simp] theorem State.modDie_tasks (s : State) (d : Nat) (f : Die → Die) : (s.modDie d f).tasks = s.tasks := rfl
@[simp] theorem State.modDie_teams (s : State) (d : Nat) (f : Die → Die) : (s.modDie d f).teams = s.teams := rfl
@[simp] theorem State.modDie_tiles (s : State) (d : Nat) (f : Die → Die) : (s.modDie d f).tiles = s.tiles := rfl
@[simp] theorem State.modDie_fab (s : State) (d : Nat) (f : Die → Die) : (s.modDie d f).fab = s.fab := rfl
@[simp] theorem State.modDie_mgmt (s : State) (d : Nat) (f : Die → Die) : (s.modDie d f).mgmt = s.mgmt := rfl

/-! ### `s.modCore k f` -/

@[simp] theorem State.modCore_agenda (s : State) (k : Nat) (f : CoreSt → CoreSt) : (s.modCore k f).agenda = s.agenda := rfl
@[simp] theorem State.modCore_turn (s : State) (k : Nat) (f : CoreSt → CoreSt) : (s.modCore k f).turn = s.turn := rfl
@[simp] theorem State.modCore_free (s : State) (k : Nat) (f : CoreSt → CoreSt) : (s.modCore k f).free = s.free := rfl
@[simp] theorem State.modCore_nextId (s : State) (k : Nat) (f : CoreSt → CoreSt) : (s.modCore k f).nextId = s.nextId := rfl
@[simp] theorem State.modCore_hbm (s : State) (k : Nat) (f : CoreSt → CoreSt) : (s.modCore k f).hbm = s.hbm := rfl
@[simp] theorem State.modCore_owned (s : State) (k : Nat) (f : CoreSt → CoreSt) : (s.modCore k f).owned = s.owned := rfl
@[simp] theorem State.modCore_wbuf (s : State) (k : Nat) (f : CoreSt → CoreSt) : (s.modCore k f).wbuf = s.wbuf := rfl
@[simp] theorem State.modCore_views (s : State) (k : Nat) (f : CoreSt → CoreSt) : (s.modCore k f).views = s.views := rfl
@[simp] theorem State.modCore_dies (s : State) (k : Nat) (f : CoreSt → CoreSt) : (s.modCore k f).dies = s.dies := rfl
@[simp] theorem State.modCore_cores (s : State) (k : Nat) (f : CoreSt → CoreSt) : (s.modCore k f).cores = mput s.cores k (f (s.core k)) := rfl
@[simp] theorem State.modCore_ctxs (s : State) (k : Nat) (f : CoreSt → CoreSt) : (s.modCore k f).ctxs = s.ctxs := rfl
@[simp] theorem State.modCore_tasks (s : State) (k : Nat) (f : CoreSt → CoreSt) : (s.modCore k f).tasks = s.tasks := rfl
@[simp] theorem State.modCore_teams (s : State) (k : Nat) (f : CoreSt → CoreSt) : (s.modCore k f).teams = s.teams := rfl
@[simp] theorem State.modCore_tiles (s : State) (k : Nat) (f : CoreSt → CoreSt) : (s.modCore k f).tiles = s.tiles := rfl
@[simp] theorem State.modCore_fab (s : State) (k : Nat) (f : CoreSt → CoreSt) : (s.modCore k f).fab = s.fab := rfl
@[simp] theorem State.modCore_mgmt (s : State) (k : Nat) (f : CoreSt → CoreSt) : (s.modCore k f).mgmt = s.mgmt := rfl

/-! ### `s.modCtx x f` -/

@[simp] theorem State.modCtx_agenda (s : State) (x : Nat) (f : Context → Context) : (s.modCtx x f).agenda = s.agenda := rfl
@[simp] theorem State.modCtx_turn (s : State) (x : Nat) (f : Context → Context) : (s.modCtx x f).turn = s.turn := rfl
@[simp] theorem State.modCtx_free (s : State) (x : Nat) (f : Context → Context) : (s.modCtx x f).free = s.free := rfl
@[simp] theorem State.modCtx_nextId (s : State) (x : Nat) (f : Context → Context) : (s.modCtx x f).nextId = s.nextId := rfl
@[simp] theorem State.modCtx_hbm (s : State) (x : Nat) (f : Context → Context) : (s.modCtx x f).hbm = s.hbm := rfl
@[simp] theorem State.modCtx_owned (s : State) (x : Nat) (f : Context → Context) : (s.modCtx x f).owned = s.owned := rfl
@[simp] theorem State.modCtx_wbuf (s : State) (x : Nat) (f : Context → Context) : (s.modCtx x f).wbuf = s.wbuf := rfl
@[simp] theorem State.modCtx_views (s : State) (x : Nat) (f : Context → Context) : (s.modCtx x f).views = s.views := rfl
@[simp] theorem State.modCtx_dies (s : State) (x : Nat) (f : Context → Context) : (s.modCtx x f).dies = s.dies := rfl
@[simp] theorem State.modCtx_cores (s : State) (x : Nat) (f : Context → Context) : (s.modCtx x f).cores = s.cores := rfl
@[simp] theorem State.modCtx_ctxs (s : State) (x : Nat) (f : Context → Context) : (s.modCtx x f).ctxs = mput s.ctxs x (f (s.ctx x)) := rfl
@[simp] theorem State.modCtx_tasks (s : State) (x : Nat) (f : Context → Context) : (s.modCtx x f).tasks = s.tasks := rfl
@[simp] theorem State.modCtx_teams (s : State) (x : Nat) (f : Context → Context) : (s.modCtx x f).teams = s.teams := rfl
@[simp] theorem State.modCtx_tiles (s : State) (x : Nat) (f : Context → Context) : (s.modCtx x f).tiles = s.tiles := rfl
@[simp] theorem State.modCtx_fab (s : State) (x : Nat) (f : Context → Context) : (s.modCtx x f).fab = s.fab := rfl
@[simp] theorem State.modCtx_mgmt (s : State) (x : Nat) (f : Context → Context) : (s.modCtx x f).mgmt = s.mgmt := rfl

/-! ### `s.modTask k f` -/

@[simp] theorem State.modTask_agenda (s : State) (k : Nat) (f : Task → Task) : (s.modTask k f).agenda = s.agenda := rfl
@[simp] theorem State.modTask_turn (s : State) (k : Nat) (f : Task → Task) : (s.modTask k f).turn = s.turn := rfl
@[simp] theorem State.modTask_free (s : State) (k : Nat) (f : Task → Task) : (s.modTask k f).free = s.free := rfl
@[simp] theorem State.modTask_nextId (s : State) (k : Nat) (f : Task → Task) : (s.modTask k f).nextId = s.nextId := rfl
@[simp] theorem State.modTask_hbm (s : State) (k : Nat) (f : Task → Task) : (s.modTask k f).hbm = s.hbm := rfl
@[simp] theorem State.modTask_owned (s : State) (k : Nat) (f : Task → Task) : (s.modTask k f).owned = s.owned := rfl
@[simp] theorem State.modTask_wbuf (s : State) (k : Nat) (f : Task → Task) : (s.modTask k f).wbuf = s.wbuf := rfl
@[simp] theorem State.modTask_views (s : State) (k : Nat) (f : Task → Task) : (s.modTask k f).views = s.views := rfl
@[simp] theorem State.modTask_dies (s : State) (k : Nat) (f : Task → Task) : (s.modTask k f).dies = s.dies := rfl
@[simp] theorem State.modTask_cores (s : State) (k : Nat) (f : Task → Task) : (s.modTask k f).cores = s.cores := rfl
@[simp] theorem State.modTask_ctxs (s : State) (k : Nat) (f : Task → Task) : (s.modTask k f).ctxs = s.ctxs := rfl
@[simp] theorem State.modTask_tasks (s : State) (k : Nat) (f : Task → Task) : (s.modTask k f).tasks = mmod s.tasks k f := rfl
@[simp] theorem State.modTask_teams (s : State) (k : Nat) (f : Task → Task) : (s.modTask k f).teams = s.teams := rfl
@[simp] theorem State.modTask_tiles (s : State) (k : Nat) (f : Task → Task) : (s.modTask k f).tiles = s.tiles := rfl
@[simp] theorem State.modTask_fab (s : State) (k : Nat) (f : Task → Task) : (s.modTask k f).fab = s.fab := rfl
@[simp] theorem State.modTask_mgmt (s : State) (k : Nat) (f : Task → Task) : (s.modTask k f).mgmt = s.mgmt := rfl

/-! ### `s.modMgmt f` -/

@[simp] theorem State.modMgmt_agenda (s : State) (f : Mgmt → Mgmt) : (s.modMgmt f).agenda = s.agenda := rfl
@[simp] theorem State.modMgmt_turn (s : State) (f : Mgmt → Mgmt) : (s.modMgmt f).turn = s.turn := rfl
@[simp] theorem State.modMgmt_free (s : State) (f : Mgmt → Mgmt) : (s.modMgmt f).free = s.free := rfl
@[simp] theorem State.modMgmt_nextId (s : State) (f : Mgmt → Mgmt) : (s.modMgmt f).nextId = s.nextId := rfl
@[simp] theorem State.modMgmt_hbm (s : State) (f : Mgmt → Mgmt) : (s.modMgmt f).hbm = s.hbm := rfl
@[simp] theorem State.modMgmt_owned (s : State) (f : Mgmt → Mgmt) : (s.modMgmt f).owned = s.owned := rfl
@[simp] theorem State.modMgmt_wbuf (s : State) (f : Mgmt → Mgmt) : (s.modMgmt f).wbuf = s.wbuf := rfl
@[simp] theorem State.modMgmt_views (s : State) (f : Mgmt → Mgmt) : (s.modMgmt f).views = s.views := rfl
@[simp] theorem State.modMgmt_dies (s : State) (f : Mgmt → Mgmt) : (s.modMgmt f).dies = s.dies := rfl
@[simp] theorem State.modMgmt_cores (s : State) (f : Mgmt → Mgmt) : (s.modMgmt f).cores = s.cores := rfl
@[simp] theorem State.modMgmt_ctxs (s : State) (f : Mgmt → Mgmt) : (s.modMgmt f).ctxs = s.ctxs := rfl
@[simp] theorem State.modMgmt_tasks (s : State) (f : Mgmt → Mgmt) : (s.modMgmt f).tasks = s.tasks := rfl
@[simp] theorem State.modMgmt_teams (s : State) (f : Mgmt → Mgmt) : (s.modMgmt f).teams = s.teams := rfl
@[simp] theorem State.modMgmt_tiles (s : State) (f : Mgmt → Mgmt) : (s.modMgmt f).tiles = s.tiles := rfl
@[simp] theorem State.modMgmt_fab (s : State) (f : Mgmt → Mgmt) : (s.modMgmt f).fab = s.fab := rfl
@[simp] theorem State.modMgmt_mgmt (s : State) (f : Mgmt → Mgmt) : (s.modMgmt f).mgmt = f s.mgmt := rfl

/-! ### `s.modHealth f` -/

@[simp] theorem State.modHealth_agenda (s : State) (f : Health → Health) : (s.modHealth f).agenda = s.agenda := rfl
@[simp] theorem State.modHealth_turn (s : State) (f : Health → Health) : (s.modHealth f).turn = s.turn := rfl
@[simp] theorem State.modHealth_free (s : State) (f : Health → Health) : (s.modHealth f).free = s.free := rfl
@[simp] theorem State.modHealth_nextId (s : State) (f : Health → Health) : (s.modHealth f).nextId = s.nextId := rfl
@[simp] theorem State.modHealth_hbm (s : State) (f : Health → Health) : (s.modHealth f).hbm = s.hbm := rfl
@[simp] theorem State.modHealth_owned (s : State) (f : Health → Health) : (s.modHealth f).owned = s.owned := rfl
@[simp] theorem State.modHealth_wbuf (s : State) (f : Health → Health) : (s.modHealth f).wbuf = s.wbuf := rfl
@[simp] theorem State.modHealth_views (s : State) (f : Health → Health) : (s.modHealth f).views = s.views := rfl
@[simp] theorem State.modHealth_dies (s : State) (f : Health → Health) : (s.modHealth f).dies = s.dies := rfl
@[simp] theorem State.modHealth_cores (s : State) (f : Health → Health) : (s.modHealth f).cores = s.cores := rfl
@[simp] theorem State.modHealth_ctxs (s : State) (f : Health → Health) : (s.modHealth f).ctxs = s.ctxs := rfl
@[simp] theorem State.modHealth_tasks (s : State) (f : Health → Health) : (s.modHealth f).tasks = s.tasks := rfl
@[simp] theorem State.modHealth_teams (s : State) (f : Health → Health) : (s.modHealth f).teams = s.teams := rfl
@[simp] theorem State.modHealth_tiles (s : State) (f : Health → Health) : (s.modHealth f).tiles = s.tiles := rfl
@[simp] theorem State.modHealth_fab (s : State) (f : Health → Health) : (s.modHealth f).fab = s.fab := rfl
@[simp] theorem State.modHealth_mgmt (s : State) (f : Health → Health) : (s.modHealth f).mgmt = { s.mgmt with health := f s.mgmt.health } := rfl

/-! ### `s.modLink k f` -/

@[simp] theorem State.modLink_agenda (s : State) (k : Nat) (f : Link → Link) : (s.modLink k f).agenda = s.agenda := rfl
@[simp] theorem State.modLink_turn (s : State) (k : Nat) (f : Link → Link) : (s.modLink k f).turn = s.turn := rfl
@[simp] theorem State.modLink_free (s : State) (k : Nat) (f : Link → Link) : (s.modLink k f).free = s.free := rfl
@[simp] theorem State.modLink_nextId (s : State) (k : Nat) (f : Link → Link) : (s.modLink k f).nextId = s.nextId := rfl
@[simp] theorem State.modLink_hbm (s : State) (k : Nat) (f : Link → Link) : (s.modLink k f).hbm = s.hbm := rfl
@[simp] theorem State.modLink_owned (s : State) (k : Nat) (f : Link → Link) : (s.modLink k f).owned = s.owned := rfl
@[simp] theorem State.modLink_wbuf (s : State) (k : Nat) (f : Link → Link) : (s.modLink k f).wbuf = s.wbuf := rfl
@[simp] theorem State.modLink_views (s : State) (k : Nat) (f : Link → Link) : (s.modLink k f).views = s.views := rfl
@[simp] theorem State.modLink_dies (s : State) (k : Nat) (f : Link → Link) : (s.modLink k f).dies = s.dies := rfl
@[simp] theorem State.modLink_cores (s : State) (k : Nat) (f : Link → Link) : (s.modLink k f).cores = s.cores := rfl
@[simp] theorem State.modLink_ctxs (s : State) (k : Nat) (f : Link → Link) : (s.modLink k f).ctxs = s.ctxs := rfl
@[simp] theorem State.modLink_tasks (s : State) (k : Nat) (f : Link → Link) : (s.modLink k f).tasks = s.tasks := rfl
@[simp] theorem State.modLink_teams (s : State) (k : Nat) (f : Link → Link) : (s.modLink k f).teams = s.teams := rfl
@[simp] theorem State.modLink_tiles (s : State) (k : Nat) (f : Link → Link) : (s.modLink k f).tiles = s.tiles := rfl
@[simp] theorem State.modLink_fab (s : State) (k : Nat) (f : Link → Link) : (s.modLink k f).fab = s.fab := rfl

/-! ### `s.modFab f` -/

@[simp] theorem State.modFab_agenda (s : State) (f : Fabric → Fabric) : (s.modFab f).agenda = s.agenda := rfl
@[simp] theorem State.modFab_turn (s : State) (f : Fabric → Fabric) : (s.modFab f).turn = s.turn := rfl
@[simp] theorem State.modFab_free (s : State) (f : Fabric → Fabric) : (s.modFab f).free = s.free := rfl
@[simp] theorem State.modFab_nextId (s : State) (f : Fabric → Fabric) : (s.modFab f).nextId = s.nextId := rfl
@[simp] theorem State.modFab_hbm (s : State) (f : Fabric → Fabric) : (s.modFab f).hbm = s.hbm := rfl
@[simp] theorem State.modFab_owned (s : State) (f : Fabric → Fabric) : (s.modFab f).owned = s.owned := rfl
@[simp] theorem State.modFab_wbuf (s : State) (f : Fabric → Fabric) : (s.modFab f).wbuf = s.wbuf := rfl
@[simp] theorem State.modFab_views (s : State) (f : Fabric → Fabric) : (s.modFab f).views = s.views := rfl
@[simp] theorem State.modFab_dies (s : State) (f : Fabric → Fabric) : (s.modFab f).dies = s.dies := rfl
@[simp] theorem State.modFab_cores (s : State) (f : Fabric → Fabric) : (s.modFab f).cores = s.cores := rfl
@[simp] theorem State.modFab_ctxs (s : State) (f : Fabric → Fabric) : (s.modFab f).ctxs = s.ctxs := rfl
@[simp] theorem State.modFab_tasks (s : State) (f : Fabric → Fabric) : (s.modFab f).tasks = s.tasks := rfl
@[simp] theorem State.modFab_teams (s : State) (f : Fabric → Fabric) : (s.modFab f).teams = s.teams := rfl
@[simp] theorem State.modFab_tiles (s : State) (f : Fabric → Fabric) : (s.modFab f).tiles = s.tiles := rfl
@[simp] theorem State.modFab_fab (s : State) (f : Fabric → Fabric) : (s.modFab f).fab = f s.fab := rfl
@[simp] theorem State.modFab_mgmt (s : State) (f : Fabric → Fabric) : (s.modFab f).mgmt = s.mgmt := rfl

/-! ### `s.modConn k f` -/

@[simp] theorem State.modConn_agenda (s : State) (k : Nat) (f : Conn → Conn) : (s.modConn k f).agenda = s.agenda := rfl
@[simp] theorem State.modConn_turn (s : State) (k : Nat) (f : Conn → Conn) : (s.modConn k f).turn = s.turn := rfl
@[simp] theorem State.modConn_free (s : State) (k : Nat) (f : Conn → Conn) : (s.modConn k f).free = s.free := rfl
@[simp] theorem State.modConn_nextId (s : State) (k : Nat) (f : Conn → Conn) : (s.modConn k f).nextId = s.nextId := rfl
@[simp] theorem State.modConn_hbm (s : State) (k : Nat) (f : Conn → Conn) : (s.modConn k f).hbm = s.hbm := rfl
@[simp] theorem State.modConn_owned (s : State) (k : Nat) (f : Conn → Conn) : (s.modConn k f).owned = s.owned := rfl
@[simp] theorem State.modConn_wbuf (s : State) (k : Nat) (f : Conn → Conn) : (s.modConn k f).wbuf = s.wbuf := rfl
@[simp] theorem State.modConn_views (s : State) (k : Nat) (f : Conn → Conn) : (s.modConn k f).views = s.views := rfl
@[simp] theorem State.modConn_dies (s : State) (k : Nat) (f : Conn → Conn) : (s.modConn k f).dies = s.dies := rfl
@[simp] theorem State.modConn_cores (s : State) (k : Nat) (f : Conn → Conn) : (s.modConn k f).cores = s.cores := rfl
@[simp] theorem State.modConn_ctxs (s : State) (k : Nat) (f : Conn → Conn) : (s.modConn k f).ctxs = s.ctxs := rfl
@[simp] theorem State.modConn_tasks (s : State) (k : Nat) (f : Conn → Conn) : (s.modConn k f).tasks = s.tasks := rfl
@[simp] theorem State.modConn_teams (s : State) (k : Nat) (f : Conn → Conn) : (s.modConn k f).teams = s.teams := rfl
@[simp] theorem State.modConn_tiles (s : State) (k : Nat) (f : Conn → Conn) : (s.modConn k f).tiles = s.tiles := rfl
@[simp] theorem State.modConn_fab (s : State) (k : Nat) (f : Conn → Conn) : (s.modConn k f).fab = { s.fab with conns := mmod s.fab.conns k f } := rfl
@[simp] theorem State.modConn_mgmt (s : State) (k : Nat) (f : Conn → Conn) : (s.modConn k f).mgmt = s.mgmt := rfl

/-! ### `s.fresh.1` -/

@[simp] theorem State.fresh_agenda (s : State) : (s.fresh.1).agenda = s.agenda := rfl
@[simp] theorem State.fresh_turn (s : State) : (s.fresh.1).turn = s.turn := rfl
@[simp] theorem State.fresh_free (s : State) : (s.fresh.1).free = s.free := rfl
@[simp] theorem State.fresh_nextId (s : State) : (s.fresh.1).nextId = s.nextId + 1 := rfl
@[simp] theorem State.fresh_hbm (s : State) : (s.fresh.1).hbm = s.hbm := rfl
@[simp] theorem State.fresh_owned (s : State) : (s.fresh.1).owned = s.owned := rfl
@[simp] theorem State.fresh_wbuf (s : State) : (s.fresh.1).wbuf = s.wbuf := rfl
@[simp] theorem State.fresh_views (s : State) : (s.fresh.1).views = s.views := rfl
@[simp] theorem State.fresh_dies (s : State) : (s.fresh.1).dies = s.dies := rfl
@[simp] theorem State.fresh_cores (s : State) : (s.fresh.1).cores = s.cores := rfl
@[simp] theorem State.fresh_ctxs (s : State) : (s.fresh.1).ctxs = s.ctxs := rfl
@[simp] theorem State.fresh_tasks (s : State) : (s.fresh.1).tasks = s.tasks := rfl
@[simp] theorem State.fresh_teams (s : State) : (s.fresh.1).teams = s.teams := rfl
@[simp] theorem State.fresh_tiles (s : State) : (s.fresh.1).tiles = s.tiles := rfl
@[simp] theorem State.fresh_fab (s : State) : (s.fresh.1).fab = s.fab := rfl
@[simp] theorem State.fresh_mgmt (s : State) : (s.fresh.1).mgmt = s.mgmt := rfl

/-! ### `(s.pick n).1` -/

@[simp] theorem State.pick_agenda (s : State) (n : Nat) : ((s.pick n).1).agenda = s.agenda := rfl
@[simp] theorem State.pick_turn (s : State) (n : Nat) : ((s.pick n).1).turn = s.turn := rfl
@[simp] theorem State.pick_free (s : State) (n : Nat) : ((s.pick n).1).free = s.free + 1 := rfl
@[simp] theorem State.pick_nextId (s : State) (n : Nat) : ((s.pick n).1).nextId = s.nextId := rfl
@[simp] theorem State.pick_hbm (s : State) (n : Nat) : ((s.pick n).1).hbm = s.hbm := rfl
@[simp] theorem State.pick_owned (s : State) (n : Nat) : ((s.pick n).1).owned = s.owned := rfl
@[simp] theorem State.pick_wbuf (s : State) (n : Nat) : ((s.pick n).1).wbuf = s.wbuf := rfl
@[simp] theorem State.pick_views (s : State) (n : Nat) : ((s.pick n).1).views = s.views := rfl
@[simp] theorem State.pick_dies (s : State) (n : Nat) : ((s.pick n).1).dies = s.dies := rfl
@[simp] theorem State.pick_cores (s : State) (n : Nat) : ((s.pick n).1).cores = s.cores := rfl
@[simp] theorem State.pick_ctxs (s : State) (n : Nat) : ((s.pick n).1).ctxs = s.ctxs := rfl
@[simp] theorem State.pick_tasks (s : State) (n : Nat) : ((s.pick n).1).tasks = s.tasks := rfl
@[simp] theorem State.pick_teams (s : State) (n : Nat) : ((s.pick n).1).teams = s.teams := rfl
@[simp] theorem State.pick_tiles (s : State) (n : Nat) : ((s.pick n).1).tiles = s.tiles := rfl
@[simp] theorem State.pick_fab (s : State) (n : Nat) : ((s.pick n).1).fab = s.fab := rfl
@[simp] theorem State.pick_mgmt (s : State) (n : Nat) : ((s.pick n).1).mgmt = s.mgmt := rfl

/-! ### `s.clearResv o gs` -/

@[simp] theorem State.clearResv_agenda (s : State) (o : Option Nat) (gs : List Nat) : (s.clearResv o gs).agenda = s.agenda := rfl
@[simp] theorem State.clearResv_turn (s : State) (o : Option Nat) (gs : List Nat) : (s.clearResv o gs).turn = s.turn := rfl
@[simp] theorem State.clearResv_free (s : State) (o : Option Nat) (gs : List Nat) : (s.clearResv o gs).free = s.free := rfl
@[simp] theorem State.clearResv_nextId (s : State) (o : Option Nat) (gs : List Nat) : (s.clearResv o gs).nextId = s.nextId := rfl
@[simp] theorem State.clearResv_hbm (s : State) (o : Option Nat) (gs : List Nat) : (s.clearResv o gs).hbm = s.hbm := rfl
@[simp] theorem State.clearResv_owned (s : State) (o : Option Nat) (gs : List Nat) : (s.clearResv o gs).owned = s.owned := rfl
@[simp] theorem State.clearResv_wbuf (s : State) (o : Option Nat) (gs : List Nat) : (s.clearResv o gs).wbuf = s.wbuf := rfl
@[simp] theorem State.clearResv_views (s : State) (o : Option Nat) (gs : List Nat) : (s.clearResv o gs).views = s.views := rfl
@[simp] theorem State.clearResv_dies (s : State) (o : Option Nat) (gs : List Nat) : (s.clearResv o gs).dies = s.dies := rfl
@[simp] theorem State.clearResv_cores (s : State) (o : Option Nat) (gs : List Nat) : (s.clearResv o gs).cores = s.cores := rfl
@[simp] theorem State.clearResv_ctxs (s : State) (o : Option Nat) (gs : List Nat) : (s.clearResv o gs).ctxs = s.ctxs := rfl
@[simp] theorem State.clearResv_tasks (s : State) (o : Option Nat) (gs : List Nat) : (s.clearResv o gs).tasks = s.tasks := rfl
@[simp] theorem State.clearResv_tiles (s : State) (o : Option Nat) (gs : List Nat) : (s.clearResv o gs).tiles = s.tiles := rfl
@[simp] theorem State.clearResv_fab (s : State) (o : Option Nat) (gs : List Nat) : (s.clearResv o gs).fab = s.fab := rfl
@[simp] theorem State.clearResv_mgmt (s : State) (o : Option Nat) (gs : List Nat) : (s.clearResv o gs).mgmt = s.mgmt := rfl

/-! ### `s.arrWrite k t off bs` -/

@[simp] theorem State.arrWrite_agenda (s : State) (k : Nat) (t : Team) (off : Nat) (bs : List Byte) : (s.arrWrite k t off bs).agenda = s.agenda := rfl
@[simp] theorem State.arrWrite_turn (s : State) (k : Nat) (t : Team) (off : Nat) (bs : List Byte) : (s.arrWrite k t off bs).turn = s.turn := rfl
@[simp] theorem State.arrWrite_free (s : State) (k : Nat) (t : Team) (off : Nat) (bs : List Byte) : (s.arrWrite k t off bs).free = s.free := rfl
@[simp] theorem State.arrWrite_nextId (s : State) (k : Nat) (t : Team) (off : Nat) (bs : List Byte) : (s.arrWrite k t off bs).nextId = s.nextId := rfl
@[simp] theorem State.arrWrite_hbm (s : State) (k : Nat) (t : Team) (off : Nat) (bs : List Byte) : (s.arrWrite k t off bs).hbm = s.hbm := rfl
@[simp] theorem State.arrWrite_owned (s : State) (k : Nat) (t : Team) (off : Nat) (bs : List Byte) : (s.arrWrite k t off bs).owned = s.owned := rfl
@[simp] theorem State.arrWrite_wbuf (s : State) (k : Nat) (t : Team) (off : Nat) (bs : List Byte) : (s.arrWrite k t off bs).wbuf = s.wbuf := rfl
@[simp] theorem State.arrWrite_views (s : State) (k : Nat) (t : Team) (off : Nat) (bs : List Byte) : (s.arrWrite k t off bs).views = s.views := rfl
@[simp] theorem State.arrWrite_dies (s : State) (k : Nat) (t : Team) (off : Nat) (bs : List Byte) : (s.arrWrite k t off bs).dies = s.dies := rfl
@[simp] theorem State.arrWrite_cores (s : State) (k : Nat) (t : Team) (off : Nat) (bs : List Byte) : (s.arrWrite k t off bs).cores = mput s.cores t.coreKey { s.core t.coreKey with arr := wrBytes (s.core t.coreKey).arr (t.base + off) bs } := rfl
@[simp] theorem State.arrWrite_ctxs (s : State) (k : Nat) (t : Team) (off : Nat) (bs : List Byte) : (s.arrWrite k t off bs).ctxs = s.ctxs := rfl
@[simp] theorem State.arrWrite_tasks (s : State) (k : Nat) (t : Team) (off : Nat) (bs : List Byte) : (s.arrWrite k t off bs).tasks = s.tasks := rfl
@[simp] theorem State.arrWrite_tiles (s : State) (k : Nat) (t : Team) (off : Nat) (bs : List Byte) : (s.arrWrite k t off bs).tiles = s.tiles := rfl
@[simp] theorem State.arrWrite_fab (s : State) (k : Nat) (t : Team) (off : Nat) (bs : List Byte) : (s.arrWrite k t off bs).fab = s.fab := rfl
@[simp] theorem State.arrWrite_mgmt (s : State) (k : Nat) (t : Team) (off : Nat) (bs : List Byte) : (s.arrWrite k t off bs).mgmt = s.mgmt := rfl

/-! ### `s.hbmWrite pa bs` -/

@[simp] theorem State.hbmWrite_agenda (s : State) (pa : Nat) (bs : List Byte) : (s.hbmWrite pa bs).agenda = s.agenda := rfl
@[simp] theorem State.hbmWrite_turn (s : State) (pa : Nat) (bs : List Byte) : (s.hbmWrite pa bs).turn = s.turn := rfl
@[simp] theorem State.hbmWrite_free (s : State) (pa : Nat) (bs : List Byte) : (s.hbmWrite pa bs).free = s.free := rfl
@[simp] theorem State.hbmWrite_nextId (s : State) (pa : Nat) (bs : List Byte) : (s.hbmWrite pa bs).nextId = s.nextId := rfl
@[simp] theorem State.hbmWrite_hbm (s : State) (pa : Nat) (bs : List Byte) : (s.hbmWrite pa bs).hbm = wrBytes s.hbm pa bs := rfl
@[simp] theorem State.hbmWrite_owned (s : State) (pa : Nat) (bs : List Byte) : (s.hbmWrite pa bs).owned = s.owned := rfl
@[simp] theorem State.hbmWrite_wbuf (s : State) (pa : Nat) (bs : List Byte) : (s.hbmWrite pa bs).wbuf = s.wbuf := rfl
@[simp] theorem State.hbmWrite_views (s : State) (pa : Nat) (bs : List Byte) : (s.hbmWrite pa bs).views = s.views := rfl
@[simp] theorem State.hbmWrite_dies (s : State) (pa : Nat) (bs : List Byte) : (s.hbmWrite pa bs).dies = s.dies := rfl
@[simp] theorem State.hbmWrite_cores (s : State) (pa : Nat) (bs : List Byte) : (s.hbmWrite pa bs).cores = s.cores := rfl
@[simp] theorem State.hbmWrite_ctxs (s : State) (pa : Nat) (bs : List Byte) : (s.hbmWrite pa bs).ctxs = s.ctxs := rfl
@[simp] theorem State.hbmWrite_tasks (s : State) (pa : Nat) (bs : List Byte) : (s.hbmWrite pa bs).tasks = s.tasks := rfl
@[simp] theorem State.hbmWrite_tiles (s : State) (pa : Nat) (bs : List Byte) : (s.hbmWrite pa bs).tiles = s.tiles := rfl
@[simp] theorem State.hbmWrite_fab (s : State) (pa : Nat) (bs : List Byte) : (s.hbmWrite pa bs).fab = s.fab := rfl
@[simp] theorem State.hbmWrite_mgmt (s : State) (pa : Nat) (bs : List Byte) : (s.hbmWrite pa bs).mgmt = s.mgmt := rfl

/-! ### `s.l1Fill core pa n` -/

@[simp] theorem State.l1Fill_agenda (s : State) (core pa n : Nat) : (s.l1Fill core pa n).agenda = s.agenda := rfl
@[simp] theorem State.l1Fill_turn (s : State) (core pa n : Nat) : (s.l1Fill core pa n).turn = s.turn := rfl
@[simp] theorem State.l1Fill_free (s : State) (core pa n : Nat) : (s.l1Fill core pa n).free = s.free := rfl
@[simp] theorem State.l1Fill_nextId (s : State) (core pa n : Nat) : (s.l1Fill core pa n).nextId = s.nextId := rfl
@[simp] theorem State.l1Fill_hbm (s : State) (core pa n : Nat) : (s.l1Fill core pa n).hbm = s.hbm := rfl
@[simp] theorem State.l1Fill_owned (s : State) (core pa n : Nat) : (s.l1Fill core pa n).owned = s.owned := rfl
@[simp] theorem State.l1Fill_wbuf (s : State) (core pa n : Nat) : (s.l1Fill core pa n).wbuf = s.wbuf := rfl
@[simp] theorem State.l1Fill_views (s : State) (core pa n : Nat) : (s.l1Fill core pa n).views = s.views := rfl
@[simp] theorem State.l1Fill_dies (s : State) (core pa n : Nat) : (s.l1Fill core pa n).dies = s.dies := rfl
@[simp] theorem State.l1Fill_ctxs (s : State) (core pa n : Nat) : (s.l1Fill core pa n).ctxs = s.ctxs := rfl
@[simp] theorem State.l1Fill_tasks (s : State) (core pa n : Nat) : (s.l1Fill core pa n).tasks = s.tasks := rfl
@[simp] theorem State.l1Fill_teams (s : State) (core pa n : Nat) : (s.l1Fill core pa n).teams = s.teams := rfl
@[simp] theorem State.l1Fill_tiles (s : State) (core pa n : Nat) : (s.l1Fill core pa n).tiles = s.tiles := rfl
@[simp] theorem State.l1Fill_fab (s : State) (core pa n : Nat) : (s.l1Fill core pa n).fab = s.fab := rfl
@[simp] theorem State.l1Fill_mgmt (s : State) (core pa n : Nat) : (s.l1Fill core pa n).mgmt = s.mgmt := rfl

/-! ### `s.l1Store core pa bs b` -/

@[simp] theorem State.l1Store_agenda (s : State) (core pa : Nat) (bs : List Byte) (b : Bool) : (s.l1Store core pa bs b).agenda = s.agenda := rfl
@[simp] theorem State.l1Store_turn (s : State) (core pa : Nat) (bs : List Byte) (b : Bool) : (s.l1Store core pa bs b).turn = s.turn := rfl
@[simp] theorem State.l1Store_free (s : State) (core pa : Nat) (bs : List Byte) (b : Bool) : (s.l1Store core pa bs b).free = s.free := rfl
@[simp] theorem State.l1Store_nextId (s : State) (core pa : Nat) (bs : List Byte) (b : Bool) : (s.l1Store core pa bs b).nextId = s.nextId := rfl
@[simp] theorem State.l1Store_hbm (s : State) (core pa : Nat) (bs : List Byte) (b : Bool) : (s.l1Store core pa bs b).hbm = s.hbm := rfl
@[simp] theorem State.l1Store_owned (s : State) (core pa : Nat) (bs : List Byte) (b : Bool) : (s.l1Store core pa bs b).owned = s.owned := rfl
@[simp] theorem State.l1Store_wbuf (s : State) (core pa : Nat) (bs : List Byte) (b : Bool) : (s.l1Store core pa bs b).wbuf = s.wbuf := rfl
@[simp] theorem State.l1Store_views (s : State) (core pa : Nat) (bs : List Byte) (b : Bool) : (s.l1Store core pa bs b).views = s.views := rfl
@[simp] theorem State.l1Store_dies (s : State) (core pa : Nat) (bs : List Byte) (b : Bool) : (s.l1Store core pa bs b).dies = s.dies := rfl
@[simp] theorem State.l1Store_ctxs (s : State) (core pa : Nat) (bs : List Byte) (b : Bool) : (s.l1Store core pa bs b).ctxs = s.ctxs := rfl
@[simp] theorem State.l1Store_tasks (s : State) (core pa : Nat) (bs : List Byte) (b : Bool) : (s.l1Store core pa bs b).tasks = s.tasks := rfl
@[simp] theorem State.l1Store_teams (s : State) (core pa : Nat) (bs : List Byte) (b : Bool) : (s.l1Store core pa bs b).teams = s.teams := rfl
@[simp] theorem State.l1Store_tiles (s : State) (core pa : Nat) (bs : List Byte) (b : Bool) : (s.l1Store core pa bs b).tiles = s.tiles := rfl
@[simp] theorem State.l1Store_fab (s : State) (core pa : Nat) (bs : List Byte) (b : Bool) : (s.l1Store core pa bs b).fab = s.fab := rfl
@[simp] theorem State.l1Store_mgmt (s : State) (core pa : Nat) (bs : List Byte) (b : Bool) : (s.l1Store core pa bs b).mgmt = s.mgmt := rfl

/-! ### `s.l1Clear core` -/

@[simp] theorem State.l1Clear_agenda (s : State) (core : Nat) : (s.l1Clear core).agenda = s.agenda := rfl
@[simp] theorem State.l1Clear_turn (s : State) (core : Nat) : (s.l1Clear core).turn = s.turn := rfl
@[simp] theorem State.l1Clear_free (s : State) (core : Nat) : (s.l1Clear core).free = s.free := rfl
@[simp] theorem State.l1Clear_nextId (s : State) (core : Nat) : (s.l1Clear core).nextId = s.nextId := rfl
@[simp] theorem State.l1Clear_hbm (s : State) (core : Nat) : (s.l1Clear core).hbm = s.hbm := rfl
@[simp] theorem State.l1Clear_owned (s : State) (core : Nat) : (s.l1Clear core).owned = s.owned := rfl
@[simp] theorem State.l1Clear_wbuf (s : State) (core : Nat) : (s.l1Clear core).wbuf = s.wbuf := rfl
@[simp] theorem State.l1Clear_views (s : State) (core : Nat) : (s.l1Clear core).views = s.views.filter fun v => v.core ≠ core := rfl
@[simp] theorem State.l1Clear_dies (s : State) (core : Nat) : (s.l1Clear core).dies = s.dies := rfl
@[simp] theorem State.l1Clear_cores (s : State) (core : Nat) : (s.l1Clear core).cores = mput s.cores core { s.core core with l1 := [] } := rfl
@[simp] theorem State.l1Clear_ctxs (s : State) (core : Nat) : (s.l1Clear core).ctxs = s.ctxs := rfl
@[simp] theorem State.l1Clear_tasks (s : State) (core : Nat) : (s.l1Clear core).tasks = s.tasks := rfl
@[simp] theorem State.l1Clear_teams (s : State) (core : Nat) : (s.l1Clear core).teams = s.teams := rfl
@[simp] theorem State.l1Clear_tiles (s : State) (core : Nat) : (s.l1Clear core).tiles = s.tiles := rfl
@[simp] theorem State.l1Clear_fab (s : State) (core : Nat) : (s.l1Clear core).fab = s.fab := rfl
@[simp] theorem State.l1Clear_mgmt (s : State) (core : Nat) : (s.l1Clear core).mgmt = s.mgmt := rfl

/-! ### `s.l1Update core pa bs` -/

@[simp] theorem State.l1Update_agenda (s : State) (core pa : Nat) (bs : List Byte) : (s.l1Update core pa bs).agenda = s.agenda := rfl
@[simp] theorem State.l1Update_turn (s : State) (core pa : Nat) (bs : List Byte) : (s.l1Update core pa bs).turn = s.turn := rfl
@[simp] theorem State.l1Update_free (s : State) (core pa : Nat) (bs : List Byte) : (s.l1Update core pa bs).free = s.free := rfl
@[simp] theorem State.l1Update_nextId (s : State) (core pa : Nat) (bs : List Byte) : (s.l1Update core pa bs).nextId = s.nextId := rfl
@[simp] theorem State.l1Update_hbm (s : State) (core pa : Nat) (bs : List Byte) : (s.l1Update core pa bs).hbm = s.hbm := rfl
@[simp] theorem State.l1Update_owned (s : State) (core pa : Nat) (bs : List Byte) : (s.l1Update core pa bs).owned = s.owned := rfl
@[simp] theorem State.l1Update_wbuf (s : State) (core pa : Nat) (bs : List Byte) : (s.l1Update core pa bs).wbuf = s.wbuf := rfl
@[simp] theorem State.l1Update_views (s : State) (core pa : Nat) (bs : List Byte) : (s.l1Update core pa bs).views = s.views := rfl
@[simp] theorem State.l1Update_dies (s : State) (core pa : Nat) (bs : List Byte) : (s.l1Update core pa bs).dies = s.dies := rfl
@[simp] theorem State.l1Update_ctxs (s : State) (core pa : Nat) (bs : List Byte) : (s.l1Update core pa bs).ctxs = s.ctxs := rfl
@[simp] theorem State.l1Update_tasks (s : State) (core pa : Nat) (bs : List Byte) : (s.l1Update core pa bs).tasks = s.tasks := rfl
@[simp] theorem State.l1Update_teams (s : State) (core pa : Nat) (bs : List Byte) : (s.l1Update core pa bs).teams = s.teams := rfl
@[simp] theorem State.l1Update_tiles (s : State) (core pa : Nat) (bs : List Byte) : (s.l1Update core pa bs).tiles = s.tiles := rfl
@[simp] theorem State.l1Update_fab (s : State) (core pa : Nat) (bs : List Byte) : (s.l1Update core pa bs).fab = s.fab := rfl
@[simp] theorem State.l1Update_mgmt (s : State) (core pa : Nat) (bs : List Byte) : (s.l1Update core pa bs).mgmt = s.mgmt := rfl

/-! ### `g.wrV l n w` -/

@[simp] theorem Group.wrV_role (g : Group) (l n : Nat) (w : Word) : (g.wrV l n w).role = g.role := rfl
@[simp] theorem Group.wrV_roleIdx (g : Group) (l n : Nat) (w : Word) : (g.wrV l n w).roleIdx = g.roleIdx := rfl
@[simp] theorem Group.wrV_width (g : Group) (l n : Nat) (w : Word) : (g.wrV l n w).width = g.width := rfl
@[simp] theorem Group.wrV_budget (g : Group) (l n : Nat) (w : Word) : (g.wrV l n w).budget = g.budget := rfl
@[simp] theorem Group.wrV_slot (g : Group) (l n : Nat) (w : Word) : (g.wrV l n w).slot = g.slot := rfl
@[simp] theorem Group.wrV_base (g : Group) (l n : Nat) (w : Word) : (g.wrV l n w).base = g.base := rfl
@[simp] theorem Group.wrV_v (g : Group) (l n : Nat) (w : Word) : (g.wrV l n w).v = mput g.v (vkey l n) w := rfl
@[simp] theorem Group.wrV_p (g : Group) (l n : Nat) (w : Word) : (g.wrV l n w).p = g.p := rfl
@[simp] theorem Group.wrV_s (g : Group) (l n : Nat) (w : Word) : (g.wrV l n w).s = g.s := rfl
@[simp] theorem Group.wrV_resv (g : Group) (l n : Nat) (w : Word) : (g.wrV l n w).resv = g.resv := rfl
@[simp] theorem Group.wrV_regs (g : Group) (l n : Nat) (w : Word) : (g.wrV l n w).regs = g.regs := rfl
@[simp] theorem Group.wrV_trapEntry (g : Group) (l n : Nat) (w : Word) : (g.wrV l n w).trapEntry = g.trapEntry := rfl
@[simp] theorem Group.wrV_handler (g : Group) (l n : Nat) (w : Word) : (g.wrV l n w).handler = g.handler := rfl
@[simp] theorem Group.wrV_recs (g : Group) (l n : Nat) (w : Word) : (g.wrV l n w).recs = g.recs := rfl
@[simp] theorem Group.wrV_nextRec (g : Group) (l n : Nat) (w : Word) : (g.wrV l n w).nextRec = g.nextRec := rfl
@[simp] theorem Group.wrV_exited (g : Group) (l n : Nat) (w : Word) : (g.wrV l n w).exited = g.exited := rfl
@[simp] theorem Group.wrV_splits (g : Group) (l n : Nat) (w : Word) : (g.wrV l n w).splits = g.splits := rfl
@[simp] theorem Group.wrV_batchNo (g : Group) (l n : Nat) (w : Word) : (g.wrV l n w).batchNo = g.batchNo := rfl
@[simp] theorem Group.wrV_closed (g : Group) (l n : Nat) (w : Word) : (g.wrV l n w).closed = g.closed := rfl
@[simp] theorem Group.wrV_latch (g : Group) (l n : Nat) (w : Word) : (g.wrV l n w).latch = g.latch := rfl
@[simp] theorem Group.wrV_phase (g : Group) (l n : Nat) (w : Word) : (g.wrV l n w).phase = g.phase := rfl
@[simp] theorem Group.wrV_halted (g : Group) (l n : Nat) (w : Word) : (g.wrV l n w).halted = g.halted := rfl
@[simp] theorem Group.wrV_recBase (g : Group) (l n : Nat) (w : Word) : (g.wrV l n w).recBase = g.recBase := rfl
@[simp] theorem Group.wrV_recCnt (g : Group) (l n : Nat) (w : Word) : (g.wrV l n w).recCnt = g.recCnt := rfl
@[simp] theorem Group.wrV_pastV (g : Group) (l n : Nat) (w : Word) : (g.wrV l n w).pastV = g.pastV := rfl
@[simp] theorem Group.wrV_pastS (g : Group) (l n : Nat) (w : Word) : (g.wrV l n w).pastS = g.pastS := rfl
@[simp] theorem Group.wrV_clock (g : Group) (l n : Nat) (w : Word) : (g.wrV l n w).clock = g.clock := rfl
@[simp] theorem Group.wrV_cyc (g : Group) (l n : Nat) (w : Word) : (g.wrV l n w).cyc = g.cyc := rfl
@[simp] theorem Group.wrV_ended (g : Group) (l n : Nat) (w : Word) : (g.wrV l n w).ended = g.ended := rfl

/-! ### `g.wrS n w` -/

@[simp] theorem Group.wrS_role (g : Group) (n : Nat) (w : Word) : (g.wrS n w).role = g.role := rfl
@[simp] theorem Group.wrS_roleIdx (g : Group) (n : Nat) (w : Word) : (g.wrS n w).roleIdx = g.roleIdx := rfl
@[simp] theorem Group.wrS_width (g : Group) (n : Nat) (w : Word) : (g.wrS n w).width = g.width := rfl
@[simp] theorem Group.wrS_budget (g : Group) (n : Nat) (w : Word) : (g.wrS n w).budget = g.budget := rfl
@[simp] theorem Group.wrS_slot (g : Group) (n : Nat) (w : Word) : (g.wrS n w).slot = g.slot := rfl
@[simp] theorem Group.wrS_base (g : Group) (n : Nat) (w : Word) : (g.wrS n w).base = g.base := rfl
@[simp] theorem Group.wrS_v (g : Group) (n : Nat) (w : Word) : (g.wrS n w).v = g.v := rfl
@[simp] theorem Group.wrS_p (g : Group) (n : Nat) (w : Word) : (g.wrS n w).p = g.p := rfl
@[simp] theorem Group.wrS_s (g : Group) (n : Nat) (w : Word) : (g.wrS n w).s = mput g.s n w := rfl
@[simp] theorem Group.wrS_resv (g : Group) (n : Nat) (w : Word) : (g.wrS n w).resv = g.resv := rfl
@[simp] theorem Group.wrS_regs (g : Group) (n : Nat) (w : Word) : (g.wrS n w).regs = g.regs := rfl
@[simp] theorem Group.wrS_trapEntry (g : Group) (n : Nat) (w : Word) : (g.wrS n w).trapEntry = g.trapEntry := rfl
@[simp] theorem Group.wrS_handler (g : Group) (n : Nat) (w : Word) : (g.wrS n w).handler = g.handler := rfl
@[simp] theorem Group.wrS_recs (g : Group) (n : Nat) (w : Word) : (g.wrS n w).recs = g.recs := rfl
@[simp] theorem Group.wrS_nextRec (g : Group) (n : Nat) (w : Word) : (g.wrS n w).nextRec = g.nextRec := rfl
@[simp] theorem Group.wrS_exited (g : Group) (n : Nat) (w : Word) : (g.wrS n w).exited = g.exited := rfl
@[simp] theorem Group.wrS_splits (g : Group) (n : Nat) (w : Word) : (g.wrS n w).splits = g.splits := rfl
@[simp] theorem Group.wrS_batchNo (g : Group) (n : Nat) (w : Word) : (g.wrS n w).batchNo = g.batchNo := rfl
@[simp] theorem Group.wrS_closed (g : Group) (n : Nat) (w : Word) : (g.wrS n w).closed = g.closed := rfl
@[simp] theorem Group.wrS_latch (g : Group) (n : Nat) (w : Word) : (g.wrS n w).latch = g.latch := rfl
@[simp] theorem Group.wrS_phase (g : Group) (n : Nat) (w : Word) : (g.wrS n w).phase = g.phase := rfl
@[simp] theorem Group.wrS_halted (g : Group) (n : Nat) (w : Word) : (g.wrS n w).halted = g.halted := rfl
@[simp] theorem Group.wrS_recBase (g : Group) (n : Nat) (w : Word) : (g.wrS n w).recBase = g.recBase := rfl
@[simp] theorem Group.wrS_recCnt (g : Group) (n : Nat) (w : Word) : (g.wrS n w).recCnt = g.recCnt := rfl
@[simp] theorem Group.wrS_pastV (g : Group) (n : Nat) (w : Word) : (g.wrS n w).pastV = g.pastV := rfl
@[simp] theorem Group.wrS_pastS (g : Group) (n : Nat) (w : Word) : (g.wrS n w).pastS = g.pastS := rfl
@[simp] theorem Group.wrS_clock (g : Group) (n : Nat) (w : Word) : (g.wrS n w).clock = g.clock := rfl
@[simp] theorem Group.wrS_cyc (g : Group) (n : Nat) (w : Word) : (g.wrS n w).cyc = g.cyc := rfl
@[simp] theorem Group.wrS_ended (g : Group) (n : Nat) (w : Word) : (g.wrS n w).ended = g.ended := rfl

end Sys2Proof.Machine
end

