-- ==== Sys2Proof/Laws/Ops.lean ====
section
/-! SUPPORT. What each shared operation does, said once: putting a split back, acting on the split whose turn it is, and writing
registers. -/
namespace Sys2Proof.Machine

/-! ### The acting split -/

/-- A meaning acts on the split whose turn it is. -/
theorem onSplit_eq (s : State) (c : Cur) (f : Cur → State) (h : s.cur? = some c) : onSplit s f = .next (f c) := by
  simp [onSplit, h]

/-- With no split to act, every meaning of an instruction row is the named fault. -/
theorem onSplit_none (s : State) (f : Cur → State) (h : s.cur? = none) : onSplit s f = .fault .noSplit := by
  simp [onSplit, h]

/-- A split found has the name it was looked up by. -/
theorem lookup?_ref (s : State) (r : Ref) (c : Cur) (h : s.lookup? r = some c) : c.ref = r := by
  unfold State.lookup? at h
  simp only [Option.bind_eq_some_iff, Option.map_eq_some_iff] at h
  obtain ⟨t, -, g, -, p, -, rfl⟩ := h
  rfl

/-- The split whose turn it is stands in its place in the state. -/
theorem cur?_lookup (s : State) (c : Cur) (h : s.cur? = some c) : s.lookup? c.ref = some c := by
  unfold State.cur? at h
  split at h
  · rename_i r _
    rw [lookup?_ref s r c h]; exact h
  · cases h

/-- A split put back is found again, in its group and team as put back. -/
@[simp] theorem lookup?_put (s : State) (c : Cur) :
    (s.put c).lookup? c.ref = some ⟨c.ref, c.newTeam, c.newGroup, c.split⟩ := by
  simp [State.lookup?, Cur.newTeam, Cur.newGroup]

/-- Putting a split back leaves the memories, and all but the teams. -/
theorem sameMachine_put (s : State) (c : Cur) : SameMachine s (s.put c) :=
  ⟨⟨fun _ => rfl, fun _ _ => rfl⟩, rfl, rfl, rfl, rfl, rfl, rfl, rfl, rfl, rfl, rfl⟩

/-- Nothing but the acting split and its group's fields changes when it is put back changed, whatever the change. -/
theorem actsAlone_put (s : State) (c : Cur) (g : Group) (p : Split) (hg : g.splits = c.group.splits) :
    ActsAlone s (s.put { c with group := g, split := p }) c
      ⟨c.ref, { c.team with groups := mput c.team.groups c.ref.group { g with splits := mput c.group.splits c.ref.split p } },
        { g with splits := mput c.group.splits c.ref.split p }, p⟩ := by
  refine ⟨?_, sameMachine_put _ _, ?_, ?_, ?_⟩
  · have h := lookup?_put s { c with group := g, split := p }
    simp only [Cur.newTeam, Cur.newGroup, hg] at h
    exact h
  · intro k hk
    simp only [State.put_teams, mget?_mput]
    rw [if_neg (fun h => hk h.symm)]
  · intro k hk
    simp only [mget?_mput]
    rw [if_neg (fun h => hk h.symm)]
  · intro k hk
    simp only [mget?_mput]
    rw [if_neg (fun h => hk h.symm)]

/-! ### Registers -/

/-- The keys of vector registers tell the lane and the register. -/
theorem vkey_inj (l n l' n' : Nat) (h : n < 256) (h' : n' < 256) : vkey l n = vkey l' n' ↔ l = l' ∧ n = n' := by
  unfold vkey; omega

/-- The lanes of a mask. -/
theorem mem_lanes (m : Lanes) (l : Nat) : l ∈ lanes m ↔ l < 64 ∧ m.getLsbD l = true := by
  simp [lanes]

/-- A write in lanes leaves all fields of the group but the vector registers. -/
theorem wrLanes_frame (g : Group) (ls : List Nat) (n : Nat) (f : Nat → Word) :
    g.wrLanes ls n f = { g with v := (g.wrLanes ls n f).v } := by
  induction ls generalizing g with
  | nil => rfl
  | cons l ls ih =>
    have h : g.wrLanes (l :: ls) n f = (g.wrV l n (f l)).wrLanes ls n f := rfl
    rw [h, ih (g.wrV l n (f l))]
    rfl

/-- A vector register after a write in lanes. -/
theorem wrLanes_vreg (g : Group) (ls : List Nat) (n : Nat) (f : Nat → Word) (l k : Nat) (hn : n < 256) (hk : k < 256) :
    (g.wrLanes ls n f).vreg l k = if l ∈ ls ∧ k = n then f l else g.vreg l k := by
  induction ls generalizing g with
  | nil => simp [Group.wrLanes]
  | cons x ls ih =>
    have h : g.wrLanes (x :: ls) n f = (g.wrV x n (f x)).wrLanes ls n f := rfl
    rw [h, ih]
    by_cases h1 : l ∈ ls ∧ k = n
    · simp [h1]
    · rw [if_neg h1]
      simp only [Group.vreg, Group.wrV_v, mget_mput, vkey_inj _ _ _ _ hn hk, List.mem_cons]
      by_cases h2 : x = l ∧ n = k
      · obtain ⟨rfl, rfl⟩ := h2
        simp
      · rw [if_neg h2, if_neg]
        rintro ⟨h3 | h3, h4⟩
        · exact h2 ⟨h3.symm, h4.symm⟩
        · exact h1 ⟨h3, h4⟩

/-- A scalar destination with no lane that passes. -/
theorem wrDest_none (c : Cur) (k : Com) (wide : Bool) (r : BitVec 8) (val : Nat → DWord) (h : c.pass k = 0) :
    c.wrDest k true wide r val = c := by
  simp only [Cur.wrDest, if_true, if_pos h]

/-- A scalar destination. -/
theorem wrDest_scal (c : Cur) (k : Com) (r : BitVec 8) (val : Nat → DWord) (h : ¬ c.pass k = 0) :
    c.wrDest k true false r val = { c with group := c.group.wrS r.toNat (loWord (val 0)) } := by
  simp only [Cur.wrDest, if_true, if_neg h, Bool.false_eq_true, if_false]

/-- A scalar pair as destination. -/
theorem wrDest_pair (c : Cur) (k : Com) (r : BitVec 8) (val : Nat → DWord) (h : ¬ c.pass k = 0) :
    c.wrDest k true true r val = { c with group := c.group.wrPair r.toNat (val 0) } := by
  simp only [Cur.wrDest, if_true, if_neg h]

/-- A destination written: what every register holds after it, and that nothing else of the group changes. -/
theorem wrDest_spec (c : Cur) (k : Com) (scal wide : Bool) (r : BitVec 8) (val : Nat → DWord) (hp : PairOk wide r) :
    DestIs c (c.wrDest k scal wide r val) k scal wide r.toNat val ∧ (c.wrDest k scal wide r val).group.splits = c.group.splits ∧
      c.wrDest k scal wide r val = { c with group := (c.wrDest k scal wide r val).group } := by
  have hr : r.toNat < 256 := r.isLt
  have hw : wide = true → r.toNat + 1 < 256 := fun h => by have := hp h; omega
  refine ⟨?_, ?_, rfl⟩
  · cases scal
    · cases wide
      · refine ⟨fun l n hl hn => ?_, fun n hn => ?_, ?_⟩
        · simp only [Cur.wrDest, Bool.false_eq_true, if_false]
          rw [wrLanes_vreg _ _ _ _ _ _ hr hn]
          simp [mem_lanes, hl]
        · simp only [Cur.wrDest, Bool.false_eq_true, if_false]
          rw [wrLanes_frame]; simp [Group.sreg]
        · simp only [Cur.wrDest, Bool.false_eq_true, if_false]
          rw [wrLanes_frame]
      · refine ⟨fun l n hl hn => ?_, fun n hn => ?_, ?_⟩
        · simp only [Cur.wrDest, Bool.false_eq_true, if_false, if_true, Group.wrLanes2]
          rw [wrLanes_vreg _ _ _ _ _ _ (hw rfl) hn, wrLanes_vreg _ _ _ _ _ _ hr hn]
          simp only [mem_lanes, hl, true_and, Bool.not_false, Bool.true_and, Bool.and_eq_true, beq_iff_eq]
          by_cases h1 : n = r.toNat
          · have : ¬ n = r.toNat + 1 := by omega
            simp [h1]
          · simp [h1]
        · simp only [Cur.wrDest, Bool.false_eq_true, if_false, if_true, Group.wrLanes2]
          rw [wrLanes_frame, wrLanes_frame]; simp [Group.sreg]
        · simp only [Cur.wrDest, Bool.false_eq_true, if_false, if_true, Group.wrLanes2]
          rw [wrLanes_frame, wrLanes_frame]
    · by_cases hm : c.pass k = 0
      · rw [wrDest_none c k wide r val hm]
        have ha : c.acts k = false := by simp [Cur.acts, hm]
        exact ⟨fun l n hl hn => by simp, fun n hn => by simp [ha], rfl⟩
      · have ha : c.acts k = true := by simpa [Cur.acts] using hm
        cases wide
        · rw [wrDest_scal c k r val hm]
          refine ⟨fun l n hl hn => by simp [Group.vreg], fun n hn => ?_, rfl⟩
          simp only [ha, Group.sreg, Group.wrS_s, mget_mput, Bool.true_and, Bool.false_and, beq_iff_eq, eq_comm (a := n)]
          simp
        · rw [wrDest_pair c k r val hm]
          refine ⟨fun l n hl hn => by simp [Group.vreg, Group.wrPair], fun n hn => ?_, rfl⟩
          simp only [ha, Group.sreg, Group.wrPair, Group.wrS_s, mget_mput, Bool.true_and, beq_iff_eq]
          by_cases h1 : n = r.toNat
          · have h2 : ¬ r.toNat + 1 = n := by omega
            rw [if_neg h2, if_pos h1.symm, if_pos h1]
          · by_cases h2 : n = r.toNat + 1
            · rw [if_pos h2.symm, if_neg h1, if_pos h2]
            · rw [if_neg (fun h => h2 h.symm), if_neg (fun h => h1 h.symm), if_neg h1, if_neg h2]
  · cases scal
    · cases wide <;> simp only [Cur.wrDest, Bool.false_eq_true, if_false, if_true, Group.wrLanes2]
      · rw [wrLanes_frame]
      · rw [wrLanes_frame, wrLanes_frame]
    · by_cases hm : c.pass k = 0
      · rw [wrDest_none c k wide r val hm]
      · cases wide
        · rw [wrDest_scal c k r val hm]; rfl
        · rw [wrDest_pair c k r val hm]; rfl

/-- An instruction that puts back its split with one destination written computes it. -/
theorem computes_of (i : Instr) (s : State) (c : Cur) (k : Com) (scal wide : Bool) (r : BitVec 8) (val : Nat → DWord)
    (hp : PairOk wide r) (h : exec i s = .next (s.put (c.wrDest k scal wide r val))) :
    Computes i s c k scal wide r.toNat val := by
  obtain ⟨hd, hs, he⟩ := wrDest_spec c k scal wide r val hp
  have hx := actsAlone_put s c (c.wrDest k scal wide r val).group c.split hs
  rw [← he] at hx
  exact ⟨_, _, h, hx, rfl, rfl, hd.1, hd.2.1, by rw [hd.2.2]⟩

/-- The shared form of format R completes with its destination written. -/
theorem aluR_computes (i : Instr) (f : FmtR) (wide : Bool) (s : State) (c : Cur) (val : Cur → Nat → DWord) (v : Nat → DWord)
    (h : s.cur? = some c) (hp : PairOk wide f.d) (he : exec i s = aluR f wide s val) (hv : val c = v) :
    Computes i s c f.com f.ds wide f.d.toNat v :=
  computes_of i s c f.com f.ds wide f.d v hp (by rw [he, ← hv]; simp [aluR, onSplit_eq s c _ h])

/-- The shared form of format I completes with its destination written. -/
theorem aluI_computes (i : Instr) (f : FmtI) (s : State) (c : Cur) (val : Cur → Nat → DWord) (v : Nat → DWord)
    (h : s.cur? = some c) (he : exec i s = aluI f s val) (hv : val c = v) :
    Computes i s c f.com f.ds false f.d.toNat v :=
  computes_of i s c f.com f.ds false f.d v (by simp [PairOk]) (by rw [he, ← hv]; simp [aluI, onSplit_eq s c _ h])

/-! ### Predicates -/

/-- The bit of one lane. -/
theorem laneBit_get (l k : Nat) (hl : l < 64) (hk : k < 64) : (laneBit l).getLsbD k = decide (l = k) := by
  unfold laneBit
  rw [BitVec.getLsbD_shiftLeft]
  by_cases h : l = k
  · subst h; simp [hl]
  · by_cases h2 : k < l
    · simp [h2, h]
    · have h3 : k - l ≠ 0 := by omega
      simp [h, h2, h3, hk]

/-- The mask of the lanes of `m` for which `f` holds. -/
theorem maskOf_get (m : Lanes) (f : Nat → Bool) (k : Nat) (hk : k < 64) : (maskOf m f).getLsbD k = (m.getLsbD k && f k) := by
  have key : ∀ (ls : List Nat) (a : Lanes), (∀ l ∈ ls, l < 64) →
      (ls.foldl (fun a l => if f l then a ||| laneBit l else a) a).getLsbD k = (a.getLsbD k || (decide (k ∈ ls) && f k)) := by
    intro ls
    induction ls with
    | nil => intro a _; simp
    | cons x ls ih =>
      intro a hx
      have h64 : x < 64 := hx x (by simp)
      rw [List.foldl_cons, ih _ (fun l hl => hx l (by simp [hl]))]
      by_cases hf : f x = true
      · rw [if_pos hf, BitVec.getLsbD_or, laneBit_get x k h64 hk]
        by_cases he : x = k
        · subst he; simp [hf]
        · have he' : ¬ k = x := fun h => he h.symm
          simp [he, he']
      · rw [if_neg hf]
        by_cases he : k = x
        · subst he
          have : f k = false := by simpa using hf
          simp [this]
        · simp [he]
  unfold maskOf
  rw [key (lanes m) 0 (fun l hl => ((mem_lanes m l).1 hl).1)]
  simp [mem_lanes, hk]

/-- A predicate written: what every predicate holds after it, and that nothing else of the group changes. -/
theorem wrPred_spec (c : Cur) (k : Com) (p : Nat) (val : Nat → Bool) :
    PredIs c (c.wrPred k p val) k p val ∧ (c.wrPred k p val).group.splits = c.group.splits := by
  by_cases hp : p ≥ 7
  · have h : c.wrPred k p val = c := by simp only [Cur.wrPred, Group.wrP, if_pos hp]
    rw [h]
    refine ⟨⟨fun l n hl => ?_, rfl⟩, rfl⟩
    have : decide (p < 7) = false := by simp; omega
    simp [this]
  · have h : (c.wrPred k p val).group = { c.group with
        p := mput c.group.p p ((mget 0 c.group.p p &&& ~~~(c.pass k)) ||| (maskOf (c.pass k) val &&& c.pass k)) } := by
      simp only [Cur.wrPred, Group.wrP, if_neg hp]
    refine ⟨⟨fun l n hl => ?_, by rw [h]⟩, by rw [h]⟩
    rw [h]
    simp only [Group.preg, mget_mput]
    by_cases hn : n ≥ 7
    · have : ¬ n = p := by omega
      have h2 : (n == p) = false := by simpa using this
      simp only [if_pos hn, h2, Bool.false_and]; rfl
    · rw [if_neg hn, if_neg hn]
      by_cases he : p = n
      · subst he
        have h7 : p < 7 := by omega
        simp only [if_true, BitVec.getLsbD_or, BitVec.getLsbD_and, BitVec.getLsbD_not, maskOf_get _ _ _ hl, beq_self_eq_true,
          Bool.true_and, decide_eq_true h7]
        cases (c.pass k).getLsbD l <;> simp only [hl, decide_true, Bool.not_false, Bool.not_true, Bool.and_true, Bool.and_false,
          Bool.true_and, Bool.false_and, Bool.or_false, Bool.false_or, Bool.false_eq_true, if_true, if_false]
      · have : ¬ n = p := fun h => he h.symm
        simp [he, this]

/-- A comparison completes with its predicate written. -/
theorem compares_of (i : Instr) (s : State) (c : Cur) (k : Com) (p : Nat) (val : Nat → Bool)
    (h : exec i s = .next (s.put (c.wrPred k p val))) : Compares i s c k p val := by
  obtain ⟨hd, hs⟩ := wrPred_spec c k p val
  have hx := actsAlone_put s c (c.wrPred k p val).group c.split hs
  exact ⟨_, _, h, hx, rfl, rfl, hd.1, by rw [hd.2]⟩

/-- The shared form of a comparison of format R. -/
theorem cmpR_compares (i : Instr) (f : FmtR) (s : State) (c : Cur) (val : Cur → Nat → Bool) (v : Nat → Bool)
    (h : s.cur? = some c) (he : exec i s = cmpR f s val) (hv : val c = v) : Compares i s c f.com f.d.toNat v :=
  compares_of i s c f.com f.d.toNat v (by rw [he, ← hv]; simp [cmpR, onSplit_eq s c _ h])

/-- The shared form of a comparison of format I. -/
theorem cmpI_compares (i : Instr) (f : FmtI) (s : State) (c : Cur) (val : Cur → Nat → Bool) (v : Nat → Bool)
    (h : s.cur? = some c) (he : exec i s = cmpI f s val) (hv : val c = v) : Compares i s c f.com f.d.toNat v :=
  compares_of i s c f.com f.d.toNat v (by rw [he, ← hv]; simp [cmpI, onSplit_eq s c _ h])

/-! ### Pending destinations -/

theorem mget?_foldl_mput (ns : List Nat) (v : Nat → Lanes) (m : SMap Lanes) (n : Nat) :
    mget? (ns.foldl (fun m n => mput m n (v n)) m) n = if n ∈ ns then some (v n) else mget? m n := by
  induction ns generalizing m with
  | nil => simp
  | cons x ns ih =>
    rw [List.foldl_cons, ih]
    by_cases h : n ∈ ns
    · simp [h]
    · rw [if_neg h, mget?_mput]
      by_cases h2 : x = n
      · subst h2; simp
      · have : ¬ n = x := fun h => h2 h.symm
        simp [h, h2, this]

/-- A predicate below p7 as an instruction reads it (R125, R146). -/
theorem rdP_eq (c : Cur) (n : Nat) (hn : ¬ n ≥ 7) :
    c.rdP n = ((c.split.pend.findSome? fun p => mget? p.oldP n).getD (mget 0 c.group.p n)) := by
  unfold Cur.rdP
  rw [if_neg hn]
  split <;> rename_i h <;> rw [h] <;> rfl

/-- A destination pending changes no predicate that an instruction reads (R125). -/
theorem defer_rdP (c : Cur) (id la : Nat) (landed : Bool) (dv ds dp : List Nat) (n : Nat) :
    (c.defer id la landed dv ds dp).rdP n = c.rdP n := by
  unfold Cur.defer
  split
  · rfl
  · by_cases hn : n ≥ 7
    · simp [Cur.rdP, hn]
    · rw [rdP_eq _ _ hn, rdP_eq c n hn]
      by_cases hla : la = 0
      · simp only [if_pos hla, List.findSome?_cons]; rfl
      · simp only [if_neg hla, List.findSome?_cons]
        rw [mget?_foldl_mput dp c.rdP [] n]
        by_cases hm : n ∈ dp
        · rw [if_pos hm]; exact rdP_eq c n hn
        · rw [if_neg hm]; rfl

/-- A destination pending changes which lanes pass in nothing. -/
@[simp] theorem deferI_pass (c : Cur) (i : Instr) (id : Nat) (landed : Bool) (k : Com) : (c.deferI i id landed).pass k = c.pass k := by
  have h : ∀ la dv ds dp, (c.defer id la landed dv ds dp).split.mask = c.split.mask := by
    intro la dv ds dp; unfold Cur.defer; split <;> rfl
  simp only [Cur.pass, Cur.deferI, defer_rdP, h]

/-- What a pending destination changes: the split's list of pending writes, and not that for a window of 0 whose result has
landed. -/
theorem deferI_spec (c : Cur) (i : Instr) (id : Nat) (landed : Bool) :
    ∃ q, c.deferI i id landed = { c with split := { c.split with pend := q } } ∧
      ((i.com?.map fun k => k.la.toNat).getD 0 = 0 → landed = true → q = c.split.pend) := by
  simp only [Cur.deferI, Cur.defer]
  split
  · rename_i h
    exact ⟨_, rfl, fun _ _ => rfl⟩
  · rename_i h
    refine ⟨_, rfl, fun h1 h2 => ?_⟩
    simp [h1, h2] at h

/-- A destination written after the split's pending writes have moved: as `wrDest_spec`. -/
theorem computesLate_of (i : Instr) (s : State) (c : Cur) (k : Com) (scal wide : Bool) (r : BitVec 8) (val : Nat → DWord) (n : Nat)
    (hk : i.com? = some k) (hp : PairOk wide r) (h : exec i s = .next (s.put ((c.deferI i n true).wrDest k scal wide r val))) :
    ComputesLate i s c k scal wide r.toNat val := by
  obtain ⟨q, hq, hla⟩ := deferI_spec c i n true
  obtain ⟨hd, hs, he⟩ := wrDest_spec (c.deferI i n true) k scal wide r val hp
  have hpass := deferI_pass c i n true k
  have hacts : (c.deferI i n true).acts k = c.acts k := by simp only [Cur.acts, hpass]
  have hg : (c.deferI i n true).group = c.group := by rw [hq]
  have hx := actsAlone_put s c ((c.deferI i n true).wrDest k scal wide r val).group { c.split with pend := q } (by rw [hs, hg])
  have hy : (c.deferI i n true).wrDest k scal wide r val =
      { c with group := ((c.deferI i n true).wrDest k scal wide r val).group, split := { c.split with pend := q } } := by
    rw [he, hq]
  rw [← hy] at hx
  refine ⟨_, _, h, hx, rfl, rfl, ?_, ?_⟩
  · intro h0
    exact hla (by simp [hk, h0]) rfl
  · simp only [DestIs, hpass, hacts, hg] at hd
    exact ⟨hd.1, hd.2.1, by rw [hd.2.2]⟩

/-! ### System values -/

/-- R86: ARGLO and ARGHI are the halves of ARGS, TASKLO and TASKHI those of the record's address, NTEAM of a task that is no graph node
is its count of teams up to 2^32 - 1 and 0xFFFF_FFFF from there on, and CTX, OWNER, PART and NPART are the context, its owner, its
device and the count of devices. -/
theorem State.sysValue_launch (s : State) (c : Cur) (k : Task) (lane : Nat) (h : s.taskOf c.team = some k) :
    s.sysValue c 0x0D lane = loWord k.args ∧ s.sysValue c 0x0E lane = hiWord k.args ∧
    s.sysValue c 0x17 lane = BitVec.ofNat 32 k.addr ∧ s.sysValue c 0x18 lane = BitVec.ofNat 32 (k.addr / 2 ^ 32) ∧
    (k.graph = false → s.sysValue c 0x07 lane = if k.teams < 2 ^ 32 then BitVec.ofNat 32 k.teams else 0xFFFFFFFF) ∧
    s.sysValue c 0x11 lane = BitVec.ofNat 32 (c.team.ctx % 64) ∧ s.sysValue c 0x12 lane = (s.ctx c.team.ctx).owner ∧
    s.sysValue c 0x13 lane = BitVec.ofNat 32 (ctxDevice c.team.ctx) ∧ s.sysValue c 0x14 lane = BitVec.ofNat 32 (nDevices s.mgmt.mode) := by
  refine ⟨?_, ?_, ?_, ?_, fun hg => ?_, rfl, rfl, rfl, rfl⟩ <;> simp [State.sysValue, Cur.sysTask, h]
  simp [hg]

end Sys2Proof.Machine
end

