-- ==== Sys2Proof/Laws/PerInstr.lean ====
section
/-! SUPPORT. Statements made for every instruction, one lemma for each constructor. -/
namespace Sys2Proof.Laws.Encoding

/-- Every constructor is one of three: an instruction word, which has the common fields, an epilogue word, or an event. -/
def Statement (i : Instr) : Prop := i.isEvent = (i.com?.isNone && !i.isEp)

theorem nop a : Statement (.nop a) := rfl
theorem iadd a : Statement (.iadd a) := rfl
theorem iaddImm a : Statement (.iaddImm a) := rfl
theorem isub a : Statement (.isub a) := rfl
theorem isubImm a : Statement (.isubImm a) := rfl
theorem imul a : Statement (.imul a) := rfl
theorem imulImm a : Statement (.imulImm a) := rfl
theorem imad a : Statement (.imad a) := rfl
theorem imin a : Statement (.imin a) := rfl
theorem iminImm a : Statement (.iminImm a) := rfl
theorem imax a : Statement (.imax a) := rfl
theorem imaxImm a : Statement (.imaxImm a) := rfl
theorem iabs a : Statement (.iabs a) := rfl
theorem icmp a : Statement (.icmp a) := rfl
theorem icmpImm a : Statement (.icmpImm a) := rfl
theorem shl a : Statement (.shl a) := rfl
theorem shlImm a : Statement (.shlImm a) := rfl
theorem shr a : Statement (.shr a) := rfl
theorem shrImm a : Statement (.shrImm a) := rfl
theorem sar a : Statement (.sar a) := rfl
theorem sarImm a : Statement (.sarImm a) := rfl
theorem log3 a : Statement (.log3 a) := rfl
theorem popc a : Statement (.popc a) := rfl
theorem clz a : Statement (.clz a) := rfl
theorem brev a : Statement (.brev a) := rfl
theorem bfx a : Statement (.bfx a) := rfl
theorem bfi a : Statement (.bfi a) := rfl
theorem lea a : Statement (.lea a) := rfl
theorem sel a : Statement (.sel a) := rfl
theorem mov a : Statement (.mov a) := rfl
theorem movi a : Statement (.movi a) := rfl
theorem fadd a : Statement (.fadd a) := rfl
theorem faddImm a : Statement (.faddImm a) := rfl
theorem fmul a : Statement (.fmul a) := rfl
theorem fmulImm a : Statement (.fmulImm a) := rfl
theorem ffma a : Statement (.ffma a) := rfl
theorem fmin a : Statement (.fmin a) := rfl
theorem fminImm a : Statement (.fminImm a) := rfl
theorem fmax a : Statement (.fmax a) := rfl
theorem fmaxImm a : Statement (.fmaxImm a) := rfl
theorem fcmp a : Statement (.fcmp a) := rfl
theorem fcmpImm a : Statement (.fcmpImm a) := rfl
theorem frcp a : Statement (.frcp a) := rfl
theorem frsq a : Statement (.frsq a) := rfl
theorem fsqrt a : Statement (.fsqrt a) := rfl
theorem fex2 a : Statement (.fex2 a) := rfl
theorem flg2 a : Statement (.flg2 a) := rfl
theorem fsin a : Statement (.fsin a) := rfl
theorem fcos a : Statement (.fcos a) := rfl
theorem ftanh a : Statement (.ftanh a) := rfl
theorem cvt a : Statement (.cvt a) := rfl
theorem cvtef a : Statement (.cvtef a) := rfl
theorem pack4 a : Statement (.pack4 a) := rfl
theorem unpk4 a : Statement (.unpk4 a) := rfl
theorem shfl a : Statement (.shfl a) := rfl
theorem vote a : Statement (.vote a) := rfl
theorem redg a : Statement (.redg a) := rfl
theorem scang a : Statement (.scang a) := rfl
theorem ld a : Statement (.ld a) := rfl
theorem st a : Statement (.st a) := rfl
theorem ldrsv a : Statement (.ldrsv a) := rfl
theorem stcnd a : Statement (.stcnd a) := rfl
theorem atom a : Statement (.atom a) := rfl
theorem atcas a : Statement (.atcas a) := rfl
theorem red a : Statement (.red a) := rfl
theorem fence a : Statement (.fence a) := rfl
theorem pref a : Statement (.pref a) := rfl
theorem stashm a : Statement (.stashm a) := rfl
theorem stashw a : Statement (.stashw a) := rfl
theorem stashu a : Statement (.stashu a) := rfl
theorem cpy a : Statement (.cpy a) := rfl
theorem cpyt a : Statement (.cpyt a) := rfl
theorem closeb a : Statement (.closeb a) := rfl
theorem waitb a : Statement (.waitb a) := rfl
theorem bufcfg a : Statement (.bufcfg a) := rfl
theorem bufwait a : Statement (.bufwait a) := rfl
theorem bufrel a : Statement (.bufrel a) := rfl
theorem lnstart a : Statement (.lnstart a) := rfl
theorem lnstop a : Statement (.lnstop a) := rfl
theorem mma a : Statement (.mma a) := rfl
theorem mmas a : Statement (.mmas a) := rfl
theorem mdrain a : Statement (.mdrain a) := rfl
theorem epload a : Statement (.epload a) := rfl
theorem bra a : Statement (.bra a) := rfl
theorem brx a : Statement (.brx a) := rfl
theorem call a : Statement (.call a) := rfl
theorem ret a : Statement (.ret a) := rfl
theorem retT a : Statement (.retT a) := rfl
theorem merge a : Statement (.merge a) := rfl
theorem loop a : Statement (.loop a) := rfl
theorem exit a : Statement (.exit a) := rfl
theorem yield a : Statement (.yield a) := rfl
theorem trap a : Statement (.trap a) := rfl
theorem bkpt a : Statement (.bkpt a) := rfl
theorem bar a : Statement (.bar a) := rfl
theorem bara a : Statement (.bara a) := rfl
theorem barw a : Statement (.barw a) := rfl
theorem movsr a : Statement (.movsr a) := rfl
theorem movsrWrite a : Statement (.movsrWrite a) := rfl
theorem movsv a : Statement (.movsv a) := rfl
theorem time a : Statement (.time a) := rfl
theorem cycle a : Statement (.cycle a) := rfl
theorem pgdist a : Statement (.pgdist a) := rfl
theorem setfmt a : Statement (.setfmt a) := rfl
theorem rag a : Statement (.rag a) := rfl
theorem rrs a : Statement (.rrs a) := rfl
theorem rhnd a : Statement (.rhnd a) := rfl
theorem rwait a : Statement (.rwait a) := rfl
theorem rrank a : Statement (.rrank a) := rfl
theorem rput a : Statement (.rput a) := rfl
theorem rget a : Statement (.rget a) := rfl
theorem ratom a : Statement (.ratom a) := rfl
theorem rpost a : Statement (.rpost a) := rfl
theorem rpostGet a : Statement (.rpostGet a) := rfl
theorem rcqw a : Statement (.rcqw a) := rfl
theorem wreg a : Statement (.wreg a) := rfl
theorem wrev a : Statement (.wrev a) := rfl
theorem tasknew a : Statement (.tasknew a) := rfl
theorem taskdec a : Statement (.taskdec a) := rfl
theorem temit a : Statement (.temit a) := rfl
theorem qpull a : Statement (.qpull a) := rfl
theorem qpush a : Statement (.qpush a) := rfl
theorem qpushClose a : Statement (.qpushClose a) := rfl
theorem arrv a : Statement (.arrv a) := rfl
theorem snew a : Statement (.snew a) := rfl
theorem sres a : Statement (.sres a) := rfl
theorem scommit a : Statement (.scommit a) := rfl
theorem sfork a : Statement (.sfork a) := rfl
theorem slen a : Statement (.slen a) := rfl
theorem srel a : Statement (.srel a) := rfl
theorem sseek a : Statement (.sseek a) := rfl
theorem kst a : Statement (.kst a) := rfl
theorem bgath a : Statement (.bgath a) := rfl
theorem projld a : Statement (.projld a) := rfl
theorem projldFree a : Statement (.projldFree a) := rfl
theorem flpop a : Statement (.flpop a) := rfl
theorem flpush a : Statement (.flpush a) := rfl
theorem pfxfind a : Statement (.pfxfind a) := rfl
theorem pfxins a : Statement (.pfxins a) := rfl
theorem hashb a : Statement (.hashb a) := rfl
theorem plcq a : Statement (.plcq a) := rfl
theorem plcqShort a : Statement (.plcqShort a) := rfl
theorem epadd a : Statement (.epadd a) := rfl
theorem epmul a : Statement (.epmul a) := rfl
theorem epfma a : Statement (.epfma a) := rfl
theorem epmax a : Statement (.epmax a) := rfl
theorem epmin a : Statement (.epmin a) := rfl
theorem epexp a : Statement (.epexp a) := rfl
theorem eplut a : Statement (.eplut a) := rfl
theorem epcvt a : Statement (.epcvt a) := rfl
theorem epbias a : Statement (.epbias a) := rfl
theorem epscl a : Statement (.epscl a) := rfl
theorem epst a : Statement (.epst a) := rfl
theorem epend : Statement (.epend) := rfl
theorem clauseBegin a : Statement (.clauseBegin a) := rfl
theorem splitMerge a b : Statement (.splitMerge a b) := rfl
theorem mergeComplete a b : Statement (.mergeComplete a b) := rfl
theorem parkTimeout a : Statement (.parkTimeout a) := rfl
theorem fairnessYield a : Statement (.fairnessYield a) := rfl
theorem loadReturn a b c : Statement (.loadReturn a b c) := rfl
theorem storePerformed a b : Statement (.storePerformed a b) := rfl
theorem splitExitComplete a : Statement (.splitExitComplete a) := rfl
theorem matrixOpComplete a b : Statement (.matrixOpComplete a b) := rfl
theorem matrixPassStart a b : Statement (.matrixPassStart a b) := rfl
theorem drainRow a : Statement (.drainRow a) := rfl
theorem epiloguePlaceTake a b : Statement (.epiloguePlaceTake a b) := rfl
theorem copyComplete a b : Statement (.copyComplete a b) := rfl
theorem engineCommandStart a b : Statement (.engineCommandStart a b) := rfl
theorem engineCommandComplete a b : Statement (.engineCommandComplete a b) := rfl
theorem bufferEntryTake a b : Statement (.bufferEntryTake a b) := rfl
theorem bufcfgTakeEffect a b : Statement (.bufcfgTakeEffect a b) := rfl
theorem windlassRunStart a : Statement (.windlassRunStart a) := rfl
theorem windlassIteration a : Statement (.windlassIteration a) := rfl
theorem qpullWake a : Statement (.qpullWake a) := rfl
theorem qpushAppend a b : Statement (.qpushAppend a b) := rfl
theorem projldTakeEffect a b : Statement (.projldTakeEffect a b) := rfl
theorem dieSchedulerPlace a : Statement (.dieSchedulerPlace a) := rfl
theorem taskBlocking a b : Statement (.taskBlocking a b) := rfl
theorem starvationForcedPlacement a b : Statement (.starvationForcedPlacement a b) := rfl
theorem teamCompletionEvent a : Statement (.teamCompletionEvent a) := rfl
theorem graphRecordWritten a b : Statement (.graphRecordWritten a b) := rfl
theorem graphNodeLaunch a : Statement (.graphNodeLaunch a) := rfl
theorem graphFlushTimeout a : Statement (.graphFlushTimeout a) := rfl
theorem hostTaskDoorbell a b : Statement (.hostTaskDoorbell a b) := rfl
theorem stashRecall a b c : Statement (.stashRecall a b c) := rfl
theorem weathervaneDecay a : Statement (.weathervaneDecay a) := rfl
theorem migrationRequest a b c : Statement (.migrationRequest a b c) := rfl
theorem tlbInvalidateCommand a b c : Statement (.tlbInvalidateCommand a b c) := rfl
theorem hostBar2Access a : Statement (.hostBar2Access a) := rfl
theorem hostContextResume a : Statement (.hostContextResume a) := rfl
theorem hostContextSwitch a b : Statement (.hostContextSwitch a b) := rfl
theorem contextEnd a : Statement (.contextEnd a) := rfl
theorem hostSetDebugMode a b c : Statement (.hostSetDebugMode a b c) := rfl
theorem teamStop a b : Statement (.teamStop a b) := rfl
theorem hostSingleStep a : Statement (.hostSingleStep a) := rfl
theorem hostResumeGroup a b : Statement (.hostResumeGroup a b) := rfl
theorem frameReceive a b c : Statement (.frameReceive a b c) := rfl
theorem frameReplay a : Statement (.frameReplay a) := rfl
theorem channelRetire a : Statement (.channelRetire a) := rfl
theorem requestArrive a b c : Statement (.requestArrive a b c) := rfl
theorem dieHeartbeatTimeout a : Statement (.dieHeartbeatTimeout a) := rfl
theorem dieFatalError a : Statement (.dieFatalError a) := rfl
theorem dieOvertemp a : Statement (.dieOvertemp a) := rfl
theorem wrapEffect : Statement (.wrapEffect) := rfl
theorem partitionReform a : Statement (.partitionReform a) := rfl
theorem hostDumpAck : Statement (.hostDumpAck) := rfl
theorem partmodeRequest a : Statement (.partmodeRequest a) := rfl
theorem modeChangeComplete : Statement (.modeChangeComplete) := rfl
theorem modeChangeDrainTimeout : Statement (.modeChangeDrainTimeout) := rfl
theorem timeSyncMessage a b : Statement (.timeSyncMessage a b) := rfl
theorem timeMasterFailover : Statement (.timeMasterFailover) := rfl
theorem powerOnBringup a b : Statement (.powerOnBringup a b) := rfl
theorem powerCapSet a : Statement (.powerCapSet a) := rfl
theorem powerGating a b : Statement (.powerGating a b) := rfl
theorem thermalLimit : Statement (.thermalLimit) := rfl
theorem firmwareBankSwitch : Statement (.firmwareBankSwitch) := rfl
theorem mailboxCommand a : Statement (.mailboxCommand a) := rfl
theorem healthSample a : Statement (.healthSample a) := rfl
theorem lysjaWatchdogTakeover : Statement (.lysjaWatchdogTakeover) := rfl
theorem laneFailure a b c : Statement (.laneFailure a b c) := rfl
theorem eccCorrected a : Statement (.eccCorrected a) := rfl
theorem eccUncorrectable a b c : Statement (.eccUncorrectable a b c) := rfl
theorem ringTileArrive a b : Statement (.ringTileArrive a b) := rfl
theorem ringTileAccept a b : Statement (.ringTileAccept a b) := rfl
theorem rwaitSatisfied a : Statement (.rwaitSatisfied a) := rfl
theorem fabricSlotBegin a b : Statement (.fabricSlotBegin a b) := rfl
theorem slottabEnable a b : Statement (.slottabEnable a b) := rfl
theorem slottabDisable a : Statement (.slottabDisable a) := rfl
theorem slotTableTakeEffect : Statement (.slotTableTakeEffect) := rfl
theorem fabricPacketReceive a : Statement (.fabricPacketReceive a) := rfl
theorem relayForward a : Statement (.relayForward a) := rfl
theorem fabricAckReceive a b c : Statement (.fabricAckReceive a b c) := rfl
theorem fabricRetransmit a : Statement (.fabricRetransmit a) := rfl
theorem connectionReset a : Statement (.connectionReset a) := rfl
theorem rpostDeadline a : Statement (.rpostDeadline a) := rfl
theorem rcqwSatisfied a : Statement (.rcqwSatisfied a) := rfl
theorem channelIsolation a : Statement (.channelIsolation a) := rfl
theorem systemRegisterWrite a b c d : Statement (.systemRegisterWrite a b c d) := rfl
theorem inServiceTest a : Statement (.inServiceTest a) := rfl

end Sys2Proof.Laws.Encoding
end

