-- ==== Sys2Proof/Tests/Slice0.lean ====
section
/-! SUPPORT. The model's own tests: words of the spec, ill-formed terms, worked values of the spec, and a witness for the
hypotheses of each statement. -/
namespace Sys2Proof.Tests
open Sys2Proof Sys2Proof.Machine

-- One test after another: many at once take more memory than a check has.
set_option Elab.async false

/-! ### A small machine

One context, live and privileged, one task, one team of one group of eight lanes on core 0 of die 0, whose TLB holds its first
sixteen pages, each at the address that it is named by. -/

/-- The leaf of page `n`, with every permission, in frame `n` of die 0. -/
def leafOf (n : Nat) : DWord := BitVec.ofNat 64 (n * 65536 + 0x8F)
def die0 : Die := { tlb := (List.range 16).map fun n => (n, leafOf n) }
def ctx0 : Context := { live := true, priv := true }
/-- An image of 2 KiB at 0x1000: its code section goes up to its constant section at 0x400. -/
def task0 : Task :=
  { ctx := 0, addr := 0x8000, kimg := 0x1000, teams := 2, shape := 0x8000, local_ := 4096, nbars := 2, affin := 1, graph := false
    prio := 0, args := 0x9000, ttgt := [], gtgt := [], qbase := 0, flush := 0, coal := 1, rsz := 64, qlog := 4, gridId := 0
    entries := [0x80, 0x80], trapv := 0, dictOff := 0, dictCnt := 0, rgnCnt := 4, codeOff := 0x80, constOff := 0x400, imgSize := 0x800 }
def sp0 : Split := { pc := 0x1080, mask := 0xFF, next := 0x1090 }
def gr0 : Group := { role := 0, roleIdx := 0, width := 8, budget := 64, slot := 0, base := 0, splits := [(0, sp0)] }
def tm0 : Team := { ctx := 0, task := 0, index := 0, die := 0, core := 0, base := 0, bytes := 4096, bars := [{ e := 1 }, { e := 2 }], groups := [(0, gr0)] }
/-- The machine with a team in it, the turn with its first split. -/
def mach (t : Team) : State :=
  { State.reset with
    turn := .split ⟨0, 0, 0⟩, teams := [(0, t)], ctxs := [(0, ctx0)], dies := [(0, die0)], tasks := [(0, task0)], nextId := 100 }
/-- The team with another group, with another split, and with given scalar registers. -/
def withGroup (g : Group) : Team := { tm0 with groups := [(0, g)] }
def withSplit (p : Split) : Team := withGroup { gr0 with splits := [(0, p)] }
def withS (r : SMap Word) : Team := withGroup { gr0 with s := r }
/-- The split whose turn it is. -/
def curOf (t : Team) : Cur := ⟨⟨0, 0, 0⟩, t, (mget? t.groups 0).getD gr0, ((mget? t.groups 0).bind fun g => mget? g.splits 0).getD sp0⟩
def com0 : Com := ⟨0, false, 7⟩
def s0 : State := mach tm0
def c0 : Cur := curOf tm0

theorem noStash_of (s : State) (h : s.teams.all (fun q => q.2.wins.isEmpty) = true) (hb : s.wbuf = [] := by rfl) : s.noStash := by
  refine ⟨fun q hq w hw => ?_, hb⟩
  have := List.all_eq_true.mp h q hq
  rw [List.isEmpty_iff] at this
  rw [this] at hw
  cases hw

/-- A result that a check finds to be there is there. -/
def okd {ε α : Type} (x : Except ε α) : Bool := match x with | .ok _ => true | .error _ => false
theorem ok_of {ε α : Type} {x : Except ε α} (h : okd x = true) : ∃ a, x = .ok a := by
  cases x with
  | ok a => exact ⟨a, rfl⟩
  | error _ => simp [okd] at h
/-- A result that a check finds to be a value is that value. -/
def okIs {ε α : Type} [DecidableEq α] (x : Except ε α) (a : α) : Bool := match x with | .ok b => decide (b = a) | .error _ => false
theorem ok_eq {ε α : Type} [DecidableEq α] {x : Except ε α} {a : α} (h : okIs x a = true) : x = .ok a := by
  cases x with
  | ok b => rw [of_decide_eq_true h]
  | error _ => simp [okIs] at h
theorem error_of {ε α : Type} {x : Except ε α} (h : okd x = false) : ∃ e, x = .error e := by
  cases x with
  | ok a => simp [okd] at h
  | error e => exact ⟨e, rfl⟩

/-- A range inside 4 KiB of one of the machine's pages is mapped to the address that it is named by. -/
theorem mapped_mach (s : State) (D : Nat → Prop) (va n : Nat) (hd : (s.die 0).tlb = die0.tlb) (hl : s.leafOk 0 (leafOf (va / 65536)) = true)
    (h16 : va / 65536 < 16) (hp : va % 4096 + n ≤ 4096) : Mapped s D 0 0 va n va := by
  have hb : va / 65536 ∈ List.range 16 := List.mem_range.mpr h16
  have key : ∀ k ∈ List.range 16, mget? die0.tlb k = some (leafOf k) ∧ (leafOf k).getLsbD 1 = true ∧ (leafOf k).getLsbD 2 = true ∧
      field (leafOf k) 8 2 = 0 ∧ (leafOf k).getLsbD 6 = false ∧ field (leafOf k) 12 4 = 0 ∧ field (leafOf k) 16 31 = k := by decide
  obtain ⟨k1, k2, k3, k4, k5, k6, k7⟩ := key _ hb
  have hk : tlbKey 0 va = va / 65536 := by unfold tlbKey; omega
  have := mapped_of_tlb s D 0 0 va n (leafOf (va / 65536)) (by rw [hd, hk]; exact k1) hl k2 k3 k4 k5 hp (by omega)
  rw [k6, k7] at this
  have e2 : hbmBase 0 + va / 65536 * 65536 + va % 65536 = va := by unfold hbmBase; omega
  rwa [e2] at this

/-! ### Words of the spec

The words below with an operand list in their entry's example are the spec's own examples; the rest were put together by
hand from the format tables of 04 (R111 to R120) and the opcode of the entry. -/

/-- The word decodes to the instruction, which no check of a 256-register budget refuses, and the encoder gives it back. -/
def reads (p : DWord × Instr) : Bool :=
  (decodeWord p.1).toOption = some p.2 && p.2.illegal 256 = none && encode p.2 = p.1

theorem test_decode_nop : reads (0x0000_0000_0000_0700, .nop ⟨0, false, 7⟩) = true := by decide

theorem test_decode_integer_1 : List.all [
    (0x0445_0002_0109_0701, .iadd ⟨⟨0, false, 7⟩, 4, false, true, false, false, .s16x2, 0, 2, 1, 9⟩),
    (0x0000_1030_0303_0781, .iaddImm ⟨⟨0, false, 7⟩, 0x10, 0, true, true, .u32, 3, 3⟩),
    (0x0000_0001_0203_0702, .isub ⟨⟨0, false, 7⟩, 0, false, false, false, false, .u32, 0, 1, 2, 3⟩),
    (0x0000_1030_0303_0782, .isubImm ⟨⟨0, false, 7⟩, 0x10, 0, true, true, .u32, 3, 3⟩),
    (0x0000_0001_0203_0703, .imul ⟨⟨0, false, 7⟩, 0, false, false, false, false, .u32, 0, 1, 2, 3⟩),
    (0x0000_1030_0303_0783, .imulImm ⟨⟨0, false, 7⟩, 0x10, 0, true, true, .u32, 3, 3⟩),
    (0x8000_0403_0206_0704, .imad ⟨⟨0, false, 7⟩, 128, false, false, false, false, .u32, 4, 3, 2, 6⟩),
    (0x0001_0001_0203_0705, .imin ⟨⟨0, false, 7⟩, 0, false, false, false, false, .s32, 0, 1, 2, 3⟩),
    (0x0000_1030_0303_0785, .iminImm ⟨⟨0, false, 7⟩, 0x10, 0, true, true, .u32, 3, 3⟩),
    (0x0001_0001_0203_0706, .imax ⟨⟨0, false, 7⟩, 0, false, false, false, false, .s32, 0, 1, 2, 3⟩),
    (0x0000_1030_0303_0786, .imaxImm ⟨⟨0, false, 7⟩, 0x10, 0, true, true, .u32, 3, 3⟩),
    (0x0001_0000_0203_0707, .iabs ⟨⟨0, false, 7⟩, 0, false, false, false, false, .s32, 0, 0, 2, 3⟩),
    (0x0001_0205_0402_0708, .icmp ⟨⟨0, false, 7⟩, 0, false, false, false, false, .s32, 2, 5, 4, 2⟩),
    (0x0000_0A91_0301_0788, .icmpImm ⟨⟨0, false, 7⟩, 0xa, 2, false, true, .s32, 3, 1⟩),
    (0x0000_0003_0405_0709, .shl ⟨⟨0, false, 7⟩, 0, false, false, false, false, .u32, 0, 3, 4, 5⟩),
    (0x0000_0500_0203_0789, .shlImm ⟨⟨0, false, 7⟩, 0x5, 0, false, false, .u32, 2, 3⟩),
    (0x0000_0001_0203_070A, .shr ⟨⟨0, false, 7⟩, 0, false, false, false, false, .u32, 0, 1, 2, 3⟩),
    (0x0000_0800_0405_078A, .shrImm ⟨⟨0, false, 7⟩, 0x8, 0, false, false, .u32, 4, 5⟩),
    (0x0001_0003_0405_070B, .sar ⟨⟨0, false, 7⟩, 0, false, false, false, false, .s32, 0, 3, 4, 5⟩),
    (0x0000_1F01_0405_078B, .sarImm ⟨⟨0, false, 7⟩, 0x1f, 0, false, false, .s32, 4, 5⟩),
    (0x0000_9602_0105_070C, .log3 ⟨⟨0, false, 7⟩, 0, false, false, false, false, .u32, 150, 2, 1, 5⟩),
    (0x0000_0000_0203_070D, .popc ⟨⟨0, false, 7⟩, 0, false, false, false, false, .u32, 0, 0, 2, 3⟩),
    (0x0002_0000_0403_070E, .clz ⟨⟨0, false, 7⟩, 0, false, false, false, false, .u64, 0, 0, 4, 3⟩),
    (0x0000_0000_0203_070F, .brev ⟨⟨0, false, 7⟩, 0, false, false, false, false, .u32, 0, 0, 2, 3⟩)] reads = true := by decide

theorem test_decode_integer_2 : List.all [
    (0x0041_0003_040A_0710, .bfx ⟨⟨0, false, 7⟩, 0, false, true, false, false, .s32, 0, 3, 4, 10⟩),
    (0x0000_0706_040A_0711, .bfi ⟨⟨0, false, 7⟩, 0, false, false, false, false, .u32, 7, 6, 4, 10⟩),
    (0x0003_0306_040A_0712, .lea ⟨⟨0, false, 7⟩, 0, false, false, false, false, .s64, 3, 6, 4, 10⟩),
    (0x0000_0302_0107_0713, .sel ⟨⟨0, false, 7⟩, 0, false, false, false, false, .u32, 3, 2, 1, 7⟩),
    (0x0020_0000_0305_0714, .mov ⟨⟨0, false, 7⟩, 0, false, false, true, false, .u32, 0, 0, 3, 5⟩),
    (0x1234_5678_0107_0715, .movi ⟨⟨0, false, 7⟩, 0x12345678, true, 7⟩)] reads = true := by decide

theorem test_decode_float_1 : List.all [
    (0x0906_0001_0203_0720, .fadd ⟨⟨0, false, 7⟩, 9, false, false, false, false, .f32, 0, 1, 2, 3⟩),
    (0x3F00_0006_0405_07A0, .faddImm ⟨⟨0, false, 7⟩, 0x3f0000, 0, false, false, .f32, 4, 5⟩),
    (0x0006_0008_0414_0721, .fmul ⟨⟨0, false, 7⟩, 0, false, false, false, false, .f32, 0, 8, 4, 20⟩),
    (0x3F00_0006_0405_07A1, .fmulImm ⟨⟨0, false, 7⟩, 0x3f0000, 0, false, false, .f32, 4, 5⟩),
    (0x0006_0A05_040A_0722, .ffma ⟨⟨0, false, 7⟩, 0, false, false, false, false, .f32, 10, 5, 4, 10⟩),
    (0x0006_0001_0203_0723, .fmin ⟨⟨0, false, 7⟩, 0, false, false, false, false, .f32, 0, 1, 2, 3⟩),
    (0x3F00_0006_0405_07A3, .fminImm ⟨⟨0, false, 7⟩, 0x3f0000, 0, false, false, .f32, 4, 5⟩),
    (0x0006_0001_0203_0724, .fmax ⟨⟨0, false, 7⟩, 0, false, false, false, false, .f32, 0, 1, 2, 3⟩),
    (0x3F00_0006_0405_07A4, .fmaxImm ⟨⟨0, false, 7⟩, 0x3f0000, 0, false, false, .f32, 4, 5⟩),
    (0x0006_0205_0402_0725, .fcmp ⟨⟨0, false, 7⟩, 0, false, false, false, false, .f32, 2, 5, 4, 2⟩),
    (0x3F80_0096_0301_07A5, .fcmpImm ⟨⟨0, false, 7⟩, 0x3f8000, 2, false, true, .f32, 3, 1⟩),
    (0x0006_0000_0307_0728, .frcp ⟨⟨0, false, 7⟩, 0, false, false, false, false, .f32, 0, 0, 3, 7⟩),
    (0x2006_0000_0307_0729, .frsq ⟨⟨0, false, 7⟩, 32, false, false, false, false, .f32, 0, 0, 3, 7⟩),
    (0x0006_0000_0307_072A, .fsqrt ⟨⟨0, false, 7⟩, 0, false, false, false, false, .f32, 0, 0, 3, 7⟩),
    (0x0006_0000_0307_072B, .fex2 ⟨⟨0, false, 7⟩, 0, false, false, false, false, .f32, 0, 0, 3, 7⟩),
    (0x0006_0000_0307_072C, .flg2 ⟨⟨0, false, 7⟩, 0, false, false, false, false, .f32, 0, 0, 3, 7⟩),
    (0x0006_0000_0307_072D, .fsin ⟨⟨0, false, 7⟩, 0, false, false, false, false, .f32, 0, 0, 3, 7⟩),
    (0x0006_0000_0307_072E, .fcos ⟨⟨0, false, 7⟩, 0, false, false, false, false, .f32, 0, 0, 3, 7⟩),
    (0x0006_0000_0307_072F, .ftanh ⟨⟨0, false, 7⟩, 0, false, false, false, false, .f32, 0, 0, 3, 7⟩),
    (0x0107_0600_0206_0730, .cvt ⟨⟨0, false, 7⟩, 1, false, false, false, false, .f16, 6, 0, 2, 6⟩),
    (0x040C_0000_0208_0731, .cvtef ⟨⟨0, false, 7⟩, 4, false, false, false, false, .e4m3x4, 0, 0, 2, 8⟩),
    (0x000C_0000_080C_0732, .pack4 ⟨⟨0, false, 7⟩, 0, false, false, false, false, .e4m3x4, 0, 0, 8, 12⟩),
    (0x000C_0000_0C08_0733, .unpk4 ⟨⟨0, false, 7⟩, 0, false, false, false, false, .e4m3x4, 0, 0, 12, 8⟩),
    (0x0040_3602_0406_0738, .shfl ⟨⟨0, false, 7⟩, 0, false, true, false, false, .u32, 54, 2, 4, 6⟩)] reads = true := by decide

theorem test_decode_float_2 : List.all [
    (0x0000_F805_0406_0738, .shfl ⟨⟨0, false, 7⟩, 0, false, false, false, false, .u32, 248, 5, 4, 6⟩),
    (0x0000_0000_0103_0739, .vote ⟨⟨0, false, 7⟩, 0, false, false, false, false, .u32, 0, 0, 1, 3⟩),
    (0x0016_0600_0406_073A, .redg ⟨⟨0, false, 7⟩, 0, false, false, false, true, .f32, 6, 0, 4, 6⟩),
    (0x0000_0000_0406_073B, .scang ⟨⟨0, false, 7⟩, 0, false, false, false, false, .u32, 0, 0, 4, 6⟩),
    (0x0006_1600_0406_073B, .scang ⟨⟨0, false, 7⟩, 0, false, false, false, false, .f32, 22, 0, 4, 6⟩)] reads = true := by decide

theorem test_decode_memory_1 : List.all [
    (0x0302_9402_0408_0740, .ld ⟨⟨0, false, 7⟩, 3, 0, 1, 2, false, true, false, 4, 2, 4, 8⟩),
    (0x0000_1201_0002_0741, .st ⟨⟨0, false, 7⟩, 0, 0, 0, 0, false, true, false, 2, 1, 0, 2⟩),
    (0x0005_12FF_0401_0741, .st ⟨⟨0, false, 7⟩, 0, 0, 2, 4, false, true, false, 2, 255, 4, 1⟩),
    (0x0001_12FF_0206_0742, .ldrsv ⟨⟨0, false, 7⟩, 0, 0, 0, 4, false, true, false, 2, 255, 2, 6⟩),
    (0x0001_12FF_0206_0743, .stcnd ⟨⟨0, false, 7⟩, 0, 0, 0, 4, false, true, false, 2, 255, 2, 6⟩),
    (0x0001_12FF_0207_0744, .atom ⟨⟨0, false, 7⟩, 0, 0, 0, 4, false, true, false, 2, 255, 2, 7⟩),
    (0x1207_12FF_0207_0744, .atom ⟨⟨0, false, 7⟩, 18, 0, 3, 4, false, true, false, 2, 255, 2, 7⟩),
    (0x0007_12FF_0206_0745, .atcas ⟨⟨0, false, 7⟩, 0, 0, 3, 4, false, true, false, 2, 255, 2, 6⟩),
    (0x0001_12FF_0207_0746, .red ⟨⟨0, false, 7⟩, 0, 0, 0, 4, false, true, false, 2, 255, 2, 7⟩),
    (0x0007_0000_0000_0747, .fence ⟨⟨0, false, 7⟩, 0, 0, 3, 4, false, false, false, 0, 0, 0, 0⟩),
    (0x0107_0000_0000_0747, .fence ⟨⟨0, false, 7⟩, 1, 0, 3, 4, false, false, false, 0, 0, 0, 0⟩),
    (0x0018_1204_0200_0748, .pref ⟨⟨0, false, 7⟩, 0, 3, 0, 0, false, true, false, 2, 4, 2, 0⟩),
    (0x0100_1007_0406_0749, .stashm ⟨⟨0, false, 7⟩, 1, 0, 0, 0, false, true, false, 0, 7, 4, 6⟩),
    (0x0100_0000_0000_074A, .stashw ⟨⟨0, false, 7⟩, 1, 0, 0, 0, false, false, false, 0, 0, 0, 0⟩),
    (0x0100_0000_0000_074B, .stashu ⟨⟨0, false, 7⟩, 1, 0, 0, 0, false, false, false, 0, 0, 0, 0⟩),
    (0x0200_000C_0A14_0750, .cpy ⟨⟨0, false, 7⟩, 2, 0, 0, 0, 12, 10, 20⟩),
    (0x1200_0D0C_0A14_0751, .cpyt ⟨⟨0, false, 7⟩, 18, 0, 0, 13, 12, 10, 20⟩),
    (0x0000_0000_000C_0752, .closeb ⟨⟨0, false, 7⟩, 0, 0, 0, 0, 0, 0, 12⟩),
    (0x0000_0000_000C_0753, .waitb ⟨⟨0, false, 7⟩, 0, 0, 0, 0, 0, 0, 12⟩),
    (0x0020_0706_0504_0754, .bufcfg ⟨⟨0, false, 7⟩, 0, 2, 0, 7, 6, 5, 4⟩),
    (0x0120_0000_0009_0755, .bufwait ⟨⟨0, false, 7⟩, 1, 2, 0, 0, 0, 0, 9⟩),
    (0x0120_0000_0000_0756, .bufrel ⟨⟨0, false, 7⟩, 1, 2, 0, 0, 0, 0, 0⟩),
    (0x0000_0000_0004_0757, .lnstart ⟨⟨0, false, 7⟩, 0, 0, 0, 0, 0, 0, 4⟩),
    (0x0000_0000_0000_0758, .lnstop ⟨⟨0, false, 7⟩, 0, 0, 0, 0, 0, 0, 0⟩)] reads = true := by decide

theorem test_decode_memory_2 : List.all [
    (0x0001_1060_0020_075C, .mma ⟨⟨0, false, 7⟩, 0, 0, false, false, 0, 2, 1, false, false, false, false, 96, 0, 32⟩),
    (0x0000_0904_1040_075C, .mma ⟨⟨0, false, 7⟩, 0, 0, false, false, 0, 0, 0, true, false, false, true, 4, 16, 64⟩),
    (0x0030_0102_1040_075C, .mma ⟨⟨0, false, 7⟩, 0, 0, true, true, 0, 0, 0, false, false, false, true, 2, 16, 64⟩),
    (0x0840_2904_0040_075D, .mmas ⟨⟨0, false, 7⟩, 8, 1, false, false, 0, 0, 2, true, false, false, true, 4, 0, 64⟩),
    (0x4000_0000_0C0A_075E, .mdrain ⟨⟨0, false, 7⟩, 64, 0, 0, 0, 0, 12, 10⟩),
    (0x4001_0000_0C0A_075E, .mdrain ⟨⟨0, false, 7⟩, 64, 0, 1, 0, 0, 12, 10⟩),
    (0x203A_0000_0000_075E, .mdrain ⟨⟨0, false, 7⟩, 32, 3, 10, 0, 0, 0, 0⟩),
    (0x0000_0000_0000_075F, .epload ⟨⟨0, false, 7⟩, 0, 0, 0, 0, 0, 0, 0⟩)] reads = true := by decide

theorem test_decode_control_1 : List.all [
    (0x0020_0000_1000_0260, .bra ⟨⟨0, false, 2⟩, 32, 16, 0, 0⟩),
    (0x0040_0000_0C00_0761, .brx ⟨⟨0, false, 7⟩, 64, 12, 0, 0⟩),
    (0x0000_0000_0E10_0761, .brx ⟨⟨0, false, 7⟩, 0, 14, 1, 0⟩),
    (0x0000_0000_2000_0762, .call ⟨⟨0, false, 7⟩, 0, 32, 0, 0⟩),
    (0x0000_0000_0E10_0762, .call ⟨⟨0, false, 7⟩, 0, 14, 1, 0⟩),
    (0x0000_0000_0000_0763, .ret ⟨⟨0, false, 7⟩, 0, 0, 0, 0⟩),
    (0x0000_0000_0010_0763, .retT ⟨⟨0, false, 7⟩, 0, 0, 1, 0⟩),
    (0x0000_0000_0000_0764, .merge ⟨⟨0, false, 7⟩, 0, 0, 0, 0⟩),
    (0x0064_0000_0600_0765, .loop ⟨⟨0, false, 7⟩, 100, 6, 0, 0⟩),
    (0x0000_0000_0000_0766, .exit ⟨⟨0, false, 7⟩, 0, 0, 0, 0⟩),
    (0x0000_0000_0000_0767, .yield ⟨⟨0, false, 7⟩, 0, 0, 0, 0⟩),
    (0x002A_0000_0000_0768, .trap ⟨⟨0, false, 7⟩, 42, 0, 0, 0⟩),
    (0x0012_0000_0000_0769, .bkpt ⟨⟨0, false, 7⟩, 18, 0, 0, 0⟩),
    (0x0830_0000_0000_076A, .bar ⟨⟨0, false, 7⟩, 8, 3, 0, 0, 0, 0, 0⟩),
    (0x8030_0000_0005_076B, .bara ⟨⟨0, false, 7⟩, 128, 3, 0, 0, 0, 0, 5⟩),
    (0x0030_0000_0000_076C, .barw ⟨⟨0, false, 7⟩, 0, 3, 0, 0, 0, 0, 0⟩),
    (0x0000_0010_0004_0770, .movsr ⟨⟨0, false, 7⟩, 0, 16, 0, 4⟩),
    (0x0001_0008_0400_0770, .movsrWrite ⟨⟨0, false, 7⟩, 1, 8, 4, 0⟩),
    (0x0001_0000_0D00_0771, .movsv ⟨⟨0, false, 7⟩, 1, 0, 13, 0⟩),
    (0x0000_0000_000A_0772, .time ⟨⟨0, false, 7⟩, 0, 0, 0, 10⟩),
    (0x0000_0000_000A_0773, .cycle ⟨⟨0, false, 7⟩, 0, 0, 0, 10⟩),
    (0x0000_0000_0409_0774, .pgdist ⟨⟨0, false, 7⟩, 0, 0, 4, 9⟩),
    (0x0002_0000_0000_0775, .setfmt ⟨⟨0, false, 7⟩, 2, 0, 0, 0⟩)] reads = true := by decide

theorem test_decode_fabric_1 : List.all [
    (0x0000_0000_0004_07C0, .rag ⟨⟨0, false, 7⟩, 0, 0, 0, 0, 0, 0, 4⟩),
    (0x0000_0000_0004_07C1, .rrs ⟨⟨0, false, 7⟩, 0, 0, 0, 0, 0, 0, 4⟩),
    (0x0000_0000_0604_07C2, .rhnd ⟨⟨0, false, 7⟩, 0, 0, 0, 0, 0, 6, 4⟩),
    (0x0100_0000_0604_07C3, .rwait ⟨⟨0, false, 7⟩, 1, 0, 0, 0, 0, 6, 4⟩),
    (0x0000_0000_000A_07C4, .rrank ⟨⟨0, false, 7⟩, 0, 0, 0, 0, 0, 0, 10⟩),
    (0x0020_0A08_0604_07C8, .rput ⟨⟨0, false, 7⟩, 0, 2, 0, 10, 8, 6, 4⟩),
    (0x0020_0A08_0604_07C9, .rget ⟨⟨0, false, 7⟩, 0, 2, 0, 10, 8, 6, 4⟩),
    (0x0120_0A08_0604_07CA, .ratom ⟨⟨0, false, 7⟩, 1, 2, 0, 10, 8, 6, 4⟩),
    (0x0020_0007_0604_07CB, .rpost ⟨⟨0, false, 7⟩, 0, 2, 0, 0, 7, 6, 4⟩),
    (0x0021_0007_0604_07CB, .rpostGet ⟨⟨0, false, 7⟩, 0, 2, 1, 0, 7, 6, 4⟩),
    (0x0520_0000_0006_07CC, .rcqw ⟨⟨0, false, 7⟩, 5, 2, 0, 0, 0, 0, 6⟩),
    (0x0000_0906_0408_07CD, .wreg ⟨⟨0, false, 7⟩, 0, 0, 0, 9, 6, 4, 8⟩),
    (0x0000_0000_0008_07CE, .wrev ⟨⟨0, false, 7⟩, 0, 0, 0, 0, 0, 0, 8⟩)] reads = true := by decide

theorem test_decode_tasks_and_strands_1 : List.all [
    (0x0000_0000_0408_07D0, .tasknew ⟨⟨0, false, 7⟩, 0, 0, 0, 0, 0, 4, 8⟩),
    (0x0000_0000_0604_07D1, .taskdec ⟨⟨0, false, 7⟩, 0, 0, 0, 0, 0, 6, 4⟩),
    (0x0200_0000_0604_07D2, .temit ⟨⟨0, false, 7⟩, 2, 0, 0, 0, 0, 6, 4⟩),
    (0x0030_0000_0408_07D3, .qpull ⟨⟨0, false, 7⟩, 0, 3, 0, 0, 0, 4, 8⟩),
    (0x0030_0000_0605_07D4, .qpush ⟨⟨0, false, 7⟩, 0, 3, 0, 0, 0, 6, 5⟩),
    (0x0031_0000_0005_07D4, .qpushClose ⟨⟨0, false, 7⟩, 0, 3, 1, 0, 0, 0, 5⟩),
    (0x0900_0006_0208_07D5, .arrv ⟨⟨0, false, 7⟩, 9, 0, 0, 0, 6, 2, 8⟩),
    (0x0000_0806_050C_07E0, .snew ⟨⟨0, false, 7⟩, 0, 0, 0, 8, 6, 5, 12⟩),
    (0x0000_000B_090A_07E1, .sres ⟨⟨0, false, 7⟩, 0, 0, 0, 0, 11, 9, 10⟩),
    (0x0000_000B_0A09_07E2, .scommit ⟨⟨0, false, 7⟩, 0, 0, 0, 0, 11, 10, 9⟩),
    (0x0000_040A_090C_07E3, .sfork ⟨⟨0, false, 7⟩, 0, 0, 0, 4, 10, 9, 12⟩),
    (0x0000_0000_0908_07E4, .slen ⟨⟨0, false, 7⟩, 0, 0, 0, 0, 0, 9, 8⟩),
    (0x0000_0000_0009_07E5, .srel ⟨⟨0, false, 7⟩, 0, 0, 0, 0, 0, 0, 9⟩),
    (0x0000_0D0C_090A_07E6, .sseek ⟨⟨0, false, 7⟩, 0, 0, 0, 13, 12, 9, 10⟩),
    (0x0000_0B04_0A09_07E7, .kst ⟨⟨0, false, 7⟩, 0, 0, 0, 11, 4, 10, 9⟩),
    (0x0100_0504_0908_07E8, .bgath ⟨⟨0, false, 7⟩, 1, 0, 0, 5, 4, 9, 8⟩),
    (0x0000_0008_0604_07E9, .projld ⟨⟨0, false, 7⟩, 0, 0, 0, 0, 8, 6, 4⟩),
    (0x0100_0000_0004_07E9, .projldFree ⟨⟨0, false, 7⟩, 1, 0, 0, 0, 0, 0, 4⟩),
    (0x0000_0000_0006_07EA, .flpop ⟨⟨0, false, 7⟩, 0, 0, 0, 0, 0, 0, 6⟩),
    (0x0000_0000_0006_07EB, .flpush ⟨⟨0, false, 7⟩, 0, 0, 0, 0, 0, 0, 6⟩),
    (0x0100_0006_040C_07EC, .pfxfind ⟨⟨0, false, 7⟩, 1, 0, 0, 0, 6, 4, 12⟩),
    (0x0100_0806_040C_07ED, .pfxins ⟨⟨0, false, 7⟩, 1, 0, 0, 8, 6, 4, 12⟩),
    (0x0000_0008_040A_07EE, .hashb ⟨⟨0, false, 7⟩, 0, 0, 0, 0, 8, 4, 10⟩),
    (0x0000_000C_090A_07EF, .plcq ⟨⟨0, false, 7⟩, 0, 0, 0, 0, 12, 9, 10⟩)] reads = true := by decide

theorem test_decode_tasks_and_strands_2 : List.all [
    (0x0001_0000_090A_07EF, .plcqShort ⟨⟨0, false, 7⟩, 0, 0, 1, 0, 0, 9, 10⟩)] reads = true := by decide

/-- The epilogue word decodes to the operation, and the encoder gives it back. -/
def readsEp (p : Word × Instr) : Bool := decodeEp p.1 = some p.2 && encodeEp p.2 = p.1

/-- Epilogue words, the program of 14 under R373 among them. -/
theorem test_decode_epilogue : List.all [
    (0x0080_0881, .epadd ⟨0x0, 2, 0, 0, 2, 2⟩),
    (0x0000_84C1, .epadd ⟨0x0, 0, 0, 2, 1, 3⟩),
    (0x0000_84C2, .epmul ⟨0x0, 0, 0, 2, 1, 3⟩),
    (0x0184_0043, .epfma ⟨0x0, 6, 1, 0, 0, 1⟩),
    (0x0000_4884, .epmax ⟨0x0, 0, 0, 1, 2, 2⟩),
    (0x0000_4885, .epmin ⟨0x0, 0, 0, 1, 2, 2⟩),
    (0x0000_0486, .epexp ⟨0x0, 0, 0, 0, 1, 2⟩),
    (0x0180_0487, .eplut ⟨0x0, 6, 0, 0, 1, 2⟩),
    (0x0000_0488, .epcvt ⟨0x0, 0, 0, 0, 1, 2⟩),
    (0x0000_0489, .epbias ⟨0x0, 0, 0, 0, 1, 2⟩),
    (0xF400_008A, .epscl ⟨0x3D, 0, 0, 0, 0, 2⟩),
    (0x0080_080B, .epst ⟨0x0, 2, 0, 0, 2, 0⟩),
    (0x0000_003F, .epend)] readsEp = true := by decide

/-! ### Ill-formed terms

One term for each check, one field away from an instruction of the tests above, with the reason of R129 that refuses it. -/

/-- The check refuses the term for the reason. -/
def refusedFor (p : Instr × Nat) : Bool := p.1.illegal 256 == some p.2

/-- Reason 3: C unused; C selector unused; B unused; M unused; no scalar destination; RM of an integer immediate; IMM24[23:16] at a 16-bit type; C above the source type; M of VOTE; O without the local space; FENCE offset; D of PREF; SN of MMA; SUB of CPY; S3 of MDRAIN; TGT of RET; A of a read; IMM16 of TIME; FLG of TASKNEW; S1 of SREL. -/
theorem test_illegal_zero_fields : List.all [
    (.iadd ⟨⟨0, false, 7⟩, 4, false, true, false, false, .s16x2, 1, 2, 1, 9⟩, 3),
    (.iadd ⟨⟨0, false, 7⟩, 4, true, true, false, false, .s16x2, 0, 2, 1, 9⟩, 3),
    (.iabs ⟨⟨0, false, 7⟩, 0, false, false, false, false, .s32, 0, 1, 2, 3⟩, 3),
    (.shl ⟨⟨0, false, 7⟩, 1, false, false, false, false, .u32, 0, 3, 4, 5⟩, 3),
    (.icmp ⟨⟨0, false, 7⟩, 0, false, false, false, true, .s32, 2, 5, 4, 2⟩, 3),
    (.iaddImm ⟨⟨0, false, 7⟩, 0x10, 1, true, true, .u32, 3, 3⟩, 3),
    (.fminImm ⟨⟨0, false, 7⟩, 0x10000, 0, false, false, .f16, 4, 5⟩, 3),
    (.cvt ⟨⟨0, false, 7⟩, 1, false, false, false, false, .f16, 22, 0, 2, 6⟩, 3),
    (.vote ⟨⟨0, false, 7⟩, 1, false, false, false, false, .u32, 0, 0, 1, 3⟩, 3),
    (.ld ⟨⟨0, false, 7⟩, 3, 0, 1, 2, false, true, true, 4, 2, 4, 8⟩, 3),
    (.fence ⟨⟨0, false, 7⟩, 2, 0, 3, 4, false, false, false, 0, 0, 0, 0⟩, 3),
    (.pref ⟨⟨0, false, 7⟩, 0, 3, 0, 0, false, true, false, 2, 4, 2, 1⟩, 3),
    (.mma ⟨⟨0, false, 7⟩, 1, 0, false, false, 0, 2, 1, false, false, false, false, 96, 0, 32⟩, 3),
    (.cpy ⟨⟨0, false, 7⟩, 2, 0, 1, 0, 12, 10, 20⟩, 3),
    (.mdrain ⟨⟨0, false, 7⟩, 64, 0, 0, 1, 0, 12, 10⟩, 3),
    (.ret ⟨⟨0, false, 7⟩, 0, 1, 0, 0⟩, 3),
    (.movsr ⟨⟨0, false, 7⟩, 0, 16, 1, 4⟩, 3),
    (.time ⟨⟨0, false, 7⟩, 1, 0, 0, 10⟩, 3),
    (.tasknew ⟨⟨0, false, 7⟩, 1, 0, 0, 0, 0, 4, 8⟩, 3),
    (.srel ⟨⟨0, false, 7⟩, 0, 0, 0, 0, 0, 1, 9⟩, 3)] refusedFor = true := by decide

/-- Reason 7: LA of a short instruction. -/
theorem test_illegal_lookahead : List.all [
    (.iadd ⟨⟨1, false, 7⟩, 4, false, true, false, false, .s16x2, 0, 2, 1, 9⟩, 7)] refusedFor = true := by decide

/-- Reason 6: float type of IADD; modifier of IADD; scalar destination, vector source; high half and saturation; unsigned IABS; condition 6 of ICMP; signed MOV; 8-bit float arithmetic; saturation of FMIN; f64 on the SFU; element counts 2 and 4; PACK4 to u32; a width of SHFL; mode 3 of VOTE; operation 9 of REDG; width code 5; scope code 7; byte atomic; shape 3; dense shape of MMAS; kind 3; kind 3 of BRA; a lane value to a scalar register; SUB 2. -/
theorem test_illegal_values : List.all [
    (.iadd ⟨⟨0, false, 7⟩, 4, false, true, false, false, .f32, 0, 2, 1, 9⟩, 6),
    (.iadd ⟨⟨0, false, 7⟩, 1, false, true, false, false, .s16x2, 0, 2, 1, 9⟩, 6),
    (.iadd ⟨⟨0, false, 7⟩, 4, false, true, false, true, .s16x2, 0, 2, 1, 9⟩, 6),
    (.imad ⟨⟨0, false, 7⟩, 132, false, false, false, false, .u32, 4, 3, 2, 6⟩, 6),
    (.iabs ⟨⟨0, false, 7⟩, 0, false, false, false, false, .u32, 0, 0, 2, 3⟩, 6),
    (.icmp ⟨⟨0, false, 7⟩, 0, false, false, false, false, .s32, 6, 5, 4, 2⟩, 6),
    (.mov ⟨⟨0, false, 7⟩, 0, false, false, true, false, .s32, 0, 0, 3, 5⟩, 6),
    (.fadd ⟨⟨0, false, 7⟩, 9, false, false, false, false, .e4m3x4, 0, 1, 2, 3⟩, 6),
    (.fmin ⟨⟨0, false, 7⟩, 4, false, false, false, false, .f32, 0, 1, 2, 3⟩, 6),
    (.frsq ⟨⟨0, false, 7⟩, 32, false, false, false, false, .f64, 0, 0, 3, 7⟩, 6),
    (.cvt ⟨⟨0, false, 7⟩, 1, false, false, false, false, .f16x2, 12, 0, 2, 6⟩, 6),
    (.pack4 ⟨⟨0, false, 7⟩, 0, false, false, false, false, .u32, 0, 0, 8, 12⟩, 6),
    (.shfl ⟨⟨0, false, 7⟩, 0, false, true, false, false, .u32, 252, 2, 4, 6⟩, 6),
    (.vote ⟨⟨0, false, 7⟩, 0, false, false, false, false, .u32, 3, 0, 1, 3⟩, 6),
    (.redg ⟨⟨0, false, 7⟩, 0, false, false, false, true, .f32, 9, 0, 4, 6⟩, 6),
    (.ld ⟨⟨0, false, 7⟩, 3, 0, 1, 2, false, true, false, 5, 2, 4, 8⟩, 6),
    (.ld ⟨⟨0, false, 7⟩, 3, 0, 1, 7, false, true, false, 4, 2, 4, 8⟩, 6),
    (.atom ⟨⟨0, false, 7⟩, 0, 0, 0, 4, false, true, false, 0, 255, 2, 7⟩, 6),
    (.mma ⟨⟨0, false, 7⟩, 0, 0, false, false, 0, 2, 3, false, false, false, false, 96, 0, 32⟩, 6),
    (.mmas ⟨⟨0, false, 7⟩, 8, 1, false, false, 0, 0, 0, true, false, false, true, 4, 0, 64⟩, 6),
    (.mdrain ⟨⟨0, false, 7⟩, 64, 0, 3, 0, 0, 12, 10⟩, 6),
    (.bra ⟨⟨0, false, 2⟩, 0, 16, 3, 0⟩, 6),
    (.movsv ⟨⟨0, false, 7⟩, 1, 0, 0, 0⟩, 6),
    (.rpost ⟨⟨0, false, 7⟩, 0, 2, 2, 0, 7, 6, 4⟩, 6)] refusedFor = true := by decide

/-- Reason 5: odd pair; scalar register 64; predicate 8; four registers from v10; an odd address pair; 16 registers from v248; a wide system register into an odd pair; an odd descriptor pair. -/
theorem test_illegal_registers : List.all [
    (.iadd ⟨⟨0, false, 7⟩, 4, false, true, false, false, .u64, 0, 2, 1, 9⟩, 5),
    (.iadd ⟨⟨0, false, 7⟩, 4, false, true, true, false, .s16x2, 0, 2, 64, 9⟩, 5),
    (.fcmp ⟨⟨0, false, 7⟩, 0, false, false, false, false, .f32, 2, 5, 4, 8⟩, 5),
    (.ld ⟨⟨0, false, 7⟩, 3, 0, 1, 2, false, true, false, 4, 2, 4, 10⟩, 5),
    (.st ⟨⟨0, false, 7⟩, 0, 0, 0, 0, false, true, false, 2, 1, 3, 2⟩, 5),
    (.mma ⟨⟨0, false, 7⟩, 0, 0, false, false, 0, 2, 1, false, false, false, false, 96, 248, 32⟩, 5),
    (.movsr ⟨⟨0, false, 7⟩, 0, 16, 0, 5⟩, 5),
    (.tasknew ⟨⟨0, false, 7⟩, 0, 0, 0, 0, 0, 5, 8⟩, 5)] refusedFor = true := by decide

/-- Reason 10: buffer 8; buffer 8; lane value 0x19; FMT above its map; one queue twice. -/
theorem test_illegal_limits : List.all [
    (.cpy ⟨⟨0, false, 7⟩, 6, 8, 0, 0, 12, 10, 20⟩, 10),
    (.bufcfg ⟨⟨0, false, 7⟩, 0, 8, 0, 7, 6, 5, 4⟩, 10),
    (.movsv ⟨⟨0, false, 7⟩, 1, 0, 25, 0⟩, 10),
    (.setfmt ⟨⟨0, false, 7⟩, 1024, 0, 0, 0⟩, 10),
    (.rcqw ⟨⟨0, false, 7⟩, 2, 2, 0, 0, 0, 0, 6⟩, 10)] refusedFor = true := by decide

/-- A register at the group's own budget is refused there and accepted under a larger one (R39, R112). -/
theorem test_illegal_budget : (Instr.popc ⟨⟨0, false, 7⟩, 0, false, false, false, false, .u32, 0, 0, 2, 64⟩).illegal 64 = some 5 ∧
    (Instr.popc ⟨⟨0, false, 7⟩, 0, false, false, false, false, .u32, 0, 0, 2, 64⟩).illegal 128 = none := by decide

/-- What the decoder refuses: opcodes that are not assigned (reason 1), an immediate form that is none (reason 2), a NOP with a bit of
its body, and bits [31:25] of MOVI (reason 3). -/
theorem test_decode_rejects : decodeWord 0x16 = .error 1 ∧ decodeWord 0xFF = .error 1 ∧ decodeWord 0x84 = .error 2 ∧
    decodeWord 0x10700 = .error 3 ∧ decodeWord 0x1234567803070715 = .error 3 := by decide

/-! ### Worked values of the spec -/

/-- 14, the values under R385: IADD.sat.u8x4 and IMAD.hi.u32. -/
theorem test_iadd_sat_u8x4 : intBin .u8x4 true (· + ·) 0xF0108001 0x20F07F01 = 0xFFFFFF02 := by decide
theorem test_imad_hi_u32 : imad .u32 false true 0xFFFFFFFF 0xFFFFFFFF 5 = 3 := by decide
/-- 14, the values under R385: IABS.s32 of the least value, without and with saturation. -/
theorem test_iabs_least : intBin .s32 false (fun x _ => (x.natAbs : Int)) 0x80000000 0 = 0x80000000 := by decide
theorem test_iabs_least_sat : intBin .s32 true (fun x _ => (x.natAbs : Int)) 0x80000000 0 = 0x7FFFFFFF := by decide
/-- 16, the values under R439. -/
theorem test_shl_count_wraps : shiftElems .u32 shlElem 1 33 = 2 := by decide
theorem test_sar_by_type_u32 : shiftElems .u32 sarElem 0x80000000 4 = 0xF8000000 := by decide
theorem test_shr_s16x2 : shiftElems .s16x2 shrElem 0x80008000 0x00010011 = 0x40004000 := by decide
/-- 13, the values under R346, R352, R359 and R422. -/
theorem test_bfx_s32 : bfx .s32 0x00000F00 0x0408 = 0xFFFFFFFF := by decide
theorem test_bfx_clipped : bfx .s32 0x00000F00 0x2808 = 0x0000000F := by decide
theorem test_brev_one : bitReverse 32 1 = 0x80000000 := by decide
theorem test_clz_u64 : leadingZeros 64 0x10000 = 47 := by decide
theorem test_popc : popCount 32 0xF0F00001 = 9 := by decide
/-- R396 by hand: the truth table 0x96 is the exclusive or of the three words, and 0xE8 their majority. -/
theorem test_log3_parity : log3 0x96 0xFF00FF00 0xF0F0F0F0 0xCCCCCCCC &&& 0xFFFFFFFF = 0xC33CC33C := by decide
theorem test_log3_majority : log3 0xE8 0xFF00FF00 0xF0F0F0F0 0xCCCCCCCC &&& 0xFFFFFFFF = 0xFCC0FCC0 := by decide
/-- R393 by hand: the index is sign extended before the shift. -/
theorem test_lea_s64 : lea .s64 3 0x1000 0xFFFFFFFF = 0xFF8 := by decide

/-- 13, the values under R364: 464.0 and 470.0 to e4m3, without and with saturation. -/
theorem test_cvt_e4m3_tie : cvtElem .e4m3x4 .f32 {} false 0x43E80000 = 0x7E ∧ cvtElem .e4m3x4 .f32 {} false 0x43EB0000 = 0x7F ∧
    cvtElem .e4m3x4 .f32 { sat := true } false 0x43EB0000 = 0x7E := by decide
/-- 06, the table under R163: narrow value below, residual above. -/
theorem test_cvtef_table : cvtef .e4m3x4 {} false 0x3F980000 = 0xBD8000000000003A ∧
    cvtef .e4m3x4 {} false 0x3F900000 = 0x39 ∧ cvtef .e4m3x4 {} false 0x43FA0000 = 0x7F ∧
    cvtef .e4m3x4 {} true 0x43FA0000 = 0x425000000000007E := by decide
/-- 15 and 16, the values under R416 and R460. -/
theorem test_pack4_e4m3 : pack4 .e4m3x4 {} false
    (fun i => if i = 0 then 0x3F800000 else if i = 1 then 0xC0000000 else if i = 2 then 0x43E80000 else 0) = 0x007EC038 := by decide
theorem test_unpk4_e4m3 : (List.range 4).map (unpk4 .e4m3x4 0x007EC038) = [0x3F800000, 0xC0000000, 0x43E00000, 0] := by decide

/-- 06, the example under R169: lane 5 of a group of 8 joins the trees over lanes 0 to 3 and 4 to 5. The operation below
writes down its operands, so the result is the tree itself. -/
theorem test_scan_tree : scanAt (fun a b => a * 100 + b + 7) (fun l => l) 3 5 =
    (((0 * 100 + 1 + 7) * 100 + (2 * 100 + 3 + 7) + 7) * 100 + (4 * 100 + 5 + 7) + 7) := by decide

set_option maxRecDepth 20000 in
/-- 06, the BF16 element under R164: two large terms cancel, and terms 48 places below them are dropped; one place higher they
are kept. -/
theorem test_mma_cancellation : mmaFloat 2 0 (0x4480 :: 0xC480 :: List.replicate 30 0x3880) (0x4480 :: 0x4480 :: List.replicate 30 0x3880)
    none = 0 := by decide
set_option maxRecDepth 20000 in
theorem test_mma_low_bits_kept : mmaFloat 2 0 (0x4480 :: 0xC480 :: List.replicate 30 0x3880)
    (0x4480 :: 0x4480 :: List.replicate 30 0x3900) none = 0x34700000 := by decide

/-- 14, the epilogue program under R373: 40.0 becomes 5.0 and then 3.0, and is stored as 0x4040; 12.0 becomes 1.5 and then
−0.5, and the maximum with e1 gives +0. -/
theorem test_epilogue_scale_and_bias :
    let x : Epi := { e := [(0, 0x42200000), (1, 0x41400000)], c := [(0, 0xC0000000), (1, 0xC0000000)] }
    let y := epBin ⟨0, 2, 0, 0, 2, 2⟩ (FVal.add 0) (epScl ⟨0x3D, 0, 0, 0, 0, 2⟩ x)
    y.eAt 2 0 = 0x40400000 ∧ y.eAt 2 1 = 0xBF000000 ∧ (epBin ⟨0, 0, 0, 1, 2, 2⟩ FVal.max y).eAt 2 1 = 0 := by decide

/-- 11, step 2 of the example under R286: rank 3 holds 2.625, sends 2.5 and keeps 0.125, and the owner ends with 2.75. -/
theorem test_rrs_residual :
    let k : RingCmd :=
      { op := .rrs, d := { ringDescOf [] with wtype := 4, res := true }, desc := 0, count := 0, die := 0, members := []
        rank := 3, target := 0, rnd := 0, sat := false, pages := [], left := [] }
    forwardElem k (some 0x3D) 0x38 0 = (0x42, 0x3E000000) ∧ ownerElem k (some 0x42) 0x28 = 0x40300000 := by decide

/-- 01, the example under R19: after boundary 5 fails in one-device mode, die 6 has rank 0 and die 5 rank 15, and RINGSTAT reads
WRAP, KIND 1, FAIL 5, ORG 6 and SIZE 16. -/
theorem test_ring_after_wrap :
    let s : State := { State.reset with mgmt := { State.reset.mgmt with brk := some ⟨true, 5⟩ } }
    rankIn (s.ringOf 0) 6 = some 0 ∧ rankIn (s.ringOf 0) 5 = some 15 ∧ s.hops 5 6 = 15 ∧ s.ringstat 0 = 0xC0056010 := by decide

/-! ### Witnesses: words and steps -/

theorem witness_DecodeOfEncodeIsIdentity :
    (Instr.ld ⟨com0, 0xFF, 3, 3, 6, false, true, false, 4, 0xFF, 62, 60⟩).com?.isSome = true ∧
    (Instr.ld ⟨com0, 0xFF, 3, 3, 6, false, true, false, 4, 0xFF, 62, 60⟩).wellFormed = true ∧
    (Instr.epst ⟨0x3F, 4, 0, 0, 15, 0⟩).isEp = true ∧ (Instr.epst ⟨0x3F, 4, 0, 0, 15, 0⟩).wellFormed = true := by decide

theorem witness_AcceptedWordsAreCanonical :
    decodeWord 0x12345678013F0715 = .ok (.movi ⟨com0, 0x12345678, true, 63⟩) ∧ (Instr.movi ⟨com0, 0x12345678, true, 63⟩).wellFormed = true ∧
    decodeEp 0x3F = some .epend := by decide

/-- A split that has begun a clause of one word. -/
def opened (w : DWord) : Team := withSplit { sp0 with opn := true, code := [w] }

theorem witness_StepRunsTheDecodedInstruction :
    PortAdmits (mach (opened 0x12345678013F0715)) (curOf (opened 0x12345678013F0715)) 0x12345678013F0715
      (.movi ⟨com0, 0x12345678, true, 63⟩) ∧
    ({ s0 with agenda := [.event .thermalLimit] } : State).agenda = .event .thermalLimit :: [] ∧ Instr.isEvent .thermalLimit = true ∧
    (let s : State := { s0 with turn := .epilogue 0, cores := [(0, { epi := { prog := [0x3F] } })] }
     s.agenda = [] ∧ s.turn = .epilogue 0 ∧ (s.core 0).epi.prog = 0x3F :: [] ∧ decodeEp 0x3F = some .epend) := by
  refine ⟨⟨rfl, rfl, by decide, rfl, rfl, rfl, by decide, by decide, by decide, by decide⟩, rfl, rfl, rfl, rfl, rfl, by decide⟩

/-- NOP, which writes no register; a team with a command of the last name given; and nothing asked. -/
theorem witness_StepRunsTheDecodedInstruction_plain :
    let s : State := mach { tm0 with cmds := [(99, { kind := .drain, group := 0, split := 0 })] }
    s.wbuf = [] ∧ (Instr.nop com0).longLatency = false ∧ (∀ k ∈ s.teams, ∀ q ∈ k.2.cmds, q.1 < s.nextId) ∧
    destRegs (.nop com0) .s = [] ∧ destRegs (.nop com0) .v = [] ∧ c0.split.staleV = [] ∧ s.asksNothing c0.ref := by
  refine ⟨rfl, rfl, by decide, rfl, rfl, rfl, ?_⟩
  intro a ha; cases ha

/-- An unassigned opcode, and IADD with a scalar destination of vector sources. -/
theorem witness_IllegalWordsTrap :
    (∀ w ∈ [(0x7FF : DWord), 0x0010000102030701],
      (mach (opened w)).agenda = [] ∧ (mach (opened w)).cur? = some (curOf (opened w)) ∧ (curOf (opened w)).split.opn = true ∧
      (curOf (opened w)).split.code = w :: []) ∧
    decodeWord 0x7FF = .error 1 ∧
    decodeWord 0x0010000102030701 = .ok (.iadd ⟨com0, 0, false, false, false, true, .u32, 0, 1, 2, 3⟩) ∧
    (Instr.iadd ⟨com0, 0, false, false, false, true, .u32, 0, 1, 2, 3⟩).illegal (curOf (opened 0)).group.budget = some 6 := by
  refine ⟨?_, by decide, by decide, by decide⟩
  intro w hw
  simp only [List.mem_cons, List.not_mem_nil, or_false] at hw
  obtain rfl | rfl := hw <;> exact ⟨rfl, rfl, rfl, rfl⟩

/-- Memory with words at 0x1080: the header of a compute clause of one instruction that is a region entry, and MOVI. -/
def coded : State := s0.hbmWrite 0x1080 (bytesOfWord 0x00000004FFFFFF00 ++ bytesOfWord 0x12345678013F0715)

theorem witness_ClauseAndSplitEventsComplete_words :
    coded.checkClause c0 0x00000004FFFFFF00 = .ok ([0x12345678013F0715], 0x1090) ∧ hdrDx 0x00000004FFFFFF00 = false := by decide

/-! ### Witnesses: computation -/

/-- Format R fields for a type, with D an even register. -/
def fR (t : Ty) (ds : Bool) : FmtR := ⟨com0, 0, ds, ds, ds, ds, t, 6, 4, 2, 8⟩

theorem witness_IntegerInstructionsComplete : s0.cur? = some c0 ∧ PairOk (fR .s64 false).t.is64 (fR .s64 false).d ∧
    PairOk (fR .u32 true).t.is64 (fR .u32 true).d ∧ c0.acts com0 = true := by
  refine ⟨rfl, ?_, ?_, by decide⟩ <;> intro _ <;> decide

theorem witness_IntegerElementsWrapOrSaturate : 3 < Ty.s8x4.elems ∧ 0 < Ty.u64.elems := by decide

theorem witness_FloatInstructionsComplete : s0.cur? = some c0 ∧ PairOk (fR .f64 false).t.is64 (fR .f64 false).d ∧
    PairOk true (fR .e4m3x4 false).d ∧ (fR .u8x4 false).ds = false ∧ (fR .u8x4 false).d.toNat + 3 < 256 := by
  refine ⟨rfl, ?_, ?_, by decide, by decide⟩ <;> intro _ <;> decide

/-- The largest finite code of e4m3, and the least subnormal of e5m2. -/
theorem witness_NarrowFloatsRoundTrip : (floatFmt .e4m3x4).decode 0x7E ≠ .nan ∧ (0x7E : Nat) < 256 ∧ (floatFmt .e5m2x4).decode 1 ≠ .nan := by
  decide

theorem witness_ComparisonsComplete : s0.cur? = some c0 := rfl

theorem witness_SfuInstructionsComplete : s0.cur? = some c0 := rfl

/-- VOTE in each mode with lanes that pass, and with none, by p0 that no lane has. -/
theorem witness_LaneCrossingInstructionsComplete : s0.cur? = some c0 ∧ PairOk (fR .u64 false).t.is64 (fR .u64 false).d ∧
    (fR .u32 false).t.is64 = false ∧ c0.pass ⟨0, false, 0⟩ = 0 ∧ c0.pass com0 ≠ 0 ∧
    (∀ k ∈ [(0 : BitVec 8), 1, 2], k.toNat % 4 = k.toNat) := by
  refine ⟨rfl, ?_, rfl, by decide, by decide, by decide⟩
  intro _; decide

/-- Reads of a group's register and of a context's, and the forms with no lane that passes. -/
theorem witness_SystemReadsComplete : s0.cur? = some c0 ∧ c0.acts com0 = true ∧ c0.acts ⟨0, false, 0⟩ = false ∧
    (∀ id ∈ [0x01, 0x10, 0x30, 0x71], s0.sysDenied c0 id false = false) ∧ PairOk (sysWide 0x10) 4 := by
  refine ⟨rfl, by decide, by decide, by decide, ?_⟩
  intro _; decide

/-- A group's register, a shared one, and a register that R412 refuses. -/
theorem witness_SystemWritesComplete : s0.cur? = some c0 ∧ c0.acts com0 = true ∧ c0.acts ⟨0, false, 0⟩ = false ∧
    s0.sysDenied c0 0x10 true = false ∧ sysOfGroup 0x10 = true ∧ s0.sysDenied c0 0x32 true = false ∧ sysOfGroup 0x32 = false ∧
    s0.sysDenied c0 0x7777 false = true ∧ s0.sysDenied c0 0x7777 true = true ∧ sysAccess 0x30 = some .p := by
  refine ⟨rfl, ?_⟩
  decide

theorem witness_SharedRegistersReadBack : 0x61 ∈ [0x30, 0x31, 0x32, 0x33, 0x61, 0x62, 0x70, 0x71] := by decide

/-! ### Witnesses: control, traps and barriers -/

/-- The code ends at 0x1400: its last doubleword, and its first, are addresses that a split may go to. -/
theorem witness_ControlTransfersComplete :
    let t := withGroup { gr0 with s := [(5, 0x3F8), (62, 0x1080)] }
    let c := curOf t
    (mach t).cur? = some c ∧ c.split.mask ≠ 0 ∧ c.pass com0 = c.split.mask ∧ c.pass ⟨0, false, 0⟩ = 0 ∧ c.acts com0 = true ∧
    (0x13F8 : DWord) = BitVec.ofNat 64 ((((mach t).taskOf c.team).map (·.kimg)).getD 0 + (c.rdS 5).toNat) ∧
    (mach t).codeOk c 0x13F8 = true ∧ (mach t).codeOk c (c.rdPair 62) = true ∧ c.split.loops = [] := by
  refine ⟨rfl, ?_⟩
  decide

/-- BRX of either kind to the last doubleword of the code, and with a lane that goes past it; CALL to a register, to it and past it. -/
theorem witness_ControlTransfersComplete_registers :
    let t := withGroup { gr0 with s := [(5, 0x3F8), (6, 0x400)], v := (List.range 8).map fun l => (vkey l 3, if l = 7 then 0x400 else 0x3F8) }
    let c := curOf t
    let f (k : BitVec 4) (n : BitVec 24) : FmtB := ⟨com0, 0, n, k, 0⟩
    (mach t).cur? = some c ∧ c.acts com0 = true ∧
    (∀ l ∈ lanes c.split.mask, BitVec.ofNat 64 (0x1000 + (if (f 1 5).kind = 1 then c.rdS 5 else c.rdV l 5).toNat) = 0x13F8) ∧
    (mach t).codeOk c 0x13F8 = true ∧ (mach t).codeOk c (BitVec.ofNat 64 (0x1000 + (c.rdV 7 3).toNat)) = false ∧
    (((mach t).taskOf c.team).map (·.kimg)).getD 0 = 0x1000 ∧ 7 ∈ lanes c.split.mask ∧ (f 0 3).kind = 0 ∧ (f 0 3).tgt.extractLsb' 0 8 = 3 ∧
    (mach t).codeOk c (BitVec.ofNat 64 (0x1000 + (c.rdS 6).toNat)) = false := by
  refine ⟨rfl, ?_⟩
  decide

/-- A LOOP at depth 3, one within the level around it, one beyond it; with a count in a scalar that is 0 and one that is not. -/
theorem witness_ControlTransfersComplete_loops :
    let lp (x : DWord) : Loop := ⟨0x1080, x, 4⟩
    let t (n : Nat) : Team := withGroup { gr0 with s := [(5, 7)], splits := [(0, { sp0 with loops := List.replicate n (lp 0x10A0) })] }
    let f : FmtB := ⟨com0, 5, 4, 1, 0⟩
    (∀ n ∈ [0, 1, 2, 3], (mach (t n)).cur? = some (curOf (t n)) ∧ (curOf (t n)).acts com0 = true ∧ (curOf (t n)).split.loops.length = n) ∧
    f.kind = 1 ∧ (curOf (t 2)).rdS (f.rcv.extractLsb' 0 8).toNat ≠ 0 ∧ (curOf (t 2)).rdS 6 = 0 ∧
    ((curOf (t 2)).offset f.tgt).toNat ≤ (lp 0x10A0).exit.toNat ∧ (lp 0x10A0).exit.toNat < ((curOf (t 2)).offset (5 : BitVec 24)).toNat ∧
    (curOf (t 2)).split.loops.head? = some (lp 0x10A0) := by
  decide

/-- p0 holds in lane 0 alone: one lane is taken and seven fall. -/
theorem witness_BranchDivergesIntoTwoSplits :
    let t := withGroup { gr0 with p := [(0, 1)] }
    let c := curOf t
    let f : FmtB := ⟨⟨0, false, 0⟩, 0, 4, 0, 0⟩
    (mach t).cur? = some c ∧ f.kind = 0 ∧ c.split.ovf = [] ∧ c.group.splits.length < 4 ∧ c.pass f.com ≠ 0 ∧
    c.split.mask &&& ~~~(c.pass f.com) ≠ 0 ∧ c.split.jump = none ∧ (fallThrough c.split.loops c.split.next).2 ≠ c.offset f.tgt := by
  refine ⟨rfl, ?_⟩
  decide

/-- A BRX of which lanes 0 to 5 go to one address and 6 and 7 to another, in a group of one split, in one of four, and with a stack of
one and of seven entries. -/
def brxTeam (n k : Nat) : Team :=
  withGroup { gr0 with
    v := (List.range 8).map fun l => (vkey l 3, if l < 6 then 0x80 else 0x100)
    splits := (0, { sp0 with ovf := List.replicate k ⟨none, 0x1200, some 0xFF, 0x1200, 0, []⟩ }) ::
      (List.range n).map fun i => (i + 1, { sp0 with mask := BitVec.ofNat 64 (256 * 2 ^ i) }) }

theorem witness_BranchDivergesIntoTwoSplits_brx :
    let f (rcv : BitVec 16) : FmtB := ⟨com0, rcv, 3, 0, 0⟩
    (∀ q ∈ [(0, 0), (3, 0), (0, 1), (0, 7)], let c := curOf (brxTeam q.1 q.2); let s := mach (brxTeam q.1 q.2)
      s.cur? = some c ∧ c.pass com0 = c.split.mask ∧ c.split.mask = 0x3F ||| 0xC0 ∧ (0x3F : Lanes) &&& 0xC0 = 0 ∧
      (0x3F : Lanes).getLsbD (lowLane c.split.mask) = true ∧
      (∀ l ∈ lanes 0x3F, BitVec.ofNat 64 (0x1000 + (c.rdV l 3).toNat) = (0x1080 : DWord)) ∧
      (∀ l ∈ lanes 0xC0, BitVec.ofNat 64 (0x1000 + (c.rdV l 3).toNat) = (0x1100 : DWord)) ∧
      s.codeOk c 0x1080 = true ∧ s.codeOk c 0x1100 = true ∧ c.joinPc (f 4) = some 0x10A0 ∧ c.split.ovf.length = q.2 ∧
      c.group.splits.length = q.1 + 1) ∧ (f 4).kind = 0 ∧ (f 4).tgt.extractLsb' 0 8 = 3 := by
  decide

/-- A BRA served serially: with a stack of eight entries, and with no X. -/
theorem witness_BranchDivergesIntoTwoSplits_serial :
    let t (k : Nat) : Team :=
      withGroup { gr0 with
        p := [(0, 1)], splits := [(0, { sp0 with ovf := List.replicate k ⟨none, 0x1200, some 0xFF, 0x1200, 0, []⟩ })] }
    let f (rcv : BitVec 16) : FmtB := ⟨⟨0, false, 0⟩, rcv, 4, 0, 0⟩
    (∀ k ∈ [1, 7, 8], (mach (t k)).cur? = some (curOf (t k)) ∧ (curOf (t k)).split.ovf.length = k ∧ (curOf (t k)).split.jump = none ∧
      (curOf (t k)).pass (f 0).com ≠ 0 ∧ (curOf (t k)).split.mask &&& ~~~((curOf (t k)).pass (f 0).com) ≠ 0 ∧
      (fallThrough (curOf (t k)).split.loops (curOf (t k)).split.next).2 ≠ (curOf (t k)).offset (f 0).tgt ∧
      (curOf (t k)).joinPc (f 6) = some 0x10B0 ∧ (curOf (t k)).joinPc (f 0) = none) ∧ (f 0).kind = 0 := by
  decide

/-- R53: a split at X of its top entry, which holds lanes back, and one that holds none; and a split with no lane left. -/
theorem witness_BranchDivergesIntoTwoSplits_join (p : Option Lanes) (m : Lanes) :
    let e : Ovf := ⟨p, 0x1200, some 0xFF, 0x1080, 0, []⟩
    let r : Ovf := ⟨none, 0x1200, some 0xFF, 0x1300, 0, []⟩
    let c : Cur := curOf (withSplit { sp0 with mask := m, ovf := [e, r] })
    c.split.opn = false ∧ c.split.park = .none ∧ c.split.left = false ∧ c.split.passed = false ∧ c.split.hit = false ∧
    c.split.ovf = e :: [r] ∧ c.split.mask = m ∧ e.x = c.split.pc ∧ e.pend = p ∧ e.join = some 0xFF ∧
    0xF0 &&& ~~~c.group.exited ≠ 0 ∧ 0xFF &&& ~~~c.group.exited ≠ 0 ∧ ∀ q, [r].head? = some q → q.x ≠ e.x := by
  refine ⟨rfl, rfl, rfl, rfl, rfl, rfl, rfl, rfl, rfl, rfl, ?_, ?_, ?_⟩
  · show (0xF0 : Lanes) &&& ~~~gr0.exited ≠ 0; decide
  · show (0xFF : Lanes) &&& ~~~gr0.exited ≠ 0; decide
  · rintro _ ⟨⟩
    show (0x1300 : DWord) ≠ 0x1080; decide

/-- The team whose group has a second split, of the upper four lanes. -/
def twoSplits : Team := withGroup { gr0 with splits := [(0, { sp0 with mask := 0x0F }), (1, { sp0 with mask := 0xF0 })] }

theorem witness_ExitAndMergeComplete :
    let c := curOf twoSplits
    (mach twoSplits).cur? = some c ∧ c.acts com0 = true ∧ c.split.ovf = [] ∧
    ∃ q ∈ c.group.splits, q.1 ≠ c.ref.split ∧ q.2.park = .none ∧ mget? c.group.splits q.1 = some q.2 :=
  ⟨rfl, by decide, rfl, (1, { sp0 with mask := 0xF0 }), by decide, by decide, rfl, rfl⟩

/-- EXIT of the side that runs, with lanes held back. -/
theorem witness_ExitAndMergeComplete_fallback :
    let e : Ovf := ⟨some 0xF0, 0x1200, some 0xFF, 0x1300, 0, []⟩
    let c := curOf (withSplit { sp0 with mask := 0x0F, ovf := [e] })
    (mach c.team).cur? = some c ∧ c.acts com0 = true ∧ c.split.ovf = e :: [] ∧ e.pend = some 0xF0 ∧
    (0xF0 : Lanes) &&& ~~~(c.group.exited ||| c.split.mask) ≠ 0 := by
  refine ⟨rfl, ?_⟩
  decide

/-- A handler is set and none runs. -/
theorem witness_TrapInstructionsComplete :
    let t := withGroup { gr0 with regs := { trapvec := 0x1100 } }
    let c := curOf t
    let s := mach t
    s.lookup? c.ref = some c ∧ s.cur? = some c ∧ c.group.regs.trapvec ≠ 0 ∧ c.group.act = false ∧ c.acts com0 = true ∧
    c.acts ⟨0, false, 0⟩ = false := by
  refine ⟨rfl, rfl, by decide, by decide, by decide, by decide⟩

theorem witness_ReturnsAndFatalTraps_return :
    let t := withGroup { gr0 with regs := { trapvec := 0x1100, trapinfo := 0x8000000000000000 } }
    (mach t).cur? = some (curOf t) ∧ (curOf t).acts com0 = true ∧ (curOf t).group.act = true ∧ c0.group.act = false := by
  refine ⟨rfl, ?_⟩
  decide

theorem witness_ReturnsAndFatalTraps_fatal : s0.lookup? c0.ref = some c0 ∧ (s0.ctx c0.team.ctx).live = true ∧
    (s0.ctx c0.team.ctx).ended = none := ⟨rfl, rfl, rfl⟩

/-- A split that runs with an entry record, and one behind a commit point; a reservation of a lane of neither is none. -/
theorem witness_ReturnsAndFatalTraps_resumable :
    let e : Entry := { pc := 0x1080, ridx := 0, mask := 0xFF, loops := [], fmt := 0, drec := none, ovf := [] }
    let t (opn : Bool) : Team := withSplit { sp0 with opn := opn, needRe := true, entry := some e }
    (∀ o ∈ [true, false], (mach (t o)).lookup? ⟨0, 0, 0⟩ = some (curOf (t o)) ∧ (curOf (t o)).split.park = .none ∧
      (curOf (t o)).split.waits = false ∧ (curOf (t o)).split.stalls = false ∧ (mach (t o)).atEntry (curOf (t o)) = !o ∧
      (curOf (t o)).split.entry = some e) := by
  decide

/-- A saved team of 32 bytes, with another in the table, put back at the last core of its die, whose dictionary is there. -/
theorem witness_ReturnsAndFatalTraps_restore :
    let t : Team := { tm0 with status := .saved, bytes := 32, saved := List.replicate 32 7 }
    let s : State := { mach t with cores := [(191, { dicts := [(0, 0x1000, [])] })] }
    mget? s.teams 0 = some t ∧ s.memOk = true ∧ t.frame = none ∧ t.ep.back = none ∧ t.cmds = [] ∧ t.runs = [] ∧
    191 = coreKey t.die (191 % Config.cores) ∧ t.saved.length = t.bytes ∧ ([(3, 14)] : List (Nat × Nat)).length = t.groups.length ∧
    mget? s.tasks t.task = some task0 ∧ ((s.core 191).dicts.any fun d => d.1 = t.ctx && d.2.1 = task0.kimg) = true := by
  refine ⟨rfl, by decide, rfl, rfl, rfl, rfl, by decide, rfl, rfl, rfl, by decide⟩

/-- Two splits, of which neither has arrived; and a group that has arrived in phase 0 with the barrier in phase 1 or still in 0. -/
theorem witness_BarriersComplete :
    let c := curOf twoSplits
    let arrived (ph : Nat) : Team := { withGroup { gr0 with phase := [(1, 0)] } with bars := [{ e := 1 }, { e := 2, phase := ph }] }
    (mach twoSplits).cur? = some c ∧ c.acts com0 = true ∧ (1 : BitVec 4).toNat < c.team.bars.length ∧ mget? c.split.arr 1 = none ∧
    (∃ q ∈ c.group.splits, q.1 ≠ c.ref.split ∧ mget? c.group.splits q.1 = some q.2 ∧ mget? q.2.arr 1 = none) ∧
    (∀ ph ∈ [0, 1], (mach (arrived ph)).cur? = some (curOf (arrived ph)) ∧ mget? (curOf (arrived ph)).group.phase 1 = some 0 ∧
      ((curOf (arrived ph)).team.bar 1).phase = ph) := by
  refine ⟨rfl, by decide, by decide, rfl, ⟨(1, { sp0 with mask := 0xF0 }), by decide, by decide, rfl, rfl⟩, ?_⟩
  intro ph h
  simp only [List.mem_cons, List.not_mem_nil, or_false] at h
  obtain rfl | rfl := h <;> exact ⟨rfl, rfl, rfl⟩

/-- A group of one split whose arrival completes a phase of one arrival, and one whose arrival is the first of two; and no lane that
passes. -/
theorem witness_BarriersComplete_counted :
    let t : Team := { tm0 with bars := [{}, {}] }
    let f (e : BitVec 8) : FmtE := ⟨com0, e, 1, 0, 0, 0, 0, 0⟩
    (mach t).cur? = some (curOf t) ∧ (f 1).qb.toNat < (curOf t).team.bars.length ∧ (curOf t).split.park = .none ∧
    (curOf t).acts com0 = true ∧ (curOf t).acts ⟨0, true, 7⟩ = false ∧ mget? (curOf t).group.phase 1 = none ∧
    mwf (curOf t).team.groups = true ∧ mwf (curOf t).group.splits = true ∧ (curOf t).group.halted = false ∧
    mget? (curOf t).split.arr 1 = none ∧ ((curOf t).group.splits.all fun q => q.1 = 0 ∧ mget? q.2.arr 1 = none) = true ∧
    ((curOf t).team.groups.all fun g => g.1 = 0 ∧ g.2.splits.all fun q => mget? q.2.held 1 = none) = true ∧
    ((curOf t).team.bar 1).count = 0 ∧ barE (curOf t) (f 1) = 1 ∧ barE (curOf t) (f 2) = 2 := by
  refine ⟨rfl, by decide, rfl, by decide, by decide, rfl, rfl, rfl, rfl, rfl, rfl, rfl, rfl, by decide, by decide⟩

/-! ### Witnesses: memory -/

/-- A word access of every lane at 0x9000 + 4 * lane by a scalar pair base, and one at the last word of the local array. -/
def fM (w : BitVec 3) (sp : Bool) (a b : BitVec 8) : FmtM := ⟨com0, 0, 0, 0, 0, sp, true, false, w, b, a, 8⟩
def memTeam (base : Word) : Team :=
  withGroup { gr0 with s := [(4, base)], v := (List.range 8).map fun l => (vkey l 2, BitVec.ofNat 32 l) }

/-- Every lane is admitted by a check that holds of each of the group's lanes. -/
theorem admitted_of (s : State) (c : Cur) (f : FmtM) (off : BitVec 8) (need : Need)
    (h : (lanes (c.pass f.com)).all (fun l => (c.ea f off l).toNat % FmtM.bytes f == 0 &&
      (match s.laneCheck c.team f.sp (c.ea f off l) (FmtM.bytes f) need with | .ok _ _ => true | _ => false)) = true) :
    Admitted s c f off need := by
  intro l hl
  have h1 := List.all_eq_true.mp h l hl
  simp only [Bool.and_eq_true, beq_iff_eq] at h1
  refine ⟨h1.1, ?_⟩
  cases hc : s.laneCheck c.team f.sp (c.ea f off l) (FmtM.bytes f) need with
  | ok p e => exact ⟨p, e, rfl⟩
  | pageflt => rw [hc] at h1; simp at h1
  | prot k => rw [hc] at h1; simp at h1

theorem witness_MemoryInstructionsIssue :
    let t := memTeam 0x9000
    let c := curOf t
    (mach t).cur? = some c ∧ c.acts (fM 2 false 4 2).com = true ∧ Admitted (mach t) c (fM 2 false 4 2) 0 { rd := true } ∧
    Admitted (mach t) c (fM 2 false 4 2) 0 { wr := true } ∧ Admitted (mach t) c (fM 2 false 4 2) 0 { rd := true, wr := true } ∧
    Admitted (mach (memTeam 4092)) (curOf (memTeam 4092)) (fM 2 true 4 0xFF) 0 { rd := true } := by
  refine ⟨rfl, by decide, admitted_of _ _ _ _ _ ?_, admitted_of _ _ _ _ _ ?_, admitted_of _ _ _ _ _ ?_, admitted_of _ _ _ _ _ ?_⟩ <;> decide

/-- No lane passes; an address one byte off; no stash window; and a lane whose line is in memory. -/
theorem witness_FencesAndLaneChecksHold :
    let t := memTeam 0x9001
    let c := curOf t
    (mach t).cur? = some c ∧ c.acts ⟨0, false, 0⟩ = false ∧ (0 : BitVec 2).toNat % 2 = 0 ∧ (2 : BitVec 3).toNat < 3 ∧
    (∃ l ∈ lanes (c.pass com0), (c.ea (fM 2 false 4 2) 0 l).toNat % FmtM.bytes (fM 2 false 4 2) ≠ 0) ∧ (mach t).noStash := by
  exact ⟨rfl, by decide, by decide, by decide, ⟨0, by decide, by decide⟩, noStash_of _ (by decide)⟩

theorem witness_FencesAndLaneChecksHold_pref :
    let t := memTeam 0x9000
    let c := curOf t
    (mach t).cur? = some c ∧ (mach t).noStash ∧ 3 ∈ lanes (c.pass com0) ∧
    (mach t).translateAt c.team.coreKey c.team.die c.team.ctx (c.ea (fM 2 false 4 2) 0 3) { rd := true } = .ok (.hbm 0x900C) (leafOf 0) ∧
    (c.ea (fM 2 false 4 2) 0 3).toNat % FmtM.bytes (fM 2 false 4 2) = 0 ∧
    c.team.winOf (c.ea (fM 2 false 4 2) 0 3).toNat = none ∧ (fM 2 false 4 2).cp.toNat < 2 := by
  exact ⟨rfl, noStash_of _ (by decide), by decide, by decide, by decide, by decide, by decide⟩

/-- Nothing buffered and no view; an acquire and a release of each scope that a fence may have. -/
theorem witness_FencesAndLaneChecksHold_fence :
    s0.wbuf = [] ∧ s0.views = [] ∧ com0.la = 0 ∧
    (∀ sc ∈ [(0 : BitVec 3), 3, 5, 6], let f : FmtM := { fM 2 false 4 2 with ord := 3, sc := sc }
      f.ord.toNat % 2 = 1 ∧ 2 ≤ f.ord.toNat ∧ (3 ≤ f.sc.toNat ↔ sc ≠ 0)) ∧
    5 / 2 ^ 64 = (curOf (memTeam 0x9000)).team.ctx ∧ deviceOf s0.mgmt.mode 15 = ctxDevice c0.team.ctx := by
  decide

/-- A window of two lines at the end of the array, not mapped yet; and one mapped by this split, and by another. -/
def stashTeam (ws : SMap StashWin) : Team := { withS [(2, 0x9000), (4, 3840), (5, 256)] with wins := ws }
def fStash : FmtM := ⟨com0, 1, 0, 0, 0, false, true, false, 0, 5, 2, 4⟩
def win0 (split : Nat) : StashWin := { lo := 3840, len := 256, ga := 0x9000, group := 0, split := split, entry := none }

theorem witness_StashInstructionsComplete :
    (let c := curOf (stashTeam [])
     (mach (stashTeam [])).cur? = some c ∧ c.acts com0 = true ∧ mget? c.team.wins (FmtM.win fStash) = none ∧
     (c.rdPair 2).toNat % 128 = 0 ∧ (c.rdS 4).toNat % 128 = 0 ∧ (c.rdS 5).toNat % 128 = 0 ∧ 128 ≤ (c.rdS 5).toNat ∧
     (c.rdS 4).toNat + (c.rdS 5).toNat ≤ c.team.bytes ∧ c.team.wins = []) ∧
    (let c := curOf (stashTeam [(1, win0 0)])
     (mach (stashTeam [(1, win0 0)])).cur? = some c ∧ mget? c.team.wins (FmtM.win fStash) = some (win0 0) ∧
     (win0 0).split = c.ref.split ∧ (win0 0).entry = c.split.entry.map (·.pc) ∧ (win0 0).ga = (c.rdPair 2).toNat) ∧
    (let c := curOf (stashTeam [(1, win0 3)])
     (mach (stashTeam [(1, win0 3)])).cur? = some c ∧ mget? c.team.wins (FmtM.win fStash) = some (win0 3) ∧ (win0 3).split ≠ c.ref.split) := by
  refine ⟨⟨rfl, ?_⟩, ⟨rfl, rfl, rfl, rfl, ?_⟩, rfl, rfl, ?_⟩ <;> decide

/-- Operations in flight: a load of eight lanes up to the last word of the array, and a store and an atomic of one lane there. -/
def mop (k : MemKind) (ls : List Nat) : MemOp :=
  { kind := k, group := 0, split := 0, bytes := 4, dreg := 60, sc := 0, ord := 0, cp := 0, aop := 0
    lanes := ls.map fun l => ⟨l, 4064 + 4 * l, .arr (4064 + 4 * l), 7, 0⟩, deps := [] }
def withMop (k : MemKind) (ls : List Nat) : State := mach { tm0 with mops := [(5, mop k ls)] }

theorem witness_ArrayOperationsPerform :
    (∀ k ∈ [MemKind.ld, .st, .atom, .atcas, .red], let m := mop k [7]
      mget? (withMop k [7]).teams 0 = some { tm0 with mops := [(5, m)] } ∧
      ({ tm0 with mops := [(5, m)] } : Team).mayPerform 5 = some m ∧ mget? tm0.groups m.group = some gr0 ∧ m.kind = k ∧
      m.lanes = [⟨7, 4092, .arr 4092, 7, 0⟩] ∧ m.bytes = 4 ∧ m.dreg + 4 ≤ 256 ∧ Memory.wf ((withMop k [7]).core tm0.coreKey).arr = true) ∧
    (let m := mop .ld (List.range 8)
     (∀ x ∈ m.lanes, ∃ off, x.place = .arr off) ∧ (m.lanes.map (·.lane)).Nodup ∧ (∀ x ∈ m.lanes, x.lane < 64) ∧ m.ord % 2 = 0) := by
  refine ⟨?_, ?_, by decide, by decide, by decide⟩
  · intro k hk
    simp only [List.mem_cons, List.not_mem_nil, or_false] at hk
    obtain rfl | rfl | rfl | rfl | rfl := hk <;> exact ⟨rfl, rfl, rfl, rfl, rfl, rfl, by decide, rfl⟩
  · intro x hx
    simp only [mop, List.mem_map] at hx
    obtain ⟨_, ⟨l, _, rfl⟩⟩ := hx
    exact ⟨_, rfl⟩

theorem witness_ArrayOperationsPerform_completion : mget? tm0.groups 0 = some gr0 ∧ mget? gr0.splits 0 = some sp0 := ⟨rfl, rfl⟩

/-- Accesses of two lanes to words of one granule and of one lane at the end of the array, by operations of each kind, with a
reservation of the lane on its granule and with none. -/
def plainOp (k : MemKind) (ps : List Place) : MemOp :=
  { mop k [] with sc := 5, lanes := ps.zipIdx.map fun q => ⟨q.2, 0x9000 + 4 * q.2, q.1, 7, 0⟩ }
def plainTeam (k : MemKind) (ps : List Place) (r : SMap Nat) : Team := { withGroup { gr0 with resv := r } with mops := [(5, plainOp k ps)] }

theorem witness_ArrayOperationsPerform_plain :
    ∀ k ∈ [MemKind.ld, .ldrsv, .stcnd, .st, .atom, .atcas, .red], ∀ ps ∈ [[Place.hbm 0x9000, .hbm 0x9004], [.hbm 0x9000], [.arr 4092]],
      ∀ r ∈ [[], [(0, granule (.hbm 0x9000))], [(0, granule (.arr 4092))]],
      let t := plainTeam k ps r
      let m := plainOp k ps
      let s := mach t
      mget? s.teams 0 = some t ∧ t.mayPerform 5 = some m ∧ mget? t.groups m.group = some { gr0 with resv := r } ∧ Plain s t m ∧
      s.views = [] ∧ m.inL1 = false ∧ (m.lanes.map (·.lane)).Nodup ∧ m.kind = k ∧ mwf r = true ∧
      (∀ a b, m.lanes = [a, b] → a.lane ≠ b.lane ∧ granule a.place = granule b.place) := by
  intro k hk ps hp r hr
  have hs : (mach (plainTeam k ps r)).noStash := noStash_of _ rfl
  have hm : ∀ k ∈ [MemKind.ld, .ldrsv, .stcnd, .st, .atom, .atcas, .red],
      ∀ ps ∈ [[Place.hbm 0x9000, .hbm 0x9004], [.hbm 0x9000], [.arr 4092]], ∀ r ∈ [[], [(0, granule (.hbm 0x9000))], [(0, granule (.arr 4092))]],
      (plainTeam k ps r).mayPerform 5 = some (plainOp k ps) ∧ (plainOp k ps).inL1 = false ∧ ((plainOp k ps).lanes.map (·.lane)).Nodup ∧
      mwf r = true := by decide +kernel
  have h := hm k hk ps hp r hr
  have hl : ∀ x ∈ (plainOp k ps).lanes, x.lane < 64 ∧ match x.place with
      | .hbm pa => (plainTeam k ps r).winOf x.va = none ∧ pa % 4 = 0 | .arr off => off % 4 = 0 | .peer _ _ => False := by
    simp only [List.mem_cons, List.not_mem_nil, or_false] at hp
    rcases hp with rfl | rfl | rfl <;> simp [plainOp, mop, plainTeam, withGroup, tm0, Team.winOf]
  refine ⟨rfl, h.1, rfl, ⟨hs, rfl, rfl, by simp [plainOp, mop], by simp [plainOp, mop], hl⟩, rfl, h.2.1, h.2.2.1, rfl, h.2.2.2, ?_⟩
  intro a b hab
  simp only [List.mem_cons, List.not_mem_nil, or_false] at hp
  rcases hp with rfl | rfl | rfl <;> simp [plainOp, mop] at hab
  obtain ⟨rfl, rfl⟩ := hab
  decide

/-- An update that is made, and one that is not. -/
theorem witness_ArrayOperationsPerform_update :
    (mop .atcas [7]).update ⟨7, 0, .arr 4092, 9, 1⟩ 1 = some 9 ∧ (mop .atcas [7]).update ⟨7, 0, .arr 4092, 9, 1⟩ 2 = none ∧
    ((mop .red [7]).update ⟨7, 0, .arr 4092, 9, 1⟩ 1).isSome = true := by decide

theorem witness_MemoryReadsAfterWrites : s0.memOk = true ∧ (255 : Nat) < 2 ^ (8 * 1) := by decide

/-- A dirty line of a window; a counter of the weathervane; a migrating page one access past its threshold, not yet requested;
and an invalidation of pages that nothing in flight holds. -/
theorem witness_MemoryEventsComplete :
    (let w : StashWin := { win0 0 with lines := [(1, ⟨0x9080, true⟩)] }
     let t : Team := { tm0 with wins := [(1, w)] }
     (mach t).memOk = true ∧ mget? (mach t).teams 0 = some t ∧ mget? t.wins 1 = some w ∧ mget? w.lines 1 = some ⟨0x9080, true⟩ ∧
     mwf w.lines = true) ∧
    mwf (s0.die 0).vane = true ∧
    (let s : State := { s0 with dies := [(0, { tlb := [(3, 0x0002000000000387)], migr := [(3, 256)] })] }
     s.walk 0 0 (3 * 65536) = .leaf 0x0002000000000387 ∧ field 0x0002000000000387 8 2 = 3 ∧
     2 ^ (8 + 2 * field 0x0002000000000387 10 2) ≤ mget 0 (s.die 0).migr (0 * 2 ^ 41 + 3) ∧ (0 * 2 ^ 41 + 3) ∉ (s.die 0).migrReq) ∧
    (s0.teams.any fun t => t.2.ctx = 0 && t.2.holdsPage 0 4) = false := by
  refine ⟨⟨by decide, rfl, rfl, rfl, rfl⟩, by decide, ⟨?_, by decide, by decide, by decide⟩, by decide⟩
  decide

/-! ### Witnesses: copies, buffers and the windlass -/

/-- A team with a buffer of four entries of 256 bytes, the scalars given and no command. -/
def bufTeam (r : SMap Word) : Team := { withS r with bufs := [(2, { base := 1024, esz := 256, pitch := 64, cnt := 4 })] }
def fE (flg : BitVec 8) (qb sub : BitVec 4) (s3 s2 s1 s0 : BitVec 8) : FmtE := ⟨com0, flg, qb, sub, s3, s2, s1, s0⟩

/-- A copy within the array that ends at its end; one into a buffer's entry that fills it; a gather of two entries; a transposed
copy of the least size; and a destination that is not aligned. -/
theorem witness_CopiesComplete_issue :
    (let t := withS [(4, 0), (5, 2048), (6, 2048)]
     let c := curOf t
     (mach t).cur? = some c ∧ c.acts com0 = true ∧ c.addrOf true 4 % 16 = 0 ∧ c.addrOf true 5 % 16 = 0 ∧ (c.rdS 6).toNat % 16 = 0 ∧
     16 ≤ (c.rdS 6).toNat ∧ (c.rdS 6).toNat ≤ 16777216 ∧ c.addrOf true 5 + 2048 ≤ c.team.bytes ∧ c.addrOf true 4 + 2048 ≤ c.team.bytes ∧
     c.team.wins = [] ∧ ∃ segs, (mach t).copySegs c ⟨true, true, none, 4, [⟨2048, 0, 2048⟩], []⟩ = .ok segs) ∧
    (let t := bufTeam [(4, 0), (6, 256), (8, 0x9000)]
     let c := curOf t
     (mach t).cur? = some c ∧ c.bufOk 2 = true ∧ (c.rdS 4).toNat + (c.rdS 6).toNat ≤ (c.team.buf 2).esz ∧ c.addrOf false 8 = 0x9000 ∧
     ∃ segs, (mach t).copySegs c ⟨false, true, some 2, 4, [⟨0x9000, 0, 256⟩], []⟩ = .ok segs) ∧
    (let t := withS [(4, 4080), (5, 1024), (6, 2), (7, 16)]
     let c := curOf t
     let s := mach t
     let entry (k : Nat) : Nat := natOfBytes (s.arrRead c.team (1024 + 8 * k) 8)
     s.cur? = some c ∧ c.team.inWindow 1024 (8 * 2) = false ∧ (∀ k ∈ List.range 2, entry k % 16 = 0) ∧ 1024 + 8 * 2 ≤ c.team.bytes ∧
     (c.rdS 7).toNat % 16 = 0 ∧ 16 ≤ (c.rdS 7).toNat ∧ (c.rdS 7).toNat ≤ 4096) ∧
    (let t := withS [(4, 0), (5, 2048), (6, 0x00010010), (7, 0x00010001)]
     let c := curOf t
     (mach t).cur? = some c ∧ (c.rdS 6).toNat / 65536 = 1 ∧ (c.rdS 6).toNat % 65536 = 16 ∧ (c.rdS 7).toNat / 65536 * 16 = 16 ∧
     (c.rdS 7).toNat % 65536 * 16 = 16 ∧ ∃ segs, (mach t).copySegs c ⟨true, true, none, 16, [⟨2048, 0, 16⟩], []⟩ = .ok segs) ∧
    (curOf (withS [(4, 8)])).addrOf true 4 % 16 ≠ 0 := by
  refine ⟨⟨rfl, by decide, by decide, by decide, by decide, by decide, by decide, by decide, by decide, rfl, ok_of (by decide)⟩,
    ⟨rfl, by decide, by decide, by decide, ok_of (by decide)⟩, ⟨rfl, by decide, by decide, by decide, by decide, by decide, by decide⟩,
    ⟨rfl, by decide, by decide, by decide, by decide, ok_of (by decide)⟩, by decide⟩

/-- A gather whose rows are translated. -/
theorem witness_CopiesComplete_gather :
    let t := withS [(4, 4064), (5, 1024), (6, 2), (7, 16)]
    ∃ segs, (mach t).copySegs (curOf t) ⟨false, true, none, 4, (List.range 2).map fun k =>
      ⟨natOfBytes ((mach t).arrRead (curOf t).team (1024 + 8 * k) 8), 4064 + k * 16, 16⟩, [⟨true, 1024, 8 * 2, {}⟩]⟩ = .ok segs :=
  ok_of (by decide)

def cmdOf (k : CmdKind) (begun : Bool) : Cmd := { kind := k, group := 0, split := 0, begun := begun }
def withCmd (k : CmdKind) (begun : Bool) : Team := { bufTeam [] with cmds := [(7, cmdOf k begun)] }

theorem witness_CopiesComplete_events :
    let k : Copy := { segs := [⟨.arr 0, .arr 16, 16, 4⟩] }
    mget? (mach (withCmd (.copy k) true)).teams 0 = some (withCmd (.copy k) true) ∧
    mget? (withCmd (.copy k) true).cmds 7 = some (cmdOf (.copy k) true) ∧ k.moved = [] ∧ k.buf = none ∧ 0 + 16 ≤ 16 ∧
    Memory.wf ((mach (withCmd (.copy k) true)).core (withCmd (.copy k) true).coreKey).arr = true ∧
    (withCmd (.copy k) false).clear 7 (cmdOf (.copy k) false).foot = true ∧
    mget? (withCmd .effected true).cmds 7 = some (cmdOf .effected true) := ⟨rfl, rfl, rfl, rfl, by decide, rfl, by decide, rfl⟩

/-- A split waits for a batch, and the group has none left to complete. -/
theorem witness_BatchInstructionsComplete :
    let p : Split := { sp0 with park := .waitb 7 }
    let g : Group := { gr0 with splits := [(0, p)], batchNo := 1, closed := [(1, [])] }
    let t : Team := withGroup g
    s0.cur? = some c0 ∧ c0.acts com0 = true ∧ t.status = .resident ∧ mget? t.groups (cmdOf (.waitb 1) true).group = some g ∧
    g.halted = false ∧ g.batchesDone 1 = true ∧ mget? g.splits 0 = some p ∧ p.park = .waitb 7 :=
  ⟨rfl, by decide, rfl, rfl, rfl, by decide, rfl, rfl⟩

/-- A configuration that fills the array to its last byte, with the buffer idle and with a copy issued before it; one entry too many
in a field; and two full entries to be waited for and released. -/
theorem witness_BuffersComplete_issue :
    let c := curOf (bufTeam [(4, 0), (5, 256), (6, 64), (7, 16)])
    let full := curOf { bufTeam [] with bufs := [(2, { base := 1024, esz := 256, pitch := 64, cnt := 4, tail := 2
                                                       ents := [(0, { stage := 2 }), (1, { stage := 2 })] })] }
    let busy := curOf { bufTeam [(4, 0), (5, 256), (6, 64), (7, 16)] with cmds := [(7, cmdOf (.copy { segs := [], buf := some 2 }) false)] }
    (mach (bufTeam [(4, 0), (5, 256), (6, 64), (7, 16)])).cur? = some c ∧ (c.rdS 4).toNat % 128 = 0 ∧ (c.rdS 5).toNat % 128 = 0 ∧
    128 ≤ (c.rdS 5).toNat ∧ (c.rdS 6).toNat % 16 = 0 ∧ (c.rdS 7).toNat ≤ 16 ∧
    (c.rdS 4).toNat + (c.rdS 7).toNat * (c.rdS 5).toNat ≤ c.team.bytes ∧ (∀ r ∈ c.team.runs, r.buf ≠ 2) ∧
    c.team.bufBusy 2 100 = false ∧ c.team.clear 100 [{ place := .arr 0, len := 16 * 256, write := true }] = true ∧ busy.team.bufBusy 2 100 = true ∧
    (curOf (bufTeam [(7, 17)])).rdS 7 = 17 ∧ 3 % 16 < (c.team.buf 2).cnt ∧
    (∀ i ∈ List.range 2, (full.team.buf 2).isFull ((full.team.buf 2).head + i) = true) := by
  refine ⟨rfl, ?_⟩
  decide

theorem witness_BuffersComplete_events :
    let cfg : Buf := { base := 0, esz := 128, pitch := 16, cnt := 2 }
    let copy : Copy := { segs := [], buf := some 2 }
    let p : Split := { sp0 with park := .bufwait 7 }
    let t : Team := { withSplit p with
      cmds := [(7, cmdOf (.bufwait 2 1 5) true)]
      bufs := [(2, { base := 1024, esz := 256, pitch := 64, cnt := 4, tail := 2, ents := [(0, { stage := 2 }), (1, { stage := 2 })] })] }
    (withCmd (.bufcfg 2 cfg) false).clear 7 (cmdOf (.bufcfg 2 cfg) false).foot = true ∧ (withCmd (.bufcfg 2 cfg) false).bufBusy 2 7 = false ∧
    (withCmd (.copy copy) false).mayTake 7 2 = true ∧ copy.entry = none ∧ (withCmd (.copy copy) false).status = .resident ∧
    (t.buf 2).isFull ((t.buf 2).head + 1) = true ∧ mget? t.groups 0 = some { gr0 with splits := [(0, p)] } ∧ p.park = .bufwait 7 := by
  refine ⟨?_, ?_, ?_, rfl, rfl, ?_, rfl, rfl⟩ <;> decide

/-- A loop-nest table at the start of the constant section, 0x1400: one level of bound 3, one stream of one row of 16 bytes into
buffer 2, its base at the argument record's first doubleword, 0x9000; and the same table with a stream's base offset misaligned. -/
def nestBytes (off : Nat) : List Byte :=
  bytesOfNat 4 (2 * 16) ++ bytesOfNat 4 0 ++ bytesOfNat 4 3 ++ List.replicate 52 0 ++
  bytesOfNat 4 off ++ bytesOfNat 4 1 ++ bytesOfNat 4 16 ++ bytesOfNat 4 0 ++ bytesOfNat 8 16 ++ bytesOfNat 4 16 ++ bytesOfNat 4 0 ++
  bytesOfNat 8 16 ++ List.replicate 24 0
def nestState (off : Nat) : State := (mach (bufTeam [(4, 0)])).hbmWrite 0x1400 (nestBytes off)
def nestCur : Cur := curOf (bufTeam [(4, 0)])
def stream0 : Stream := { base := 0, rows := 1, rbytes := 16, doff := 0, spitch := 16, dpitch := 16, strides := [16, 0, 0, 0] }

theorem witness_WindlassCompletes_start :
    (nestState 0).cur? = some nestCur ∧ mget? (nestState 0).tasks nestCur.team.task = some task0 ∧ (nestCur.rdS 4).toNat % 64 = 0 ∧
    task0.constOff + 0 + 128 ≤ task0.imgSize ∧ (∃ r, (nestState 0).issueRead nestCur 0x1400 64 = .ok r) ∧
    (∃ r, (nestState 0).issueRead nestCur 0x1400 128 = .ok r) ∧
    nestOf nestCur.team (nestBytes 0) = some (2, [3], [(0, stream0)]) ∧ nestOf nestCur.team (nestBytes 4) = none ∧
    (nestState 0).engRanges nestCur [⟨false, 0x9000, 8, { rd := true }⟩] = .ok [[(.hbm 0x9000, 8)]] := by
  refine ⟨rfl, rfl, by decide, by decide, ok_of (by decide), ok_of (by decide), by decide, by decide, rfl⟩

/-- A run that waits for the windlass, one in its last iteration, and one whose next page is not mapped. -/
def runTeam (r : Run) : Team := { bufTeam [] with runs := [r] }
def run0 (base : Nat) (started : Bool) : Run :=
  { id := 7, buf := 2, bounds := [3], streams := [{ stream0 with base := base }], idx := some [2], started := started }
def runMach (r : Run) : State := { mach (runTeam r) with cores := [(0, { windlass := some 0 })] }

theorem witness_WindlassCompletes_events :
    mget? (mach (runTeam (run0 0x9000 false))).teams 0 = some (runTeam (run0 0x9000 false)) ∧
    ((mach (runTeam (run0 0x9000 false))).core 0).windlass = none ∧
    ((runMach (run0 0x9000 true)).core (runTeam (run0 0x9000 true)).coreKey).windlass = some 0 ∧
    (runMach (run0 0x9000 true)).tracked 0 + 1 ≤ 64 ∧ (runTeam (run0 0x9000 true)).mayTake 100 2 = true ∧
    (runMach (run0 0x9000 true)).runPieces (runTeam (run0 0x9000 true)) (({ stream0 with base := 0x9000 } : Stream).copyRows [2]) =
      [(0x9020, 16, .ok (.hbm 0x9020) (leafOf 0))] ∧
    (runMach (run0 0x100000 true)).runPieces (runTeam (run0 0x100000 true)) (({ stream0 with base := 0x100000 } : Stream).copyRows [2]) =
      [(0x100020, 16, .pageflt)] ∧ ((runMach (run0 0 true)).ctx 0).fqSize = 0 ∧
    (runMach (run0 0 true)).runDest (runTeam (run0 0 true)) (stream0.copyRows [2]) (((runTeam (run0 0 true)).buf 2).addr 0) =
      [(1024, 16, .ok (.arr 1024) 0)] ∧ (let r : Run := { run0 0x9000 true with cur := some ([2], 0, 0) }
      r.cur = some ([2], 0, 0) ∧ r.streams[0]? = some { stream0 with base := 0x9000 }) := by
  refine ⟨rfl, rfl, rfl, by decide, by decide, by decide, by decide, rfl, by decide, rfl, rfl⟩

/-! ### Witnesses: the matrix unit and the epilogue -/

/-- MMA of e4m3 fragments in registers, and MMAS with B in a tile of 2 KiB at the end of the array and scales at 0x9000. -/
def fX (ta sh : BitVec 3) (tc : BitVec 2) (bs : Bool) : FmtX :=
  ⟨com0, 8, 0, false, false, tc, ta, sh, true, false, false, bs, 4, 0, 240⟩
def matTeam (m : Lanes) : Team :=
  withGroup { gr0 with s := [(4, 2048), (5, 16)], regs := { scsba := 0x9000, scsbb := 0xA000 }, splits := [(0, { sp0 with mask := m })] }

theorem witness_MatrixCompletes_issue :
    let c := curOf (matTeam 0xFF)
    let s := mach (matTeam 0xFF)
    s.cur? = some c ∧ c.octets com0 = .ok [0] ∧ c.matTypes (fX 0 2 0 true) = (0, 0) ∧ matTypesOk true 0 0 2 = true ∧
    matTypesOk false 0 0 2 = true ∧ (∃ bs, ([0].mapM fun o => c.bSource (fX 0 2 0 true) 0 o) = .ok bs) ∧ s.noStash ∧
    (∃ r, s.scalesOf c (fX 0 2 0 true) [0] = .ok r) ∧ c.octets ⟨0, false, 0⟩ = .ok [] ∧
    (curOf (matTeam 0x0F)).octets com0 = .error 1 ∧ matTypesOk false 2 0 2 = false ∧ matTypesOk true 4 0 2 = false := by
  refine ⟨rfl, by rfl, rfl, by decide, by decide, ok_of (by decide), noStash_of _ (by decide), ok_of (by decide), by rfl, by rfl, by decide,
    by decide⟩

def matOp (id : Nat) (b : BSource) : MatOp :=
  { id := id, inst := 7, team := 0, group := 0, octet := 0, dreg := 240, acc := 0, shape := 2, ty := 0, zc := true, a := [], b := b
    scales := none, regs := none }
def matMach (b : BSource) : State := { s0 with cores := [(0, { mq := [(0, [matOp 8 b, matOp 9 b])] })] }

/-- Two operations of one instruction in a queue, their B in a tile, and read. -/
theorem witness_MatrixCompletes_events :
    ∀ b ∈ [BSource.tile 2048 16 false, .ready []], mget? ((matMach b).core 0).mq 0 = some (matOp 8 b :: [matOp 9 b]) ∧
      mget? (matMach b).teams (matOp 8 b).team = some tm0 ∧ mget? tm0.groups (matOp 8 b).group = some gr0 ∧
      (∀ q ∈ ((matMach b).core 0).mq, ∀ x ∈ q.2, x.id = (matOp 8 b).id → x = matOp 8 b) ∧
      (∀ q ∈ ((matMach b).core 0).mq, q.1 ≠ 0 → ∀ x ∈ q.2, x.id ≠ (matOp 8 b).id) ∧ (matOp 8 b).dreg + 16 ≤ 256 ∧
      ∃ x ∈ [matOp 9 b], x.inst = (matOp 8 b).inst := by
  intro b hb
  simp only [List.mem_cons, List.not_mem_nil, or_false] at hb
  obtain rfl | rfl := hb <;> exact ⟨rfl, rfl, rfl, by decide, by decide, by decide, by decide⟩

theorem witness_IntegerMatrixElementIsExact : (0xFFFFFFFF : Nat) < 2 ^ 32 ∧ (([1, 2] : List Nat).zip [3, 4]).Perm (([2, 1] : List Nat).zip [4, 3]) := by
  decide

/-- An epilogue processor whose row is stored to the last bytes of the team's array. -/
theorem witness_EpilogueWordsComplete :
    let s : State := { s0 with turn := .epilogue 0, cores := [(0, { epi := { dest := { team := 0, addr := 4032 } } })] }
    s.turn = .epilogue 0 ∧ (s.core 0).epi.dest.global = false ∧ mget? s.teams (s.core 0).epi.dest.team = some tm0 ∧
    Memory.wf (s.core tm0.coreKey).arr = true := ⟨rfl, rfl, rfl, rfl⟩

/-- The one-word program EPEND at the end of the image, and with an EPST before it. -/
def epName : EpName := ⟨0, 0x1000, 0xFF⟩
def epTeam (ep : EpTeam) (pitch : Word) : Team :=
  { withGroup { gr0 with s := [(4, 0), (5, pitch)], regs := { epprog := 0x3FC, epconst := 0xA000 } } with ep := ep }
def epState (ep : EpTeam) : State := (mach (epTeam ep 64)).hbmWrite 0x17FC (bytesOfNat 4 0x3F)

theorem witness_EpilogueUnitsComplete_issue :
    (let c := curOf (epTeam {} 64)
     (epState {}).cur? = some c ∧ (epState {}).noStash ∧ c.acts com0 = true ∧ mget? (epState {}).tasks c.team.task = some task0 ∧
     (match (epState {}).epWords c task0 0xFF 64 0 [] with | .ok _ prog => prog == [0x3F] | _ => false) = true ∧
     c.team.ep.name ≠ some epName ∧ c.team.waitingLoad = none ∧ ((epState {}).core c.team.coreKey).placeFor c.ref.team epName ((epState {}).drainsBefore c.team c.ref.team) = some 0) ∧
    (let t := epTeam { name := some epName, code := [0x0000000B, 0x3F] } 65536
     let c := curOf t
     (mach t).cur? = some c ∧ c.octets com0 = .ok [0] ∧ c.team.ep.name = some epName ∧ (c.rdS 5).toNat = 65536 ∧ (c.rdS 5).toNat % 16 = 0 ∧
     (∃ r, (mach t).issueRead c 0xA000 1024 = .ok r) ∧
     ∃ ps, (mach (epTeam { name := some epName, code := [0x0000000B, 0x3F] } 64)).engRanges
       (curOf (epTeam { name := some epName, code := [0x0000000B, 0x3F] } 64)) (⟨false, 0xA000, 1024, { rd := true }⟩ ::
         ((List.range 8).map fun j => ⟨true, j * 64, 64, { wr := true }⟩)) = .ok ps) := by
  refine ⟨⟨rfl, noStash_of _ (by decide), by decide, rfl, by decide, by decide, rfl, by decide⟩,
    ⟨rfl, by rfl, rfl, by decide, by decide, ok_of (by decide), ok_of (by decide)⟩⟩

def drain0 (rows : List (Nat × List Word)) : Drain :=
  { id := 7, team := 0, group := 0, fmt := 0, prog := [0x3F], consts := [], rows := rows, octets := [0], acc := 240, global := false
    base := 0, pitch := 64, pages := [], buf := none }
def drainMach (rows : List (Nat × List Word)) : State :=
  { mach { tm0 with cmds := [(7, cmdOf .drain false)] } with cores := [(0, { epq := [.drain (drain0 rows)] })] }

/-- A drain with two rows left and with its last; a team that waits for a place, with place 3 free and place 2 held for its program. -/
theorem witness_EpilogueUnitsComplete_events :
    (∀ rows ∈ [[(0, List.replicate 16 0), (1, List.replicate 16 0)], [(7, List.replicate 16 0x3F800000)]],
      ((drainMach rows).core 0).epq = .drain (drain0 rows) :: [] ∧
      mget? (drainMach rows).teams (drain0 rows).team = some { tm0 with cmds := [(7, cmdOf .drain false)] } ∧
      mget? ({ tm0 with cmds := [(7, cmdOf .drain false)] } : Team).cmds (drain0 rows).id = some (cmdOf .drain false) ∧
      ({ tm0 with cmds := [(7, cmdOf .drain false)] } : Team).clear 7 (cmdOf .drain false).foot = true ∧ rows ≠ [] ∧
      (cmdOf .drain false).foot = []) ∧
    (let t : Team := { tm0 with ep := { wait := [(.load 7 0, some epName)] } }
     let s : State := { mach t with cores := [(0, { places := [(2, ⟨epName, [5], []⟩)] })] }
     mget? s.teams 0 = some t ∧ t.waitingLoad = some (7, epName) ∧ t.status = .resident ∧
     ∀ n ∈ [2, 3], (s.core t.coreKey).mayPlace 0 epName (s.drainsBefore t 0) n = true) := by
  refine ⟨?_, rfl, rfl, rfl, by decide⟩
  intro rows h
  simp only [List.mem_cons, List.not_mem_nil, or_false] at h
  obtain rfl | rfl := h <;> exact ⟨rfl, rfl, rfl, rfl, by decide⟩

/-! ### Witnesses: tasks, queues and the schedulers -/

/-- A task record and an image of one region in memory. -/
def recBytes (kimg : Nat) (shape : Nat) (dep : Nat) : List Byte :=
  bytesOfNat 8 kimg ++ bytesOfNat 8 1 ++ bytesOfNat 8 shape ++ bytesOfNat 4 128 ++ bytesOfNat 4 0x10000 ++ bytesOfNat 8 0x9000 ++
  bytesOfNat 4 dep ++ List.replicate 84 0
def imgBytes (entry : Nat) : List Byte :=
  bytesOfNat 4 0x4B5A5631 ++ bytesOfNat 2 1 ++ bytesOfNat 2 0 ++ bytesOfNat 4 0x80 ++ bytesOfNat 4 0 ++ bytesOfNat 4 0x80 ++
  bytesOfNat 4 1 ++ bytesOfNat 4 0xC0 ++ bytesOfNat 4 0x100 ++ bytesOfNat 4 0x100 ++ bytesOfNat 4 0 ++ bytesOfNat 4 entry ++
  bytesOfNat 4 0xFFFFFFFF ++ bytesOfNat 4 0xFFFFFFFF ++ bytesOfNat 4 0xFFFFFFFF ++ List.replicate 72 0 ++ bytesOfNat 4 0xC0 ++
  List.replicate 60 0 ++ bytesOfWord 0x00000004FFFFFF00
def taskMem (rec img : List Byte) (t : Team) : State := ((mach t).hbmWrite 0x3000 img).hbmWrite 0x8080 rec
def taskState (rec img : List Byte) : State := taskMem rec img (withS [(4, 0x8080), (6, 1)])

/-- The five ways in which a creation can end, with the record at 0x8080. -/
theorem witness_TaskInstructionsComplete_create :
    (let s := taskState (recBytes 0x3000 0x8000 1) (imgBytes 0xC0)
     let b := rdBytes s.hbm 0x8080 128
     s.noStash ∧ s.memOk = true ∧ Mapped s (Bytes 0x8080 128) 0 0 0x8080 128 0x8080 ∧ s.tasksFull 0 = false ∧ recordBad b = false ∧
     shapeBad (BitVec.ofNat 64 (le b 0x10 8)) (le b 0x1C 4 / 4 % 2 = 1) = false ∧
     (∃ h, s.image 0 0 (le b 0 8) = some h ∧ ((rolesOf 0x8000).any fun q => le h (0x28 + 4 * q.1) 4 = 0xFFFFFFFF) = false) ∧
     0 < (BitVec.ofNat 32 (le b 0x28 4)).toInt) ∧
    (BitVec.ofNat 32 (le (recBytes 0x3000 0x8000 0) 0x28 4)).toInt ≤ 0 ∧
    ({ s0 with ctxs := [(0, { ctx0 with prio := 0 })] } : State).tasksFull 0 = true ∧ recordBad (recBytes 0x3001 0x8000 1) = true ∧
    recordBad (recBytes 0x3000 0x8000801F 1) = false ∧ shapeBad 0x8000801F false = true ∧
    s0.image 0 0 0x3000 = none ∧
    (∃ h, (taskState (recBytes 0x3000 0x8000 1) (imgBytes 0xFFFFFFFF)).image 0 0 0x3000 = some h ∧
      ((rolesOf 0x8000).any fun q => le h (0x28 + 4 * q.1) 4 = 0xFFFFFFFF) = true) := by
  refine ⟨⟨noStash_of _ (by decide +kernel), by decide +kernel, mapped_mach _ _ _ _ rfl (by decide +kernel) (by decide +kernel) (by decide +kernel), by decide +kernel, by decide +kernel, by decide +kernel,
    ⟨(imgBytes 0xC0).take 128, by decide +kernel, by decide +kernel⟩, by decide +kernel⟩, by decide +kernel, by decide +kernel, by decide +kernel, by decide +kernel, by decide +kernel, by decide +kernel,
    ⟨(imgBytes 0xFFFFFFFF).take 128, by decide +kernel, by decide +kernel⟩⟩

/-- TASKNEW with a legal record; TASKDEC of a record that no task has, and of a task whose DEP is 1; TEMIT to a node with a full ring,
and to one whose ring takes one record more. -/
theorem witness_TaskInstructionsComplete_issue :
    (let s := taskState (recBytes 0x3000 0x8000 1) (imgBytes 0xC0)
     let c := curOf (withS [(4, 0x8080), (6, 1)])
     s.cur? = some c ∧ c.acts com0 = true ∧ (c.rdPair 4).toNat % 128 = 0 ∧ (s.createTask 0 0 0x8080 (some 0)).2 ≠ 5 ∧
     ((s.createTask 0 0 0x8080 (some 0)).1.lookup? c.ref).isSome = true ∧ c.rdS 6 ≠ 0 ∧ (c.rdS 6).toNat < 2 ^ 31 ∧
     (∀ t ∈ s.tasks, ¬ (t.2.ctx = c.team.ctx ∧ t.2.addr = (c.rdPair 4).toNat))) ∧
    (let tk : Task := { task0 with addr := 0x8080 }
     let s : State := { taskState (recBytes 0x3000 0x8000 1) [] with tasks := [(0, tk)] }
     let old := BitVec.ofNat 32 (s.hbmNat (0x8080 + 0x28) 4)
     (s.tasks.find? fun t => t.2.ctx = 0 && t.2.addr = 0x8080) = some (0, tk) ∧ mget? s.tasks 0 = some tk ∧ tk.graph = false ∧
     tk.state = 1 ∧ tk.ready = none ∧ 0 < old.toInt ∧ (old - 1).toInt ≤ 0) ∧
    (let tk : Task := { task0 with addr := 0x8080, graph := true, qbase := 0xA000, qlog := 0 }
     let s (resv : Nat) : State := { (taskState (recBytes 0x3000 0x8000 1) []).hbmWrite 0xA000 (bytesOfNat 8 resv) with tasks := [(0, tk)] }
     let c := curOf (withS [(4, 0x8080), (6, 1)])
     (∀ r ∈ [15, 16], (s r).cur? = some c) ∧
     ((s 15).tasks.find? fun t => t.2.ctx = c.team.ctx && t.2.addr = (c.rdPair 4).toNat && t.2.graph) = some (0, tk) ∧
     (∃ ps, (s 15).engRanges c [⟨true, 0, tk.rsz, { rd := true }⟩] = .ok ps) ∧
     tk.ring < (s 16).nodeGet 0 tk 0 + 1 - (s 16).nodeGet 0 tk 24 ∧ (s 15).nodeGet 0 tk 0 + 1 - (s 15).nodeGet 0 tk 24 ≤ tk.ring ∧
     (s 16).nodeLost 0 tk = none ∧ (s 15).nodeLost 0 tk = none ∧
     0 < (s 15).depOf 0 tk.ctx tk.addr ∧ tk.ctx = c.team.ctx ∧ Mapped (s 15) (Bytes 0xA000 64) 0 0 tk.qbase 64 0xA000) := by
  refine ⟨⟨rfl, by decide +kernel, by decide +kernel, by decide +kernel, by decide +kernel, by decide +kernel, by decide +kernel, by decide +kernel⟩,
    ⟨by decide +kernel, rfl, rfl, rfl, rfl, by decide +kernel, by decide +kernel⟩,
    ⟨?_, by decide +kernel, ok_of (by decide +kernel), by decide +kernel, by decide +kernel, by decide +kernel, by decide +kernel, by decide +kernel, rfl,
      mapped_mach _ _ _ _ rfl (by decide +kernel) (by decide) (by decide)⟩⟩
  intro r h
  simp only [List.mem_cons, List.not_mem_nil, or_false] at h
  obtain rfl | rfl := h <;> rfl

/-- A queue of 16 slots of 16 bytes at 0xB000, its descriptor at 0xA000, bound to local queue 3. -/
def qBytes (cfg tail head : Nat) : List Byte :=
  bytesOfNat 8 0xB000 ++ bytesOfNat 8 cfg ++ bytesOfNat 8 tail ++ bytesOfNat 8 head
def qState (cfg tail head : Nat) (t : Team) : State :=
  { (mach t).hbmWrite 0xA000 (qBytes cfg tail head) with dies := [(0, { die0 with queues := [(3, ⟨0, 0xA000⟩)] })] }
def qDesc (cfg tail head : Nat) : QDesc := ⟨0xA000, 0xB000, cfg, tail, head⟩

/-- The TLB of the queue's die maps its pages as the machine's does. -/
theorem mapped_q (cfg tail head : Nat) (t : Team) (D : Nat → Prop) (va n : Nat)
    (hl : (qState cfg tail head t).leafOk 0 (leafOf (va / 65536)) = true) (h0 : va / 65536 = 0) (hp : va % 4096 + n ≤ 4096) :
    Mapped (qState cfg tail head t) D 0 0 va n va := by
  have ht : mget? ((qState cfg tail head t).die 0).tlb (tlbKey 0 va) = some (leafOf 0) := by
    have : tlbKey 0 va = 0 := by unfold tlbKey; omega
    rw [this]; rfl
  have := mapped_of_tlb (qState cfg tail head t) D 0 0 va n (leafOf 0) ht (by rw [h0] at hl; exact hl) (by decide) (by decide) (by decide)
    (by decide) hp (by omega)
  have e : hbmBase (field (leafOf 0) 12 4) + field (leafOf 0) 16 31 * 65536 + va % 65536 = va := by
    have : field (leafOf 0) 12 4 = 0 ∧ field (leafOf 0) 16 31 = 0 := by decide
    rw [this.1, this.2]; unfold hbmBase; omega
  rwa [e] at this

/-- The last slot with an item, an empty queue, an empty closed queue, an unbound queue; a push and a close from the same split; an
arrival that is the last of two. -/
theorem witness_QueueInstructionsComplete :
    (let t := withS [(4, 4080), (5, 0)]
     let s := qState 4 16 15 t
     let c := curOf t
     let q := qDesc 4 16 15
     s.cur? = some c ∧ c.acts com0 = true ∧ s.noStash ∧ s.memOk = true ∧ s.queueAt 0 0 5 = none ∧ s.queueAt 0 0 3 = some 0xA000 ∧
     s.readDesc 0 0 0xA000 = some q ∧ q.ok = true ∧ (c.rdS 4).toNat % 16 = 0 ∧ (c.rdS 4).toNat + q.isz ≤ c.team.bytes ∧ c.team.wins = [] ∧
     q.head ≠ q.tail ∧ s.vRead 0 0 (q.slot q.head) q.isz = some (List.replicate 16 0) ∧
     Mapped s (Bytes 0xA000 64) 0 0 0xA000 64 0xA000 ∧ q.isClosed = false) ∧
    (qDesc 4 9 9).head = (qDesc 4 9 9).tail ∧ (qDesc 4 9 9).isClosed = false ∧ (qDesc 260 9 9).isClosed = true ∧
    (qState 4 9 9 tm0).readDesc 0 0 0xA000 = some (qDesc 4 9 9) ∧ (qState 260 9 9 tm0).readDesc 0 0 0xA000 = some (qDesc 260 9 9) ∧
    (let t := withS [(4, 4080), (5, 0)]
     let s := qState 4 16 15 t
     let c := curOf t
     let f := fE 0 3 0 0 0 4 5
     (match s.pushAsk c f with | .ok r => r == (0, qDesc 4 16 15) | .error _ => false) = true ∧
     s.pushesBefore 0 0 0 3 s.nextId = false ∧ (qDesc 4 16 15).at_ = 0xA000 ∧ (qDesc 4 16 15).slot 16 = 0xB000 ∧
     Mapped s (Bytes 0xB000 16) 0 0 0xB000 16 0xB000) ∧
    (match (qState 260 9 9 (withS [])).pushAsk (curOf (withS [])) (fE 0 3 0 0 0 4 5) with | .ok r => r.2.isClosed | .error _ => false) = true ∧
    (let t := withS [(4, 0xC000), (6, 2)]
     let s := (mach t).hbmWrite 0xC000 [1]
     let c := curOf t
     s.cur? = some c ∧ c.rdS 6 ≠ 0 ∧ (c.rdPair 4).toNat % 4 = 0 ∧ c.team.winOf (c.rdPair 4).toNat = none ∧
     s.engRanges c [⟨false, 0xC000, 4, { wr := true }⟩] = .ok [[(.hbm 0xC000, 4)]] ∧
     BitVec.ofNat 32 (s.hbmNat 0xC000 4) + 1 = c.rdS 6) := by
  refine ⟨⟨rfl, by decide +kernel, noStash_of _ (by decide), by decide +kernel, rfl, rfl, by decide +kernel, by decide, by decide, by decide, rfl,
      by decide, by decide +kernel, mapped_q _ _ _ _ _ _ _ (by decide +kernel) (by decide) (by decide), by decide⟩,
    rfl, by decide, by decide, by decide +kernel, by decide +kernel, ⟨by decide +kernel, by decide +kernel, rfl, by decide,
      mapped_q _ _ _ _ _ _ _ (by decide +kernel) (by decide) (by decide)⟩, by decide +kernel,
    ⟨rfl, by decide, by decide, by decide, rfl, by decide +kernel⟩⟩

/-- A parked QPULL whose queue has an item, and one whose queue is closed; an append to the last free slot; a doorbell. -/
theorem witness_QueueEventsComplete :
    (let t : Team := { withSplit { sp0 with park := .qpull 7 } with cmds := [(7, cmdOf (.qpull 3 4080 5) false)] }
     let s := qState 4 16 15 t
     let c := curOf t
     s.noStash ∧ s.memOk = true ∧ s.lookup? ⟨0, 0, 0⟩ = some c ∧ c.split.park = .qpull 7 ∧
     mget? c.team.cmds 7 = some (cmdOf (.qpull 3 4080 5) false) ∧ c.team.status = .resident ∧ c.group.halted = false ∧ c.team.clear 7 [] = true ∧
     ((s.queueAt 0 0 3).bind fun a => s.readDesc 0 0 a) = some (qDesc 4 16 15) ∧
     s.vRead 0 0 ((qDesc 4 16 15).slot 15) 16 = some (List.replicate 16 0) ∧ Mapped s (Bytes 0xA000 64) 0 0 0xA000 64 0xA000 ∧
     (((qState 260 9 9 t).queueAt 0 0 3).bind fun a => (qState 260 9 9 t).readDesc 0 0 a) = some (qDesc 260 9 9)) ∧
    (let k := cmdOf (.qpush 0 3 4080) false
     let t : Team := { tm0 with cmds := [(7, k)] }
     let s := qState 4 16 1 t
     let d := qDesc 4 16 1
     mget? s.teams 0 = some t ∧ mget? t.cmds 7 = some k ∧ t.clear 7 k.foot = true ∧
     ((s.queueAt 0 t.ctx 3).bind fun a => s.readDesc t.die t.ctx a) = some d ∧ d.tail - d.head < d.cap ∧ d.isClosed = false ∧
     d.slot d.tail = 0xB000 ∧ Mapped s (fun a => Bytes 0xA000 64 a ∨ Bytes 0xB000 d.isz a) 0 0 d.at_ 64 0xA000 ∧
     Mapped s (fun a => Bytes 0xA000 64 a ∨ Bytes 0xB000 d.isz a) 0 0 0xB000 d.isz 0xB000 ∧
     (∀ a, ¬ (Bytes 0xA000 64 a ∧ Bytes 0xB000 d.isz a)) ∧ (∀ u ∈ s.teams, ∀ m ∈ u.2.cmds, ∀ e x, m.2.kind ≠ .qclose e x)) ∧
    (s0.ctx 0).live = true ∧ (s0.ctx 0).ended = none := by
  refine ⟨⟨noStash_of _ (by decide), by decide +kernel, rfl, rfl, rfl, rfl, rfl, by decide, by decide +kernel, by decide +kernel,
      mapped_q _ _ _ _ _ _ _ (by decide +kernel) (by decide) (by decide), by decide +kernel⟩,
    ⟨rfl, rfl, by decide, by decide +kernel, by decide, by decide, by decide,
      mapped_q _ _ _ _ _ _ _ (by decide +kernel) (by decide) (by decide),
      mapped_q _ _ _ _ _ _ _ (by decide +kernel) (by decide) (by decide), ?_, ?_⟩, rfl, rfl⟩
  · rintro a ⟨⟨h1, h2⟩, h3, _⟩
    omega
  · have ht : (qState 4 16 1 { tm0 with cmds := [(7, cmdOf (.qpush 0 3 4080) false)] }).teams =
        [(0, { tm0 with cmds := [(7, cmdOf (.qpush 0 3 4080) false)] })] := rfl
    intro u hu m hm e x
    rw [ht, List.mem_singleton] at hu
    subst hu
    rw [List.mem_singleton] at hm
    subst hm
    simp [cmdOf]

/-! ### Witnesses: placement, completion and launches -/

def place0 : Placement := { task := 0, index := 0, die := 0, core := 191, slots := [(3, 14)], base := 520192, victims := [], restore := none }
def readyTask : Task := { task0 with ready := some 0 }
def nodeTask (coal flush : Nat) : Task :=
  { task0 with graph := true, qbase := 0xA000, qlog := 0, coal := coal, flush := flush, waiting := [(0, 0)], teams := 0 }
/-- A node with two records, of which none is taken. -/
def nodeState (coal flush : Nat) : State :=
  { (s0.hbmWrite 0xA000 (bytesOfNat 8 2 ++ bytesOfNat 8 2)).hbmWrite 0x8028 (bytesOfNat 4 1) with
    tasks := [(0, nodeTask coal flush)], mgmt := { State.reset.mgmt with time := 98000000 } }

theorem witness_GraphAndSchedulerEventsComplete_nodes :
    (let k := cmdOf (.temit 0 1 [(.arr 4032, 64)]) false
     let t : Team := { tm0 with cmds := [(7, k)] }
     let s : State := { nodeState 2 0 with teams := [(0, t)] }
     mget? s.teams 0 = some t ∧ mget? t.cmds 7 = some k ∧ t.clear 7 k.foot = true ∧
     mget? (s.cmdDone 0 7).tasks 0 = some (nodeTask 2 0) ∧
     ((s.cmdDone 0 7).vWrite 0 0 ((nodeTask 2 0).recAddr 1) (s.arrRead t 4032 64)).isSome = true) ∧
    (∀ p ∈ [(2, 0, false), (5, 98000000, true)],
      mget? (nodeState p.1 p.2.1).tasks place0.task = some (nodeTask p.1 p.2.1) ∧
      (nodeTask p.1 p.2.1).graph = true ∧ (nodeTask p.1 p.2.1).ready = none ∧
      (nodeState p.1 p.2.1).nodeLost 0 (nodeTask p.1 p.2.1) = none ∧
      0 < (nodeState p.1 p.2.1).launchSize (nodeTask p.1 p.2.1) 0 p.2.2 ∧ ((nodeState p.1 p.2.1).die 0).blocking = [] ∧
      (nodeState p.1 p.2.1).mgmt.busy = false ∧ ((nodeState p.1 p.2.1).ctx 0).ended = none ∧
      ((nodeState p.1 p.2.1).die 0).failed = false ∧ (nodeState p.1 p.2.1).legalNew (nodeTask p.1 p.2.1) place0 = true ∧
      (nodeState p.1 p.2.1).noStash ∧ (nodeState p.1 p.2.1).memOk = true ∧
      Mapped (nodeState p.1 p.2.1) (Bytes 0xA000 64) 0 0 (nodeTask p.1 p.2.1).qbase 64 0xA000) := by
  refine ⟨⟨rfl, rfl, by decide, by decide +kernel, by decide +kernel⟩, ?_⟩
  intro p h
  simp only [List.mem_cons, List.not_mem_nil, or_false] at h
  obtain rfl | rfl := h <;>
    exact ⟨rfl, rfl, rfl, by decide +kernel, by decide +kernel, rfl, rfl, rfl, rfl, by decide +kernel, noStash_of _ (by decide +kernel), by decide +kernel,
      mapped_mach _ _ _ _ rfl (by decide +kernel) (by decide) (by decide)⟩

def schedState : State :=
  { s0 with
    tasks := [(0, readyTask)], mgmt := { State.reset.mgmt with time := 98000000 }
    dies := [(0, { die0 with runSince := [(0, 0)], skipped := [(0, 97000000)] })] }

theorem witness_GraphAndSchedulerEventsComplete_dies :
    mget? schedState.tasks place0.task = some readyTask ∧ schedState.mgmt.busy = false ∧ (schedState.die place0.die).failed = false ∧
    place0.die < Config.dies ∧ schedState.turnOf 0 0 = true ∧ schedState.wantsNew 0 readyTask = true ∧
    schedState.legalNew readyTask place0 = true ∧ mget? (schedState.die 0).skipped 0 = some 97000000 ∧
    readyTask.graph = false ∧ readyTask.hasPlaced place0.index = false ∧ place0.index < readyTask.teams ∧
    (let k := { nodeTask 2 0 with ready := some 0 }
     let s : State := { nodeState 2 0 with tasks := [(0, k)] }
     mget? s.tasks place0.task = some k ∧ k.graph = true ∧ k.ready.isSome = true ∧ s.nodeLost place0.die k = none) ∧
    97000000 + 1000000 ≤ schedState.mgmt.time ∧ schedState.wantsOn 0 0 = true ∧ 0 ∉ (schedState.die 0).blocking ∧
    schedState.starved 0 0 = true ∧ schedState.forcedFit 0 place0 = some readyTask.fit := by
  refine ⟨rfl, rfl, rfl, by decide, ?_⟩
  decide +kernel

/-- A launch on the last core, at the end of its array; a team that is over, and one that is not. -/
theorem witness_TeamsStartCleanAndLeave :
    (let core := coreKey place0.die place0.core
     let s₂ := ((schedState.scrub core 0 place0.base (arrBytes readyTask.local_)).loadDict 0 core 0 readyTask).l1Clear core
     (mget? s₂.tasks 0).isSome = true ∧ schedState.memOk = true ∧
     Mapped schedState (Bytes 0x8000 128) place0.die readyTask.ctx readyTask.addr 128 0x8000 ∧ readyTask.newGroups place0.slots 0 0 ≠ []) ∧
    (let t : Team := withGroup { gr0 with splits := [], ended := true }
     mget? (mach t).teams 0 = some t ∧ mget? (mach t).tasks t.task = some task0 ∧ (mach t).teamOver 0 = true ∧ t.wins = [] ∧
     mwf (mach t).teams = true ∧ task0.graph = false ∧ (∀ a ∈ task0.ttgt, a = 0) ∧ task0.done + 1 ≠ task0.teams) ∧
    s0.teamOver 0 = false := by
  refine ⟨⟨by decide +kernel, by decide, ?_, by decide +kernel⟩, ⟨rfl, rfl, by decide +kernel, rfl, by decide, rfl, by decide, by decide⟩,
    by decide +kernel⟩
  have ht : mget? (schedState.die 0).tlb (tlbKey 0 0x8000) = some (leafOf 0) := rfl
  exact mapped_of_tlb schedState _ 0 0 0x8000 128 (leafOf 0) ht (by decide +kernel) (by decide) (by decide) (by decide) (by decide) (by decide)
    (by decide)

/-! ### Witnesses: strands -/

/-- The cells of a memory that holds given bytes at rising addresses: those that are not zero. -/
def cellsOf (l : List (Nat × List Nat)) : Memory :=
  l.flatMap fun p => (p.2.zipIdx p.1).filterMap fun b => if b.1 = 0 then none else some (b.2, BitVec.ofNat 8 b.1)

/-- A strand of 16 buckets with four committed tokens and three reserved, of which the first is stored; a free header. -/
def hdr1 : Hdr :=
  { idx := 1, cl := 4, rl := 7, gen := 3, bits := 4, etype := true, headpg := 4, tailpg := 4, bkt := 0xE000, kwin := 1, plt := 0xF000, npg := 1 }
/-- The strand area at 0xC000: its control block; header 1, and the free header 2; the metadata of page 4, in whose slot 1 token 1
stands with no link; the buckets, of which the last begins with token 1; a placement table of two shards and one block; at
0xF0000 a free stack of four frames with two in it. -/
def strandMem : Memory :=
  cellsOf [(0xC008, [0x00, 0xD0, 0, 0, 0, 0, 0, 0, 2, 0, 0, 0, 1]),
    (0xC100, [4, 0, 0, 0, 7, 0, 0, 0, 0x10, 0x40, 0x31, 0, 1, 0, 0, 0, 4, 0, 0, 0, 4]), (0xC121, [0xE0]), (0xC150, [1]), (0xC171, [0xF0]),
    (0xC178, [1]), (0xC20A, [0x50]), (0xD803, [0x80, 1, 0, 0x30, 0, 0, 0, 0, 0, 7]), (0xD813, [0xC0, 0xFF, 0xFF, 0xFF, 0x0F]),
    (0xE000, ((List.range 15).flatMap fun _ => [0xFF, 0xFF, 0xFF, 0x3F]) ++ [1, 1]), (0xF000, [2, 0, 0, 0, 1]),
    (0xF0000, [0x40, 0, 0x0F, 0, 0, 0, 0, 0, 4, 0, 0, 0, 2]), (0xF0040, [5, 0, 0, 0, 6])]
def set0 : ProjSet := ⟨0, 0, 4, false, List.replicate 4 (List.replicate 64 0)⟩
def strandState (t : Team) (m : Memory) : State :=
  { mach t with
    hbm := m
    ctxs := [(0, { ctx0 with strandtab := 0xC004, pfxtab := 0x5006, densef := 0x1010 })]
    dies := [(0, { die0 with flhead := 0x10000, projs := [(0, set0)] })]
    mgmt := { State.reset.mgmt with mtab := [(1, leafOf 15)] } }
/-- 4: the handle; 5: a shape; 6: new buckets; 8: a placement table; 10: one; 11: the first token not committed; 12: a stale handle;
13: the first token not stored; 14: two; 15: zero; 16: a frame; 18: a hash; 20: 257; 22: a misaligned table; 24: 2,048. -/
def strandRegs : SMap Word :=
  [(4, 0x300001), (5, 0x4010), (6, 0xE040), (8, 0xF000), (10, 1), (11, 4), (12, 0x400001), (13, 5), (14, 2), (15, 0), (16, 7), (18, 9),
   (20, 257), (22, 0xE044), (24, 2048)]
def sT : Team := withS strandRegs
def sS : State := strandState sT strandMem
def sC : Cur := curOf sT
def sE : SEnv := sC.senv
def sA : Area := ⟨0xC000, 4, 0, 0xD000⟩
def rd (n : Nat) : Nat := (sC.rdS n).toNat
def pr (n : Nat) : Nat := (sC.rdPair n).toNat

theorem strand_state : sS.cur? = some sC ∧ sC.acts com0 = true ∧ sS.area sE = .ok sA ∧ sS.openStrand sE sA (rd 4) = .ok hdr1 := by
  refine ⟨rfl, by decide, ?_, ?_⟩ <;> decide +kernel

/-- Each command's effect, and each of its traps, on the strand area. -/
theorem witness_StrandInstructionsComplete :
    (∃ r, sS.snew sE (rd 5) (pr 6) (pr 8) = .ok r) ∧ (∃ x, sS.snew sE (rd 5) (pr 22) (pr 8) = .error x) ∧
    (∃ r, sS.sres sE (rd 4) (rd 10) = .ok r) ∧ (∃ x, sS.sres sE (rd 4) (rd 20) = .error x) ∧
    (∃ r, sS.scommit sE (rd 4) (rd 11) (rd 10) = .ok r) ∧ (∃ x, sS.scommit sE (rd 4) (rd 13) (rd 10) = .error x) ∧
    (∃ r, sS.sfork sE (rd 4) (rd 14) (pr 6) = .ok r) ∧ (∃ x, sS.sfork sE (rd 4) (rd 13) (pr 6) = .error x) ∧
    (∃ r, sS.srel sE sA 16 (rd 4) = .ok r) ∧ (∃ x, sS.srel sE sA 16 (rd 12) = .error x) ∧
    (∃ x, sS.openStrand sE sA (rd 12) = .error x) ∧
    (∃ r, sS.sseek sE (rd 4) (rd 14) (rd 15) = .ok r) ∧ (∃ x, sS.sseek sE (rd 12) (rd 14) (rd 15) = .error x) := by
  refine ⟨ok_of ?_, error_of ?_, ok_of ?_, error_of ?_, ok_of ?_, error_of ?_, ok_of ?_, error_of ?_, ok_of ?_, error_of ?_, error_of ?_,
    ok_of ?_, error_of ?_⟩ <;> decide +kernel

/-- A stack with a frame and one with none; a prefix looked up and put in, and one of more blocks than its strand has; a table's entry
and its shortest shard, and a strand that has none. -/
theorem witness_IndexInstructionsComplete :
    (match sS.pop sE sC.team.die with | .ok r => r.2 == some 6 | .error _ => false) = true ∧
    (match (strandState sT (wrByte strandMem 0xF000C 0)).pop sE sC.team.die with | .ok r => r.2 == none | .error _ => false) = true ∧
    (∃ t, sS.push sE (rd 16) = .ok t) ∧ (∃ x, sS.push sE 0xFFFFFF = .error x) ∧ (∃ r, sS.pfxfind sE (pr 18) (rd 10) false = .ok r) ∧
    (∃ r, (strandState sT (wrByte strandMem 0xC100 16)).pfxins sE (pr 18) (rd 10) (rd 4) false = .ok r) ∧
    (∃ x, sS.pfxins sE (pr 18) (rd 10) (rd 4) false = .error x) ∧
    rd 24 % 4 = 0 ∧ rd 24 + 64 ≤ sC.team.bytes ∧ sC.team.wins = [] ∧ pr 22 % 4 = 0 ∧
    sS.engRanges sC [⟨false, pr 22, 64, { rd := true }⟩] = .ok [[(.hbm 0xE044, 64)]] ∧ sS.noStash ∧
    (∃ x, sS.plcBlock sE (rd 4) (rd 15) = .ok x) ∧ (∃ x, sS.plcBlock sE (rd 4) (rd 10) = .ok x) ∧
    (∃ x, sS.plcBlock sE (rd 12) (rd 15) = .error x) ∧ (∃ t, sS.placement sE (rd 4) = .ok t) := by
  refine ⟨?_, ?_, ok_of ?_, error_of ?_, ok_of ?_, ok_of ?_, error_of ?_, ?_, ?_, rfl, ?_, ok_eq ?_, noStash_of _ ?_, ok_of ?_, ok_of ?_,
    error_of ?_, ok_of ?_⟩ <;> decide +kernel

/-- The first token that is not stored is stored. -/
theorem witness_SignatureInstructionsComplete_kst :
    sC.addrOf true 24 % 16 = 0 ∧ sS.engRanges sC [⟨true, sC.addrOf true 24, hdr1.slotBytes, { rd := true }⟩] = .ok [[(.arr 2048, 256)]] ∧
    ∃ t, (State.engRead sS sC.ref.team (.arr 2048) 256).1.kst sE sA hdr1 (rd 13) (sC.rdS 15)
      (State.engRead sS sC.ref.team (.arr 2048) 256).2 = .ok t ∧ (t.lookup? sC.ref).isSome = true := by
  refine ⟨by decide, rfl, ?_⟩
  have h : ∀ x : Except STrap State, (match x with | .ok t => (t.lookup? sC.ref).isSome | .error _ => false) = true →
      ∃ t, x = .ok t ∧ (t.lookup? sC.ref).isSome = true := by
    intro x hx
    cases x with
    | ok t => exact ⟨t, rfl, hx⟩
    | error _ => simp at hx
  exact h _ (by decide +kernel)

/-- A bucket of one committed token; a set of the largest shape loaded for its context, and freed. -/
theorem witness_SignatureInstructionsComplete :
    (let lim := (sS.ctx sC.team.ctx).densef.toNat / 256 % 65536
     rd 24 % 16 = 0 ∧ rd 15 % 16 = 0 ∧ rd 24 + 2 * hdr1.dim ≤ sC.team.bytes ∧ rd 15 + 16 * lim ≤ sC.team.bytes ∧ sC.team.wins = [] ∧
     sS.memOk = true ∧ sS.bgath sE sA hdr1 false (sS.arrRead sC.team (rd 24) (2 * hdr1.dim)) = .ok [(1, 240, 33024)] ∧ 1 ≤ lim ∧
       64 * 1 ≤ (sS.ctx sC.team.ctx).densef.toNat % 128 * hdr1.cl) ∧
    mget? (sS.die sC.team.die).projs (rd 15) = some set0 ∧ set0.owner = (sS.ctx sC.team.ctx).owner ∧ 0xC000 % 16 = 0 ∧
    (∃ ps, sS.engRanges sC [⟨false, 0xC000, 2 * 128 * 12, { rd := true }⟩] = .ok ps) ∧
    (∀ k ∈ [CmdKind.projld 63 (some (12, true)) [(.hbm 0xC000, 2 * 128 * 12)], .projld 63 none []],
     (withCmd k false).status ≠ .saved ∧ (withCmd k false).clear 7 (cmdOf k false).foot = true ∧
      (strandState (withCmd k false) []).setBusy 0 63 7 = false ∧ mwf ((strandState (withCmd k false) []).die 0).projs = true) := by
  refine ⟨⟨by decide +kernel, by decide +kernel, by decide +kernel, by decide +kernel, rfl, by decide +kernel, ok_eq ?_, by decide +kernel, by decide +kernel⟩,
    rfl, rfl, rfl, ok_of ?_, ?_⟩ <;> decide +kernel

/-! ### Witnesses: the rings -/

/-- A descriptor at 0x9000: a local source of one tile of one row of 16 bytes, its members given. -/
def ringMem (mask rows : Nat) : Memory :=
  cellsOf [(0x9000, [4, 0, 0, 0, mask]), (0x9019, [0xB0]), (0x9020, [0x40]), (0x9029, [0xC0]), (0x9030, [4]), (0x9040, [rows]),
    (0x9044, [16]), (0x9048, [16]), (0x904C, [16]), (0x9050, [1]), (0x9058, [64]), (0x9061, [0xD0])]
def ringTeam : Team := withS [(4, 0x9000), (6, 1), (8, 2), (10, 0x9002)]
def ringState (mask rows : Nat) : State := { mach ringTeam with hbm := ringMem mask rows }
def ringCur : Cur := curOf ringTeam
/-- The command that a descriptor makes. -/
def ringCmd (op : RingOp) (mask rows : Nat) : RingCmd :=
  { op := op, d := ringDescOf (rdBytes (ringMem mask rows) 0x9000 128), desc := 0x9000, count := 0, die := 0
    members := (ringState mask rows).ringMembers 0 (ringDescOf (rdBytes (ringMem mask rows) 0x9000 128)), rank := 0
    target := if op = .rhnd then 1 else 0, rnd := sp0.fmtRnd, sat := sp0.fmtSat, pages := [], left := [] }

/-- Two members; a die that is no member; a descriptor of no rows, and a target beyond the members; a counter to wait for. -/
theorem witness_RingInstructionsComplete :
    (∀ p ∈ [(3, 1), (2, 1), (3, 0)],
      (ringState p.1 p.2).cur? = some ringCur ∧
      okIs ((ringState p.1 p.2).engRanges ringCur [⟨false, 0x9000, 128, { rd := true }⟩]) [[(.hbm 0x9000, 128)]] = true ∧
      okd ((ringState p.1 p.2).issueRead ringCur 0x9000 128) = true) ∧
    ringCur.acts com0 = true ∧ (ringState 3 1).noStash ∧ (ringCur.rdPair 4).toNat % 128 = 0 ∧ (ringCur.rdPair 10).toNat % 4 ≠ 0 ∧
    (∀ op ∈ [RingOp.rag, .rrs, .rhnd],
      let b (mask rows : Nat) : List Byte := rdBytes (ringMem mask rows) 0x9000 128
      let ms (mask rows : Nat) : List Nat := (ringState mask rows).ringMembers 0 (ringDescOf (b mask rows))
      rankIn (ms 3 1) 0 = some 0 ∧ ringDescOk (b 3 1) op = true ∧ (ringCur.rdS 6).toNat < (ms 3 1).length ∧
      okd ((ringState 3 1).engRanges ringCur ({ ringCmd op 3 1 with left := (ringCmd op 3 1).tiles } : RingCmd).ranges) = true ∧
      rankIn (ms 2 1) 0 = none ∧ rankIn (ms 3 0) 0 = some 0 ∧ ringDescOk (b 3 0) op = false ∧ (ms 3 1).length ≤ (ringCur.rdS 8).toNat) ∧
    okIs ((ringState 3 1).engRanges ringCur [⟨false, 0x9000, 4, { rd := true }⟩]) [[(.hbm 0x9000, 4)]] = true ∧
    ringCur.team.winOf 0x9000 = none ∧ (withCmd (.rrank 4) true).status = .resident ∧ mget? (withCmd (.rrank 4) true).groups 0 = some gr0 := by
  refine ⟨?_, by decide, noStash_of _ (by decide), by decide, by decide, ?_, by decide +kernel, rfl, rfl, rfl⟩ <;> decide +kernel

/-- The command begun, with its tiles to be done, under the leaf of its page. -/
def begun (op : RingOp) : RingCmd := { ringCmd op 3 1 with pages := [(0, leafOf 0)], left := (ringCmd op 3 1).tiles }
def begunTeam (op : RingOp) : Team := withCmd (.ring (begun op)) true
def begunState (op : RingOp) : State := { mach (begunTeam op) with hbm := ringMem 3 1 }

theorem witness_RingEventsComplete_tiles :
    (begunState .rag).ringOfCmd 7 = some (0, begunTeam .rag, cmdOf (.ring (begun .rag)) true, begun .rag) ∧
    (begun .rag).left.contains 1 = true ∧ mget? (begun .rag).held 1 = none ∧ (begun .rag).d.sloc = true ∧ (begun .rag).d.dloc = false ∧
    (begunTeam .rag).status = .resident ∧ ((begunState .rag).landing 0 (begunTeam .rag) (begun .rag) 1).isSome = true ∧
    (begunState .rrs).ringOfCmd 7 = some (0, begunTeam .rrs, cmdOf (.ring (begun .rrs)) true, begun .rrs) ∧
    (begun .rrs).left.contains 1 = true ∧ ((begunState .rrs).landing 0 (begunTeam .rrs) (begun .rrs) 1).isNone = true ∧
    (begunState .rag).noStash ∧ (begunState .rag).memOk = true ∧
    (begunState .rag).heldPieces 0 [(0, leafOf 0)] 0xC000 4 = [(.hbm 0xC000, 4)] ∧ (begunTeam .rag).ctx = 0 := by
  refine ⟨rfl, ?_, rfl, ?_, ?_, rfl, ?_, rfl, ?_, ?_, noStash_of _ (by decide), ?_, rfl, rfl⟩ <;> decide +kernel

/-- A wait whose counter has just reached its target, and one that it has not; a wrap that is due. -/
theorem witness_RingEventsComplete_waits :
    (let k : CmdKind := .rwait (.hbm 0xC000) 3 0 0xFF false
     let t : Team := { withSplit { sp0 with park := .rwait 7 } with cmds := [(7, cmdOf k false)] }
     let s (n : Nat) : State := { mach t with hbm := cellsOf [(0xC000, [n])] }
     ∀ n ∈ [2, 3], (s n).lookup? ⟨0, 0, 0⟩ = some (curOf t) ∧ (curOf t).split.park = .rwait 7 ∧
       mget? (curOf t).team.cmds 7 = some (cmdOf k false) ∧ t.status = .resident ∧ (curOf t).group.halted = false ∧
       t.clear 7 (cmdOf k false).foot = true ∧ ((s n).teams.all fun q => q.2.wins.isEmpty) = true ∧
       ((3 : Word).toNat ≤ (s n).hbmNat 0xC000 4 ↔ n = 3)) ∧
    ({ s0 with mgmt := { s0.mgmt with due := some ⟨true, 3⟩, hit := [0] } } : State).mgmt.due = some ⟨true, 3⟩ := by
  refine ⟨?_, rfl⟩
  decide +kernel

/-- Nothing is asked for a tile, and nothing at all; a wrap under way has failed dies. -/
theorem witness_RingEventsComplete_asks :
    (∀ op ∈ [RingOp.rag, .rrs], (begunState op).tileAsks 0 7 (begunTeam op) (begun op) 1 = none) ∧
    (∀ n ∈ [0, 1], ∀ a ∈ ({ s0 with hbm := cellsOf [(0xC000, [n])] } : State).fab.asks, a.who ≠ .cmd 7) := by
  refine ⟨by decide +kernel, ?_⟩
  intro n _ a ha; cases ha

/-- The chunk of the last rank. -/
theorem witness_ReductionOrderVisitsEveryMember : 15 < 16 := by decide

/-- A commit below CL, one beyond RL, one of a token not stored, one of a token marked already, and one that moves CL; a push onto a
stack with two free places. -/
theorem witness_StrandStructuresBehave :
    (let i := 4
     let n := 1
     let m := rangeBits (i - hdr1.cl) n
     3 < hdr1.cl ∧ hdr1.rl < 7 + 1 ∧ hdr1.cl ≤ 5 ∧ 5 + 2 ≤ hdr1.rl ∧ hdr1.kwin &&& rangeBits (5 - hdr1.cl) 2 ≠ rangeBits (5 - hdr1.cl) 2 ∧
     hdr1.cl ≤ i ∧ i + n ≤ hdr1.rl ∧ hdr1.kwin &&& m = m ∧ hdr1.cwin &&& m = 0 ∧ hdr1.cl + 256 < 2 ^ 32 ∧ sS.noStash ∧ sS.memOk = true ∧
     Mapped sS (Bytes 0xC100 128) 0 0 (sA.base + 256 * hdr1.idx) 128 0xC100 ∧ i + n ≤ hdr1.cl + 256) ∧
    (let s := strandState sT (wrByte (wrByte strandMem 0xC130 2) 0xC150 3)
     let h := { hdr1 with cwin := 2, kwin := 3 }
     s.openStrand sE sA (rd 4) = .ok h ∧ hdr1.cl ≤ 5 ∧ h.kwin &&& rangeBits 1 1 = rangeBits 1 1 ∧ h.cwin &&& rangeBits 1 1 ≠ 0) ∧
    (let k : Stack := ⟨0xF0000, 0xF0040, 4, 2⟩
     let D a := Bytes 0xF0000 16 a ∨ Bytes 0xF0048 4 a
     0xFFFFFE < 0xFFFFFF ∧ (sS.diesOf 0).contains (rd 16 / 2 ^ 20) = true ∧ sS.stack sE (rd 16 / 2 ^ 20) = .ok k ∧ k.top < k.cap ∧
     Mapped sS D 0 0 (k.arr + 4 * k.top) 4 0xF0048 ∧ ∀ a, ¬ (Bytes k.at_ 16 a ∧ Bytes 0xF0048 4 a)) := by
  refine ⟨⟨?_, ?_, ?_, ?_, ?_, ?_, ?_, ?_, ?_, ?_, noStash_of _ (by decide), ?_,
      mapped_mach _ _ _ _ rfl (by decide +kernel) (by decide) (by decide), ?_⟩, ⟨ok_eq ?_, ?_, ?_, ?_⟩,
    ⟨?_, ?_, ok_eq ?_, ?_, mapped_mach _ _ _ _ rfl (by decide +kernel) (by decide) (by decide), ?_⟩⟩ <;>
    first | decide +kernel | skip
  rintro a ⟨⟨_, h1⟩, h2, _⟩
  have h1' : a < 0xF0000 + 16 := h1
  omega

/-! ### Witnesses: clauses, splits and the host driver -/

def clauseState (t : Team) (m : Memory) : State := { mach t with hbm := m }
/-- At 0x1080, the header of a region entry of one NOP that waits for nothing, one that waits for LDC 0, and one of class 7. -/
def open_ : Memory := cellsOf [(0x1081, [0xFF, 0xFF, 0xFF, 4])]
def waiting_ : Memory := cellsOf [(0x1081, [0xF0, 0xFF, 0xFF, 4])]
def bad_ : Memory := cellsOf [(0x1080, [0x70, 0xFF, 0xFF, 0xFF, 4])]
def openHdr : DWord := 0x4FFFFFF00
/-- Two splits in the divergence that reconverges where the first stands. -/
def divergedTeam : Team :=
  withGroup { gr0 with splits := [(0, { sp0 with mask := 0x0F, drec := some 0 }), (1, { sp0 with mask := 0xF0, drec := some 0, pc := 0x1090 })]
                       recs := [(0, ⟨0, some 0x1080, none⟩)] }
def ldcTeam : Team := withSplit { sp0 with ctrs := { ldc := [5] } }

theorem witness_ClauseAndSplitEventsComplete_begin :
    (∀ p ∈ [(tm0, open_), (tm0, bad_), (ldcTeam, waiting_), (divergedTeam, open_)],
      let s := clauseState p.1 p.2
      let c := curOf p.1
      s.lookup? ⟨0, 0, 0⟩ = some c ∧ c.team.status = .resident ∧ c.split.opn = false ∧ c.group.halted = false ∧ c.split.park = .none ∧
      c.split.ovf = [] ∧ c.split.mask ≠ 0 ∧ s.mergePartner c = none ∧ s.atBreak c = false ∧ okd (s.header c) = true) ∧
    (∀ m ∈ [open_, bad_], (clauseState tm0 m).mustYield c0 = false ∧ (clauseState tm0 m).portFree c0 = true) ∧
    okIs ((clauseState tm0 open_).header c0) openHdr = true ∧ okIs ((clauseState divergedTeam open_).header (curOf divergedTeam)) openHdr = true ∧
    headerRe openHdr = true ∧ c0.parksHere true = false ∧ waitsMet openHdr c0.split.ctrs = true ∧
    (curOf divergedTeam).parksHere true = true ∧ okd ((clauseState tm0 open_).checkClause c0 openHdr) = true ∧
    (okIs ((clauseState tm0 bad_).header c0) 0x4FFFFFF70 = true ∧ okd ((clauseState tm0 bad_).checkClause c0 0x4FFFFFF70) = false) ∧
    (okIs ((clauseState ldcTeam waiting_).header (curOf ldcTeam)) 0x4FFFFF000 = true ∧ (curOf ldcTeam).parksHere true = false ∧
      waitsMet 0x4FFFFF000 (curOf ldcTeam).split.ctrs = false) := by
  decide +kernel

/-- Two splits at one region entry; two parked at one MERGE. -/
theorem witness_ClauseAndSplitEventsComplete_merge :
    (let s := clauseState twoSplits open_
     let c := curOf twoSplits
     let q : Split := { sp0 with mask := 0xF0 }
     s.lookup? ⟨0, 0, 0⟩ = some c ∧ c.team.status = .resident ∧ mget? c.group.splits 1 = some q ∧
     s.mergesWith c (c.sibling 1 q) = true ∧ mwf c.group.splits = true) ∧
    (let p : Split := { sp0 with mask := 0x0F, park := .merge 1 }
     let q : Split := { sp0 with mask := 0xF0, park := .merge 0 }
     let g : Group := { gr0 with splits := [(0, p), (1, q)] }
     mget? (withGroup g).groups 0 = some g ∧ g.halted = false ∧ g.splits = (0, p) :: [(1, q)] ∧ g.allAtMerge = true ∧ g.sameMerge = true) := by
  decide +kernel

/-- A park left because its sibling is parked, and one because 512 cycles have passed; a split that has issued for as long; an exit
with a matrix operation in flight, and one with none. -/
theorem witness_ClauseAndSplitEventsComplete_parks :
    (let t := withGroup { gr0 with splits := [(0, { sp0 with mask := 0x0F, park := .reconv }), (1, { sp0 with mask := 0xF0, park := .exit })] }
     let s := clauseState t open_
     let c := curOf t
     s.lookup? ⟨0, 0, 0⟩ = some c ∧ c.split.park = .reconv ∧ c.group.halted = false ∧ s.mergePartner c = none ∧
     s.othersParked c = true) ∧
    (let t := withGroup { gr0 with splits := [(0, { sp0 with mask := 0x0F, park := .reconv, parked := 512, pc := 0x1090 }), (1, { sp0 with mask := 0xF0 })] }
     let s := clauseState t open_
     (s.mergePartner (curOf t)).isNone = true ∧ (s.die 0).fairtime.toNat ≤ (curOf t).split.parked ∧ s.othersParked (curOf t) = false) ∧
    (let q : Split := { sp0 with mask := 0xF0 }
     let t := withGroup { gr0 with splits := [(0, { sp0 with mask := 0x0F, cont := 512 }), (1, q)] }
     let s := clauseState t open_
     mget? (curOf t).group.splits 1 = some q ∧ (let d := ((curOf t).sibling 1 q).bound
     s.ready (s.mates d) d = true) ∧
     (s.die 0).fairtime.toNat ≤ (curOf t).split.cont) ∧
    (let t (ops : List Nat) : Team := withSplit { sp0 with mask := 0, park := .exit, ctrs := { mxc := ops } }
     (curOf (t [5])).split.drained = false ∧ (curOf (t [])).split.drained = true ∧
     (curOf (t [])).group.splits = [(0, (curOf (t [])).split)] ∧ (curOf (t [])).split.park = .exit) := by
  decide +kernel

/-- An access through BAR2 at the end of the mapped page, and one beyond it; a team that can be saved, and one in an open clause. -/
theorem witness_DriverEventsComplete :
    (let s : State := { s0 with mgmt := { s0.mgmt with mtab := [(1, leafOf 15)] } }
     s.noStash ∧ s.memOk = true ∧ s.mgmtPlace 0 0x1FFF8 8 true = some 0xFFFF8 ∧ s.mgmtPlace 0 0x1FFF9 8 true = none ∧
     s.mgmtPlace 0 0x1FFF8 8 false = some 0xFFFF8 ∧ s.inBar2 ⟨0, true, 0x1FFF8, List.replicate 8 7⟩ = true ∧
     s.inBar2 ⟨0, true, 0xFFFFFFFF9, List.replicate 8 7⟩ = false ∧ s.mgmtLeaf 0 0x1FFF9 8 true = none) ∧
    mget? s0.teams 0 = some tm0 ∧ mget? tm0.groups 0 = some gr0 ∧ mget? gr0.splits 0 = some sp0 ∧
    (s0.residentTeams (fun t => t.ctx = 0 && t.die = 0)).all s0.canSave = true ∧
    ((mach (withSplit { sp0 with opn := true })).residentTeams (fun t => t.ctx = 0 && t.die = 0)).all
      (mach (withSplit { sp0 with opn := true })).canSave = false ∧
    (s0.ctx 0).live = true ∧ (s0.ctx 0).ended = none ∧ gr0.ended = false ∧ gr0.splits = (0, sp0) :: [] ∧
    (let g : Group := { gr0 with halted := true }
     (mach (withGroup g)).lookup? ⟨0, 0, 0⟩ = some (curOf (withGroup g)) ∧ (curOf (withGroup g)).group.halted = true ∧
     mget? (withGroup g).groups 0 = some g ∧ sp0.opn = false ∧ sp0.park = .none) := by
  refine ⟨⟨noStash_of _ (by decide), ?_⟩, ?_⟩ <;> decide +kernel

/-- A split whose commands owe it nothing, with nothing owned; the others of its team arrived at no barrier, and a park at a barrier whose
phase has gone by and at one whose has not. -/
theorem witness_DriverEventsComplete_resume :
    c0.owes = false ∧ s0.noneOwned = true ∧ (∀ q ∈ tm0.groups, ∀ b, b < tm0.bars.length → q.2.arrived b = false) ∧
    (let p (n : Nat) : Split := { sp0 with park := .bar 1 n, hit := true }
     let g (n : Nat) : Group := { gr0 with halted := true, splits := [(0, p n)] }
     ∀ n ∈ [0, 1], mget? (mach (withGroup (g n))).teams 0 = some (withGroup (g n)) ∧ mget? (g n).splits 0 = some (p n) ∧ (g n).halted = true ∧
       ((withGroup (g n)).bar 1).phase = 0 ∧ 1 < (withGroup (g n)).bars.length) := by
  refine ⟨by decide, by decide, ?_, by decide⟩
  intro q hq b hb
  have h : (tm0.groups.all fun q => (List.range tm0.bars.length).all fun b => q.2.arrived b = false) = true := by decide
  have := List.all_eq_true.mp h q hq
  simpa using List.all_eq_true.mp this b (List.mem_range.mpr hb)

/-- A write through BAR2 of 8 bytes to a page of package 9. -/
theorem witness_DriverEventsComplete_peer :
    let s : State := { s0 with mgmt := { s0.mgmt with mtab := [(1, 0x4800000000107)] } }
    ((s.mgmtLeaf 0 0x1FFF8 8 true).bind fun e => s.placeOf 0 0x1FFF8 e) = some (.peer 9 0xFFF8) := by
  decide +kernel

/-! ### Witnesses: the fabric -/

def conn0 : Conn := { ctx := 0, die := 0, desc := 0xA000, peer := 5, pctx := 0, cqb := 0xB000, cqlog := 4, win := 0 }
/-- Remote queue 3 of context 0 on die 0, bound. -/
def fabState (t : Team) (c : Conn) : State := { mach t with fab := { conns := [(3, c)] } }
/-- 4: 2,048, a local address, then zero; 6: an offset; 8: the longest length; 10: the shortest; 12: a window; 14: no window; 16: a
length of a window; 18: a word of permissions; 20: an address of a record; 22: a length that is none. -/
def fabRegs : SMap Word :=
  [(4, 2048), (6, 32), (8, 16777216), (10, 16), (12, 65535), (14, 65536), (16, 0x10000), (18, 0x70001), (20, 0x9000), (22, 24), (24, 0x10000)]
def fT : Team := withS fabRegs
def fC : Cur := curOf fT
def fS : State := fabState fT conn0

theorem witness_FabricInstructionsComplete_moves :
    fS.cur? = some fC ∧ fC.acts com0 = true ∧ s0.conn? (c0.queueKey 3) = none ∧ fS.conn? (fC.queueKey 3) = some conn0 ∧
    remoteLen (fC.rdS 10).toNat = true ∧ remoteLen (fC.rdS 8).toNat = true ∧ remoteLen (fC.rdS 22).toNat = false ∧
    (fC.rdPair 6).toNat % 16 = 0 ∧ fC.addrOf true 4 % 16 = 0 ∧ (fC.rdPair 6).toNat % 8 = 0 ∧ (fC.rdPair 20).toNat % 8 = 0 ∧
    okd (fS.engRanges fC [⟨true, fC.addrOf true 4, (fC.rdS 10).toNat, { rd := true }⟩]) = true ∧
    okd (fS.engRanges fC [⟨true, fC.addrOf true 4, (fC.rdS 10).toNat, { wr := true }⟩]) = true ∧
    okd (fS.engRanges fC [⟨false, (fC.rdPair 20).toNat, 8, { wr := true }⟩]) = true ∧
    (12 : BitVec 4).toNat = 12 ∧ (mget [] fS.fab.tags 0).contains 9 = false ∧
    (fS.conn? (connKey 0 0 3)).isSome = true := by
  refine ⟨rfl, ?_⟩
  decide +kernel

/-- A post's record at 0x9000: a local source at 2,048, an offset of 32, 64 bytes. -/
def postState : State := { fS with hbm := cellsOf [(0x9001, [8]), (0x9008, [32]), (0x9010, [64])] }
theorem witness_FabricInstructionsComplete_post :
    postState.cur? = some fC ∧ postState.noStash ∧ okd (postState.engRanges fC [⟨false, (fC.rdPair 20).toNat, 32, { rd := true }⟩]) = true ∧
    okd (postState.issueRead fC 0x9000 32) = true ∧ (fC.rdS 6).toNat ≠ 0 ∧
    (let b := rdBytes postState.hbm 0x9000 32
     remoteLen (le b 0x10 4) = true ∧ le b 8 8 % 16 = 0 ∧ le b 0 8 % 2 ^ 32 % 16 = 0 ∧
     okd (postState.engRanges fC [⟨true, le b 0 8 % 2 ^ 32, le b 0x10 4, { rd := true }⟩]) = true ∧
     okd (postState.engRanges fC [⟨true, le b 0 8 % 2 ^ 32, le b 0x10 4, { wr := true }⟩]) = true) := by
  refine ⟨rfl, noStash_of _ (by decide), ?_⟩
  decide +kernel

/-- A context without privilege; a window of two pages, one that is live, one of another context, and one of no length. -/
theorem witness_FabricInstructionsComplete_windows :
    (let s : State := { fS with ctxs := [(0, { ctx0 with priv := false })] }
     s.cur? = some fC ∧ (s.ctx fC.team.ctx).priv = false) ∧
    (fS.ctx fC.team.ctx).priv = true ∧ (fC.rdS 12).toNat < 65536 ∧ 65536 ≤ (fC.rdS 14).toNat ∧ (fC.rdPair 24).toNat % 16 = 0 ∧
    (fC.rdPair 16).toNat % 16 = 0 ∧ 16 ≤ (fC.rdPair 16).toNat ∧ (fC.rdPair 16).toNat ≤ 2 ^ 40 ∧ (fC.rdS 18).toNat < 2 ^ 19 ∧
    (mget {} fS.fab.windows 65535).live = false ∧ fS.allPinned fC (fC.rdPair 24).toNat (fC.rdPair 16).toNat = true ∧
    (let s (x : Nat) : State := fS.modFab fun b => { b with windows := [(65535, { ctx := x, live := true })] }
     ∀ x ∈ [0, 1], (s x).cur? = some fC ∧ (mget {} (s x).fab.windows 65535).live = true ∧
       (mget {} (s x).fab.windows 65535).ctx = x ∧ fC.team.ctx = 0) := by
  refine ⟨⟨rfl, rfl⟩, rfl, ?_⟩
  decide +kernel

/-- A slot table of one slot of 2,000 ns at 0x20000, for the package whose number is given, that starts 10 ms from now. -/
def tableMem : Memory := cellsOf [(0x20000, [1]), (0x20004, [0xD0, 7]), (0x20008, [200]), (0x20011, [0x96, 0x98]), (0x21003, [0x80])]
def tableState (n : Nat) : State :=
  { s0 with hbm := wrBytes (wrBytes tableMem 0x20010 (bytesOfNat 4 10000000)) 0x2000C (bytesOfNat 4 n) }

theorem tableMem_wf : Memory.wf tableMem = true := by decide +kernel

theorem table_byte (n a : Nat) (h : ¬ (0x2000C ≤ a ∧ a < 0x20010)) : rdByte (tableState n).hbm a = rdByte (tableState 0).hbm a := by
  have w : Memory.wf (wrBytes tableMem 0x20010 (bytesOfNat 4 10000000)) = true := wf_wrBytes _ _ _ tableMem_wf
  show rdByte (wrBytes _ _ _) a = rdByte (wrBytes _ _ _) a
  rw [rdByte_wrBytes _ _ _ _ w, rdByte_wrBytes _ _ _ _ w, bytesOfNat_length, bytesOfNat_length, if_neg h, if_neg h]

theorem table_word (n o : Nat) (h : o + 4 ≤ 0x1000) (h' : o + 4 ≤ 0xC ∨ 0x10 ≤ o) :
    (tableState n).pieceWord [(0x20000, 0x1000)] o = (tableState 0).pieceWord [(0x20000, 0x1000)] o := by
  have e (m : Nat) : (tableState m).pieceWord [(0x20000, 0x1000)] o =
      natOfBytes ((List.range 4).map fun i => rdByte (tableState m).hbm (0x20000 + o + i)) := by
    simp only [State.pieceWord, State.pieceWord.pieceAt]
    rw [if_pos (by omega)]
    rfl
  rw [e, e]
  congr 1
  apply List.map_congr_left
  intro i hi
  rw [List.mem_range] at hi
  apply table_byte
  omega

theorem table_self (n : Nat) (h : n < 2 ^ 17) : (tableState n).pieceWord [(0x20000, 0x1000)] 0xC = n := by
  have w : Memory.wf (wrBytes tableMem 0x20010 (bytesOfNat 4 10000000)) = true := wf_wrBytes _ _ _ tableMem_wf
  have e : rdBytes (tableState n).hbm 0x2000C 4 = bytesOfNat 4 n := by
    have := rdBytes_wrBytes _ 0x2000C (bytesOfNat 4 n) w
    rwa [bytesOfNat_length] at this
  have p : (tableState n).pieceWord [(0x20000, 0x1000)] 0xC = natOfBytes (rdBytes (tableState n).hbm 0x2000C 4) := rfl
  rw [p, e, natOfBytes_bytesOfNat]
  omega

theorem table_zeros : ((List.range 1014).all fun i => (tableState 0).pieceWord [(0x20000, 0x1000)] (0x28 + 4 * i) = 0) = true := by
  decide +kernel

/-- The table is accepted, whatever this package's number is. -/
theorem table_read : ∃ t, (tableState Config.selfPackage).readTable 0 0 0x20000 = some t := by
  have hp : (tableState Config.selfPackage).pinnedPieces 0 0 0x20000 0x1000 = some [(0x20000, 0x1000)] := by decide +kernel
  have hw : (tableState Config.selfPackage).pinnedPieces 0 0 (0x20000 + 0x1000) (4096 * 1) = some [(0x21000, 4096)] := by decide +kernel
  have hz : ((List.range 1014).all fun i =>
      (tableState Config.selfPackage).pieceWord [(0x20000, 0x1000)] (0x28 + 4 * i) = 0) = true := by
    rw [List.all_eq_true]
    intro i hi
    rw [table_word _ _ (by rw [List.mem_range] at hi; omega) (by omega)]
    exact List.all_eq_true.mp table_zeros i hi
  have w0 : (tableState 0).pieceWord [(0x20000, 0x1000)] 0 = 1 := by decide +kernel
  have w4 : (tableState 0).pieceWord [(0x20000, 0x1000)] 4 = 2000 := by decide +kernel
  have w8 : (tableState 0).pieceWord [(0x20000, 0x1000)] 8 = 200 := by decide +kernel
  have w10 : (tableState 0).pieceWord [(0x20000, 0x1000)] 0x10 = 10000000 := by decide +kernel
  have w14 : (tableState 0).pieceWord [(0x20000, 0x1000)] 0x14 = 0 := by decide +kernel
  have w18 : (tableState 0).pieceWord [(0x20000, 0x1000)] 0x18 = 0 := by decide +kernel
  have w1C : (tableState 0).pieceWord [(0x20000, 0x1000)] 0x1C = 0 := by decide +kernel
  have w20 : (tableState 0).pieceWord [(0x20000, 0x1000)] 0x20 = 0 := by decide +kernel
  have w24 : (tableState 0).pieceWord [(0x20000, 0x1000)] 0x24 = 0 := by decide +kernel
  have ht : (tableState Config.selfPackage).mgmt.time = 0 := rfl
  unfold State.readTable
  rw [hp]
  dsimp only
  rw [hz, ht]
  simp only [tableOk, table_self Config.selfPackage Config.selfNumber.isLt, table_word Config.selfPackage 0 (by omega) (by omega),
    table_word Config.selfPackage 4 (by omega) (by omega), table_word Config.selfPackage 8 (by omega) (by omega),
    table_word Config.selfPackage 0x10 (by omega) (by omega), table_word Config.selfPackage 0x14 (by omega) (by omega),
    table_word Config.selfPackage 0x18 (by omega) (by omega), table_word Config.selfPackage 0x1C (by omega) (by omega),
    table_word Config.selfPackage 0x20 (by omega) (by omega), table_word Config.selfPackage 0x24 (by omega) (by omega),
    w0, w4, w8, w10, w14, w18, w1C, w20, w24, hw]
  exact ⟨_, rfl⟩

/-- A table in force from 10 ms on, whose only slot meets package 5 on channel 0; its words are at 0x21000. -/
def slotTable : SlotTable := { nslot := 1, slotns := 2000, guard_ := 200, start := 10000000, root := 0, words := [0x21000], rmap := [] }
/-- The machine at a time with the table in force or to come, and the connection with its requests. -/
def wireState (now : Nat) (later : Bool) (c : Conn) : State :=
  { fabState fT c with
    hbm := cellsOf [(0x21000, [5, 0, 0, 0x80])]
    mgmt := { State.reset.mgmt with time := now }
    fab := { conns := [(3, c), (4, { conn0 with cc := 2 })], table := if later then none else some slotTable
             later := if later then some slotTable else none } }
def req0 (op : ReqOp) : Req := { seq := 0, op := op, team := 0, id := 7, src := [(.arr 2048, 16)], len := 16, off := 0, key := 0, tag := 0 }

/-- A peer that no table in force or to come reaches, and one that a later one does. -/
theorem witness_FabricInstructionsComplete_hops :
    (fS.hopFor 5).isNone = true ∧ fS.meetsLater 5 = false ∧ (wireState 0 true conn0).meetsLater 5 = true ∧
    ((wireState 20000000 false conn0).hopFor 5).isNone = false := by
  decide +kernel

/-- A table that is to come, just before its START and at it; the last instant of its slot. -/
theorem witness_FabricSenderEventsComplete_table :
    (0x20001 : DWord).getLsbD 0 = true ∧ ((0x20001 : DWord) &&& 0x01FFFFFFFFFFF000).toNat = 0x20000 ∧ (s0.diesOf 0).head? = some 0 ∧
    (∃ t, (tableState Config.selfPackage).readTable 0 0 0x20000 = some t) ∧ s0.readTable 0 0 0x20000 = none ∧
    (∀ now ∈ [9999999, 10000000], (wireState now true conn0).fab.later = some slotTable) ∧
    (let s := wireState 10001999 false conn0
     s.tableNow = some slotTable ∧ s.fab.stop = none ∧ slotTable.start ≤ s.mgmt.time ∧ s.fab.slot ≤ 0 ∧
     slotTable.start + 0 * slotTable.slotns ≤ s.mgmt.time ∧ s.mgmt.time < slotTable.start + 0 * slotTable.slotns + slotTable.slotns ∧
     s.noStash ∧ s.hopFor conn0.peer = some 5) ∧
    (([⟨3, 0, 0, 4096⟩] : List Queued).map (·.left)).sum ≤ 4096 := by
  refine ⟨by decide, by decide, by decide, table_read, by decide +kernel, by decide +kernel,
    ⟨by decide +kernel, by decide +kernel, by decide +kernel, by decide +kernel, by decide +kernel, by decide +kernel,
      noStash_of _ (by decide), by decide +kernel⟩, by decide⟩

/-- A put under way; a packet first sent 10 ms ago and one sent 1 ns later; a deadline that is reached; a wait for two completions. -/
theorem witness_FabricSenderEventsComplete_conn :
    (let c : Conn := { conn0 with next := 1, reqs := [req0 .put] }
     (wireState 20000000 false c).conn? 3 = some c ∧ c.reqs = [req0 .put] ∧ (req0 .put).status = 0 ∧ (req0 .put).bad = 0 ∧ (req0 .put).len ≤ 16 ∧
     c.epoch ≠ 1) ∧
    (let c (t : Nat) : Conn := { conn0 with reqs := [{ req0 .put with pkts := [{ at_ := 0, len := 16, data := [], owner := 0, key := 0, first := some t }] }] }
     3 < 2 ^ 32 ∧ (c 10000000).stale 20000000 = true ∧ (c 10000001).stale 20000000 = false ∧
     ((wireState 20000000 false (c 10000001)).hopFor 5).isSome = true) ∧
    (let r : Req := { req0 .put with post := some (9, 20000000) }
     r.status = 0 ∧ 20000000 ≤ (wireState 20000000 false { conn0 with reqs := [r] }).mgmt.time ∧ r.post = some (9, 20000000)) ∧
    (let r := req0 (.wait 4 2)
     (wireState 20000000 false { conn0 with reqs := [r] }).conn? 4 = some { conn0 with cc := 2 } ∧ r.status = 0) := by
  decide +kernel

/-- A store to a page of package 9, which no slot table leads to. -/
theorem witness_FabricSenderEventsComplete_pages :
    let s := mach { tm0 with mops := [(5, { mop .st [] with lanes := [⟨0, 0x10000, .peer 9 0, 7, 0⟩] })] }
    9 / 2 ^ 17 = 0 ∧ 9 % 2 ^ 17 = 9 ∧ s.pageAccess 0 9 = true ∧ s.hopFor 9 = none ∧ (s.ctx 0).live = true ∧ (s.ctx 0).ended = none :=
  ⟨rfl, rfl, rfl, rfl, rfl, rfl⟩

/-- The last completion of a ring of sixteen, and the descriptor of its queue. -/
theorem witness_FabricSenderEventsComplete_post :
    (let r : Req := { req0 .put with seq := 15, status := 1 }
     let c : Conn := { conn0 with reqs := [r] }
     let s := fabState tm0 c
     let D (a : Nat) : Prop := Bytes 0xB0F0 16 a ∨ Bytes 0xA000 64 a
     s.conn? 3 = some c ∧ c.reqs = [r] ∧ s.noStash ∧ s.memOk = true ∧ c.cqb + 16 * (r.seq % 2 ^ c.cqlog) = 0xB0F0 ∧
     Mapped s D 0 0 (c.cqb + 16 * (r.seq % 2 ^ c.cqlog)) 16 0xB0F0 ∧ Mapped s D 0 0 c.desc 64 0xA000 ∧
     (∀ a, ¬ (Bytes 0xB0F0 16 a ∧ Bytes 0xA000 64 a)) ∧ mget? s.teams r.team = some tm0 ∧ mget? tm0.groups 0 = some gr0 ∧
     mget? gr0.splits 0 = some sp0) := by
  refine ⟨rfl, rfl, noStash_of _ (by decide), by decide +kernel, rfl, mapped_mach _ _ _ _ rfl (by decide +kernel) (by decide) (by decide),
    mapped_mach _ _ _ _ rfl (by decide +kernel) (by decide) (by decide), ?_, rfl, rfl, rfl⟩
  rintro a ⟨⟨h1, _⟩, _, h2⟩
  omega

/-- A slot that is under way, after its guard interval and within it; an acknowledgement from the peer on the channel that meets it, of
an owner that the admit table knows, and of one that it does not. -/
theorem witness_FabricSenderEventsComplete_slot :
    let c : Conn := { conn0 with next := 1, reqs := [req0 .put] }
    let s (now : Nat) : State := wireState now false c
    let b : Fabric := { (s 0).fab with admitTab := [⟨0, 11, [0]⟩] }
    (∀ now ∈ [10000000, 10000199, 10000200, 10001999], (s now).slotNow = some (slotTable, 0)) ∧
    (s 10000199).inGuard slotTable = true ∧ (s 10000200).inGuard slotTable = false ∧
    (s 10000200).ackHeard c { seq := 0, upto := 16, status := 1, done := 0, data := [], channel := 0 } = true ∧
    (s 10000200).ackHeard c { seq := 0, upto := 16, status := 1, done := 0, data := [], channel := 1 } = false ∧
    b.knows 0 11 = true ∧ b.knows 1 11 = false ∧ (s 10000200).putsOut (req0 .put).team (req0 .put).src = false ∧ 0 < 1024 := by
  decide +kernel

/-- A packet of a put of 16 bytes for a package, from package 5. -/
def pkt (dst channel offset : Nat) : Packet :=
  { channel := channel, src := 5, dst := dst, owner := 0, key := 11, conn := 3, ctx := 0, pctx := 0, epoch := 0, base := 0, seq := 0, gap := 0
    index := 0, last := true, kind := 0, aop := 0, wkey := 0x20001, offset := BitVec.ofNat 64 offset, len := 16, tag := 0
    data := List.replicate 16 0xFF }
/-- Window 2, of 64 KiB at 0xE0000, that may be written; the admit table knows owner 0, which lists itself, or knows nobody. -/
def targetState (tab : List Admit) (drops : SMap (List Nat)) (applied : Nat) : State :=
  { wireState 20000000 false conn0 with
    fab := { table := some slotTable, admitTab := tab, drops := drops, inc := [(5 * 2 ^ 40 + 3, { epoch := 0, applied := applied })]
             windows := [(2, { base := 0xE0000, len := 0x10000, wr := true, gen := 1, live := true })] } }

theorem witness_FabricTargetEventsComplete :
    (∀ dst ∈ [Config.selfPackage, Config.selfPackage + 1],
      (targetState [] [] 0).fab.hears (pkt dst 1023 0) = true ∧ (targetState [] [] 0).tableNow.isSome = true ∧ (pkt dst 1023 0).dst = dst ∧
      (targetState [] [] 0).fab.admits (pkt dst 1023 0) = false ∧ (targetState [⟨0, 11, [0]⟩] [] 0).fab.admits (pkt dst 1023 0) = true ∧
      (∀ o ∈ (targetState [⟨0, 11, [0]⟩] [] 0).residents, (targetState [⟨0, 11, [0]⟩] [] 0).fab.mutual (pkt dst 1023 0).owner o = true) ∧
      (let p : Packet := { pkt dst 1023 0 with kind := 1, data := [] }
       (targetState [⟨0, 11, [0]⟩] [] 0).fab.hears p = true ∧ (targetState [⟨0, 11, [0]⟩] [] 0).fab.admits p = true ∧
       (targetState [⟨0, 11, [0]⟩] [] 0).fab.relay.foldl (fun a q => a + q.data.length) p.data.length ≤ Config.relayBytes)) ∧
    Config.selfPackage + 1 ≠ Config.selfPackage ∧
    (let s := targetState [⟨0, 11, [0]⟩] [] 0
     let p := pkt Config.selfPackage 1023 0xFFF0
     s.noStash ∧ s.memOk = true ∧ (mget? s.fab.inc (p.src * 2 ^ 40 + p.conn)).isSome = true ∧ p.data.length = p.len ∧
     okIs (s.windowCheck p p.offset.toNat p.len) (0, 0xEFFF0, [(.hbm 0xEFFF0, 16)]) = true ∧
     (match s.windowCheck p (p.offset.toNat + 16) p.len with | .error e => e == 6 | .ok _ => false) = true ∧
     (InConn.isOld { epoch := 0, applied := 1 } p) = true) ∧
    (let s := targetState [] [(1023, (List.range 64).map fun i => 20000000 - 15873 * i)] 0
     (mget [] s.fab.drops 1023)[0]? = some 20000000 ∧ (mget [] s.fab.drops 1023)[0 + 63]? = some 19000001 ∧ 20000000 ≤ 19000001 + 1000000 ∧
     1023 ∉ s.fab.isol) ∧
    (mget [] (targetState [] [] 0).fab.drops 1023).length < 64 := by
  refine ⟨?_, by omega, ⟨noStash_of _ (by decide), ?_⟩, ?_, ?_⟩
  · intro dst h
    have hh : ∀ b : Fabric, b.hears (pkt dst 1023 0) = b.hears (pkt 0 1023 0) := fun _ => rfl
    have ha : ∀ b : Fabric, b.admits (pkt dst 1023 0) = b.admits (pkt 0 1023 0) := fun _ => rfl
    have hh' : ∀ b : Fabric, b.hears { pkt dst 1023 0 with kind := 1, data := [] } = b.hears (pkt 0 1023 0) := fun _ => rfl
    have ha' : ∀ b : Fabric, b.admits { pkt dst 1023 0 with kind := 1, data := [] } = b.admits (pkt 0 1023 0) := fun _ => rfl
    have ho : (pkt dst 1023 0).owner = 0 := rfl
    dsimp only
    rw [hh, ha, ha, hh', ha', ho]
    refine ⟨by decide +kernel, by decide +kernel, rfl, by decide +kernel, by decide +kernel, by decide +kernel, by decide +kernel,
      by decide +kernel, ?_⟩
    exact Nat.zero_le _
  all_goals decide +kernel

/-! ### Witnesses: Lysja, the strip, and the invariant -/

/-- The last die, one that has failed and a number that is none; an idle and a busy change of mode; a channel in service. -/
theorem witness_PackageEventsComplete :
    (15 < Config.dies ∧ (s0.die 15).failed = false ∧ s0.mgmt.brk = none ∧ s0.mgmt.due = none ∧ Config.dies ≤ 16 ∧
      (({ s0 with dies := [(15, { failed := true })] } : State).die 15).failed = true ∧
      0 ∈ ({ s0 with ctxs := [(0, { ctx0 with rootDie := 15 })] } : State).lostWith 15) ∧
    s0.mgmt.reform.contains 0 = false ∧ ({ s0 with mgmt := { s0.mgmt with reform := [0] } } : State).mgmt.reform.contains 0 = true ∧
    allLinks - 1 < allLinks ∧ (mget {} s0.mgmt.links (allLinks - 1)).gone = false ∧ (mget {} s0.mgmt.links 0).want = false ∧
    (mget ({} : Link) [(0, { want := true })] 0).want = true ∧
    (let f : Frame := ⟨7, [⟨0, 1, 5, List.replicate 32 0⟩, ⟨0, 15, 6, List.replicate 32 0⟩]⟩
     let l (fails : Nat) : Link := { next := 8, buf := [f], wire := [7], expect := 7, fails := fails }
     let s (n : Nat) : State := { s0 with mgmt := { s0.mgmt with links := [(99, l n)] } }
     (l 7).wire.head? = some 7 ∧ ((l 7).buf.find? fun g => g.seq = 7) = some f ∧ (l 7).want = false ∧ 7 = (l 7).expect ∧ (l 7).fails < 8 ∧
     8 ≤ (l 8).fails ∧ 6 ≠ (l 7).expect ∧ (s 8).mgmt.freeSpare (99 / linkCount) = some 100 ∧ 99 % linkCount < 100 ∧ 99 < allLinks ∧
     linkEnd 99 = 1 ∧ (linkCount + 99) / linkCount = otherWay (99 / linkCount) ∧ (s 7).mgmt.opposite (linkCount + 99) = some 99) ∧
    (let d : Dump := ⟨0, 0, 0, 0, some 0x1000, 0x100⟩
     ({ s0.mgmt with dumps := [d] } : Mgmt).inDump 0x10FF = true ∧ ({ s0.mgmt with dumps := [d] } : Mgmt).inDump 0x1100 = false) ∧ ¬ (5 < (mget ({} : SeqSeen) [] 0).below ∨ 5 ∈ (mget ({} : SeqSeen) [] 0).early) ∧
    s0.mgmt.busy = false ∧ (0x300 : Word).toNat / 256 % 4 = 3 ∧ (0x0 : Word).toNat / 256 % 4 = s0.mgmt.mode ∧ (0x200 : Word).toNat / 256 % 4 ≠ 0 ∧
    (let m : Mgmt := { State.reset.mgmt with busy := true, req := 1, time := 10000000000 }
     let s : State := { State.reset with mgmt := m, ctxs := [(0, ctx0)] }
     let t : State := { s with fab := { conns := [(3, { conn0 with reqs := [req0 .put] })] } }
     s.mgmt.busy = true ∧ s.remoteOpen = false ∧ s.teams = [] ∧ t.remoteOpen = true ∧ t.teams = [] ∧
     t.mgmt.since + t.mgmt.drain ≤ t.mgmt.time ∧ 9999999999 < t.mgmt.since + t.mgmt.drain ∧ (s.ctx 0).live = true) := by
  decide +kernel

/-- Each master of common time; a slot with two failed lanes; the bounds of the cap; a context number that is free. -/
theorem witness_ManagementEventsComplete :
    (15 < Config.dies ∧ (4 : Nat) ≤ 4 ∧ s0.mgmt.master = 0 ∧ ({ s0.mgmt with master := 1 } : Mgmt).master = 1) ∧
    (let key := Config.dies * Config.cores - 1
     let s : State := { s0 with cores := [(key, { badLanes := [(3, [0, 1])] })] }
     key < Config.dies * Config.cores ∧ 3 < Config.slots ∧ (mget [] (s.core key).badLanes 3).contains 63 = false ∧
     (mget [] (s.core key).badLanes 3).contains 0 = true ∧ (s.residentOn key).all s.canSave = true ∧
     (s0.residentOn 0).all s0.canSave = true ∧
     ((mach (withSplit { sp0 with opn := true })).residentOn 0).all (mach (withSplit { sp0 with opn := true })).canSave = false) ∧
    (6000 ≤ 11000 ∧ 5999 < 6000 ∧ 11000 < 11001 ∧ (∀ d ∈ [3], d ∈ [2, 3]) ∧ 4 ∈ [4] ∧ 4 ∉ [2, 3]) ∧ ({ s0.mgmt with staged := true } : Mgmt).staged = true ∧ s0.mgmt.staged = false ∧
    (s0.ctx 0).live = true ∧ (s0.ctx 0).ended = none ∧ ({ s0.mgmt with alone := true } : Mgmt).alone = true ∧ s0.mgmt.alone = false ∧
    63 < 64 * nDevices s0.mgmt.mode ∧ (s0.ctx 63).live = false ∧ (∀ t ∈ s0.teams, t.2.ctx ≠ 63) := by
  decide +kernel

/-- A state with bytes in memory and in an array, which keep their form over a step. -/
theorem witness_StepKeepsMemoryForm :
    (let s : State := { fabState tm0 conn0 with hbm := strandMem, cores := [(0, { arr := [(0, 1), (524287, 255)] })] }
     s.memOk = true ∧ (match step s with | .next _ => true | _ => false) = true) := by
  decide +kernel

/-! ### Witnesses: single instructions -/

/-- A window over v3 is open, and MOV writes v3. -/
theorem witness_IllegalWordsTrap_hazard :
    let w := encode (.mov ⟨com0, 0, false, false, false, false, .u32, 0, 0, 2, 3⟩)
    let t := withSplit { sp0 with opn := true, code := [w], pend := [{ id := 5, window := 2, landed := false, dv := [3] }] }
    let c := curOf t
    let i := Instr.mov ⟨com0, 0, false, false, false, false, .u32, 0, 0, 2, 3⟩
    (mach t).agenda = [] ∧ (mach t).cur? = some c ∧ c.split.code = w :: [] ∧ decodeWord w = .ok i ∧ i.illegal c.group.budget = none ∧
    (c.windowHolds || c.counterFull i || c.fenceHolds i || (mach t).unitHolds c i) = false ∧ c.hazard i = true ∧ 15 < 16 ∧ 255 < 256 := by
  refine ⟨rfl, rfl, rfl, by decide, by decide, by decide, by decide, by decide, by decide⟩

/-- A split that waits off its port, with a port open to it, in a team that is resident. -/
theorem witness_IllegalWordsTrap_waits :
    let t := withSplit { sp0 with opn := true, code := [0x0010000102030701], waits := true }
    (mach t).cur? = some (curOf t) ∧ (curOf t).team.status ≠ .saved ∧ (curOf t).split.park = .none ∧ (curOf t).split.waits = true ∧
    (mach t).portOpen (curOf t) = true := by
  refine ⟨rfl, by decide, rfl, rfl, by decide⟩

/-- NOP with every guard bit set, and a word of opcode 0 with only LA set. -/
theorem witness_NopChangesNothing :
    (⟨0, true, 7⟩ : Com).la = 0 ∧ (0x1700 : DWord).extractLsb' 0 8 = 0 ∧ (0x1700 : DWord).extractLsb' 12 52 ≠ 0 ∧
    PortAdmits (mach (opened 0xF00)) (curOf (opened 0xF00)) 0xF00 (.nop ⟨0, true, 7⟩) := by
  refine ⟨rfl, by decide, by decide, rfl, rfl, by decide, rfl, rfl, rfl, by decide, by decide, by decide, by decide⟩

/-- The state in which a NOP steps. -/
theorem witness_NopChangesNothing_step :
    (∀ t ∈ (mach (opened 0xF00)).teams, ∀ q ∈ t.2.cmds, q.1 < (mach (opened 0xF00)).nextId) ∧
    (mach (opened 0xF00)).asksNothing (curOf (opened 0xF00)).ref := by
  refine ⟨by decide, ?_⟩
  intro a ha; cases ha

/-- A pair at the end of the registers. -/
theorem witness_BrevReversesBits :
    63 < 64 ∧ (Instr.brev ⟨com0, 0, false, false, false, false, .u64, 0, 0, 254, 252⟩).illegal 256 = none ∧ s0.cur? = some c0 ∧
    PairOk Ty.u64.is64 254 := by
  refine ⟨by decide, by decide, rfl, fun _ => by decide⟩

/-- A context in each debug mode, in a group with a handler. -/
theorem witness_BkptActsByTheDebugMode :
    let t := withGroup { gr0 with regs := { trapvec := 0x1100 } }
    let s (mode : Nat) : State := { mach t with ctxs := [(0, { ctx0 with debug := mode })] }
    (∀ mode ∈ [0, 1, 2], (s mode).cur? = some (curOf t) ∧ ((s mode).ctx 0).debug = mode) ∧ (curOf t).acts com0 = true ∧
    (curOf t).group.regs.trapvec ≠ 0 ∧ (curOf t).group.act = false ∧ (s 2).noStash := by
  refine ⟨by decide, by decide, by decide, by decide, noStash_of _ (by decide)⟩

end Sys2Proof.Tests
end

section
/-! PROOFS. The canonical form of the byte memories (R2, log 3): what `State.memOk` says of each memory, the writes that keep it,
and what a read gives back after a write (R173). -/
namespace Sys2Proof.Machine

variable {s : State}

theorem State.memOk_iff : s.memOk = true ↔ Memory.wf s.hbm = true ∧ ∀ k ∈ s.cores, Memory.wf k.2.arr = true := by
  simp [State.memOk]

theorem State.memOk_congr {t : State} (hh : t.hbm = s.hbm) (hc : t.cores = s.cores) : t.memOk = s.memOk := by
  simp [State.memOk, hh, hc]

/-- What a lookup with a default finds is the default or listed. -/
theorem mget_mem {α : Type} (d : α) (m : SMap α) (k : Nat) : mget d m k = d ∨ ∃ p ∈ m, mget d m k = p.2 := by
  induction m with
  | nil => exact .inl rfl
  | cons p t ih =>
    obtain ⟨k', v⟩ := p
    by_cases hk : k' = k
    · exact .inr ⟨(k', v), List.mem_cons_self, by simp [mget, mget?, hk]⟩
    · have hskip : mget d ((k', v) :: t) k = mget d t k := by simp [mget, mget?, hk]
      rw [hskip]
      exact ih.imp_right fun ⟨p, hp, he⟩ => ⟨p, List.mem_cons_of_mem _ hp, he⟩

/-- The array of a core that nothing lists is empty, and so in its form. -/
theorem State.memOk_arr (h : s.memOk = true) (k : Nat) : Memory.wf (s.core k).arr = true := by
  obtain ⟨-, hcores⟩ := memOk_iff.mp h
  rcases mget_mem {} s.cores k with hd | ⟨p, hp, he⟩
  · rw [State.core, hd]; rfl
  · rw [State.core, he]; exact hcores p hp

theorem State.memOk_hbm (h : s.memOk = true) : Memory.wf s.hbm = true := (memOk_iff.mp h).1

theorem State.core_modCore (k j : Nat) (f : CoreSt → CoreSt) :
    (s.modCore k f).core j = if k = j then f (s.core k) else s.core j := by
  rw [State.core, State.modCore_cores, mget_mput]; rfl

/-- A core changed keeps the form when its array does. -/
theorem State.modCore_memOk {k : Nat} {f : CoreSt → CoreSt} (h : s.memOk = true)
    (hf : Memory.wf (s.core k).arr = true → Memory.wf (f (s.core k)).arr = true) : (s.modCore k f).memOk = true := by
  obtain ⟨hhbm, hcores⟩ := memOk_iff.mp h
  refine memOk_iff.mpr ⟨hhbm, ?_⟩
  have hall := all_mput s.cores k (f (s.core k)) (fun c => Memory.wf c.2.arr) (List.all_eq_true.mpr hcores) (hf (memOk_arr h k))
  exact List.all_eq_true.mp hall

theorem State.clearResv_memOk {only : Option Nat} {gs : List Nat} (h : s.memOk = true) : (s.clearResv only gs).memOk = true := h

theorem State.arrWrite_memOk {tid : Nat} {t : Team} {a : Nat} {bs : List Byte} (h : s.memOk = true) :
    (s.arrWrite tid t a bs).memOk = true := by
  unfold State.arrWrite
  exact clearResv_memOk (modCore_memOk h (wf_wrBytes _ _ _))

theorem State.hbmWrite_memOk {a : Nat} {bs : List Byte} (h : s.memOk = true) : (s.hbmWrite a bs).memOk = true :=
  memOk_iff.mpr ⟨wf_wrBytes _ _ _ (memOk_hbm h), (memOk_iff.mp h).2⟩

theorem State.arrWrite_core (tid : Nat) (t : Team) (a : Nat) (bs : List Byte) :
    ((s.arrWrite tid t a bs).core t.coreKey).arr = wrBytes (s.core t.coreKey).arr (t.base + a) bs := by
  rw [State.core, State.arrWrite_cores, mget_mput, if_pos rfl]

/-- A write of bytes leaves every byte outside its range. -/
theorem rdByte_wrBytes_outside {m : Memory} {a b : Nat} {bs : List Byte} (h : Memory.wf m = true) (hb : b < a ∨ a + bs.length ≤ b) :
    rdByte (wrBytes m a bs) b = rdByte m b := by
  rw [rdByte_wrBytes _ _ _ _ h, if_neg (by omega)]

/-- A write of bytes is read back, byte by byte. -/
theorem rdByte_wrBytes_inside {m : Memory} {a i : Nat} {bs : List Byte} (h : Memory.wf m = true) (hi : i < bs.length) :
    rdByte (wrBytes m a bs) (a + i) = (bs[i]?).getD 0 := by
  rw [rdByte_wrBytes _ _ _ _ h, if_pos (by omega), Nat.add_sub_cancel_left]


/-! ### Shared shapes -/

/-- A core changed elsewhere than in its array. -/
theorem State.modCore_memOk_of_arr {k : Nat} {f : CoreSt → CoreSt} (h : s.memOk = true) (hf : ∀ c, (f c).arr = c.arr) :
    (s.modCore k f).memOk = true :=
  modCore_memOk h fun hw => by rwa [hf]

theorem memOk_of_fst {α : Type} {p : State × α} {t : State} {a : α} (h : p.1.memOk = true) (he : p = (t, a)) : t.memOk = true := by
  rw [he] at h
  exact h

theorem foldl_memOk {β : Type} {f : State → β → State} {l : List β} (h : s.memOk = true)
    (hf : ∀ t b, t.memOk = true → (f t b).memOk = true) : (l.foldl f s).memOk = true :=
  List.foldlRecOn l f h fun t ht b _ => hf t b ht

theorem foldl_fst_memOk {α β : Type} {f : State × α → β → State × α} {l : List β} {p : State × α} (h : p.1.memOk = true)
    (hf : ∀ q b, q.1.memOk = true → (f q b).1.memOk = true) : (l.foldl f p).1.memOk = true :=
  List.foldlRecOn (motive := fun q : State × α => q.1.memOk = true) l f h fun q hq b _ => hf q b hq

theorem ok_of_bind {ε α β : Type} {x : Except ε α} {f : α → Except ε β} {b : β} (h : x >>= f = .ok b) :
    ∃ a, x = .ok a ∧ f a = .ok b := by
  cases x with
  | error e => cases h
  | ok a => exact ⟨a, rfl, h⟩

theorem error_of_bind {ε α β : Type} {x : Except ε α} {f : α → Except ε β} {t : ε} (h : x >>= f = .error t) :
    x = .error t ∨ ∃ a, x = .ok a ∧ f a = .error t := by
  cases x with
  | error e =>
    cases h
    exact .inl rfl
  | ok a => exact .inr ⟨a, rfl, h⟩

theorem error_of_mapM {ε α β : Type} {f : α → Except ε β} {l : List α} {t : ε} (h : l.mapM f = .error t) :
    ∃ a ∈ l, f a = .error t := by
  induction l with
  | nil => cases h
  | cons a l ih =>
    rw [List.mapM_cons] at h
    rcases error_of_bind h with ha | ⟨b, -, h⟩
    · exact ⟨a, List.mem_cons_self, ha⟩
    · rcases error_of_bind h with hl | ⟨bs, -, h⟩
      · obtain ⟨a', ha', he⟩ := ih hl
        exact ⟨a', List.mem_cons_of_mem _ ha', he⟩
      · cases h

/-- What a monadic fold yields satisfies an invariant that its start has and each step keeps. -/
theorem foldlM_ok {ε α β : Type} (P : β → Prop) {f : β → α → Except ε β} {l : List α} {z r : β} (hz : P z)
    (hf : ∀ {z a z'}, P z → f z a = .ok z' → P z') (h : l.foldlM f z = .ok r) : P r := by
  induction l generalizing z with
  | nil =>
    cases h
    exact hz
  | cons a l ih =>
    rw [List.foldlM_cons] at h
    obtain ⟨z', hz', h⟩ := ok_of_bind h
    exact ih (hf hz hz') h

theorem onSplit_memOk {f : Cur → State} {t : State} (hf : ∀ c, (f c).memOk = true) (ht : onSplit s f = .next t) : t.memOk = true := by
  unfold onSplit at ht
  split at ht
  · cases ht
  · cases ht
    exact hf _

theorem getD_memOk {o : Option State} (ho : ∀ {t}, o = some t → t.memOk = true) (h : s.memOk = true) : (o.getD s).memOk = true := by
  cases o with
  | none => exact h
  | some t => exact ho rfl

/-- What a remote request asks for keeps the form, whether it is placed or refused. -/
def AskKeeps (ask : State → Cur → Except State (State × Option RemoteAsk)) : Prop :=
  ∀ t c, t.memOk = true → (∀ r, ask t c = .ok r → r.1.memOk = true) ∧ ∀ u, ask t c = .error u → u.memOk = true

/-- A request that is formed without a change of the state. -/
theorem askKeeps_of_map {ask : State → Cur → Except State (State × Option RemoteAsk)} (hask : ∀ t c, (ask t c).map Prod.fst = .ok t) :
    AskKeeps ask := by
  intro t c ht
  have hmap := hask t c
  cases ha : ask t c with
  | error u =>
    rw [ha] at hmap
    cases hmap
  | ok r =>
    rw [ha] at hmap
    cases hmap
    exact ⟨fun _ he => by cases he; exact ht, fun _ he => by cases he⟩

/-! ### Scrubbing: a memory rebuilt in order -/

theorem mwf_iff_pairwise {α : Type} {m : SMap α} : mwf m = true ↔ (m.map Prod.fst).Pairwise (· < ·) := by
  rw [← List.isChain_iff_pairwise]
  induction m with
  | nil => simp [mwf]
  | cons p t ih =>
    cases t with
    | nil => simp [mwf]
    | cons q t => simpa [mwf] using fun _ => ih

theorem Memory.wf_iff {m : Memory} : Memory.wf m = true ↔ (m.map Prod.fst).Pairwise (· < ·) ∧ ∀ c ∈ m, c.2 ≠ 0 := by
  simp [Memory.wf, mwf_iff_pairwise]

/-- A step of a scrub drops the cell that it meets or appends it with another value, never a zero. -/
def KeepsOrDrops (f : State × Memory → Host.Cell → State × Memory) : Prop :=
  ∀ z e, e.2 ≠ 0 → (f z e).2 = z.2 ∨ ∃ v, v ≠ 0 ∧ (f z e).2 = z.2 ++ [(e.1, v)]

/-- A fold that keeps or drops the cells of a memory, in their order, keeps the canonical form: what stands done and what is still to
come have rising addresses together. -/
theorem foldl_snd_wf {f : State × Memory → Host.Cell → State × Memory} (hf : KeepsOrDrops f) {m : Memory} {z : State × Memory}
    (hm : Memory.wf (z.2 ++ m) = true) : Memory.wf (m.foldl f z).2 = true := by
  induction m generalizing z with
  | nil => simpa using hm
  | cons e m ih =>
    refine ih ?_
    rw [Memory.wf_iff] at hm ⊢
    obtain ⟨hkeys, hvals⟩ := hm
    rcases hf z e (hvals e (by simp)) with hdrop | ⟨v, hv, hkeep⟩
    · rw [hdrop]
      have hsub : (z.2 ++ m).Sublist (z.2 ++ e :: m) := List.Sublist.append_left (List.sublist_cons_self e m) z.2
      exact ⟨hkeys.sublist (hsub.map _), fun c hc => hvals c (hsub.subset hc)⟩
    · rw [hkeep]
      refine ⟨by simpa using hkeys, fun c hc => ?_⟩
      simp only [List.append_assoc, List.singleton_append, List.mem_append, List.mem_cons] at hc
      rcases hc with hc | rfl | hc
      · exact hvals c (by simp [hc])
      · exact hv
      · exact hvals c (by simp [hc])

theorem foldl_wrByte_wf {β : Type} {f : State × Memory → β → State × Memory} {l : List β} {z : State × Memory}
    (hf : ∀ z e, (f z e).2 = z.2 ∨ ∃ a v, (f z e).2 = wrByte z.2 a v) (hz : Memory.wf z.2 = true) : Memory.wf (l.foldl f z).2 = true := by
  refine List.foldlRecOn (motive := fun z : State × Memory => Memory.wf z.2 = true) l f hz fun z hz e _ => ?_
  rcases hf z e with he | ⟨a, v, he⟩
  · rwa [he]
  · rw [he]; exact wf_wrByte _ _ _ hz

end Sys2Proof.Machine
end

section
open Sys2Proof Sys2Proof.Machine

/-- Settles O28: both writes are `wrBytes` on a memory in its canonical form. -/
theorem memoryReadsAfterWrites : Obligations.MemoryReadsAfterWrites := by
  unfold Obligations.MemoryReadsAfterWrites
  intro s tid t a bs h
  have hhbm := State.memOk_hbm h
  have harr := State.memOk_arr h t.coreKey
  refine ⟨fun i hi => rdByte_wrBytes_inside hhbm hi, fun b hb => rdByte_wrBytes_outside hhbm hb, State.hbmWrite_memOk h, ?_, ?_,
    State.arrWrite_memOk h, ?_⟩
  · rw [State.arrRead, State.arrWrite_core]
    exact rdBytes_wrBytes _ _ _ harr
  · intro b hb
    rw [State.arrWrite_core]
    exact rdByte_wrBytes_outside harr hb
  · intro n v hv
    rw [natOfBytes_bytesOfNat, Nat.mod_eq_of_lt]
    rwa [Nat.pow_mul] at hv

end

section
/-! PROOFS. The registers of contexts and dies (R150, R412): what a write stores fits its register, and a read of the context or die
written gives it back. -/
namespace Sys2Proof.Machine

variable {s : State}

@[simp] theorem State.ctx_modCtx_self (x : Nat) (f : Context → Context) : (s.modCtx x f).ctx x = f (s.ctx x) := by
  rw [State.ctx, State.modCtx_ctxs, mget_mput, if_pos rfl]

@[simp] theorem State.die_modDie_self (d : Nat) (f : Die → Die) : (s.modDie d f).die d = f (s.die d) := by
  rw [State.die, State.modDie_dies, mget_mput, if_pos rfl]

/-- A value of one word survives being kept in a word. -/
theorem setWidth_loWord {v : DWord} (h : v.toNat < 2 ^ 32) : (loWord v).setWidth 64 = v := by
  apply BitVec.eq_of_toNat_eq
  simp only [loWord, BitVec.toNat_setWidth, BitVec.extractLsb'_toNat, Nat.shiftRight_zero]
  omega

theorem field_lt (d : DWord) (lo n : Nat) : field d lo n < 2 ^ n := (d.extractLsb' lo n).isLt

/-- The registers kept in one word store values of one word (R412). -/
theorem sysStored_lt {id : Nat} {v : DWord} (h : id ∈ [0x33, 0x62, 0x70, 0x71]) : (sysStored id v).toNat < 2 ^ 32 := by
  simp only [List.mem_cons, List.not_mem_nil, or_false] at h
  rcases h with rfl | rfl | rfl | rfl
  · have := field_lt v 8 16
    simp only [sysStored, BitVec.toNat_ofNat]
    omega
  · have hmask : (v &&& 0xFFFF).toNat ≤ 0xFFFF := by
      rw [BitVec.toNat_and]
      exact Nat.and_le_right
    exact Nat.lt_of_le_of_lt hmask (by decide)
  · have := field_lt v 0 16
    simp only [sysStored, BitVec.toNat_ofNat]
    omega
  · have := field_lt v 0 2
    simp only [sysStored, BitVec.toNat_ofNat]
    omega

/-- Writing one of the registers that the host driver writes stores the mapped value. -/
theorem execSystemRegisterWrite_eq {die ctx id : Nat} {v : DWord} (h : id ∈ [0x30, 0x31, 0x32, 0x33, 0x61, 0x62, 0x70, 0x71]) :
    execSystemRegisterWrite die ctx id v s = .next (s.sharedSet die ctx id (sysStored id v)) := by
  simp only [List.mem_cons, List.not_mem_nil, or_false] at h
  rcases h with rfl | rfl | rfl | rfl | rfl | rfl | rfl | rfl <;> rfl

/-- A register read where it was written gives what was stored, where that fits the register; FABKEY reads 0 (R306). -/
theorem sharedGet_sharedSet {die ctx id : Nat} {v : DWord} (core slot : Nat)
    (h : id ∈ [0x30, 0x31, 0x32, 0x33, 0x61, 0x62, 0x70, 0x71]) (hv : id ∈ [0x33, 0x62, 0x70, 0x71] → v.toNat < 2 ^ 32) :
    (s.sharedSet die ctx id v).sharedGet die core slot ctx id = if id = 0x61 then 0 else v := by
  have hword := fun hid => setWidth_loWord (hv hid)
  simp only [List.mem_cons, List.not_mem_nil, or_false] at h
  rcases h with rfl | rfl | rfl | rfl | rfl | rfl | rfl | rfl <;>
    simp [State.sharedSet, State.sharedGet, hword]

/-- A write of a context's or a die's register leaves the memories, the teams, the tasks and the package's management. -/
theorem sharedSet_frame {die ctx id : Nat} {v : DWord} (h : id ∈ [0x30, 0x31, 0x32, 0x33, 0x61, 0x62, 0x70, 0x71]) :
    let t := s.sharedSet die ctx id v
    SameMemory s t ∧ t.teams = s.teams ∧ t.tasks = s.tasks ∧ t.mgmt = s.mgmt := by
  simp only [List.mem_cons, List.not_mem_nil, or_false] at h
  rcases h with rfl | rfl | rfl | rfl | rfl | rfl | rfl | rfl <;>
    exact ⟨⟨fun _ => rfl, fun _ _ => rfl⟩, rfl, rfl, rfl⟩

end Sys2Proof.Machine
end

section
open Sys2Proof Sys2Proof.Machine

/-- Settles O15: the write stores the mapped value, and what the map stores fits the register that keeps it. -/
theorem sharedRegistersReadBack : Obligations.SharedRegistersReadBack := by
  unfold Obligations.SharedRegistersReadBack
  intro s die ctx core slot id v h
  exact ⟨_, execSystemRegisterWrite_eq h, sharedGet_sharedSet core slot h sysStored_lt, sharedSet_frame h⟩

end

section
/-! PROOFS. The encoding (R111 to R121, R128): each format gives its fields back, and the decoder finds in each word the instruction
that it encodes. -/
namespace Sys2Proof

/-! ### The lowest field of a word, and those above it -/

theorem low_field {v w : Nat} {hi : BitVec v} {x : BitVec w} : (hi ++ x).extractLsb' 0 w = x := BitVec.extractLsb'_append_eq_right

theorem low_bit {v : Nat} {hi : BitVec v} {b : Bool} : (hi ++ BitVec.ofBool b).getLsbD 0 = b := by
  rw [BitVec.getLsbD_append, if_pos (by decide), BitVec.getLsbD_ofBool]
  rfl

theorem low_ty {v : Nat} {hi : BitVec v} {t : Ty} : Ty.ofBits ((hi ++ t.toBits).extractLsb' 0 4) = t := by
  rw [low_field]
  cases t <;> rfl

/-- The common fields stand at the bottom of every word (R111). -/
theorem comBits_op (hi : BitVec 48) (c : Com) (op : Byte) : (hi ++ comBits c op).extractLsb' 0 8 = op := by
  rw [BitVec.extractLsb'_append_eq_of_add_le (by decide), comBits, low_field]

theorem comOfBits_comBits (hi : BitVec 48) (c : Com) (op : Byte) : comOfBits (hi ++ comBits c op) = c := by
  cases c
  simp only [comOfBits, Com.mk.injEq]
  and_intros
  case refine_2.refine_1 =>
    rw [BitVec.getLsbD_append, if_pos (by decide), comBits]
    repeat rw [BitVec.getLsbD_append, if_neg (by decide)]
    exact low_bit
  all_goals
    rw [BitVec.extractLsb'_append_eq_of_add_le (by decide), comBits]
    repeat rw [BitVec.extractLsb'_append_eq_of_le (by decide)]
  exacts [BitVec.extractLsb'_eq_self, low_field]

/-! ### The formats (R113 to R121) -/

@[simp] theorem fmtR_op (f : FmtR) (op : Byte) : (fmtRToBits f op).extractLsb' 0 8 = op := comBits_op _ _ _

@[simp] theorem fmtROfBits_toBits (f : FmtR) (op : Byte) : fmtROfBits (fmtRToBits f op) = f := by
  have hcom : comOfBits (fmtRToBits f op) = f.com := comOfBits_comBits _ _ _
  cases f
  simp only [fmtROfBits, hcom, FmtR.mk.injEq, true_and]
  unfold fmtRToBits
  and_intros
  all_goals repeat rw [BitVec.extractLsb'_append_eq_of_le (by decide)]
  all_goals repeat rw [BitVec.getLsbD_append, if_neg (by decide)]
  exacts [BitVec.extractLsb'_eq_self, low_bit, low_bit, low_bit, low_bit, low_ty, low_field, low_field, low_field, low_field]

@[simp] theorem fmtI_op (f : FmtI) (op : Byte) : (fmtIToBits f op).extractLsb' 0 8 = op := comBits_op _ _ _

@[simp] theorem fmtIOfBits_toBits (f : FmtI) (op : Byte) : fmtIOfBits (fmtIToBits f op) = f := by
  have hcom : comOfBits (fmtIToBits f op) = f.com := comOfBits_comBits _ _ _
  cases f
  simp only [fmtIOfBits, hcom, FmtI.mk.injEq, true_and]
  unfold fmtIToBits
  and_intros
  all_goals repeat rw [BitVec.extractLsb'_append_eq_of_le (by decide)]
  all_goals repeat rw [BitVec.getLsbD_append, if_neg (by decide)]
  exacts [BitVec.extractLsb'_eq_self, low_field, low_bit, low_bit, low_ty, low_field, low_field]

@[simp] theorem fmtL_op (f : FmtL) (op : Byte) : (fmtLToBits f op).extractLsb' 0 8 = op := comBits_op _ _ _

@[simp] theorem fmtLOfBits_toBits (f : FmtL) (op : Byte) : fmtLOfBits (fmtLToBits f op) = f := by
  have hcom : comOfBits (fmtLToBits f op) = f.com := comOfBits_comBits _ _ _
  cases f
  simp only [fmtLOfBits, hcom, FmtL.mk.injEq, true_and]
  unfold fmtLToBits
  and_intros
  all_goals repeat rw [BitVec.extractLsb'_append_eq_of_le (by decide)]
  all_goals repeat rw [BitVec.getLsbD_append, if_neg (by decide)]
  exacts [BitVec.extractLsb'_eq_self, low_bit, low_field]

@[simp] theorem fmtM_op (f : FmtM) (op : Byte) : (fmtMToBits f op).extractLsb' 0 8 = op := comBits_op _ _ _

@[simp] theorem fmtMOfBits_toBits (f : FmtM) (op : Byte) : fmtMOfBits (fmtMToBits f op) = f := by
  have hcom : comOfBits (fmtMToBits f op) = f.com := comOfBits_comBits _ _ _
  cases f
  simp only [fmtMOfBits, hcom, FmtM.mk.injEq, true_and]
  unfold fmtMToBits
  and_intros
  all_goals repeat rw [BitVec.extractLsb'_append_eq_of_le (by decide)]
  all_goals repeat rw [BitVec.getLsbD_append, if_neg (by decide)]
  exacts [BitVec.extractLsb'_eq_self, low_field, low_field, low_field, low_bit, low_bit, low_bit, low_field, low_field, low_field, low_field]

@[simp] theorem fmtX_op (f : FmtX) (op : Byte) : (fmtXToBits f op).extractLsb' 0 8 = op := comBits_op _ _ _

@[simp] theorem fmtXOfBits_toBits (f : FmtX) (op : Byte) : fmtXOfBits (fmtXToBits f op) = f := by
  have hcom : comOfBits (fmtXToBits f op) = f.com := comOfBits_comBits _ _ _
  cases f
  simp only [fmtXOfBits, hcom, FmtX.mk.injEq, true_and]
  unfold fmtXToBits
  and_intros
  all_goals repeat rw [BitVec.extractLsb'_append_eq_of_le (by decide)]
  all_goals repeat rw [BitVec.getLsbD_append, if_neg (by decide)]
  exacts [BitVec.extractLsb'_eq_self, low_field, low_bit, low_bit, low_field, low_field, low_field, low_bit, low_bit,
    low_bit, low_bit, low_field, low_field, low_field]

@[simp] theorem fmtB_op (f : FmtB) (op : Byte) : (fmtBToBits f op).extractLsb' 0 8 = op := comBits_op _ _ _

@[simp] theorem fmtBOfBits_toBits (f : FmtB) (op : Byte) : fmtBOfBits (fmtBToBits f op) = f := by
  have hcom : comOfBits (fmtBToBits f op) = f.com := comOfBits_comBits _ _ _
  cases f
  simp only [fmtBOfBits, hcom, FmtB.mk.injEq, true_and]
  unfold fmtBToBits
  and_intros
  all_goals repeat rw [BitVec.extractLsb'_append_eq_of_le (by decide)]
  exacts [BitVec.extractLsb'_eq_self, low_field, low_field, low_field]

@[simp] theorem fmtE_op (f : FmtE) (op : Byte) : (fmtEToBits f op).extractLsb' 0 8 = op := comBits_op _ _ _

@[simp] theorem fmtEOfBits_toBits (f : FmtE) (op : Byte) : fmtEOfBits (fmtEToBits f op) = f := by
  have hcom : comOfBits (fmtEToBits f op) = f.com := comOfBits_comBits _ _ _
  cases f
  simp only [fmtEOfBits, hcom, FmtE.mk.injEq, true_and]
  unfold fmtEToBits
  and_intros
  all_goals repeat rw [BitVec.extractLsb'_append_eq_of_le (by decide)]
  exacts [BitVec.extractLsb'_eq_self, low_field, low_field, low_field, low_field, low_field, low_field]

@[simp] theorem fmtS_op (f : FmtS) (op : Byte) : (fmtSToBits f op).extractLsb' 0 8 = op := comBits_op _ _ _

@[simp] theorem fmtSOfBits_toBits (f : FmtS) (op : Byte) : fmtSOfBits (fmtSToBits f op) = f := by
  have hcom : comOfBits (fmtSToBits f op) = f.com := comOfBits_comBits _ _ _
  cases f
  simp only [fmtSOfBits, hcom, FmtS.mk.injEq, true_and]
  unfold fmtSToBits
  and_intros
  all_goals repeat rw [BitVec.extractLsb'_append_eq_of_le (by decide)]
  exacts [BitVec.extractLsb'_eq_self, low_field, low_field, low_field]

/-- The zero bits of a format L word (R115). -/
@[simp] theorem fmtL_zero (f : FmtL) (op : Byte) : (fmtLToBits f op).extractLsb' 25 7 = 0 := by
  unfold fmtLToBits
  repeat rw [BitVec.extractLsb'_append_eq_of_le (by decide)]
  exact low_field

/-- The zero bits of a format M word (R116). -/
@[simp] theorem fmtM_zero (f : FmtM) (op : Byte) : (fmtMToBits f op).extractLsb' 53 3 = 0 := by
  unfold fmtMToBits
  repeat rw [BitVec.extractLsb'_append_eq_of_le (by decide)]
  exact low_field

/-- SUB of a format E word, and the lowest bit of FLG, which tell the forms of one opcode apart (R119, R128). -/
@[simp] theorem fmtE_sub (f : FmtE) (op : Byte) : (fmtEToBits f op).extractLsb' 48 4 = f.sub :=
  congrArg FmtE.sub (fmtEOfBits_toBits f op)

@[simp] theorem fmtE_free (f : FmtE) (op : Byte) : (fmtEToBits f op)[56] = f.flg[0] := by
  have h : ((fmtEToBits f op).extractLsb' 56 8)[0] = f.flg[0] := congrArg (fun g : FmtE => g.flg[0]) (fmtEOfBits_toBits f op)
  rwa [BitVec.getElem_extractLsb'] at h

@[simp] theorem fmtB_kind (f : FmtB) (op : Byte) : (fmtBToBits f op).extractLsb' 20 4 = f.kind :=
  congrArg FmtB.kind (fmtBOfBits_toBits f op)

@[simp] theorem fmtS_write (f : FmtS) (op : Byte) : (fmtSToBits f op)[48] = f.imm[0] := by
  have h : ((fmtSToBits f op).extractLsb' 48 16)[0] = f.imm[0] := congrArg (fun g : FmtS => g.imm[0]) (fmtSOfBits_toBits f op)
  rwa [BitVec.getElem_extractLsb'] at h

@[simp] theorem fmtEp_op (f : FmtEp) (op : BitVec 6) : (fmtEpToBits f op).extractLsb' 0 6 = op := low_field

@[simp] theorem fmtEpOfBits_toBits (f : FmtEp) (op : BitVec 6) : fmtEpOfBits (fmtEpToBits f op) = f := by
  cases f
  simp only [fmtEpOfBits, FmtEp.mk.injEq]
  unfold fmtEpToBits
  and_intros
  all_goals repeat rw [BitVec.extractLsb'_append_eq_of_le (by decide)]
  exacts [BitVec.extractLsb'_eq_self, low_field, low_field, low_field, low_field, low_field]

/-! ### The decoder (R128) -/

theorem decodeWord_nop (c : Com) : decodeWord (encode (.nop c)) = .ok (.nop c) := by
  have hop : (encode (.nop c)).extractLsb' 0 8 = 0 := comBits_op _ _ _
  have hcom : comOfBits (encode (.nop c)) = c := comOfBits_comBits _ _ _
  have hzero : (encode (.nop c)).extractLsb' 16 48 = 0 := BitVec.extractLsb'_append_eq_left
  simp [decodeWord, decodeRow0, hop, hcom, hzero]

/-- A well-formed instruction passes the checks of its zero bits and of the values of its fields (R129). -/
theorem Instr.wellFormed_zero_vals {i : Instr} (hw : i.wellFormed = true) : i.check.zero = true ∧ i.check.vals = true := by
  simp only [Instr.wellFormed, Instr.illegal, Option.isNone_iff_eq_none] at hw
  grind

/-- A word decodes by the row and the column of its opcode; where two forms share an opcode, by SUB or FLG, which the form fixes. -/
theorem decodeWord_encode (i : Instr) (hi : i.com?.isSome = true) (hw : i.wellFormed = true) : decodeWord (encode i) = .ok i := by
  obtain ⟨hzero, hvals⟩ := Instr.wellFormed_zero_vals hw
  cases i
  case nop c => exact decodeWord_nop c
  case rpost f | rpostGet f | qpush f | qpushClose f | plcq f | plcqShort f =>
    have hsub := eq_of_beq hvals
    simp [encode, decodeWord, decodeRowC, decodeRowD, decodeRowE, hsub]
  case projld f =>
    have hflg : f.flg = 0 := by
      simp only [Instr.check, FmtE.plain, Bool.and_eq_true, decide_eq_true_eq] at hzero
      obtain ⟨⟨⟨hlt, -⟩, -⟩, -⟩ := hzero
      exact BitVec.eq_of_toNat_eq (Nat.lt_one_iff.mp hlt)
    simp [encode, decodeWord, decodeRowE, hflg]
  case projldFree f =>
    have hflg : f.flg = 1 := by
      simp only [Instr.check, Bool.and_eq_true, beq_iff_eq] at hzero
      obtain ⟨⟨⟨hone, -⟩, -⟩, -⟩ := hzero
      exact hone
    simp [encode, decodeWord, decodeRowE, hflg]
  case ret f | retT f =>
    have hkind := eq_of_beq (Bool.and_eq_true_iff.mp hvals).1
    simp [encode, decodeWord, decodeRow6, hkind]
  case movsr f | movsrWrite f =>
    have himm := eq_of_beq (Bool.and_eq_true_iff.mp hzero).1
    simp [encode, decodeWord, decodeRow7, himm]
  all_goals
    simp [Instr.com?, encode, decodeWord, decodeRow0, decodeRow1, decodeRow2, decodeRow3, decodeRow4, decodeRow5, decodeRow6, decodeRow7,
      decodeRow8, decodeRowA, decodeRowC, decodeRowD, decodeRowE] at hi ⊢

/-- An epilogue word decodes by its operation code (R121). -/
theorem decodeEp_encodeEp (i : Instr) (hi : i.isEp = true) (hw : i.wellFormed = true) : decodeEp (encodeEp i) = some i := by
  cases i
  case epend => decide
  all_goals simp [Instr.isEp, encodeEp, decodeEp, hw] at hi ⊢

/-- The bytes of a word are the word. -/
theorem wordOfBytes_bytesOfWord (w : DWord) : wordOfBytes (bytesOfWord w) = w := by
  simp only [bytesOfWord, wordOfBytes, byteAt, List.range, List.range.loop, List.map, List.foldr]
  ext i hi
  simp
  grind

end Sys2Proof
end

section
open Sys2Proof

/-- Settles O1: the decoder reads back every field of every format, and the forms of one opcode by the field that sets them apart. -/
theorem decodeOfEncodeIsIdentity : Obligations.DecodeOfEncodeIsIdentity := by
  unfold Obligations.DecodeOfEncodeIsIdentity
  exact ⟨decodeWord_encode, decodeEp_encodeEp, wordOfBytes_bytesOfWord⟩

end

section
/-! PROOFS. Every step keeps the canonical form of the byte memories (O59): for each operation of the model a lemma that its result
keeps `State.memOk`, in the order of the model's definitions. Only `wrBytes`, `wrByte` and filters touch a memory; all the rest of
an operation leaves both memories alone or hands them to an operation that stands before it. -/
namespace Sys2Proof.Machine

variable {s : State}

/-! ### `Machine/Memory` -/

theorem State.modDie_memOk {d : ℕ} {f : Die → Die} (h : s.memOk = true) : (s.modDie d f).memOk = true := h

theorem State.modCtx_memOk {x : ℕ} {f : Context → Context} (h : s.memOk = true) : (s.modCtx x f).memOk = true := h

theorem State.modTeam_memOk {t : ℕ} {f : Team → Team} (h : s.memOk = true) : (s.modTeam t f).memOk = true := h

theorem State.tlbFill_memOk {k d x va : ℕ} (h : s.memOk = true) : (s.tlbFill k d x va).memOk = true := by
  rw [State.tlbFill]
  split
  · extract_lets s1
    have hs1 : s1.memOk = true := by
      unfold s1
      split
      · exact h
      · exact State.modDie_memOk h
    split
    · exact hs1
    · exact State.modCore_memOk_of_arr hs1 fun _ => rfl
  · exact h

theorem State.countMigr_memOk {d x va : ℕ} {r : Trans} (h : s.memOk = true) : (s.countMigr d x va r).memOk = true := by
  unfold State.countMigr
  split
  · split
    · exact State.modDie_memOk h
    · exact h
  · exact h

theorem State.stashWriteBack_memOk {tid w n : ℕ} (h : s.memOk = true) : (s.stashWriteBack tid w n).memOk = true := by
  fun_cases s.stashWriteBack tid w n with
  | case4 t _ win _ l =>
    have hwrite : (s.hbmWrite l.pa (s.arrRead t (win.lo + 128 * n) 128)).memOk = true := State.hbmWrite_memOk h
    exact State.modTeam_memOk hwrite
  | _ => exact h

theorem State.stashRecall_memOk {tid w n : ℕ} (h : s.memOk = true) : (s.stashRecall tid w n).memOk = true :=
  State.modTeam_memOk (State.stashWriteBack_memOk h)

theorem State.recallFor_memOk {tid : Option ℕ} {pa n : ℕ} (h : s.memOk = true) : (s.recallFor tid pa n).memOk = true := by
  rw [State.recallFor]
  refine foldl_memOk h fun t b h1 => ?_
  extract_lets s1
  have hs1 : s1.memOk = true := h1
  split
  · split
    · exact hs1
    · exact State.stashRecall_memOk hs1
  · exact hs1

theorem State.recallAll_memOk {rs : List (ℕ × ℕ)} (h : s.memOk = true) : (s.recallAll rs).memOk = true := by
  rw [State.recallAll]
  split
  · exact h
  · exact foldl_memOk h fun _ _ h1 => State.recallFor_memOk h1

theorem State.walkRecall_memOk {k : Option ℕ} {d x va : ℕ} (h : s.memOk = true) : (s.walkRecall k d x va).memOk = true := by
  rw [State.walkRecall]
  split
  · exact h
  · exact State.recallAll_memOk h

theorem State.homeRead_memOk {pa n : ℕ} (h : s.memOk = true) : (s.homeRead pa n).1.memOk = true := State.recallFor_memOk h

theorem State.homePut_memOk {pa : ℕ} {bs : List Byte} (h : s.memOk = true) : (s.homePut pa bs).memOk = true :=
  State.hbmWrite_memOk (State.recallFor_memOk h)

theorem State.homeWrite_memOk {pa : ℕ} {bs : List Byte} (h : s.memOk = true) : (s.homeWrite pa bs).memOk = true :=
  State.homePut_memOk h

theorem State.dropViews_memOk {core pa n : ℕ} (h : s.memOk = true) : (s.dropViews core pa n).memOk = true := h

theorem State.l1Fill_memOk {core pa n : ℕ} (h : s.memOk = true) : (s.l1Fill core pa n).memOk = true :=
  State.modCore_memOk_of_arr h fun _ => rfl

theorem State.l1Store_memOk {core pa : ℕ} {bs : List Byte} {bypass : Bool} (h : s.memOk = true) :
    (s.l1Store core pa bs bypass).memOk = true := by
  rw [State.l1Store]
  refine State.modCore_memOk_of_arr h fun c => ?_
  split <;> rfl

theorem State.l1Clear_memOk {core : ℕ} (h : s.memOk = true) : (s.l1Clear core).memOk = true := by
  unfold State.l1Clear
  extract_lets orig
  have horig : orig.memOk = true := State.modCore_memOk_of_arr h fun _ => rfl
  exact horig

theorem State.stashFill_memOk {tid w n pa : ℕ} (h : s.memOk = true) : (s.stashFill tid w n pa).memOk = true := by
  rw [State.stashFill]
  split
  · exact h
  · split
    · exact h
    · split
      rename_i u _ he
      have hu : u.memOk = true := memOk_of_fst (State.homeRead_memOk h) he
      exact State.modTeam_memOk (State.arrWrite_memOk hu)

theorem State.l1Update_memOk {core pa : ℕ} {bs : List Byte} (h : s.memOk = true) : (s.l1Update core pa bs).memOk = true :=
  State.modCore_memOk_of_arr h fun _ => rfl

theorem State.l1Refresh_memOk {core : Option ℕ} {pa : ℕ} {bs : List Byte} (h : s.memOk = true) :
    (s.l1Refresh core pa bs).memOk = true := by
  unfold State.l1Refresh
  split
  · extract_lets s1
    have hs1 : s1.memOk = true := State.dropViews_memOk h
    split
    · exact hs1
    · exact State.l1Update_memOk hs1
  · exact h

theorem State.laneRead_memOk {tid : ℕ} {p : Place} {va n : ℕ} {l1 : Bool} {ext : List Byte} (h : s.memOk = true) :
    (s.laneRead tid p va n l1 ext).1.memOk = true := by
  rw [State.laneRead]
  split
  · exact h
  · split
    · exact h
    · exact h
    · extract_lets s1 r
      have hs1 : s1.memOk = true := State.recallFor_memOk h
      have hr : r.1.memOk = true := State.homeRead_memOk h
      split
      · extract_lets s2 bs
        have hs2 : s2.memOk = true := State.stashFill_memOk h
        exact State.l1Refresh_memOk hs2
      · split
        · split
          · exact h
          · exact State.l1Fill_memOk hs1
        · exact State.l1Update_memOk hr

theorem State.modCopies_memOk {dev : ℕ} {f : SMap Byte → SMap Byte} (h : s.memOk = true) : (s.modCopies dev f).memOk = true := h

theorem State.copyStore_memOk {x pkg off : ℕ} {bs : List Byte} (h : s.memOk = true) : (s.copyStore x pkg off bs).memOk = true :=
  State.modCopies_memOk h

theorem State.copyDrop_memOk {x pkg off n : ℕ} (h : s.memOk = true) : (s.copyDrop x pkg off n).memOk = true :=
  State.modCopies_memOk h

theorem State.dropCopies_memOk {x : ℕ} (h : s.memOk = true) : (s.dropCopies x).memOk = true := State.modCopies_memOk h

theorem State.laneWrite_memOk {tid : ℕ} {p : Place} {va : ℕ} {bs : List Byte} {bypass : Bool} (h : s.memOk = true) :
    (s.laneWrite tid p va bs bypass).memOk = true := by
  rw [State.laneWrite]
  split
  · exact h
  · split
    · exact State.arrWrite_memOk h
    · exact State.clearResv_memOk (State.copyStore_memOk h)
    · split
      · exact State.l1Refresh_memOk (State.modTeam_memOk (State.clearResv_memOk (State.arrWrite_memOk (State.stashFill_memOk h))))
      · exact State.dropViews_memOk (State.l1Store_memOk (State.homePut_memOk h))

theorem State.spanRead_memOk {l : List (Place × ℕ)} (h : s.memOk = true) : (s.spanRead l).1.memOk = true := by
  rw [State.spanRead]
  refine foldl_fst_memOk h ?_
  rintro ⟨t, acc⟩ p ht
  dsimp only
  split
  · exact State.homeRead_memOk ht
  · exact ht

theorem State.spanWrite_memOk {l : List (Place × ℕ)} {bs : List Byte} {core : Option ℕ} (h : s.memOk = true) :
    (s.spanWrite l bs core).memOk = true := by
  rw [State.spanWrite]
  refine foldl_fst_memOk h ?_
  rintro ⟨t, rest⟩ p ht
  dsimp only
  split
  · exact State.l1Refresh_memOk (State.homeWrite_memOk ht)
  · exact ht

theorem State.recallSpan_memOk {d x va n : ℕ} {need : Need} (h : s.memOk = true) : (s.recallSpan d x va n need).memOk = true := by
  rw [State.recallSpan]
  split
  · exact h
  · exact State.recallAll_memOk h

theorem State.fetchRecall_memOk {d x va n : ℕ} (h : s.memOk = true) : (s.fetchRecall d x va n).memOk = true := by
  rw [State.fetchRecall]
  split
  · exact h
  · exact State.recallSpan_memOk (State.walkRecall_memOk h)

theorem State.vWrite_memOk {d x va : ℕ} {bs : List Byte} {core : Option ℕ} (h : s.memOk = true) {t' : State}
    (ht : s.vWrite d x va bs core = some t') : t'.memOk = true := by
  rw [State.vWrite] at ht
  obtain ⟨a, ha, rfl⟩ := Option.map_eq_some_iff.mp ht
  exact State.spanWrite_memOk h

/-! ### `Machine/Package` -/

theorem State.latchDark_memOk (h : s.memOk = true) : (s.latchDark).memOk = true := by
  rw [State.latchDark]
  extract_lets orig orig1
  split <;> exact h

theorem State.requestMode_memOk {v : Word} (h : s.memOk = true) : (s.requestMode v).memOk = true := by
  rw [State.requestMode]
  split
  · exact h
  · split
    · exact h
    · split <;> exact h

/-! ### `Machine/Stores` -/

theorem State.landStore_memOk {e : Buffered} (h : s.memOk = true) : (s.landStore e).memOk = true :=
  foldl_memOk (State.homePut_memOk h) fun _ _ h1 => State.l1Store_memOk h1

theorem State.seenResv_memOk {e : Buffered} (h : s.memOk = true) : (s.seenResv e).memOk = true := h

theorem State.raise_memOk {es : List Buffered} {lvl : ℕ} (h : s.memOk = true) : (s.raise es lvl).memOk = true := by
  rw [State.raise]
  split
  · exact foldl_memOk h fun _ _ h1 => State.landStore_memOk h1
  · exact foldl_memOk h fun _ _ h1 => State.seenResv_memOk h1

theorem State.raiseFor_memOk {tid gi lvl : ℕ} (h : s.memOk = true) : (s.raiseFor tid gi lvl).memOk = true := by
  rw [State.raiseFor]
  split
  · exact h
  · exact State.raise_memOk h

theorem State.raiseMeet_memOk {tid gi pa n : ℕ} (h : s.memOk = true) : (s.raiseMeet tid gi pa n).memOk = true := by
  rw [State.raiseMeet]
  split
  · exact State.raiseFor_memOk h
  · exact h

theorem State.noteRelease_memOk {core lvl : ℕ} {at_ : Option (ℕ × ℕ)} (h : s.memOk = true) :
    (s.noteRelease core lvl at_).memOk = true := h

theorem State.release_memOk {tid gi ord sc : ℕ} {ws : Option (List (ℕ × ℕ))} (h : s.memOk = true) :
    (s.release tid gi ord sc ws).memOk = true := by
  rw [State.release]
  extract_lets s1
  have hs1 : s1.memOk = true := State.raiseFor_memOk h
  split
  · exact h
  · split
    · exact hs1
    · exact State.noteRelease_memOk hs1
    · exact foldl_memOk hs1 fun _ _ h1 => State.noteRelease_memOk h1

theorem State.raiseTeam_memOk {tid : ℕ} (h : s.memOk = true) : (s.raiseTeam tid).memOk = true := by
  rw [State.raiseTeam]
  split
  · exact h
  · exact foldl_memOk h fun _ _ h1 => State.raiseFor_memOk h1

theorem State.storeMove_memOk {id : ℕ} (h : s.memOk = true) : (s.storeMove id).memOk = true := by
  rw [State.storeMove]
  split
  · exact h
  · extract_lets inOrder released
    split
    · exact State.raise_memOk h
    · exact h

/-! ### `Machine/Counters` -/

theorem State.fresh_memOk (h : s.memOk = true) : (s.fresh).1.memOk = true := h

theorem State.pick_memOk {n : ℕ} (h : s.memOk = true) : (s.pick n).1.memOk = true := h

theorem State.freeBytes_memOk {n : ℕ} (h : s.memOk = true) : (s.freeBytes n).1.memOk = true := h

theorem State.among_memOk {α : Type} {d : α} {xs : List α} (h : s.memOk = true) : (s.among d xs).1.memOk = true := by
  rw [State.among]
  dsimp only
  exact State.pick_memOk h

theorem State.heldBytes_memOk {core a n : ℕ} {bs : List Byte} (h : s.memOk = true) : (s.heldBytes core a n bs).1.memOk = true := by
  rw [State.heldBytes]
  refine foldl_fst_memOk h ?_
  rintro ⟨t₁, acc₁⟩ b h1
  extract_lets b1 q
  have hq : q.1.memOk = true := State.among_memOk h1
  exact hq

theorem State.complete_memOk {t id : ℕ} (h : s.memOk = true) : (s.complete t id).memOk = true := State.modTeam_memOk h

/-! ### `Machine/Conn` -/

theorem State.modFab_memOk {f : Fabric → Fabric} (h : s.memOk = true) : (s.modFab f).memOk = true := h

theorem State.ask_memOk {a : PeerAsk} (h : s.memOk = true) : (s.ask a).memOk = true := by
  rw [State.ask]
  split
  rename_i u _ he
  have hu : u.memOk = true := memOk_of_fst (State.fresh_memOk h) he
  exact State.modFab_memOk hu

theorem State.needPeers_memOk {who : Asker} {team : Option ℕ} {x : ℕ} {ps : List (Place × ℕ)} {data : Option (List Byte)}
    (h : s.memOk = true) {t' : State} (ht : s.needPeers who team x ps data = some t') : t'.memOk = true := by
  rw [State.needPeers] at ht
  split at ht
  · cases ht
  · cases ht
    refine foldl_memOk h fun t b h1 => ?_
    split
    · exact h1
    · exact State.ask_memOk h1

theorem State.unask_memOk {f : PeerAsk → Bool} (h : s.memOk = true) : (s.unask f).memOk = true := by
  rw [State.unask]
  extract_lets keep
  split
  · exact h
  · exact State.modFab_memOk h

theorem State.putPeer_memOk {tid x pkg off : ℕ} {bs : List Byte} {add : Bool} (h : s.memOk = true) :
    (s.putPeer tid x pkg off bs add).memOk = true := by
  unfold State.putPeer
  extract_lets s1
  have hs1 : s1.memOk = true := by
    refine State.clearResv_memOk ?_
    split
    · exact State.copyDrop_memOk h
    · exact State.copyStore_memOk h
  split
  · exact hs1
  · exact State.ask_memOk hs1

theorem State.modConn_memOk {k : ℕ} {f : Conn → Conn} (h : s.memOk = true) : (s.modConn k f).memOk = true := State.modFab_memOk h

theorem State.connWrite_memOk {c : Conn} {va : ℕ} {bs : List Byte} (h : s.memOk = true) : (s.connWrite c va bs).memOk = true :=
  getD_memOk (State.vWrite_memOk h) h

theorem State.showConn_memOk {k : ℕ} (h : s.memOk = true) : (s.showConn k).memOk = true := by
  rw [State.showConn]
  split
  · exact h
  · exact State.connWrite_memOk h

theorem State.waitAcquire_memOk {r : Req} (h : s.memOk = true) : (s.waitAcquire r).memOk = true := by
  rw [State.waitAcquire]
  split
  · split
    · exact State.l1Clear_memOk h
    · exact h
  · exact h

theorem State.postOne_memOk {k : ℕ} {c : Conn} {r : Req} (h : s.memOk = true) : (s.postOne k c r).memOk = true :=
  State.showConn_memOk (State.complete_memOk (State.modTeam_memOk (State.modConn_memOk (State.connWrite_memOk (State.waitAcquire_memOk h)))))

theorem State.postReady_memOk {k a : ℕ} (h : s.memOk = true) : (s.postReady k a).memOk = true := by
  induction a generalizing s with
  | zero => exact h
  | succ a ih =>
    rw [State.postReady]
    split
    · exact h
    · split
      · exact h
      · split
        · exact h
        · exact ih (State.postOne_memOk h)

theorem State.settleConn_memOk {k : ℕ} (h : s.memOk = true) : (s.settleConn k).memOk = true := by
  rw [State.settleConn]
  split
  · exact State.postReady_memOk (State.showConn_memOk (State.modConn_memOk h))
  · exact State.showConn_memOk (State.modConn_memOk h)

theorem State.resetConn_memOk {k : ℕ} (h : s.memOk = true) : (s.resetConn k).memOk = true :=
  State.settleConn_memOk (State.modConn_memOk (State.modFab_memOk h))

theorem State.endFabric_memOk {x : ℕ} (h : s.memOk = true) : (s.endFabric x).memOk = true := by
  rw [State.endFabric]
  refine State.modFab_memOk (foldl_memOk ?_ fun _ _ h1 => State.resetConn_memOk h1)
  split
  · exact h
  · exact State.modFab_memOk h

/-! ### `Machine/Ops` -/

theorem State.put_memOk {c : Cur} (h : s.memOk = true) : (s.put c).memOk = true := h

theorem State.modSplit_memOk {r : Ref} {f : Split → Split} (h : s.memOk = true) : (s.modSplit r f).memOk = true := by
  rw [State.modSplit]
  split
  · exact h
  · exact State.put_memOk h

theorem State.modGroup_memOk {t g : ℕ} {f : Group → Group} (h : s.memOk = true) : (s.modGroup t g f).memOk = true :=
  State.modTeam_memOk h

theorem State.faultPush_memOk {d x : ℕ} {rec : List Byte} (h : s.memOk = true) : (s.faultPush d x rec).memOk = true := by
  rw [State.faultPush]
  split
  · exact h
  · split
    · rename_i u he
      have hu : u.memOk = true := State.vWrite_memOk h he
      exact State.modCtx_memOk hu
    · exact h

theorem State.dropResv_memOk {r : Ref} (h : s.memOk = true) : (s.dropResv r).memOk = true := State.modTeam_memOk h

theorem State.restartScalars_memOk {r : Ref} (h : s.memOk = true) : (s.restartScalars r).memOk = true := by
  rw [State.restartScalars]
  split
  · exact h
  · refine foldl_memOk h fun t b h1 => ?_
    extract_lets v q
    have hq : q.1.memOk = true := State.among_memOk h1
    exact State.modSplit_memOk hq

theorem State.discard_memOk {r : Ref} {preempt : Bool} (h : s.memOk = true) : (s.discard r preempt).memOk = true := by
  rw [State.discard]
  split
  · exact h
  · extract_lets p c stays atE gone held clr orig c1 c2 orig1
    split
    · split
      · exact State.dropResv_memOk (State.put_memOk h)
      · exact State.put_memOk h
    · split
      · split
        · exact State.dropResv_memOk (State.put_memOk h)
        · exact State.put_memOk h
      · split
        · exact State.dropResv_memOk (State.put_memOk h)
        · extract_lets ovf p1
          exact State.restartScalars_memOk (State.dropResv_memOk (State.put_memOk h))

theorem State.resumable_memOk {r : Ref} {cause : Cause} {detail : Word} {va : ℕ} (h : s.memOk = true) :
    (s.resumable r cause detail va).memOk = true := by
  rw [State.resumable]
  split
  · exact h
  · extract_lets info orig orig1 s1 s2 pc
    have hs1 : s1.memOk = true := State.put_memOk h
    have hs2 : s2.memOk = true := State.modSplit_memOk (State.discard_memOk hs1)
    exact State.faultPush_memOk hs2

theorem State.dropEp_memOk {tid : ℕ} (h : s.memOk = true) : (s.dropEp tid).memOk = true := by
  rw [State.dropEp]
  split
  · exact h
  · extract_lets keep
    exact State.modCore_memOk_of_arr h fun _ => rfl

theorem State.stashFlush_memOk {tid : ℕ} (h : s.memOk = true) : (s.stashFlush tid).memOk = true := by
  rw [State.stashFlush]
  split
  · exact h
  · exact foldl_memOk h fun _ _ h1 => foldl_memOk h1 fun _ _ h2 => State.stashWriteBack_memOk h2

theorem State.recordEnd_memOk {x : ℕ} (h : s.memOk = true) : (s.recordEnd x).memOk = true := by
  rw [State.recordEnd]
  split
  · exact h
  · exact State.modCtx_memOk (State.faultPush_memOk h)

theorem State.releaseCtx_memOk {x : ℕ} (h : s.memOk = true) : (s.releaseCtx x).memOk = true := by
  rw [State.releaseCtx]
  extract_lets s1 ofDie
  have hs1 : s1.memOk = true := State.endFabric_memOk h
  split
  · exact h
  · exact State.recordEnd_memOk hs1

theorem State.reap_memOk {tid : ℕ} (h : s.memOk = true) : (s.reap tid).memOk = true := by
  rw [State.reap]
  split
  · exact h
  · extract_lets s1
    have hs1 : s1.memOk = true := by
      unfold s1
      refine State.modCore_memOk_of_arr (State.stashFlush_memOk (State.raiseTeam_memOk h)) fun c => ?_
      rfl
    split
    · exact State.releaseCtx_memOk hs1
    · exact h

theorem State.endContext_memOk {x code : ℕ} {rec : List Byte} {die : ℕ} (h : s.memOk = true) :
    (s.endContext x code rec die).memOk = true := by
  rw [State.endContext]
  extract_lets mine s1 s2 s3
  have hs1 : s1.memOk = true := State.modCtx_memOk h
  have hs2 : s2.memOk = true := hs1
  have hs3 : s3.memOk = true := foldl_memOk hs2 fun _ _ h1 => State.reap_memOk (State.dropEp_memOk h1)
  split
  · exact h
  · exact State.releaseCtx_memOk hs3

theorem State.fatal_memOk {r : Ref} {cause : Cause} {detail : Word} (h : s.memOk = true) : (s.fatal r cause detail).memOk = true := by
  rw [State.fatal]
  split
  · exact h
  · extract_lets info orig regs orig1 s1
    have hs1 : s1.memOk = true := State.put_memOk h
    exact State.endContext_memOk hs1

theorem State.illop_memOk {c : Cur} {reason : ℕ} (h : s.memOk = true) : (s.illop c reason).memOk = true := State.fatal_memOk h

theorem State.protAt_memOk {c : Cur} {kind : ℕ} (h : s.memOk = true) : (s.protAt c kind).memOk = true := State.fatal_memOk h

theorem State.alignAt_memOk {c : Cur} (h : s.memOk = true) : (s.alignAt c).memOk = true := State.fatal_memOk h

theorem State.pageflt_memOk {r : Ref} {va : ℕ} (h : s.memOk = true) : (s.pageflt r va).memOk = true := State.resumable_memOk h

theorem State.transTrap_memOk {c : Cur} {e : Trans} {va : ℕ} (h : s.memOk = true) : (s.transTrap c e va).memOk = true := by
  unfold State.transTrap
  split
  · exact State.pageflt_memOk h
  · exact State.protAt_memOk h
  · exact h

theorem State.userTrap_memOk {r : Ref} {cause : Cause} {detail : Word} {resume : DWord} (h : s.memOk = true) :
    (s.userTrap r cause detail resume).memOk = true := by
  rw [State.userTrap]
  split
  · exact h
  · extract_lets orig orig1 regs p orig2
    split
    · exact State.fatal_memOk h
    · split <;> exact State.put_memOk h

/-! ### `Machine/Splits` -/

theorem State.branch_memOk {c : Cur} {stay : Side} {others : List Side} {takenFirst : Bool} {x : Option DWord} (h : s.memOk = true) :
    (s.branch c stay others takenFirst x).memOk = true := by
  rw [State.branch]
  extract_lets room new rest sides pushed g recId g1 joinAll n entries head orig base orig1 own g2 g3
  split
  · exact State.put_memOk h
  · split
    · exact State.fatal_memOk h
    · split
      · exact State.fatal_memOk h
      · exact State.put_memOk h

theorem State.mergeTwo_memOk {r : Ref} {other : ℕ} (h : s.memOk = true) : (s.mergeTwo r other).memOk = true :=
  State.modGroup_memOk h

theorem State.mergeCheck_memOk {r : Ref} (h : s.memOk = true) : (s.mergeCheck r).memOk = true := by
  rw [State.mergeCheck]
  split
  · exact h
  · split
    · exact State.fatal_memOk h
    · exact h

theorem State.mergeAll_memOk {t gi : ℕ} (h : s.memOk = true) : (s.mergeAll t gi).memOk = true := by
  rw [State.mergeAll]
  split
  · exact h
  · split
    · exact h
    · extract_lets g
      split
      · exact h
      · split
        · exact State.mergeCheck_memOk h
        · split
          · extract_lets p
            exact State.put_memOk h
          · exact h

theorem State.endSplit_memOk {r : Ref} (h : s.memOk = true) : (s.endSplit r).memOk = true := by
  rw [State.endSplit]
  split
  · exact h
  · extract_lets orig g orig1 g1 orig2 g2 orig3 t
    exact State.mergeCheck_memOk h

/-! ### `Machine/Engine` -/

theorem State.engRanges_error_memOk {c : Cur} {rs : List ERange} (h : s.memOk = true) {t' : State}
    (ht : s.engRanges c rs = .error t') : t'.memOk = true := by
  rw [State.engRanges] at ht
  split at ht
  · cases ht
    exact State.transTrap_memOk h
  · split at ht
    · cases ht
      exact State.transTrap_memOk h
    · cases ht

theorem State.tidyAsks_memOk (h : s.memOk = true) : (s.tidyAsks).memOk = true := State.unask_memOk h

theorem State.settle_memOk {tid : ℕ} (h : s.memOk = true) : (s.settle tid).memOk = true := by
  rw [State.settle]
  refine State.reap_memOk ?_
  split
  · split
    · exact State.modCore_memOk_of_arr (State.tidyAsks_memOk (State.modTeam_memOk h)) fun _ => rfl
    · exact State.tidyAsks_memOk (State.modTeam_memOk h)
  · exact State.tidyAsks_memOk (State.modTeam_memOk h)

theorem State.cmdDone_memOk {tid id : ℕ} (h : s.memOk = true) : (s.cmdDone tid id).memOk = true :=
  State.settle_memOk (State.modTeam_memOk h)

theorem State.cmdOut_memOk {tid id : ℕ} {dst : List (Place × ℕ)} (h : s.memOk = true) : (s.cmdOut tid id dst).memOk = true :=
  State.modTeam_memOk h

theorem State.effected_memOk {c : Cur} {i : Instr} {foot : List Foot} (h : s.memOk = true) : (s.effected c i foot).memOk = true := by
  rw [State.effected]
  split
  rename_i u _ he
  have hu : u.memOk = true := memOk_of_fst (State.fresh_memOk h) he
  exact State.put_memOk hu

theorem execEngineCommandComplete_memOk {team cmd : ℕ} (h : s.memOk = true) {t' : State}
    (ht : execEngineCommandComplete team cmd s = .next t') : t'.memOk = true := by
  rw [execEngineCommandComplete] at ht
  cases ht
  split
  · extract_lets ring rank
    split
    · exact State.cmdDone_memOk h
    · exact State.cmdDone_memOk h
    · split
      · exact h
      · exact State.cmdDone_memOk h
    · extract_lets s1
      have hs1 : s1.memOk = true := State.l1Clear_memOk (State.arrWrite_memOk h)
      exact State.cmdDone_memOk (State.modGroup_memOk hs1)
    · exact State.cmdDone_memOk (State.modGroup_memOk h)
    · exact h
  · exact h

theorem State.copySegs_error_memOk {c : Cur} {a : CopyAsk} (h : s.memOk = true) {t' : State} (ht : s.copySegs c a = .error t') :
    t'.memOk = true := by
  rw [State.copySegs] at ht
  rcases error_of_bind ht with he | ⟨_, -, ht⟩
  · exact State.engRanges_error_memOk h he
  · rcases error_of_bind ht with he | ⟨_, -, ht⟩
    · obtain ⟨r, -, he⟩ := error_of_mapM he
      rcases error_of_bind he with he | ⟨_, -, he⟩
      · exact State.engRanges_error_memOk h he
      · extract_lets jp at he
        split at he
        · cases he
        · rcases error_of_bind he with he | ⟨_, -, he⟩
          · exact State.engRanges_error_memOk h he
          · cases he
    · cases ht

theorem State.issueCopy_memOk {c : Cur} {i : Instr} {a : CopyAsk} (h : s.memOk = true) : (s.issueCopy c i a).memOk = true := by
  rw [State.issueCopy]
  extract_lets list
  split
  · exact State.copySegs_error_memOk h ‹_›
  · extract_lets k
    split
    rename_i u _ he
    have hu : u.memOk = true := memOk_of_fst (State.fresh_memOk h) he
    extract_lets c1 orig c2
    exact State.settle_memOk (State.modTeam_memOk (State.put_memOk hu))

theorem execCpy_memOk {f : FmtE} (h : s.memOk = true) {t' : State} (ht : execCpy f s = .next t') : t'.memOk = true := by
  rw [execCpy] at ht
  refine onSplit_memOk (fun c => ?_) ht
  extract_lets gth dl sl buf dst n esz list src total bad lr entry rows
  split
  · exact h
  · split
    · exact State.illop_memOk h
    · split
      · rename_i u he
        split at he
        · exact State.engRanges_error_memOk h he
        · cases he
      · split
        · exact State.illop_memOk h
        · exact State.issueCopy_memOk h

theorem execCpyt_memOk {f : FmtE} (h : s.memOk = true) {t' : State} (ht : execCpyt f s = .next t') : t'.memOk = true := by
  rw [execCpyt] at ht
  refine onSplit_memOk (fun c => ?_) ht
  extract_lets col dl sl buf dst src shape pitch rows rb dp sp last bad rs
  split
  · exact h
  · split
    · exact State.illop_memOk h
    · exact State.issueCopy_memOk h

theorem State.engRead_memOk {tid : ℕ} {p : Place} {n : ℕ} (h : s.memOk = true) : (s.engRead tid p n).1.memOk = true := by
  unfold State.engRead
  split
  · extract_lets r
    have hr : r.1.memOk = true := State.homeRead_memOk h
    split
    · exact State.dropViews_memOk hr
    · exact hr
  · exact h
  · split
    · exact h
    · exact State.freeBytes_memOk h

theorem State.engWrite_memOk {tid : ℕ} {p : Place} {bs : List Byte} (h : s.memOk = true) : (s.engWrite tid p bs).memOk = true := by
  unfold State.engWrite
  split
  · exact State.l1Refresh_memOk (State.homeWrite_memOk h)
  · split
    · exact State.arrWrite_memOk h
    · exact h
  · split
    · exact State.putPeer_memOk h
    · exact h

theorem State.moveWord_memOk {tid : ℕ} {segs : List Seg} {n : ℕ} (h : s.memOk = true) : (s.moveWord tid segs n).memOk = true := by
  rw [State.moveWord]
  split
  · exact h
  · extract_lets r
    have hr : r.1.memOk = true := State.engRead_memOk h
    exact State.engWrite_memOk hr

theorem State.moveSeg_memOk {tid : ℕ} {g : Seg} (h : s.memOk = true) : (s.moveSeg tid g).memOk = true := by
  rw [State.moveSeg]
  split
  · exact State.engWrite_memOk (State.engRead_memOk h)
  · exact foldl_memOk (State.engRead_memOk h) fun _ _ h1 => State.engWrite_memOk h1

theorem State.shuffleNats_memOk {a : ℕ} {n : List ℕ} (h : s.memOk = true) : (s.shuffleNats a n).1.memOk = true := by
  induction a generalizing s n with
  | zero => exact h
  | succ a ih =>
    rw [State.shuffleNats]
    extract_lets q
    have hq : q.1.memOk = true := ih (State.pick_memOk h)
    split
    · dsimp only
      exact State.pick_memOk h
    · exact hq

theorem State.moveCopy_memOk {tid : ℕ} {c : Copy} (h : s.memOk = true) : (s.moveCopy tid c).memOk = true := by
  rw [State.moveCopy]
  extract_lets left r
  have hr : r.1.memOk = true := by
    unfold r
    split
    · exact State.shuffleNats_memOk h
    · exact h
  split
  · exact foldl_memOk h fun _ _ h1 => State.moveSeg_memOk h1
  · exact foldl_memOk hr fun _ _ h1 => State.moveWord_memOk h1

theorem execCopyComplete_memOk {team cmd : ℕ} (h : s.memOk = true) {t' : State} (ht : execCopyComplete team cmd s = .next t') :
    t'.memOk = true := by
  rw [execCopyComplete] at ht
  cases ht
  split
  · exact h
  · split
    · extract_lets s1
      have hs1 : s1.memOk = true := State.cmdOut_memOk (State.moveCopy_memOk h)
      split
      · exact h
      · split
        · exact State.needPeers_memOk h ‹_›
        · refine State.settle_memOk ?_
          split
          · exact State.modTeam_memOk hs1
          · exact hs1
    · exact h

theorem State.copyPart_memOk {team cmd word : ℕ} (h : s.memOk = true) : (s.copyPart team cmd word).memOk = true := by
  rw [State.copyPart]
  split
  · exact h
  · split
    · split
      · exact h
      · split
        · exact State.needPeers_memOk h ‹_›
        · exact State.modTeam_memOk (State.moveWord_memOk h)
    · exact h

theorem execCloseb_memOk {f : FmtE} (h : s.memOk = true) {t' : State} (ht : execCloseb f s = .next t') : t'.memOk = true := by
  rw [execCloseb] at ht
  refine onSplit_memOk (fun c => ?_) ht
  extract_lets n c1 closed orig g orig1
  split
  · exact h
  · exact State.effected_memOk h

theorem execWaitb_memOk {f : FmtE} (h : s.memOk = true) {t' : State} (ht : execWaitb f s = .next t') : t'.memOk = true := by
  rw [execWaitb] at ht
  refine onSplit_memOk (fun c => ?_) ht
  split
  · exact h
  · split
    rename_i u _ he
    have hu : u.memOk = true := memOk_of_fst (State.fresh_memOk h) he
    extract_lets c1 c2 orig
    exact State.settle_memOk (State.put_memOk hu)

theorem execBufcfg_memOk {f : FmtE} (h : s.memOk = true) {t' : State} (ht : execBufcfg f s = .next t') : t'.memOk = true := by
  rw [execBufcfg] at ht
  refine onSplit_memOk (fun c => ?_) ht
  extract_lets b rd k foot orig
  split
  · exact h
  · split
    · exact State.illop_memOk h
    · split
      · split
        rename_i u _ he
        have hu : u.memOk = true := memOk_of_fst (State.fresh_memOk h) he
        exact State.put_memOk hu
      · exact State.effected_memOk h

theorem execBufcfgTakeEffect_memOk {team cmd : ℕ} (h : s.memOk = true) {t' : State}
    (ht : execBufcfgTakeEffect team cmd s = .next t') : t'.memOk = true := by
  rw [execBufcfgTakeEffect] at ht
  cases ht
  split
  · exact h
  · split
    · split
      · exact h
      · exact State.settle_memOk (State.modTeam_memOk h)
    · exact h

theorem execBufwait_memOk {f : FmtE} (h : s.memOk = true) {t' : State} (ht : execBufwait f s = .next t') : t'.memOk = true := by
  rw [execBufwait] at ht
  refine onSplit_memOk (fun c => ?_) ht
  extract_lets b k
  split
  · exact h
  · split
    · exact State.illop_memOk h
    · split
      rename_i u _ he
      have hu : u.memOk = true := memOk_of_fst (State.fresh_memOk h) he
      extract_lets c1 orig
      exact State.settle_memOk (State.put_memOk hu)

theorem execBufrel_memOk {f : FmtE} (h : s.memOk = true) {t' : State} (ht : execBufrel f s = .next t') : t'.memOk = true := by
  rw [execBufrel] at ht
  refine onSplit_memOk (fun c => ?_) ht
  extract_lets b n k orig t
  split
  · exact h
  · split
    · exact State.illop_memOk h
    · exact State.settle_memOk (State.effected_memOk h)

theorem State.startRun_memOk {tid : ℕ} (h : s.memOk = true) : (s.startRun tid).memOk = true := by
  rw [State.startRun]
  split
  · exact h
  · split
    · exact h
    · split
      · split
        · exact h
        · exact State.modTeam_memOk (State.modCore_memOk_of_arr h fun _ => rfl)
      · exact h

theorem State.issueRead_error_memOk {c : Cur} {a n : ℕ} (h : s.memOk = true) {t' : State} (ht : s.issueRead c a n = .error t') :
    t'.memOk = true := by
  rw [State.issueRead] at ht
  split at ht
  · cases ht
    exact State.engRanges_error_memOk h ‹_›
  · cases ht

theorem State.issueRead_memOk {c : Cur} {a n : ℕ} (h : s.memOk = true) {r} (ht : s.issueRead c a n = .ok r) : r.1.memOk = true := by
  rw [State.issueRead] at ht
  split at ht
  · cases ht
  · cases ht
    refine foldl_fst_memOk h ?_
    rintro ⟨t₁, acc₁⟩ b h1
    extract_lets r
    exact State.engRead_memOk h1

theorem execLnstart_memOk {f : FmtE} (h : s.memOk = true) {t' : State} (ht : execLnstart f s = .next t') : t'.memOk = true := by
  rw [execLnstart] at ht
  refine onSplit_memOk (fun c => ?_) ht
  split
  · exact h
  · split
    · exact State.illop_memOk h
    · extract_lets -underBinder off a
      split
      · exact State.illop_memOk h
      · split
        · exact State.issueRead_error_memOk h ‹_›
        · rename_i s₁ hd he₁
          have hs₁ : s₁.memOk = true := State.issueRead_memOk h he₁
          extract_lets -underBinder n
          split
          · exact State.illop_memOk hs₁
          · split
            · exact State.issueRead_error_memOk hs₁ ‹_›
            · rename_i s₂ bs he₂
              have hs₂ : s₂.memOk = true := State.issueRead_memOk hs₁ he₂
              split
              · exact State.illop_memOk hs₂
              · extract_lets -underBinder args
                split
                · exact State.engRanges_error_memOk hs₂ ‹_›
                · extract_lets -underBinder r foot
                  have hr : r.1.memOk = true := foldl_fst_memOk hs₂ fun _ _ hz => foldl_fst_memOk hz fun _ _ hy => State.engRead_memOk hy
                  split
                  rename_i s₃ id he₃
                  have hs₃ : s₃.memOk = true := memOk_of_fst (State.fresh_memOk hr) he₃
                  extract_lets run c₁ c₂ team₁ team₂ s₄
                  have hs₄ : s₄.memOk = true := State.put_memOk hs₃
                  split
                  · exact State.startRun_memOk hs₄
                  · exact hs₄

theorem execLnstop_memOk {f : FmtE} (h : s.memOk = true) {t' : State} (ht : execLnstop f s = .next t') : t'.memOk = true := by
  rw [execLnstop] at ht
  refine onSplit_memOk (fun c => ?_) ht
  extract_lets ids orig t c1
  split
  · exact h
  · split
    rename_i u _ he
    have hu : u.memOk = true := memOk_of_fst (State.fresh_memOk h) he
    exact State.settle_memOk (State.put_memOk hu)

theorem execWindlassRunStart_memOk {team : ℕ} (h : s.memOk = true) {t' : State} (ht : execWindlassRunStart team s = .next t') :
    t'.memOk = true := by
  rw [execWindlassRunStart] at ht
  cases ht
  exact State.startRun_memOk h

theorem State.modRun_memOk {team : ℕ} {g : Run → Run} (h : s.memOk = true) : (s.modRun team g).memOk = true := State.modTeam_memOk h

theorem State.runStreams_memOk {team : ℕ} {r : Run} {ix : List ℕ} {e k : ℕ} {a : List Stream} (h : s.memOk = true) :
    (s.runStreams team r ix e k a).memOk = true := by
  induction a generalizing s e k with
  | nil => exact h
  | cons st rest ih =>
    rw [State.runStreams]
    extract_lets rows
    split
    · exact h
    · extract_lets addr ps src dst c
      split
      · exact State.modRun_memOk h
      · split
        · extract_lets kind
          exact State.endContext_memOk h
        · split
          · exact State.faultPush_memOk (State.modRun_memOk h)
          · split
            rename_i u _ he
            have hu : u.memOk = true := memOk_of_fst (State.fresh_memOk h) he
            exact ih (State.modTeam_memOk hu)

theorem execWindlassIteration_memOk {team : ℕ} (h : s.memOk = true) {t' : State} (ht : execWindlassIteration team s = .next t') :
    t'.memOk = true := by
  rw [execWindlassIteration] at ht
  cases ht
  split
  · exact h
  · split
    · exact h
    · extract_lets e orig
      split
      · exact h
      · split
        · exact State.runStreams_memOk h
        · extract_lets s1
          have hs1 : s1.memOk = true := h
          split
          · exact h
          · exact State.runStreams_memOk hs1
        · exact h

/-! ### `Machine/Operands` -/

theorem aluR_memOk {f : FmtR} {wide : Bool} {val : Cur → ℕ → DWord} (h : s.memOk = true) {t' : State}
    (ht : aluR f wide s val = .next t') : t'.memOk = true := onSplit_memOk (fun _ => State.put_memOk h) ht

theorem aluI_memOk {f : FmtI} {val : Cur → ℕ → DWord} (h : s.memOk = true) {t' : State} (ht : aluI f s val = .next t') :
    t'.memOk = true := onSplit_memOk (fun _ => State.put_memOk h) ht

/-! ### `Machine/Flags` -/

theorem cmpR_memOk {f : FmtR} {val : Cur → ℕ → Bool} (h : s.memOk = true) {t' : State} (ht : cmpR f s val = .next t') :
    t'.memOk = true := onSplit_memOk (fun _ => State.put_memOk h) ht

theorem cmpI_memOk {f : FmtI} {val : Cur → ℕ → Bool} (h : s.memOk = true) {t' : State} (ht : cmpI f s val = .next t') :
    t'.memOk = true := onSplit_memOk (fun _ => State.put_memOk h) ht

/-! ### `Machine/Float` -/

theorem execFadd_memOk {f : FmtR} (h : s.memOk = true) {t' : State} (ht : execFadd f s = .next t') : t'.memOk = true :=
  aluR_memOk h ht

theorem execFaddImm_memOk {f : FmtI} (h : s.memOk = true) {t' : State} (ht : execFaddImm f s = .next t') : t'.memOk = true :=
  aluI_memOk h ht

theorem execFmul_memOk {f : FmtR} (h : s.memOk = true) {t' : State} (ht : execFmul f s = .next t') : t'.memOk = true :=
  aluR_memOk h ht

theorem execFmulImm_memOk {f : FmtI} (h : s.memOk = true) {t' : State} (ht : execFmulImm f s = .next t') : t'.memOk = true :=
  aluI_memOk h ht

theorem execFfma_memOk {f : FmtR} (h : s.memOk = true) {t' : State} (ht : execFfma f s = .next t') : t'.memOk = true :=
  aluR_memOk h ht

theorem execFmin_memOk {f : FmtR} (h : s.memOk = true) {t' : State} (ht : execFmin f s = .next t') : t'.memOk = true :=
  aluR_memOk h ht

theorem execFminImm_memOk {f : FmtI} (h : s.memOk = true) {t' : State} (ht : execFminImm f s = .next t') : t'.memOk = true :=
  aluI_memOk h ht

theorem execFmax_memOk {f : FmtR} (h : s.memOk = true) {t' : State} (ht : execFmax f s = .next t') : t'.memOk = true :=
  aluR_memOk h ht

theorem execFmaxImm_memOk {f : FmtI} (h : s.memOk = true) {t' : State} (ht : execFmaxImm f s = .next t') : t'.memOk = true :=
  aluI_memOk h ht

theorem execFcmp_memOk {f : FmtR} (h : s.memOk = true) {t' : State} (ht : execFcmp f s = .next t') : t'.memOk = true :=
  cmpR_memOk h ht

theorem execFcmpImm_memOk {f : FmtI} (h : s.memOk = true) {t' : State} (ht : execFcmpImm f s = .next t') : t'.memOk = true :=
  cmpI_memOk h ht

/-! ### `Machine/Access` -/

theorem State.noteAccess_memOk {t : Team} {va : ℕ} {r : Trans} (h : s.memOk = true) : (s.noteAccess t va r).memOk = true :=
  State.countMigr_memOk (State.tlbFill_memOk (State.walkRecall_memOk h))

theorem State.memCheck_error_memOk {c : Cur} {f : FmtM} {off : BitVec 8} {need : Need} (h : s.memOk = true) {t' : State}
    (ht : s.memCheck c f off need = .error t') : t'.memOk = true := by
  rw [State.memCheck] at ht
  extract_lets s1 at ht
  have hs1 : s1.memOk = true := by
    unfold s1
    split at ht
    · cases ht
      split
      · exact h
      · exact foldl_memOk h fun _ _ h1 => State.noteAccess_memOk h1
    · split at ht
      · cases ht
        split
        · exact h
        · exact foldl_memOk h fun _ _ h1 => State.noteAccess_memOk h1
      · split at ht
        · cases ht
          split
          · exact h
          · exact foldl_memOk h fun _ _ h1 => State.noteAccess_memOk h1
        · cases ht
  split at ht
  · cases ht
    exact State.alignAt_memOk h
  · split at ht
    · cases ht
      exact State.transTrap_memOk h
    · split at ht
      · cases ht
        exact State.transTrap_memOk h
      · cases ht

theorem State.memCheck_memOk {c : Cur} {f : FmtM} {off : BitVec 8} {need : Need} (h : s.memOk = true) {r}
    (ht : s.memCheck c f off need = .ok r) : r.1.memOk = true := by
  rw [State.memCheck] at ht
  extract_lets s1 at ht
  have hs1 : s1.memOk = true := by
    unfold s1
    split at ht
    · cases ht
    · split at ht
      · cases ht
      · split at ht
        · cases ht
        · cases ht
          split
          · exact h
          · exact foldl_memOk h fun _ _ h1 => State.noteAccess_memOk h1
  split at ht
  · cases ht
  · split at ht
    · cases ht
    · split at ht
      · cases ht
      · cases ht
        exact hs1

theorem State.acquire_memOk {t : Team} {ord sc lvl : ℕ} {rs : Option (List (ℕ × ℕ))} (h : s.memOk = true) :
    (s.acquire t ord sc lvl rs).memOk = true := by
  rw [State.acquire]
  extract_lets kept orig
  have horig : orig.memOk = true := by
    unfold orig
    refine State.l1Clear_memOk ?_
    split
    · exact State.dropCopies_memOk h
    · exact h
  split
  · exact h
  · exact horig

theorem State.acquireOp_memOk {t : Team} {m : MemOp} (h : s.memOk = true) : (s.acquireOp t m).memOk = true := State.acquire_memOk h

theorem State.fence_memOk {c : Cur} {ord sc : ℕ} (h : s.memOk = true) : (s.fence c ord sc).memOk = true :=
  State.acquire_memOk (State.release_memOk h)

theorem State.emptyWindow_memOk {r : Ref} {i : Instr} (h : s.memOk = true) : (s.emptyWindow r i).memOk = true := by
  rw [State.emptyWindow]
  split
  · split
    · exact h
    · exact State.put_memOk h
  · exact h

theorem memIssue_memOk {i : Instr} {f : FmtM} {kind : MemKind} {off : BitVec 8} {need : Need} {atomic : Bool} {data cmp : Cur → ℕ → ℕ}
    (h : s.memOk = true) {t' : State} (ht : memIssue i f kind off need atomic data cmp s = .next t') : t'.memOk = true := by
  rw [memIssue] at ht
  refine onSplit_memOk (fun c => ?_) ht
  extract_lets n
  split
  · exact State.emptyWindow_memOk (State.fence_memOk h)
  · split
    · exact State.memCheck_error_memOk h ‹_›
    · rename_i u _ he
      have hu : u.memOk = true := State.memCheck_memOk h he
      extract_lets ls deps m
      split
      rename_i u1 _ he1
      have hu1 : u1.memOk = true := memOk_of_fst (State.fresh_memOk hu) he1
      extract_lets s1 c1 c2 c3 c4 orig
      have hs1 : s1.memOk = true := by
        unfold s1
        split
        · refine foldl_memOk hu1 fun t b h1 => ?_
          split
          · split
            · exact h1
            · exact State.l1Fill_memOk (State.recallFor_memOk h1)
          · exact h1
        · exact hu1
      exact State.put_memOk hs1

theorem execLd_memOk {f : FmtM} (h : s.memOk = true) {t' : State} (ht : execLd f s = .next t') : t'.memOk = true :=
  memIssue_memOk h ht

theorem execLdrsv_memOk {f : FmtM} (h : s.memOk = true) {t' : State} (ht : execLdrsv f s = .next t') : t'.memOk = true :=
  memIssue_memOk h ht

theorem execSt_memOk {f : FmtM} (h : s.memOk = true) {t' : State} (ht : execSt f s = .next t') : t'.memOk = true :=
  memIssue_memOk h ht

theorem execStcnd_memOk {f : FmtM} (h : s.memOk = true) {t' : State} (ht : execStcnd f s = .next t') : t'.memOk = true :=
  memIssue_memOk h ht

theorem execAtom_memOk {f : FmtM} (h : s.memOk = true) {t' : State} (ht : execAtom f s = .next t') : t'.memOk = true :=
  memIssue_memOk h ht

theorem execAtcas_memOk {f : FmtM} (h : s.memOk = true) {t' : State} (ht : execAtcas f s = .next t') : t'.memOk = true :=
  memIssue_memOk h ht

theorem execRed_memOk {f : FmtM} (h : s.memOk = true) {t' : State} (ht : execRed f s = .next t') : t'.memOk = true :=
  memIssue_memOk h ht

theorem execFence_memOk {f : FmtM} (h : s.memOk = true) {t' : State} (ht : execFence f s = .next t') : t'.memOk = true :=
  onSplit_memOk (fun _ => State.fence_memOk h) ht

theorem execPref_memOk {f : FmtM} (h : s.memOk = true) {t' : State} (ht : execPref f s = .next t') : t'.memOk = true := by
  rw [execPref] at ht
  refine onSplit_memOk (fun c => ?_) ht
  refine foldl_memOk h fun t b h1 => ?_
  extract_lets a
  split
  · split
    · exact h1
    · exact State.l1Fill_memOk (State.recallFor_memOk h1)
  · exact h1

theorem State.vaneStep_memOk {t : Team} {tid op pa : ℕ} (h : s.memOk = true) : (s.vaneStep t tid op pa).memOk = true := by
  rw [State.vaneStep]
  extract_lets own other s1 s2 waiting
  have hs1 : s1.memOk = true := by
    unfold s1
    split
    · exact State.modDie_memOk h
    · split
      · exact State.modDie_memOk h
      · exact h
  have hs2 : s2.memOk = true := State.recallFor_memOk hs1
  split
  · exact hs2
  · refine State.recallFor_memOk ?_
    split
    · exact State.modDie_memOk h
    · exact h

theorem State.laneAtomic_memOk {tid op : ℕ} {m : MemOp} {l : LaneOp} {ext : List Byte} {upd : ℕ → Option ℕ} (h : s.memOk = true) :
    (s.laneAtomic tid op m l ext upd).1.memOk = true := by
  rw [State.laneAtomic]
  split
  · exact h
  · extract_lets s1 s2 owned near r old s3
    have hs1 : s1.memOk = true := by
      unfold s1
      split
      · split
        · exact h
        · exact State.vaneStep_memOk h
      · exact h
    have hs2 : s2.memOk = true := by
      unfold s2
      split
      · exact State.dropViews_memOk hs1
      · exact hs1
    have hr : r.1.memOk = true := State.laneRead_memOk hs2
    have hs3 : s3.memOk = true := by
      unfold s3
      split
      · split
        · exact State.clearResv_memOk (State.copyDrop_memOk hr)
        · exact State.laneWrite_memOk hr
      · exact hr
    split <;> exact hs3

theorem State.shuffle_memOk {α : Type} {a : ℕ} {n : List α} (h : s.memOk = true) : (s.shuffle a n).1.memOk = true := by
  induction a generalizing s n with
  | zero => exact h
  | succ a ih =>
    rw [State.shuffle]
    split
    rename_i u _ he
    have hu : u.memOk = true := memOk_of_fst (State.pick_memOk h) he
    split
    · exact hu
    · split
      exact memOk_of_fst (ih hu) ‹_›

theorem State.laneOrder_memOk {ls : List LaneOp} {key : LaneOp → Place} (h : s.memOk = true) : (s.laneOrder ls key).1.memOk = true := by
  rw [State.laneOrder]
  split
  · exact State.shuffle_memOk h
  · exact h

theorem State.fencesBefore_memOk {tid : ℕ} {m : MemOp} (h : s.memOk = true) : (s.fencesBefore tid m).memOk = true := by
  rw [State.fencesBefore]
  split
  · exact h
  · exact h
  · exact h
  · refine foldl_memOk h fun t b h1 => ?_
    split
    · exact State.release_memOk h1
    · exact h1

theorem State.settleStores_memOk {tid : ℕ} {m : MemOp} (h : s.memOk = true) : (s.settleStores tid m).memOk = true := by
  rw [State.settleStores]
  split
  · split
    · exact h
    · refine foldl_memOk (State.fencesBefore_memOk h) fun t b h1 => ?_
      split
      · exact State.raiseMeet_memOk h1
      · split
        · exact h1
        · exact State.raiseMeet_memOk h1
        · exact State.raiseMeet_memOk h1
        · exact State.raiseMeet_memOk h1
      · exact h1
  · split
    · exact State.release_memOk h
    · refine foldl_memOk (State.fencesBefore_memOk (State.release_memOk h)) fun t b h1 => ?_
      split
      · exact State.raiseMeet_memOk h1
      · split
        · exact h1
        · exact State.raiseMeet_memOk h1
        · exact State.raiseMeet_memOk h1
        · exact State.raiseMeet_memOk h1
      · exact h1

theorem State.performStore_memOk {tid : ℕ} {m : MemOp} (h : s.memOk = true) : (s.performStore tid m).memOk = true := by
  rw [State.performStore]
  refine foldl_memOk (State.settleStores_memOk h) fun t b h1 => ?_
  split
  rename_i u _ he
  have hu : u.memOk = true := memOk_of_fst (State.laneOrder_memOk h1) he
  refine foldl_memOk hu fun t1 b1 h2 => ?_
  split
  · exact h2
  · exact State.laneWrite_memOk h2

theorem State.bufferLane_memOk {tid : ℕ} {m : MemOp} {l : LaneOp} {half : ℕ} (h : s.memOk = true) :
    (s.bufferLane tid m l half).memOk = true := by
  rw [State.bufferLane]
  split
  · split
    · exact State.laneWrite_memOk h
    · split
      rename_i u _ he
      have hu : u.memOk = true := memOk_of_fst (State.fresh_memOk h) he
      extract_lets e
      exact State.dropViews_memOk (State.seenResv_memOk hu)
  · exact State.laneWrite_memOk h

theorem State.bufferStore_memOk {tid : ℕ} {m : MemOp} (h : s.memOk = true) : (s.bufferStore tid m).memOk = true := by
  rw [State.bufferStore]
  split
  rename_i u _ he
  have hu : u.memOk = true := memOk_of_fst (State.laneOrder_memOk (State.fencesBefore_memOk h)) he
  refine foldl_memOk hu fun t b h1 => ?_
  refine foldl_memOk h1 fun t1 b1 h2 => ?_
  split
  · exact h2
  · exact State.bufferLane_memOk h2

theorem State.dropPages_memOk {op : ℕ} (h : s.memOk = true) : (s.dropPages op).memOk = true := by
  rw [State.dropPages]
  extract_lets orig
  split <;> exact h

theorem State.holdCopy_memOk {x pkg off : ℕ} {e : DWord} {bs : List Byte} (h : s.memOk = true) :
    (s.holdCopy x pkg off e bs).memOk = true := by
  rw [State.holdCopy]
  split
  · exact h
  · exact State.modDie_memOk h

theorem State.holdCopies_memOk {tid : ℕ} {m : MemOp} {vs : List (ℕ × ℕ)} (h : s.memOk = true) :
    (s.holdCopies tid m vs).memOk = true := by
  rw [State.holdCopies]
  split
  · refine foldl_memOk h fun t b h1 => ?_
    split
    · exact State.holdCopy_memOk h1
    · exact h1
  · exact h

theorem State.laneStcnd_memOk {tid : ℕ} {m : MemOp} {l : LaneOp} {ext : List Byte} (h : s.memOk = true) :
    (s.laneStcnd tid m l ext).1.memOk = true := by
  rw [State.laneStcnd]
  split
  · exact h
  · extract_lets held s1
    have hs1 : s1.memOk = true := by
      unfold s1
      split
      · exact State.laneWrite_memOk h
      · exact h
    exact State.modGroup_memOk hs1

theorem State.laneSee_memOk {tid gi : ℕ} {p : Place} {va n : ℕ} {l1 : Bool} {ext : List Byte} (h : s.memOk = true) :
    (s.laneSee tid gi p va n l1 ext).1.memOk = true := by
  unfold State.laneSee
  extract_lets r
  have hr : r.1.memOk = true := State.laneRead_memOk h
  split
  · extract_lets bs
    exact hr
  · exact hr

theorem State.laneLoad_memOk {tid : ℕ} {m : MemOp} {l : LaneOp} {l1 : Bool} {ext : List Byte} (h : s.memOk = true) :
    (s.laneLoad tid m l l1 ext).1.memOk = true := by
  rw [State.laneLoad]
  extract_lets r
  have hr : r.1.memOk = true := State.laneSee_memOk h
  split
  · exact hr
  · refine foldl_fst_memOk h ?_
    rintro ⟨t₁, acc₁⟩ b h1
    extract_lets r1
    have hr1 : r1.1.memOk = true := State.laneSee_memOk h1
    split
    · exact h1
    · exact hr1

theorem State.performLane_memOk {tid op : ℕ} {m : MemOp} {l : LaneOp} {ext : List Byte} (h : s.memOk = true) :
    (s.performLane tid op m l ext).1.memOk = true := by
  rw [State.performLane]
  extract_lets s1 r r1
  have hs1 : s1.memOk = true := by
    unfold s1
    split
    · exact State.dropViews_memOk h
    · exact h
  have hr : r.1.memOk = true := State.laneLoad_memOk hs1
  have hr1 : r1.1.memOk = true := State.laneStcnd_memOk h
  split
  · exact State.laneLoad_memOk h
  · exact State.modGroup_memOk hr
  · exact hr1
  · exact State.laneAtomic_memOk h
  · exact State.laneAtomic_memOk h
  · exact State.laneAtomic_memOk h
  · exact h

theorem State.orderFor_memOk {m : MemOp} (h : s.memOk = true) : (s.orderFor m).1.memOk = true := by
  rw [State.orderFor]
  split
  · exact h
  · exact h
  · exact State.laneOrder_memOk h
  · exact State.laneOrder_memOk h

theorem State.performLanes_memOk {tid op : ℕ} {m : MemOp} {ext : List Byte} (h : s.memOk = true) :
    (s.performLanes tid op m ext).1.memOk = true := by
  rw [State.performLanes]
  split
  rename_i u _ he
  have hu : u.memOk = true := memOk_of_fst (State.orderFor_memOk (State.settleStores_memOk h)) he
  refine foldl_fst_memOk hu ?_
  rintro ⟨t₁, acc₁⟩ b h1
  extract_lets r
  have hr : r.1.memOk = true := State.performLane_memOk h1
  split
  · exact hr
  · exact hr
  · exact h1

theorem State.mopDone_memOk {tid op : ℕ} (h : s.memOk = true) : (s.mopDone tid op).memOk = true :=
  State.settle_memOk (State.complete_memOk (State.modTeam_memOk (State.dropPages_memOk h)))

theorem execLoadReturn_memOk {team op : ℕ} {ext : List Byte} (h : s.memOk = true) {t' : State}
    (ht : execLoadReturn team op ext s = .next t') : t'.memOk = true := by
  rw [execLoadReturn] at ht
  cases ht
  split
  · exact h
  · extract_lets r s1
    have hr : r.1.memOk = true := State.performLanes_memOk h
    have hs1 : s1.memOk = true := State.acquireOp_memOk (State.holdCopies_memOk hr)
    split
    · exact h
    · split
      · exact State.mopDone_memOk (State.modGroup_memOk hs1)
      · exact State.mopDone_memOk (State.modGroup_memOk hs1)
      · exact State.mopDone_memOk (State.modGroup_memOk hs1)
      · exact State.mopDone_memOk (State.modGroup_memOk hs1)
      · exact State.mopDone_memOk (State.modGroup_memOk hs1)
      · exact h

theorem State.stashEnd_memOk {tid w : ℕ} {unmap : Bool} (h : s.memOk = true) : (s.stashEnd tid w unmap).memOk = true := by
  rw [State.stashEnd]
  split
  · exact h
  · extract_lets s1 s2
    have hs1 : s1.memOk = true := by
      unfold s1
      refine foldl_memOk h fun t b h1 => ?_
      split
      · exact State.stashWriteBack_memOk h1
      · exact State.stashRecall_memOk h1
    have hs2 : s2.memOk = true := State.modTeam_memOk hs1
    split
    · exact hs1
    · refine foldl_memOk hs2 fun t b h1 => ?_
      split
      · exact h1
      · split
        · extract_lets r
          have hr : r.1.memOk = true := State.heldBytes_memOk h1
          exact State.arrWrite_memOk hr
        · exact h1

theorem State.lanePart_memOk {team op lane half : ℕ} {ext : List Byte} (h : s.memOk = true) :
    (s.lanePart team op lane half ext).memOk = true := by
  rw [State.lanePart]
  extract_lets note
  split
  · exact h
  · extract_lets ext1 r s1 r1
    have hr : r.1.memOk = true := State.laneSee_memOk (State.settleStores_memOk h)
    have hs1 : s1.memOk = true := State.settleStores_memOk h
    have hr1 : r1.1.memOk = true := State.performLane_memOk hs1
    split
    · exact h
    · split
      · exact State.modTeam_memOk hr
      · exact State.modTeam_memOk (State.laneWrite_memOk hs1)
      · split
        · exact h
        · exact State.modTeam_memOk hr1
      · split
        · exact h
        · exact State.modTeam_memOk hr1
      · split
        · exact h
        · exact State.modTeam_memOk hr1
      · split
        · exact h
        · exact State.modTeam_memOk hr1
      · split
        · exact h
        · exact State.modTeam_memOk hr1
      · exact h

theorem execStorePerformed_memOk {team op : ℕ} (h : s.memOk = true) {t' : State} (ht : execStorePerformed team op s = .next t') :
    t'.memOk = true := by
  rw [execStorePerformed] at ht
  cases ht
  split
  · exact h
  · split
    · exact h
    · split
      · exact State.mopDone_memOk (State.acquireOp_memOk (State.performStore_memOk h))
      · exact State.mopDone_memOk (State.acquireOp_memOk (State.performLanes_memOk h))
      · exact State.mopDone_memOk h
      · exact State.mopDone_memOk (State.stashEnd_memOk h)
      · exact h

theorem State.keepView_memOk {core pa n : ℕ} (h : s.memOk = true) : (s.keepView core pa n).memOk = true := by
  rw [State.keepView]
  extract_lets seen r bs s1
  have hr : r.1.memOk = true := State.homeRead_memOk h
  have hs1 : s1.memOk = true := State.l1Refresh_memOk hr
  split
  · exact h
  · exact hs1

theorem State.storeEarly_memOk {team op : ℕ} (h : s.memOk = true) : (s.storeEarly team op).memOk = true := by
  rw [State.storeEarly]
  split
  · exact h
  · split
    · exact State.mopDone_memOk (State.acquireOp_memOk (State.bufferStore_memOk h))
    · exact h

theorem State.stashOp_memOk {c : Cur} {kind : MemKind} (h : s.memOk = true) : (s.stashOp c kind).memOk = true := by
  rw [State.stashOp]
  extract_lets m
  split
  rename_i u _ he
  have hu : u.memOk = true := memOk_of_fst (State.fresh_memOk h) he
  extract_lets c1 orig
  exact State.put_memOk hu

theorem execStashm_memOk {f : FmtM} (h : s.memOk = true) {t' : State} (ht : execStashm f s = .next t') : t'.memOk = true := by
  rw [execStashm] at ht
  refine onSplit_memOk (fun c => ?_) ht
  extract_lets w ga lo len entry win orig
  split
  · exact h
  · split
    · exact State.protAt_memOk h
    · split
      · split
        · exact State.stashOp_memOk h
        · exact State.illop_memOk h
      · split
        · exact State.illop_memOk h
        · exact State.stashOp_memOk h

theorem stashBack_memOk {f : FmtM} {unmap : Bool} (h : s.memOk = true) {t' : State} (ht : stashBack f unmap s = .next t') :
    t'.memOk = true := by
  rw [stashBack] at ht
  refine onSplit_memOk (fun c => ?_) ht
  split
  · exact h
  · exact State.stashOp_memOk h

theorem execStashw_memOk {f : FmtM} (h : s.memOk = true) {t' : State} (ht : execStashw f s = .next t') : t'.memOk = true :=
  stashBack_memOk h ht

theorem execStashu_memOk {f : FmtM} (h : s.memOk = true) {t' : State} (ht : execStashu f s = .next t') : t'.memOk = true :=
  stashBack_memOk h ht

theorem execStashRecall_memOk {team win line : ℕ} (h : s.memOk = true) {t' : State}
    (ht : execStashRecall team win line s = .next t') : t'.memOk = true := by
  rw [execStashRecall] at ht
  cases ht
  exact State.stashRecall_memOk h

theorem execWeathervaneDecay_memOk {die : ℕ} (h : s.memOk = true) {t' : State} (ht : execWeathervaneDecay die s = .next t') :
    t'.memOk = true := by
  rw [execWeathervaneDecay] at ht
  cases ht
  exact State.modDie_memOk h

theorem execMigrationRequest_memOk {die ctx vpn : ℕ} (h : s.memOk = true) {t' : State}
    (ht : execMigrationRequest die ctx vpn s = .next t') : t'.memOk = true := by
  rw [execMigrationRequest] at ht
  cases ht
  split
  · split
    · exact State.modDie_memOk h
    · exact h
  · exact h

/-! ### `Machine/Control` -/

theorem execBra_memOk {f : FmtB} (h : s.memOk = true) {t' : State} (ht : execBra f s = .next t') : t'.memOk = true := by
  rw [execBra] at ht
  refine onSplit_memOk (fun c => ?_) ht
  extract_lets g taken falls tgt
  split
  · exact State.put_memOk h
  · split
    · exact State.put_memOk h
    · split
      · exact State.put_memOk h
      · exact State.branch_memOk h

theorem execBrx_memOk {f : FmtB} (h : s.memOk = true) {t' : State} (ht : execBrx f s = .next t') : t'.memOk = true := by
  rw [execBrx] at ht
  refine onSplit_memOk (fun c => ?_) ht
  extract_lets g reg base goal sides
  clear_value sides
  split
  · exact State.protAt_memOk h
  · split
    · exact State.put_memOk h
    · exact State.branch_memOk h

theorem execCall_memOk {f : FmtB} (h : s.memOk = true) {t' : State} (ht : execCall f s = .next t') : t'.memOk = true := by
  rw [execCall] at ht
  refine onSplit_memOk (fun c => ?_) ht
  extract_lets base tgt
  split
  · exact State.put_memOk h
  · split
    · exact State.protAt_memOk h
    · exact State.put_memOk h

theorem execRet_memOk {f : FmtB} (h : s.memOk = true) {t' : State} (ht : execRet f s = .next t') : t'.memOk = true := by
  rw [execRet] at ht
  refine onSplit_memOk (fun c => ?_) ht
  split
  · exact State.put_memOk h
  · split
    · exact State.protAt_memOk h
    · exact State.put_memOk h

theorem execRetT_memOk {f : FmtB} (h : s.memOk = true) {t' : State} (ht : execRetT f s = .next t') : t'.memOk = true := by
  rw [execRetT] at ht
  refine onSplit_memOk (fun c => ?_) ht
  extract_lets orig regs ridx orig1 orig2 c1
  split
  · exact State.put_memOk h
  · split
    · exact State.illop_memOk h
    · exact State.put_memOk h

theorem execMerge_memOk {f : FmtB} (h : s.memOk = true) {t' : State} (ht : execMerge f s = .next t') : t'.memOk = true := by
  rw [execMerge] at ht
  refine onSplit_memOk (fun c => ?_) ht
  extract_lets orig p
  split
  · exact State.put_memOk h
  · split
    · exact State.fatal_memOk h
    · exact State.mergeCheck_memOk (State.put_memOk h)

theorem execLoop_memOk {f : FmtB} (h : s.memOk = true) {t' : State} (ht : execLoop f s = .next t') : t'.memOk = true := by
  rw [execLoop] at ht
  refine onSplit_memOk (fun c => ?_) ht
  extract_lets x n tooFar orig
  split
  · exact h
  · split
    · exact State.illop_memOk h
    · split <;> exact State.put_memOk h

theorem execExit_memOk {f : FmtB} (h : s.memOk = true) {t' : State} (ht : execExit f s = .next t') : t'.memOk = true := by
  rw [execExit] at ht
  refine onSplit_memOk (fun c => ?_) ht
  extract_lets orig g orig1 c1 orig2
  split <;> exact State.put_memOk h

theorem execYield_memOk {f : FmtB} (h : s.memOk = true) {t' : State} (ht : execYield f s = .next t') : t'.memOk = true := by
  rw [execYield] at ht
  refine onSplit_memOk (fun c => ?_) ht
  extract_lets orig
  split
  · exact State.put_memOk h
  · exact h

theorem execTrap_memOk {f : FmtS} (h : s.memOk = true) {t' : State} (ht : execTrap f s = .next t') : t'.memOk = true := by
  rw [execTrap] at ht
  refine onSplit_memOk (fun c => ?_) ht
  extract_lets t orig
  split
  · exact State.put_memOk h
  · exact State.userTrap_memOk (State.put_memOk h)

theorem execBkpt_memOk {f : FmtB} (h : s.memOk = true) {t' : State} (ht : execBkpt f s = .next t') : t'.memOk = true := by
  rw [execBkpt] at ht
  refine onSplit_memOk (fun c => ?_) ht
  extract_lets t orig orig1
  split
  · exact State.put_memOk h
  · split
    · exact State.put_memOk h
    · exact State.userTrap_memOk (State.put_memOk h)
    · exact State.faultPush_memOk (State.put_memOk h)

theorem barrierArrive_memOk {f : FmtE} {wait : Bool} (h : s.memOk = true) {t' : State} (ht : barrierArrive f wait s = .next t') :
    t'.memOk = true := by
  rw [barrierArrive] at ht
  refine onSplit_memOk (fun c => ?_) ht
  extract_lets b held
  split
  · exact State.illop_memOk h
  · split
    · split
      · exact State.put_memOk h
      · exact h
    · split
      · exact State.illop_memOk h
      · extract_lets d target orig
        split <;> exact State.put_memOk h

theorem execBar_memOk {f : FmtE} (h : s.memOk = true) {t' : State} (ht : execBar f s = .next t') : t'.memOk = true :=
  barrierArrive_memOk h ht

theorem execBara_memOk {f : FmtE} (h : s.memOk = true) {t' : State} (ht : execBara f s = .next t') : t'.memOk = true :=
  barrierArrive_memOk h ht

theorem execBarw_memOk {f : FmtE} (h : s.memOk = true) {t' : State} (ht : execBarw f s = .next t') : t'.memOk = true := by
  rw [execBarw] at ht
  refine onSplit_memOk (fun c => ?_) ht
  extract_lets b t orig
  split
  · exact State.illop_memOk h
  · split
    · split <;> exact State.put_memOk h
    · exact State.put_memOk h

/-! ### `Machine/Clause` -/

theorem State.clauseTrap_memOk {c : Cur} {e : ClauseBad} (h : s.memOk = true) : (s.clauseTrap c e).memOk = true := by
  unfold State.clauseTrap
  split
  · exact State.fatal_memOk h
  · exact State.pageflt_memOk h
  · exact State.fatal_memOk h
  · exact h
  · exact getD_memOk (State.needPeers_memOk h) h
  · exact State.fatal_memOk h

theorem State.haltGroup_memOk {c : Cur} (h : s.memOk = true) : (s.haltGroup c).memOk = true :=
  State.faultPush_memOk (State.put_memOk h)

theorem State.startClause_memOk {r : Ref} {port : Cur → Bool} (h : s.memOk = true) : (s.startClause r port).memOk = true := by
  rw [State.startClause]
  split
  · exact h
  · extract_lets orig c orig1
    split
    · exact h
    · split
      · split
        · exact h
        · exact State.userTrap_memOk (State.put_memOk h)
      · split
        · exact State.put_memOk h
        · split
          · exact h
          · split
            · exact State.haltGroup_memOk h
            · split
              · split
                · exact State.clauseTrap_memOk (State.put_memOk h)
                · exact h
              · split
                · exact State.put_memOk h
                · split
                  · exact h
                  · split
                    · exact State.clauseTrap_memOk (State.put_memOk h)
                    · exact State.fetchRecall_memOk (State.put_memOk h)
      · exact h

theorem State.beginClause_memOk {r : Ref} (h : s.memOk = true) : (s.beginClause r).memOk = true := State.startClause_memOk h

theorem execClauseBegin_memOk {r : Ref} (h : s.memOk = true) {t' : State} (ht : execClauseBegin r s = .next t') : t'.memOk = true := by
  rw [execClauseBegin] at ht
  cases ht
  exact State.beginClause_memOk h

theorem execSplitMerge_memOk {r : Ref} {other : ℕ} (h : s.memOk = true) {t' : State} (ht : execSplitMerge r other s = .next t') :
    t'.memOk = true := by
  rw [execSplitMerge] at ht
  cases ht
  split
  · split
    · exact State.mergeTwo_memOk h
    · exact h
  · exact h

theorem execMergeComplete_memOk {team group : ℕ} (h : s.memOk = true) {t' : State} (ht : execMergeComplete team group s = .next t') :
    t'.memOk = true := by
  rw [execMergeComplete] at ht
  cases ht
  split
  · exact State.mergeAll_memOk h
  · exact h

theorem execParkTimeout_memOk {r : Ref} (h : s.memOk = true) {t' : State} (ht : execParkTimeout r s = .next t') : t'.memOk = true := by
  rw [execParkTimeout] at ht
  cases ht
  split
  · extract_lets orig
    split
    · exact State.put_memOk h
    · exact h
  · exact h

theorem execFairnessYield_memOk {r : Ref} (h : s.memOk = true) {t' : State} (ht : execFairnessYield r s = .next t') :
    t'.memOk = true := by
  rw [execFairnessYield] at ht
  cases ht
  split
  · extract_lets orig
    split
    · exact State.put_memOk h
    · exact h
  · exact h

theorem execSplitExitComplete_memOk {r : Ref} (h : s.memOk = true) {t' : State} (ht : execSplitExitComplete r s = .next t') :
    t'.memOk = true := by
  rw [execSplitExitComplete] at ht
  cases ht
  split
  · split
    · exact State.settle_memOk (State.endSplit_memOk h)
    · exact h
  · exact h

/-! ### `Machine/Convert` -/

theorem execCvt_memOk {f : FmtR} (h : s.memOk = true) {t' : State} (ht : execCvt f s = .next t') : t'.memOk = true :=
  aluR_memOk h ht

theorem execCvtef_memOk {f : FmtR} (h : s.memOk = true) {t' : State} (ht : execCvtef f s = .next t') : t'.memOk = true :=
  aluR_memOk h ht

theorem execPack4_memOk {f : FmtR} (h : s.memOk = true) {t' : State} (ht : execPack4 f s = .next t') : t'.memOk = true :=
  aluR_memOk h ht

theorem execUnpk4_memOk {f : FmtR} (h : s.memOk = true) {t' : State} (ht : execUnpk4 f s = .next t') : t'.memOk = true :=
  onSplit_memOk (fun _ => State.put_memOk h) ht

/-! ### `Machine/Matrix` -/

theorem State.scaleRead_memOk {c : Cur} {a : ℕ} (h : s.memOk = true) : (s.scaleRead c a).1.memOk = true := by
  rw [State.scaleRead]
  split
  · extract_lets r r1
    have hr : r.1.memOk = true := State.engRead_memOk (State.noteAccess_memOk h)
    have hr1 : r1.1.memOk = true := by
      unfold r1
      split
      · exact State.noteAccess_memOk h
      · exact State.holdCopy_memOk hr
    exact hr1
  · extract_lets r
    exact State.laneSee_memOk (State.noteAccess_memOk h)
  · exact State.noteAccess_memOk h

theorem State.scalesOf_error_memOk {c : Cur} {f : FmtX} {os : List ℕ} (h : s.memOk = true) {t' : State}
    (ht : s.scalesOf c f os = .error t') : t'.memOk = true := by
  rw [State.scalesOf] at ht
  extract_lets chk at ht
  split at ht
  · cases ht
    exact State.illop_memOk h
  · extract_lets all words at ht
    have hwords : words.1.memOk = true := by
      unfold words
      split at ht
      · cases ht
        refine foldl_fst_memOk h ?_
        rintro ⟨t₁, acc₁⟩ b h1
        extract_lets r
        exact State.scaleRead_memOk h1
      · split at ht
        · cases ht
          refine foldl_fst_memOk h ?_
          rintro ⟨t₁, acc₁⟩ b h1
          extract_lets r
          exact State.scaleRead_memOk h1
        · cases ht
    split at ht
    · cases ht
      exact State.transTrap_memOk h
    · split at ht
      · cases ht
        exact State.transTrap_memOk h
      · cases ht

theorem State.scalesOf_memOk {c : Cur} {f : FmtX} {os : List ℕ} (h : s.memOk = true) {r} (ht : s.scalesOf c f os = .ok r) :
    r.1.memOk = true := by
  rw [State.scalesOf] at ht
  extract_lets chk at ht
  split at ht
  · cases ht
  · extract_lets all words at ht
    have hwords : words.1.memOk = true := by
      unfold words
      split at ht
      · cases ht
      · split at ht
        · cases ht
        · cases ht
          refine foldl_fst_memOk h ?_
          rintro ⟨t₁, acc₁⟩ b h1
          extract_lets r
          exact State.scaleRead_memOk h1
    split at ht
    · cases ht
    · split at ht
      · cases ht
      · cases ht
        exact hwords

theorem State.issueOps_memOk {c : Cur} {i : Instr} {f : FmtX} {ty acc : ℕ} {os : List (ℕ × BSource × Option Scales)}
    (h : s.memOk = true) : (s.issueOps c i f ty acc os).memOk = true := by
  rw [State.issueOps]
  refine State.modCore_memOk_of_arr (State.put_memOk (foldl_fst_memOk (State.fresh_memOk h) ?_)) fun _ => rfl
  rintro ⟨t, k, ops⟩ o ht
  exact State.fresh_memOk ht

theorem matIssue_memOk {i : Instr} {f : FmtX} {mmas : Bool} (h : s.memOk = true) {t' : State} (ht : matIssue i f mmas s = .next t') :
    t'.memOk = true := by
  rw [matIssue] at ht
  refine onSplit_memOk (fun c => ?_) ht
  split
  · exact State.fatal_memOk h
  · exact h
  · split
    split
    · exact State.illop_memOk h
    · split
      · exact State.illop_memOk h
      · exact State.protAt_memOk h
      · split
        · exact State.issueOps_memOk h
        · split
          · exact State.scalesOf_error_memOk h ‹_›
          · rename_i u _ he
            have hu : u.memOk = true := State.scalesOf_memOk h he
            extract_lets c1
            exact State.issueOps_memOk hu

theorem execMma_memOk {f : FmtX} (h : s.memOk = true) {t' : State} (ht : execMma f s = .next t') : t'.memOk = true :=
  matIssue_memOk h ht

theorem execMmas_memOk {f : FmtX} (h : s.memOk = true) {t' : State} (ht : execMmas f s = .next t') : t'.memOk = true :=
  matIssue_memOk h ht

theorem execMatrixPassStart_memOk {core op : ℕ} (h : s.memOk = true) {t' : State} (ht : execMatrixPassStart core op s = .next t') :
    t'.memOk = true := by
  rw [execMatrixPassStart] at ht
  cases ht
  split
  · exact h
  · split
    · exact h
    · exact State.modCore_memOk_of_arr h fun _ => rfl

theorem State.fetchCell_memOk {core inst cell : ℕ} (h : s.memOk = true) : (s.fetchCell core inst cell).memOk = true := by
  rw [State.fetchCell]
  split
  · exact h
  · split
    · extract_lets bs
      split
      · exact h
      · exact State.modCore_memOk_of_arr h fun _ => rfl
    · exact h

theorem State.mixRegs_memOk {g : Group} {o base : ℕ} {ws : List (List Word)} (h : s.memOk = true) :
    (s.mixRegs g o base ws).1.memOk = true := by
  rw [State.mixRegs]
  refine foldl_fst_memOk h ?_
  rintro ⟨t₁, acc₁⟩ b h1
  extract_lets r
  have hr : r.1.memOk = true := by
    unfold r
    refine foldl_fst_memOk h1 ?_
    rintro ⟨t₂, acc₂⟩ b1 h2
    extract_lets q
    have hq : q.1.memOk = true := State.among_memOk h2
    exact hq
  exact hr

theorem State.mixedElement_memOk {g : Group} {o : MatOp} {elems : List ℕ} {areg : ℕ} {breg : Option ℕ} {j n : ℕ} {d : Option ℕ}
    (h : s.memOk = true) : (s.mixedElement g o elems areg breg j n d).1.memOk = true := by
  unfold State.mixedElement
  extract_lets a
  have ha : a.1.memOk = true := State.mixRegs_memOk h
  split
  · exact ha
  · extract_lets b
    exact State.mixRegs_memOk ha

theorem State.writeTile_memOk {o : MatOp} {elems : List ℕ} (h : s.memOk = true) : (s.writeTile o elems).memOk = true := by
  fun_cases s.writeTile o elems with
  | case1 => exact h
  | case2 g _ cells cut put old r =>
    clear_value cells cut
    have hr : r.1.memOk = true := by
      unfold r
      split
      · exact foldl_fst_memOk (show (s, g).1.memOk = true from h) fun _ _ hz => hz
      · exact foldl_fst_memOk (State.shuffle_memOk h) fun z x hz => State.mixedElement_memOk hz
    exact State.modGroup_memOk hr

theorem execMatrixOpComplete_memOk {core op : ℕ} (h : s.memOk = true) {t' : State} (ht : execMatrixOpComplete core op s = .next t') :
    t'.memOk = true := by
  rw [execMatrixOpComplete] at ht
  cases ht
  split
  · exact h
  · split
    · exact h
    · split
      · extract_lets s1
        have hs1 : s1.memOk = true := State.modCore_memOk_of_arr (State.writeTile_memOk h) fun _ => rfl
        split
        · exact hs1
        · exact State.settle_memOk (State.modTeam_memOk hs1)
      · exact h

/-! ### `Machine/Sfu` -/

theorem sfuR_memOk {i : Instr} {f : FmtR} {fn : ℕ → ℕ} (h : s.memOk = true) {t' : State} (ht : sfuR i f s fn = .next t') :
    t'.memOk = true := onSplit_memOk (fun _ => State.put_memOk h) ht

theorem execFrcp_memOk {f : FmtR} (h : s.memOk = true) {t' : State} (ht : execFrcp f s = .next t') : t'.memOk = true :=
  sfuR_memOk h ht

theorem execFsqrt_memOk {f : FmtR} (h : s.memOk = true) {t' : State} (ht : execFsqrt f s = .next t') : t'.memOk = true :=
  sfuR_memOk h ht

theorem execFrsq_memOk {f : FmtR} (h : s.memOk = true) {t' : State} (ht : execFrsq f s = .next t') : t'.memOk = true :=
  sfuR_memOk h ht

theorem execFex2_memOk {f : FmtR} (h : s.memOk = true) {t' : State} (ht : execFex2 f s = .next t') : t'.memOk = true :=
  sfuR_memOk h ht

theorem execFlg2_memOk {f : FmtR} (h : s.memOk = true) {t' : State} (ht : execFlg2 f s = .next t') : t'.memOk = true :=
  sfuR_memOk h ht

theorem execFsin_memOk {f : FmtR} (h : s.memOk = true) {t' : State} (ht : execFsin f s = .next t') : t'.memOk = true :=
  sfuR_memOk h ht

theorem execFcos_memOk {f : FmtR} (h : s.memOk = true) {t' : State} (ht : execFcos f s = .next t') : t'.memOk = true :=
  sfuR_memOk h ht

theorem execFtanh_memOk {f : FmtR} (h : s.memOk = true) {t' : State} (ht : execFtanh f s = .next t') : t'.memOk = true :=
  sfuR_memOk h ht

/-! ### `Machine/Epilogue` -/

theorem State.epWrite_memOk {d : EpDest} {a : ℕ} {bs : List Byte} (h : s.memOk = true) : (s.epWrite d a bs).memOk = true := by
  rw [State.epWrite]
  refine foldl_memOk h fun t b h1 => ?_
  extract_lets a1 part
  split
  · split
    · split
      · exact State.engWrite_memOk h1
      · exact h1
    · exact h1
  · exact State.engWrite_memOk h1

theorem State.epStore_memOk {core : ℕ} {f : FmtEp} (h : s.memOk = true) : (s.epStore core f).memOk = true := State.epWrite_memOk h

theorem State.epRun_memOk {core : ℕ} {i : Instr} (h : s.memOk = true) : (s.epRun core i).memOk = true := by
  unfold State.epRun
  extract_lets on
  split
  · exact State.modCore_memOk_of_arr h fun _ => rfl
  · exact State.modCore_memOk_of_arr h fun _ => rfl
  · exact State.modCore_memOk_of_arr h fun _ => rfl
  · exact State.modCore_memOk_of_arr h fun _ => rfl
  · exact State.modCore_memOk_of_arr h fun _ => rfl
  · exact State.modCore_memOk_of_arr h fun _ => rfl
  · exact State.modCore_memOk_of_arr h fun _ => rfl
  · exact State.modCore_memOk_of_arr h fun _ => rfl
  · exact State.modCore_memOk_of_arr h fun _ => rfl
  · exact State.modCore_memOk_of_arr h fun _ => rfl
  · exact State.epStore_memOk h
  · exact State.modCore_memOk_of_arr h fun _ => rfl
  · exact h

theorem onEpi_memOk {i : Instr} (h : s.memOk = true) {t' : State} (ht : onEpi i s = .next t') : t'.memOk = true := by
  rw [onEpi] at ht
  split at ht
  · cases ht
    exact State.epRun_memOk h
  · cases ht

theorem execEpadd_memOk {f : FmtEp} (h : s.memOk = true) {t' : State} (ht : execEpadd f s = .next t') : t'.memOk = true :=
  onEpi_memOk h ht

theorem execEpmul_memOk {f : FmtEp} (h : s.memOk = true) {t' : State} (ht : execEpmul f s = .next t') : t'.memOk = true :=
  onEpi_memOk h ht

theorem execEpfma_memOk {f : FmtEp} (h : s.memOk = true) {t' : State} (ht : execEpfma f s = .next t') : t'.memOk = true :=
  onEpi_memOk h ht

theorem execEpmax_memOk {f : FmtEp} (h : s.memOk = true) {t' : State} (ht : execEpmax f s = .next t') : t'.memOk = true :=
  onEpi_memOk h ht

theorem execEpmin_memOk {f : FmtEp} (h : s.memOk = true) {t' : State} (ht : execEpmin f s = .next t') : t'.memOk = true :=
  onEpi_memOk h ht

theorem execEpexp_memOk {f : FmtEp} (h : s.memOk = true) {t' : State} (ht : execEpexp f s = .next t') : t'.memOk = true :=
  onEpi_memOk h ht

theorem execEplut_memOk {f : FmtEp} (h : s.memOk = true) {t' : State} (ht : execEplut f s = .next t') : t'.memOk = true :=
  onEpi_memOk h ht

theorem execEpcvt_memOk {f : FmtEp} (h : s.memOk = true) {t' : State} (ht : execEpcvt f s = .next t') : t'.memOk = true :=
  onEpi_memOk h ht

theorem execEpbias_memOk {f : FmtEp} (h : s.memOk = true) {t' : State} (ht : execEpbias f s = .next t') : t'.memOk = true :=
  onEpi_memOk h ht

theorem execEpscl_memOk {f : FmtEp} (h : s.memOk = true) {t' : State} (ht : execEpscl f s = .next t') : t'.memOk = true :=
  onEpi_memOk h ht

theorem execEpst_memOk {f : FmtEp} (h : s.memOk = true) {t' : State} (ht : execEpst f s = .next t') : t'.memOk = true :=
  onEpi_memOk h ht

theorem execEpend_memOk (h : s.memOk = true) {t' : State} (ht : execEpend s = .next t') : t'.memOk = true := onEpi_memOk h ht

theorem State.epSettle_memOk {core a : ℕ} (h : s.memOk = true) : (s.epSettle core a).memOk = true := by
  induction a generalizing s with
  | zero => exact h
  | succ a ih =>
    rw [State.epSettle]
    split
    · exact ih (State.cmdDone_memOk (State.modCore_memOk_of_arr h fun _ => rfl))
    · exact h

theorem State.epFlow_memOk {tid : ℕ} (h : s.memOk = true) : (s.epFlow tid).memOk = true := by
  rw [State.epFlow]
  split
  · exact h
  · extract_lets r s1 s2
    have hs1 : s1.memOk = true := State.modTeam_memOk h
    have hs2 : s2.memOk = true := State.modCore_memOk_of_arr hs1 fun _ => rfl
    exact State.epSettle_memOk hs2

theorem State.epTake_memOk {tid id n : ℕ} {name : EpName} (h : s.memOk = true) : (s.epTake tid id n name).memOk = true := by
  rw [State.epTake]
  split
  · exact h
  · exact State.epFlow_memOk (State.modCore_memOk (State.modTeam_memOk h) fun _ => State.memOk_arr h _)

theorem execEpiloguePlaceTake_memOk {team place : ℕ} (h : s.memOk = true) {t' : State}
    (ht : execEpiloguePlaceTake team place s = .next t') : t'.memOk = true := by
  rw [execEpiloguePlaceTake] at ht
  cases ht
  split
  · exact h
  · split
    · exact State.epTake_memOk h
    · exact h

theorem State.epWords_memOk {c : Cur} {k : Task} {off n i : ℕ} {acc prog : List Word} (h : s.memOk = true) {u : State}
    (hu : s.epWords c k off n i acc = .ok u prog) : u.memOk = true := by
  fun_induction s.epWords c k off n i acc with
  | case4 s₀ _ _ _ _ _ _ p _ _ r =>
    cases hu
    exact (State.engRead_memOk h : r.1.memOk = true)
  | case5 =>
    rename_i ih
    exact ih (State.engRead_memOk h) hu
  | _ => cases hu

theorem execEpload_memOk {f : FmtE} (h : s.memOk = true) {t' : State} (ht : execEpload f s = .next t') : t'.memOk = true := by
  rw [execEpload] at ht
  refine onSplit_memOk (fun c => ?_) ht
  split
  · exact h
  · split
    · exact State.fatal_memOk h
    · extract_lets off name
      split
      · exact State.fatal_memOk h
      · exact State.transTrap_memOk h
      · rename_i u prog he
        have hu : u.memOk = true := State.epWords_memOk h he
        split
        · exact hu
        · split
          rename_i u₁ id he₁
          have hu₁ : u₁.memOk = true := memOk_of_fst (State.fresh_memOk hu) he₁
          extract_lets c₁ busy ep₀ ep team u₂ leave
          have hu₂ : u₂.memOk = true := State.put_memOk hu₁
          split
          · exact hu₂
          · split
            · exact State.epTake_memOk hu₂
            · exact State.modCore_memOk_of_arr hu₂ fun _ => rfl

-- Checking the nested matches of this body takes the kernel deeper than its default; so for the two others with this option.
set_option maxRecDepth 3000 in
theorem execMdrain_memOk {f : FmtE} (h : s.memOk = true) {t' : State} (ht : execMdrain f s = .next t') : t'.memOk = true := by
  rw [execMdrain] at ht
  refine onSplit_memOk (fun c => ?_) ht
  split
  · exact State.fatal_memOk h
  · exact h
  · extract_lets -underBinder kind acc reg b k base pitch off kimg spans rows inEntry start dst tab
    split
    · exact State.illop_memOk h
    · split
      · exact State.engRanges_error_memOk h ‹_›
      · split
        · exact State.issueRead_error_memOk h ‹_›
        · exact State.epFlow_memOk (State.put_memOk (State.fresh_memOk (State.issueRead_memOk h ‹_›)))

theorem State.runRow_memOk {core : ℕ} {d : Drain} {row : ℕ × List Word} (h : s.memOk = true) : (s.runRow core d row).memOk = true := by
  rw [State.runRow]
  refine foldl_memOk (State.modCore_memOk_of_arr h fun _ => rfl) fun t b h1 => ?_
  split
  · exact State.epRun_memOk h1
  · exact h1

theorem execDrainRow_memOk {core : ℕ} (h : s.memOk = true) {t' : State} (ht : execDrainRow core s = .next t') : t'.memOk = true := by
  rw [execDrainRow] at ht
  cases ht
  split
  · split
    · exact h
    · extract_lets s1
      have hs1 : s1.memOk = true := State.modTeam_memOk h
      split
      · exact h
      · split
        · exact h
        · extract_lets s2 s3 s4
          have hs2 : s2.memOk = true := State.runRow_memOk hs1
          have hs3 : s3.memOk = true := State.cmdOut_memOk (State.modCore_memOk_of_arr hs2 fun _ => rfl)
          have hs4 : s4.memOk = true := by
            unfold s4
            split
            · exact State.modTeam_memOk hs3
            · exact hs3
          split
          · exact State.epSettle_memOk (State.settle_memOk hs4)
          · exact State.modCore_memOk_of_arr hs2 fun _ => rfl
  · exact h

theorem execBufferEntryTake_memOk {team cmd : ℕ} (h : s.memOk = true) {t' : State} (ht : execBufferEntryTake team cmd s = .next t') :
    t'.memOk = true := by
  rw [execBufferEntryTake] at ht
  cases ht
  split
  · exact h
  · extract_lets r orig orig1
    split
    · exact h
    · split
      · exact State.settle_memOk (State.modTeam_memOk h)
      · exact State.epFlow_memOk h
      · exact h

/-! ### `Machine/Tasks` -/

theorem State.selfEnd_memOk {x die va : ℕ} (h : s.memOk = true) : (s.selfEnd x die va).memOk = true := State.endContext_memOk h

theorem State.modTask_memOk {k : ℕ} {f : Task → Task} (h : s.memOk = true) : (s.modTask k f).memOk = true := h

theorem State.writeState_memOk {k die v : ℕ} {core : Option ℕ} (h : s.memOk = true) : (s.writeState k die v core).memOk = true := by
  fun_cases s.writeState k die v core with
  | case1 => exact h
  | case2 => exact State.vWrite_memOk (State.modTask_memOk h) ‹_›
  | case3 => exact State.selfEnd_memOk (State.modTask_memOk h)

theorem State.makeReady_memOk {k die : ℕ} {core : Option ℕ} (h : s.memOk = true) : (s.makeReady k die core).memOk = true := by
  rw [State.makeReady]
  extract_lets s1
  have hs1 : s1.memOk = true := State.modTask_memOk h
  split
  · exact h
  · split
    · exact State.writeState_memOk hs1
    · exact hs1

theorem State.nodeSet_memOk {die : ℕ} {k : Task} {off v : ℕ} {core : Option ℕ} (h : s.memOk = true) :
    (s.nodeSet die k off v core).memOk = true := by
  rw [State.nodeSet]
  split
  · exact State.vWrite_memOk h ‹_›
  · exact State.selfEnd_memOk h

theorem State.nodeLost_memOk {die : ℕ} {k : Task} (h : s.memOk = true) {t' : State} (ht : s.nodeLost die k = some t') :
    t'.memOk = true := by
  rw [State.nodeLost] at ht
  split at ht
  · cases ht
  · cases ht
    exact State.selfEnd_memOk h
  · cases ht
    exact State.selfEnd_memOk h

theorem State.finishGrid_memOk {k die : ℕ} {dec : State → ℕ → State} {core : Option ℕ} (h : s.memOk = true)
    (hdec : ∀ t a, t.memOk = true → (dec t a).memOk = true) : (s.finishGrid k die dec core).memOk = true := by
  rw [State.finishGrid]
  split
  · exact h
  · refine State.writeState_memOk (foldl_memOk h ?_)
    intro t a ht
    split
    · exact ht
    · exact hdec t a ht

theorem State.decDep_memOk {fuel die x rec amount : ℕ} {core : Option ℕ} (h : s.memOk = true) :
    (s.decDep fuel die x rec amount core).memOk = true := by
  induction fuel generalizing s rec amount with
  | zero =>
    rw [State.decDep]
    exact h
  | succ n ih =>
    rw [State.decDep]
    split
    · exact State.selfEnd_memOk h
    · extract_lets r old new s1
      have hs1 : s1.memOk = true := State.spanWrite_memOk (State.spanRead_memOk h)
      clear_value s1
      split
      · exact hs1
      · split
        · extract_lets s2
          have hs2 : s2.memOk = true := by
            unfold s2
            split
            · exact State.makeReady_memOk hs1
            · exact hs1
          clear_value s2
          split
          · rename_i u he
            split at he
            · exact State.nodeLost_memOk hs2 he
            · cases he
          · split
            · exact State.finishGrid_memOk hs2 fun _ _ ht => ih ht
            · exact hs2
        · exact hs1

theorem State.decrement_memOk {die x rec amount : ℕ} {core : Option ℕ} (h : s.memOk = true) :
    (s.decrement die x rec amount core).memOk = true := State.decDep_memOk h

theorem State.settleNode_memOk {k die : ℕ} {core : Option ℕ} (h : s.memOk = true) : (s.settleNode k die core).memOk = true := by
  fun_cases s.settleNode k die core with
  | case3 => exact State.nodeLost_memOk h ‹_›
  | case4 => exact State.finishGrid_memOk h fun _ _ ht => State.decrement_memOk ht
  | _ => exact h

theorem State.createTask_memOk {die x rec : ℕ} {core : Option ℕ} (h : s.memOk = true) :
    (s.createTask die x rec core).1.memOk = true := by
  rw [State.createTask]
  split
  · exact State.selfEnd_memOk h
  · extract_lets r s1 b shape
    have hr : r.1.memOk = true := State.spanRead_memOk h
    have hs1 : s1.memOk = true := hr
    split
    · exact hs1
    · split
      · exact hs1
      · split
        · exact hs1
        · split
          · exact hs1
          · extract_lets s2 t
            have hs2 : s2.memOk = true := State.recallSpan_memOk hs1
            split
            · exact hs1
            · split
              rename_i u _ he
              have hu : u.memOk = true := memOk_of_fst (State.fresh_memOk hs2) he
              extract_lets s3 s4
              have hs3 : s3.memOk = true := State.modCtx_memOk hu
              have hs4 : s4.memOk = true := State.writeState_memOk hs3
              split
              · exact State.settleNode_memOk (State.makeReady_memOk hs4)
              · exact hs4

theorem State.nodeWritten_memOk {k die i : ℕ} {core : Option ℕ} (h : s.memOk = true) : (s.nodeWritten k die i core).memOk = true := by
  fun_cases s.nodeWritten k die i core with
  | case1 => exact h
  | case2 => exact State.nodeLost_memOk h ‹_›
  | case3 => exact State.settleNode_memOk (State.nodeSet_memOk (State.modTask_memOk h))

theorem State.launchDone_memOk {k die launch : ℕ} (h : s.memOk = true) : (s.launchDone k die launch).memOk = true := by
  fun_cases s.launchDone k die launch with
  | case3 => exact State.nodeLost_memOk h ‹_›
  | case4 => exact State.settleNode_memOk (State.nodeSet_memOk (State.modTask_memOk h))
  | _ => exact h

theorem execTasknew_memOk {f : FmtE} (h : s.memOk = true) {t' : State} (ht : execTasknew f s = .next t') : t'.memOk = true := by
  rw [execTasknew] at ht
  refine onSplit_memOk (fun c => ?_) ht
  dsimp only
  split
  · exact h
  · split
    · exact State.illop_memOk h
    · split
      · exact State.createTask_memOk h
      · exact State.effected_memOk (State.createTask_memOk h)

theorem execTaskdec_memOk {f : FmtE} (h : s.memOk = true) {t' : State} (ht : execTaskdec f s = .next t') : t'.memOk = true := by
  rw [execTaskdec] at ht
  refine onSplit_memOk (fun c => ?_) ht
  extract_lets rec_ amount s1
  have hs1 : s1.memOk = true := State.decrement_memOk h
  split
  · exact h
  · split
    · exact State.illop_memOk h
    · split
      · exact State.effected_memOk hs1
      · exact hs1

set_option maxRecDepth 3000 in
theorem execTemit_memOk {f : FmtE} (h : s.memOk = true) {t' : State} (ht : execTemit f s = .next t') : t'.memOk = true := by
  rw [execTemit] at ht
  refine onSplit_memOk (fun c => ?_) ht
  split
  · exact h
  · extract_lets -underBinder die glb pd node src
    split
    · exact State.illop_memOk h
    · split
      · exact State.illop_memOk h
      · split
        · exact State.engRanges_error_memOk h ‹_›
        · split
          · exact State.nodeLost_memOk h ‹_›
          · extract_lets -underBinder resv late r s₁ s₂
            have hr : r.1.memOk = true := by
              unfold r
              split
              · exact State.pick_memOk h
              · exact h
            have hs₂ : s₂.memOk = true := State.nodeSet_memOk hr
            split
            · exact State.effected_memOk h
            · split
              · exact State.effected_memOk hr
              · split
                · exact hs₂
                · exact State.put_memOk (State.fresh_memOk hs₂)

theorem execGraphRecordWritten_memOk {team cmd : ℕ} (h : s.memOk = true) {t' : State}
    (ht : execGraphRecordWritten team cmd s = .next t') : t'.memOk = true := by
  rw [execGraphRecordWritten] at ht
  cases ht
  split
  · exact h
  · split
    · extract_lets r s1
      have hr : r.1.memOk = true := by
        unfold r
        refine foldl_fst_memOk h ?_
        rintro ⟨t₁, acc₁⟩ b h1
        extract_lets q
        exact State.engRead_memOk h1
      have hs1 : s1.memOk = true := State.cmdDone_memOk hr
      split
      · exact h
      · split
        · exact State.needPeers_memOk h ‹_›
        · split
          · exact hs1
          · split
            · exact State.selfEnd_memOk hs1
            · rename_i u he
              have hu : u.memOk = true := State.vWrite_memOk hs1 he
              exact State.nodeWritten_memOk hu
    · exact h

theorem execHostTaskDoorbell_memOk {ctx : ℕ} {rec : DWord} (h : s.memOk = true) {t' : State}
    (ht : execHostTaskDoorbell ctx rec s = .next t') : t'.memOk = true := by
  rw [execHostTaskDoorbell] at ht
  cases ht
  extract_lets r
  have hr : r.1.memOk = true := by
    unfold r
    split
    · exact h
    · exact State.createTask_memOk h
  split
  · exact h
  · exact State.modCtx_memOk hr

theorem State.queueDesc_error_memOk {c : Cur} {a : ℕ} (h : s.memOk = true) {t' : State} (ht : s.queueDesc c a = .error t') :
    t'.memOk = true := by
  revert ht
  fun_cases s.queueDesc c a with
  | case1 =>
    rintro ⟨⟩
    exact State.engRanges_error_memOk h ‹_›
  | case2 =>
    rintro ⟨⟩
    exact State.selfEnd_memOk h
  | case3 => rintro ⟨⟩
  | case4 =>
    rintro ⟨⟩
    exact State.illop_memOk h

theorem State.pullItem_memOk {tid : ℕ} {t : Team} {q : QDesc} {loc : ℕ} (h : s.memOk = true) {t' : State}
    (ht : s.pullItem tid t q loc = some t') : t'.memOk = true := by
  rw [State.pullItem] at ht
  split at ht
  · cases ht
  · have ht' : t'.memOk = true := State.vWrite_memOk (State.l1Clear_memOk (State.arrWrite_memOk h)) ht
    exact State.vWrite_memOk (State.l1Clear_memOk (State.arrWrite_memOk h)) ht

set_option maxRecDepth 3000 in
theorem execQpull_memOk {f : FmtE} (h : s.memOk = true) {t' : State} (ht : execQpull f s = .next t') : t'.memOk = true := by
  rw [execQpull] at ht
  refine onSplit_memOk (fun c => ?_) ht
  split
  · exact h
  · extract_lets -underBinder t loc
    split
    · exact State.illop_memOk h
    · split
      · exact State.queueDesc_error_memOk h ‹_›
      · split
        · exact State.illop_memOk h
        · extract_lets -underBinder slot
          split
          · exact State.engRanges_error_memOk h ‹_›
          · extract_lets -underBinder answer
            have hanswer {u : State} {v : Word} (hu : u.memOk = true) : (answer u v).memOk = true := State.effected_memOk hu
            split
            · split
              · exact hanswer (State.pullItem_memOk h ‹_›)
              · exact State.selfEnd_memOk h
            · split
              · exact hanswer h
              · split
                · exact hanswer h
                · exact State.put_memOk (State.fresh_memOk h)

theorem State.takeItem_memOk {c : Cur} {f : FmtE} (h : s.memOk = true) {r} (ht : s.takeItem c f = some r) : r.1.memOk = true := by
  rw [State.takeItem] at ht
  split at ht
  · cases ht
  · split at ht
    · cases ht
    · split at ht
      · obtain ⟨a, ha, rfl⟩ := Option.map_eq_some_iff.mp ht
        exact State.vWrite_memOk h ha
      · cases ht

theorem execQpullWake_memOk {r : Ref} (h : s.memOk = true) {t' : State} (ht : execQpullWake r s = .next t') : t'.memOk = true := by
  rw [execQpullWake] at ht
  cases ht
  split
  · exact h
  · split
    · split
      · extract_lets wake
        split
        · exact h
        · split
          · exact h
          · split
            · split
              · rename_i u he
                have hu : u.memOk = true := State.pullItem_memOk h he
                dsimp only [wake]
                exact State.cmdDone_memOk (State.modSplit_memOk (State.modGroup_memOk hu))
              · exact State.selfEnd_memOk h
            · split
              · dsimp only [wake]
                exact State.cmdDone_memOk (State.modSplit_memOk (State.modGroup_memOk h))
              · exact h
      · exact h
    · exact h

theorem State.pushAsk_error_memOk {c : Cur} {f : FmtE} (h : s.memOk = true) {t' : State} (ht : s.pushAsk c f = .error t') :
    t'.memOk = true := by
  revert ht
  fun_cases s.pushAsk c f with
  | case1 | case2 =>
    rintro ⟨⟩
    exact State.illop_memOk h
  | case3 d _ a _ =>
    intro ht
    cases hq : s.queueDesc c a with
    | error u =>
      rw [hq] at ht
      cases ht
      exact State.queueDesc_error_memOk h hq
    | ok q =>
      rw [hq] at ht
      cases ht

theorem execQpush_memOk {f : FmtE} (h : s.memOk = true) {t' : State} (ht : execQpush f s = .next t') : t'.memOk = true := by
  rw [execQpush] at ht
  refine onSplit_memOk (fun c => ?_) ht
  extract_lets loc
  split
  · exact h
  · split
    · exact State.pushAsk_error_memOk h ‹_›
    · split
      · exact State.illop_memOk h
      · split
        · exact State.engRanges_error_memOk h ‹_›
        · split
          rename_i u _ he
          have hu : u.memOk = true := memOk_of_fst (State.fresh_memOk h) he
          extract_lets foot k
          exact State.put_memOk hu

theorem State.tryClose_memOk {tid id : ℕ} (h : s.memOk = true) : (s.tryClose tid id).memOk = true := by
  fun_cases s.tryClose tid id with
  | case3 =>
    rename_i u he
    have hu : u.memOk = true := State.vWrite_memOk h he
    exact State.modTeam_memOk hu
  | case4 => exact State.selfEnd_memOk h
  | _ => exact h

theorem execQpushClose_memOk {f : FmtE} (h : s.memOk = true) {t' : State} (ht : execQpushClose f s = .next t') : t'.memOk = true := by
  rw [execQpushClose] at ht
  refine onSplit_memOk (fun c => ?_) ht
  split
  · exact h
  · split
    · exact State.pushAsk_error_memOk h ‹_›
    · split
      rename_i u _ he
      have hu : u.memOk = true := memOk_of_fst (State.fresh_memOk h) he
      extract_lets k
      exact State.tryClose_memOk (State.put_memOk hu)

theorem execQpushAppend_memOk {team cmd : ℕ} (h : s.memOk = true) {t' : State} (ht : execQpushAppend team cmd s = .next t') :
    t'.memOk = true := by
  rw [execQpushAppend] at ht
  cases ht
  split
  · split
    · exact h
    · split
      · exact h
      · extract_lets r item
        have hr : r.1.memOk = true := by
          unfold r
          split
          · exact State.pick_memOk h
          · exact h
        clear_value r
        split
        · exact h
        · split
          · exact State.selfEnd_memOk hr
          · rename_i u he
            have hu : u.memOk = true := by
              split at he
              · cases he
                exact hr
              · obtain ⟨v, hv, he⟩ := Option.bind_eq_some_iff.mp he
                exact State.vWrite_memOk (State.vWrite_memOk hr hv) he
            exact foldl_memOk (State.cmdDone_memOk hu) fun _ _ ht => State.tryClose_memOk ht
  · exact h

theorem execArrv_memOk {f : FmtE} (h : s.memOk = true) {t' : State} (ht : execArrv f s = .next t') : t'.memOk = true := by
  rw [execArrv] at ht
  refine onSplit_memOk (fun c => ?_) ht
  extract_lets a n
  split
  · exact h
  · split
    · exact State.illop_memOk h
    · split
      · exact State.alignAt_memOk h
      · split
        · exact State.protAt_memOk h
        · split
          · exact State.engRanges_error_memOk h ‹_›
          · split
            · exact h
            · extract_lets r old last new s1 c1 c2
              have hr : r.1.memOk = true := State.engRead_memOk h
              have hs1 : s1.memOk = true := State.l1Clear_memOk (State.engWrite_memOk hr)
              exact State.effected_memOk hs1

/-! ### `Machine/Rings` -/

theorem ringIssue_memOk {i : Instr} {f : FmtE} {op : RingOp} (h : s.memOk = true) {t' : State} (ht : ringIssue i f op s = .next t') :
    t'.memOk = true := by
  rw [ringIssue] at ht
  refine onSplit_memOk (fun c => ?_) ht
  extract_lets a
  split
  · exact h
  · split
    · exact State.illop_memOk h
    · split
      · exact State.engRanges_error_memOk h ‹_›
      · exact State.issueRead_error_memOk h ‹_›
      · rename_i u _ _ he
        have hu : u.memOk = true := State.issueRead_memOk h he
        extract_lets c1 d ms target
        split
        · exact State.illop_memOk hu
        · extract_lets k k1 pages orig cmd
          split
          · exact State.illop_memOk hu
          · split
            · exact State.engRanges_error_memOk hu ‹_›
            · split
              rename_i u1 _ he1
              have hu1 : u1.memOk = true := memOk_of_fst (State.fresh_memOk hu) he1
              extract_lets c2 orig1 t
              exact State.modTeam_memOk (State.put_memOk hu1)

theorem execRag_memOk {f : FmtE} (h : s.memOk = true) {t' : State} (ht : execRag f s = .next t') : t'.memOk = true :=
  ringIssue_memOk h ht

theorem execRrs_memOk {f : FmtE} (h : s.memOk = true) {t' : State} (ht : execRrs f s = .next t') : t'.memOk = true :=
  ringIssue_memOk h ht

theorem execRhnd_memOk {f : FmtE} (h : s.memOk = true) {t' : State} (ht : execRhnd f s = .next t') : t'.memOk = true :=
  ringIssue_memOk h ht

theorem State.heldRead_memOk {tid x : ℕ} {pages : SMap DWord} {a n : ℕ} (h : s.memOk = true) :
    (s.heldRead tid x pages a n).1.memOk = true := by
  rw [State.heldRead]
  refine foldl_fst_memOk h ?_
  rintro ⟨t₁, acc₁⟩ b h1
  extract_lets r
  exact State.engRead_memOk h1

theorem State.heldWrite_memOk {tid x : ℕ} {pages : SMap DWord} {a : ℕ} {bs : List Byte} (h : s.memOk = true) :
    (s.heldWrite tid x pages a bs).memOk = true := by
  rw [State.heldWrite]
  refine foldl_fst_memOk h ?_
  rintro ⟨t₁, acc₁⟩ b h1
  exact State.engWrite_memOk h1

theorem State.readTile_memOk {tid : ℕ} {t : Team} {k : RingCmd} {tile : ℕ} (h : s.memOk = true) :
    (s.readTile tid t k tile).1.memOk = true := by
  rw [State.readTile]
  refine foldl_fst_memOk h ?_
  rintro ⟨t₁, acc₁⟩ b h1
  extract_lets r
  have hr : r.1.memOk = true := State.heldRead_memOk h1
  split
  · exact h1
  · exact hr

theorem State.deliverTo_memOk {t : Team} {k : RingCmd} {die tid : ℕ} (h : s.memOk = true) {r}
    (ht : s.deliverTo t k die tid = some r) : r.1.memOk = true := by
  revert ht
  fun_cases s.deliverTo t k die tid with
  | case1 | case2 =>
    rintro ⟨⟩
    exact h
  | case3 | case4 => rintro ⟨⟩
  | case5 _ _ _ rs _ u i he =>
    rintro ⟨⟩
    have hchoice : (if rs.isEmpty = true then (s, 0) else s.pick (rs.length + 1)).1.memOk = true := by
      split
      · exact h
      · exact State.pick_memOk h
    exact memOk_of_fst hchoice he

theorem State.landRows_memOk {tid : ℕ} {t : Team} {k : RingCmd} {rcv : Option ℕ} {rows : List (ℕ × List Byte)} (h : s.memOk = true) :
    (s.landRows tid t k rcv rows).memOk = true := by
  rw [State.landRows]
  refine foldl_memOk h fun t1 b h1 => ?_
  split
  · exact State.heldWrite_memOk h1
  · split
    · split
      · exact State.arrWrite_memOk h1
      · exact h1
    · exact h1

theorem State.bumpCounter_memOk {tid x : ℕ} {pages : SMap DWord} {a : ℕ} (h : s.memOk = true) :
    (s.bumpCounter tid x pages a).memOk = true := by
  have hr : (s.heldRead tid x pages a 4).1.memOk = true := State.heldRead_memOk h
  have hw (b : List Byte) : ((s.heldRead tid x pages a 4).1.heldWrite tid x pages a b).memOk = true := State.heldWrite_memOk hr
  fun_cases s.bumpCounter tid x pages a with
  | case1 => exact State.putPeer_memOk h
  | case2 r => exact hw _

theorem State.modRing_memOk {tid id : ℕ} {f : RingCmd → RingCmd} (h : s.memOk = true) : (s.modRing tid id f).memOk = true :=
  State.modTeam_memOk h

theorem State.ringOut_memOk {tid id x : ℕ} {k : RingCmd} (h : s.memOk = true) : (s.ringOut tid id x k).memOk = true :=
  State.settle_memOk (State.cmdOut_memOk h)

theorem State.tileAsks_memOk {tid id : ℕ} {t : Team} {k : RingCmd} {tile : ℕ} (h : s.memOk = true) {t' : State}
    (ht : s.tileAsks tid id t k tile = some t') : t'.memOk = true := by
  rw [State.tileAsks] at ht
  split at ht
  · cases ht
  · have ht' : t'.memOk = true := State.needPeers_memOk h ht
    exact State.needPeers_memOk h ht

theorem State.ringTileDone_memOk {tid id tile : ℕ} (h : s.memOk = true) : (s.ringTileDone tid id tile).memOk = true := by
  rw [State.ringTileDone]
  split
  · split
    · exact State.ringOut_memOk (State.heldWrite_memOk (State.modRing_memOk h))
    · exact State.modRing_memOk h
  · exact State.modRing_memOk h

theorem State.takeTile_memOk {x : ℕ} {k : RingCmd} {tile : ℕ} (h : s.memOk = true) : (s.takeTile x k tile).memOk = true := by
  rw [State.takeTile]
  split <;> exact h

theorem State.forwardTile_memOk {tid : ℕ} {t : Team} {k : RingCmd} {tile : ℕ} {inc : Option (List ℕ)} {src : List (List Byte)}
    {keep : State → State × Bool} (hkeep : ∀ u, u.memOk = true → (keep u).1.memOk = true) (h : s.memOk = true) :
    (s.forwardTile tid t k tile inc src keep).1.memOk = true := by
  rw [State.forwardTile]
  refine foldl_fst_memOk h fun z r hz => ?_
  extract_lets ra old es new
  have hold : old.1.memOk = true := by
    unfold old
    split
    · exact State.heldRead_memOk hz
    · exact hz
  have hnew : new.1.memOk = true := foldl_fst_memOk hold fun y _ hy => hkeep y.1 hy
  dsimp only
  split
  · exact State.heldWrite_memOk hnew
  · exact hold

theorem execRingTileAccept_memOk {cmd tile : ℕ} (h : s.memOk = true) {t' : State} (ht : execRingTileAccept cmd tile s = .next t') :
    t'.memOk = true := by
  rw [execRingTileAccept] at ht
  cases ht
  split
  · exact h
  · split
    · exact h
    · split
      · exact State.tileAsks_memOk h ‹_›
      · split
        · split
          · exact h
          · exact State.modRing_memOk (State.readTile_memOk h)
        · split
          · exact h
          · extract_lets path next r o hd
            have ho : o.1.memOk = true := State.forwardTile_memOk (fun _ hu => hu) (State.readTile_memOk (State.takeTile_memOk h))
            split
            · exact h
            · exact State.ringTileDone_memOk ho

theorem State.landing_memOk {tid : ℕ} {t : Team} {k : RingCmd} {tile : ℕ} (h : s.memOk = true) {r}
    (ht : s.landing tid t k tile = some r) : r.1.memOk = true := by
  rw [State.landing] at ht
  extract_lets r1 r2 at ht
  have hr1 : r1.1.memOk = true := State.readTile_memOk (State.takeTile_memOk h)
  have hr2 : r2.1.memOk = true := by
    unfold r2
    split at ht
    · cases ht
    · split at ht
      · obtain ⟨a, ha, rfl⟩ := Option.map_eq_some_iff.mp ht
        split
        · exact h
        · exact State.readTile_memOk h
      · cases ht
        split
        · exact h
        · exact State.readTile_memOk h
  split at ht
  · cases ht
  · split at ht
    · obtain ⟨a, ha, rfl⟩ := Option.map_eq_some_iff.mp ht
      exact hr1
    · cases ht
      exact hr2

theorem execRingTileArrive_memOk {cmd tile : ℕ} (h : s.memOk = true) {t' : State} (ht : execRingTileArrive cmd tile s = .next t') :
    t'.memOk = true := by
  rw [execRingTileArrive] at ht
  cases ht
  split
  · exact h
  · split
    · exact h
    · split
      · exact State.tileAsks_memOk h ‹_›
      · split
        · exact h
        · rename_i u rcv rows he
          obtain ⟨r, hr, hm⟩ := Option.bind_eq_some_iff.mp he
          obtain ⟨d, hd, hq⟩ := Option.map_eq_some_iff.mp hm
          cases hq
          exact State.ringTileDone_memOk (State.bumpCounter_memOk (State.landRows_memOk (State.deliverTo_memOk (State.landing_memOk h hr) hd)))

theorem State.tileRow_memOk {cmd tile row : ℕ} (h : s.memOk = true) : (s.tileRow cmd tile row).memOk = true := by
  fun_cases s.tileRow cmd tile row with
  | case3 tid t q k _ _ u rcv x he =>
    obtain ⟨r, hr, hb⟩ := Option.bind_eq_some_iff.mp he
    obtain ⟨d, hd, hx⟩ := Option.bind_eq_some_iff.mp hb
    obtain ⟨y, -, hq⟩ := Option.map_eq_some_iff.mp hx
    cases hq
    have hland : State.memOk { r.1 with tiles := s.tiles } = true := State.landing_memOk h hr
    exact State.modRing_memOk (State.landRows_memOk (State.deliverTo_memOk hland hd))
  | _ => exact h

theorem execRwait_memOk {f : FmtE} (h : s.memOk = true) {t' : State} (ht : execRwait f s = .next t') : t'.memOk = true := by
  rw [execRwait] at ht
  refine onSplit_memOk (fun c => ?_) ht
  extract_lets a
  split
  · exact h
  · split
    · exact State.alignAt_memOk h
    · split
      · exact State.protAt_memOk h
      · split
        · exact State.engRanges_error_memOk h ‹_›
        · extract_lets place k
          split
          rename_i u _ he
          have hu : u.memOk = true := memOk_of_fst (State.fresh_memOk h) he
          extract_lets c1 orig
          exact State.put_memOk hu

theorem State.endWait_memOk {r : Ref} {id pd : ℕ} {ls : Lanes} {v : Bool} (h : s.memOk = true) :
    (s.endWait r id pd ls v).memOk = true := State.cmdDone_memOk (State.modSplit_memOk (State.modGroup_memOk h))

theorem execRwaitSatisfied_memOk {r : Ref} (h : s.memOk = true) {t' : State} (ht : execRwaitSatisfied r s = .next t') :
    t'.memOk = true := by
  rw [execRwaitSatisfied] at ht
  cases ht
  split
  · exact h
  · split
    · split
      · extract_lets v
        have hv : v.1.memOk = true := State.engRead_memOk h
        split
        · exact h
        · split
          · exact State.endWait_memOk h
          · split
            · exact h
            · split
              · exact State.needPeers_memOk h ‹_›
              · split
                · exact State.endWait_memOk (State.l1Clear_memOk hv)
                · exact State.unask_memOk h
      · exact h
    · exact h

theorem execRrank_memOk {f : FmtE} (h : s.memOk = true) {t' : State} (ht : execRrank f s = .next t') : t'.memOk = true := by
  rw [execRrank] at ht
  refine onSplit_memOk (fun c => ?_) ht
  split
  · exact h
  · split
    rename_i u _ he
    have hu : u.memOk = true := memOk_of_fst (State.fresh_memOk h) he
    extract_lets c1
    exact State.put_memOk hu

theorem State.landUnits_memOk {tid : ℕ} {t : Team} {k : RingCmd} {rcv : Option ℕ} {a : ℕ} {new : List Byte} (h : s.memOk = true) :
    (s.landUnits tid t k rcv a new).memOk = true := by
  rw [State.landUnits]
  refine foldl_memOk h fun t1 b h1 => ?_
  extract_lets lo n q
  have hq : q.1.memOk = true := State.pick_memOk h1
  split
  · exact hq
  · exact State.landRows_memOk hq

theorem State.cutTile_memOk {tid : ℕ} {t : Team} {k : RingCmd} {id tile : ℕ} (h : s.memOk = true) :
    (s.cutTile tid t k id tile).memOk = true := by
  fun_cases s.cutTile tid t k id tile with
  | case4 =>
    refine State.forwardTile_memOk (fun u hu => ?_) (State.readTile_memOk h)
    exact (State.pick_memOk hu : (u.pick 2).1.memOk = true)
  | case6 _ _ u rcv rows he =>
    obtain ⟨r, hr, hm⟩ := Option.bind_eq_some_iff.mp he
    obtain ⟨d, hd, hq⟩ := Option.map_eq_some_iff.mp hm
    cases hq
    exact foldl_memOk (State.deliverTo_memOk (State.landing_memOk h hr) hd) fun _ _ h1 => State.landUnits_memOk h1
  | _ => exact h

theorem State.wrapCmd_memOk {tid id : ℕ} (h : s.memOk = true) : (s.wrapCmd tid id).memOk = true := by
  rw [State.wrapCmd]
  split
  · extract_lets s1
    have hs1 : s1.memOk = true := by
      unfold s1
      split
      · exact foldl_memOk h fun _ _ h1 => State.cutTile_memOk h1
      · exact h
    exact State.ringOut_memOk (foldl_memOk hs1 fun _ _ h1 => State.heldWrite_memOk h1)
  · exact h

theorem State.wrapWait_memOk {tid id : ℕ} (h : s.memOk = true) : (s.wrapWait tid id).memOk = true := by
  rw [State.wrapWait]
  split
  · split
    · exact State.endWait_memOk h
    · exact State.modTeam_memOk h
  · exact h

theorem State.reportWrap_memOk {x : ℕ} (h : s.memOk = true) : (s.reportWrap x).memOk = true := State.faultPush_memOk h

theorem execWrapEffect_memOk (h : s.memOk = true) {t' : State} (ht : execWrapEffect s = .next t') : t'.memOk = true := by
  rw [execWrapEffect] at ht
  cases ht
  extract_lets devs hits s1 s2 s3 orig
  have hs1 : s1.memOk = true := by
    unfold s1
    refine foldl_memOk h fun t b h1 => ?_
    split
    · exact State.wrapCmd_memOk h1
    · exact h1
  have hs2 : s2.memOk = true := by
    unfold s2
    refine foldl_memOk hs1 fun t b h1 => ?_
    split
    · exact h1
    · exact State.wrapWait_memOk h1
  have hs3 : s3.memOk = true := hs2
  split
  · exact h
  · extract_lets s4
    have hs4 : s4.memOk = true := hs3
    exact foldl_memOk hs4 fun _ _ h1 => State.reportWrap_memOk h1

/-! ### `Machine/SlotTable` -/

theorem State.slref_memOk {b : Bool} (h : s.memOk = true) : (s.slref b).memOk = true := h

theorem State.enableTable_memOk {die x : ℕ} {v : DWord} (h : s.memOk = true) : (s.enableTable die x v).memOk = true := by
  rw [State.enableTable]
  split <;> exact State.slref_memOk (State.modFab_memOk h)

theorem State.disableTable_memOk {v : DWord} (h : s.memOk = true) : (s.disableTable v).memOk = true := State.modFab_memOk h

theorem State.writeSlottab_memOk {die x : ℕ} {v : DWord} (h : s.memOk = true) : (s.writeSlottab die x v).memOk = true := by
  rw [State.writeSlottab]
  split
  · exact State.enableTable_memOk h
  · exact State.disableTable_memOk h

theorem execSlottabEnable_memOk {ctx : ℕ} {value : DWord} (h : s.memOk = true) {t' : State}
    (ht : execSlottabEnable ctx value s = .next t') : t'.memOk = true := by
  rw [execSlottabEnable] at ht
  cases ht
  split
  · exact State.enableTable_memOk h
  · exact h

theorem execSlottabDisable_memOk {value : DWord} (h : s.memOk = true) {t' : State} (ht : execSlottabDisable value s = .next t') :
    t'.memOk = true := by
  rw [execSlottabDisable] at ht
  cases ht
  split
  · exact h
  · exact State.disableTable_memOk h

theorem execSlotTableTakeEffect_memOk (h : s.memOk = true) {t' : State} (ht : execSlotTableTakeEffect s = .next t') :
    t'.memOk = true := by
  rw [execSlotTableTakeEffect] at ht
  cases ht
  split
  · split
    · exact h
    · exact State.modFab_memOk (State.modFab_memOk h)
  · exact h

/-! ### `Machine/Fabric` -/

theorem State.placeReq_memOk {c : Cur} {i : Instr} {k : ℕ} {q : Conn} {a : RemoteAsk} (h : s.memOk = true) :
    (s.placeReq c i k q a).memOk = true := by
  rw [State.placeReq]
  extract_lets c1 tags ready post
  split
  · exact State.engRanges_error_memOk h ‹_›
  · extract_lets foot orig cmd
    split
    rename_i u _ he
    have hu : u.memOk = true := memOk_of_fst (State.fresh_memOk h) he
    extract_lets r s1 s2
    have hs1 : s1.memOk = true := State.put_memOk hu
    have hs2 : s2.memOk = true := State.modFab_memOk hs1
    split
    · exact State.resetConn_memOk hs2
    · exact State.showConn_memOk hs2

theorem remoteIssue_memOk {i : Instr} {f : FmtE} {ask : State → Cur → Except State (State × Option RemoteAsk)} (hask : AskKeeps ask)
    (h : s.memOk = true) {t' : State} (ht : remoteIssue i f s ask = .next t') : t'.memOk = true := by
  rw [remoteIssue] at ht
  refine onSplit_memOk (fun c => ?_) ht
  obtain ⟨hok, herror⟩ := hask s c h
  extract_lets k
  split
  · exact h
  · split
    · exact State.illop_memOk h
    · split
      · exact herror _ ‹_›
      · exact State.illop_memOk (hok _ ‹_›)
      · exact State.placeReq_memOk (hok _ ‹_›)

theorem execRput_memOk {f : FmtE} (h : s.memOk = true) {t' : State} (ht : execRput f s = .next t') : t'.memOk = true :=
  remoteIssue_memOk (askKeeps_of_map fun _ _ => rfl) h ht

theorem execRget_memOk {f : FmtE} (h : s.memOk = true) {t' : State} (ht : execRget f s = .next t') : t'.memOk = true :=
  remoteIssue_memOk (askKeeps_of_map fun _ _ => rfl) h ht

theorem execRatom_memOk {f : FmtE} (h : s.memOk = true) {t' : State} (ht : execRatom f s = .next t') : t'.memOk = true :=
  remoteIssue_memOk (askKeeps_of_map fun _ _ => rfl) h ht

theorem postAsk_error_memOk {get : Bool} {f : FmtE} {c : Cur} (h : s.memOk = true) {t' : State} (ht : postAsk get f s c = .error t') :
    t'.memOk = true := by
  revert ht
  fun_cases postAsk get f s c with
  | case1 =>
    rintro ⟨⟩
    exact State.engRanges_error_memOk h ‹_›
  | case2 =>
    rintro ⟨⟩
    exact State.issueRead_error_memOk h ‹_›
  | case3 => rintro ⟨⟩

theorem postAsk_memOk {get : Bool} {f : FmtE} {c : Cur} (h : s.memOk = true) {r} (ht : postAsk get f s c = .ok r) :
    r.1.memOk = true := by
  revert ht
  fun_cases postAsk get f s c with
  | case1 => rintro ⟨⟩
  | case2 => rintro ⟨⟩
  | case3 =>
    rintro ⟨⟩
    exact State.issueRead_memOk h ‹_›

theorem askKeeps_postAsk {get : Bool} {f : FmtE} : AskKeeps (postAsk get f) :=
  fun _ _ hu => ⟨fun _ hr => postAsk_memOk hu hr, fun _ hr => postAsk_error_memOk hu hr⟩

theorem execRpost_memOk {f : FmtE} (h : s.memOk = true) {t' : State} (ht : execRpost f s = .next t') : t'.memOk = true :=
  remoteIssue_memOk askKeeps_postAsk h ht

theorem execRpostGet_memOk {f : FmtE} (h : s.memOk = true) {t' : State} (ht : execRpostGet f s = .next t') : t'.memOk = true :=
  remoteIssue_memOk askKeeps_postAsk h ht

theorem execRcqw_memOk {f : FmtE} (h : s.memOk = true) {t' : State} (ht : execRcqw f s = .next t') : t'.memOk = true :=
  remoteIssue_memOk (askKeeps_of_map fun _ _ => rfl) h ht

theorem execWreg_memOk {f : FmtE} (h : s.memOk = true) {t' : State} (ht : execWreg f s = .next t') : t'.memOk = true := by
  rw [execWreg] at ht
  refine onSplit_memOk (fun c => ?_) ht
  extract_lets w base n p old win s1 key
  have hs1 : s1.memOk = true := State.modFab_memOk h
  split
  · exact h
  · split
    · exact State.protAt_memOk h
    · split
      · exact State.illop_memOk h
      · exact State.effected_memOk hs1

theorem execWrev_memOk {f : FmtE} (h : s.memOk = true) {t' : State} (ht : execWrev f s = .next t') : t'.memOk = true := by
  rw [execWrev] at ht
  refine onSplit_memOk (fun c => ?_) ht
  extract_lets w old s1
  have hs1 : s1.memOk = true := by
    unfold s1
    split
    · exact State.modFab_memOk h
    · exact h
  split
  · exact h
  · split
    · exact State.protAt_memOk h
    · split
      · exact State.illop_memOk h
      · exact State.effected_memOk hs1

theorem State.reqRead_memOk {r : Req} {off n : ℕ} (h : s.memOk = true) : (s.reqRead r off n).1.memOk = true := by
  rw [State.reqRead]
  refine foldl_fst_memOk h ?_
  rintro ⟨t₁, acc₁⟩ b h1
  extract_lets q
  have hq : q.1.memOk = true := State.freeBytes_memOk h1
  split
  · split
    · exact h1
    · exact hq
  · extract_lets x
    exact State.engRead_memOk h1

theorem State.reqWrite_memOk {x : ℕ} {r : Req} {off : ℕ} {bs : List Byte} (h : s.memOk = true) :
    (s.reqWrite x r off bs).memOk = true := by
  rw [State.reqWrite]
  refine foldl_fst_memOk h ?_
  rintro ⟨t₁, acc₁⟩ b h1
  extract_lets part s1
  have hs1 : s1.memOk = true := by
    unfold s1
    split
    · split
      · split
        · exact State.modTeam_memOk h1
        · exact State.arrWrite_memOk h1
      · exact h1
    · exact State.putPeer_memOk h1
    · exact State.engWrite_memOk h1
  exact hs1

theorem State.packetData_memOk {r : Req} {n : ℕ} (h : s.memOk = true) : (s.packetData r n).1.memOk = true := by
  rw [State.packetData]
  split
  · exact State.reqRead_memOk h
  · exact h
  · exact h

theorem State.reqAsks_memOk {c : Conn} {r : Req} (h : s.memOk = true) {t' : State} (ht : s.reqAsks c r = some t') :
    t'.memOk = true := by
  rw [State.reqAsks] at ht
  split at ht
  · have ht' : t'.memOk = true := State.needPeers_memOk h ht
    exact State.needPeers_memOk h ht
  · cases ht

theorem State.askPuts_memOk (h : s.memOk = true) : (s.askPuts).memOk = true := by
  rw [State.askPuts]
  refine foldl_memOk h fun t c ht => getD_memOk (fun {u} hu => ?_) ht
  obtain ⟨r, -, hu⟩ := Option.bind_eq_some_iff.mp hu
  exact State.reqAsks_memOk ht hu

theorem State.cutPacket_memOk {k hop : ℕ} {c : Conn} {r : Req} (h : s.memOk = true) : (s.cutPacket k hop c r).memOk = true :=
  State.modFab_memOk (State.modConn_memOk (State.packetData_memOk h))

theorem State.cutPage_memOk {t : Team} {hop key op : ℕ} {m : MemOp} {l : LaneOp} (h : s.memOk = true) :
    (s.cutPage t hop key op m l).memOk = true := State.modFab_memOk h

theorem State.cutAsk_memOk {hop : ℕ} {a : PeerAsk} (h : s.memOk = true) : (s.cutAsk hop a).memOk = true := State.modFab_memOk h

theorem State.cuttable_memOk (h : s.memOk = true) {x : ℕ × State} (hx : x ∈ s.cuttable) : x.2.memOk = true := by
  simp only [State.cuttable, List.mem_append, List.mem_filterMap] at hx
  rcases hx with (⟨c, -, hc⟩ | ⟨t, -, ht⟩) | ⟨a, -, ha⟩
  · split at hc
    · cases hc
      exact State.cutPacket_memOk h
    · cases hc
  · split at ht
    · obtain ⟨hop, -, rfl⟩ := Option.map_eq_some_iff.mp ht
      exact State.cutPage_memOk h
    · cases ht
  · split at ha
    · obtain ⟨hop, -, rfl⟩ := Option.map_eq_some_iff.mp ha
      exact State.cutAsk_memOk h
    · cases ha

theorem State.cutPackets_memOk {a : ℕ} (h : s.memOk = true) : (s.cutPackets a).memOk = true := by
  induction a generalizing s with
  | zero => exact h
  | succ a ih =>
    rw [State.cutPackets]
    split
    · exact h
    · rename_i u he
      exact ih (State.cuttable_memOk h (List.mem_of_find?_eq_some he))

theorem State.pump_memOk (h : s.memOk = true) : (s.pump).memOk = true := State.cutPackets_memOk (State.askPuts_memOk h)

theorem State.markSent_memOk {q : Queued} (h : s.memOk = true) : (s.markSent q).memOk = true := by
  rw [State.markSent]
  split
  · exact State.modConn_memOk h
  · exact State.modFab_memOk h

theorem State.carry_memOk {a : List Queued} {n : ℕ} (h : s.memOk = true) : (s.carry a n).1.memOk = true := by
  induction a generalizing s n with
  | nil => exact h
  | cons q qs ih =>
    rw [State.carry]
    split
    · exact ih (State.markSent_memOk h)
    · split
      · exact h
      · exact State.markSent_memOk h

theorem State.relayRefused_memOk {k seq at_ : ℕ} (h : s.memOk = true) : (s.relayRefused k seq at_).memOk = true := by
  rw [State.relayRefused]
  extract_lets peer
  split
  · split
    · extract_lets q
      split
      · exact h
      · exact State.modFab_memOk h
    · exact h
  · split
    · exact h
    · split
      · extract_lets q
        split
        · exact h
        · exact State.modFab_memOk h
      · exact h

theorem State.slotPeer_memOk {t : SlotTable} {peer n : ℕ} (h : s.memOk = true) : (s.slotPeer t peer n).memOk = true :=
  State.modFab_memOk (State.carry_memOk (State.modFab_memOk h))

theorem State.carryOn_memOk (h : s.memOk = true) : (s.carryOn).memOk = true := by
  rw [State.carryOn]
  split
  · exact h
  · extract_lets s1
    have hs1 : s1.memOk = true := State.pump_memOk (State.recallAll_memOk h)
    split
    · exact h
    · exact foldl_memOk hs1 fun _ _ h1 => State.slotPeer_memOk h1

theorem execFabricSlotBegin_memOk {slot : ℕ} {dark : List ℕ} (h : s.memOk = true) {t' : State}
    (ht : execFabricSlotBegin slot dark s = .next t') : t'.memOk = true := by
  rw [execFabricSlotBegin] at ht
  cases ht
  split
  · exact h
  · extract_lets met
    split
    · exact h
    · split
      · exact State.carryOn_memOk h
      · exact State.latchDark_memOk (State.carryOn_memOk (State.modFab_memOk h))

theorem State.stamp_memOk {peer count root : ℕ} (h : s.memOk = true) : (s.stamp peer count root).memOk = true := by
  rw [State.stamp]
  split
  · exact h
  · split
    · exact State.modFab_memOk h
    · exact h

theorem State.mgmtSend_memOk {chan : ℕ} {bytes : List Byte} (h : s.memOk = true) : (s.mgmtSend chan bytes).memOk = true := by
  rw [State.mgmtSend]
  extract_lets orig
  split
  · extract_lets orig1
    have horig1 : orig1.memOk = true := State.modFab_memOk h
    exact horig1
  · exact h

theorem State.mgmtReceive_memOk {chan : ℕ} {key : DWord} {bytes : List Byte} (h : s.memOk = true) :
    (s.mgmtReceive chan key bytes).memOk = true := by
  rw [State.mgmtReceive]
  split
  · split
    · exact State.modFab_memOk h
    · exact h
  · exact h

theorem State.remoteEnd_memOk {x die detail : ℕ} (h : s.memOk = true) : (s.remoteEnd x die detail).memOk = true :=
  State.endContext_memOk h

theorem State.takeAck_memOk {k : ℕ} {a : AckItem} (h : s.memOk = true) : (s.takeAck k a).memOk = true := by
  rw [State.takeAck]
  extract_lets x
  split
  · exact h
  · extract_lets get s1 bad pkts all up gone
    have hs1 : s1.memOk = true := by
      unfold s1
      split
      · split
        · exact State.reqWrite_memOk h
        · exact h
      · split
        · exact State.reqWrite_memOk h
        · exact h
      · exact h
    exact State.modFab_memOk (State.modConn_memOk hs1)

theorem State.dropOn_memOk {chan : ℕ} (h : s.memOk = true) : (s.dropOn chan).memOk = true := State.modFab_memOk h

theorem execFabricAckReceive_memOk {queue epoch : ℕ} {items : List AckItem} (h : s.memOk = true) {t' : State}
    (ht : execFabricAckReceive queue epoch items s = .next t') : t'.memOk = true := by
  rw [execFabricAckReceive] at ht
  cases ht
  split
  · exact h
  · extract_lets items1 bad s1 items2 s2 remote s3
    have hs1 : s1.memOk = true := foldl_memOk h fun _ _ h1 => State.dropOn_memOk h1
    have hs2 : s2.memOk = true := foldl_memOk hs1 fun _ _ h1 => State.takeAck_memOk h1
    have hs3 : s3.memOk = true := State.settleConn_memOk hs2
    split
    · exact hs1
    · split
      · exact State.remoteEnd_memOk hs3
      · exact hs3

theorem State.resendPages_memOk {key : ℕ} (h : s.memOk = true) : (s.resendPages key).memOk = true := by
  rw [State.resendPages]
  split
  · extract_lets q late
    split
    · exact h
    · exact State.modFab_memOk h
  · exact h

theorem execFabricRetransmit_memOk {queue : ℕ} (h : s.memOk = true) {t' : State} (ht : execFabricRetransmit queue s = .next t') :
    t'.memOk = true := by
  rw [execFabricRetransmit] at ht
  cases ht
  split
  · exact State.resendPages_memOk h
  · split
    · extract_lets due
      split
      · exact h
      · extract_lets q late
        split
        · exact h
        · exact State.modFab_memOk h
    · exact h

theorem State.peerAnswer_memOk {ask : ℕ} {bytes : List Byte} (h : s.memOk = true) : (s.peerAnswer ask bytes).memOk = true := by
  rw [State.peerAnswer]
  extract_lets rest
  split
  · exact h
  · extract_lets got s1
    have hs1 : s1.memOk = true := State.modFab_memOk (State.dropPages_memOk h)
    split
    · exact h
    · exact foldl_memOk hs1 fun _ _ h1 => State.settleConn_memOk h1

theorem State.resetAsks_memOk {x peer : ℕ} (h : s.memOk = true) : (s.resetAsks x peer).memOk = true := by
  rw [State.resetAsks]
  refine foldl_memOk h fun t b h1 => ?_
  extract_lets r
  have hr : r.1.memOk = true := by
    unfold r
    split
    · exact State.freeBytes_memOk h1
    · exact h1
  exact State.modFab_memOk hr

theorem State.resetPages_memOk {key : ℕ} (h : s.memOk = true) : (s.resetPages key).memOk = true := by
  rw [State.resetPages]
  extract_lets s1 s2
  have hs1 : s1.memOk = true := State.modFab_memOk h
  have hs2 : s2.memOk = true := State.resetAsks_memOk hs1
  split
  · exact h
  · split
    · exact State.remoteEnd_memOk hs2
    · exact hs2

theorem execConnectionReset_memOk {queue : ℕ} (h : s.memOk = true) {t' : State} (ht : execConnectionReset queue s = .next t') :
    t'.memOk = true := by
  rw [execConnectionReset] at ht
  cases ht
  split
  · exact State.resetPages_memOk h
  · split
    · exact h
    · extract_lets away
      split
      · exact State.modConn_memOk (State.resetConn_memOk h)
      · exact h

theorem execRpostDeadline_memOk {queue : ℕ} (h : s.memOk = true) {t' : State} (ht : execRpostDeadline queue s = .next t') :
    t'.memOk = true := by
  rw [execRpostDeadline] at ht
  cases ht
  split
  · exact h
  · extract_lets up
    exact State.settleConn_memOk (State.modConn_memOk h)

theorem execRcqwSatisfied_memOk {queue : ℕ} (h : s.memOk = true) {t' : State} (ht : execRcqwSatisfied queue s = .next t') :
    t'.memOk = true := by
  rw [execRcqwSatisfied] at ht
  cases ht
  split
  · exact h
  · extract_lets up
    split
    · split
      · split
        · exact h
        · exact State.settleConn_memOk (State.modConn_memOk h)
      · exact h
    · exact h

theorem State.dropPacket_memOk {p : Packet} (h : s.memOk = true) : (s.dropPacket p).memOk = true := State.dropOn_memOk h

theorem State.performPacket_memOk {p : Packet} {l : List (Place × ℕ)} {data : List Byte} {n : ℕ} (h : s.memOk = true) :
    (s.performPacket p l data n).1.memOk = true := by
  rw [State.performPacket]
  extract_lets r old x y v
  have hr : r.1.memOk = true := State.spanRead_memOk h
  split
  · exact State.spanWrite_memOk h
  · split
    · exact hr
    · exact State.spanWrite_memOk hr

theorem State.enableTag_memOk {x tag : ℕ} (h : s.memOk = true) : (s.enableTag x tag).1.memOk = true := by
  rw [State.enableTag]
  extract_lets tags
  split
  · split
    rename_i u _ he
    have hu : u.memOk = true := memOk_of_fst (State.fresh_memOk h) he
    extract_lets up
    exact State.modConn_memOk hu
  · split
    · exact h
    · exact State.modFab_memOk h

theorem State.sayAck_memOk {key : ℕ} {p : Packet} {a : AckItem} (h : s.memOk = true) : (s.sayAck key p a).memOk = true :=
  State.modFab_memOk h

theorem State.applyPacket_memOk {key : ℕ} {p : Packet} (h : s.memOk = true) : (s.applyPacket key p).memOk = true := by
  rw [State.applyPacket]
  extract_lets upto
  split
  · exact h
  · extract_lets skip n r s1 perf t status next s2 s3
    have hr : r.1.memOk = true := by
      unfold r
      split
      · exact h
      · split
        · exact h
        · extract_lets q
          exact State.performPacket_memOk h
    have hs1 : s1.memOk = true := hr
    have ht : t.1.memOk = true := by
      unfold t
      split
      · exact State.enableTag_memOk hs1
      · exact hs1
    have hs2 : s2.memOk = true := State.modFab_memOk ht
    have hs3 : s3.memOk = true := State.sayAck_memOk hs2
    split
    · exact State.remoteEnd_memOk hs3
    · exact hs3

theorem State.applyEarly_memOk {key a : ℕ} (h : s.memOk = true) : (s.applyEarly key a).memOk = true := by
  induction a generalizing s with
  | zero => exact h
  | succ a ih =>
    rw [State.applyEarly]
    split
    · exact h
    · split
      · exact h
      · extract_lets s1
        have hs1 : s1.memOk = true := State.modFab_memOk h
        refine ih ?_
        split
        · exact hs1
        · exact State.applyPacket_memOk hs1

theorem State.takePacket_memOk {p : Packet} (h : s.memOk = true) : (s.takePacket p).memOk = true := by
  rw [State.takePacket]
  extract_lets s1
  have hs1 : s1.memOk = true := State.modFab_memOk h
  split
  · split
    · split
      · exact h
      · split
        · split
          · exact State.modFab_memOk hs1
          · exact hs1
        · split
          · exact State.applyEarly_memOk (State.applyPacket_memOk hs1)
          · split
            · exact hs1
            · exact State.modFab_memOk hs1
    · split
      · exact h
      · split
        · split
          · exact State.modFab_memOk hs1
          · exact hs1
        · split
          · exact State.applyEarly_memOk (State.applyPacket_memOk hs1)
          · split
            · exact hs1
            · exact State.modFab_memOk hs1
  · split
    · exact h
    · split
      · split
        · exact State.modFab_memOk hs1
        · exact hs1
      · split
        · exact State.applyEarly_memOk (State.applyPacket_memOk hs1)
        · split
          · exact hs1
          · exact State.modFab_memOk hs1

theorem execFabricPacketReceive_memOk {p : Packet} (h : s.memOk = true) {t' : State} (ht : execFabricPacketReceive p s = .next t') :
    t'.memOk = true := by
  rw [execFabricPacketReceive] at ht
  cases ht
  split
  · exact h
  · split
    · exact State.takePacket_memOk h
    · exact State.dropPacket_memOk h

theorem execRelayForward_memOk {p : Packet} (h : s.memOk = true) {t' : State} (ht : execRelayForward p s = .next t') :
    t'.memOk = true := by
  rw [execRelayForward] at ht
  cases ht
  split
  · exact h
  · split
    · exact State.dropPacket_memOk h
    · split
      · exact h
      · exact State.modFab_memOk h

theorem execChannelIsolation_memOk {chan : ℕ} (h : s.memOk = true) {t' : State} (ht : execChannelIsolation chan s = .next t') :
    t'.memOk = true := by
  rw [execChannelIsolation] at ht
  cases ht
  split
  · exact State.latchDark_memOk (State.modFab_memOk h)
  · exact h

/-! ### `Machine/Strands` -/

theorem State.sTrap_memOk {c : Cur} {t : STrap} (h : s.memOk = true) : (s.sTrap c t).memOk = true := by
  unfold State.sTrap
  split
  · exact State.fatal_memOk h
  · exact State.fatal_memOk h
  · exact State.resumable_memOk h
  · exact State.illop_memOk h

theorem State.sPut_memOk {e : SEnv} {a : ℕ} {bs : List Byte} (h : s.memOk = true) {t' : State} (ht : s.sPut e a bs = .ok t') :
    t'.memOk = true := by
  rw [State.sPut] at ht
  split at ht
  · cases ht
    exact State.vWrite_memOk h ‹_›
  · cases ht

theorem State.sSet_memOk {e : SEnv} {a n v : ℕ} (h : s.memOk = true) {t' : State} (ht : s.sSet e a n v = .ok t') : t'.memOk = true :=
  State.sPut_memOk h ht

theorem State.hdrPut_memOk {e : SEnv} {a : Area} {hd : Hdr} (h : s.memOk = true) {t' : State} (ht : s.hdrPut e a hd = .ok t') :
    t'.memOk = true := State.sPut_memOk h ht

theorem State.setBucket_memOk {e : SEnv} {hd : Hdr} {g v : ℕ} (h : s.memOk = true) {t' : State} (ht : s.setBucket e hd g v = .ok t') :
    t'.memOk = true := State.sSet_memOk h ht

theorem State.setTop_memOk {e : SEnv} {k : Stack} {v : ℕ} (h : s.memOk = true) : (s.setTop e k v).memOk = true :=
  State.l1Refresh_memOk (State.homeWrite_memOk h)

theorem State.pop_memOk {e : SEnv} {die : ℕ} (h : s.memOk = true) {r} (ht : s.pop e die = .ok r) : r.1.memOk = true := by
  rw [State.pop] at ht
  obtain ⟨a₁, ha₁, ht⟩ := ok_of_bind ht
  split at ht
  · cases ht
    exact h
  · obtain ⟨a₂, ha₂, ht⟩ := ok_of_bind ht
    cases ht
    exact State.setTop_memOk h

theorem State.push_memOk {e : SEnv} {pfn : ℕ} (h : s.memOk = true) {t' : State} (ht : s.push e pfn = .ok t') : t'.memOk = true := by
  rw [State.push] at ht
  dsimp only at ht
  split at ht
  · obtain ⟨a₁, ha₁, ht⟩ := ok_of_bind ht
    cases ha₁
  · obtain ⟨a₁, ha₁, ht⟩ := ok_of_bind ht
    split at ht
    · obtain ⟨a₂, ha₂, ht⟩ := ok_of_bind ht
      cases ha₂
    · obtain ⟨a₂, ha₂, ht⟩ := ok_of_bind ht
      have hma₂ : a₂.memOk = true := State.sSet_memOk h ha₂
      cases ht
      exact State.setTop_memOk hma₂

theorem State.takeHdr_memOk {e : SEnv} {a : Area} (h : s.memOk = true) {r} (ht : s.takeHdr e a = .ok r) : r.1.memOk = true := by
  rw [State.takeHdr] at ht
  obtain ⟨a₁, ha₁, ht⟩ := ok_of_bind ht
  split at ht
  · cases ht
    exact h
  · obtain ⟨a₂, ha₂, ht⟩ := ok_of_bind ht
    obtain ⟨a₃, ha₃, ht⟩ := ok_of_bind ht
    obtain ⟨a₄, ha₄, ht⟩ := ok_of_bind ht
    have hma₄ : a₄.memOk = true := State.sSet_memOk h ha₄
    obtain ⟨a₅, ha₅, ht⟩ := ok_of_bind ht
    cases ht
    exact State.sSet_memOk hma₄ ha₅

theorem State.snew_memOk {e : SEnv} {shape bkt plt : ℕ} (h : s.memOk = true) {r} (ht : s.snew e shape bkt plt = .ok r) :
    r.1.memOk = true := by
  rw [State.snew] at ht
  split at ht
  · obtain ⟨a₁, ha₁, ht⟩ := ok_of_bind ht
    cases ha₁
  · obtain ⟨a₁, ha₁, ht⟩ := ok_of_bind ht
    obtain ⟨a₂, ha₂, ht⟩ := ok_of_bind ht
    have hma₂ : a₂.1.memOk = true := State.takeHdr_memOk h ha₂
    split at ht
    · rename_i u
      have hu : u.memOk = true := State.takeHdr_memOk h ha₂
      cases ht
      exact hma₂
    · rename_i u _
      have hu : u.memOk = true := State.takeHdr_memOk h ha₂
      extract_lets h1 at ht
      obtain ⟨a₂, ha₂, ht⟩ := ok_of_bind ht
      have hma₂ : a₂.memOk = true := State.hdrPut_memOk hma₂ ha₂
      obtain ⟨a₃, ha₃, ht⟩ := ok_of_bind ht
      cases ht
      exact State.sPut_memOk hma₂ ha₃

theorem State.copyOnAppend_memOk {e : SEnv} {a : Area} {hd : Hdr} {f : ℕ} (h : s.memOk = true) {r}
    (ht : s.copyOnAppend e a hd f = .ok r) : r.1.memOk = true := by
  rw [State.copyOnAppend] at ht
  obtain ⟨p, -, ht⟩ := ok_of_bind ht
  obtain ⟨data, -, ht⟩ := ok_of_bind ht
  obtain ⟨scales, -, ht⟩ := ok_of_bind ht
  obtain ⟨m, -, ht⟩ := ok_of_bind ht
  extract_lets rebase at ht
  obtain ⟨links, -, ht⟩ := ok_of_bind ht
  obtain ⟨s₁, hs₁, ht⟩ := ok_of_bind ht
  obtain ⟨s₂, hs₂, ht⟩ := ok_of_bind ht
  obtain ⟨s₃, hs₃, ht⟩ := ok_of_bind ht
  obtain ⟨s₄, hs₄, ht⟩ := ok_of_bind ht
  cases ht
  have hm₁ : s₁.memOk = true := by
    refine foldlM_ok (fun t : State => t.memOk = true) h (fun ht hstep => ?_) hs₁
    obtain ⟨l, -, hstep⟩ := ok_of_bind hstep
    obtain ⟨l', -, hstep⟩ := ok_of_bind hstep
    exact State.setBucket_memOk ht hstep
  exact State.sPut_memOk (State.sPut_memOk (State.sPut_memOk hm₁ hs₂) hs₃) hs₄

theorem State.addPage_memOk {e : SEnv} {a : Area} {hd : Hdr} {f : ℕ} (h : s.memOk = true) {r} (ht : s.addPage e a hd f = .ok r) :
    r.1.memOk = true := by
  rw [State.addPage] at ht
  obtain ⟨s₁, hs₁, ht⟩ := ok_of_bind ht
  have hm₁ : s₁.memOk = true := State.sPut_memOk h hs₁
  extract_lets jp at ht
  split at ht
  · cases ht
    exact hm₁
  · obtain ⟨s₂, hs₂, ht⟩ := ok_of_bind ht
    cases ht
    exact State.sSet_memOk hm₁ hs₂

theorem State.setScnt_memOk {e : SEnv} {a : Area} {spp rl n n' : ℕ} (h : s.memOk = true) {t' : State}
    (ht : s.setScnt e a spp rl n n' = .ok t') : t'.memOk = true := by
  fun_induction s.setScnt e a spp rl n n' with
  | case1 | case2 =>
    cases ht
    exact h
  | case3 | case4 => cases ht
  | case5 =>
    rename_i ih
    exact ih (State.sSet_memOk h ‹_›) ht

theorem State.sres_memOk {e : SEnv} {handle n : ℕ} (h : s.memOk = true) {r} (ht : s.sres e handle n = .ok r) : r.1.memOk = true := by
  rw [State.sres] at ht
  split at ht
  · cases ht
  · obtain ⟨a, -, ht⟩ := ok_of_bind ht
    obtain ⟨hd, -, ht⟩ := ok_of_bind ht
    split at ht
    · cases ht
      exact h
    · extract_lets pages need reserve checked at ht
      have hreserve (ht : reserve () = .ok r) : r.1.memOk = true := by
        obtain ⟨z, hz, ht⟩ := ok_of_bind ht
        have hm : z.1.memOk = true := by
          refine foldlM_ok (fun z : State × Hdr × ℕ => z.1.memOk = true) h (fun {z i z'} hz hstep => ?_) hz
          obtain ⟨q, hq, hstep⟩ := ok_of_bind hstep
          have hm : q.1.memOk = true := State.pop_memOk hz hq
          extract_lets f jp at hstep
          split at hstep
          · obtain ⟨y, hy, hstep⟩ := ok_of_bind hstep
            cases hstep
            exact State.copyOnAppend_memOk hm hy
          · obtain ⟨y, hy, hstep⟩ := ok_of_bind hstep
            cases hstep
            exact State.addPage_memOk hm hy
        extract_lets hd₁ hd₂ tail at ht
        obtain ⟨s₁, hs₁, ht⟩ := ok_of_bind ht
        obtain ⟨s₂, hs₂, ht⟩ := ok_of_bind ht
        cases ht
        exact State.setScnt_memOk (State.hdrPut_memOk hm hs₁) hs₂
      have hchecked {k : ℕ} (ht : checked k = .ok r) : r.1.memOk = true := by
        unfold checked at ht
        split at ht
        · cases ht
        · exact hreserve ht
      split at ht
      · obtain ⟨k, -, ht⟩ := ok_of_bind ht
        exact hchecked ht
      · obtain ⟨k, -, ht⟩ := ok_of_bind ht
        exact hchecked ht

theorem State.scommit_memOk {e : SEnv} {handle i n : ℕ} (h : s.memOk = true) {t' : State} (ht : s.scommit e handle i n = .ok t') :
    t'.memOk = true := by
  rw [State.scommit] at ht
  dsimp only at ht
  split at ht
  · obtain ⟨a₁, ha₁, ht⟩ := ok_of_bind ht
    cases ha₁
  · obtain ⟨a₁, ha₁, ht⟩ := ok_of_bind ht
    obtain ⟨a₂, ha₂, ht⟩ := ok_of_bind ht
    split at ht
    · obtain ⟨a₃, ha₃, ht⟩ := ok_of_bind ht
      cases ha₃
    · split at ht
      · obtain ⟨a₃, ha₃, ht⟩ := ok_of_bind ht
        cases ha₃
      · split at ht
        · obtain ⟨a₃, ha₃, ht⟩ := ok_of_bind ht
          cases ha₃
        · have ht' : t'.memOk = true := State.hdrPut_memOk h ht
          exact State.hdrPut_memOk h ht

theorem State.sfork_memOk {e : SEnv} {parent len bkt : ℕ} (h : s.memOk = true) {r} (ht : s.sfork e parent len bkt = .ok r) :
    r.1.memOk = true := by
  rw [State.sfork] at ht
  obtain ⟨a₁, ha₁, ht⟩ := ok_of_bind ht
  obtain ⟨a₂, ha₂, ht⟩ := ok_of_bind ht
  dsimp only at ht
  split at ht
  · obtain ⟨a₃, ha₃, ht⟩ := ok_of_bind ht
    cases ha₃
  · split at ht
    · obtain ⟨a₃, ha₃, ht⟩ := ok_of_bind ht
      cases ha₃
    · split at ht
      · obtain ⟨a₃, ha₃, ht⟩ := ok_of_bind ht
        cases ha₃
      · obtain ⟨a₃, ha₃, ht⟩ := ok_of_bind ht
        have hma₃ : a₃.1.memOk = true := State.takeHdr_memOk h ha₃
        split at ht
        · rename_i u
          have hu : u.memOk = true := State.takeHdr_memOk h ha₃
          cases ht
          exact hma₃
        · rename_i u _
          have hu : u.memOk = true := State.takeHdr_memOk h ha₃
          split at ht
          · obtain ⟨a₃, ha₃, ht⟩ := ok_of_bind ht
            have hma₃ : a₃.memOk = true := State.hdrPut_memOk hma₃ ha₃
            obtain ⟨a₄, ha₄, ht⟩ := ok_of_bind ht
            cases ht
            exact State.sPut_memOk hma₃ ha₄
          · obtain ⟨a₃, ha₃, ht⟩ := ok_of_bind ht
            obtain ⟨a₄, ha₄, ht⟩ := ok_of_bind ht
            have hma₄ : a₄.memOk = true := State.hdrPut_memOk hma₃ ha₄
            obtain ⟨a₅, ha₅, ht⟩ := ok_of_bind ht
            have hma₅ : a₅.memOk = true := State.hdrPut_memOk hma₄ ha₅
            obtain ⟨a₆, ha₆, ht⟩ := ok_of_bind ht
            cases ht
            exact State.sPut_memOk hma₅ ha₆

theorem State.pushPages_memOk {e : SEnv} {a : Area} {n n' : ℕ} (h : s.memOk = true) {t' : State}
    (ht : s.pushPages e a n n' = .ok t') : t'.memOk = true := by
  induction n generalizing s n' with
  | zero =>
    cases ht
    exact h
  | succ n ih =>
    rw [State.pushPages] at ht
    split at ht
    · cases ht
      exact h
    · split at ht
      · cases ht
      · extract_lets lost at ht
        split at ht
        · exact ih (State.push_memOk h ‹_›) ht
        · have hlost : (lost s).memOk = true := h
          exact ih hlost ht
        · cases ht

theorem State.srel_memOk {e : SEnv} {a : Area} {n n' : ℕ} (h : s.memOk = true) {t' : State} (ht : s.srel e a n n' = .ok t') :
    t'.memOk = true := by
  induction n generalizing s n' with
  | zero =>
    cases ht
    exact h
  | succ n ih =>
    rw [State.srel] at ht
    split at ht
    · cases ht
    · split at ht
      · exact State.hdrPut_memOk h ht
      · split at ht
        · cases ht
        · rename_i u he
          obtain ⟨s₁, hs₁, he⟩ := ok_of_bind he
          obtain ⟨free, -, he⟩ := ok_of_bind he
          obtain ⟨k, -, he⟩ := ok_of_bind he
          obtain ⟨s₂, hs₂, he⟩ := ok_of_bind he
          obtain ⟨s₃, hs₃, he⟩ := ok_of_bind he
          have hu : u.memOk = true :=
            State.sSet_memOk (State.sSet_memOk (State.hdrPut_memOk (State.pushPages_memOk h hs₁) hs₂) hs₃) he
          split at ht
          · cases ht
            exact hu
          · exact ih hu ht

theorem State.strandDone_memOk {c : Cur} {i : Instr} {acq : Bool} {wr : Group → Group} (h : s.memOk = true) :
    (s.strandDone c i acq wr).memOk = true := by
  rw [State.strandDone]
  refine State.effected_memOk ?_
  split
  · exact State.l1Clear_memOk h
  · exact h

theorem execSnew_memOk {f : FmtE} (h : s.memOk = true) {t' : State} (ht : execSnew f s = .next t') : t'.memOk = true := by
  rw [execSnew] at ht
  refine onSplit_memOk (fun c => ?_) ht
  split
  · exact h
  · split
    · exact State.sTrap_memOk h
    · rename_i r he
      have hr : r.1.memOk = true := State.snew_memOk h he
      exact State.strandDone_memOk hr

theorem execSres_memOk {f : FmtE} (h : s.memOk = true) {t' : State} (ht : execSres f s = .next t') : t'.memOk = true := by
  rw [execSres] at ht
  refine onSplit_memOk (fun c => ?_) ht
  split
  · exact h
  · split
    · exact State.sTrap_memOk h
    · rename_i r he
      have hr : r.1.memOk = true := State.sres_memOk h he
      exact State.strandDone_memOk hr

theorem execScommit_memOk {f : FmtE} (h : s.memOk = true) {t' : State} (ht : execScommit f s = .next t') : t'.memOk = true := by
  rw [execScommit] at ht
  refine onSplit_memOk (fun c => ?_) ht
  split
  · exact h
  · split
    · exact State.sTrap_memOk h
    · rename_i u he
      have hu : u.memOk = true := State.scommit_memOk h he
      exact State.strandDone_memOk hu

theorem execSfork_memOk {f : FmtE} (h : s.memOk = true) {t' : State} (ht : execSfork f s = .next t') : t'.memOk = true := by
  rw [execSfork] at ht
  refine onSplit_memOk (fun c => ?_) ht
  split
  · exact h
  · split
    · exact State.sTrap_memOk h
    · rename_i r he
      have hr : r.1.memOk = true := State.sfork_memOk h he
      exact State.strandDone_memOk hr

theorem execSlen_memOk {f : FmtE} (h : s.memOk = true) {t' : State} (ht : execSlen f s = .next t') : t'.memOk = true := by
  rw [execSlen] at ht
  refine onSplit_memOk (fun c => ?_) ht
  split
  · exact h
  · split
    · exact State.sTrap_memOk h
    · exact State.strandDone_memOk h

theorem execSrel_memOk {f : FmtE} (h : s.memOk = true) {t' : State} (ht : execSrel f s = .next t') : t'.memOk = true := by
  rw [execSrel] at ht
  refine onSplit_memOk (fun c => ?_) ht
  split
  · exact h
  · split
    · exact State.sTrap_memOk h
    · rename_i u he
      obtain ⟨a, -, he⟩ := ok_of_bind he
      exact State.strandDone_memOk (State.srel_memOk h he)

theorem execSseek_memOk {f : FmtE} (h : s.memOk = true) {t' : State} (ht : execSseek f s = .next t') : t'.memOk = true := by
  rw [execSseek] at ht
  refine onSplit_memOk (fun c => ?_) ht
  split
  · exact h
  · split
    · exact State.sTrap_memOk h
    · exact State.strandDone_memOk h

theorem State.keySign_memOk {e : SEnv} {n : ℕ} {set : ProjSet} {key : List FVal} (h : s.memOk = true) :
    (s.keySign e n set key).1.memOk = true := by
  rw [State.keySign]
  split
  · exact State.pick_memOk h
  · exact h

theorem State.signedDone_memOk {c : Cur} {i : Instr} {set : ℕ} (h : s.memOk = true) : (s.signedDone c i set).memOk = true := by
  rw [State.signedDone]
  split
  rename_i u _ he
  have hu : u.memOk = true := memOk_of_fst (State.fresh_memOk h) he
  exact State.put_memOk hu

theorem State.kst_memOk {e : SEnv} {a : Area} {hd : Hdr} {t : ℕ} {scale : Word} {data : List Byte} (h : s.memOk = true) {t' : State}
    (ht : s.kst e a hd t scale data = .ok t') : t'.memOk = true := by
  rw [State.kst] at ht
  obtain ⟨set, -, ht⟩ := ok_of_bind ht
  extract_lets good slot store window committed at ht
  have hstore (ht : store () = .ok t') : t'.memOk = true := by
    unfold store at ht
    split at ht
    rename_i s₁ g he
    have hs₁ : s₁.memOk = true := memOk_of_fst (State.keySign_memOk h) he
    obtain ⟨p, -, ht⟩ := ok_of_bind ht
    obtain ⟨s₂, hs₂, ht⟩ := ok_of_bind ht
    have hm₂ : s₂.memOk = true := State.sPut_memOk hs₁ hs₂
    extract_lets link at ht
    have hlink {u : State} (hu : u.memOk = true) (ht : link u = .ok t') : t'.memOk = true := by
      obtain ⟨m, -, ht⟩ := ok_of_bind ht
      obtain ⟨old, -, ht⟩ := ok_of_bind ht
      obtain ⟨s₃, hs₃, ht⟩ := ok_of_bind ht
      obtain ⟨s₄, hs₄, ht⟩ := ok_of_bind ht
      exact State.hdrPut_memOk (State.setBucket_memOk (State.sSet_memOk hu hs₃) hs₄) ht
    split at ht
    · obtain ⟨s₃, hs₃, ht⟩ := ok_of_bind ht
      cases hs₃
      exact hlink hm₂ ht
    · obtain ⟨s₃, hs₃, ht⟩ := ok_of_bind ht
      exact hlink (State.sSet_memOk hm₂ hs₃) ht
  split at ht
  · cases ht
  · unfold committed at ht
    split at ht
    · cases ht
    · unfold window at ht
      split at ht
      · cases ht
      · exact hstore ht

theorem execKst_memOk {f : FmtE} (h : s.memOk = true) {t' : State} (ht : execKst f s = .next t') : t'.memOk = true := by
  rw [execKst] at ht
  refine onSplit_memOk (fun c => ?_) ht
  extract_lets e sg src found n
  clear_value found
  split
  · exact h
  · split
    · exact State.illop_memOk h
    · split
      · exact State.engRanges_error_memOk h ‹_›
      · split
        · exact State.sTrap_memOk h
        · extract_lets r
          have hr : r.1.memOk = true := foldl_fst_memOk h fun _ _ hz => State.engRead_memOk hz
          clear_value r
          split
          · exact State.sTrap_memOk h
          · exact State.signedDone_memOk (State.kst_memOk hr ‹_›)

theorem State.denseBytes_memOk {old : List Byte} {es : List (List Byte)} (h : s.memOk = true) :
    (s.denseBytes old es).1.memOk = true := by
  rw [State.denseBytes]
  refine foldl_fst_memOk h ?_
  rintro ⟨t₁, acc₁⟩ b h1
  extract_lets cand q
  have hq : q.1.memOk = true := State.pick_memOk h1
  exact hq

theorem State.bgathRun_error_memOk {c : Cur} {f : FmtE} (h : s.memOk = true) {t' : State} (ht : s.bgathRun c f = .error t') :
    t'.memOk = true := by
  rw [State.bgathRun] at ht
  split at ht
  · cases ht
    exact State.illop_memOk h
  · split at ht
    · cases ht
      exact State.engRanges_error_memOk h ‹_›
    · split at ht
      · cases ht
        exact State.sTrap_memOk h
      · extract_lets n dense bs r at ht
        have hr : r.1.memOk = true := by
          unfold r
          cases ht
        cases ht

theorem State.bgathRun_memOk {c : Cur} {f : FmtE} (h : s.memOk = true) {r} (ht : s.bgathRun c f = .ok r) : r.1.memOk = true := by
  revert ht
  fun_cases s.bgathRun c f with
  | case1 | case2 | case3 => rintro ⟨⟩
  | case4 e q out densef lim found n _ _ _ s₁ hd es he n dense bs z =>
    rintro ⟨⟩
    obtain ⟨_, -, he⟩ := ok_of_bind he
    obtain ⟨set, -, he⟩ := ok_of_bind he
    obtain ⟨_, -, he⟩ := ok_of_bind he
    cases he
    have hz : z.1.memOk = true := by
      unfold z
      split
      · exact State.denseBytes_memOk (State.keySign_memOk h)
      · exact State.keySign_memOk h
    exact State.l1Clear_memOk (State.arrWrite_memOk hz)

theorem execBgath_memOk {f : FmtE} (h : s.memOk = true) {t' : State} (ht : execBgath f s = .next t') : t'.memOk = true := by
  rw [execBgath] at ht
  refine onSplit_memOk (fun c => ?_) ht
  split
  · exact h
  · split
    · exact State.bgathRun_error_memOk h ‹_›
    · rename_i u _ _ _ he
      have hu : u.memOk = true := State.bgathRun_memOk h he
      extract_lets c1 c2 t orig
      split
      · exact State.signedDone_memOk hu
      · exact State.userTrap_memOk (State.signedDone_memOk hu)

theorem State.lateFatal_memOk {t : Team} {k : Cmd} {cause : Cause} {detail : Word} (h : s.memOk = true) :
    (s.lateFatal t k cause detail).memOk = true := State.endContext_memOk h

theorem State.tryProj_memOk {tid id : ℕ} (h : s.memOk = true) : (s.tryProj tid id).memOk = true := by
  rw [State.tryProj]
  split
  · extract_lets r s1
    have hr : r.1.memOk = true := by
      unfold r
      refine foldl_fst_memOk h ?_
      rintro ⟨t₁, acc₁⟩ b h1
      extract_lets q
      exact State.engRead_memOk h1
    have hs1 : s1.memOk = true := State.modDie_memOk hr
    split
    · exact h
    · split
      · exact State.lateFatal_memOk h
      · split
        · exact State.needPeers_memOk h ‹_›
        · exact State.modTeam_memOk hs1
  · exact h

theorem projLoad.start_memOk {i : Instr} {free : Bool} {c : Cur} {set b : ℕ} {hd : Bool} {src : List (Place × ℕ)} {vps : List ℕ}
    (h : s.memOk = true) : (projLoad.start i free s c set b hd src vps).memOk = true := by
  rw [projLoad.start]
  extract_lets k
  split
  rename_i u _ he
  have hu : u.memOk = true := memOk_of_fst (State.fresh_memOk h) he
  exact State.tryProj_memOk (State.put_memOk hu)

theorem projLoad_memOk {i : Instr} {f : FmtE} {free : Bool} (h : s.memOk = true) {t' : State} (ht : projLoad i f free s = .next t') :
    t'.memOk = true := by
  rw [projLoad] at ht
  refine onSplit_memOk (fun c => ?_) ht
  extract_lets set addr shape b hd vps
  split
  · exact h
  · split
    · exact State.illop_memOk h
    · split
      · exact State.engRanges_error_memOk h ‹_›
      · split
        · split
          · exact State.sTrap_memOk h
          · exact projLoad.start_memOk h
        · exact projLoad.start_memOk h

theorem execProjld_memOk {f : FmtE} (h : s.memOk = true) {t' : State} (ht : execProjld f s = .next t') : t'.memOk = true :=
  projLoad_memOk h ht

theorem execProjldFree_memOk {f : FmtE} (h : s.memOk = true) {t' : State} (ht : execProjldFree f s = .next t') : t'.memOk = true :=
  projLoad_memOk h ht

theorem execProjldTakeEffect_memOk {team cmd : ℕ} (h : s.memOk = true) {t' : State}
    (ht : execProjldTakeEffect team cmd s = .next t') : t'.memOk = true := by
  rw [execProjldTakeEffect] at ht
  cases ht
  exact State.tryProj_memOk h

theorem execFlpop_memOk {f : FmtE} (h : s.memOk = true) {t' : State} (ht : execFlpop f s = .next t') : t'.memOk = true := by
  rw [execFlpop] at ht
  refine onSplit_memOk (fun c => ?_) ht
  split
  · exact h
  · split
    · exact State.sTrap_memOk h
    · rename_i r he
      have hr : r.1.memOk = true := State.pop_memOk h he
      exact State.strandDone_memOk hr

theorem execFlpush_memOk {f : FmtE} (h : s.memOk = true) {t' : State} (ht : execFlpush f s = .next t') : t'.memOk = true := by
  rw [execFlpush] at ht
  refine onSplit_memOk (fun c => ?_) ht
  split
  · exact h
  · split
    · exact State.sTrap_memOk h
    · rename_i u he
      have hu : u.memOk = true := State.push_memOk h he
      exact State.strandDone_memOk hu

theorem State.addRef_memOk {e : SEnv} {handle : ℕ} (h : s.memOk = true) {t' : State} (ht : s.addRef e handle = .ok t') :
    t'.memOk = true := by
  rw [State.addRef] at ht
  obtain ⟨a₁, ha₁, ht⟩ := ok_of_bind ht
  obtain ⟨a₂, ha₂, ht⟩ := ok_of_bind ht
  exact State.hdrPut_memOk h ht

theorem State.pfxfind_memOk {e : SEnv} {hd i : ℕ} {ref : Bool} (h : s.memOk = true) {r} (ht : s.pfxfind e hd i ref = .ok r) :
    r.1.memOk = true := by
  rw [State.pfxfind] at ht
  obtain ⟨t, -, ht⟩ := ok_of_bind ht
  obtain ⟨ps, -, ht⟩ := ok_of_bind ht
  split at ht
  · cases ht
    exact h
  · extract_lets jp at ht
    split at ht
    · obtain ⟨u, hu, ht⟩ := ok_of_bind ht
      cases ht
      exact State.addRef_memOk h hu
    · cases ht
      exact h

theorem State.pfxins_memOk {e : SEnv} {hd i handle : ℕ} {ref : Bool} (h : s.memOk = true) {r}
    (ht : s.pfxins e hd i handle ref = .ok r) : r.1.memOk = true := by
  rw [State.pfxins] at ht
  obtain ⟨t, -, ht⟩ := ok_of_bind ht
  obtain ⟨a, -, ht⟩ := ok_of_bind ht
  obtain ⟨own, -, ht⟩ := ok_of_bind ht
  extract_lets insert at ht
  have hinsert (ht : insert () = .ok r) : r.1.memOk = true := by
    obtain ⟨ps, -, ht⟩ := ok_of_bind ht
    split at ht
    · extract_lets jp at ht
      split at ht
      · obtain ⟨u, hu, ht⟩ := ok_of_bind ht
        cases ht
        exact State.addRef_memOk h hu
      · cases ht
        exact h
    · split at ht
      · cases ht
        exact h
      · obtain ⟨s₁, hs₁, ht⟩ := ok_of_bind ht
        obtain ⟨u, hu, ht⟩ := ok_of_bind ht
        cases ht
        exact State.addRef_memOk (State.sPut_memOk h hs₁) hu
  split at ht
  · cases ht
  · exact hinsert ht

theorem execPfxfind_memOk {f : FmtE} (h : s.memOk = true) {t' : State} (ht : execPfxfind f s = .next t') : t'.memOk = true := by
  rw [execPfxfind] at ht
  refine onSplit_memOk (fun c => ?_) ht
  split
  · exact h
  · split
    · exact State.sTrap_memOk h
    · rename_i r he
      have hr : r.1.memOk = true := State.pfxfind_memOk h he
      exact State.strandDone_memOk hr

theorem execPfxins_memOk {f : FmtE} (h : s.memOk = true) {t' : State} (ht : execPfxins f s = .next t') : t'.memOk = true := by
  rw [execPfxins] at ht
  refine onSplit_memOk (fun c => ?_) ht
  split
  · exact h
  · split
    · exact State.sTrap_memOk h
    · rename_i r he
      have hr : r.1.memOk = true := State.pfxins_memOk h he
      exact State.strandDone_memOk hr

theorem execHashb_memOk {f : FmtE} (h : s.memOk = true) {t' : State} (ht : execHashb f s = .next t') : t'.memOk = true := by
  rw [execHashb] at ht
  refine onSplit_memOk (fun c => ?_) ht
  extract_lets loc a
  split
  · exact h
  · split
    · exact State.alignAt_memOk h
    · split
      · exact State.engRanges_error_memOk h ‹_›
      · extract_lets r h1
        have hr : r.1.memOk = true := by
          unfold r
          refine foldl_fst_memOk h ?_
          rintro ⟨t₁, acc₁⟩ b h2
          extract_lets q
          exact State.engRead_memOk h2
        exact State.strandDone_memOk hr

theorem execPlcq_memOk {f : FmtE} (h : s.memOk = true) {t' : State} (ht : execPlcq f s = .next t') : t'.memOk = true := by
  rw [execPlcq] at ht
  refine onSplit_memOk (fun c => ?_) ht
  split
  · exact h
  · split
    · exact State.sTrap_memOk h
    · exact State.strandDone_memOk h

theorem execPlcqShort_memOk {f : FmtE} (h : s.memOk = true) {t' : State} (ht : execPlcqShort f s = .next t') : t'.memOk = true := by
  rw [execPlcqShort] at ht
  refine onSplit_memOk (fun c => ?_) ht
  split
  · exact h
  · split
    · exact State.sTrap_memOk h
    · extract_lets i
      exact State.strandDone_memOk h

/-! ### `Machine/Deferred` -/

theorem runCommand_memOk {i : Instr} (h : s.memOk = true) {t' : State} (ht : runCommand i s = .next t') : t'.memOk = true := by
  unfold runCommand at ht
  split at ht
  · exact execCpy_memOk h ht
  · exact execCpyt_memOk h ht
  · exact execBufcfg_memOk h ht
  · exact execLnstart_memOk h ht
  · exact execEpload_memOk h ht
  · exact execMdrain_memOk h ht
  · exact execQpush_memOk h ht
  · exact execQpushClose_memOk h ht
  · exact execRag_memOk h ht
  · exact execRrs_memOk h ht
  · exact execRhnd_memOk h ht
  · exact execProjld_memOk h ht
  · exact execProjldFree_memOk h ht
  · exact execTasknew_memOk h ht
  · exact execTaskdec_memOk h ht
  · exact execArrv_memOk h ht
  · exact execScommit_memOk h ht
  · exact execSlen_memOk h ht
  · exact execSrel_memOk h ht
  · exact execSseek_memOk h ht
  · exact execFlpop_memOk h ht
  · exact execFlpush_memOk h ht
  · exact execPfxfind_memOk h ht
  · exact execPfxins_memOk h ht
  · exact execHashb_memOk h ht
  · exact execPlcq_memOk h ht
  · exact execPlcqShort_memOk h ht
  · exact execKst_memOk h ht
  · exact execSnew_memOk h ht
  · exact execSfork_memOk h ht
  · exact execSres_memOk h ht
  · exact execTemit_memOk h ht
  · exact execQpull_memOk h ht
  · exact execBgath_memOk h ht
  · cases ht
    exact h

theorem State.ran_memOk {r : Ref} {i : Instr} (h : s.memOk = true) : (s.ran r i).1.memOk = true := by
  rw [State.ran]
  split
  · rename_i u he
    have hturn : State.memOk { s with turn := .split r } = true := h
    have hu : u.memOk = true := runCommand_memOk hturn he
    exact hu
  · exact h

theorem State.withHeld_memOk {t : Team} {hd : Held} (h : s.memOk = true) : (s.withHeld t hd).memOk = true :=
  State.modDie_memOk (State.modCtx_memOk h)

theorem State.withoutHeld_memOk {u : State} {t : Team} (h : u.memOk = true) : (u.withoutHeld s t).memOk = true :=
  State.modDie_memOk (State.modCtx_memOk h)

theorem State.performLater_memOk {tid id : ℕ} (h : s.memOk = true) : (s.performLater tid id).memOk = true := by
  rw [State.performLater]
  split
  · extract_lets orig
    split
    · extract_lets r s₁
      have hs₁ : s₁.memOk = true := State.modGroup_memOk (State.withHeld_memOk h)
      split
      · split
        · rename_i u he
          have hu : u.memOk = true := State.bgathRun_error_memOk hs₁ he
          exact State.withoutHeld_memOk hu
        · rename_i u _ _ _ he
          have hu : u.memOk = true := State.bgathRun_memOk hs₁ he
          extract_lets g' u1
          have hu1 : u1.memOk = true := State.modTeam_memOk (State.withoutHeld_memOk hu)
          split
          · exact hu1
          · split
            · exact State.userTrap_memOk (State.put_memOk hu1)
            · exact hu1
      · extract_lets m
        split
        · rename_i u _ _ _ he
          have hu : u.memOk = true := memOk_of_fst (State.ran_memOk hs₁) he
          extract_lets u1 g'
          have hu1 : u1.memOk = true := State.withoutHeld_memOk hu
          split
          exact State.recallAll_memOk hu1
        · rename_i u he
          have hu : u.memOk = true := memOk_of_fst (State.ran_memOk hs₁) he
          split
          · exact State.withoutHeld_memOk hu
          · split
            · have hu : u.memOk = true := memOk_of_fst (State.ran_memOk hs₁) he
              exact State.modTeam_memOk (State.withoutHeld_memOk hu)
            · have hu : u.memOk = true := memOk_of_fst (State.ran_memOk hs₁) he
              exact State.modTeam_memOk (State.withoutHeld_memOk hu)
            · have hu : u.memOk = true := memOk_of_fst (State.ran_memOk hs₁) he
              exact h
      · exact h
    · exact h
  · exact h

theorem State.laterAsks_memOk {tid id : ℕ} {t : Team} {k : Cmd} (h : s.memOk = true) {t' : State}
    (ht : s.laterAsks tid id t k = some t') : t'.memOk = true := by
  rw [State.laterAsks] at ht
  extract_lets ps at ht
  split at ht
  · extract_lets c at ht
    split at ht
    · have ht' : t'.memOk = true := State.needPeers_memOk h ht
      exact State.needPeers_memOk h ht
    · have ht' : t'.memOk = true := State.needPeers_memOk h ht
      exact State.needPeers_memOk h ht
    · have ht' : t'.memOk = true := State.needPeers_memOk h ht
      exact State.needPeers_memOk h ht
    · cases ht
  · cases ht

theorem execEngineCommandStart_memOk {team cmd : ℕ} (h : s.memOk = true) {t' : State}
    (ht : execEngineCommandStart team cmd s = .next t') : t'.memOk = true := by
  rw [execEngineCommandStart] at ht
  cases ht
  split
  · exact h
  · split
    · exact h
    · split
      · split
        · split
          · rename_i u he
            have hu : u.memOk = true := State.laterAsks_memOk h he
            exact State.modTeam_memOk hu
          · exact State.settle_memOk (State.performLater_memOk h)
        · exact h
      · exact State.modTeam_memOk h

theorem State.reissue_memOk {tid id : ℕ} (h : s.memOk = true) : (s.reissue tid id).memOk = true := by
  have hs : (s.unask fun a => a.who = .cmd id).memOk = true := State.unask_memOk h
  fun_cases s.reissue tid id with
  | case2 => exact State.modTeam_memOk hs
  | case3 s₁ t k _ g i p _ _ u he =>
    have hteams : State.memOk { s₁ with teams := mput s₁.teams tid (s₁.reissueTeam t id k p g) } = true := hs
    exact memOk_of_fst (State.ran_memOk hteams) he
  | case5 s₁ t k _ g i p _ _ u t' n q he =>
    have hteams : State.memOk { s₁ with teams := mput s₁.teams tid (s₁.reissueTeam t id k p g) } = true := hs
    have hu : u.memOk = true := memOk_of_fst (State.ran_memOk hteams) he
    exact hu
  | _ => exact hs

theorem State.reissueAll_memOk {tid : ℕ} (h : s.memOk = true) : (s.reissueAll tid).memOk = true := by
  rw [State.reissueAll]
  split
  · exact h
  · exact foldl_memOk h fun _ _ h1 => State.reissue_memOk h1

/-! ### `Machine/Preempt` -/

theorem State.loadDict_memOk {die core ctx : ℕ} {k : Task} (h : s.memOk = true) : (s.loadDict die core ctx k).memOk = true := by
  rw [State.loadDict]
  extract_lets held
  split
  · exact h
  · split
    · exact State.selfEnd_memOk h
    · extract_lets d
      refine State.modCore_memOk_of_arr (State.recallSpan_memOk h) fun c => ?_
      split <;> rfl

theorem State.forget_memOk {tid gi : ℕ} (h : s.memOk = true) : (s.forget tid gi).memOk = true := by
  rw [State.forget]
  split
  · exact h
  · extract_lets lives keep draw r r1
    have hr : r.1.memOk = true := by
      unfold r
      refine foldl_fst_memOk h ?_
      rintro ⟨t₁, acc₁⟩ b h1
      dsimp only [draw]
      split
      · exact h1
      · split
        · dsimp only
          exact State.among_memOk h1
        · dsimp only
          exact State.among_memOk h1
    have hr1 : r1.1.memOk = true := by
      unfold r1
      refine foldl_fst_memOk hr ?_
      rintro ⟨t₁, acc₁⟩ b h1
      split
      · exact h1
      · dsimp only [draw]
        split
        · exact h1
        · split
          · dsimp only
            exact State.among_memOk h1
          · dsimp only
            exact State.among_memOk h1
    split
    · exact h
    · exact State.modGroup_memOk hr1

theorem State.writeFrame_memOk {tid : ℕ} (h : s.memOk = true) : (s.writeFrame tid).memOk = true := by
  rw [State.writeFrame]
  split
  · exact h
  · extract_lets a r
    have hr : r.1.memOk = true := State.freeBytes_memOk h
    split
    · exact h
    · split
      · rename_i u he
        have hu : u.memOk = true := State.vWrite_memOk hr he
        exact State.modTeam_memOk hu
      · exact h

theorem State.preempt_memOk {tid : ℕ} {after : Option ℕ} (h : s.memOk = true) : (s.preempt tid after).memOk = true := by
  rw [State.preempt]
  extract_lets s1
  have hs1 : s1.memOk = true := State.unask_memOk (State.raiseTeam_memOk h)
  split
  · exact h
  · extract_lets s2 s3 s4 s5 s6 k mine back bytes s7
    have hs2 : s2.memOk = true := foldl_memOk hs1 fun _ _ h1 => foldl_memOk h1 fun _ _ h2 => State.discard_memOk h2
    have hs3 : s3.memOk = true := foldl_memOk hs2 fun _ _ h1 => State.modGroup_memOk h1
    have hs4 : s4.memOk = true := foldl_memOk hs3 fun _ _ h1 => State.forget_memOk h1
    have hs5 : s5.memOk = true := foldl_memOk hs4 fun _ _ h1 => foldl_memOk h1 fun _ _ h2 => State.stashRecall_memOk h2
    have hs6 : s6.memOk = true := State.writeFrame_memOk hs5
    have hs7 : s7.memOk = true := by
      unfold s7
      refine State.modCore_memOk_of_arr hs6 fun c => ?_
      rfl
    exact State.modTeam_memOk hs7

theorem State.scrub_memOk {core ctx base n : ℕ} (h : s.memOk = true) : (s.scrub core ctx base n).memOk = true := by
  unfold State.scrub
  extract_lets c inside own may r₁ r₂
  have hr₁ : r₁.1.memOk = true := by
    refine foldl_fst_memOk h fun z e hz => ?_
    dsimp only
    split
    · exact hz
    · split
      · exact hz
      · exact (State.among_memOk hz : (z.1.among e.2 (may e.1 e.2)).1.memOk = true)
  have hr₂ : r₂.1.memOk = true := by
    refine foldl_fst_memOk hr₁ fun z e hz => ?_
    dsimp only
    split
    · exact (State.among_memOk hz : (z.1.among 0 (may e.1 0)).1.memOk = true)
    · exact hz
  have hwf₁ : Memory.wf r₁.2 = true := by
    refine foldl_snd_wf (fun z e he => ?_) (by simpa using State.memOk_arr h core)
    dsimp only
    split
    · exact .inr ⟨e.2, he, rfl⟩
    · split
      · exact .inl rfl
      · split
        · exact .inl rfl
        · exact .inr ⟨_, ‹_›, rfl⟩
  have hwf₂ : Memory.wf r₂.2 = true := by
    refine foldl_wrByte_wf (fun z e => ?_) hwf₁
    dsimp only
    split
    · exact .inr ⟨_, _, rfl⟩
    · exact .inl rfl
  exact State.modCore_memOk hr₂ fun _ => hwf₂

theorem State.rejoin_memOk {tid core : ℕ} {n : EpName} (h : s.memOk = true) : (s.rejoin tid core n).memOk = true := by
  rw [State.rejoin]
  extract_lets join
  split
  · extract_lets a
    split
    · refine State.modTeam_memOk (State.modCore_memOk_of_arr h ?_)
      intro c
      rfl
    · split
      · refine State.modTeam_memOk (State.modCore_memOk_of_arr h ?_)
        intro c
        rfl
      · exact State.selfEnd_memOk h
      · exact h
  · exact h

theorem State.spoil_memOk {tid : ℕ} (h : s.memOk = true) : (s.spoil tid).memOk = true := by
  rw [State.spoil]
  split
  · exact h
  · extract_lets word words s1 r
    have hwords (t : State) (m : SMap Word) (ht : t.memOk = true) : (words t m).1.memOk = true :=
      foldl_fst_memOk ht fun _ _ hq => State.freeBytes_memOk hq
    have hs1 : s1.memOk = true := foldl_memOk h fun t g ht => State.modGroup_memOk (hwords _ _ (hwords t g.2.v ht))
    exact State.modTeam_memOk (State.freeBytes_memOk hs1)

theorem State.readFrame_memOk {tid : ℕ} (h : s.memOk = true) : (s.readFrame tid).memOk = true := by
  rw [State.readFrame]
  split
  · exact h
  · split
    · exact h
    · extract_lets s1
      have hs1 : s1.memOk = true := by
        unfold s1
        split
        · exact h
        · exact State.spoil_memOk h
      exact State.modTeam_memOk (State.recallSpan_memOk hs1)

theorem State.restore_memOk {tid core : ℕ} {slots : List (ℕ × ℕ)} {base : ℕ} (h : s.memOk = true) :
    (s.restore tid core slots base).memOk = true := by
  have h₁ : (s.readFrame tid).memOk = true := State.readFrame_memOk h
  fun_cases s.restore tid core slots base with
  | case1 => exact h₁
  | case2 s₁ t _ place t' bytes s₂ s₃ s₄ s₅ s₆ s₇ s₈ s₉ s₁₀ s₁₁ =>
    have h₃ : s₃.memOk = true := by
      unfold s₃
      split
      · exact State.loadDict_memOk h₁
      · exact h₁
    have h₄ : s₄.memOk = true := State.l1Clear_memOk (State.modCore_memOk (State.scrub_memOk h₃) (wf_wrBytes _ _ _))
    have h₅ : s₅.memOk = true := by
      unfold s₅
      split
      · exact h₄
      · exact State.rejoin_memOk h₄
    have h₉ : s₉.memOk = true := State.epFlow_memOk (State.modTeam_memOk (State.reissueAll_memOk (State.modTeam_memOk h₅)))
    have h₁₀ : s₁₀.memOk = true := by
      unfold s₁₀
      split
      · exact h₉
      · exact State.startRun_memOk h₉
    exact State.settle_memOk (foldl_memOk h₁₀ fun _ _ ht => State.tryClose_memOk ht)

/-! ### `Machine/Sched` -/

theorem State.skip_memOk {die : ℕ} {ts : List ℕ} (h : s.memOk = true) : (s.skip die ts).memOk = true := State.modDie_memOk h

theorem State.tidyQueues_memOk (h : s.memOk = true) : (s.tidyQueues).memOk = true := h

theorem State.served_memOk {die task : ℕ} (h : s.memOk = true) : (s.served die task).memOk = true := by
  unfold State.served
  extract_lets s1
  have hs1 : s1.memOk = true := State.tidyQueues_memOk (State.modDie_memOk h)
  exact hs1

theorem State.launch_memOk {task : ℕ} {p : Placement} {index : ℕ} {recBase recCnt : Word} (h : s.memOk = true) :
    (s.launch task p index recBase recCnt).memOk = true := by
  rw [State.launch]
  extract_lets core
  split
  · exact h
  · extract_lets s1 t
    have hs1 : s1.memOk = true := State.l1Clear_memOk (State.loadDict_memOk (State.scrub_memOk h))
    split
    · exact hs1
    · split
      rename_i u _ he
      have hu : u.memOk = true := memOk_of_fst (State.fresh_memOk hs1) he
      extract_lets s2
      have hs2 : s2.memOk = true := State.modTask_memOk hu
      split
      · exact State.writeState_memOk hs2
      · exact hs2

theorem State.launchRecords_memOk {k : Task} {p : Placement} {flush : Bool} (h : s.memOk = true) {t' : State}
    (ht : s.launchRecords k p flush = some t') : t'.memOk = true := by
  rw [State.launchRecords] at ht
  extract_lets taken s1 at ht
  have hs1 : s1.memOk = true := State.modTask_memOk h
  split at ht
  · cases ht
  · cases ht
    exact State.launch_memOk (State.nodeSet_memOk hs1)

theorem State.placeTeam_memOk {p : Placement} (h : s.memOk = true) {t' : State} (ht : s.placeTeam p = some t') : t'.memOk = true := by
  rw [State.placeTeam] at ht
  split at ht
  · split at ht
    · split at ht
      · cases ht
        exact State.restore_memOk h
      · cases ht
    · cases ht
  · split at ht
    · split at ht
      · cases ht
      · split at ht
        · have ht' : t'.memOk = true := State.launchRecords_memOk h ht
          exact State.launchRecords_memOk h ht
        · split at ht
          · cases ht
          · cases ht
            exact State.launch_memOk (State.modTask_memOk h)
    · cases ht

theorem State.evictAll_memOk {die task : ℕ} {a : List ℕ} (h : s.memOk = true) {t' : State} (ht : s.evictAll die task a = some t') :
    t'.memOk = true := by
  induction a generalizing s with
  | nil =>
    cases ht
    exact h
  | cons v vs ih =>
    rw [State.evictAll] at ht
    extract_lets idleSame at ht
    split at ht
    · have ht' : t'.memOk = true := ih (State.preempt_memOk h) ht
      exact ih (State.preempt_memOk h) ht
    · cases ht

theorem State.schedule_memOk {p : Placement} (h : s.memOk = true) : (s.schedule p).memOk = true := by
  fun_cases s.schedule p with
  | case2 _ t he =>
    obtain ⟨u, hu, ht⟩ := Option.bind_eq_some_iff.mp he
    exact State.served_memOk (State.skip_memOk (State.placeTeam_memOk (State.evictAll_memOk h hu) ht))
  | case3 => exact State.skip_memOk h
  | _ => exact h

theorem execDieSchedulerPlace_memOk {p : Placement} (h : s.memOk = true) {t' : State} (ht : execDieSchedulerPlace p s = .next t') :
    t'.memOk = true := by
  rw [execDieSchedulerPlace] at ht
  cases ht
  exact State.schedule_memOk h

theorem execTaskBlocking_memOk {die task : ℕ} (h : s.memOk = true) {t' : State} (ht : execTaskBlocking die task s = .next t') :
    t'.memOk = true := by
  rw [execTaskBlocking] at ht
  cases ht
  split
  · split
    · exact State.modDie_memOk h
    · exact h
  · exact h

theorem State.launchNode_memOk {p : Placement} {flush : Bool} (h : s.memOk = true) : (s.launchNode p flush).memOk = true := by
  fun_cases s.launchNode p flush with
  | case3 => exact State.nodeLost_memOk h ‹_›
  | case4 => exact State.schedule_memOk h
  | case6 =>
    refine getD_memOk (fun {u} he => ?_) h
    obtain ⟨u, hu, rfl⟩ := Option.map_eq_some_iff.mp he
    exact State.tidyQueues_memOk (State.launchRecords_memOk h hu)
  | _ => exact h

theorem execGraphNodeLaunch_memOk {p : Placement} (h : s.memOk = true) {t' : State} (ht : execGraphNodeLaunch p s = .next t') :
    t'.memOk = true := by
  rw [execGraphNodeLaunch] at ht
  cases ht
  exact State.launchNode_memOk h

theorem execGraphFlushTimeout_memOk {p : Placement} (h : s.memOk = true) {t' : State} (ht : execGraphFlushTimeout p s = .next t') :
    t'.memOk = true := by
  rw [execGraphFlushTimeout] at ht
  cases ht
  exact State.launchNode_memOk h

theorem execTeamCompletionEvent_memOk {team : ℕ} (h : s.memOk = true) {t' : State} (ht : execTeamCompletionEvent team s = .next t') :
    t'.memOk = true := by
  rw [execTeamCompletionEvent] at ht
  cases ht
  split
  · exact h
  · split
    · exact h
    · extract_lets -underBinder s₁ s₂
      have hs₁ : s₁.memOk = true := State.modCore_memOk_of_arr (State.stashFlush_memOk (State.raiseTeam_memOk h)) fun _ => rfl
      have hs₂ : s₂.memOk = true := hs₁
      split
      · exact hs₂
      · extract_lets -underBinder dec s₃ s₄
        have hdec (u : State) (a : ℕ) (hu : u.memOk = true) : (dec u a).memOk = true := by
          unfold dec
          split
          · exact hu
          · exact State.decrement_memOk hu
        have hs₃ : s₃.memOk = true := foldl_memOk hs₂ hdec
        split
        · exact State.launchDone_memOk hs₃
        · have hs₄ : s₄.memOk = true := State.modTask_memOk hs₃
          split
          · exact State.finishGrid_memOk hs₄ hdec
          · exact hs₄

theorem State.account_memOk {ns : ℕ} (h : s.memOk = true) : (s.account ns).memOk = true := by
  rw [State.account]
  split <;> exact h

theorem State.steer_memOk {peer ns : ℕ} (h : s.memOk = true) : (s.steer peer ns).memOk = true := by
  rw [State.steer]
  extract_lets now
  split
  · extract_lets goal new s1 orig
    have hs1 : s1.memOk = true := State.modFab_memOk (State.account_memOk h)
    split
    · exact h
    · exact hs1
  · exact h

theorem State.evictFor_memOk {ctx core : ℕ} {f : Fit} {a : List ℕ} (h : s.memOk = true) {t' : State}
    (ht : s.evictFor ctx core f a = some t') : t'.memOk = true := by
  induction a generalizing s with
  | nil =>
    cases ht
    exact h
  | cons v vs ih =>
    rw [State.evictFor] at ht
    split at ht
    · have ht' : t'.memOk = true := ih (State.preempt_memOk h) ht
      exact ih (State.preempt_memOk h) ht
    · cases ht

theorem State.placeForced_memOk {p : Placement} (h : s.memOk = true) {t' : State} (ht : s.placeForced p = some t') :
    t'.memOk = true := by
  rw [State.placeForced] at ht
  split at ht
  · split at ht
    · split at ht
      · cases ht
        exact State.restore_memOk h
      · cases ht
    · cases ht
  · have ht' : t'.memOk = true := State.placeTeam_memOk h ht
    exact State.placeTeam_memOk h ht

theorem execStarvationForcedPlacement_memOk {ctx : ℕ} {p : Placement} (h : s.memOk = true) {t' : State}
    (ht : execStarvationForcedPlacement ctx p s = .next t') : t'.memOk = true := by
  rw [execStarvationForcedPlacement] at ht
  cases ht
  split
  · exact h
  · split
    · exact h
    · split
      · rename_i t he
        obtain ⟨u, hu, he⟩ := Option.bind_eq_some_iff.mp he
        exact State.modDie_memOk (State.served_memOk (State.placeForced_memOk (State.evictFor_memOk h hu) he))
      · exact h

/-! ### `Machine/Driver` -/

theorem execTlbInvalidateCommand_memOk {ctx lo len : ℕ} (h : s.memOk = true) {t' : State}
    (ht : execTlbInvalidateCommand ctx lo len s = .next t') : t'.memOk = true := by
  rw [execTlbInvalidateCommand] at ht
  cases ht
  extract_lets ds s₁
  have hs₁ : s₁.memOk = true := foldl_memOk h fun _ _ ht => State.modDie_memOk ht
  split
  · exact h
  · obtain ⟨hhbm, hcores⟩ := State.memOk_iff.mp hs₁
    refine State.memOk_iff.mpr ⟨hhbm, fun k hk => ?_⟩
    obtain ⟨k₀, hk₀, rfl⟩ := List.mem_map.mp hk
    dsimp only
    split <;> exact hcores k₀ hk₀

theorem State.bar2Peer_memOk {a : Bar2} {pkg off : ℕ} (h : s.memOk = true) : (s.bar2Peer a pkg off).memOk = true := by
  rw [State.bar2Peer]
  extract_lets bs orig
  split
  · exact foldl_memOk h fun _ _ h1 => State.ask_memOk h1
  · split
    · exact State.needPeers_memOk h ‹_›
    · exact State.unask_memOk h

theorem execHostBar2Access_memOk {a : Bar2} (h : s.memOk = true) {t' : State} (ht : execHostBar2Access a s = .next t') :
    t'.memOk = true := by
  rw [execHostBar2Access] at ht
  cases ht
  split
  · exact h
  · split
    · extract_lets r orig orig1
      have hr : r.1.memOk = true := State.homeRead_memOk h
      have horig : orig.memOk = true := hr
      split
      · exact State.homeWrite_memOk h
      · exact horig
    · exact State.bar2Peer_memOk h
    · exact h

theorem execHostContextResume_memOk {ctx : ℕ} (h : s.memOk = true) {t' : State} (ht : execHostContextResume ctx s = .next t') :
    t'.memOk = true := by
  rw [execHostContextResume] at ht
  cases ht
  exact h

theorem State.preemptAll_memOk {ts : List ℕ} (h : s.memOk = true) : (s.preemptAll ts).memOk = true :=
  foldl_memOk h fun _ _ h1 => State.preempt_memOk h1

theorem execHostContextSwitch_memOk {ctx die : ℕ} (h : s.memOk = true) {t' : State}
    (ht : execHostContextSwitch ctx die s = .next t') : t'.memOk = true := by
  rw [execHostContextSwitch] at ht
  cases ht
  split
  · exact State.preemptAll_memOk h
  · exact h

theorem State.hostEnd_memOk {x : ℕ} (h : s.memOk = true) : (s.hostEnd x).memOk = true := State.endContext_memOk h

theorem execContextEnd_memOk {ctx : ℕ} (h : s.memOk = true) {t' : State} (ht : execContextEnd ctx s = .next t') : t'.memOk = true := by
  rw [execContextEnd] at ht
  cases ht
  exact State.hostEnd_memOk h

theorem execHostSetDebugMode_memOk {ctx mode : ℕ} {breaks : List DWord} (h : s.memOk = true) {t' : State}
    (ht : execHostSetDebugMode ctx mode breaks s = .next t') : t'.memOk = true := by
  rw [execHostSetDebugMode] at ht
  cases ht
  split
  · exact State.modCtx_memOk h
  · exact h

theorem execTeamStop_memOk {ctx team : ℕ} (h : s.memOk = true) {t' : State} (ht : execTeamStop ctx team s = .next t') :
    t'.memOk = true := by
  rw [execTeamStop] at ht
  cases ht
  split
  · exact h
  · extract_lets live
    split
    · exact h
    · refine State.modCtx_memOk (foldl_memOk h ?_)
      intro t b h1
      split
      · exact State.haltGroup_memOk h1
      · exact h1

theorem execHostSingleStep_memOk {r : Ref} (h : s.memOk = true) {t' : State} (ht : execHostSingleStep r s = .next t') :
    t'.memOk = true := by
  rw [execHostSingleStep] at ht
  cases ht
  split
  · exact h
  · extract_lets orig
    split
    · exact State.put_memOk h
    · exact h

theorem execHostResumeGroup_memOk {team group : ℕ} (h : s.memOk = true) {t' : State}
    (ht : execHostResumeGroup team group s = .next t') : t'.memOk = true := by
  rw [execHostResumeGroup] at ht
  cases ht
  split
  · exact h
  · split
    · exact h
    · exact State.settle_memOk (State.modCtx_memOk (State.modTeam_memOk h))

/-! ### `Machine/Integer` -/

theorem execNop_memOk {k : Com} (h : s.memOk = true) {t' : State} (ht : execNop k s = .next t') : t'.memOk = true :=
  onSplit_memOk (fun _ => h) ht

theorem execIadd_memOk {f : FmtR} (h : s.memOk = true) {t' : State} (ht : execIadd f s = .next t') : t'.memOk = true :=
  aluR_memOk h ht

theorem execIaddImm_memOk {f : FmtI} (h : s.memOk = true) {t' : State} (ht : execIaddImm f s = .next t') : t'.memOk = true :=
  aluI_memOk h ht

theorem execIsub_memOk {f : FmtR} (h : s.memOk = true) {t' : State} (ht : execIsub f s = .next t') : t'.memOk = true :=
  aluR_memOk h ht

theorem execIsubImm_memOk {f : FmtI} (h : s.memOk = true) {t' : State} (ht : execIsubImm f s = .next t') : t'.memOk = true :=
  aluI_memOk h ht

theorem execImul_memOk {f : FmtR} (h : s.memOk = true) {t' : State} (ht : execImul f s = .next t') : t'.memOk = true :=
  aluR_memOk h ht

theorem execImulImm_memOk {f : FmtI} (h : s.memOk = true) {t' : State} (ht : execImulImm f s = .next t') : t'.memOk = true :=
  aluI_memOk h ht

theorem execImad_memOk {f : FmtR} (h : s.memOk = true) {t' : State} (ht : execImad f s = .next t') : t'.memOk = true :=
  aluR_memOk h ht

theorem execImin_memOk {f : FmtR} (h : s.memOk = true) {t' : State} (ht : execImin f s = .next t') : t'.memOk = true :=
  aluR_memOk h ht

theorem execIminImm_memOk {f : FmtI} (h : s.memOk = true) {t' : State} (ht : execIminImm f s = .next t') : t'.memOk = true :=
  aluI_memOk h ht

theorem execImax_memOk {f : FmtR} (h : s.memOk = true) {t' : State} (ht : execImax f s = .next t') : t'.memOk = true :=
  aluR_memOk h ht

theorem execImaxImm_memOk {f : FmtI} (h : s.memOk = true) {t' : State} (ht : execImaxImm f s = .next t') : t'.memOk = true :=
  aluI_memOk h ht

theorem execIabs_memOk {f : FmtR} (h : s.memOk = true) {t' : State} (ht : execIabs f s = .next t') : t'.memOk = true :=
  aluR_memOk h ht

theorem execIcmp_memOk {f : FmtR} (h : s.memOk = true) {t' : State} (ht : execIcmp f s = .next t') : t'.memOk = true :=
  cmpR_memOk h ht

theorem execIcmpImm_memOk {f : FmtI} (h : s.memOk = true) {t' : State} (ht : execIcmpImm f s = .next t') : t'.memOk = true :=
  cmpI_memOk h ht

theorem execShl_memOk {f : FmtR} (h : s.memOk = true) {t' : State} (ht : execShl f s = .next t') : t'.memOk = true :=
  aluR_memOk h ht

theorem execShlImm_memOk {f : FmtI} (h : s.memOk = true) {t' : State} (ht : execShlImm f s = .next t') : t'.memOk = true :=
  aluI_memOk h ht

theorem execShr_memOk {f : FmtR} (h : s.memOk = true) {t' : State} (ht : execShr f s = .next t') : t'.memOk = true :=
  aluR_memOk h ht

theorem execShrImm_memOk {f : FmtI} (h : s.memOk = true) {t' : State} (ht : execShrImm f s = .next t') : t'.memOk = true :=
  aluI_memOk h ht

theorem execSar_memOk {f : FmtR} (h : s.memOk = true) {t' : State} (ht : execSar f s = .next t') : t'.memOk = true :=
  aluR_memOk h ht

theorem execSarImm_memOk {f : FmtI} (h : s.memOk = true) {t' : State} (ht : execSarImm f s = .next t') : t'.memOk = true :=
  aluI_memOk h ht

theorem execLog3_memOk {f : FmtR} (h : s.memOk = true) {t' : State} (ht : execLog3 f s = .next t') : t'.memOk = true :=
  aluR_memOk h ht

theorem execPopc_memOk {f : FmtR} (h : s.memOk = true) {t' : State} (ht : execPopc f s = .next t') : t'.memOk = true :=
  aluR_memOk h ht

theorem execClz_memOk {f : FmtR} (h : s.memOk = true) {t' : State} (ht : execClz f s = .next t') : t'.memOk = true :=
  aluR_memOk h ht

theorem execBrev_memOk {f : FmtR} (h : s.memOk = true) {t' : State} (ht : execBrev f s = .next t') : t'.memOk = true :=
  aluR_memOk h ht

theorem execBfx_memOk {f : FmtR} (h : s.memOk = true) {t' : State} (ht : execBfx f s = .next t') : t'.memOk = true :=
  aluR_memOk h ht

theorem execBfi_memOk {f : FmtR} (h : s.memOk = true) {t' : State} (ht : execBfi f s = .next t') : t'.memOk = true :=
  aluR_memOk h ht

theorem execLea_memOk {f : FmtR} (h : s.memOk = true) {t' : State} (ht : execLea f s = .next t') : t'.memOk = true :=
  aluR_memOk h ht

theorem execSel_memOk {f : FmtR} (h : s.memOk = true) {t' : State} (ht : execSel f s = .next t') : t'.memOk = true :=
  aluR_memOk h ht

theorem execMov_memOk {f : FmtR} (h : s.memOk = true) {t' : State} (ht : execMov f s = .next t') : t'.memOk = true :=
  aluR_memOk h ht

theorem execMovi_memOk {f : FmtL} (h : s.memOk = true) {t' : State} (ht : execMovi f s = .next t') : t'.memOk = true :=
  onSplit_memOk (fun _ => State.put_memOk h) ht

/-! ### `Machine/Lane` -/

theorem execShfl_memOk {f : FmtR} (h : s.memOk = true) {t' : State} (ht : execShfl f s = .next t') : t'.memOk = true := by
  rw [execShfl] at ht
  refine onSplit_memOk (fun c => ?_) ht
  extract_lets n src d
  exact State.put_memOk h

theorem execVote_memOk {f : FmtR} (h : s.memOk = true) {t' : State} (ht : execVote f s = .next t') : t'.memOk = true := by
  rw [execVote] at ht
  refine onSplit_memOk (fun c => ?_) ht
  extract_lets m d ps yes
  split <;> exact State.put_memOk h

theorem execRedg_memOk {f : FmtR} (h : s.memOk = true) {t' : State} (ht : execRedg f s = .next t') : t'.memOk = true := by
  rw [execRedg] at ht
  refine onSplit_memOk (fun c => ?_) ht
  extract_lets op r
  exact State.put_memOk h

theorem execScang_memOk {f : FmtR} (h : s.memOk = true) {t' : State} (ht : execScang f s = .next t') : t'.memOk = true := by
  rw [execScang] at ht
  refine onSplit_memOk (fun c => ?_) ht
  extract_lets op at_
  exact State.put_memOk h

/-! ### `Machine/Manage` -/

theorem State.modMgmt_memOk {f : Mgmt → Mgmt} (h : s.memOk = true) : (s.modMgmt f).memOk = true := h

theorem State.modHealth_memOk {f : Health → Health} (h : s.memOk = true) : (s.modHealth f).memOk = true := State.modMgmt_memOk h

theorem State.eccEnd_memOk {x detail : ℕ} (h : s.memOk = true) : (s.eccEnd x detail).memOk = true := State.endContext_memOk h

theorem State.signal_memOk {d : ℕ} (h : s.memOk = true) : (s.signal d).memOk = true := State.modMgmt_memOk h

theorem State.freeSection_memOk (h : s.memOk = true) : (s.freeSection).1.memOk = true := State.freeBytes_memOk (State.pick_memOk h)

theorem State.writeDump_memOk {d : ℕ} {records : List Byte} (h : s.memOk = true) : (s.writeDump d records).memOk = true := by
  rw [State.writeDump]
  refine State.signal_memOk (State.modMgmt_memOk ?_)
  split
  · exact State.hbmWrite_memOk (State.freeSection_memOk (State.freeSection_memOk (State.freeSection_memOk (State.freeSection_memOk h))))
  · exact State.freeSection_memOk (State.freeSection_memOk (State.freeSection_memOk (State.freeSection_memOk h)))

theorem State.dropDie_memOk {d : ℕ} (h : s.memOk = true) : (s.dropDie d).memOk = true := by
  obtain ⟨hhbm, hcores⟩ := State.memOk_iff.mp h
  refine State.memOk_iff.mpr ⟨wf_filter _ _ hhbm, fun k hk => ?_⟩
  obtain ⟨k₀, hk₀, rfl⟩ := List.mem_map.mp hk
  dsimp only
  split
  · rfl
  · exact hcores k₀ hk₀

theorem State.killDie_memOk {d : ℕ} (h : s.memOk = true) : (s.killDie d).memOk = true := by
  rw [State.killDie]
  extract_lets lost s1 records s2 s3 s4 s5 dev s6
  have hs1 : s1.memOk = true := State.modMgmt_memOk (State.modDie_memOk h)
  have hs2 : s2.memOk = true := foldl_memOk hs1 fun _ _ h1 => State.eccEnd_memOk h1
  have hs3 : s3.memOk = true := hs2
  have hs4 : s4.memOk = true := foldl_memOk hs3 fun _ _ h1 => State.releaseCtx_memOk h1
  have hs5 : s5.memOk = true := State.dropDie_memOk hs4
  have hs6 : s6.memOk = true := by
    unfold s6
    split <;> exact State.modMgmt_memOk hs5
  split
  · exact h
  · exact State.writeDump_memOk hs6

theorem State.stripSend_memOk {w : StripWhat} (h : s.memOk = true) : (s.stripSend w).memOk = true := by
  rw [State.stripSend]
  split
  · exact h
  · extract_lets n
    split
    · exact h
    · exact State.modMgmt_memOk h

theorem State.stripAck_memOk {src dst seq : ℕ} (h : s.memOk = true) : (s.stripAck src dst seq).memOk = true := by
  rw [State.stripAck]
  split
  · exact h
  · exact State.modMgmt_memOk h

theorem State.stripApply_memOk {w : StripWhat} (h : s.memOk = true) : (s.stripApply w).memOk = true := by
  have hrun {o : Out} (ho : ∀ {t}, o = .next t → t.memOk = true) : (match o with | .next t => t | _ => s).memOk = true := by
    split
    · exact ho rfl
    · exact h
  fun_cases s.stripApply w with
  | case1 => exact State.lanePart_memOk h
  | case2 => exact foldl_memOk h fun _ _ ht => State.copyPart_memOk ht
  | case4 => exact hrun (execDrainRow_memOk h)
  | case5 =>
    split
    · exact hrun (execRingTileAccept_memOk h)
    · exact hrun (execRingTileArrive_memOk h)
  | case7 => exact State.modDie_memOk (State.walkRecall_memOk h)
  | _ => exact h

theorem State.cutRequests_memOk {b : Break} (h : s.memOk = true) : (s.cutRequests b).memOk = true :=
  State.modMgmt_memOk (foldl_memOk h fun _ _ h1 => State.stripSend_memOk h1)

theorem State.declare_memOk {b : Break} (h : s.memOk = true) : (s.declare b).memOk = true := by
  rw [State.declare]
  refine foldl_memOk ?_ fun _ _ h1 => State.killDie_memOk h1
  split
  · refine State.modMgmt_memOk (State.cutRequests_memOk ?_)
    split
    · exact h
    · exact State.pick_memOk h
  · refine State.killDie_memOk (State.modMgmt_memOk (State.cutRequests_memOk ?_))
    split
    · exact h
    · exact State.pick_memOk h

theorem State.failDie_memOk {d : ℕ} (h : s.memOk = true) : (s.failDie d).memOk = true := by
  rw [State.failDie]
  split
  · exact h
  · exact State.declare_memOk h

theorem execDieHeartbeatTimeout_memOk {die : ℕ} (h : s.memOk = true) {t' : State} (ht : execDieHeartbeatTimeout die s = .next t') :
    t'.memOk = true := by
  rw [execDieHeartbeatTimeout] at ht
  cases ht
  exact State.failDie_memOk h

theorem execDieFatalError_memOk {die : ℕ} (h : s.memOk = true) {t' : State} (ht : execDieFatalError die s = .next t') :
    t'.memOk = true := by
  rw [execDieFatalError] at ht
  cases ht
  exact State.failDie_memOk h

theorem execDieOvertemp_memOk {die : ℕ} (h : s.memOk = true) {t' : State} (ht : execDieOvertemp die s = .next t') :
    t'.memOk = true := by
  rw [execDieOvertemp] at ht
  cases ht
  exact State.failDie_memOk h

theorem execPartitionReform_memOk {dev : ℕ} (h : s.memOk = true) {t' : State} (ht : execPartitionReform dev s = .next t') :
    t'.memOk = true := by
  rw [execPartitionReform] at ht
  cases ht
  split
  · exact h
  · obtain ⟨hhbm, hcores⟩ := State.memOk_iff.mp h
    exact State.memOk_iff.mpr ⟨wf_filter _ _ hhbm, hcores⟩

theorem execHostDumpAck_memOk (h : s.memOk = true) {t' : State} (ht : execHostDumpAck s = .next t') : t'.memOk = true := by
  rw [execHostDumpAck] at ht
  cases ht
  split
  · exact h
  · exact State.modMgmt_memOk h

theorem State.modLink_memOk {k : ℕ} {f : Link → Link} (h : s.memOk = true) : (s.modLink k f).memOk = true := State.modMgmt_memOk h

theorem State.useSpare_memOk {chan : ℕ} {l : Link} (h : s.memOk = true) : (s.useSpare chan l).memOk = true := by
  rw [State.useSpare]
  split
  · exact h
  · split
    · exact State.modLink_memOk (State.modLink_memOk h)
    · exact State.modMgmt_memOk h

theorem State.retire_memOk {chan : ℕ} (h : s.memOk = true) : (s.retire chan).memOk = true := by
  rw [State.retire]
  extract_lets l s1 dir n other s2
  have hs1 : s1.memOk = true := State.useSpare_memOk (State.modLink_memOk h)
  have hs2 : s2.memOk = true := State.modHealth_memOk hs1
  split
  · exact h
  · split
    · exact State.declare_memOk hs2
    · exact hs2

theorem execChannelRetire_memOk {chan : ℕ} (h : s.memOk = true) {t' : State} (ht : execChannelRetire chan s = .next t') :
    t'.memOk = true := by
  rw [execChannelRetire] at ht
  cases ht
  exact State.retire_memOk h

theorem State.frameSend_memOk {chan : ℕ} {flits : List Flit} (h : s.memOk = true) : (s.frameSend chan flits).memOk = true := by
  rw [State.frameSend]
  extract_lets f
  split
  · exact h
  · exact State.modMgmt_memOk (State.modLink_memOk h)

theorem State.deliverFrame_memOk {chan : ℕ} {f : Frame} (h : s.memOk = true) : (s.deliverFrame chan f).memOk = true :=
  State.modMgmt_memOk (State.modLink_memOk h)

theorem execFrameReceive_memOk {chan seq : ℕ} {ok : Bool} (h : s.memOk = true) {t' : State}
    (ht : execFrameReceive chan seq ok s = .next t') : t'.memOk = true := by
  rw [execFrameReceive] at ht
  cases ht
  extract_lets s1 s2
  have hs1 : s1.memOk = true := State.modLink_memOk h
  have hs2 : s2.memOk = true := State.modHealth_memOk hs1
  split
  · exact h
  · split
    · split
      · exact h
      · split
        · exact hs2
        · split
          · exact State.deliverFrame_memOk hs2
          · split
            · exact State.retire_memOk hs2
            · exact State.modLink_memOk hs2
    · exact h

theorem execFrameReplay_memOk {chan : ℕ} (h : s.memOk = true) {t' : State} (ht : execFrameReplay chan s = .next t') :
    t'.memOk = true := by
  rw [execFrameReplay] at ht
  cases ht
  split
  · exact h
  · exact State.modLink_memOk h

theorem execRequestArrive_memOk {src dst seq : ℕ} (h : s.memOk = true) {t' : State}
    (ht : execRequestArrive src dst seq s = .next t') : t'.memOk = true := by
  rw [execRequestArrive] at ht
  cases ht
  split
  · exact h
  · extract_lets s₁ q what s₂
    have hs₂ : s₂.memOk = true := State.modMgmt_memOk (State.modMgmt_memOk h)
    clear_value s₂ what
    split
    · exact State.modMgmt_memOk h
    · split
      · exact State.stripApply_memOk hs₂
      · exact hs₂

theorem execPartmodeRequest_memOk {value : Word} (h : s.memOk = true) {t' : State} (ht : execPartmodeRequest value s = .next t') :
    t'.memOk = true := by
  rw [execPartmodeRequest] at ht
  cases ht
  exact State.requestMode_memOk h

theorem State.endAll_memOk (h : s.memOk = true) : (s.endAll).memOk = true := foldl_memOk h fun _ _ h1 => State.hostEnd_memOk h1

theorem State.saveAll_memOk (h : s.memOk = true) {t' : State} (ht : s.saveAll = some t') : t'.memOk = true := by
  rw [State.saveAll] at ht
  split at ht
  · cases ht
    exact State.preemptAll_memOk h
  · cases ht

theorem execModeChangeComplete_memOk (h : s.memOk = true) {t' : State} (ht : execModeChangeComplete s = .next t') :
    t'.memOk = true := by
  rw [execModeChangeComplete] at ht
  cases ht
  split
  · exact h
  · split
    · exact h
    · rename_i u he
      have hu : u.endAll.memOk = true := State.endAll_memOk (State.saveAll_memOk h he)
      extract_lets u₁ onDie onCore u₂ u₃
      split
      · exact hu
      · obtain ⟨hhbm, hcores⟩ := State.memOk_iff.mp hu
        refine State.memOk_iff.mpr ⟨wf_filter _ _ hhbm, fun k hk => ?_⟩
        obtain ⟨k₀, hk₀, rfl⟩ := List.mem_map.mp hk
        exact hcores k₀ hk₀

theorem execModeChangeDrainTimeout_memOk (h : s.memOk = true) {t' : State} (ht : execModeChangeDrainTimeout s = .next t') :
    t'.memOk = true := by
  rw [execModeChangeDrainTimeout] at ht
  cases ht
  split
  · exact h
  · split
    · exact h
    · rename_i u he
      have hu : u.memOk = true := State.saveAll_memOk h he
      exact State.modMgmt_memOk (State.endAll_memOk hu)

theorem execTimeSyncMessage_memOk {die skew : ℕ} (h : s.memOk = true) {t' : State} (ht : execTimeSyncMessage die skew s = .next t') :
    t'.memOk = true := by
  rw [execTimeSyncMessage] at ht
  cases ht
  split
  · exact h
  · exact State.modDie_memOk h

theorem State.followTime_memOk (h : s.memOk = true) : (s.followTime).memOk = true := h

theorem execTimeMasterFailover_memOk (h : s.memOk = true) {t' : State} (ht : execTimeMasterFailover s = .next t') :
    t'.memOk = true := by
  rw [execTimeMasterFailover] at ht
  cases ht
  split
  · exact State.modHealth_memOk (State.modMgmt_memOk h)
  · split
    · exact State.followTime_memOk (State.modHealth_memOk (State.modMgmt_memOk (State.account_memOk h)))
    · exact h

theorem execLaneFailure_memOk {core slot lane : ℕ} (h : s.memOk = true) {t' : State}
    (ht : execLaneFailure core slot lane s = .next t') : t'.memOk = true := by
  rw [execLaneFailure] at ht
  cases ht
  extract_lets bad ts
  split
  · exact h
  · split
    · exact h
    · refine State.modCore_memOk_of_arr (State.preemptAll_memOk h) fun c => ?_
      rfl

theorem execInServiceTest_memOk {core : ℕ} (h : s.memOk = true) {t' : State} (ht : execInServiceTest core s = .next t') :
    t'.memOk = true := by
  rw [execInServiceTest] at ht
  cases ht
  split
  · refine State.modCore_memOk_of_arr (State.preemptAll_memOk h) fun c => ?_
    rfl
  · exact h

theorem State.wrapNow_memOk (h : s.memOk = true) : (s.wrapNow).memOk = true := State.modMgmt_memOk h

theorem execPowerOnBringup_memOk {stored failed : ℕ} (_ : s.memOk = true) {t' : State}
    (ht : execPowerOnBringup stored failed s = .next t') : t'.memOk = true := by
  rw [execPowerOnBringup] at ht
  cases ht
  refine foldl_memOk (foldl_memOk (State.memOk_iff.mpr ⟨rfl, fun k hk => ?_⟩) fun t d ht => ?_) fun t b ht => ?_
  · obtain ⟨k₀, -, rfl⟩ := List.mem_map.mp hk
    rfl
  · split
    · exact State.wrapNow_memOk (State.failDie_memOk ht)
    · exact ht
  · split
    · exact State.wrapNow_memOk (State.declare_memOk ht)
    · exact ht

theorem State.setCap_memOk {watts : ℕ} (h : s.memOk = true) : (s.setCap watts).memOk = true := by
  rw [State.setCap]
  split
  · exact State.modMgmt_memOk h
  · exact h

theorem execPowerCapSet_memOk {watts : ℕ} (h : s.memOk = true) {t' : State} (ht : execPowerCapSet watts s = .next t') :
    t'.memOk = true := by
  rw [execPowerCapSet] at ht
  cases ht
  split
  · exact h
  · exact State.setCap_memOk h

theorem execPowerGating_memOk {matrix vector : List ℕ} (h : s.memOk = true) {t' : State}
    (ht : execPowerGating matrix vector s = .next t') : t'.memOk = true := by
  rw [execPowerGating] at ht
  cases ht
  split
  · exact State.modMgmt_memOk h
  · exact h

theorem execThermalLimit_memOk (h : s.memOk = true) {t' : State} (ht : execThermalLimit s = .next t') : t'.memOk = true := by
  rw [execThermalLimit] at ht
  cases ht
  exact State.modHealth_memOk (State.modMgmt_memOk h)

theorem execFirmwareBankSwitch_memOk (h : s.memOk = true) {t' : State} (ht : execFirmwareBankSwitch s = .next t') :
    t'.memOk = true := by
  rw [execFirmwareBankSwitch] at ht
  cases ht
  split
  · exact State.modMgmt_memOk h
  · exact h

theorem execLysjaWatchdogTakeover_memOk (h : s.memOk = true) {t' : State} (ht : execLysjaWatchdogTakeover s = .next t') :
    t'.memOk = true := by
  rw [execLysjaWatchdogTakeover] at ht
  cases ht
  exact State.modMgmt_memOk h

theorem execHealthSample_memOk {corrected : ℕ} (h : s.memOk = true) {t' : State} (ht : execHealthSample corrected s = .next t') :
    t'.memOk = true := by
  rw [execHealthSample] at ht
  cases ht
  exact State.modHealth_memOk h

theorem execEccCorrected_memOk {count : ℕ} (h : s.memOk = true) {t' : State} (ht : execEccCorrected count s = .next t') :
    t'.memOk = true := by
  rw [execEccCorrected] at ht
  cases ht
  exact State.modHealth_memOk h

theorem execEccUncorrectable_memOk {owner : Option ℕ} {die kind : ℕ} (h : s.memOk = true) {t' : State}
    (ht : execEccUncorrectable owner die kind s = .next t') : t'.memOk = true := by
  unfold execEccUncorrectable at ht
  cases ht
  split
  · split
    · exact State.eccEnd_memOk h
    · exact h
  · exact State.failDie_memOk h

theorem State.bindWork_memOk {die ctx q hw desc : ℕ} (h : s.memOk = true) : (s.bindWork die ctx q hw desc).memOk = true := by
  rw [State.bindWork]
  split
  · exact h
  · exact State.modDie_memOk h

theorem State.bindRemote_memOk {die ctx q desc : ℕ} (h : s.memOk = true) : (s.bindRemote die ctx q desc).memOk = true := by
  fun_cases s.bindRemote die ctx q desc with
  | case4 => exact State.showConn_memOk (State.modFab_memOk (State.recallSpan_memOk h))
  | _ => exact h

theorem State.newCtx_memOk {x rootDie rootOff priv owner fqBase fqSize save : ℕ} (h : s.memOk = true) :
    (s.newCtx x rootDie rootOff priv owner fqBase fqSize save).memOk = true := by
  fun_cases s.newCtx x rootDie rootOff priv owner fqBase fqSize save with
  | case1 => exact h
  | case2 =>
    obtain ⟨hhbm, hcores⟩ := State.memOk_iff.mp h
    refine State.memOk_iff.mpr ⟨hhbm, fun k hk => ?_⟩
    obtain ⟨k₀, hk₀, rfl⟩ := List.mem_map.mp hk
    exact hcores k₀ hk₀

theorem execMailboxCommand_memOk {m : Mailbox} (h : s.memOk = true) {t' : State} (ht : execMailboxCommand m s = .next t') :
    t'.memOk = true := by
  rw [execMailboxCommand] at ht
  cases ht
  split
  · exact h
  · split
    · exact State.modMgmt_memOk h
    · exact State.modMgmt_memOk h
    · exact State.setCap_memOk h
    · exact State.modFab_memOk h
    · exact State.modFab_memOk h
    · exact State.bindWork_memOk h
    · exact State.bindRemote_memOk h
    · exact State.newCtx_memOk h
    · exact State.modMgmt_memOk h
    · exact State.modMgmt_memOk h
    · exact State.modDie_memOk h
    · exact State.modMgmt_memOk h
    · exact h

/-! ### `Machine/System` -/

theorem State.sharedSet_memOk {die x id : ℕ} {v : DWord} (h : s.memOk = true) : (s.sharedSet die x id v).memOk = true := by
  unfold State.sharedSet
  split
  · exact State.modCtx_memOk h
  · exact State.modCtx_memOk h
  · exact State.modDie_memOk h
  · exact State.modCtx_memOk h
  · exact State.requestMode_memOk h
  · exact State.writeSlottab_memOk h
  · exact State.modFab_memOk h
  · exact State.modCtx_memOk h
  · exact State.modDie_memOk h
  · exact State.modCtx_memOk h
  · exact h

theorem State.sysSet_memOk {c : Cur} {id : ℕ} {v : DWord} (h : s.memOk = true) : (s.sysSet c id v).memOk = true := by
  rw [State.sysSet]
  extract_lets orig
  split
  · exact State.put_memOk h
  · exact State.sharedSet_memOk h

theorem execMovsr_memOk {f : FmtS} (h : s.memOk = true) {t' : State} (ht : execMovsr f s = .next t') : t'.memOk = true := by
  rw [execMovsr] at ht
  refine onSplit_memOk (fun c => ?_) ht
  split
  · exact h
  · split
    · exact State.protAt_memOk h
    · exact State.put_memOk h

theorem execMovsrWrite_memOk {f : FmtS} (h : s.memOk = true) {t' : State} (ht : execMovsrWrite f s = .next t') : t'.memOk = true := by
  rw [execMovsrWrite] at ht
  refine onSplit_memOk (fun c => ?_) ht
  split
  · exact h
  · split
    · exact State.protAt_memOk h
    · exact State.sysSet_memOk h

theorem execSystemRegisterWrite_memOk {die ctx id : ℕ} {value : DWord} (h : s.memOk = true) {t' : State}
    (ht : execSystemRegisterWrite die ctx id value s = .next t') : t'.memOk = true := by
  unfold execSystemRegisterWrite at ht
  cases ht
  split
  · exact State.sharedSet_memOk h
  · exact State.sharedSet_memOk h
  · exact State.sharedSet_memOk h
  · exact State.sharedSet_memOk h
  · exact State.sharedSet_memOk h
  · exact State.sharedSet_memOk h
  · exact State.sharedSet_memOk h
  · exact State.sharedSet_memOk h
  · exact h

theorem execMovsv_memOk {f : FmtS} (h : s.memOk = true) {t' : State} (ht : execMovsv f s = .next t') : t'.memOk = true :=
  onSplit_memOk (fun _ => State.put_memOk h) ht

theorem readScalar_memOk {f : FmtS} {wide : Bool} {val : Cur → DWord} (h : s.memOk = true) {t' : State}
    (ht : readScalar f wide s val = .next t') : t'.memOk = true := onSplit_memOk (fun _ => State.put_memOk h) ht

theorem execCycle_memOk {f : FmtS} (h : s.memOk = true) {t' : State} (ht : execCycle f s = .next t') : t'.memOk = true :=
  readScalar_memOk h ht

theorem readLate_memOk {i : Instr} {f : FmtS} {wide : Bool} {val : Cur → DWord} (h : s.memOk = true) {t' : State}
    (ht : readLate i f wide s val = .next t') : t'.memOk = true := by
  rw [readLate] at ht
  refine onSplit_memOk (fun c => ?_) ht
  split
  · exact h
  · exact State.put_memOk h

theorem execTime_memOk {f : FmtS} (h : s.memOk = true) {t' : State} (ht : execTime f s = .next t') : t'.memOk = true :=
  readLate_memOk h ht

theorem execPgdist_memOk {f : FmtS} (h : s.memOk = true) {t' : State} (ht : execPgdist f s = .next t') : t'.memOk = true :=
  readLate_memOk h ht

theorem execSetfmt_memOk {f : FmtS} (h : s.memOk = true) {t' : State} (ht : execSetfmt f s = .next t') : t'.memOk = true := by
  rw [execSetfmt] at ht
  refine onSplit_memOk (fun c => ?_) ht
  extract_lets orig
  split
  · exact State.put_memOk h
  · exact h

/-! ### `Machine/Dispatch` -/

theorem exec_memOk {i : Instr} (h : s.memOk = true) {t' : State} (ht : exec i s = .next t') : t'.memOk = true := by
  unfold exec at ht
  split at ht
  · exact execNop_memOk h ht
  · exact execIadd_memOk h ht
  · exact execIaddImm_memOk h ht
  · exact execIsub_memOk h ht
  · exact execIsubImm_memOk h ht
  · exact execImul_memOk h ht
  · exact execImulImm_memOk h ht
  · exact execImad_memOk h ht
  · exact execImin_memOk h ht
  · exact execIminImm_memOk h ht
  · exact execImax_memOk h ht
  · exact execImaxImm_memOk h ht
  · exact execIabs_memOk h ht
  · exact execIcmp_memOk h ht
  · exact execIcmpImm_memOk h ht
  · exact execShl_memOk h ht
  · exact execShlImm_memOk h ht
  · exact execShr_memOk h ht
  · exact execShrImm_memOk h ht
  · exact execSar_memOk h ht
  · exact execSarImm_memOk h ht
  · exact execLog3_memOk h ht
  · exact execPopc_memOk h ht
  · exact execClz_memOk h ht
  · exact execBrev_memOk h ht
  · exact execBfx_memOk h ht
  · exact execBfi_memOk h ht
  · exact execLea_memOk h ht
  · exact execSel_memOk h ht
  · exact execMov_memOk h ht
  · exact execMovi_memOk h ht
  · exact execFadd_memOk h ht
  · exact execFaddImm_memOk h ht
  · exact execFmul_memOk h ht
  · exact execFmulImm_memOk h ht
  · exact execFfma_memOk h ht
  · exact execFmin_memOk h ht
  · exact execFminImm_memOk h ht
  · exact execFmax_memOk h ht
  · exact execFmaxImm_memOk h ht
  · exact execFcmp_memOk h ht
  · exact execFcmpImm_memOk h ht
  · exact execFrcp_memOk h ht
  · exact execFrsq_memOk h ht
  · exact execFsqrt_memOk h ht
  · exact execFex2_memOk h ht
  · exact execFlg2_memOk h ht
  · exact execFsin_memOk h ht
  · exact execFcos_memOk h ht
  · exact execFtanh_memOk h ht
  · exact execCvt_memOk h ht
  · exact execCvtef_memOk h ht
  · exact execPack4_memOk h ht
  · exact execUnpk4_memOk h ht
  · exact execShfl_memOk h ht
  · exact execVote_memOk h ht
  · exact execRedg_memOk h ht
  · exact execScang_memOk h ht
  · exact execLd_memOk h ht
  · exact execSt_memOk h ht
  · exact execLdrsv_memOk h ht
  · exact execStcnd_memOk h ht
  · exact execAtom_memOk h ht
  · exact execAtcas_memOk h ht
  · exact execRed_memOk h ht
  · exact execFence_memOk h ht
  · exact execPref_memOk h ht
  · exact execStashm_memOk h ht
  · exact execStashw_memOk h ht
  · exact execStashu_memOk h ht
  · exact execCpy_memOk h ht
  · exact execCpyt_memOk h ht
  · exact execCloseb_memOk h ht
  · exact execWaitb_memOk h ht
  · exact execBufcfg_memOk h ht
  · exact execBufwait_memOk h ht
  · exact execBufrel_memOk h ht
  · exact execLnstart_memOk h ht
  · exact execLnstop_memOk h ht
  · exact execMma_memOk h ht
  · exact execMmas_memOk h ht
  · exact execMdrain_memOk h ht
  · exact execEpload_memOk h ht
  · exact execBra_memOk h ht
  · exact execBrx_memOk h ht
  · exact execCall_memOk h ht
  · exact execRet_memOk h ht
  · exact execRetT_memOk h ht
  · exact execMerge_memOk h ht
  · exact execLoop_memOk h ht
  · exact execExit_memOk h ht
  · exact execYield_memOk h ht
  · exact execTrap_memOk h ht
  · exact execBkpt_memOk h ht
  · exact execBar_memOk h ht
  · exact execBara_memOk h ht
  · exact execBarw_memOk h ht
  · exact execMovsr_memOk h ht
  · exact execMovsrWrite_memOk h ht
  · exact execMovsv_memOk h ht
  · exact execTime_memOk h ht
  · exact execCycle_memOk h ht
  · exact execPgdist_memOk h ht
  · exact execSetfmt_memOk h ht
  · exact execRag_memOk h ht
  · exact execRrs_memOk h ht
  · exact execRhnd_memOk h ht
  · exact execRwait_memOk h ht
  · exact execRrank_memOk h ht
  · exact execRput_memOk h ht
  · exact execRget_memOk h ht
  · exact execRatom_memOk h ht
  · exact execRpost_memOk h ht
  · exact execRpostGet_memOk h ht
  · exact execRcqw_memOk h ht
  · exact execWreg_memOk h ht
  · exact execWrev_memOk h ht
  · exact execTasknew_memOk h ht
  · exact execTaskdec_memOk h ht
  · exact execTemit_memOk h ht
  · exact execQpull_memOk h ht
  · exact execQpush_memOk h ht
  · exact execQpushClose_memOk h ht
  · exact execArrv_memOk h ht
  · exact execSnew_memOk h ht
  · exact execSres_memOk h ht
  · exact execScommit_memOk h ht
  · exact execSfork_memOk h ht
  · exact execSlen_memOk h ht
  · exact execSrel_memOk h ht
  · exact execSseek_memOk h ht
  · exact execKst_memOk h ht
  · exact execBgath_memOk h ht
  · exact execProjld_memOk h ht
  · exact execProjldFree_memOk h ht
  · exact execFlpop_memOk h ht
  · exact execFlpush_memOk h ht
  · exact execPfxfind_memOk h ht
  · exact execPfxins_memOk h ht
  · exact execHashb_memOk h ht
  · exact execPlcq_memOk h ht
  · exact execPlcqShort_memOk h ht
  · exact execEpadd_memOk h ht
  · exact execEpmul_memOk h ht
  · exact execEpfma_memOk h ht
  · exact execEpmax_memOk h ht
  · exact execEpmin_memOk h ht
  · exact execEpexp_memOk h ht
  · exact execEplut_memOk h ht
  · exact execEpcvt_memOk h ht
  · exact execEpbias_memOk h ht
  · exact execEpscl_memOk h ht
  · exact execEpst_memOk h ht
  · exact execEpend_memOk h ht
  · exact execClauseBegin_memOk h ht
  · exact execSplitMerge_memOk h ht
  · exact execMergeComplete_memOk h ht
  · exact execParkTimeout_memOk h ht
  · exact execFairnessYield_memOk h ht
  · exact execLoadReturn_memOk h ht
  · exact execStorePerformed_memOk h ht
  · exact execSplitExitComplete_memOk h ht
  · exact execMatrixOpComplete_memOk h ht
  · exact execMatrixPassStart_memOk h ht
  · exact execDrainRow_memOk h ht
  · exact execEpiloguePlaceTake_memOk h ht
  · exact execCopyComplete_memOk h ht
  · exact execEngineCommandStart_memOk h ht
  · exact execEngineCommandComplete_memOk h ht
  · exact execBufferEntryTake_memOk h ht
  · exact execBufcfgTakeEffect_memOk h ht
  · exact execWindlassRunStart_memOk h ht
  · exact execWindlassIteration_memOk h ht
  · exact execQpullWake_memOk h ht
  · exact execQpushAppend_memOk h ht
  · exact execProjldTakeEffect_memOk h ht
  · exact execDieSchedulerPlace_memOk h ht
  · exact execTaskBlocking_memOk h ht
  · exact execStarvationForcedPlacement_memOk h ht
  · exact execTeamCompletionEvent_memOk h ht
  · exact execGraphRecordWritten_memOk h ht
  · exact execGraphNodeLaunch_memOk h ht
  · exact execGraphFlushTimeout_memOk h ht
  · exact execHostTaskDoorbell_memOk h ht
  · exact execStashRecall_memOk h ht
  · exact execWeathervaneDecay_memOk h ht
  · exact execMigrationRequest_memOk h ht
  · exact execTlbInvalidateCommand_memOk h ht
  · exact execHostBar2Access_memOk h ht
  · exact execHostContextResume_memOk h ht
  · exact execHostContextSwitch_memOk h ht
  · exact execContextEnd_memOk h ht
  · exact execHostSetDebugMode_memOk h ht
  · exact execTeamStop_memOk h ht
  · exact execHostSingleStep_memOk h ht
  · exact execHostResumeGroup_memOk h ht
  · exact execFrameReceive_memOk h ht
  · exact execFrameReplay_memOk h ht
  · exact execChannelRetire_memOk h ht
  · exact execRequestArrive_memOk h ht
  · exact execDieHeartbeatTimeout_memOk h ht
  · exact execDieFatalError_memOk h ht
  · exact execDieOvertemp_memOk h ht
  · exact execWrapEffect_memOk h ht
  · exact execPartitionReform_memOk h ht
  · exact execHostDumpAck_memOk h ht
  · exact execPartmodeRequest_memOk h ht
  · exact execModeChangeComplete_memOk h ht
  · exact execModeChangeDrainTimeout_memOk h ht
  · exact execTimeSyncMessage_memOk h ht
  · exact execTimeMasterFailover_memOk h ht
  · exact execPowerOnBringup_memOk h ht
  · exact execPowerCapSet_memOk h ht
  · exact execPowerGating_memOk h ht
  · exact execThermalLimit_memOk h ht
  · exact execFirmwareBankSwitch_memOk h ht
  · exact execMailboxCommand_memOk h ht
  · exact execHealthSample_memOk h ht
  · exact execLysjaWatchdogTakeover_memOk h ht
  · exact execLaneFailure_memOk h ht
  · exact execEccCorrected_memOk h ht
  · exact execEccUncorrectable_memOk h ht
  · exact execRingTileArrive_memOk h ht
  · exact execRingTileAccept_memOk h ht
  · exact execRwaitSatisfied_memOk h ht
  · exact execFabricSlotBegin_memOk h ht
  · exact execSlottabEnable_memOk h ht
  · exact execSlottabDisable_memOk h ht
  · exact execSlotTableTakeEffect_memOk h ht
  · exact execFabricPacketReceive_memOk h ht
  · exact execRelayForward_memOk h ht
  · exact execFabricAckReceive_memOk h ht
  · exact execFabricRetransmit_memOk h ht
  · exact execConnectionReset_memOk h ht
  · exact execRpostDeadline_memOk h ht
  · exact execRcqwSatisfied_memOk h ht
  · exact execChannelIsolation_memOk h ht
  · exact execSystemRegisterWrite_memOk h ht
  · exact execInServiceTest_memOk h ht

/-! ### `Machine/Issue` -/

theorem State.finish_memOk {r : Ref} (h : s.memOk = true) : (s.finish r).memOk = true := by
  rw [State.finish]
  split
  · exact h
  · extract_lets s1
    have hs1 : s1.memOk = true := by
      unfold s1
      split
      · exact State.put_memOk h
      · exact h
    split
    · split
      · exact State.reap_memOk (State.endSplit_memOk hs1)
      · exact hs1
    · exact hs1

theorem State.releases_memOk {c : Cur} {i : Instr} (h : s.memOk = true) : (s.releases c i).memOk = true := by
  unfold State.releases
  split
  · exact State.raiseFor_memOk h
  · exact h

theorem State.countPages_memOk {c : Cur} {id : ℕ} (h : s.memOk = true) : (s.countPages c id).memOk = true := by
  rw [State.countPages]
  split
  · exact h
  · exact foldl_memOk h fun _ _ h1 => State.recallAll_memOk (foldl_memOk h1 fun _ _ h2 => State.countMigr_memOk (State.walkRecall_memOk h2))

theorem State.guardedWindow_memOk {c : Cur} {i : Instr} (h : s.memOk = true) : (s.guardedWindow c i).memOk = true := by
  rw [State.guardedWindow]
  split
  · exact State.emptyWindow_memOk h
  · exact h

theorem State.issuing_memOk {c : Cur} {i : Instr} (h : s.memOk = true) : (s.issuing c i).memOk = true :=
  State.guardedWindow_memOk (State.releases_memOk (State.put_memOk h))

theorem State.noteScalars_memOk {t : State} {c : Cur} {i : Instr} (h : t.memOk = true) : (t.noteScalars c i).memOk = true := by
  rw [State.noteScalars]
  split
  · exact h
  · split
    · exact State.modGroup_memOk h
    · exact h

theorem State.noteVectors_memOk {t : State} {c : Cur} {i : Instr} (h : t.memOk = true) : (t.noteVectors c i).memOk = true := by
  rw [State.noteVectors]
  extract_lets m
  split
  · exact h
  · exact State.modSplit_memOk h

theorem State.footed_memOk {t : State} {c : Cur} {i : Instr} (h : t.memOk = true) : (t.footed s c i).memOk = true := by
  rw [State.footed]
  extract_lets fs
  split
  · exact State.modTeam_memOk h
  · exact h

theorem State.issued_memOk {c : Cur} {i : Instr} {t : State} (ht : t.memOk = true) :
    (s.issued c i t).memOk = true :=
  State.finish_memOk (State.unask_memOk (State.noteVectors_memOk (State.noteScalars_memOk (State.countPages_memOk (State.footed_memOk ht)))))

theorem State.later_memOk {c d : Cur} {i : Instr} {k : CmdKind} {foot : List Foot} {vps : List ℕ} (h : s.memOk = true) :
    (s.later c d i k foot vps).memOk = true := by
  rw [State.later]
  split
  rename_i u _ he
  have hu : u.memOk = true := memOk_of_fst (State.fresh_memOk h) he
  extract_lets d1 d2
  exact State.finish_memOk (State.noteScalars_memOk (State.put_memOk hu))

theorem State.handOver_memOk {c : Cur} {i : Instr} (h : s.memOk = true) {t' : State} (ht : s.handOver c i = some t') :
    t'.memOk = true := by
  rw [State.handOver] at ht
  extract_lets vps at ht
  split at ht
  · cases ht
    exact State.countPages_memOk (State.later_memOk (State.issuing_memOk h))
  · cases ht

theorem State.handItem_memOk {c : Cur} {f : FmtE} (h : s.memOk = true) {t' : State} (ht : s.handItem c f = some t') :
    t'.memOk = true := by
  rw [State.handItem] at ht
  obtain ⟨a₁, ha₁, ht⟩ := Option.bind_eq_some_iff.mp ht
  obtain ⟨a₂, ha₂, ht⟩ := Option.bind_eq_some_iff.mp ht
  have hma₂ : a₂.1.memOk = true := State.takeItem_memOk (State.issuing_memOk h) ha₂
  obtain ⟨a, ha, rfl⟩ := Option.map_eq_some_iff.mp ht
  exact State.later_memOk hma₂

theorem State.peersHold_memOk {c : Cur} {i : Instr} (h : s.memOk = true) {t' : State} (ht : s.peersHold c i = some t') :
    t'.memOk = true := by
  rw [State.peersHold] at ht
  extract_lets orig at ht
  split at ht
  · have ht' : t'.memOk = true := State.handOver_memOk h ht
    exact State.handOver_memOk h ht
  · obtain ⟨a, ha, rfl⟩ := Option.map_eq_some_iff.mp ht
    have hma : a.memOk = true := State.needPeers_memOk h ha
    exact State.put_memOk hma

theorem State.issue_memOk {c : Cur} {i : Instr} (h : s.memOk = true) {t' : State} (ht : s.issue c i = .next t') : t'.memOk = true := by
  revert ht
  fun_cases s.issue c i with
  | case1 =>
    rintro ⟨⟩
    exact h
  | case2 =>
    rintro ⟨⟩
    exact State.fatal_memOk h
  | case3 =>
    rintro ⟨⟩
    refine getD_memOk (fun {u} hu => ?_) (State.put_memOk h)
    split at hu
    · exact State.handOver_memOk h hu
    · cases hu
  | case4 =>
    rintro ⟨⟩
    exact State.peersHold_memOk h ‹_›
  | case5 =>
    rintro ⟨⟩
    exact State.issued_memOk (exec_memOk (State.issuing_memOk h) ‹_›)
  | case6 => exact exec_memOk (State.issuing_memOk h)

theorem State.issueLater_memOk {r : Ref} (h : s.memOk = true) : (s.issueLater r).memOk = true := by
  rw [State.issueLater]
  split
  · split
    · exact h
    · split
      · exact h
      · split
        · split
          · exact h
          · exact getD_memOk (State.handItem_memOk h) h
        · exact getD_memOk (State.handOver_memOk h) h
  · exact h

theorem State.splitStep_memOk {r : Ref} (h : s.memOk = true) {t' : State} (ht : s.splitStep r = .next t') : t'.memOk = true := by
  rw [State.splitStep] at ht
  split at ht
  · cases ht
    exact h
  · split at ht
    · cases ht
      exact h
    · split at ht
      · split at ht
        · cases ht
          exact h
        · split at ht
          · cases ht
            exact State.finish_memOk h
          · split at ht
            · cases ht
              exact State.fatal_memOk h
            · split at ht
              · cases ht
                exact h
              · split at ht
                · cases ht
                  exact State.fatal_memOk h
                · exact State.issue_memOk h ht
      · split at ht
        · exact exec_memOk h ht
        · exact exec_memOk h ht
        · split at ht
          · exact exec_memOk h ht
          · split at ht
            · exact exec_memOk h ht
            · split at ht <;> exact exec_memOk h ht

theorem State.epilogueStep_memOk {core : ℕ} (h : s.memOk = true) {t' : State} (ht : s.epilogueStep core = .next t') :
    t'.memOk = true := by
  revert ht
  fun_cases s.epilogueStep core with
  | case1 =>
    rintro ⟨⟩
    exact h
  | case2 w rest _ s₁ =>
    have hs₁ : s₁.memOk = true := State.modCore_memOk_of_arr h fun _ => rfl
    exact exec_memOk hs₁
  | case3 w rest _ s₁ =>
    have hs₁ : s₁.memOk = true := State.modCore_memOk_of_arr h fun _ => rfl
    clear_value s₁
    rintro ⟨⟩
    exact hs₁

theorem State.elapse_memOk {ns : ℕ} (h : s.memOk = true) : (s.elapse ns).memOk = true := by
  rw [State.elapse]
  extract_lets orig
  split
  · exact State.account_memOk (State.carryOn_memOk h)
  · exact State.followTime_memOk (State.account_memOk (State.carryOn_memOk h))

theorem State.boundary_memOk {r : Ref} (h : s.memOk = true) : (s.boundary r).memOk = true := by
  fun_cases s.boundary r with
  | case3 c _ _ o u he =>
    unfold o at he
    split at he
    · exact execMergeComplete_memOk h he
    · exact execSplitExitComplete_memOk h he
    · split at he
      · exact execSplitMerge_memOk h he
      · split at he
        · exact execParkTimeout_memOk h he
        · split at he
          · exact execFairnessYield_memOk h he
          · cases he
            exact State.startClause_memOk h
  | _ => exact h

theorem State.arbitrate_memOk {d : ℕ} (h : s.memOk = true) : (s.arbitrate d).memOk = true :=
  foldl_memOk (foldl_memOk h fun _ _ h1 => State.boundary_memOk h1) fun _ _ h1 => State.startClause_memOk h1

theorem State.passCycles_memOk {d n : ℕ} (h : s.memOk = true) : (s.passCycles d n).memOk = true := by
  unfold State.passCycles
  extract_lets s1 x
  have hs1 : s1.memOk = true := State.arbitrate_memOk h
  have hx : x.memOk = true := State.modDie_memOk hs1
  exact hx

theorem State.l1Drop_memOk {core sector : ℕ} (h : s.memOk = true) : (s.l1Drop core sector).memOk = true := by
  unfold State.l1Drop
  extract_lets s1
  have hs1 : s1.memOk = true := State.modCore_memOk_of_arr h fun _ => rfl
  exact hs1

theorem applyInput_memOk {x : Input} (h : s.memOk = true) {t' : State} (ht : applyInput x s = .next t') : t'.memOk = true := by
  unfold applyInput at ht
  extract_lets orig at ht
  split at ht
  · split at ht
    · exact exec_memOk h ht
    · cases ht
      exact h
  · cases ht
    exact h
  · cases ht
    exact State.l1Drop_memOk h
  · cases ht
    exact State.modDie_memOk h
  · cases ht
    exact State.copyPart_memOk h
  · cases ht
    exact State.modDie_memOk h
  · cases ht
    exact State.modCore_memOk_of_arr h fun _ => rfl
  · cases ht
    exact State.lanePart_memOk h
  · cases ht
    exact State.storeEarly_memOk h
  · cases ht
    exact State.storeMove_memOk h
  · cases ht
    exact State.keepView_memOk h
  · cases ht
    exact State.dropViews_memOk h
  · cases ht
    exact State.modGroup_memOk h
  · cases ht
    exact State.modGroup_memOk h
  · cases ht
    exact State.modCore_memOk_of_arr h fun _ => rfl
  · cases ht
    exact State.relayRefused_memOk h
  · cases ht
    exact State.peerAnswer_memOk h
  · cases ht
    exact State.frameSend_memOk h
  · cases ht
    split
    · exact State.modLink_memOk h
    · exact h
  · cases ht
    exact State.stripSend_memOk h
  · cases ht
    exact State.stripAck_memOk h
  · cases ht
    split
    · exact State.modDie_memOk h
    · exact h
  · cases ht
    exact State.modDie_memOk h
  · cases ht
    exact State.fetchCell_memOk h
  · cases ht
    exact State.tileRow_memOk h
  · cases ht
    exact State.issueLater_memOk h
  · cases ht
    exact State.stamp_memOk h
  · cases ht
    exact State.steer_memOk h
  · cases ht
    exact State.mgmtSend_memOk h
  · cases ht
    exact State.mgmtReceive_memOk h
  · cases ht
    split <;> exact h
  · cases ht
    exact State.elapse_memOk h
  · cases ht
    exact State.passCycles_memOk h

/-! ### `Machine/Step` -/

theorem step_memOk (h : s.memOk = true) {t' : State} (ht : step s = .next t') : t'.memOk = true := by
  revert ht
  fun_cases step s with
  | case1 x rest =>
    have hrest : State.memOk { s with agenda := rest } = true := h
    exact applyInput_memOk hrest
  | case2 =>
    rintro ⟨⟩
    exact h
  | case3 => exact State.splitStep_memOk h
  | case4 => exact State.epilogueStep_memOk h

end Sys2Proof.Machine
end

section
open Sys2Proof Sys2Proof.Machine

/-- Settles O59: `step_memOk`, which follows the step into every instruction, event and free input. -/
theorem stepKeepsMemoryForm : Obligations.StepKeepsMemoryForm := by
  unfold Obligations.StepKeepsMemoryForm
  intro s t h ht
  exact step_memOk h ht

end

section
/-! PROOFS. Where an acknowledgement goes while the links of the bridges are no map with rising keys (R9, R11, log 95).
`mput` writes a channel's link before the first larger key, and so a link that stands behind a larger key comes to stand a second
time before it. `Mgmt.place` takes the first link that names a spare: once the receiving channel stands in front, it finds another
channel than before the frame came in. -/
namespace Sys2Proof.Machine

/-- Links out of order, of channels 3 and 9 of direction 0 and of channel 3 of direction 1, which is 107. Channel 107 keeps a frame
that its receiver has taken; channel 3 has a frame on its wire. The first link that names 107 as its spare is that of 107, so that
channel 107 has place 3; but 3 names it too, and 9 names 3, so that with 3 in front its place is 9. -/
def crossedLinks : SMap Link :=
  [(107, { expect := 1, buf := [⟨0, []⟩], spare := some 107 }), (9, { spare := some 3 }),
   (3, { buf := [⟨0, []⟩], wire := [0], spare := some 107 })]

/-- Channel 3 carries the acknowledgements of channel 107 before it delivers its frame. -/
theorem opposite_crossedLinks : Mgmt.opposite { links := crossedLinks } 107 = some 3 := by decide

/-- The frame of channel 3 is delivered, and the frame that it acknowledges stays in the replay buffer of channel 107. -/
theorem frameReceive_crossedLinks :
    ∃ u : State, exec (.frameReceive 3 0 true) { mgmt := { links := crossedLinks } } = .next u ∧
      (mget {} u.mgmt.links 107).buf = [⟨0, []⟩] :=
  ⟨_, rfl, by decide⟩

end Sys2Proof.Machine
end

section
open Sys2Proof Sys2Proof.Machine

/-- Refutes O55: it speaks of every state, and over `crossedLinks`, whose keys do not rise, the frame that channel 3 delivers does not
take the acknowledged frame out of the replay buffer of channel 107, though channel 3 carried its acknowledgements before. -/
theorem not_packageEventsComplete : ¬ Obligations.PackageEventsComplete := by
  unfold Obligations.PackageEventsComplete
  intro h
  obtain ⟨-, -, -, -, -, hlinks, -⟩ := h { mgmt := { links := crossedLinks } }
  obtain ⟨hframes, -, -⟩ := hlinks 3 (by decide) rfl
  obtain ⟨-, -, -, hdelivers⟩ := hframes 0 ⟨0, []⟩ rfl rfl
  obtain ⟨t, ht, -, -, -, -, -, hacked⟩ := hdelivers rfl rfl
  have hempty : (mget {} t.mgmt.links 107).buf = [] := hacked 107 (by decide) opposite_crossedLinks
  obtain ⟨u, hu, hkept⟩ := frameReceive_crossedLinks
  obtain rfl : t = u := by simpa using ht.symm.trans hu
  simp [hkept] at hempty

end

section
open Sys2Proof Sys2Proof.Machine

/-- Settles O58: after reset every register has its default, and nothing is listed in a map or a memory. -/
theorem resetStateHolds : Obligations.ResetStateHolds := by
  unfold Obligations.ResetStateHolds
  refine ⟨rfl, ?goesOn, fun _ => rfl, fun _ _ => rfl, rfl, rfl, rfl, fun _ => ⟨rfl, rfl, rfl⟩, fun _ => ⟨rfl, rfl, rfl, rfl⟩, rfl, rfl,
    rfl, rfl, rfl⟩
  case goesOn =>
    have hstep : step State.reset = .next State.reset := rfl
    rw [State.goesOn, hstep]

end

section
/-! PROOFS. What pre-emption and the end of a context leave alone (R315, R322): the operations below write memory, L1s, counters,
connections and the inside of groups, but no context, no core's place in service and no team's status. One lemma for each, in the order of the
model's definitions. -/
namespace Sys2Proof.Machine

variable {α β : Type} {s t : State}

/-! ### Maps -/

/-- A lookup after a change of the values that leaves the keys, seen through a function that the change leaves. -/
theorem mget?_map_keep (φ : α → β) (f : Nat × α → Nat × α) (hf : ∀ p, (f p).1 = p.1 ∧ φ (f p).2 = φ p.2) (m : SMap α) (k : Nat) :
    (mget? (m.map f) k).map φ = (mget? m k).map φ := by
  induction m with
  | nil => rfl
  | cons p m ih =>
    obtain ⟨hkey, hval⟩ := hf p
    by_cases hk : p.1 = k <;> simp [mget?, hkey, hk, hval, ih]

/-- What a lookup finds is listed. -/
theorem mem_of_mget? {m : SMap α} {k : Nat} {v : α} (h : mget? m k = some v) : (k, v) ∈ m := by
  induction m with
  | nil => cases h
  | cons p m ih =>
    obtain ⟨k', v'⟩ := p
    by_cases hk : k' = k
    · simp_all [mget?]
    · exact List.mem_cons_of_mem _ (ih (by simpa [mget?, hk] using h))

/-- A lookup in a map whose values are functions of their keys. -/
theorem mget?_map_graph (f : Nat → α) (ks : List Nat) (k : Nat) : mget? (ks.map fun d => (d, f d)) k = if k ∈ ks then some (f k) else none := by
  induction ks with
  | nil => rfl
  | cons d ks ih =>
    by_cases hd : d = k
    · simp [mget?, hd]
    · simp [mget?, hd, ih, Ne.symm hd]

/-! ### The relation -/

/-- From `s` to `t` no context has changed, no core has been removed from placement, and no team has another status. -/
structure Undisturbed (s t : State) : Prop where
  ctxs : t.ctxs = s.ctxs
  removed : ∀ k, (t.core k).removed = (s.core k).removed
  status : ∀ tid, (mget? t.teams tid).map Team.status = (mget? s.teams tid).map Team.status

theorem Undisturbed.refl (s : State) : Undisturbed s s := ⟨rfl, fun _ => rfl, fun _ => rfl⟩

/-- The relation sees contexts, cores and teams alone. -/
theorem Undisturbed.congr (h : Undisturbed s t) {u : State} (hx : u.ctxs = t.ctxs) (hc : u.cores = t.cores) (ht : u.teams = t.teams) :
    Undisturbed s u := by
  refine ⟨hx.trans h.ctxs, fun k => ?_, fun tid => ?_⟩
  · rw [State.core, hc]; exact h.removed k
  · rw [ht]; exact h.status tid

theorem foldl_undisturbed {f : State → β → State} {l : List β} (h : Undisturbed s t)
    (hf : ∀ u b, Undisturbed s u → Undisturbed s (f u b)) : Undisturbed s (l.foldl f t) :=
  List.foldlRecOn (motive := Undisturbed s) l f h fun u hu b _ => hf u b hu

theorem foldl_fst_undisturbed {f : State × α → β → State × α} {l : List β} {p : State × α} (h : Undisturbed s p.1)
    (hf : ∀ q b, Undisturbed s q.1 → Undisturbed s (f q b).1) : Undisturbed s (l.foldl f p).1 :=
  List.foldlRecOn (motive := fun q : State × α => Undisturbed s q.1) l f h fun q hq b _ => hf q b hq

/-- Teams changed one by one, each with its key and its status kept. -/
theorem mapTeams_undisturbed {f : Nat × Team → Nat × Team} (h : Undisturbed s t)
    (hf : ∀ p, (f p).1 = p.1 ∧ (f p).2.status = p.2.status) : Undisturbed s { t with teams := t.teams.map f } :=
  ⟨h.ctxs, h.removed, fun tid => (mget?_map_keep Team.status f hf t.teams tid).trans (h.status tid)⟩

theorem State.modTeam_undisturbed {tid : Nat} {f : Team → Team} (h : Undisturbed s t) (hf : ∀ y, (f y).status = y.status) :
    Undisturbed s (t.modTeam tid f) := by
  refine mapTeams_undisturbed (f := fun p => if p.1 = tid then (p.1, f p.2) else p) h fun p => ?_
  split
  · exact ⟨rfl, hf p.2⟩
  · exact ⟨rfl, rfl⟩

theorem State.modCore_undisturbed {k : Nat} {f : CoreSt → CoreSt} (h : Undisturbed s t)
    (hf : ∀ c, (f c).removed = c.removed) : Undisturbed s (t.modCore k f) := by
  refine ⟨h.ctxs, fun j => ?_, h.status⟩
  rw [State.core_modCore]
  split
  · next hk => subst hk; exact (hf _).trans (h.removed k)
  · exact h.removed j

/-! ### `Machine/Memory` -/

theorem State.clearResv_undisturbed {only : Option Nat} {gs : List Nat} (h : Undisturbed s t) : Undisturbed s (t.clearResv only gs) := by
  refine mapTeams_undisturbed h fun p => ?_
  dsimp only
  split <;> exact ⟨rfl, rfl⟩

theorem State.hbmWrite_undisturbed {pa : Nat} {bs : List Byte} (h : Undisturbed s t) : Undisturbed s (t.hbmWrite pa bs) :=
  State.clearResv_undisturbed (h.congr rfl rfl rfl)

theorem State.stashWriteBack_undisturbed {tid w n : Nat} (h : Undisturbed s t) : Undisturbed s (t.stashWriteBack tid w n) := by
  fun_cases t.stashWriteBack tid w n with
  | case4 y _ win _ l =>
    exact State.modTeam_undisturbed (h.congr rfl rfl rfl) fun _ => rfl
  | _ => exact h

theorem State.stashRecall_undisturbed {tid w n : Nat} (h : Undisturbed s t) : Undisturbed s (t.stashRecall tid w n) :=
  State.modTeam_undisturbed (State.stashWriteBack_undisturbed h) fun _ => rfl

theorem State.recallFor_undisturbed {tid : Option Nat} {pa n : Nat} (h : Undisturbed s t) : Undisturbed s (t.recallFor tid pa n) := by
  refine foldl_undisturbed h fun u line hu => ?_
  have howned : Undisturbed s { u with owned := mdel u.owned line } := hu.congr rfl rfl rfl
  dsimp only
  split
  · split
    · exact howned
    · exact State.stashRecall_undisturbed howned
  · exact howned

theorem State.homePut_undisturbed {pa : Nat} {bs : List Byte} (h : Undisturbed s t) : Undisturbed s (t.homePut pa bs) :=
  State.hbmWrite_undisturbed (State.recallFor_undisturbed h)

theorem State.homeWrite_undisturbed {pa : Nat} {bs : List Byte} (h : Undisturbed s t) : Undisturbed s (t.homeWrite pa bs) :=
  (State.homePut_undisturbed h).congr rfl rfl rfl

theorem State.l1Store_undisturbed {core pa : Nat} {bs : List Byte} {bypass : Bool} (h : Undisturbed s t) :
    Undisturbed s (t.l1Store core pa bs bypass) := by
  refine State.modCore_undisturbed h fun c => ?_
  split <;> rfl

theorem State.l1Clear_undisturbed {core : Nat} (h : Undisturbed s t) : Undisturbed s (t.l1Clear core) := by
  have hcore : Undisturbed s (t.modCore core fun c => { c with l1 := [] }) := State.modCore_undisturbed h fun _ => rfl
  exact hcore.congr rfl rfl rfl

theorem State.l1Refresh_undisturbed {core : Option Nat} {pa : Nat} {bs : List Byte} (h : Undisturbed s t) :
    Undisturbed s (t.l1Refresh core pa bs) := by
  cases core with
  | none => exact h
  | some k =>
    have hviews : Undisturbed s (t.dropViews k pa bs.length) := h.congr rfl rfl rfl
    dsimp only [State.l1Refresh]
    split
    · exact hviews
    · exact State.modCore_undisturbed hviews fun _ => rfl

theorem State.spanWrite_undisturbed {l : List (Place × Nat)} {bs : List Byte} {core : Option Nat} (h : Undisturbed s t) :
    Undisturbed s (t.spanWrite l bs core) := by
  refine foldl_fst_undisturbed h fun q c hq => ?_
  dsimp only
  split
  · exact State.l1Refresh_undisturbed (State.homeWrite_undisturbed hq)
  · exact hq

theorem State.vWrite_undisturbed {d x va : Nat} {bs : List Byte} {core : Option Nat} (h : Undisturbed s t) {u : State}
    (hu : t.vWrite d x va bs core = some u) : Undisturbed s u := by
  obtain ⟨l, -, rfl⟩ := Option.map_eq_some_iff.mp hu
  exact State.spanWrite_undisturbed h

/-! ### `Machine/Stores` -/

theorem State.landStore_undisturbed {e : Buffered} (h : Undisturbed s t) : Undisturbed s (t.landStore e) :=
  foldl_undisturbed (State.homePut_undisturbed h) fun _ _ hu => State.l1Store_undisturbed hu

theorem State.seenResv_undisturbed {e : Buffered} (h : Undisturbed s t) : Undisturbed s (t.seenResv e) :=
  mapTeams_undisturbed h fun _ => ⟨rfl, rfl⟩

theorem State.raise_undisturbed {es : List Buffered} {lvl : Nat} (h : Undisturbed s t) : Undisturbed s (t.raise es lvl) := by
  rw [State.raise]
  split
  · exact foldl_undisturbed (h.congr rfl rfl rfl) fun _ _ hu => State.landStore_undisturbed hu
  · exact foldl_undisturbed (h.congr rfl rfl rfl) fun _ _ hu => State.seenResv_undisturbed hu

theorem State.raiseFor_undisturbed {tid gi lvl : Nat} (h : Undisturbed s t) : Undisturbed s (t.raiseFor tid gi lvl) := by
  rw [State.raiseFor]
  split
  · exact h
  · exact State.raise_undisturbed h

theorem State.raiseTeam_undisturbed {tid : Nat} (h : Undisturbed s t) : Undisturbed s (t.raiseTeam tid) := by
  rw [State.raiseTeam]
  split
  · exact h
  · exact foldl_undisturbed h fun _ _ hu => State.raiseFor_undisturbed hu

/-! ### `Machine/Counters` and `Machine/Conn` -/

theorem State.among_undisturbed {d : α} {xs : List α} (h : Undisturbed s t) : Undisturbed s (t.among d xs).1 := h.congr rfl rfl rfl

theorem State.modFab_undisturbed {f : Fabric → Fabric} (h : Undisturbed s t) : Undisturbed s (t.modFab f) := h.congr rfl rfl rfl

theorem State.unask_undisturbed {f : PeerAsk → Bool} (h : Undisturbed s t) : Undisturbed s (t.unask f) := by
  rw [State.unask]
  split
  · exact h
  · exact State.modFab_undisturbed h

theorem State.connWrite_undisturbed {c : Conn} {va : Nat} {bs : List Byte} (h : Undisturbed s t) :
    Undisturbed s (t.connWrite c va bs) := by
  rw [State.connWrite]
  cases hw : t.vWrite c.die c.ctx va bs with
  | none => exact h
  | some u => exact State.vWrite_undisturbed h hw

theorem State.showConn_undisturbed {k : Nat} (h : Undisturbed s t) : Undisturbed s (t.showConn k) := by
  rw [State.showConn]
  split
  · exact h
  · exact State.connWrite_undisturbed h

theorem State.waitAcquire_undisturbed {r : Req} (h : Undisturbed s t) : Undisturbed s (t.waitAcquire r) := by
  rw [State.waitAcquire]
  split
  · split
    · exact State.l1Clear_undisturbed h
    · exact h
  · exact h

theorem State.postOne_undisturbed {k : Nat} {c : Conn} {r : Req} (h : Undisturbed s t) : Undisturbed s (t.postOne k c r) := by
  refine State.showConn_undisturbed (State.modTeam_undisturbed (State.modTeam_undisturbed ?_ fun _ => rfl) fun _ => rfl)
  exact State.modFab_undisturbed (State.connWrite_undisturbed (State.waitAcquire_undisturbed h))

theorem State.postReady_undisturbed {k n : Nat} (h : Undisturbed s t) : Undisturbed s (t.postReady k n) := by
  induction n generalizing t with
  | zero => exact h
  | succ n ih =>
    rw [State.postReady]
    split
    · exact h
    · split
      · exact h
      · split
        · exact h
        · exact ih (State.postOne_undisturbed h)

theorem State.settleConn_undisturbed {k : Nat} (h : Undisturbed s t) : Undisturbed s (t.settleConn k) := by
  have hshow : Undisturbed s ((t.modConn k fun c => { c with ack := max c.ack c.ackSeq }).showConn k) :=
    State.showConn_undisturbed (State.modFab_undisturbed h)
  rw [State.settleConn]
  split
  · exact State.postReady_undisturbed hshow
  · exact hshow

theorem State.resetConn_undisturbed {k : Nat} (h : Undisturbed s t) : Undisturbed s (t.resetConn k) :=
  State.settleConn_undisturbed (State.modFab_undisturbed (State.modFab_undisturbed h))

theorem State.endFabric_undisturbed {x : Nat} (h : Undisturbed s t) : Undisturbed s (t.endFabric x) := by
  rw [State.endFabric]
  refine State.modFab_undisturbed (foldl_undisturbed ?_ fun _ _ hu => State.resetConn_undisturbed hu)
  split
  · exact h
  · exact State.modFab_undisturbed h

/-! ### `Machine/Ops` -/

/-- A split put back into the team that it was found in, whatever has changed in the team but its status. -/
theorem State.put_undisturbed {c : Cur} (h : Undisturbed s t)
    (hc : (mget? t.teams c.ref.team).map Team.status = some c.team.status) : Undisturbed s (t.put c) := by
  refine ⟨h.ctxs, h.removed, fun tid => ?_⟩
  rw [State.put_teams, mget?_mput]
  split
  · next htid =>
    rw [← htid, ← h.status, hc]
    rfl
  · exact h.status tid

/-- The team of a split that is found stands in the state. -/
theorem lookup?_team {r : Ref} {c : Cur} (h : s.lookup? r = some c) : mget? s.teams r.team = some c.team := by
  simp only [State.lookup?, Option.bind_eq_some_iff, Option.map_eq_some_iff] at h
  obtain ⟨y, hy, g, -, p, -, rfl⟩ := h
  exact hy

/-- A split that is found may be put back with its group and itself changed. -/
theorem State.put_found_undisturbed {r : Ref} {c : Cur} (h : Undisturbed s t) (hc : t.lookup? r = some c) (g : Group) (p : Split) :
    Undisturbed s (t.put { c with group := g, split := p }) := by
  refine State.put_undisturbed h ?_
  rw [lookup?_ref t r c hc, lookup?_team hc]
  rfl

theorem State.modSplit_undisturbed {r : Ref} {f : Split → Split} (h : Undisturbed s t) : Undisturbed s (t.modSplit r f) := by
  rw [State.modSplit]
  split
  · exact h
  · next c hc => exact State.put_found_undisturbed h hc c.group (f c.split)

theorem State.modGroup_undisturbed {tid gi : Nat} {f : Group → Group} (h : Undisturbed s t) : Undisturbed s (t.modGroup tid gi f) :=
  State.modTeam_undisturbed h fun _ => rfl

theorem State.dropResv_undisturbed {r : Ref} (h : Undisturbed s t) : Undisturbed s (t.dropResv r) :=
  State.modTeam_undisturbed h fun _ => rfl

theorem State.restartScalars_undisturbed {r : Ref} (h : Undisturbed s t) : Undisturbed s (t.restartScalars r) := by
  rw [State.restartScalars]
  split
  · exact h
  · exact foldl_undisturbed h fun _ _ hu => State.modSplit_undisturbed (State.among_undisturbed hu)

theorem State.discard_undisturbed {r : Ref} {preempt : Bool} (h : Undisturbed s t) : Undisturbed s (t.discard r preempt) := by
  rw [State.discard]
  split
  · exact h
  · next c hc =>
    have hput := fun g p => State.put_found_undisturbed h hc g p
    extract_lets p c₁ stays atE gone held clr c₂ c₃
    split
    · split
      · exact State.dropResv_undisturbed (hput _ _)
      · exact hput _ _
    · split
      · split
        · exact State.dropResv_undisturbed (hput _ _)
        · exact hput _ _
      · split
        · exact State.dropResv_undisturbed (hput _ _)
        · exact State.restartScalars_undisturbed (State.dropResv_undisturbed (hput _ _))

theorem State.stashFlush_undisturbed {tid : Nat} (h : Undisturbed s t) : Undisturbed s (t.stashFlush tid) := by
  rw [State.stashFlush]
  split
  · exact h
  · exact foldl_undisturbed h fun _ _ hu => foldl_undisturbed hu fun _ _ hv => State.stashWriteBack_undisturbed hv

theorem State.dropEp_undisturbed {tid : Nat} (h : Undisturbed s t) : Undisturbed s (t.dropEp tid) := by
  rw [State.dropEp]
  split
  · exact h
  · exact State.modCore_undisturbed h fun _ => rfl

/-! ### `Machine/Preempt` -/

/-- The draws of `State.forget` take free values alone. -/
theorem draw_undisturbed {keep : List Nat} {a : State × SMap Word} {key : Nat} {w : Word} {xs : List Word} (h : Undisturbed s a.1) :
    Undisturbed s (if keep.contains (key % 256) then a else
      let q := a.1.among w xs
      (q.1, if q.2 = w then a.2 else mput a.2 key q.2)).1 := by
  split
  · exact h
  · exact h.congr rfl rfl rfl

theorem State.forget_undisturbed {tid gi : Nat} (h : Undisturbed s t) : Undisturbed s (t.forget tid gi) := by
  rw [State.forget]
  split
  · exact h
  · extract_lets lives keep draw r r₁
    have hr : Undisturbed s r.1 := foldl_fst_undisturbed h fun _ _ hq => draw_undisturbed hq
    have hr₁ : Undisturbed s r₁.1 := by
      refine foldl_fst_undisturbed hr fun q e hq => ?_
      split
      · exact hq
      · exact draw_undisturbed hq
    split
    · exact h
    · exact State.modGroup_undisturbed hr₁

theorem State.writeFrame_undisturbed {tid : Nat} (h : Undisturbed s t) : Undisturbed s (t.writeFrame tid) := by
  rw [State.writeFrame]
  split
  · exact h
  · dsimp only
    split
    · exact h
    · next y _ _ =>
      have hfree : Undisturbed s (t.freeBytes y.frameBytes).1 := h.congr rfl rfl rfl
      split
      · next u hu => exact State.modTeam_undisturbed (State.vWrite_undisturbed hfree hu) fun _ => rfl
      · exact h

end Sys2Proof.Machine
end

section
/-! PROOFS. Pre-emption saves the teams that it names (R322), and a context that is ended stays ended, with the cause that it was given
(R315). -/
namespace Sys2Proof.Machine

variable {s t : State}

/-! ### Pre-emption -/

/-- A team pre-empted: what goes before leaves every team's status, and the last change saves the team. -/
theorem State.preempt_eq {tid : Nat} {y : Team} (hy : mget? s.teams tid = some y) (after : Option Nat) :
    ∃ (u : State) (f : Team → Team), Undisturbed s u ∧ (∀ y, (f y).status = .saved) ∧ s.preempt tid after = u.modTeam tid f := by
  simp only [State.preempt, hy]
  refine ⟨_, _, ?_, fun _ => rfl, rfl⟩
  refine State.modCore_undisturbed (State.writeFrame_undisturbed ?_) fun _ => rfl
  refine foldl_undisturbed ?_ fun _ _ hu => foldl_undisturbed hu fun _ _ hv => State.stashRecall_undisturbed hv
  refine foldl_undisturbed ?_ fun _ _ hu => State.forget_undisturbed hu
  refine foldl_undisturbed ?_ fun _ _ hu => State.modGroup_undisturbed hu
  refine foldl_undisturbed ?_ fun _ _ hu => foldl_undisturbed hu fun _ _ hv => State.discard_undisturbed hv
  exact State.unask_undisturbed (State.raiseTeam_undisturbed (.refl s))

theorem State.preempt_removed (tid : Nat) (after : Option Nat) (k : Nat) :
    ((s.preempt tid after).core k).removed = (s.core k).removed := by
  cases hy : mget? s.teams tid with
  | none => simp [State.preempt, hy]
  | some y =>
    obtain ⟨u, f, hu, -, he⟩ := State.preempt_eq hy after
    rw [he]
    exact hu.removed k

/-- Whether a team is there can be told from its status. -/
theorem map_saved_congr {o o' : Option Team} (h : o.map Team.status = o'.map Team.status) :
    (o.map fun _ => TeamStatus.saved) = o'.map fun _ => TeamStatus.saved := by
  simpa [Option.map_map, Function.comp_def] using congrArg (Option.map fun _ => TeamStatus.saved) h

theorem State.preempt_status (tid : Nat) (after : Option Nat) (j : Nat) :
    (mget? (s.preempt tid after).teams j).map Team.status =
      if tid = j then (mget? s.teams j).map fun _ => .saved else (mget? s.teams j).map Team.status := by
  cases hy : mget? s.teams tid with
  | none =>
    have he : s.preempt tid after = s := by simp [State.preempt, hy]
    rw [he]
    split
    · next hj => rw [← hj, hy]; rfl
    · rfl
  | some y =>
    obtain ⟨u, f, hu, hf, he⟩ := State.preempt_eq hy after
    have hsaved : Team.status ∘ f = fun _ => TeamStatus.saved := funext hf
    rw [he, State.modTeam_teams, mget?_mmod]
    split
    · rw [Option.map_map, hsaved]
      exact map_saved_congr (hu.status j)
    · exact hu.status j

/-- Teams pre-empted leave every core in or out of service. -/
theorem State.preemptAll_removed (ts : List Nat) (k : Nat) : ((s.preemptAll ts).core k).removed = (s.core k).removed := by
  induction ts generalizing s with
  | nil => rfl
  | cons tid ts ih => exact ih.trans (State.preempt_removed tid none k)

/-- Of the teams, those that are named are saved. -/
theorem State.preemptAll_status (ts : List Nat) (j : Nat) :
    (mget? (s.preemptAll ts).teams j).map Team.status =
      if j ∈ ts then (mget? s.teams j).map fun _ => .saved else (mget? s.teams j).map Team.status := by
  induction ts generalizing s with
  | nil => simp [State.preemptAll]
  | cons tid ts ih =>
    have hhead := State.preempt_status (s := s) tid none j
    have hsaved : ((mget? (s.preempt tid none).teams j).map fun _ => TeamStatus.saved) = (mget? s.teams j).map fun _ => .saved := by
      have hmap := congrArg (Option.map fun _ => TeamStatus.saved) hhead
      simpa [Option.map_map, apply_ite, Function.comp_def] using hmap
    have htail : (mget? (s.preemptAll (tid :: ts)).teams j).map Team.status = _ := ih (s := s.preempt tid none)
    rw [htail, hsaved, hhead]
    by_cases htid : tid = j
    · simp [htid]
    · simp [htid, Ne.symm htid]

/-- A team that is resident and fits a condition is among those that the condition names. -/
theorem State.mem_residentTeams {f : Team → Bool} {tid : Nat} {y : Team} (hy : mget? s.teams tid = some y) (hr : y.status = .resident)
    (hf : f y = true) : tid ∈ s.residentTeams f := 
  List.mem_map.mpr ⟨(tid, y), List.mem_filter.mpr ⟨mem_of_mget? hy, by simp [hr, hf]⟩, rfl⟩

/-! ### The end of a context -/

/-- The same contexts have ended in `t` as in `s`, for the same causes. -/
def SameEnds (s t : State) : Prop := ∀ x, (t.ctx x).ended = (s.ctx x).ended

theorem Undisturbed.sameEnds (h : Undisturbed s t) : SameEnds s t := fun x => by rw [State.ctx, h.ctxs]; rfl

theorem SameEnds.trans {u : State} (h : SameEnds s t) (h' : SameEnds t u) : SameEnds s u := fun x => (h' x).trans (h x)

theorem State.ctx_modCtx (x y : Nat) (f : Context → Context) : (s.modCtx x f).ctx y = if x = y then f (s.ctx x) else s.ctx y := by
  rw [State.ctx, State.modCtx_ctxs, mget_mput]; rfl

theorem State.modCtx_sameEnds {x : Nat} {f : Context → Context} (hf : ∀ y, (f y).ended = y.ended) : SameEnds s (s.modCtx x f) := by
  intro y
  rw [State.ctx_modCtx]
  split
  · next hxy => rw [hf, hxy]
  · rfl

theorem State.faultPush_sameEnds (d x : Nat) (rec : List Byte) : SameEnds s (s.faultPush d x rec) := by
  rw [State.faultPush]
  split
  · exact fun _ => rfl
  · split
    · next u hu =>
      have hwrite : SameEnds s u := (State.vWrite_undisturbed (.refl s) hu).sameEnds
      exact hwrite.trans (State.modCtx_sameEnds fun _ => rfl)
    · exact fun _ => rfl

theorem State.recordEnd_sameEnds (x : Nat) : SameEnds s (s.recordEnd x) := by
  rw [State.recordEnd]
  split
  · exact fun _ => rfl
  · exact (State.faultPush_sameEnds _ x _).trans (State.modCtx_sameEnds fun _ => rfl)

theorem State.releaseCtx_sameEnds (x : Nat) : SameEnds s (s.releaseCtx x) := by
  rw [State.releaseCtx]
  split
  · exact fun _ => rfl
  · have hfabric : SameEnds s (s.endFabric x) := (State.endFabric_undisturbed (.refl s)).sameEnds
    exact hfabric.trans (State.recordEnd_sameEnds (s := { s.endFabric x with tasks := _, dies := _ }) x)

theorem State.reap_sameEnds (tid : Nat) : SameEnds s (s.reap tid) := by
  rw [State.reap]
  split
  · exact fun _ => rfl
  · next y _ =>
    split
    · have hleave : SameEnds s (((s.raiseTeam tid).stashFlush tid).modCore y.coreKey fun k => k.leave tid) :=
        (State.stashFlush_undisturbed (State.raiseTeam_undisturbed (.refl s))).sameEnds
      exact hleave.trans (State.releaseCtx_sameEnds (s := { State.modCore _ _ _ with teams := _ }) y.ctx)
    · exact fun _ => rfl

/-- A live context that is ended has the cause that it was given. -/
theorem State.endContext_ended {x : Nat} (code : Nat) (rec : List Byte) (die : Nat) (hlive : (s.ctx x).live = true)
    (hgoes : (s.ctx x).ended = none) : ((s.endContext x code rec die).ctx x).ended = some code := by
  have hrest : ∀ (ts : List Nat) (t : State), SameEnds t ((ts.foldl (fun s t => (s.dropEp t).reap t) t).releaseCtx x) := by
    intro ts
    induction ts with
    | nil => exact fun t => State.releaseCtx_sameEnds x
    | cons tid ts ih =>
      intro t
      have hdrop : SameEnds t (t.dropEp tid) := (State.dropEp_undisturbed (.refl t)).sameEnds
      exact (hdrop.trans (State.reap_sameEnds tid)).trans (ih _)
  simp only [State.endContext, hlive, hgoes, Option.isSome_none, Bool.not_true, Bool.or_self, Bool.false_eq_true, if_false]
  rw [hrest _ _ x]
  simp only [State.ctx, State.modCtx_ctxs, mget_mput, if_true]

end Sys2Proof.Machine
end

section
/-! PROOFS. Lysja's events (R24 to R26, R30 to R34, R330 to R333): what each does to common time, to the lanes and cores, to the
registers of management and to the contexts. -/
namespace Sys2Proof.Machine

variable {s : State}

/-! ### Common time -/

theorem State.die_modDie (d e : Nat) (f : Die → Die) : (s.modDie d f).die e = if d = e then f (s.die d) else s.die e := by
  rw [State.die, State.modDie_dies, mget_mput]; rfl

/-- TIME_SYNC_MESSAGE moves one die's copy on, never back (R24). -/
theorem exec_timeSyncMessage_follows {die skew : Nat} (hdie : die < Config.dies) (hskew : skew ≤ 4) (hm : s.mgmt.master ≠ 1) :
    ∃ t : State, exec (.timeSyncMessage die skew) s = .next t ∧ SameMemory s t ∧ t.teams = s.teams ∧
      (s.die die).time ≤ (t.die die).time ∧ s.mgmt.time + skew ≤ (t.die die).time ∧
      (t.die die).time = max (s.die die).time (s.mgmt.time + skew) ∧ ∀ d, d ≠ die → t.die d = s.die d := by
  have hexec : exec (.timeSyncMessage die skew) s =
      .next (s.modDie die fun d => { d with skew := skew, time := max d.time (s.mgmt.time + skew) }) := by
    simp [execTimeSyncMessage, Nat.not_le.mpr hdie, Nat.not_lt.mpr hskew, hm]
  refine ⟨_, hexec, ⟨fun _ => rfl, fun _ _ => rfl⟩, rfl, ?_, ?_, ?_, fun d hd => ?_⟩
  · rw [State.die_modDie_self]; exact Nat.le_max_left _ _
  · rw [State.die_modDie_self]; exact Nat.le_max_right _ _
  · rw [State.die_modDie_self]
  · rw [State.die_modDie, if_neg (Ne.symm hd)]

/-- No copy of common time is ahead of the latest (R26). -/
theorem State.time_le_latestTime : s.mgmt.time ≤ s.latestTime ∧ ∀ d, d < Config.dies → (s.die d).time ≤ s.latestTime := by
  have hfold : ∀ (ds : List Nat) (n : Nat), n ≤ ds.foldl (fun n d => max n (s.die d).time) n ∧
      ∀ d ∈ ds, (s.die d).time ≤ ds.foldl (fun n d => max n (s.die d).time) n := by
    intro ds
    induction ds with
    | nil => simp
    | cons d ds ih =>
      intro n
      obtain ⟨hn, hds⟩ := ih (max n (s.die d).time)
      refine ⟨(Nat.le_max_left _ _).trans hn, fun e he => ?_⟩
      rcases List.mem_cons.mp he with rfl | he
      · exact (Nat.le_max_right _ _).trans hn
      · exact hds e he
  obtain ⟨htime, hdies⟩ := hfold (List.range Config.dies) s.mgmt.time
  exact ⟨htime, fun d hd => hdies d (List.mem_range.mpr hd)⟩

/-- The records of R99 keep every die's copy of common time and its skew. -/
theorem State.account_die (ns : Nat) {d : Nat} (hd : d < Config.dies) :
    ((s.account ns).die d).time = (s.die d).time ∧ ((s.account ns).die d).skew = (s.die d).skew := by
  rw [State.account]
  split
  · exact ⟨rfl, rfl⟩
  · have hget : State.die { s with dies := (List.range Config.dies).map fun d =>
        (d, s.accountDie d s.mgmt.time (s.mgmt.time + ns) (s.die d)) } d = s.accountDie d s.mgmt.time (s.mgmt.time + ns) (s.die d) := by
      rw [State.die, mget, mget?_map_graph, if_pos (List.mem_range.mpr hd)]
      rfl
    rw [hget]
    exact ⟨rfl, rfl⟩

/-- The records of R99 are the dies' alone. -/
theorem State.account_frame (ns : Nat) : (s.account ns).mgmt = s.mgmt ∧ (s.account ns).teams = s.teams ∧ SameMemory s (s.account ns) := by
  rw [State.account]
  split <;> exact ⟨rfl, rfl, fun _ => rfl, fun _ _ => rfl⟩

/-- A map with the value at each of some keys changed. -/
theorem mget_foldl_mput {α : Type} (dflt : α) (f : α → α) (ks : List Nat) (hks : ks.Nodup) (m : SMap α) (k : Nat) :
    mget dflt (ks.foldl (fun m d => mput m d (f (mget dflt m d))) m) k = if k ∈ ks then f (mget dflt m k) else mget dflt m k := by
  induction ks generalizing m with
  | nil => rfl
  | cons d ks ih =>
    obtain ⟨hd, hks⟩ := List.nodup_cons.mp hks
    rw [List.foldl_cons, ih hks, mget_mput]
    by_cases hk : d = k
    · subst hk; simp [hd]
    · simp [hk, Ne.symm hk]

/-- Every copy of common time follows the master (R24). -/
theorem State.followTime_die {d : Nat} (hd : d < Config.dies) :
    s.followTime.die d = { s.die d with time := max (s.die d).time (s.mgmt.time + (s.die d).skew) } := by
  have hget := mget_foldl_mput {} (fun x : Die => { x with time := max x.time (s.mgmt.time + x.skew) }) (List.range Config.dies)
    List.nodup_range s.dies d
  rw [if_pos (List.mem_range.mpr hd)] at hget
  simp only [State.die, State.followTime]
  exact hget

@[simp] theorem State.followTime_mgmt (s : State) : s.followTime.mgmt = s.mgmt := by simp only [State.followTime]
@[simp] theorem State.followTime_teams (s : State) : s.followTime.teams = s.teams := by simp only [State.followTime]
@[simp] theorem State.followTime_hbm (s : State) : s.followTime.hbm = s.hbm := by simp only [State.followTime]
@[simp] theorem State.followTime_cores (s : State) : s.followTime.cores = s.cores := by simp only [State.followTime]

/-- The standby with the master: its count, and the bound of R24 guaranteed again (R26). -/
def State.takeOver (s : State) (now : Nat) : State :=
  (s.modMgmt fun m => { m with master := 2, time := now }).modHealth fun h => { h with tunc := false }

/-- What the standby's taking over leaves, and the copies behind it. -/
theorem State.takeOver_spec (u : State) (now : Nat) :
    (u.takeOver now).followTime.mgmt = { u.mgmt with master := 2, time := now, health := { u.mgmt.health with tunc := false } } ∧
    (u.takeOver now).followTime.teams = u.teams ∧ SameMemory u (u.takeOver now).followTime ∧
    ∀ d, d < Config.dies → ((u.takeOver now).followTime.die d).time = max (u.die d).time (now + (u.die d).skew) := by
  refine ⟨?_, ?_, ⟨fun a => ?_, fun k a => ?_⟩, fun d hd => ?_⟩
  · rw [State.followTime_mgmt]; rfl
  · rw [State.followTime_teams]; rfl
  · rw [State.followTime_hbm]; rfl
  · rw [State.core, State.followTime_cores]; rfl
  · rw [State.followTime_die hd]; rfl

theorem exec_timeMasterFailover_fails (hm : s.mgmt.master = 0) :
    exec .timeMasterFailover s =
      .next { s with mgmt := { s.mgmt with master := 1, health := { s.mgmt.health with tunc := true } } } := by
  rw [exec_timeMasterFailover, execTimeMasterFailover, if_pos hm]
  rfl

theorem exec_timeMasterFailover_eq (hm : s.mgmt.master = 1) :
    exec .timeMasterFailover s = .next ((s.account (s.latestTime - s.mgmt.time)).takeOver s.latestTime).followTime := by
  have hne : ¬ s.mgmt.master = 0 := by omega
  rw [exec_timeMasterFailover, execTimeMasterFailover, if_neg hne, if_pos hm]
  rfl

/-- The standby takes the master over with a count that no copy is ahead of (R26). -/
theorem exec_timeMasterFailover_takesOver (hm : s.mgmt.master = 1) : ∃ t : State, exec .timeMasterFailover s = .next t ∧
    SameMemory s t ∧ t.teams = s.teams ∧
    t.mgmt = { s.mgmt with master := 2, time := t.mgmt.time, health := { s.mgmt.health with tunc := false } } ∧
    s.mgmt.time ≤ t.mgmt.time ∧
    ∀ d, d < Config.dies → (s.die d).time ≤ t.mgmt.time ∧ (t.die d).time = t.mgmt.time + (s.die d).skew := by
  obtain ⟨hmgmt, hteams, hmem⟩ := s.account_frame (s.latestTime - s.mgmt.time)
  obtain ⟨htime, hdies⟩ := s.time_le_latestTime
  obtain ⟨hmgmt', hteams', hmem', hdies'⟩ := State.takeOver_spec (s.account (s.latestTime - s.mgmt.time)) s.latestTime
  rw [hmgmt] at hmgmt'
  refine ⟨_, exec_timeMasterFailover_eq hm, ⟨fun a => (hmem'.1 a).trans (hmem.1 a), fun k a => (hmem'.2 k a).trans (hmem.2 k a)⟩,
    hteams'.trans hteams, ?_, ?_, fun d hd => ?_⟩
  · rw [hmgmt']
  · rw [hmgmt']; exact htime
  · obtain ⟨hdtime, hdskew⟩ := s.account_die (s.latestTime - s.mgmt.time) hd
    rw [hmgmt', hdies' d hd, hdtime, hdskew]
    exact ⟨hdies d hd, Nat.max_eq_right ((hdies d hd).trans (Nat.le_add_right _ _))⟩

/-! ### Lanes -/

/-- LANEMAP brought up to date reads as the word of each slot's failed lanes (R331). -/
theorem CoreSt.refreshLanes_lanemap (k : CoreSt) (slot : Nat) :
    mget? k.refreshLanes.lanemap slot = (mget? k.badLanes slot).map laneWord := by
  have hmap : ∀ m : SMap (List Nat), mget? (m.map fun e => (e.1, laneWord e.2)) slot = (mget? m slot).map laneWord := by
    intro m
    induction m with
    | nil => rfl
    | cons e m ih => by_cases he : e.1 = slot <;> simp [mget?, he, ih]
  exact hmap k.badLanes

/-- A lane that has failed already, or teams that cannot be saved yet: nothing happens. -/
theorem exec_laneFailure_waits {core slot lane : Nat}
    (hno : (mget [] (s.core core).badLanes slot).contains lane = true ∨ (s.residentOn core).all s.canSave = false) :
    exec (.laneFailure core slot lane) s = .next s := by
  have hstays : ((mget [] (s.core core).badLanes slot).contains lane || !(s.residentOn core).all s.canSave) = true := by
    rcases hno with hno | hno
    · rw [hno, Bool.true_or]
    · rw [hno, Bool.not_false, Bool.or_true]
  simp only [exec_laneFailure, execLaneFailure, hstays, if_true, ite_self]

/-- A failed lane is mapped out behind the pre-emption of the core's teams (R331). -/
theorem exec_laneFailure_mapped {core slot lane : Nat} (hcore : core < Config.dies * Config.cores) (hslot : slot < Config.slots)
    (hlane : lane < 64) (hnew : (mget [] (s.core core).badLanes slot).contains lane = false)
    (hsave : (s.residentOn core).all s.canSave = true) :
    let bad := mget [] (s.core core).badLanes slot
    ∃ t : State, exec (.laneFailure core slot lane) s = .next t ∧ mget [] (t.core core).badLanes slot = bad ++ [lane] ∧
      (t.core core).removed = ((s.core core).removed || decide (2 ≤ bad.length)) ∧
      mget? (t.core core).lanemap slot = some (laneWord (bad ++ [lane])) := by
  intro bad
  have hremoved := State.preemptAll_removed (s := s) (s.residentOn core) core
  have hexec : exec (.laneFailure core slot lane) s = .next ((s.preemptAll (s.residentOn core)).modCore core fun k =>
      ({ k with badLanes := mput k.badLanes slot (bad ++ [lane]), removed := k.removed || decide (2 ≤ bad.length) } : CoreSt).refreshLanes) := by
    simp only [exec_laneFailure, execLaneFailure, Nat.not_le.mpr hcore, Nat.not_le.mpr hslot, Nat.not_le.mpr hlane, hnew, hsave,
      decide_false, Bool.or_self, Bool.not_true, Bool.false_eq_true, if_false]
    rfl
  refine ⟨_, hexec, ?_, ?_, ?_⟩
  · rw [State.core_modCore, if_pos rfl]
    exact (mget_mput _ _ _ _ _).trans (if_pos rfl)
  · rw [State.core_modCore, if_pos rfl, ← hremoved]
    rfl
  · rw [State.core_modCore, if_pos rfl, CoreSt.refreshLanes_lanemap]
    simp

theorem exec_inServiceTest_waits {core : Nat} (hno : (s.residentOn core).all s.canSave = false) :
    exec (.inServiceTest core) s = .next s := by
  simp only [exec_inServiceTest, execInServiceTest, hno, Bool.false_eq_true, if_false]

/-- A test saves the core's teams (R331). -/
theorem exec_inServiceTest_saves {core : Nat} (hsave : (s.residentOn core).all s.canSave = true) :
    ∃ t : State, exec (.inServiceTest core) s = .next t ∧ ∀ team tm, mget? s.teams team = some tm → tm.status = .resident →
      tm.coreKey = core → ∃ tm', mget? t.teams team = some tm' ∧ tm'.status = .saved := by
  have hexec : exec (.inServiceTest core) s = .next ((s.preemptAll (s.residentOn core)).modCore core CoreSt.refreshLanes) := by
    simp only [exec_inServiceTest, execInServiceTest, hsave, if_true]
  refine ⟨_, hexec, fun team tm htm hres hkey => ?_⟩
  have hmem : team ∈ s.residentOn core := State.mem_residentTeams htm hres (decide_eq_true hkey)
  have hstatus := State.preemptAll_status (s := s) (s.residentOn core) team
  rw [if_pos hmem, htm] at hstatus
  obtain ⟨tm', htm', hsaved⟩ := Option.map_eq_some_iff.mp hstatus
  exact ⟨tm', htm', hsaved⟩

/-! ### Bring-up, power and firmware -/

/-- The package as bring-up finds it where no element fails (R32): the cores' failed lanes and a request for replacement stand, and
common time begins at the host's value. -/
def State.broughtUp (s : State) (stored : Nat) : State :=
  { agenda := s.agenda, free := s.free, nextId := s.nextId
    mgmt := { mode := if stored < 3 then stored else 0, bank := s.mgmt.bank, staged := s.mgmt.staged, start := s.mgmt.start
              time := s.mgmt.start, health := { rfr := s.needsReplacing } }
    dies := (List.range Config.dies).map fun d => (d, { time := s.mgmt.start }), cores := mmap s.cores CoreSt.atBringup }

theorem exec_powerOnBringup_zero (stored : Nat) : exec (.powerOnBringup stored 0) s = .next (s.broughtUp stored) := by
  simp only [exec_powerOnBringup, execPowerOnBringup, Nat.zero_testBit, Bool.false_eq_true, if_false, List.foldl_fixed]
  rfl

theorem State.broughtUp_die (stored : Nat) {d : Nat} (hd : d < Config.dies) : (s.broughtUp stored).die d = { time := s.mgmt.start } := by
  rw [State.die, mget, State.broughtUp, mget?_map_graph, if_pos (List.mem_range.mpr hd)]
  rfl

/-- Bring-up with no failed element: an empty machine in the stored mode (R32). -/
theorem exec_powerOnBringup_empty (stored : Nat) : ∃ t : State, exec (.powerOnBringup stored 0) s = .next t ∧ t.teams = [] ∧
    t.ctxs = [] ∧ t.tasks = [] ∧ (∀ a, rdByte t.hbm a = 0) ∧ t.mgmt.mode = (if stored < 3 then stored else 0) ∧
    t.mgmt.time = s.mgmt.start ∧ (∀ d, d < Config.dies → (t.die d).time = s.mgmt.start ∧ (t.die d).failed = false) ∧
    t.mgmt.health.rfr = s.needsReplacing := by
  refine ⟨_, exec_powerOnBringup_zero stored, rfl, rfl, rfl, fun _ => rfl, rfl, rfl, fun d hd => ?_, rfl⟩
  rw [State.broughtUp_die stored hd]
  exact ⟨rfl, rfl⟩

theorem exec_powerCapSet_within {watts : Nat} (halone : s.mgmt.alone = false) (hlo : 6000 ≤ watts) (hhi : watts ≤ 11000) :
    exec (.powerCapSet watts) s = .next { s with mgmt := { s.mgmt with cap := watts } } := by
  simp [execPowerCapSet, State.setCap, halone, hlo, hhi, State.modMgmt]

/-- A cap outside its bounds, or one that the standby alone cannot hear: nothing happens (R30, R34; log 102). -/
theorem exec_powerCapSet_ignored {watts : Nat} (hno : s.mgmt.alone = true ∨ watts < 6000 ∨ 11000 < watts) :
    exec (.powerCapSet watts) s = .next s := by
  rw [exec_powerCapSet, execPowerCapSet]
  rcases hno with halone | hout
  · rw [if_pos halone]
  · have hcap : s.setCap watts = s := by
      rw [State.setCap, if_neg]
      simp only [Bool.and_eq_true, decide_eq_true_eq]
      omega
    rw [hcap, ite_self]

theorem exec_powerGating_nested {matrix vector : List Nat} (hin : ∀ d ∈ vector, d ∈ matrix) :
    exec (.powerGating matrix vector) s = .next { s with mgmt := { s.mgmt with gateM := matrix, gateV := vector } } := by
  have hall : vector.all matrix.contains = true := List.all_eq_true.mpr fun d hd => List.contains_iff_mem.mpr (hin d hd)
  rw [exec_powerGating, execPowerGating, if_pos hall]
  rfl

/-- Vector issue is not gated where matrix issue runs (R30). -/
theorem exec_powerGating_ignored {matrix vector : List Nat} {d : Nat} (hd : d ∈ vector) (hout : d ∉ matrix) :
    exec (.powerGating matrix vector) s = .next s := by
  have hall : ¬ vector.all matrix.contains = true := fun h => hout (List.contains_iff_mem.mp (List.all_eq_true.mp h d hd))
  rw [exec_powerGating, execPowerGating, if_neg hall]

theorem exec_firmwareBankSwitch_staged (hstaged : s.mgmt.staged = true) :
    exec .firmwareBankSwitch s = .next { s with mgmt := { s.mgmt with bank := 1 - s.mgmt.bank, staged := false } } := by
  rw [exec_firmwareBankSwitch, execFirmwareBankSwitch, if_pos hstaged]
  rfl

theorem exec_firmwareBankSwitch_ignored (hstaged : s.mgmt.staged = false) : exec .firmwareBankSwitch s = .next s := by
  rw [exec_firmwareBankSwitch, execFirmwareBankSwitch, hstaged, if_neg Bool.false_ne_true]

/-! ### Soft errors and the mailbox -/

/-- An uncorrectable error in what a context owns ends the context (R332). -/
theorem exec_eccUncorrectable_owned {x die kind : Nat} (hlo : 1 ≤ kind) (hhi : kind ≤ 6) (hlive : (s.ctx x).live = true)
    (hgoes : (s.ctx x).ended = none) :
    ∃ t : State, exec (.eccUncorrectable (some x) die kind) s = .next t ∧ (t.ctx x).ended = some Cause.ecc.code := by
  have hexec : exec (.eccUncorrectable (some x) die kind) s = .next (s.eccEnd x kind) := by
    simp [execEccUncorrectable, hlo, hhi]
  exact ⟨_, hexec, State.endContext_ended _ _ _ hlive hgoes⟩

theorem exec_mailboxCommand_ignored (m : Mailbox) (halone : s.mgmt.alone = true) : exec (.mailboxCommand m) s = .next s := by
  rw [exec_mailboxCommand, execMailboxCommand, if_pos halone]

/-- Cores changed elsewhere than in their arrays read as before. -/
theorem mmap_arr {f : CoreSt → CoreSt} (hf : ∀ c, (f c).arr = c.arr) (m : SMap CoreSt) (k : Nat) :
    (mget {} (mmap m f) k).arr = (mget {} m k).arr := by
  rw [mget, mget?_mmap, mget]
  cases mget? m k with
  | none => rfl
  | some c => exact hf c

/-- A context created where none lives: it holds what the command says, and no other context changes (R33). -/
theorem State.newCtx_spec {x die off priv owner base size save : Nat} (hx : x < 64 * nDevices s.mgmt.mode) (hfree : (s.ctx x).live = false)
    (hteams : ∀ t ∈ s.teams, t.2.ctx ≠ x) :
    let t := s.newCtx x die off priv owner base size save
    SameMemory s t ∧ t.teams = s.teams ∧
    t.ctx x = { live := true, owner := BitVec.ofNat 32 (owner % 65536), rootDie := die, rootOff := off, priv := decide (priv ≠ 0)
                fqBase := BitVec.ofNat 64 base, fqSize := size, saveArea := BitVec.ofNat 64 save } ∧
    ∀ y, y ≠ x → t.ctx y = s.ctx y := by
  have hnoteam : s.teams.any (fun t => t.2.ctx = x) = false := by simpa using hteams
  simp only [State.newCtx, hfree, hnoteam, Nat.not_le.mpr hx, decide_false, Bool.not_false, Bool.true_or, Bool.not_true, Bool.or_self,
    Bool.false_eq_true, if_false]
  refine ⟨⟨fun _ => rfl, fun k a => ?_⟩, trivial, ?_, fun y hy => ?_⟩
  · simp only [State.core]
    refine congrArg (rdByte · a) (mmap_arr ?_ s.cores k)
    exact fun _ => rfl
  · exact (mget_mput _ _ _ _ _).trans (if_pos rfl)
  · exact (mget_mput _ _ _ _ _).trans (if_neg (Ne.symm hy))

end Sys2Proof.Machine
end

section
open Sys2Proof Sys2Proof.Machine

/-- Settles O56: each event by its lemma; the lanes and the test rest on `State.preemptAll_removed` and `State.preemptAll_status`,
the uncorrectable error on `State.endContext_ended`. -/
theorem managementEventsComplete : Obligations.ManagementEventsComplete := by
  unfold Obligations.ManagementEventsComplete
  intro s mgmt h
  refine ⟨fun _ _ => exec_timeSyncMessage_follows, exec_timeMasterFailover_fails, exec_timeMasterFailover_takesOver, ?lanes,
    fun _ => ⟨exec_inServiceTest_waits, exec_inServiceTest_saves⟩, exec_powerOnBringup_empty,
    fun _ => ⟨exec_powerCapSet_within, exec_powerCapSet_ignored⟩,
    fun _ _ => ⟨exec_powerGating_nested, fun _ => exec_powerGating_ignored⟩, rfl, exec_firmwareBankSwitch_staged,
    exec_firmwareBankSwitch_ignored, rfl, fun _ => ⟨rfl, rfl⟩, fun _ _ => ⟨rfl, fun _ => exec_eccUncorrectable_owned⟩,
    exec_mailboxCommand_ignored, ?mailbox⟩
  case lanes =>
    intro core slot lane ts bad hcore hslot hlane
    exact ⟨exec_laneFailure_waits, exec_laneFailure_mapped hcore hslot hlane⟩
  case mailbox =>
    intro halone
    have hheard : ¬ s.mgmt.alone = true := by rw [halone]; exact Bool.false_ne_true
    refine ⟨fun dev v => ⟨?start, ?drain, ?ibase, ?cap⟩, fun vpn leaf hleaf => ?leaf, ?stage, ?newCtx⟩
    case cap =>
      rw [exec_mailboxCommand, execMailboxCommand, exec_powerCapSet, execPowerCapSet, if_neg hheard, if_neg hheard]
      rfl
    case leaf =>
      show execMailboxCommand ⟨12, [vpn, leaf]⟩ s = _
      rw [execMailboxCommand, if_neg hheard]
      simp only [if_neg hleaf]
      rfl
    case newCtx =>
      intro x die off priv owner base size save hx hfree hteams
      refine ⟨_, ?_, State.newCtx_spec hx hfree hteams⟩
      rw [exec_mailboxCommand, execMailboxCommand, if_neg hheard]
      rfl
    all_goals
      simp only [mgmt, exec_mailboxCommand, execMailboxCommand, if_neg hheard]
      rfl

end

section
/-! PROOFS. What the L1 of a core holds of a record that one of its teams emits (R88, R221, R224): GRAPH_RECORD_WRITTEN writes the record
for a command of the core, and where the core's L1 holds the record's sector, it holds the new bytes from then on (log 79). A write
that is no core's leaves the L1 as it is. -/
namespace Sys2Proof.Machine

/-- A graph node with its control block at 0x400 and its ring of 16 records of 16 bytes at 0x440. -/
def emittedNode : Task :=
  { ctx := 0, addr := 0x200, kimg := 0, teams := 0, shape := 0, local_ := 0, nbars := 0, affin := 0, graph := true, prio := 0, args := 0
    ttgt := [], gtgt := [], qbase := 0x400, flush := 0, coal := 1, rsz := 16, qlog := 0, gridId := 0, entries := [], trapv := 0
    dictOff := 0, dictCnt := 0, rgnCnt := 0, codeOff := 0, constOff := 0, imgSize := 0 }

/-- A team whose command 7 is to write record 0 of that node from the start of its local array. -/
def emittingTeam : Team :=
  { ctx := 0, task := 1, index := 0, die := 0, core := 0, base := 0, bytes := 4096
    cmds := [(7, { kind := .temit 0 0 [(.arr 0, 16)], group := 0, split := 0 })] }

/-- The team on core 0 of die 0, whose array starts with a 1 and whose L1 holds the sector of the record as zeros; the die's TLB maps
the first page of the context to the first page of the die's memory. -/
def recordInL1 : State :=
  { teams := [(0, emittingTeam)], tasks := [(0, emittedNode)], dies := [(0, { tlb := [(0, 0x8F)] })]
    cores := [(0, { arr := [(0, 1)], l1 := [(0x44, List.replicate 16 0)] })] }

/-- The event leaves the first byte of the record in the L1. -/
theorem graphRecordWritten_recordInL1 :
    ∃ u : State, exec (.graphRecordWritten 0 7) recordInL1 = .next u ∧ (u.core 0).l1Read 0x440 1 = [1] :=
  ⟨_, rfl, by decide +kernel⟩

/-- The record written for no core, and then counted as written for core 0: the L1 holds the zeros of before. -/
theorem vWrite_recordInL1 :
    ∃ v : State, (recordInL1.cmdDone 0 7).vWrite 0 0 (emittedNode.recAddr 0) (recordInL1.arrRead emittingTeam 0 16) = some v ∧
      ((v.nodeWritten 0 0 0 (some 0)).core 0).l1Read 0x440 1 = [0] := by
  have hwritten : ((recordInL1.cmdDone 0 7).vWrite 0 0 (emittedNode.recAddr 0) (recordInL1.arrRead emittingTeam 0 16)).map
      (fun v => ((v.nodeWritten 0 0 0 (some 0)).core 0).l1Read 0x440 1) = some [0] := by decide +kernel
  exact Option.map_eq_some_iff.mp hwritten

end Sys2Proof.Machine
end

section
open Sys2Proof Sys2Proof.Machine

/-- Refutes O41: its first clause takes the state after a write of the record that is no core's, while GRAPH_RECORD_WRITTEN writes it for
the command's core, whose L1 then holds the new bytes (R224). From `recordInL1` the two differ in the L1 of core 0. -/
theorem not_graphAndSchedulerEventsComplete : ¬ Obligations.GraphAndSchedulerEventsComplete := by
  unfold Obligations.GraphAndSchedulerEventsComplete
  intro h
  obtain ⟨⟨hwritten, -⟩, -⟩ := h
  obtain ⟨v, hv, hstale⟩ := vWrite_recordInL1
  obtain ⟨u, hu, hfresh⟩ := graphRecordWritten_recordInL1
  have hclaim : exec (.graphRecordWritten 0 7) recordInL1 = .next (v.nodeWritten 0 0 0 (some 0)) :=
    hwritten recordInL1 0 7 0 0 0 emittingTeam _ emittedNode v rfl rfl rfl (by decide) rfl hv
  obtain rfl : v.nodeWritten 0 0 0 (some 0) = u := by simpa using hclaim.symm.trans hu
  simp [hstale] at hfresh

end

section
/-! PROOFS. The part's own accesses to memory while no stash window holds a line (R77, R191, R221): a read changes nothing but the
record of the lines that L1s own, a write changes its bytes and clears reservations, and the page tables outside the bytes written
still map what they did. -/
namespace Sys2Proof.Machine

variable {s t u : State}

/-! ### No line to recall -/

/-- With no filled line in any window no line has an owner. -/
theorem State.ownerOf_noLines (h : s.noLines) (line : Nat) : s.ownerOf line = none := by
  rw [State.ownerOf, List.findSome?_eq_none_iff]
  rintro ⟨k, tm⟩ htm
  rw [List.findSome?_eq_none_iff]
  rintro ⟨w, win⟩ hwin
  have hlines : win.lines = [] := h _ htm _ hwin
  simp [hlines]

/-- Nothing stands between HBM and its readers. -/
theorem State.hbmWord_noLines (h : s.noLines) (a : Nat) : s.hbmWord a = BitVec.ofNat 64 (natOfBytes (rdBytes s.hbm a 8)) := by
  rw [State.hbmWord, State.homeNat, State.dirtyAt, State.ownerOf_noLines h]
  rfl

/-- The state with another record of the lines that L1s own. -/
def State.owning (s : State) (o : SMap Nat) : State := { s with owned := o }

/-- A recall only forgets which L1s own the lines. -/
theorem State.recallFor_noLines (h : s.noLines) (tid : Option Nat) (pa n : Nat) :
    ∃ o, s.recallFor tid pa n = s.owning o := by
  rw [State.recallFor]
  refine List.foldlRecOn (motive := fun v : State => ∃ o, v = s.owning o) _ _ ⟨_, rfl⟩ ?_
  rintro _ ⟨o, rfl⟩ line -
  have hlines : (s.owning (mdel o line)).noLines := h
  have howner := State.ownerOf_noLines hlines line
  rw [State.owning] at howner
  simp only [State.owning, howner]
  exact ⟨_, rfl⟩

theorem State.recallAll_noLines (h : s.noLines) (rs : List (Nat × Nat)) : ∃ o, s.recallAll rs = s.owning o := by
  rw [State.recallAll]
  split
  · exact ⟨_, rfl⟩
  · refine List.foldlRecOn (motive := fun v : State => ∃ o, v = s.owning o) _ _ ⟨_, rfl⟩ ?_
    rintro _ ⟨o, rfl⟩ r -
    exact State.recallFor_noLines (s := s.owning o) h none r.1 r.2

theorem State.recallSpan_noLines (h : s.noLines) (d x va n : Nat) (need : Need) :
    ∃ o, s.recallSpan d x va n need = s.owning o := by
  rw [State.recallSpan]
  split
  · exact ⟨_, rfl⟩
  · exact State.recallAll_noLines h _

/-- The bytes of one translated piece: those of HBM, and zeros for a peer's. -/
def State.pieceBytes (s : State) (c : Place × Nat) : List Byte :=
  match c.1 with
  | .hbm pa => rdBytes s.hbm pa c.2
  | _ => List.replicate c.2 0

/-- A translated range reads as memory stands. -/
theorem State.spanRead_noLines (h : s.noLines) (l : List (Place × Nat)) :
    ∃ o, s.spanRead l = (s.owning o, l.flatMap s.pieceBytes) := by
  have hfrom (acc : List Byte) (o : SMap Nat) : ∃ o', l.foldl (fun (s, acc) (c : Place × Nat) =>
      match c.1 with
      | .hbm pa => let (s, bs) := s.homeRead pa c.2; (s, acc ++ bs)
      | _ => (s, acc ++ List.replicate c.2 0)) (s.owning o, acc) =
        (s.owning o', acc ++ l.flatMap s.pieceBytes) := by
    induction l generalizing acc o with
    | nil => exact ⟨o, by simp⟩
    | cons c l ih =>
      obtain ⟨p, n⟩ := c
      cases p with
      | hbm pa =>
        obtain ⟨o', ho'⟩ := State.recallFor_noLines (s := s.owning o) h none pa n
        simp only [List.foldl_cons, State.homeRead, ho', List.flatMap_cons, ← List.append_assoc]
        exact ih _ o'
      | _ =>
        simp only [List.foldl_cons, List.flatMap_cons, ← List.append_assoc]
        exact ih _ o
  exact hfrom [] s.owned

/-! ### The page tables of another state -/

/-- `t` holds what the translations of context `x` rest on beside memory as `s` does. -/
structure SameTables (s t : State) (x : Nat) : Prop where
  dies : t.dies = s.dies
  mgmt : t.mgmt = s.mgmt
  rootDie : (t.ctx x).rootDie = (s.ctx x).rootDie
  rootOff : (t.ctx x).rootOff = (s.ctx x).rootOff

theorem SameTables.of_eq {x : Nat} (hd : t.dies = s.dies) (hm : t.mgmt = s.mgmt) (hx : t.ctxs = s.ctxs) : SameTables s t x :=
  ⟨hd, hm, by rw [State.ctx, hx]; rfl, by rw [State.ctx, hx]; rfl⟩

section
variable {x : Nat} (hs : s.noLines) (ht : t.noLines) (h : SameTables s t x) (hh : t.hbm = s.hbm)
include h

theorem diesOf_congr : t.diesOf = s.diesOf := by
  funext dev
  simp [State.diesOf, State.die, h.dies, h.mgmt]

theorem leafOk_congr : t.leafOk = s.leafOk := by
  funext dev e
  rw [State.leafOk, State.leafOk, diesOf_congr h, State.ibase, State.ibase, h.mgmt]

theorem placeOf_congr : t.placeOf = s.placeOf := by
  funext x va e
  rw [State.placeOf, State.placeOf]
  simp only [State.interleave, diesOf_congr h, State.ibase, h.mgmt]

omit h in
include hs ht hh in
theorem hbmWord_congr : t.hbmWord = s.hbmWord := by
  funext a
  rw [State.hbmWord_noLines hs, State.hbmWord_noLines ht, hh]

omit h in
include hs ht hh in
theorem largeOk_congr : t.largeOk = s.largeOk := by
  funext node idx e
  rw [State.largeOk, State.largeOk, hbmWord_congr hs ht hh]

include hs ht hh

theorem walkFrom_congr (dev va n node : Nat) : t.walkFrom dev va n node = s.walkFrom dev va n node := by
  induction n generalizing node with
  | zero =>
    rw [State.walkFrom, State.walkFrom, hbmWord_congr hs ht hh, leafOk_congr h, largeOk_congr hs ht hh]
  | succ n ih =>
    rw [State.walkFrom, State.walkFrom, hbmWord_congr hs ht hh, diesOf_congr h]
    simp only [ih]

theorem translate_congr (d : Nat) (va : DWord) (need : Need) : t.translate d x va need = s.translate d x va need := by
  have hwalk : t.walk d x va.toNat = s.walk d x va.toNat := by
    simp only [State.walk, State.die, h.dies, leafOk_congr h, h.rootDie, h.rootOff, walkFrom_congr hs ht h hh]
  simp only [State.translate, hwalk, State.checkLeaf, placeOf_congr h]

theorem span_congr (d va n : Nat) (need : Need) : t.span d x va n need = s.span d x va n need := by
  simp only [State.span, translate_congr hs ht h hh]

theorem vRead_congr (d va n : Nat) : t.vRead d x va n = s.vRead d x va n := by
  have hpiece : t.pieceBytes = s.pieceBytes := by funext c; simp only [State.pieceBytes, hh]
  have hread (l : List (Place × Nat)) : (t.spanRead l).2 = (s.spanRead l).2 := by
    obtain ⟨o, hrs⟩ := State.spanRead_noLines hs l
    obtain ⟨o', hrt⟩ := State.spanRead_noLines ht l
    rw [hrs, hrt, hpiece]
  simp only [State.vRead, State.ownSpan, span_congr hs ht h hh, hread]

/-- The image of a task is the same in both. -/
theorem image_congr (d kimg : Nat) : t.image d x kimg = s.image d x kimg := by
  have hregion : t.regionOk d x kimg = s.regionOk d x kimg := by
    funext hd tab i
    rw [State.regionOk, State.regionOk, State.vNat, State.vNat, vRead_congr hs ht h hh]
  rw [State.image, State.image]
  simp only [vRead_congr hs ht h hh, hregion]

end

/-- Bytes that `s` maps are mapped in `t`, where `t` differs in bytes of `D` alone. -/
theorem Mapped.congr {D : Nat → Prop} {die x va n pa : Nat} (hmap : Mapped s D die x va n pa) (hs : s.noLines) (ht : t.noLines)
    (h : SameTables s t x) (hout : ∀ a, ¬ D a → rdByte t.hbm a = rdByte s.hbm a) : Mapped t D die x va n pa := by
  intro mem hmem k m need hm hk hx
  rw [← hmap mem (fun a ha => (hmem a ha).trans (hout a ha)) k m need hm hk hx]
  exact span_congr (s := { s with hbm := mem }) (t := { t with hbm := mem }) hs ht ⟨h.dies, h.mgmt, h.rootDie, h.rootOff⟩ rfl _ _ _ _

/-! ### Accesses -/

/-- A group, and a team, without reservations. -/
def Group.bare (g : Group) : Group := { g with resv := [] }
def Team.bare (tm : Team) : Team := { tm with groups := mmap tm.groups Group.bare }

/-- From `s` to `t` there are only accesses to memories: HBM, arrays, L1s, views and reservations may have changed, nothing else. -/
structure Accessed (s t : State) : Prop where
  nextId : t.nextId = s.nextId
  wbuf : t.wbuf = s.wbuf
  dies : t.dies = s.dies
  ctxs : t.ctxs = s.ctxs
  tasks : t.tasks = s.tasks
  mgmt : t.mgmt = s.mgmt
  teams : mmap t.teams Team.bare = mmap s.teams Team.bare

theorem Accessed.refl (s : State) : Accessed s s := ⟨rfl, rfl, rfl, rfl, rfl, rfl, rfl⟩

theorem Accessed.trans (h : Accessed s t) (h' : Accessed t u) : Accessed s u :=
  ⟨h'.nextId.trans h.nextId, h'.wbuf.trans h.wbuf, h'.dies.trans h.dies, h'.ctxs.trans h.ctxs, h'.tasks.trans h.tasks,
    h'.mgmt.trans h.mgmt, h'.teams.trans h.teams⟩

theorem Accessed.sameTables (h : Accessed s t) (x : Nat) : SameTables s t x := .of_eq h.dies h.mgmt h.ctxs

/-- Every team listed after accesses is one from before, reservations apart. -/
theorem Accessed.mem_teams (h : Accessed s t) {q : Nat × Team} (hq : q ∈ t.teams) :
    ∃ p ∈ s.teams, p.1 = q.1 ∧ p.2.bare = q.2.bare := by
  have hbare : (q.1, q.2.bare) ∈ mmap s.teams Team.bare := h.teams ▸ List.mem_map_of_mem (f := fun p => (p.1, p.2.bare)) hq
  obtain ⟨p, hp, he⟩ := List.mem_map.mp hbare
  exact ⟨p, hp, (Prod.mk.inj he).1, (Prod.mk.inj he).2⟩

theorem Accessed.noLines (h : Accessed s t) (hs : s.noLines) : t.noLines := by
  intro q hq w hw
  obtain ⟨p, hp, -, hbare⟩ := h.mem_teams hq
  have hwins : p.2.bare.wins = q.2.bare.wins := congrArg Team.wins hbare
  exact hs p hp w (show w ∈ p.2.bare.wins from hwins ▸ hw)

theorem Accessed.mget?_team (h : Accessed s t) (k : Nat) :
    (mget? t.teams k).map Team.bare = (mget? s.teams k).map Team.bare := by
  rw [← mget?_mmap, ← mget?_mmap, h.teams]

/-- Every array is as before. -/
def SameArrays (s t : State) : Prop := ∀ k, (t.core k).arr = (s.core k).arr

theorem accessed_owning (s : State) (o : SMap Nat) : Accessed s (s.owning o) := ⟨rfl, rfl, rfl, rfl, rfl, rfl, rfl⟩

theorem mmap_bare_clearResv (s : State) (only : Option Nat) (gs : List Nat) :
    mmap (s.clearResv only gs).teams Team.bare = mmap s.teams Team.bare := by
  simp only [State.clearResv, mmap, List.map_map]
  refine List.map_congr_left fun q _ => ?_
  simp only [Function.comp]
  split
  · rfl
  · simp only [Team.bare, mmap, List.map_map, Prod.mk.injEq, true_and, Team.mk.injEq, and_true]
    refine List.map_congr_left fun g _ => ?_
    simp only [Function.comp]
    split <;> rfl

/-- A core changed elsewhere than in its array, and whatever views of it. -/
theorem sameArrays_modCore {k : Nat} {f : CoreSt → CoreSt} (hf : ∀ c, (f c).arr = c.arr) : SameArrays s (s.modCore k f) := by
  intro j
  rw [State.core_modCore]
  split
  · next hk => rw [hf, hk]
  · rfl

theorem accessed_l1Clear (s : State) (core : Nat) : Accessed s (s.l1Clear core) := ⟨rfl, rfl, rfl, rfl, rfl, rfl, rfl⟩

theorem sameArrays_l1Clear (s : State) (core : Nat) : SameArrays s (s.l1Clear core) := 
  sameArrays_modCore (f := fun c => { c with l1 := [] }) fun _ => rfl

/-- An L1 that is brought up to date touches neither HBM nor an array. -/
theorem l1Refresh_spec (s : State) (core : Option Nat) (pa : Nat) (bs : List Byte) :
    Accessed s (s.l1Refresh core pa bs) ∧ (s.l1Refresh core pa bs).hbm = s.hbm ∧ SameArrays s (s.l1Refresh core pa bs) := by
  cases core with
  | none => exact ⟨.refl s, rfl, fun _ => rfl⟩
  | some k =>
    simp only [State.l1Refresh]
    split
    · exact ⟨⟨rfl, rfl, rfl, rfl, rfl, rfl, rfl⟩, rfl, fun _ => rfl⟩
    · exact ⟨⟨rfl, rfl, rfl, rfl, rfl, rfl, rfl⟩, rfl, sameArrays_modCore (s := s.dropViews k pa bs.length) fun _ => rfl⟩

/-- From `s` to `t` HBM takes `bs` at `pa`, and no array changes. -/
structure Wrote (s t : State) (pa : Nat) (bs : List Byte) : Prop extends Accessed s t where
  hbm : t.hbm = wrBytes s.hbm pa bs
  arr : SameArrays s t

theorem Wrote.after {pa : Nat} {bs : List Byte} (h : Wrote t u pa bs) (hst : Accessed s t) (hh : t.hbm = s.hbm) (ha : SameArrays s t) :
    Wrote s u pa bs :=
  ⟨hst.trans h.toAccessed, h.hbm.trans (by rw [hh]), fun k => (h.arr k).trans (ha k)⟩

theorem Wrote.before {pa : Nat} {bs : List Byte} (h : Wrote s t pa bs) (htu : Accessed t u) (hh : u.hbm = t.hbm) (ha : SameArrays t u) :
    Wrote s u pa bs :=
  ⟨h.toAccessed.trans htu, hh.trans h.hbm, fun k => (ha k).trans (h.arr k)⟩

/-- A write at the home slices by the part, for a core or for none. -/
theorem homeWrite_wrote (h : s.noLines) (core : Option Nat) (pa : Nat) (bs : List Byte) :
    Wrote s ((s.homeWrite pa bs).l1Refresh core pa bs) pa bs := by
  obtain ⟨o, ho⟩ := State.recallFor_noLines h none pa bs.length
  have hput : Wrote s (s.homeWrite pa bs) pa bs := by
    rw [State.homeWrite, State.homePut, ho]
    exact ⟨⟨rfl, rfl, rfl, rfl, rfl, rfl, mmap_bare_clearResv _ _ _⟩, rfl, fun _ => rfl⟩
  obtain ⟨haccessed, hhbm, harr⟩ := l1Refresh_spec (s.homeWrite pa bs) core pa bs
  exact hput.before haccessed hhbm harr

/-- What a number written leaves in HBM. -/
theorem Wrote.takes {pa n v : Nat} (h : Wrote s t pa (bytesOfNat n v)) (hwf : Memory.wf s.hbm = true) : HbmTakes s t pa n v := by
  refine ⟨?_, fun a ha => ?_⟩
  · have hread := rdBytes_wrBytes s.hbm pa (bytesOfNat n v) hwf
    rw [bytesOfNat_length] at hread
    rw [State.hbmNat, h.hbm, hread, natOfBytes_bytesOfNat, Nat.pow_mul]
  · rw [h.hbm, rdByte_wrBytes _ _ _ _ hwf, bytesOfNat_length]
    exact if_neg ha

/-- Numbers that lie apart from what was written are as before. -/
theorem HbmTakes.keeps {pa n v a m : Nat} (h : HbmTakes s t pa n v) (hd : a + m ≤ pa ∨ pa + n ≤ a) : t.hbmNat a m = s.hbmNat a m := by
  have hbytes : rdBytes t.hbm a m = rdBytes s.hbm a m := by
    refine List.map_congr_left fun i hi => h.2 _ fun ⟨hlo, hhi⟩ => ?_
    have := List.mem_range.mp hi
    omega
  rw [State.hbmNat, hbytes, State.hbmNat]

theorem Wrote.wf {pa : Nat} {bs : List Byte} (h : Wrote s t pa bs) (hwf : Memory.wf s.hbm = true) : Memory.wf t.hbm = true :=
  h.hbm ▸ wf_wrBytes _ _ _ hwf

/-- A write inside `D` leaves what the page tables map. -/
theorem Wrote.mapped {D : Nat → Prop} {die x va n pa a : Nat} {bs : List Byte} (h : Wrote s t a bs) (hwf : Memory.wf s.hbm = true)
    (hs : s.noLines) (hD : ∀ b, Bytes a bs.length b → D b) (hmap : Mapped s D die x va n pa) : Mapped t D die x va n pa := by
  refine hmap.congr hs (h.noLines hs) (h.sameTables x) fun b hb => ?_
  rw [h.hbm, rdByte_wrBytes _ _ _ _ hwf]
  exact if_neg fun hin => hb (hD b hin)

/-! ### Mapped ranges -/

section
variable {D : Nat → Prop} {die x va n pa : Nat} (hmap : Mapped s D die x va n pa)
include hmap

/-- A part of a mapped range is one piece of HBM. -/
theorem Mapped.span {k m : Nat} {need : Need} (hm : 0 < m) (hk : k + m ≤ n) (hx : need.ex = false) :
    s.span die x (va + k) m need = .ok [(.hbm (pa + k), m)] :=
  hmap s.hbm (fun _ _ => rfl) k m need hm hk hx

theorem Mapped.ownSpan {k m : Nat} {need : Need} (hm : 0 < m) (hk : k + m ≤ n) (hx : need.ex = false) :
    s.ownSpan die x (va + k) m need = some [(.hbm (pa + k), m)] := by
  rw [State.ownSpan, hmap.span hm hk hx]
  rfl

/-- A record of the part written. -/
theorem Mapped.vWrite {k : Nat} {bs : List Byte} (hs : s.noLines) (hm : 0 < bs.length) (hk : k + bs.length ≤ n) (core : Option Nat) :
    ∃ t, s.vWrite die x (va + k) bs core = some t ∧ Wrote s t (pa + k) bs := by
  rw [State.vWrite, hmap.ownSpan hm hk rfl]
  refine ⟨_, rfl, ?_⟩
  have hwrite := homeWrite_wrote hs core (pa + k) bs
  simpa only [State.spanWrite, List.foldl_cons, List.foldl_nil, List.take_length] using hwrite

end

end Sys2Proof.Machine
end

section
/-! PROOFS. Engine commands at their issue (R108, R184, R221): the split found again after accesses to memory, its command in the list of
its team and on its counter, and the ranges that translate. -/
namespace Sys2Proof.Machine

variable {s t : State}

/-! ### The split after accesses -/

/-- A split is found again after accesses to memory: only reservations of its team may have changed. -/
theorem Accessed.lookup {r : Ref} {c : Cur} (h : Accessed s t) (hc : s.lookup? r = some c) :
    ∃ c₁, t.lookup? r = some c₁ ∧ c₁.ref = c.ref ∧ c₁.split = c.split ∧ c₁.group.bare = c.group.bare ∧
      c₁.team.bare = c.team.bare := by
  simp only [State.lookup?, Option.bind_eq_some_iff, Option.map_eq_some_iff] at hc
  obtain ⟨tm, htm, g, hg, p, hp, rfl⟩ := hc
  have hteam := h.mget?_team r.team
  rw [htm, Option.map_some, Option.map_eq_some_iff] at hteam
  obtain ⟨tm₁, htm₁, hbare⟩ := hteam
  have hgroup : (mget? tm₁.groups r.group).map Group.bare = some g.bare := by
    have hgroups : mmap tm₁.groups Group.bare = mmap tm.groups Group.bare := congrArg Team.groups hbare
    rw [← mget?_mmap, hgroups, mget?_mmap, hg, Option.map_some]
  obtain ⟨g₁, hg₁, hgb⟩ := Option.map_eq_some_iff.mp hgroup
  have hsplits : g₁.bare.splits = g.bare.splits := congrArg Group.splits hgb
  have hp₁ : mget? g₁.splits r.split = some p := (congrArg (mget? · r.split) hsplits).trans hp
  refine ⟨⟨r, tm₁, g₁, p⟩, ?_, rfl, rfl, hgb, hbare⟩
  simp only [State.lookup?, htm₁, hg₁, hp₁, Option.bind_some, Option.map_some]

/-- Reservations are no registers. -/
theorem sameRegisters_of_bare {g h : Group} (hb : h.bare = g.bare) : SameRegisters g h :=
  have hv : h.bare.v = g.bare.v := congrArg Group.v hb
  have hs : h.bare.s = g.bare.s := congrArg Group.s hb
  have hp : h.bare.p = g.bare.p := congrArg Group.p hb
  have hregs : h.bare.regs = g.bare.regs := congrArg Group.regs hb
  ⟨hv, hs, hp, hregs⟩

/-! ### Entering the list -/

/-- A command counted on its split and listed for its team. -/
theorem Cur.command_eq {c : Cur} {i : Instr} {x : Ctr} (hx : i.counter = some x) (id : Nat) (k : Cmd) : c.command i id k =
    { c with
      split := (c.count x id).split
      team := { c.team with cmds := mput c.team.cmds id { k with cause := some (i, (c.count x id).split) } } } := by
  simp only [Cur.command, hx, Cur.count]

/-- A split put back with one more command in its team's list and on its counter. -/
theorem posted_put {c e : Cur} {x : Ctr} {q : Cmd} (hr : e.ref = c.ref) (ht : e.team = { c.team with cmds := mput c.team.cmds s.nextId q })
    (hs : e.group.splits = c.group.splits) (hx : e.split.ctrs = c.split.ctrs.add x s.nextId) (hg : q.group = c.ref.group)
    (hp : q.split = c.ref.split) : Posted s (s.fresh.1.put e) c ⟨c.ref, e.newTeam, e.newGroup, e.split⟩ x q := by
  refine ⟨⟨?lookup, ⟨⟨fun _ => rfl, fun _ _ => rfl⟩, rfl, rfl, rfl, rfl, rfl, rfl, rfl, rfl, rfl, rfl⟩, ?teams, ?groups, ?splits⟩,
    ?listed, hx, ?cmds, hg, hp⟩
  case lookup => rw [← hr]; exact lookup?_put _ e
  case teams =>
    intro k hk
    rw [State.put_teams, hr, mget?_mput, if_neg (Ne.symm hk)]
    rfl
  case groups =>
    intro k hk
    simp only [Cur.newTeam, hr, ht, mget?_mput, if_neg (Ne.symm hk)]
  case splits =>
    intro k hk
    simp only [Cur.newGroup, hr, hs, mget?_mput, if_neg (Ne.symm hk)]
  case listed => simp only [Cur.newTeam, ht, mget?_mput_self]
  case cmds =>
    intro n hn
    simp only [Cur.newTeam, ht, mget?_mput, if_neg (Ne.symm hn)]

/-- A command of the split, issued with whatever its meaning has changed in the split's group and in the split, its counters aside. -/
theorem command_posted {c e : Cur} {i : Instr} {x : Ctr} {k : Cmd} (hi : i.counter = some x) (hr : e.ref = c.ref) (ht : e.team = c.team)
    (hs : e.group.splits = c.group.splits) (hx : e.split.ctrs = c.split.ctrs) (hg : k.group = c.ref.group) (hp : k.split = c.ref.split) :
    ∃ d q, Posted s (s.fresh.1.put (e.command i s.nextId k)) c d x q ∧ q.kind = k.kind ∧ d.ref = c.ref ∧
      d.group = { e.group with splits := d.group.splits } ∧ d.split = { e.split with ctrs := d.split.ctrs } := by
  rw [Cur.command_eq hi]
  refine ⟨_, _, posted_put (q := { k with cause := some (i, (e.count x s.nextId).split) }) hr (by rw [ht]) hs ?_ hg hp, rfl, rfl, rfl, rfl⟩
  simp only [Cur.count, hx]

/-- A command whose whole effect is made at issue. -/
theorem effected_posted {c e : Cur} {i : Instr} {x : Ctr} {foot : List Foot} (hi : i.counter = some x) (hr : e.ref = c.ref)
    (ht : e.team = c.team) (hs : e.group.splits = c.group.splits) (hx : e.split.ctrs = c.split.ctrs) :
    ∃ d q, Posted s (s.effected e i foot) c d x q ∧ q.kind = .effected ∧ d.ref = c.ref ∧
      d.group = { e.group with splits := d.group.splits } ∧ d.split = { e.split with ctrs := d.split.ctrs } :=
  command_posted hi hr ht hs hx (congrArg Ref.group hr) (congrArg Ref.split hr)

/-- Leaving the clause moves the split and nothing else. -/
theorem Cur.fall_spec (c : Cur) : ∃ p, c.fall = { c with split := p } ∧ p.opn = false ∧ p.pc = c.after.2 ∧ p.loops = c.after.1 ∧
    p.mask = c.split.mask ∧ p.ctrs = c.split.ctrs := by
  have hyield : c.split.yielded.mask = c.split.mask ∧ c.split.yielded.ctrs = c.split.ctrs := by
    rw [Split.yielded]
    split <;> exact ⟨rfl, rfl⟩
  rw [Cur.fall, Cur.after]
  cases c.split.jump <;> exact ⟨_, rfl, rfl, rfl, rfl, hyield⟩

/-! ### Registers written -/

theorem Group.sreg_wrS (g : Group) (n m : Nat) (w : Word) : (g.wrS n w).sreg m = if n = m then w else g.sreg m := by
  rw [Group.sreg, Group.wrS_s, mget_mput]
  rfl

/-- A group whose scalars are those of a write. -/
theorem scalarIs_wrS {c d : Cur} {r : Nat} {v : Word} (hs : d.group.s = (c.group.wrS r v).s) (hv : d.group.v = c.group.v)
    (hregs : d.group.regs = c.group.regs) : ScalarIs c d r v := by
  have hsreg (n : Nat) : d.group.sreg n = if r = n then v else c.group.sreg n := by
    rw [← Group.sreg_wrS, Group.sreg, hs, Group.sreg]
  exact ⟨by rw [hsreg, if_pos rfl], fun n hn => by rw [hsreg, if_neg (Ne.symm hn)], hv, hregs⟩

/-! ### Ranges that translate -/

/-- A range translated as a whole is translated piece by piece. -/
theorem translate_of_span {d x va n : Nat} {need : Need} {l : List (Place × Nat)} (h : s.span d x va n need = .ok l) :
    ∀ c ∈ pageChunks va n, ∃ p e, s.translate d x (BitVec.ofNat 64 c.1) need = .ok p e := by
  have hfrom (cs : List (Nat × Nat)) (acc : List (Place × Nat)) (h : cs.foldlM (fun acc c =>
      match s.translate d x (BitVec.ofNat 64 c.1) need with
      | .ok p _ => .ok (acc ++ [(p, c.2)])
      | e => .error (e, c.1)) acc = (.ok l : Except (Trans × Nat) _)) :
      ∀ c ∈ cs, ∃ p e, s.translate d x (BitVec.ofNat 64 c.1) need = .ok p e := by
    induction cs generalizing acc with
    | nil => simp
    | cons c cs ih =>
      rw [List.foldlM_cons] at h
      obtain ⟨acc', hc, hrest⟩ := ok_of_bind h
      rw [List.forall_mem_cons]
      refine ⟨?_, ih acc' hrest⟩
      split at hc
      · next p e hpe => exact ⟨p, e, hpe⟩
      · cases hc
  exact hfrom _ [] h

/-- A range whose every piece translates. -/
def State.RangeOk (s : State) (tm : Team) (r : ERange) : Prop := ∀ p ∈ s.rangePieces tm r, ∃ q e, p.2.2 = .ok q e

theorem rangeOk_of_span {tm : Team} {a n : Nat} {need : Need} {l : List (Place × Nat)} (h : s.span tm.die tm.ctx a n need = .ok l) :
    s.RangeOk tm ⟨false, a, n, need⟩ := by
  intro p hp
  obtain ⟨c, hc, rfl⟩ := List.mem_map.mp hp
  exact translate_of_span h c hc

theorem rangeOk_of_vRead {tm : Team} {a n : Nat} {bs : List Byte} (h : s.vRead tm.die tm.ctx a n = some bs) :
    s.RangeOk tm ⟨false, a, n, { rd := true }⟩ := by
  cases hspan : s.span tm.die tm.ctx a n { rd := true } with
  | ok l => exact rangeOk_of_span hspan
  | error e => simp [State.vRead, State.ownSpan, hspan] at h

/-- A range of the local array, inside the team's bytes and with no window mapped. -/
theorem rangeOk_local {tm : Team} {a n : Nat} {need : Need} (hlen : a + n ≤ tm.bytes) (hwins : tm.wins = []) :
    s.RangeOk tm ⟨true, a, n, need⟩ := by
  intro p hp
  have hin : ¬ (tm.bytes < a + n ∨ tm.inWindow a n = true) := by simp [Team.inWindow, hwins]; omega
  simp only [State.rangePieces, if_true, List.mem_singleton, Bool.or_eq_true, decide_eq_true_eq, if_neg hin] at hp
  exact ⟨_, _, by rw [hp]⟩

/-- A command whose ranges all translate is not trapped by them. -/
theorem engRanges_ok {c : Cur} {rs : List ERange} (h : ∀ r ∈ rs, s.RangeOk c.team r) : ∃ ps, s.engRanges c rs = .ok ps := by
  have hall : ∀ p ∈ (rs.map (s.rangePieces c.team)).flatten, ∃ q e, p.2.2 = .ok q e := by
    intro p hp
    obtain ⟨l, hl, hpl⟩ := List.mem_flatten.mp hp
    obtain ⟨r, hr, rfl⟩ := List.mem_map.mp hl
    exact h r hr p hpl
  have hprot : ((rs.map (s.rangePieces c.team)).flatten.find? fun p => match p.2.2 with | .prot _ => true | _ => false) = none := by
    rw [List.find?_eq_none]
    intro p hp
    obtain ⟨q, e, hqe⟩ := hall p hp
    simp [hqe]
  have hfault : ((rs.map (s.rangePieces c.team)).flatten.find? fun p => p.2.2 = .pageflt) = none := by
    rw [List.find?_eq_none]
    intro p hp
    obtain ⟨q, e, hqe⟩ := hall p hp
    simp [hqe]
  cases hres : s.engRanges c rs with
  | ok ps => exact ⟨ps, rfl⟩
  | error e =>
    simp only [State.engRanges] at hres
    split at hres
    · next p hp => exact absurd (hp.symm.trans hprot) (by simp)
    · rw [hfault] at hres
      cases hres

end Sys2Proof.Machine
end

section
/-! PROOFS. Tasks (R70 to R76, R88, R454 to R456): the five ends of a creation, STATE and DEP of a record as the part writes them, and
the instructions TASKNEW, TASKDEC and TEMIT. -/
namespace Sys2Proof.Machine

set_option maxRecDepth 3000

variable {s : State}

/-! ### STATE of a record, and readiness (R76) -/

theorem mget?_modTask_self {k : Nat} {f : Task → Task} {tk : Task} (hk : mget? s.tasks k = some tk) :
    mget? (s.modTask k f).tasks k = some (f tk) := by
  rw [State.modTask_tasks, mget?_mmod, if_pos rfl, hk, Option.map_some]

theorem mget?_modTask_other {k j : Nat} (f : Task → Task) (hj : j ≠ k) : mget? (s.modTask k f).tasks j = mget? s.tasks j := by
  rw [State.modTask_tasks, mget?_mmod, if_neg (Ne.symm hj)]

section
variable {D : Nat → Prop} {k die pa : Nat} {tk : Task} (hk : mget? s.tasks k = some tk) (hs : s.noLines)
  (hmap : Mapped s D die tk.ctx tk.addr 128 pa) (core : Option Nat)
include hk hs hmap

/-- STATE goes to memory and to the part's copy. -/
theorem writeState_wrote (v : Nat) :
    Wrote (s.modTask k fun t => { t with state := v }) (s.writeState k die v core) (pa + 0x2C) (bytesOfNat 4 v) := by
  have hmap' : Mapped (s.modTask k fun t => { t with state := v }) D die tk.ctx tk.addr 128 pa :=
    hmap.congr hs hs (.of_eq rfl rfl rfl) fun _ _ => rfl
  have hlen : (bytesOfNat 4 v).length = 4 := bytesOfNat_length 4 v
  obtain ⟨u, hu, hwrote⟩ := hmap'.vWrite (k := 0x2C) (bs := bytesOfNat 4 v) hs (by omega) (by omega) core
  simp only [State.writeState, hk, hu]
  exact hwrote

/-- A waiting task becomes ready now. -/
theorem makeReady_wrote (hstate : tk.state = 1) (hready : tk.ready = none) :
    Wrote (s.modTask k fun t => { t with state := 2, ready := some (t.ready.getD s.mgmt.time) }) (s.makeReady k die core)
        (pa + 0x2C) (bytesOfNat 4 2) ∧
      mget? (s.makeReady k die core).tasks k = some { tk with state := 2, ready := some s.mgmt.time } := by
  have hmap' : Mapped (s.modTask k fun t => { t with ready := some (t.ready.getD s.mgmt.time) }) D die tk.ctx tk.addr 128 pa :=
    hmap.congr hs hs (.of_eq rfl rfl rfl) fun _ _ => rfl
  have hwrote := writeState_wrote (mget?_modTask_self hk) hs hmap' core 2
  have htwice : (s.modTask k fun t => { t with ready := some (t.ready.getD s.mgmt.time) }).modTask k (fun t => { t with state := 2 }) =
      s.modTask k fun t => { t with state := 2, ready := some (t.ready.getD s.mgmt.time) } := by
    simp only [State.modTask, mmod, List.map_map]
    congr 2
    funext p
    simp only [Function.comp]
    split <;> rfl
  rw [htwice] at hwrote
  have hmake : s.makeReady k die core = (s.modTask k fun t => { t with ready := some (t.ready.getD s.mgmt.time) }).writeState k die 2 core := by
    simp only [State.makeReady, hk, hstate, if_true]
  rw [hmake]
  refine ⟨hwrote, ?_⟩
  rw [hwrote.tasks, mget?_modTask_self hk, hready]
  rfl

end

/-- A compute task has no counts of a graph node to look at. -/
theorem settleNode_compute {k die : Nat} {tk : Task} (hk : mget? s.tasks k = some tk) (hg : tk.graph = false) (core : Option Nat) :
    s.settleNode k die core = s := by
  simp [State.settleNode, hk, hg]

theorem nodeOver_compute {k die : Nat} {tk : Task} (hk : mget? s.tasks k = some tk) (hg : tk.graph = false) :
    s.nodeOver k die = false := by
  simp [State.nodeOver, hk, hg]

/-! ### Creation (R71, R72) -/

/-- A new task in the table, and one more creation of its context. -/
def State.entered (s : State) (x : Nat) (k : Task) : State :=
  ({ s with nextId := s.nextId + 1, tasks := mput s.tasks s.nextId k }).modCtx x fun y => { y with created := y.created + 1 }

theorem State.entered_sameTables (x : Nat) (k : Task) : SameTables s (s.entered x k) x := by
  refine ⟨rfl, rfl, ?_, ?_⟩ <;> rw [State.entered, State.ctx_modCtx_self] <;> rfl

theorem State.entered_created (x : Nat) (k : Task) : ((s.entered x k).ctx x).created = (s.ctx x).created + 1 := by
  rw [State.entered, State.ctx_modCtx_self]
  rfl

theorem State.entered_task (x : Nat) (k : Task) (j : Nat) :
    mget? (s.entered x k).tasks j = if s.nextId = j then some k else mget? s.tasks j := by
  rw [State.entered, State.modCtx_tasks, mget?_mput]

section
variable {s₁ : State} {die x rec : Nat} {l : List (Place × Nat)} {b : List Byte} {core : Option Nat}
  (hown : s.ownSpan die x rec 128 { wr := true } = some l) (hread : s.spanRead l = (s₁, b))
include hown hread

theorem createTask_full (hfull : s₁.tasksFull x = true) : s.createTask die x rec core = (s₁, 1) := by
  simp only [State.createTask, hown, hread, hfull, if_true]

variable (hroom : s₁.tasksFull x = false)
include hroom

theorem createTask_field (hbad : recordBad b = true) : s.createTask die x rec core = (s₁, 2) := by
  simp only [State.createTask, hown, hread, hroom, hbad, Bool.false_eq_true, if_true, if_false]

variable (hrec : recordBad b = false)
include hrec

theorem createTask_shape (hbad : shapeBad (BitVec.ofNat 64 (le b 0x10 8)) (le b 0x1C 4 / 4 % 2 = 1) = true) :
    s.createTask die x rec core = (s₁, 3) := by
  simp only [State.createTask, hown, hread, hroom, hrec, hbad, Bool.false_eq_true, if_true, if_false]

variable (hshape : shapeBad (BitVec.ofNat 64 (le b 0x10 8)) (le b 0x1C 4 / 4 % 2 = 1) = false)
include hshape

theorem createTask_image (hbad : s₁.image die x (le b 0 8) = none ∨ ∃ h, s₁.image die x (le b 0 8) = some h ∧
    ((rolesOf (BitVec.ofNat 64 (le b 0x10 8))).any fun q => le h (0x28 + 4 * q.1) 4 = 0xFFFFFFFF) = true) :
    s.createTask die x rec core = (s₁, 4) := by
  rcases hbad with hbad | ⟨h, himage, habsent⟩
  · simp only [State.createTask, hown, hread, hroom, hrec, hshape, hbad, Bool.false_eq_true, if_false]
  · simp only [State.createTask, hown, hread, hroom, hrec, hshape, himage, habsent, Bool.false_eq_true, if_true, if_false]

variable {h : List Byte} (himage : s₁.image die x (le b 0 8) = some h)
  (habsent : ((rolesOf (BitVec.ofNat 64 (le b 0x10 8))).any fun q => le h (0x28 + 4 * q.1) 4 = 0xFFFFFFFF) = false) {u : State}
  (hu : s₁.recallSpan die x (le b 0 8) (le h 0x1C 4) { rd := true } = u)
include himage habsent hu

theorem createTask_waits (hdep : ¬ (BitVec.ofNat 32 (le b 0x28 4)).toInt ≤ 0) : s.createTask die x rec core =
    ((u.entered x (taskOfRecord x rec (BitVec.ofNat 32 (u.ctx x).created) b h)).writeState u.nextId die 1 core, 0) := by
  simp only [State.createTask, hown, hread, hroom, hrec, hshape, himage, habsent, hu, hdep, Bool.false_eq_true, if_false]
  rfl

theorem createTask_ready (hdep : (BitVec.ofNat 32 (le b 0x28 4)).toInt ≤ 0) : s.createTask die x rec core =
    ((((u.entered x (taskOfRecord x rec (BitVec.ofNat 32 (u.ctx x).created) b h)).writeState u.nextId die 1 core).makeReady
      u.nextId die core).settleNode u.nextId die core, 0) := by
  simp only [State.createTask, hown, hread, hroom, hrec, hshape, himage, habsent, hu, hdep, Bool.false_eq_true, if_true, if_false]
  rfl

end

/-- A number written twice. -/
theorem HbmTakes.trans {t u : State} {pa n v w : Nat} (h : HbmTakes s t pa n v) (h' : HbmTakes t u pa n w) : HbmTakes s u pa n w :=
  ⟨h'.1, fun a ha => (h'.2 a ha).trans (h.2 a ha)⟩

/-- From `s` to `t` the task `k` has come into the table, under the next fresh name, as one more creation of its context. -/
structure Entered (s t : State) (x : Nat) (k : Task) : Prop where
  task : mget? t.tasks s.nextId = some k
  count : (t.ctx x).created = (s.ctx x).created + 1
  others : ∀ j, j ≠ s.nextId → mget? t.tasks j = mget? s.tasks j

section
variable {die x rec pa : Nat} (hs : s.noLines) (hwf : Memory.wf s.hbm = true) (hmap : Mapped s (Bytes pa 128) die x rec 128 pa)
  (core : Option Nat)
include hs hwf hmap

/-- A new task waits, with STATE 1, and can be made ready, with STATE 2. -/
theorem entered_spec {tk : Task} (hctx : tk.ctx = x) (haddr : tk.addr = rec) (hready : tk.ready = none) :
    let z := (s.entered x tk).writeState s.nextId die 1 core
    let w := z.makeReady s.nextId die core
    (Entered s z x { tk with state := 1 } ∧ HbmTakes s z (pa + 0x2C) 4 1) ∧
      Entered s w x { tk with state := 2, ready := some s.mgmt.time } ∧ HbmTakes s w (pa + 0x2C) 4 2 := by
  intro z w
  have hk : mget? (s.entered x tk).tasks s.nextId = some tk := by rw [State.entered_task]; exact if_pos rfl
  have hmapE : Mapped (s.entered x tk) (Bytes pa 128) die tk.ctx tk.addr 128 pa := by
    rw [hctx, haddr]
    exact hmap.congr hs hs (State.entered_sameTables x tk) fun _ _ => rfl
  have hz : Wrote _ z (pa + 0x2C) (bytesOfNat 4 1) := writeState_wrote hk hs hmapE core 1
  have hzk : Entered s z x { tk with state := 1 } := by
    refine ⟨by rw [hz.tasks]; exact mget?_modTask_self hk, ?_, fun j hj => ?_⟩
    · rw [State.ctx, hz.ctxs]
      exact State.entered_created x tk
    · rw [hz.tasks, mget?_modTask_other _ hj, State.entered_task, if_neg (Ne.symm hj)]
  have hztakes : HbmTakes s z (pa + 0x2C) 4 1 := hz.takes hwf
  have hmapZ : Mapped z (Bytes pa 128) die tk.ctx tk.addr 128 pa := by
    refine hz.mapped hwf hs (fun a ha => ?_) (hmapE.congr hs hs (.of_eq rfl rfl rfl) fun _ _ => rfl)
    obtain ⟨hlo, hhi⟩ := ha
    rw [bytesOfNat_length] at hhi
    exact ⟨by omega, by omega⟩
  obtain ⟨hw, hwk⟩ := makeReady_wrote hzk.task (hz.noLines hs) hmapZ core rfl hready
  refine ⟨⟨hzk, hztakes⟩, ⟨?_, ?_, fun j hj => ?_⟩, hztakes.trans (hw.takes (hz.wf hwf))⟩
  · exact hwk.trans (by rw [hz.mgmt]; rfl)
  · rw [State.ctx, hw.ctxs]
    exact hzk.count
  · rw [hw.tasks, mget?_modTask_other _ hj, hzk.others j hj]

omit hwf in
/-- The record is read as it stands. -/
theorem createTask_read : s.ownSpan die x rec 128 { wr := true } = some [(.hbm pa, 128)] ∧
    ∃ o, s.spanRead [(.hbm pa, 128)] = (s.owning o, rdBytes s.hbm pa 128) := by
  obtain ⟨o, hread⟩ := State.spanRead_noLines hs [(.hbm pa, 128)]
  rw [List.flatMap_singleton] at hread
  exact ⟨hmap.ownSpan (k := 0) (by omega) (by omega) rfl, o, hread⟩

/-- A creation that every check admits (R72): the task waits, or, a compute task with no dependence, is ready. -/
theorem createTask_created {b h : List Byte} (hb : b = rdBytes s.hbm pa 128) (hroom : s.tasksFull x = false)
    (hrec : recordBad b = false) (hshape : shapeBad (BitVec.ofNat 64 (le b 0x10 8)) (le b 0x1C 4 / 4 % 2 = 1) = false)
    (himage : s.image die x (le b 0 8) = some h)
    (habsent : ((rolesOf (BitVec.ofNat 64 (le b 0x10 8))).any fun q => le h (0x28 + 4 * q.1) 4 = 0xFFFFFFFF) = false)
    (hgraph : (BitVec.ofNat 32 (le b 0x28 4)).toInt ≤ 0 → le b 0x1C 4 / 4 % 2 = 0) :
    let r := s.createTask die x rec core
    ∃ k, r.2 = 0 ∧ Entered s r.1 x k ∧
      k = { taskOfRecord x rec (BitVec.ofNat 32 (s.ctx x).created) b h with state := k.state, ready := k.ready } ∧
      (0 < (BitVec.ofNat 32 (le b 0x28 4)).toInt → k.state = 1 ∧ k.ready = none ∧ HbmTakes s r.1 (pa + 0x2C) 4 1) ∧
      ((BitVec.ofNat 32 (le b 0x28 4)).toInt ≤ 0 →
        k.state = 2 ∧ k.ready = some s.mgmt.time ∧ HbmTakes s r.1 (pa + 0x2C) 4 2) := by
  intro r
  obtain ⟨hown, o, hread⟩ := createTask_read hs hmap
  rw [← hb] at hread
  obtain ⟨o', hrecall⟩ := State.recallSpan_noLines (s := s.owning o) hs die x (le b 0 8) (le h 0x1C 4) { rd := true }
  have himage' : (s.owning o).image die x (le b 0 8) = some h :=
    (image_congr (s := s) (t := s.owning o) hs hs (.of_eq rfl rfl rfl) rfl _ _).trans himage
  obtain ⟨⟨hz, hztakes⟩, hw, hwtakes⟩ := entered_spec (s := (s.owning o).owning o') hs hwf
    (hmap.congr hs hs (.of_eq rfl rfl rfl) fun _ _ => rfl)
    core (tk := taskOfRecord x rec (BitVec.ofNat 32 (s.ctx x).created) b h) rfl rfl rfl
  rcases lt_or_ge 0 (BitVec.ofNat 32 (le b 0x28 4)).toInt with hdep | hdep
  · have hr : r = _ := createTask_waits hown hread hroom hrec hshape himage' habsent hrecall (by omega)
    rw [hr]
    exact ⟨_, rfl, ⟨hz.task, hz.count, hz.others⟩, rfl, fun _ => ⟨rfl, rfl, hztakes⟩, fun hle => absurd hdep (by omega)⟩
  · have hcompute : (taskOfRecord x rec (BitVec.ofNat 32 (s.ctx x).created) b h).graph = false := by
      simp [taskOfRecord, hgraph hdep]
    have hr : r = _ := (createTask_ready hown hread hroom hrec hshape himage' habsent hrecall hdep).trans
      (congrArg (·, 0) (settleNode_compute hw.task hcompute core))
    rw [hr]
    exact ⟨_, rfl, ⟨hw.task, hw.count, hw.others⟩, rfl, fun hlt => absurd hlt (by omega), fun _ => ⟨rfl, rfl, hwtakes⟩⟩

end

/-! ### DEP of a record (R76, R455) -/

/-- A number that a record holds is replaced, for a core or for none. -/
theorem spanWrite_wrote (hs : s.noLines) (pa : Nat) (bs : List Byte) (core : Option Nat) :
    Wrote s (s.spanWrite [(.hbm pa, bs.length)] bs core) pa bs := by
  have hwrote := homeWrite_wrote hs core pa bs
  simpa only [State.spanWrite, List.foldl_cons, List.foldl_nil, List.take_length] using hwrote

/-- What DEP holds after a decrement. -/
def State.depAfter (s : State) (pa amount : Nat) : Word := BitVec.ofNat 32 (s.hbmNat (pa + 0x28) 4) - BitVec.ofNat 32 amount

section
variable {D : Nat → Prop} {die x rec pa amount : Nat} (hs : s.noLines) (hmap : Mapped s D die x rec 128 pa) (core : Option Nat)
include hs hmap

/-- A decrement writes DEP first: the state that it then looks at for the task of the record. -/
theorem dep_wrote : s.ownSpan die x (rec + 0x28) 4 { wr := true } = some [(.hbm (pa + 0x28), 4)] ∧
    ∃ o u, s.spanRead [(.hbm (pa + 0x28), 4)] = (s.owning o, rdBytes s.hbm (pa + 0x28) 4) ∧
      (s.owning o).spanWrite [(.hbm (pa + 0x28), 4)] (bytesOfNat 4 (s.depAfter pa amount).toNat) core = u ∧
      Wrote s u (pa + 0x28) (bytesOfNat 4 (s.depAfter pa amount).toNat) := by
  obtain ⟨o, hread⟩ := State.spanRead_noLines hs [(.hbm (pa + 0x28), 4)]
  rw [List.flatMap_singleton] at hread
  have hwrote := spanWrite_wrote (s := s.owning o) hs (pa + 0x28) (bytesOfNat 4 (s.depAfter pa amount).toNat) core
  rw [bytesOfNat_length] at hwrote
  exact ⟨hmap.ownSpan (by omega) (by omega) rfl, o, _, hread, rfl, hwrote.after (accessed_owning s o) rfl fun _ => rfl⟩

/-- A record that is no task's has only its DEP changed. -/
theorem decrement_alone (hno : ∀ t ∈ s.tasks, ¬ (t.2.ctx = x ∧ t.2.addr = rec)) :
    Wrote s (s.decrement die x rec amount core) (pa + 0x28) (bytesOfNat 4 (s.depAfter pa amount).toNat) := by
  obtain ⟨hown, o, u, hread, hu, hwrote⟩ := dep_wrote (amount := amount) hs hmap core
  have hfind : (u.tasks.find? fun t => t.2.ctx = x && t.2.addr = rec) = none := by
    rw [hwrote.tasks, List.find?_eq_none]
    simpa using hno
  rw [State.depAfter, State.hbmNat] at hu
  have hdec : s.decrement die x rec amount core = u := by
    simp only [State.decrement, State.decDep, hown, hread, hu, hfind]
  rw [hdec]
  exact hwrote

/-- A waiting compute task whose DEP comes to zero or below is ready. -/
theorem decrement_due {k : Nat} {tk : Task} (hwf : Memory.wf s.hbm = true) (hD : ∀ a, Bytes pa 128 a → D a)
    (hfind : (s.tasks.find? fun t => t.2.ctx = x && t.2.addr = rec) = some (k, tk)) (hk : mget? s.tasks k = some tk) (hg : tk.graph = false)
    (hstate : tk.state = 1) (hready : tk.ready = none) (hold : 0 < (BitVec.ofNat 32 (s.hbmNat (pa + 0x28) 4)).toInt)
    (hnew : (s.depAfter pa amount).toInt ≤ 0) :
    let t := s.decrement die x rec amount core
    ∃ u, Wrote s u (pa + 0x28) (bytesOfNat 4 (s.depAfter pa amount).toNat) ∧
      Wrote (u.modTask k fun t => { t with state := 2, ready := some (t.ready.getD u.mgmt.time) }) t (pa + 0x2C) (bytesOfNat 4 2) ∧
      mget? t.tasks k = some { tk with state := 2, ready := some s.mgmt.time } := by
  intro t
  obtain ⟨hown, o, u, hread, hu, hwrote⟩ := dep_wrote (amount := amount) hs hmap core
  have hrec := List.find?_some hfind
  simp only [Bool.and_eq_true, decide_eq_true_eq] at hrec
  obtain ⟨hctx, haddr⟩ := hrec
  have hku : mget? u.tasks k = some tk := by rw [hwrote.tasks, hk]
  have hmapU : Mapped u D die tk.ctx tk.addr 128 pa := by
    rw [hctx, haddr]
    refine hwrote.mapped hwf hs (fun a ha => hD a ?_) hmap
    obtain ⟨hlo, hhi⟩ := ha
    rw [bytesOfNat_length] at hhi
    exact ⟨by omega, by omega⟩
  obtain ⟨hw, hwk⟩ := makeReady_wrote hku (hwrote.noLines hs) hmapU core hstate hready
  have hdec : t = u.makeReady k die core := by
    have hfindU : (u.tasks.find? fun t => t.2.ctx = x && t.2.addr = rec) = some (k, tk) := by rw [hwrote.tasks, hfind]
    have hover := nodeOver_compute (die := die) hwk hg
    rw [State.depAfter, State.hbmNat] at hu hnew
    rw [State.hbmNat] at hold
    simp only [t, State.decrement, State.decDep, hown, hread, hu, hfindU, hold, hnew, hstate, hg, hover, decide_true, Bool.and_self,
      Bool.true_or, Bool.false_eq_true, if_true, if_false]
  rw [hdec]
  refine ⟨u, hwrote, hw, hwk.trans ?_⟩
  rw [hwrote.mgmt]

end

/-! ### The instructions (R454 to R456) -/

/-- A command that has made its effect and answers in a scalar. -/
theorem answered_posted {c : Cur} {i : Instr} {x : Ctr} (hi : i.counter = some x) (id r : Nat) (landed : Bool) (v : Word) :
    ∃ d q, Posted s (s.effected { c.deferI i id landed with group := (c.deferI i id landed).group.wrS r v } i []) c d x q ∧
      q.kind = .effected ∧ ScalarIs c d r v ∧ d.group.p = c.group.p := by
  obtain ⟨pend, hpend, -⟩ := deferI_spec c i id landed
  rw [hpend]
  obtain ⟨d, q, hposted, hkind, -, hgroup, -⟩ := effected_posted (s := s) (c := c) (foot := [])
    (e := { c with group := c.group.wrS r v, split := { c.split with pend := pend } }) hi rfl rfl rfl rfl
  exact ⟨d, q, hposted, hkind, scalarIs_wrS (by rw [hgroup]) (by rw [hgroup]; rfl) (by rw [hgroup]; rfl), by rw [hgroup]; rfl⟩

section
variable {c : Cur} {f : FmtE} (hc : s.cur? = some c) (ha : c.acts f.com = true)
include hc ha

/-- TASKNEW answers with the status of the creation. -/
theorem exec_tasknew_posted {c₁ : Cur} (hrec : (c.rdPair f.s1.toNat).toNat % 128 = 0)
    (hst : (s.createTask c.team.die c.team.ctx (c.rdPair f.s1.toNat).toNat (some c.team.coreKey)).2 ≠ 5)
    (hl : (s.createTask c.team.die c.team.ctx (c.rdPair f.s1.toNat).toNat (some c.team.coreKey)).1.lookup? c.ref = some c₁) :
    let r := s.createTask c.team.die c.team.ctx (c.rdPair f.s1.toNat).toNat (some c.team.coreKey)
    ∃ (t : State) (d : Cur) (q : Cmd), exec (.tasknew f) s = .next t ∧ Posted r.1 t c₁ d .enc q ∧ q.kind = .effected ∧
      ScalarIs c₁ d f.s0.toNat (BitVec.ofNat 32 r.2) ∧ d.group.p = c₁.group.p := by
  intro r
  obtain ⟨d, q, hposted, hrest⟩ := answered_posted (s := r.1) (c := c₁) (i := .tasknew f) rfl 0 f.s0.toNat true (BitVec.ofNat 32 r.2)
  refine ⟨_, d, q, ?_, hposted, hrest⟩
  rw [exec_tasknew, execTasknew, onSplit_eq s c _ hc]
  simp only [ha, hrec, hst, State.again, hl, Option.getD_some, Bool.not_true, Bool.false_eq_true, ne_eq, not_true_eq_false, if_false]
  rfl

/-- TASKDEC makes its decrement, and its split goes on. -/
theorem exec_taskdec_posted (hrec : (c.rdPair f.s0.toNat).toNat % 128 = 0) (hne : c.rdS f.s1.toNat ≠ 0)
    (hlt : (c.rdS f.s1.toNat).toNat < 2 ^ 31) {c₁ : Cur}
    (hl : (s.decrement c.team.die c.team.ctx (c.rdPair f.s0.toNat).toNat (c.rdS f.s1.toNat).toNat (some c.team.coreKey)).lookup? c.ref = some c₁) :
    let s₁ := s.decrement c.team.die c.team.ctx (c.rdPair f.s0.toNat).toNat (c.rdS f.s1.toNat).toNat (some c.team.coreKey)
    ∃ (t : State) (d : Cur) (q : Cmd), exec (.taskdec f) s = .next t ∧ Posted s₁ t c₁ d .enc q ∧ q.kind = .effected ∧ OnlyCounts c₁ d ∧
      SameRegisters c₁.group d.group ∧ t.tasks = s₁.tasks ∧ t.hbm = s₁.hbm := by
  intro s₁
  obtain ⟨d, q, hposted, hkind, -, hgroup, hsplit⟩ := effected_posted (s := s₁) (c := c₁) (e := c₁) (i := .taskdec f)
    (foot := []) rfl rfl rfl rfl rfl
  have hgo : ¬ ((c.rdPair f.s0.toNat).toNat % 128 ≠ 0 ∨ (c.rdS f.s1.toNat).toNat = 0 ∨ 2 ^ 31 ≤ (c.rdS f.s1.toNat).toNat) := by
    have hpos : (c.rdS f.s1.toNat).toNat ≠ 0 := fun h0 => hne (BitVec.eq_of_toNat_eq h0)
    omega
  refine ⟨_, d, q, ?_, hposted, hkind, hsplit, by rw [hgroup]; exact ⟨rfl, rfl, rfl, rfl⟩, rfl, rfl⟩
  rw [exec_taskdec, execTaskdec, onSplit_eq s c _ hc]
  simp only [ha, hl, Bool.not_true, Bool.false_eq_true, Bool.or_eq_true, decide_eq_true_eq, or_assoc, if_neg hgo, if_false]
  rfl

end

/-- A field of a node's control block written (R87). -/
theorem nodeSet_wrote {D : Nat → Prop} {die pa off : Nat} {tk : Task} (hs : s.noLines) (hmap : Mapped s D die tk.ctx tk.qbase 64 pa)
    (hoff : off + 8 ≤ 64) (v : Nat) (core : Option Nat) : Wrote s (s.nodeSet die tk off v core) (pa + off) (bytesOfNat 8 v) := by
  have hlen : (bytesOfNat 8 v).length = 8 := bytesOfNat_length 8 v
  obtain ⟨u, hu, hwrote⟩ := hmap.vWrite (k := off) (bs := bytesOfNat 8 v) hs (by omega) (by omega) core
  simp only [State.nodeSet, hu]
  exact hwrote

section
variable {c : Cur} {f : FmtE} (hc : s.cur? = some c) (ha : c.acts f.com = true) {k : Nat} {tk : Task} {ps : List (List (Place × Nat))}
  (hfind : (s.tasks.find? fun t => t.2.ctx = c.team.ctx && t.2.addr = (c.rdPair f.s0.toNat).toNat && t.2.graph) = some (k, tk))
  (hnode : (c.rdPair f.s0.toNat).toNat % 128 = 0) {src : Nat}
  (hsrc : src = if f.flg.getLsbD 3 then (c.rdPair f.s1.toNat).toNat else (c.rdS f.s1.toNat).toNat)
  (halign : f.flg.getLsbD 3 = false → src % 16 = 0) (hps : s.engRanges c [⟨!f.flg.getLsbD 3, src, tk.rsz, { rd := true }⟩] = .ok ps)
  (hlost : s.nodeLost c.team.die tk = none)
include hc ha hfind hnode hsrc halign hps hlost

/-- TEMIT to a node with no room answers with a false predicate. -/
theorem exec_temit_full (hfull : tk.ring < s.nodeGet c.team.die tk 0 + 1 - s.nodeGet c.team.die tk 24) :
    ∃ (t : State) (d : Cur) (q : Cmd), exec (.temit f) s = .next t ∧ Posted s t c d .enc q ∧ q.kind = .effected ∧
      PredIs c d f.com (f.flg.toNat % 8) (fun _ => false) := by
  obtain ⟨⟨hpreg, hpgroup⟩, hpsplits⟩ := wrPred_spec c f.com (f.flg.toNat % 8) fun _ => false
  obtain ⟨d, q, hposted, hkind, -, hgroup, -⟩ := effected_posted (s := s) (c := c) (e := c.wrPred f.com (f.flg.toNat % 8) fun _ => false)
    (i := .temit f) (foot := []) rfl rfl rfl hpsplits rfl
  refine ⟨_, d, q, ?_, hposted, hkind, ?_, ?_⟩
  · have hgo : ¬ ((c.rdPair f.s0.toNat).toNat % 128 ≠ 0 ∨ (f.flg.getLsbD 3 = false ∧ src % 16 ≠ 0)) :=
      fun h => h.elim (· hnode) fun ⟨hl, hbad⟩ => hbad (halign hl)
    rw [exec_temit, execTemit, onSplit_eq s c _ hc]
    simp only [ha, hfind, ← hsrc, hps, hlost, hfull, Bool.not_true, Bool.false_eq_true, Bool.or_eq_true, Bool.and_eq_true,
      Bool.not_eq_true', decide_eq_true_eq, if_neg hgo, if_true, if_false]
  · intro l n hl
    rw [← hpreg l n hl, hgroup]
    rfl
  · rw [hgroup, hpgroup]

/-- TEMIT to a node with room takes the next record, and leaves it to be written. -/
theorem exec_temit_reserves {D : Nat → Prop} {pa : Nat} (hs : s.noLines)
    (hroom : s.nodeGet c.team.die tk 0 + 1 - s.nodeGet c.team.die tk 24 ≤ tk.ring) (hdep : 0 < s.depOf c.team.die tk.ctx tk.addr)
    (hmap : Mapped s D c.team.die tk.ctx tk.qbase 64 pa) :
    let s₁ := s.nodeSet c.team.die tk 0 (s.nodeGet c.team.die tk 0 + 1) (some c.team.coreKey)
    ∃ (c₁ : Cur) (t : State) (d : Cur) (q : Cmd), s₁.lookup? c.ref = some c₁ ∧ SameRegisters c.group c₁.group ∧
      exec (.temit f) s = .next t ∧ Posted s₁ t c₁ d .enc q ∧
      q.kind = .temit k (s.nodeGet c.team.die tk 0) ps.flatten ∧ PredIs c₁ d f.com (f.flg.toNat % 8) (fun _ => true) := by
  intro s₁
  have hwrote : Wrote s s₁ pa (bytesOfNat 8 (s.nodeGet c.team.die tk 0 + 1)) := nodeSet_wrote hs hmap (by omega) _ _
  obtain ⟨c₁, hl, href, -, hbare, -⟩ := hwrote.lookup (cur?_lookup s c hc)
  obtain ⟨⟨hpreg, hpgroup⟩, hpsplits⟩ := wrPred_spec c₁ f.com (f.flg.toNat % 8) fun _ => true
  let e := c₁.wrPred f.com (f.flg.toNat % 8) fun _ => true
  obtain ⟨d, q, hposted, hkind, -, hgroup, -⟩ := command_posted (s := s₁) (c := c₁) (e := e) (i := .temit f)
    (k := { e.cmd (.temit k (s.nodeGet c.team.die tk 0) ps.flatten) (footOf false ps.flatten) true with
      vpns := if f.flg.getLsbD 3 then vpages src tk.rsz else [] }) rfl rfl rfl hpsplits rfl rfl rfl
  refine ⟨c₁, _, d, q, hl, sameRegisters_of_bare hbare, ?_, hposted, hkind, ?_, ?_⟩
  · have hgo : ¬ ((c.rdPair f.s0.toNat).toNat % 128 ≠ 0 ∨ (f.flg.getLsbD 3 = false ∧ src % 16 ≠ 0)) :=
      fun h => h.elim (· hnode) fun ⟨hloc, hbad⟩ => hbad (halign hloc)
    have hlate : ¬ s.depOf c.team.die tk.ctx tk.addr ≤ 0 := by omega
    have hone : ¬ (0 : Nat) = 1 := by omega
    rw [exec_temit, execTemit, onSplit_eq s c _ hc]
    simp only [ha, hfind, ← hsrc, hps, hlost, Nat.not_lt.mpr hroom, hlate, hone, Bool.not_true, Bool.false_eq_true, Bool.or_eq_true,
      Bool.and_eq_true, Bool.not_eq_true', decide_eq_true_eq, if_neg hgo, if_false]
    rw [show s.nodeSet c.team.die tk 0 (s.nodeGet c.team.die tk 0 + 1) (some c.team.coreKey) = s₁ from rfl, hl]
    rfl
  · intro l n hln
    rw [← hpreg l n hln, hgroup]
    rfl
  · rw [hgroup, hpgroup]

end

end Sys2Proof.Machine
end

section
open Sys2Proof Sys2Proof.Machine

set_option maxRecDepth 3000 in
/-- Settles O38: the ends of a creation rest on `createTask_created` and the lemmas of the checks that refuse it, the instructions on what
they write to memory (`Wrote`) and on the command that they post (`Posted`). -/
theorem taskInstructionsComplete : Obligations.TaskInstructionsComplete := by
  unfold Obligations.TaskInstructionsComplete
  refine ⟨?create, fun s c f hc ha hquiet hmem => ?issue⟩
  case create =>
    intro s die x rec pa hquiet hmem hmap b shape dep r absent
    obtain ⟨hs, -⟩ := hquiet
    obtain ⟨hown, o, hread⟩ := createTask_read hs hmap
    have himageO : (s.owning o).image die x (le b 0 8) = s.image die x (le b 0 8) :=
      image_congr (s := s) (t := s.owning o) hs hs (.of_eq rfl rfl rfl) rfl _ _
    refine ⟨fun hfull => ?full, fun hroom hbad => ?field, fun hroom hrec hbad => ?shape, fun hroom hrec hshape hbad => ?image,
      fun h hroom hrec hshape himage habsent hgraph => ?created⟩
    case full =>
      have hr : r = _ := createTask_full hown hread hfull
      exact ⟨congrArg Prod.snd hr, congrArg (·.1.tasks) hr⟩
    case field =>
      have hr : r = _ := createTask_field hown hread hroom hbad
      exact ⟨congrArg Prod.snd hr, congrArg (·.1.tasks) hr⟩
    case shape =>
      have hr : r = _ := createTask_shape hown hread hroom hrec hbad
      exact ⟨congrArg Prod.snd hr, congrArg (·.1.tasks) hr⟩
    case image =>
      rw [← himageO] at hbad
      have hr : r = _ := createTask_image hown hread hroom hrec hshape hbad
      exact ⟨congrArg Prod.snd hr, congrArg (·.1.tasks) hr⟩
    case created =>
      obtain ⟨k, hst, hentered, hk, hwaits, hready⟩ :=
        createTask_created hs (State.memOk_hbm hmem) hmap none rfl hroom hrec hshape himage habsent hgraph
      exact ⟨k, hst, hentered.task, hk, hwaits, fun hle _ => hready hle, hentered.count, hentered.others⟩
  case issue =>
    obtain ⟨hs, -⟩ := hquiet
    have hwf := State.memOk_hbm hmem
    have hl := cur?_lookup s c hc
    refine ⟨?tasknew, ?taskdec, ?temit⟩
    case tasknew =>
      intro c₁ rec_ r hrec hst hl₁
      exact exec_tasknew_posted hc ha hrec hst hl₁
    case taskdec =>
      intro pa rec_ old new s₁ hrec hne hlt hmap
      have hafter : s.depAfter pa (c.rdS f.s1.toNat).toNat = new := by
        rw [State.depAfter, BitVec.ofNat_toNat, BitVec.setWidth_eq]
      refine ⟨fun hno => ?alone, fun k tk hfind hk hg hstate hready hold hnew => ?due⟩
      case alone =>
        have hwrote := decrement_alone (amount := (c.rdS f.s1.toNat).toNat) hs hmap (some c.team.coreKey) hno
        obtain ⟨c₁, hl₁, -, -, hbare, -⟩ := hwrote.lookup hl
        obtain ⟨t, d, q, ht, hposted, hkind, honly, hregs, -⟩ := exec_taskdec_posted hc ha hrec hne hlt hl₁
        refine ⟨?_, c₁, t, d, q, hl₁, sameRegisters_of_bare hbare, ht, hposted, hkind, honly, hregs⟩
        rw [hafter] at hwrote
        exact hwrote.takes hwf
      case due =>
        rw [← hafter] at hnew
        obtain ⟨u, hdep, hstatew, htask⟩ := decrement_due hs hmap (some c.team.coreKey) hwf (fun _ h => h) hfind hk hg hstate hready hold hnew
        obtain ⟨c₀, hl₀, -⟩ := hdep.lookup hl
        obtain ⟨c₁, hl₁, -⟩ := hstatew.lookup hl₀
        obtain ⟨t, d, q, ht, -, -, -, -, htasks, hhbm⟩ := exec_taskdec_posted hc ha hrec hne hlt hl₁
        have hput : HbmTakes _ s₁ (pa + 0x2C) 4 2 := hstatew.takes (hdep.wf hwf)
        have heq (a m : Nat) : t.hbmNat a m = s₁.hbmNat a m := by rw [State.hbmNat, hhbm, State.hbmNat]
        refine ⟨_, t, ht, by rw [htasks]; exact htask, rfl, ?_, ?_⟩
        · rw [heq, hput.keeps (by omega), ← hafter]
          exact (hdep.takes hwf).1.trans (Nat.mod_eq_of_lt (BitVec.isLt _))
        · exact (heq _ _).trans hput.1
    case temit =>
      intro k tk ps pa node glb src pd resv hfind hnode halign hps hlost
      refine ⟨fun hfull => ?_, fun hroom hdep hctx hmap => ?_⟩
      · exact exec_temit_full hc ha hfind hnode rfl halign hps hlost hfull
      · intro s₁
        refine ⟨(nodeSet_wrote hs hmap (by omega) _ _).takes hwf, ?_⟩
        exact exec_temit_reserves hc ha hfind hnode rfl halign hps hlost hs hroom hdep hmap

end

section
/-! PROOFS. Work queues (R91, R92, R339, R340, R426 to R428): a pull and its three ends at issue, the push and the close, and the
arrival on a counter. -/
namespace Sys2Proof.Machine

set_option maxRecDepth 3000

variable {s : State}

/-! ### Descriptors and items -/

/-- A local array written. -/
theorem accessed_arrWrite (s : State) (tid : Nat) (tm : Team) (off : Nat) (bs : List Byte) : Accessed s (s.arrWrite tid tm off bs) :=
  ⟨rfl, rfl, rfl, rfl, rfl, rfl, mmap_bare_clearResv (s.modCore _ _) _ _⟩

/-- A descriptor knows where it stands. -/
theorem readDesc_at {die x a : Nat} {q : QDesc} (h : s.readDesc die x a = some q) : q.at_ = a := by
  obtain ⟨b, -, rfl⟩ := Option.map_eq_some_iff.mp h
  rfl

/-- A descriptor that is mapped and legal has no trap for the command that meets it. -/
theorem queueDesc_ok {D : Nat → Prop} {c : Cur} {a pa : Nat} {q : QDesc} (hmap : Mapped s D c.team.die c.team.ctx a 64 pa)
    (hread : s.readDesc c.team.die c.team.ctx a = some q) (hok : q.ok = true) : s.queueDesc c a = .ok q := by
  have hspan := hmap.span (k := 0) (m := 64) (need := { rd := true, wr := true }) (by omega) (by omega) rfl
  obtain ⟨ps, hps⟩ := engRanges_ok (s := s) (c := c) (rs := [⟨false, a, 64, { rd := true, wr := true }⟩])
    (List.forall_mem_singleton.mpr (rangeOk_of_span hspan))
  simp only [State.queueDesc, hps, hread, hok, if_true]

/-- A pull puts the item into the array and moves HEAD on. -/
theorem pullItem_spec {D : Nat → Prop} {loc pa : Nat} {tm : Team} {q : QDesc} {item : List Byte} (tid : Nat) (hs : s.noLines)
    (hmem : s.memOk = true) (hread : s.vRead tm.die tm.ctx (q.slot q.head) q.isz = some item) (hlen : item.length = q.isz)
    (hmap : Mapped s D tm.die tm.ctx q.at_ 64 pa) :
    ∃ u, s.pullItem tid tm q loc = some u ∧ Accessed s u ∧ HbmTakes s u (pa + 0x18) 8 (q.head + 1) ∧ u.arrRead tm loc q.isz = item ∧
      ∀ x, x < tm.base + loc ∨ tm.base + loc + q.isz ≤ x → rdByte (u.core tm.coreKey).arr x = rdByte (s.core tm.coreKey).arr x := by
  let t := (s.arrWrite tid tm loc item).l1Clear tm.coreKey
  have hacc : Accessed s t := (accessed_arrWrite s tid tm loc item).trans (accessed_l1Clear _ _)
  have ht := hacc.noLines hs
  have hmap' : Mapped t D tm.die tm.ctx q.at_ 64 pa := hmap.congr hs ht (hacc.sameTables _) fun _ _ => rfl
  have h8 : (bytesOfNat 8 (q.head + 1)).length = 8 := bytesOfNat_length _ _
  obtain ⟨u, hu, hwrote⟩ := hmap'.vWrite (k := 0x18) (bs := bytesOfNat 8 (q.head + 1)) ht (by omega) (by omega) (some tm.coreKey)
  have harr : (u.core tm.coreKey).arr = wrBytes (s.core tm.coreKey).arr (tm.base + loc) item :=
    (hwrote.arr _).trans ((sameArrays_l1Clear _ _ _).trans (State.arrWrite_core _ _ _ _))
  have hwf := State.memOk_arr hmem tm.coreKey
  refine ⟨u, by simp only [State.pullItem, hread]; exact hu, hacc.trans hwrote.toAccessed,
    hwrote.takes (s := t) (State.memOk_hbm (s := s) hmem), ?_, ?_⟩
  · rw [State.arrRead, harr, ← hlen, rdBytes_wrBytes _ _ _ hwf]
  · intro x hx
    rw [harr, rdByte_wrBytes_outside hwf (by rwa [hlen])]

/-- A split at its clause's end, parked. -/
def Cur.waiting (c : Cur) (p : Park) : Cur := { c.fall with split := { c.fall.split with park := p, parked := 0 } }

/-- A command of the split, which ends its clause and waits. -/
theorem waiting_posted {c b : Cur} {i : Instr} {x : Ctr} {k : Cmd} {p : Park} {pend : List Pend} (hi : i.counter = some x)
    (hb : b = { c with split := { c.split with pend := pend } }) (hg : k.group = c.ref.group) (hs : k.split = c.ref.split) :
    ∃ d q, Posted s (s.fresh.1.put ((b.command i s.nextId k).waiting p)) c d x q ∧ q.kind = k.kind ∧ Waits c d p := by
  obtain ⟨y, hfall, hopn, hpc, hloops, hmask, hctrs⟩ := Cur.fall_spec (b.command i s.nextId k)
  have hafter : (b.command i s.nextId k).after = c.after := by rw [Cur.command_eq hi, hb]; rfl
  rw [hafter] at hpc hloops
  rw [Cur.waiting, hfall, Cur.command_eq hi, hb]
  rw [Cur.command_eq hi, hb] at hmask hctrs
  exact ⟨_, _, posted_put (q := { k with cause := _ }) rfl rfl rfl hctrs hg hs, rfl, rfl, hopn, hpc, hloops, hmask, rfl, rfl, rfl, rfl⟩

/-! ### QPULL (R426, R427) -/

section
variable {c : Cur} {f : FmtE} (hc : s.cur? = some c) (ha : c.acts f.com = true)
include hc ha

theorem exec_qpull_unbound (hq : s.queueAt c.team.die c.team.ctx f.qb.toNat = none) : exec (.qpull f) s = .next (s.illop c 10) := by
  rw [exec_qpull, execQpull, onSplit_eq s c _ hc]
  simp only [ha, hq, Bool.not_true, Bool.false_eq_true, if_false]

variable {a : Nat} {q : QDesc} (hq : s.queueAt c.team.die c.team.ctx f.qb.toNat = some a) (hdesc : s.queueDesc c a = .ok q)
  (hal : (c.rdS f.s1.toNat).toNat % 16 = 0) (hlen : (c.rdS f.s1.toNat).toNat + q.isz ≤ c.team.bytes) (hwins : c.team.wins = [])
include hq hdesc hal hlen hwins

/-- With an item waiting the pull is made at issue. -/
theorem exec_qpull_item {item : List Byte} (hne : q.head ≠ q.tail)
    (hread : s.vRead c.team.die c.team.ctx (q.slot q.head) q.isz = some item) {s₁ : State} {c₁ : Cur}
    (hpull : s.pullItem c.ref.team c.team q (c.rdS f.s1.toNat).toNat = some s₁) (hl : s₁.lookup? c.ref = some c₁) :
    ∃ (t : State) (d : Cur) (k : Cmd), exec (.qpull f) s = .next t ∧ Posted s₁ t c₁ d .enc k ∧ k.kind = .effected ∧
      ScalarIs c₁ d f.s0.toNat 0 ∧ d.group.p = c₁.group.p := by
  obtain ⟨d, k, hposted, hrest⟩ := answered_posted (s := s₁) (c := c₁) (i := .qpull f) rfl 0 f.s0.toNat true 0
  obtain ⟨ps, hps⟩ := engRanges_ok (s := s) (c := c) (rs := [⟨true, (c.rdS f.s1.toNat).toNat, q.isz, { wr := true }⟩,
    ⟨false, q.slot q.head, q.isz, { rd := true }⟩]) (by simpa using ⟨rangeOk_local hlen hwins, rangeOk_of_vRead hread⟩)
  refine ⟨_, d, k, ?_, hposted, hrest⟩
  rw [exec_qpull, execQpull, onSplit_eq s c _ hc]
  simp only [ha, hq, hdesc, hal, hne, hps, hpull, State.again, hl, Option.getD_some, Bool.not_true, Bool.false_eq_true, ne_eq,
    not_true_eq_false, not_false_eq_true, if_true, if_false]

/-- From an empty queue the query form, and a closed one, answer at once. -/
theorem exec_qpull_empty (he : q.head = q.tail) (hanswers : f.flg.getLsbD 0 = true ∨ q.isClosed = true) :
    ∃ (t : State) (d : Cur) (k : Cmd), exec (.qpull f) s = .next t ∧ Posted s t c d .enc k ∧ k.kind = .effected ∧
      ScalarIs c d f.s0.toNat (if f.flg.getLsbD 0 then 1 else 2) ∧ d.group.p = c.group.p := by
  obtain ⟨d, k, hposted, hrest⟩ := answered_posted (s := s) (c := c) (i := .qpull f) rfl 0 f.s0.toNat true
    (if f.flg.getLsbD 0 then 1 else 2)
  obtain ⟨ps, hps⟩ := engRanges_ok (s := s) (c := c) (rs := [⟨true, (c.rdS f.s1.toNat).toNat, q.isz, { wr := true }⟩])
    (List.forall_mem_singleton.mpr (rangeOk_local hlen hwins))
  refine ⟨_, d, k, ?_, hposted, hrest⟩
  rw [exec_qpull, execQpull, onSplit_eq s c _ hc]
  simp only [ha, hq, hdesc, hal, he, hps, State.again, cur?_lookup s c hc, Option.getD_some, Bool.not_true, Bool.false_eq_true, ne_eq,
    not_true_eq_false, if_false]
  cases hquery : f.flg.getLsbD 0 with
  | true => rfl
  | false =>
    have hclosed : q.isClosed = true := hanswers.resolve_left (by rw [hquery]; exact Bool.false_ne_true)
    simp only [hclosed, Bool.false_eq_true, if_true, if_false]

/-- From an empty open queue the split waits for an item. -/
theorem exec_qpull_waits (he : q.head = q.tail) (hquery : f.flg.getLsbD 0 = false) (hopen : q.isClosed = false) :
    ∃ (t : State) (d : Cur) (k : Cmd), exec (.qpull f) s = .next t ∧ Posted s t c d .enc k ∧
      k.kind = .qpull f.qb.toNat (c.rdS f.s1.toNat).toNat f.s0.toNat ∧ Waits c d (.qpull s.nextId) := by
  obtain ⟨ps, hps⟩ := engRanges_ok (s := s) (c := c) (rs := [⟨true, (c.rdS f.s1.toNat).toNat, q.isz, { wr := true }⟩])
    (List.forall_mem_singleton.mpr (rangeOk_local hlen hwins))
  let b : Cur := c.deferI (.qpull f) s.nextId false
  obtain ⟨pend, hpend, -⟩ := deferI_spec c (.qpull f) s.nextId false
  have hb : b.ref = c.ref := by rw [show b = _ from hpend]
  obtain ⟨d, k, hposted, hkind, hwaits⟩ := waiting_posted (s := s) (c := c) (i := .qpull f) (x := .enc) (p := .qpull s.nextId)
    (k := b.cmd (.qpull f.qb.toNat (c.rdS f.s1.toNat).toNat f.s0.toNat) (footOf true ps.flatten ++ s.fresh.1.queueFoot c.team q false q.head)
      false) rfl hpend (congrArg Ref.group hb) (congrArg Ref.split hb)
  refine ⟨_, d, k, ?_, hposted, hkind, hwaits⟩
  rw [exec_qpull, execQpull, onSplit_eq s c _ hc]
  simp only [ha, hq, hdesc, hal, he, hps, hquery, hopen, Bool.not_true, Bool.false_eq_true, ne_eq, not_true_eq_false, if_false]
  rfl

end

/-! ### QPUSH and QPUSH.close (R426, R428) -/

theorem QDesc.isz_pos (q : QDesc) : 0 < q.isz := by
  rw [QDesc.isz]
  positivity

section
variable {c : Cur} {f : FmtE} (hc : s.cur? = some c) (ha : c.acts f.com = true) {d : Nat} {q : QDesc} (hask : s.pushAsk c f = .ok (d, q))
include hc ha hask

/-- A push to an open queue waits for its append. -/
theorem exec_qpush_posted {D : Nat → Prop} {pi : Nat} (hopen : q.isClosed = false) (hal : (c.rdS f.s1.toNat).toNat % 16 = 0)
    (hlen : (c.rdS f.s1.toNat).toNat + q.isz ≤ c.team.bytes) (hwins : c.team.wins = [])
    (hmap : Mapped s D c.team.die c.team.ctx (q.slot q.tail) q.isz pi) :
    ∃ (t : State) (e : Cur) (k : Cmd), exec (.qpush f) s = .next t ∧ Posted s t c e .enc k ∧
      k.kind = .qpush d f.qb.toNat (c.rdS f.s1.toNat).toNat ∧ OnlyCounts c e ∧ SameRegisters c.group e.group := by
  have hspan := hmap.span (k := 0) (m := q.isz) (need := { wr := true }) q.isz_pos (by omega) rfl
  obtain ⟨ps, hps⟩ := engRanges_ok (s := s) (c := c) (rs := [⟨true, (c.rdS f.s1.toNat).toNat, q.isz, { rd := true }⟩,
    ⟨false, q.slot q.tail, q.isz, { wr := true }⟩]) (by simpa using ⟨rangeOk_local hlen hwins, rangeOk_of_span hspan⟩)
  obtain ⟨e, k, hposted, hkind, -, hgroup, hsplit⟩ := command_posted (s := s) (c := c) (e := c) (i := .qpush f)
    (k := c.cmd (.qpush d f.qb.toNat (c.rdS f.s1.toNat).toNat)
      (footOf false (ps.take 1).flatten ++ s.fresh.1.queueFoot c.team q true q.tail) false) rfl rfl rfl rfl rfl rfl rfl
  refine ⟨_, e, k, ?_, hposted, hkind, hsplit, by rw [hgroup]; exact ⟨rfl, rfl, rfl, rfl⟩⟩
  rw [exec_qpush, execQpush, onSplit_eq s c _ hc]
  simp only [ha, hask, hal, hopen, hps, Bool.not_true, Bool.false_eq_true, Bool.or_false, ne_eq, not_true_eq_false, decide_false, if_false]
  rfl

theorem exec_qpush_closed (hclosed : q.isClosed = true) : exec (.qpush f) s = .next (s.illop c 10) := by
  rw [exec_qpush, execQpush, onSplit_eq s c _ hc]
  simp only [ha, hask, hclosed, Bool.not_true, Bool.false_eq_true, Bool.or_true, if_true, if_false]

end

/-- What is listed after a write was listed, or is what was written. -/
theorem mem_mput {α : Type} {m : SMap α} {k : Nat} {v : α} {p : Nat × α} (h : p ∈ mput m k v) : p ∈ m ∨ p = (k, v) := by
  induction m with
  | nil => exact .inr (List.mem_singleton.mp h)
  | cons q m ih =>
    simp only [mput] at h
    split_ifs at h
    · exact (List.mem_cons.mp h).symm.imp_right id
    · exact (List.mem_cons.mp h).symm.imp_left fun h => List.mem_cons_of_mem _ h
    · rcases List.mem_cons.mp h with rfl | h
      · exact .inl (List.mem_cons_self ..)
      · exact (ih h).imp_left fun h => List.mem_cons_of_mem _ h

/-- A close that follows no push of its die finds none before it, itself aside. -/
theorem pushesBefore_posted {tid d q : Nat} {tm tm' : Team} {k : Cmd} {t : State} (hteam : mget? s.teams tid = some tm)
    (hteams : t.teams = mput s.teams tid tm') (hcmds : tm'.cmds = mput tm.cmds s.nextId k)
    (hno : s.pushesBefore tm.die tm.ctx d q s.nextId = false) : t.pushesBefore tm.die tm.ctx d q s.nextId = false := by
  simp only [State.pushesBefore, List.any_eq_false, Bool.and_eq_true, not_and, decide_eq_true_eq, List.any_eq_true, not_exists] at hno ⊢
  intro p hp hpd n hn hlt
  rcases mem_mput (hteams ▸ hp) with hp | rfl
  · exact hno p hp hpd n hn hlt
  · rcases mem_mput (hcmds ▸ hn) with hn | rfl
    · exact hno _ (mem_of_mget? hteam) ⟨rfl, rfl⟩ n hn hlt
    · omega

/-- A team whose close has made its effect. -/
def Team.closed (id : Nat) (t : Team) : Team := { t with cmds := mmod t.cmds id fun k => { k with kind := .effected, begun := true } }

/-- A close that no push holds back sets CLOSED and has made its effect. -/
theorem tryClose_sets {D : Nat → Prop} {tid id d q a pa : Nat} {tm : Team} {k : Cmd} {desc : QDesc} (hs : s.noLines)
    (hteam : mget? s.teams tid = some tm) (hk : mget? tm.cmds id = some k) (hkind : k.kind = .qclose d q)
    (hno : s.pushesBefore tm.die tm.ctx d q id = false) (hq : s.queueAt d tm.ctx q = some a)
    (hread : s.readDesc tm.die tm.ctx a = some desc) (hmap : Mapped s D tm.die tm.ctx a 64 pa) :
    ∃ u, Wrote s u (pa + 8) (bytesOfNat 4 (desc.cfg ||| 256)) ∧ s.tryClose tid id =
      u.modTeam tid (Team.closed id) := by
  have h4 : (bytesOfNat 4 (desc.cfg ||| 256)).length = 4 := bytesOfNat_length _ _
  obtain ⟨u, hu, hwrote⟩ := hmap.vWrite (k := 8) (bs := bytesOfNat 4 (desc.cfg ||| 256)) hs (by omega) (by omega) (some tm.coreKey)
  refine ⟨u, hwrote, ?_⟩
  obtain ⟨kind, g, sp, foot, bg, xd, vp, cs⟩ := k
  subst hkind
  simp only [State.tryClose, hteam, hk, Option.bind_some, Option.map_some, hno, hq, hread, readDesc_at hread, hu, Bool.false_eq_true, if_false]
  rfl

/-- A team changed elsewhere than in its groups. -/
theorem lookup?_modTeam {r : Ref} {c : Cur} {f : Team → Team} (hf : (f c.team).groups = c.team.groups) (hl : s.lookup? r = some c) :
    (s.modTeam r.team f).lookup? r = some { c with team := f c.team } := by
  simp only [State.lookup?, Option.bind_eq_some_iff, Option.map_eq_some_iff] at hl
  obtain ⟨tm, htm, g, hg, p, hp, rfl⟩ := hl
  simp only [State.lookup?, State.modTeam_teams, mget?_mmod, if_true, htm, Option.map_some, Option.bind_some, hf, hg, hp]

/-- A split put back with the windows of its team. -/
theorem noLines_put {e : Cur} {tm : Team} (hs : s.noLines) (hteam : mget? s.teams e.ref.team = some tm) (hwins : e.team.wins = tm.wins) :
    (s.put e).noLines := by
  intro p hp
  rcases mem_mput hp with hp | rfl
  · exact hs p hp
  · exact fun w hw => hs _ (mem_of_mget? hteam) w (hwins ▸ hw)

/-- A close that no push holds back takes effect at issue. -/
theorem exec_qpushClose_sets {D : Nat → Prop} {c : Cur} {f : FmtE} (hc : s.cur? = some c) (ha : c.acts f.com = true) {d a pa : Nat} {q : QDesc}
    (hask : s.pushAsk c f = .ok (d, q)) (hs : s.noLines) (hwf : Memory.wf s.hbm = true)
    (hno : s.pushesBefore c.team.die c.team.ctx d f.qb.toNat s.nextId = false) (hq : s.queueAt d c.team.ctx f.qb.toNat = some a)
    (hread : s.readDesc c.team.die c.team.ctx a = some q) (hmap : Mapped s D c.team.die c.team.ctx a 64 pa) :
    ∃ (t : State) (e : Cur) (k : Cmd), exec (.qpushClose f) s = .next t ∧ t.lookup? c.ref = some e ∧
      mget? e.team.cmds s.nextId = some k ∧ k.kind = .effected ∧ e.split.ctrs = c.split.ctrs.add .enc s.nextId ∧
      HbmTakes s t (pa + 8) 4 (q.cfg ||| 256) ∧ SameRegisters c.group e.group := by
  let e₀ := c.command (.qpushClose f) s.nextId (c.cmd (.qclose d f.qb.toNat) (s.fresh.1.queueFoot c.team q true q.tail) false)
  let s₀ := s.fresh.1.put e₀
  have hl := cur?_lookup s c hc
  have hteam := lookup?_team hl
  have hs₀ : s₀.noLines := noLines_put (s := s.fresh.1) (e := e₀) hs hteam rfl
  obtain ⟨k, hcmd, hkind⟩ : ∃ k, e₀.newTeam.cmds = mput c.team.cmds s.nextId k ∧ k.kind = .qclose d f.qb.toNat := ⟨_, rfl, rfl⟩
  have hteam₀ : mget? s₀.teams c.ref.team = some e₀.newTeam := by
    simp only [s₀, State.put_teams]
    exact mget?_mput_self _ _ _
  have hno₀ := pushesBefore_posted (t := s₀) hteam rfl hcmd hno
  obtain ⟨u, hwrote, htry⟩ := tryClose_sets (s := s₀) (tid := c.ref.team) (id := s.nextId) hs₀ hteam₀ (by rw [hcmd, mget?_mput_self]) hkind
    hno₀ hq ((congrArg _ (vRead_congr hs hs₀ (.of_eq rfl rfl rfl) rfl _ _ _)).trans hread)
    (hmap.congr hs hs₀ (.of_eq rfl rfl rfl) fun _ _ => rfl)
  obtain ⟨c₁, hl₁, href, hsplit, hgroup, hbare⟩ := hwrote.lookup (lookup?_put s.fresh.1 e₀)
  have hcmds₁ : c₁.team.bare.cmds = e₀.newTeam.bare.cmds := congrArg Team.cmds hbare
  refine ⟨_, _, { k with kind := .effected, begun := true }, ?_, lookup?_modTeam (f := Team.closed s.nextId) rfl hl₁, ?_, rfl, ?_,
    hwrote.takes (s := s₀) hwf, ?_⟩
  · rw [exec_qpushClose, execQpushClose, onSplit_eq s c _ hc]
    simp only [ha, hask, Bool.not_true, Bool.false_eq_true, if_false]
    exact congrArg _ htry
  · have hcmds : c₁.team.cmds = mput c.team.cmds s.nextId k := hcmds₁.trans hcmd
    simp only [Team.closed, hcmds, mget?_mmod, mget?_mput_self, if_true, Option.map_some]
  · rw [hsplit]
    rfl
  · exact sameRegisters_of_bare (g := e₀.newGroup) hgroup

/-! ### ARRV (R339, R340) -/

theorem accessed_dropViews (s : State) (core pa n : Nat) : Accessed s (s.dropViews core pa n) := ⟨rfl, rfl, rfl, rfl, rfl, rfl, rfl⟩

/-- A number in HBM read and replaced by an engine of a team (R221). -/
theorem engUpdate_wrote {tid pa n : Nat} {tm : Team} {bs : List Byte} (hs : s.noLines) (hteam : mget? s.teams tid = some tm) :
    (s.engRead tid (.hbm pa) n).2 = rdBytes s.hbm pa n ∧ Wrote s ((s.engRead tid (.hbm pa) n).1.engWrite tid (.hbm pa) bs) pa bs := by
  obtain ⟨o, ho⟩ := State.recallFor_noLines hs none pa n
  have hread : s.engRead tid (.hbm pa) n = ((s.owning o).dropViews tm.coreKey pa n, rdBytes s.hbm pa n) := by
    simp only [State.engRead, State.homeRead, ho, hteam]
    rfl
  have hacc : Accessed s ((s.owning o).dropViews tm.coreKey pa n) := (accessed_owning s o).trans (accessed_dropViews _ _ _ _)
  rw [hread]
  exact ⟨rfl, (homeWrite_wrote (hacc.noLines hs) _ pa bs).after hacc rfl fun _ => rfl⟩

/-- An arrival counts, and answers with the count before it and whether it was the last. -/
theorem exec_arrv_posted {c : Cur} {f : FmtE} (hc : s.cur? = some c) (ha : c.acts f.com = true) {pa : Nat} (hs : s.noLines)
    (hwf : Memory.wf s.hbm = true) (hn : c.rdS f.s2.toNat ≠ 0) (hal : (c.rdPair f.s1.toNat).toNat % 4 = 0)
    (hwin : c.team.winOf (c.rdPair f.s1.toNat).toNat = none)
    (hrange : s.engRanges c [⟨false, (c.rdPair f.s1.toNat).toNat, 4, { wr := true }⟩] = .ok [[(.hbm pa, 4)]]) {old new : Word}
    (hold : old = BitVec.ofNat 32 (s.hbmNat pa 4))
    (hnew : new = if old + 1 = c.rdS f.s2.toNat ∧ f.flg.getLsbD 3 = true then 0 else old + 1) :
    ∃ (s₁ : State) (c₁ : Cur) (t : State) (d : Cur) (k : Cmd), HbmTakes s s₁ pa 4 new.toNat ∧ s₁.lookup? c.ref = some c₁ ∧
      SameRegisters c.group c₁.group ∧ exec (.arrv f) s = .next t ∧ Posted s₁ t c₁ d .enc k ∧ k.kind = .effected ∧
      ScalarIs c₁ d f.s0.toNat old ∧
      (∀ p l, l < 64 → d.group.preg p l = if p = f.flg.toNat % 8 ∧ p < 7 ∧ (c₁.pass f.com).getLsbD l = true
        then decide (old + 1 = c.rdS f.s2.toNat) else c₁.group.preg p l) := by
  have hl := cur?_lookup s c hc
  obtain ⟨hread, hwrote⟩ := engUpdate_wrote (pa := pa) (n := 4) (bs := bytesOfNat 4 new.toNat) hs (lookup?_team hl)
  let s₁ := ((s.engRead c.ref.team (.hbm pa) 4).1.engWrite c.ref.team (.hbm pa) (bytesOfNat 4 new.toNat)).l1Clear c.team.coreKey
  have hwrote₁ : Wrote s s₁ pa (bytesOfNat 4 new.toNat) := hwrote.before (accessed_l1Clear _ _) rfl (sameArrays_l1Clear _ _)
  obtain ⟨c₁, hl₁, -, -, hbare, -⟩ := hwrote₁.lookup hl
  let last := decide (old + 1 = c.rdS f.s2.toNat)
  obtain ⟨pend, hpend, -⟩ := deferI_spec c₁ (.arrv f) 0 true
  let b : Cur := { c₁.deferI (.arrv f) 0 true with group := (c₁.deferI (.arrv f) 0 true).group.wrS f.s0.toNat old }
  have hpass : b.pass f.com = c₁.pass f.com := deferI_pass c₁ (.arrv f) 0 true f.com
  have hbgroup : b.group = c₁.group.wrS f.s0.toNat old := by simp only [b, hpend]
  obtain ⟨⟨hpreg, hpgroup⟩, hpsplits⟩ := wrPred_spec b f.com (f.flg.toNat % 8) fun _ => last
  obtain ⟨d, k, hposted, hkind, -, hgroup, -⟩ := effected_posted (s := s₁) (c := c₁) (e := b.wrPred f.com (f.flg.toNat % 8) fun _ => last)
    (i := .arrv f) (foot := []) (x := .enc) rfl (by simp only [Cur.wrPred, b, hpend]) (by simp only [Cur.wrPred, b, hpend])
    (by rw [hpsplits, hbgroup]; rfl) (by simp only [Cur.wrPred, b, hpend])
  refine ⟨s₁, c₁, _, d, k, hwrote₁.takes hwf, hl₁, sameRegisters_of_bare hbare, ?_, hposted, hkind, ?_, ?_⟩
  · have hcount : BitVec.ofNat 32 (natOfBytes (s.engRead c.ref.team (.hbm pa) 4).2) = old := by rw [hread, hold, State.hbmNat]
    have hlast : (old + 1 == c.rdS f.s2.toNat) = last := rfl
    have hput : (if (last && f.flg.getLsbD 3) = true then 0 else old + 1) = new := by
      rw [hnew]
      simp only [last, Bool.and_eq_true, decide_eq_true_eq]
    rw [exec_arrv, execArrv, onSplit_eq s c _ hc]
    simp only [ha, hn, hal, hwin, hrange, List.flatten_cons, List.flatten_nil, List.append_nil, hcount, hlast, hput, Bool.not_true,
      Bool.false_eq_true, Option.isSome_none, ne_eq, not_true_eq_false, if_false]
    rw [State.again, show State.lookup? _ c.ref = some c₁ from hl₁]
    rfl
  · rw [hpgroup, hbgroup] at hgroup
    exact scalarIs_wrS (by rw [hgroup]) (by rw [hgroup]; rfl) (by rw [hgroup]; rfl)
  · intro p l hlt
    have hreg : d.group.preg p l = (b.wrPred f.com (f.flg.toNat % 8) fun _ => last).group.preg p l := by rw [hgroup]; rfl
    rw [hreg, hpreg l p hlt, hpass, hbgroup]
    refine if_congr ?_ rfl rfl
    simp only [Bool.and_eq_true, beq_iff_eq, decide_eq_true_eq, and_assoc]
    exact and_congr_right fun hp => by rw [hp]

end Sys2Proof.Machine
end

section
open Sys2Proof Sys2Proof.Machine

/-- Settles O39: what a pull, a close and an arrival write to memory (`pullItem_spec`, `tryClose_sets`, `engUpdate_wrote`), and the
command that each instruction posts or leaves to wait. -/
theorem queueInstructionsComplete : Obligations.QueueInstructionsComplete := by
  unfold Obligations.QueueInstructionsComplete
  refine ⟨fun s c f hc ha hquiet hmem => ?pull, fun s c f hc ha hquiet hmem => ⟨fun d q hask => ⟨?push, ?closed, ?close⟩, ?arrive⟩⟩
  case pull =>
    obtain ⟨hs, -⟩ := hquiet
    refine ⟨exec_qpull_unbound hc ha, fun a q pa hq hmap hread hok hal hlen hwins => ⟨?item, ?empty, ?waits⟩⟩
    case item =>
      intro item hne hitem hisz
      have hdesc := queueDesc_ok hmap hread hok
      obtain rfl := readDesc_at hread
      obtain ⟨s₁, hpull, hacc, htakes, harr, hout⟩ := pullItem_spec (loc := (c.rdS f.s1.toNat).toNat) c.ref.team hs hmem hitem hisz hmap
      obtain ⟨c₁, hl, -, -, hbare, -⟩ := hacc.lookup (cur?_lookup s c hc)
      obtain ⟨t, d, k, hposted⟩ := exec_qpull_item hc ha hq hdesc hal hlen hwins hne hitem hpull hl
      exact ⟨s₁, c₁, t, d, k, hpull, htakes, harr, hout, hl, sameRegisters_of_bare hbare, hposted⟩
    case empty => exact exec_qpull_empty hc ha hq (queueDesc_ok hmap hread hok) hal hlen hwins
    case waits => exact exec_qpull_waits hc ha hq (queueDesc_ok hmap hread hok) hal hlen hwins
  case push =>
    intro pi hopen hal hlen hwins hmap
    exact exec_qpush_posted hc ha hask hopen hal hlen hwins hmap
  case closed => exact exec_qpush_closed hc ha hask
  case close =>
    intro pa a hno hq hread _ hmap
    exact exec_qpushClose_sets hc ha hask hquiet.1 (State.memOk_hbm hmem) hno hq hread hmap
  case arrive =>
    intro pa a n old new hn hal hwin hrange
    exact exec_arrv_posted hc ha hquiet.1 (State.memOk_hbm hmem) hn hal hwin hrange rfl rfl

end

section
/-! PROOFS. The events of queues and the doorbell (R78, R92, R427, R428): a parked pull that goes on, an append, and what the end of a
command leaves of its team's list. -/
namespace Sys2Proof.Machine

set_option maxRecDepth 3000

variable {s : State}

/-! ### A split that goes on with a late scalar (R40, R92) -/

/-- A lookup in a map changed key by key. -/
theorem mget?_map_keyed {α β : Type} (m : SMap α) (f : Nat → α → β) (k : Nat) :
    mget? (m.map fun q => (q.1, f q.1 q.2)) k = (mget? m k).map (f k) := by
  induction m with
  | nil => rfl
  | cons q m ih =>
    by_cases hk : q.1 = k
    · simp [mget?, hk]
    · simp [mget?, hk, ih]

/-- The split `k` after scalars that a command of split `i` has written late: what it goes on seeing of them, and what it notes for its
restarts. -/
def Split.landed (old : SMap Word) (i : Nat) (ns : List Nat) (k : Nat) (p : Split) : Split :=
  let own := k = i || p.pend.any fun q => q.ds.any ns.contains
  let p := if own then { p with seen := p.seen.filter fun q => !ns.contains q.1 } else if p.opn then p.keepSeen old ns else p
  { p with stale := p.stale.filter fun q => !ns.contains q.1
           foreign := if k = i then p.foreign else p.foreign ++ ns.filter fun n => !p.foreign.contains n }

theorem Group.landS_eq (g : Group) (i : Nat) (ns : List Nat) (f : Group → Group) :
    g.landS i ns f = { f g with splits := (f g).splits.map fun q => (q.1, q.2.landed g.s i ns q.1) } := rfl

/-- A sibling keeps all but its notes. -/
theorem Split.landed_eq (old : SMap Word) (i : Nat) (ns : List Nat) (k : Nat) (p : Split) : p.landed old i ns k =
    { p with seen := (p.landed old i ns k).seen, stale := (p.landed old i ns k).stale, foreign := (p.landed old i ns k).foreign } := by
  simp only [Split.landed]
  split_ifs <;> rfl

theorem Split.landed_foreign (old : SMap Word) (i : Nat) (ns : List Nat) (p : Split) : (p.landed old i ns i).foreign = p.foreign := by
  simp [Split.landed]

/-- A split that takes a late scalar and leaves its park. -/
def State.woken (s : State) (r : Ref) (reg : Nat) (v : Word) : State :=
  (s.modGroup r.team r.group fun g => g.landS r.split [reg] fun g => g.wrS reg v).modSplit r fun p => { p with park := .none, parked := 0 }

theorem State.woken_hbm (s : State) (r : Ref) (reg : Nat) (v : Word) : (s.woken r reg v).hbm = s.hbm := by
  rw [State.woken, State.modSplit]
  split <;> rfl

theorem State.woken_cores (s : State) (r : Ref) (reg : Nat) (v : Word) : (s.woken r reg v).cores = s.cores := by
  rw [State.woken, State.modSplit]
  split <;> rfl

theorem woken_spec {r : Ref} {c : Cur} (hl : s.lookup? r = some c) (reg : Nat) (v : Word) :
    ∃ e, (s.woken r reg v).lookup? r = some e ∧ WritesLate s (s.woken r reg v) c e ∧ Leaves c e ∧ ScalarIs c e reg v := by
  simp only [State.lookup?, Option.bind_eq_some_iff, Option.map_eq_some_iff] at hl
  obtain ⟨tm, htm, g, hg, p, hp, rfl⟩ := hl
  let φ (k : Nat) (q : Split) : Split := q.landed g.s r.split [reg] k
  let g₁ := g.landS r.split [reg] fun g => g.wrS reg v
  let tm₁ : Team := { tm with groups := mmod tm.groups r.group fun g => g.landS r.split [reg] fun g => g.wrS reg v }
  let s₁ := s.modGroup r.team r.group fun g => g.landS r.split [reg] fun g => g.wrS reg v
  let c₁ : Cur := ⟨r, tm₁, g₁, φ r.split p⟩
  have hteams (k : Nat) : mget? s₁.teams k = if r.team = k then some tm₁ else mget? s.teams k := by
    simp only [s₁, State.modGroup_teams, mget?_mmod]
    split
    · next hk => rw [← hk, htm]; rfl
    · rfl
  have hgroups (k : Nat) : mget? tm₁.groups k = if r.group = k then some g₁ else mget? tm.groups k := by
    simp only [tm₁, mget?_mmod]
    split
    · next hk => rw [← hk, hg]; rfl
    · rfl
  have hsplits (k : Nat) : mget? g₁.splits k = (mget? g.splits k).map (φ k) := by
    rw [show g₁ = _ from g.landS_eq ..]
    exact mget?_map_keyed g.splits φ k
  have hl₁ : s₁.lookup? r = some c₁ := by
    simp only [State.lookup?, hteams, hgroups, hsplits, hp, if_true, Option.bind_some, Option.map_some, c₁]
  let e₀ : Cur := { c₁ with split := { c₁.split with park := .none, parked := 0 } }
  have hwoken : s.woken r reg v = s₁.put e₀ := by
    rw [State.woken, State.modSplit, show State.lookup? _ r = some c₁ from hl₁]
  have he := lookup?_put s₁ e₀
  rw [hwoken]
  refine ⟨_, he, ⟨he, sameMachine_put s₁ e₀, fun k hk => ?_, fun k hk => ?_, fun k q hk hq => ?_⟩, ?_, ?_⟩
  · rw [State.put_teams, mget?_mput, if_neg (Ne.symm hk), hteams, if_neg (Ne.symm hk)]
  · rw [Cur.newTeam, mget?_mput, if_neg (Ne.symm hk), hgroups, if_neg (Ne.symm hk)]
  · rw [Cur.newGroup, mget?_mput, if_neg (Ne.symm hk), hsplits] at hq
    obtain ⟨q₀, hq₀, rfl⟩ := Option.map_eq_some_iff.mp hq
    exact ⟨q₀, hq₀, Split.landed_eq ..⟩
  · have hsplit := Split.landed_eq g.s r.split [reg] r.split p
    rw [Split.landed_foreign] at hsplit
    exact congrArg (fun q : Split => { q with park := .none, parked := 0 }) hsplit
  · exact scalarIs_wrS rfl rfl rfl

/-! ### The end of a command -/

theorem mem_of_mem_mdel {α : Type} {m : SMap α} {k : Nat} {p : Nat × α} (h : p ∈ mdel m k) : p ∈ m := by
  induction m with
  | nil => exact h
  | cons q m ih =>
    simp only [mdel] at h
    split_ifs at h
    · exact h
    · exact List.mem_cons_of_mem _ h
    · exact (List.mem_cons.mp h).elim (fun h => h ▸ List.mem_cons_self ..) fun h => List.mem_cons_of_mem _ (ih h)

/-- A team that at most loses commands. -/
structure Team.Sheds (t t' : Team) : Prop where
  status : t'.status = t.status
  cmds : ∀ m ∈ t'.cmds, m ∈ t.cmds

theorem Team.Sheds.refl (t : Team) : Team.Sheds t t := ⟨rfl, fun _ h => h⟩

theorem Team.Sheds.trans {t t' t'' : Team} (h : Team.Sheds t t') (h' : Team.Sheds t' t'') : Team.Sheds t t'' :=
  ⟨h'.status.trans h.status, fun m hm => h.cmds m (h'.cmds m hm)⟩

theorem Team.sheds_foldl {β : Type} {f : Team → β → Team} (hf : ∀ t b, Team.Sheds t (f t b)) (l : List β) (t : Team) :
    Team.Sheds t (l.foldl f t) :=
  List.foldlRecOn (motive := Team.Sheds t) l f (.refl t) fun u hu b _ => hu.trans (hf u b)

theorem Team.sheds_cmdDone (t : Team) (id : Nat) : Team.Sheds t (t.cmdDone id) := ⟨rfl, fun _ => mem_of_mem_mdel⟩

theorem Team.sheds_wakeOne (t : Team) (id : Nat) (k : Cmd) : Team.Sheds t (t.wakeOne id k) := by
  have hgo (gs : SMap Group) : Team.Sheds t (({ t with groups := gs } : Team).cmdDone id) := ⟨rfl, fun _ => mem_of_mem_mdel⟩
  rw [Team.wakeOne]
  split
  · exact .refl t
  · split
    · exact .refl t
    · split
      · split
        · exact hgo _
        · exact .refl t
      · split
        · exact hgo _
        · exact .refl t
      · exact .refl t

theorem Team.sheds_settleRuns (t : Team) : Team.Sheds t t.settleRuns := by
  have hstop (rs : List Run) : Team.Sheds t { t with runs := rs } := ⟨rfl, fun _ h => h⟩
  rw [Team.settleRuns]
  refine Team.Sheds.trans ?_ (Team.sheds_foldl (fun u (q : Nat × Cmd) => ?_) _ _)
  · refine Team.Sheds.trans ?_ (Team.sheds_foldl (fun u (r : Run) => Team.sheds_cmdDone u r.id) _ _)
    refine Team.Sheds.trans (t' := if _ then _ else t) ?_ ⟨rfl, fun _ h => h⟩
    split
    · exact hstop _
    · exact .refl t
  · split
    · split
      · exact Team.sheds_cmdDone u _
      · exact .refl u
    · exact .refl u

/-- What follows a change of a team's commands takes none up. -/
theorem Team.sheds_settle (t : Team) : Team.Sheds t ((t.settleBufs).settleRuns).wake :=
  have hbufs : Team.Sheds t t.settleBufs := ⟨rfl, fun _ h => h⟩
  hbufs.trans ((Team.sheds_settleRuns _).trans (Team.sheds_foldl (fun t (q : Nat × Cmd) => Team.sheds_wakeOne t q.1 q.2) _ _))

/-- A resident team is not reaped. -/
theorem reap_resident {tid : Nat} {t : Team} (ht : mget? s.teams tid = some t) (hres : t.status = .resident) : s.reap tid = s := by
  simp [State.reap, ht, hres]

theorem unask_teams (f : PeerAsk → Bool) : (s.unask f).teams = s.teams := by
  rw [State.unask]
  split <;> rfl

/-- A change of one team, seen from any team listed after it. -/
theorem mem_modTeam {tid : Nat} {f : Team → Team} {p : Nat × Team} (h : p ∈ (s.modTeam tid f).teams) (hf : ∀ t, Team.Sheds t (f t)) :
    ∃ q ∈ s.teams, Team.Sheds q.2 p.2 := by
  obtain ⟨q, hq, rfl⟩ := List.mem_map.mp h
  refine ⟨q, hq, ?_⟩
  split
  · exact hf q.2
  · exact .refl q.2

/-- The end of a command of a resident team leaves no team with a new command. -/
theorem cmdDone_sheds {tid id : Nat} {t : Team} (ht : mget? s.teams tid = some t) (hres : t.status = .resident) :
    ∀ p ∈ (s.cmdDone tid id).teams, ∃ q ∈ s.teams, Team.Sheds q.2 p.2 := by
  intro p hp
  let f (t : Team) : Team := (((t.cmdDone id).settleBufs).settleRuns).wake
  have hf (t : Team) : Team.Sheds t (f t) := (Team.sheds_cmdDone t id).trans (Team.sheds_settle _)
  let u := ((s.modTeam tid fun t => t.cmdDone id).modTeam tid fun t => ((t.settleBufs).settleRuns).wake).tidyAsks
  have hu : u.teams = (s.modTeam tid f).teams := by
    rw [show u.teams = _ from unask_teams _]
    simp only [State.modTeam_teams, mmod, List.map_map]
    refine List.map_congr_left fun q _ => ?_
    simp only [Function.comp]
    split <;> simp_all [f]
  have hut : mget? u.teams tid = some (f t) := by
    rw [hu, State.modTeam_teams, mget?_mmod, if_pos rfl, ht]
    rfl
  have hteams : (s.cmdDone tid id).teams = u.teams := by
    obtain ⟨w, hw, hwteams⟩ : ∃ w : State, s.cmdDone tid id = w.reap tid ∧ w.teams = u.teams := by
      refine ⟨_, rfl, ?_⟩
      split
      · split <;> rfl
      · rfl
    rw [hw, reap_resident (hwteams ▸ hut) ((hf t).status.trans hres), hwteams]
  rw [hteams, hu] at hp
  exact mem_modTeam hp hf

/-! ### Waking a QPULL (R92, R427) -/

theorem ScalarIs.of_registers {c c₁ e : Cur} {r : Nat} {v : Word} (h : ScalarIs c₁ e r v) (hregs : SameRegisters c.group c₁.group) :
    ScalarIs c e r v := by
  obtain ⟨hval, hrest, hv, hr⟩ := h
  obtain ⟨hv₁, hs₁, -, hr₁⟩ := hregs
  refine ⟨hval, fun n hn => ?_, hv.trans hv₁, hr.trans hr₁⟩
  rw [hrest n hn, Group.sreg, Group.sreg, hs₁]

theorem Leaves.of_split {c c₁ e : Cur} (h : Leaves c₁ e) (hsplit : c₁.split = c.split) : Leaves c e := by
  rw [Leaves, ← hsplit]
  exact h

section
variable {r : Ref} {c : Cur} {id q loc reg : Nat} {k : Cmd} {d : QDesc} (hl : s.lookup? r = some c) (hpark : c.split.park = .qpull id)
  (hk : mget? c.team.cmds id = some k) (hkind : k.kind = .qpull q loc reg) (hres : c.team.status = .resident) (hrun : c.group.halted = false)
  (hclear : c.team.clear id k.foot = true)
  (hdesc : ((s.queueAt c.team.die c.team.ctx q).bind fun a => s.readDesc c.team.die c.team.ctx a) = some d)
include hl hpark hk hkind hres hrun hclear hdesc

theorem exec_qpullWake_item {s₁ : State} (hne : d.head ≠ d.tail) (hpull : s.pullItem r.team c.team d loc = some s₁) :
    exec (.qpullWake r) s = .next ((s₁.woken r reg 0).cmdDone r.team id) := by
  obtain ⟨kind, g, sp, foot, bg, xd, vp, cs⟩ := k
  subst hkind
  rw [exec_qpullWake, execQpullWake]
  simp only [hl, hpark, hk, hres, hrun, hclear, hdesc, hne, hpull, ne_eq, not_true_eq_false, not_false_eq_true, decide_false, Bool.not_true,
    Bool.or_false, Bool.false_eq_true, if_true, if_false]
  rfl

theorem exec_qpullWake_closed (he : d.head = d.tail) (hclosed : d.isClosed = true) :
    exec (.qpullWake r) s = .next ((s.woken r reg 2).cmdDone r.team id) := by
  obtain ⟨kind, g, sp, foot, bg, xd, vp, cs⟩ := k
  subst hkind
  rw [exec_qpullWake, execQpullWake]
  simp only [hl, hpark, hk, hres, hrun, hclear, hdesc, he, hclosed, ne_eq, not_true_eq_false, decide_false, Bool.not_true,
    Bool.or_false, Bool.false_eq_true, if_true, if_false]
  rfl

end

/-! ### QPUSH_APPEND (R428) -/

/-- Two writes of a record that lie apart: an item to its slot, and the number behind it. -/
theorem appended_takes {u t : State} {pi pd v : Nat} {item : List Byte} (hwf : Memory.wf s.hbm = true) (hitem : Wrote s u pi item)
    (htail : Wrote u t (pd + 0x10) (bytesOfNat 8 v)) (hapart : ∀ a, ¬ (Bytes pd 64 a ∧ Bytes pi item.length a)) :
    rdBytes t.hbm pi item.length = item ∧ t.hbmNat (pd + 0x10) 8 = v % 2 ^ 64 ∧
      ∀ a, ¬ Bytes pi item.length a → ¬ Bytes (pd + 0x10) 8 a → rdByte t.hbm a = rdByte s.hbm a := by
  obtain ⟨hval, hframe⟩ := htail.takes (hitem.wf hwf)
  refine ⟨?_, hval, fun a hi hd => (hframe a hd).trans ?_⟩
  · have hkeep : rdBytes t.hbm pi item.length = rdBytes u.hbm pi item.length := by
      refine List.map_congr_left fun i hi => hframe _ fun ⟨hlo, hhi⟩ => hapart (pi + i) ⟨⟨by omega, by omega⟩, by omega, ?_⟩
      have := List.mem_range.mp hi
      omega
    rw [hkeep, hitem.hbm, rdBytes_wrBytes _ _ _ hwf]
  · rw [hitem.hbm, rdByte_wrBytes _ _ _ _ hwf]
    exact if_neg hi

/-- No team has a close waiting. -/
def State.noCloses (s : State) : Prop := ∀ u ∈ s.teams, ∀ m ∈ u.2.cmds, ∀ e x, m.2.kind ≠ .qclose e x

theorem Accessed.noCloses {t : State} (h : Accessed s t) (hs : s.noCloses) : t.noCloses := by
  intro p hp m hm
  obtain ⟨q, hq, -, hbare⟩ := h.mem_teams hp
  have hcmds : q.2.bare.cmds = p.2.bare.cmds := congrArg Team.cmds hbare
  exact hs q hq m (show m ∈ q.2.bare.cmds from hcmds ▸ hm)

/-- With no close waiting, an append lets none take effect. -/
theorem closes_nil (hs : s.noCloses) (d q : Nat) : (s.teams.flatMap fun u => (u.2.cmds.filter fun k => k.2.kind = .qclose d q).map fun k =>
    (u.1, k.1)) = [] := by
  rw [List.flatMap_eq_nil_iff]
  intro u hu
  rw [List.map_eq_nil_iff, List.filter_eq_nil_iff]
  intro m hm
  simpa using hs u hu m hm d q

theorem exec_qpushAppend_room {D : Nat → Prop} {team cmd q die loc pd pi : Nat} {t : Team} {k : Cmd} {d : QDesc}
    (hs : s.noLines) (hwf : Memory.wf s.hbm = true) (ht : mget? s.teams team = some t) (hk : mget? t.cmds cmd = some k)
    (hkind : k.kind = .qpush die q loc) (hres : t.status = .resident) (hclear : t.clear cmd k.foot = true)
    (hdesc : ((s.queueAt die t.ctx q).bind fun a => s.readDesc t.die t.ctx a) = some d) (hroom : d.tail - d.head < d.cap)
    (hopen : d.isClosed = false) (hmapd : Mapped s D t.die t.ctx d.at_ 64 pd) (hmapi : Mapped s D t.die t.ctx (d.slot d.tail) d.isz pi)
    (hD : ∀ a, Bytes pi d.isz a → D a) (hno : s.noCloses) :
    ∃ u v, exec (.qpushAppend team cmd) s = .next (v.cmdDone team cmd) ∧ Wrote s u pi (s.arrRead t loc d.isz) ∧
      Wrote u v (pd + 0x10) (bytesOfNat 8 (d.tail + 1)) := by
  let item := s.arrRead t loc d.isz
  have hlen : item.length = d.isz := by simp [item, State.arrRead, rdBytes]
  have h8 : (bytesOfNat 8 (d.tail + 1)).length = 8 := bytesOfNat_length _ _
  obtain ⟨u, hu, hitem⟩ := hmapi.vWrite (k := 0) (bs := item) hs (by rw [hlen]; exact d.isz_pos) (by omega) (some t.coreKey)
  have hmapu := hitem.mapped hwf hs (fun a ha => hD a (hlen ▸ ha)) hmapd
  obtain ⟨v, hv, htail⟩ := hmapu.vWrite (k := 0x10) (bs := bytesOfNat 8 (d.tail + 1)) (hitem.noLines hs) (by omega) (by omega) (some t.coreKey)
  have hacc : Accessed s v := hitem.toAccessed.trans htail.toAccessed
  obtain ⟨t', ht', hbare⟩ : ∃ t', mget? v.teams team = some t' ∧ t'.bare = t.bare := by
    have hteam := hacc.mget?_team team
    rwa [ht, Option.map_some, Option.map_eq_some_iff] at hteam
  have hres' : t'.bare.status = .resident := (congrArg Team.status hbare).trans hres
  have hnone : (v.cmdDone team cmd).noCloses := by
    intro p hp m hm
    obtain ⟨y, hy, hsheds⟩ := cmdDone_sheds ht' hres' p hp
    exact hacc.noCloses hno y hy m (hsheds.cmds m hm)
  refine ⟨u, v, ?_, hitem, htail⟩
  obtain ⟨kind, g, sp, foot, bg, xd, vp, cs⟩ := k
  subst hkind
  have hstep : s.vWrite t.die t.ctx (d.slot d.tail) (s.arrRead t loc d.isz) (some t.coreKey) = some u := hu
  rw [exec_qpushAppend, execQpushAppend]
  simp only [ht, hk, Option.bind_some, Option.map_some, hres, hclear, hdesc, Nat.not_le.mpr hroom, hopen, hstep, hv, ne_eq, not_true_eq_false,
    decide_false, Bool.not_true, Bool.or_false, Bool.false_eq_true, Nat.zero_ne_one, if_false, closes_nil hnone, List.foldl_nil]

end Sys2Proof.Machine
end

section
open Sys2Proof Sys2Proof.Machine

/-- Settles O40: a parked pull goes on (`woken_spec`) with what `pullItem_spec` says of the item, an append makes its two writes apart
(`appended_takes`), and the doorbell's page is written last. -/
theorem queueEventsComplete : Obligations.QueueEventsComplete := by
  unfold Obligations.QueueEventsComplete
  intro s hquiet hmem
  obtain ⟨hs, -⟩ := hquiet
  have hwf := State.memOk_hbm hmem
  refine ⟨fun r c id q loc reg pa k d hl hpark hk hkind hres hrun hclear hdesc => ⟨?item, ?closed⟩, ?append, ?doorbell⟩
  case item =>
    intro item hne hitem hisz hmap
    obtain ⟨s₁, hpull, hacc, htakes, harr, -⟩ := pullItem_spec (loc := loc) r.team hs hmem hitem hisz hmap
    obtain ⟨c₁, hl₁, -, hsplit, hbare, -⟩ := hacc.lookup hl
    obtain ⟨e, he, -, hleaves, hscalar⟩ := woken_spec hl₁ reg 0
    have hhbm := s₁.woken_hbm r reg 0
    refine ⟨_, e, exec_qpullWake_item hl hpark hk hkind hres hrun hclear hdesc hne hpull, ?_, ?_, he, hleaves.of_split hsplit,
      hscalar.of_registers (sameRegisters_of_bare hbare)⟩
    · rw [HbmTakes, State.hbmNat, hhbm]
      exact htakes
    · rw [State.arrRead, State.core, s₁.woken_cores]
      exact harr
  case closed =>
    intro he hclosed
    obtain ⟨e, hl₁, hlate, hleaves, hscalar⟩ := woken_spec hl reg 2
    exact ⟨_, e, exec_qpullWake_closed hl hpark hk hkind hres hrun hclear hdesc he hclosed, hlate, hleaves, hscalar⟩
  case append =>
    intro team cmd q die loc pd pi t k d ht hk hkind hres hclear hdesc hroom hopen D hmapd hmapi hapart hno
    obtain ⟨u, v, hexec, hitem, htail⟩ := exec_qpushAppend_room hs hwf ht hk hkind hres hclear hdesc hroom hopen hmapd hmapi
      (fun _ => Or.inr) hno
    have hlen : (s.arrRead t loc d.isz).length = d.isz := by simp [State.arrRead, rdBytes]
    have htakes := appended_takes hwf hitem htail (by rwa [hlen])
    rw [hlen] at htakes
    exact ⟨v, hexec, htakes⟩
  case doorbell =>
    intro x rec hlive hended
    refine ⟨_, rfl, ?_⟩
    simp only [hlive, hended, Bool.not_true, Option.isSome_none, Bool.or_self, Bool.false_eq_true, if_false,
      State.ctx_modCtx_self]
    split <;> rfl

end

section
/-! PROOFS. The other direction of the encoding (R111 to R121, R128): the fields of a word, with its opcode and the zero bits of its
format, are the whole word, so that what the decoder accepts is the encoding of its answer. -/
namespace Sys2Proof

/-! ### A word from its fields -/

/-- A field above a bit is the field with the bit (R113). -/
theorem field_append_bit {v m lo hi : Nat} {x : BitVec v} (h : hi = lo + 1) :
    x.extractLsb' hi m ++ BitVec.ofBool (x.getLsbD lo) = x.extractLsb' lo (m + 1) := by
  have hbit : BitVec.ofBool (x.getLsbD lo) = x.extractLsb' lo 1 := by
    ext i hi
    obtain rfl : i = 0 := by omega
    simp [BitVec.getElem_ofBool]
  rw [hbit]
  exact BitVec.extractLsb'_append_extractLsb'_eq_extractLsb' h

theorem toBits_ofBits (b : BitVec 4) : (Ty.ofBits b).toBits = b := by
  revert b
  decide

/-- The low 16 bits of a word are its common fields and its opcode (R111). -/
theorem comBits_comOfBits {w : DWord} {op : Byte} (h : w.extractLsb' 0 8 = op) : comBits (comOfBits w) op = w.extractLsb' 0 16 := by
  subst h
  simp only [comBits, comOfBits, field_append_bit, BitVec.extractLsb'_append_extractLsb'_eq_extractLsb']

section
variable {w : DWord} {op : Byte}

/-- The opcode and the fields of a format give the word back (R113 to R120). -/
theorem fmtRToBits_ofBits (h : w.extractLsb' 0 8 = op) : fmtRToBits (fmtROfBits w) op = w := by
  simp only [fmtRToBits, fmtROfBits, comBits_comOfBits h, toBits_ofBits, field_append_bit,
    BitVec.extractLsb'_append_extractLsb'_eq_extractLsb']
  exact BitVec.extractLsb'_eq_self

theorem fmtIToBits_ofBits (h : w.extractLsb' 0 8 = op) : fmtIToBits (fmtIOfBits w) op = w := by
  simp only [fmtIToBits, fmtIOfBits, comBits_comOfBits h, toBits_ofBits, field_append_bit,
    BitVec.extractLsb'_append_extractLsb'_eq_extractLsb']
  exact BitVec.extractLsb'_eq_self

theorem fmtLToBits_ofBits (h : w.extractLsb' 0 8 = op) (hz : w.extractLsb' 25 7 = 0) : fmtLToBits (fmtLOfBits w) op = w := by
  simp only [fmtLToBits, fmtLOfBits, comBits_comOfBits h, ← hz, field_append_bit,
    BitVec.extractLsb'_append_extractLsb'_eq_extractLsb']
  exact BitVec.extractLsb'_eq_self

theorem fmtMToBits_ofBits (h : w.extractLsb' 0 8 = op) (hz : w.extractLsb' 53 3 = 0) : fmtMToBits (fmtMOfBits w) op = w := by
  simp only [fmtMToBits, fmtMOfBits, comBits_comOfBits h, ← hz, field_append_bit,
    BitVec.extractLsb'_append_extractLsb'_eq_extractLsb']
  exact BitVec.extractLsb'_eq_self

theorem fmtXToBits_ofBits (h : w.extractLsb' 0 8 = op) : fmtXToBits (fmtXOfBits w) op = w := by
  simp only [fmtXToBits, fmtXOfBits, comBits_comOfBits h, field_append_bit,
    BitVec.extractLsb'_append_extractLsb'_eq_extractLsb']
  exact BitVec.extractLsb'_eq_self

theorem fmtBToBits_ofBits (h : w.extractLsb' 0 8 = op) : fmtBToBits (fmtBOfBits w) op = w := by
  simp only [fmtBToBits, fmtBOfBits, comBits_comOfBits h, BitVec.extractLsb'_append_extractLsb'_eq_extractLsb']
  exact BitVec.extractLsb'_eq_self

theorem fmtEToBits_ofBits (h : w.extractLsb' 0 8 = op) : fmtEToBits (fmtEOfBits w) op = w := by
  simp only [fmtEToBits, fmtEOfBits, comBits_comOfBits h, BitVec.extractLsb'_append_extractLsb'_eq_extractLsb']
  exact BitVec.extractLsb'_eq_self

theorem fmtSToBits_ofBits (h : w.extractLsb' 0 8 = op) : fmtSToBits (fmtSOfBits w) op = w := by
  simp only [fmtSToBits, fmtSOfBits, comBits_comOfBits h, BitVec.extractLsb'_append_extractLsb'_eq_extractLsb']
  exact BitVec.extractLsb'_eq_self

theorem zero_append_comBits (h : w.extractLsb' 0 8 = op) (hz : w.extractLsb' 16 48 = 0) :
    (0 : BitVec 48) ++ comBits (comOfBits w) op = w := by
  rw [comBits_comOfBits h, ← hz]
  exact BitVec.extractLsb'_append_extractLsb'

end

theorem fmtEpToBits_ofBits {w : Word} {op : BitVec 6} (h : w.extractLsb' 0 6 = op) : fmtEpToBits (fmtEpOfBits w) op = w := by
  subst h
  simp only [fmtEpToBits, fmtEpOfBits, BitVec.extractLsb'_append_extractLsb'_eq_extractLsb']
  exact BitVec.extractLsb'_eq_self

/-! ### The decoder (R121, R128) -/

/-- What the decoder accepts is an instruction word, and the encoding of its answer: each row and column of the opcode map (R128) names
one instruction and its format, and the zero bits of formats L and M and of NOP are checked before the answer. -/
theorem decodeWord_spec {w : DWord} {i : Instr} (h : decodeWord w = .ok i) : i.com?.isSome = true ∧ encode i = w := by
  simp only [decodeWord] at h
  generalize hop : (w.extractLsb' 0 8).toNat = op at h
  have hw : w.extractLsb' 0 8 = BitVec.ofNat 8 (16 * (op / 16) + op % 16) := by
    rw [Nat.div_add_mod, ← hop, BitVec.ofNat_toNat, BitVec.setWidth_eq]
  clear hop
  generalize op / 16 = row at hw h
  generalize op % 16 = col at hw h
  simp only [decodeRow0, decodeRow1, decodeRow2, decodeRow3, decodeRow4, decodeRow5, decodeRow6, decodeRow7, decodeRow8, decodeRowA,
    decodeRowC, decodeRowD, decodeRowE] at h
  repeat' split at h
  all_goals cases h
  all_goals refine ⟨rfl, ?_⟩
  case h_1.isTrue.refl hz => exact zero_append_comBits hw (eq_of_beq hz)
  all_goals
    simp_all [encode, fmtRToBits_ofBits, fmtIToBits_ofBits, fmtLToBits_ofBits, fmtMToBits_ofBits, fmtXToBits_ofBits, fmtBToBits_ofBits,
      fmtEToBits_ofBits, fmtSToBits_ofBits]

/-- As `decodeWord_spec`, for epilogue words (R121). -/
theorem decodeEp_spec {w : Word} {i : Instr} (h : decodeEp w = some i) : i.isEp = true ∧ encodeEp i = w := by
  simp only [decodeEp, Option.filter_eq_some_iff] at h
  obtain ⟨h, -⟩ := h
  generalize hop : (w.extractLsb' 0 6).toNat = op at h
  have hw : w.extractLsb' 0 6 = BitVec.ofNat 6 op := by
    rw [← hop, BitVec.ofNat_toNat, BitVec.setWidth_eq]
  clear hop
  repeat' split at h
  all_goals cases h
  all_goals refine ⟨rfl, ?_⟩
  case h_12.isTrue.refl hz =>
    have hlow := BitVec.extractLsb'_append_extractLsb' (w := 26) (len := 6) (x := w)
    rw [hw, eq_of_beq hz] at hlow
    exact hlow
  all_goals simp [encodeEp, fmtEpToBits_ofBits, hw]

end Sys2Proof
end

section
open Sys2Proof

/-- Settles O2: the opcode that led the decoder to its answer is the one that the encoder writes, and every format's fields, put side
by side, are the word. -/
theorem acceptedWordsAreCanonical : Obligations.AcceptedWordsAreCanonical := by
  unfold Obligations.AcceptedWordsAreCanonical
  exact ⟨fun _ _ h _ => (decodeWord_spec h).2, fun _ _ h => (decodeEp_spec h).2⟩

end

section
open Sys2Proof

/-- Settles O57: the words are closed, and the decoder, the checks and the encoder are evaluated on each. -/
theorem specWordsDecode : Obligations.SpecWordsDecode := by
  unfold Obligations.SpecWordsDecode
  intro word
  refine ⟨?_, ?_, ?_, ?_, ?_, ?_, ?_, ?_, ?_, ?_, ?_, ?_, ?_, ?_, ?_, ?_, ?_, ?_, by decide, by decide⟩
  all_goals exact ⟨rfl, rfl, rfl⟩

end

section
/-! PROOFS. The integer, bit, move and immediate instructions (O5). -/
namespace Sys2Proof.Machine

/-- MOVI completes with its destination written (R115, R409). -/
theorem movi_computes {s : State} {c : Cur} (f : FmtL) (h : s.cur? = some c) :
    Computes (.movi f) s c f.com f.ds false f.d.toNat (fun _ => f.imm.setWidth 64) :=
  computes_of _ s c f.com f.ds false f.d _ (by simp [PairOk]) (by rw [exec_movi, execMovi, onSplit_eq s c _ h])

end Sys2Proof.Machine
end

section
open Sys2Proof Sys2Proof.Machine

/-- Settles O5: every form of format R is `aluR` with the values of its rule, POPC and CLZ with one destination register whatever the
type, and every form of format I is `aluI`. -/
theorem integerInstructionsComplete : Obligations.IntegerInstructionsComplete := by
  unfold Obligations.IntegerInstructionsComplete
  refine ⟨fun s c f h hp => ?_, fun s c f h => ?_, fun s c f h => movi_computes f h⟩
  · have hone : PairOk false f.d := by simp [PairOk]
    and_intros
    all_goals exact aluR_computes _ f _ s c _ _ h (by assumption) rfl rfl
  · and_intros
    all_goals exact aluI_computes _ f s c _ _ h rfl rfl

end

section
/-! PROOFS. The step (O3, O4): what the split whose turn it is does at a word of its open clause. -/
namespace Sys2Proof.Machine

variable {s : State} {c : Cur} {w : DWord} {i : Instr} {k : Nat}

/-! ### The split that acts -/

theorem turn_of_cur? (h : s.cur? = some c) : s.turn = .split c.ref := by
  unfold State.cur? at h
  split at h
  · next r hr => rw [hr, lookup?_ref s r c h]
  · cases h

theorem step_of_cur? (ha : s.agenda = []) (hc : s.cur? = some c) : step s = s.splitStep c.ref := by
  simp only [step, ha, turn_of_cur? hc]

/-- The split whose turn it is stands in its open clause before the word `w`, with nothing of the environment's to come first. -/
structure AtWord (s : State) (c : Cur) (w : DWord) : Prop where
  agenda : s.agenda = []
  cur : s.cur? = some c
  resident : c.team.status ≠ .saved
  opn : c.split.opn = true
  park : c.split.park = .none
  word : c.split.code.head? = some w

/-- The split stands on its port, or a port is open to it (R64, R95). -/
def OnPort (s : State) (c : Cur) : Prop := c.split.waits = false ∨ s.portOpen c = true

section
variable (hw : AtWord s c w)
include hw

theorem AtWord.code : ∃ rest, c.split.code = w :: rest := by
  obtain ⟨rest, hrest⟩ := List.head?_eq_some_iff.mp hw.word
  exact ⟨rest, hrest⟩

/-- A word that is no instruction traps (R129). -/
theorem step_of_decode_error (hd : decodeWord w = .error k) :
    step s = .next (s.fatal c.ref .illop (illDetail (some c.split.idx) k)) := by
  obtain ⟨rest, hcode⟩ := hw.code
  rw [step_of_cur? hw.agenda hw.cur]
  simp only [State.splitStep, cur?_lookup s c hw.cur, hw.resident, hw.opn, hw.park, hcode, hd, if_true, if_false, ne_eq, not_true_eq_false]

/-- A word that breaks a rule of its instruction traps (R129). -/
theorem step_of_illegal (hd : decodeWord w = .ok i) (hp : OnPort s c) (hi : i.illegal c.group.budget = some k) :
    step s = .next (s.fatal c.ref .illop (illDetail (some c.split.idx) k)) := by
  obtain ⟨rest, hcode⟩ := hw.code
  have hport : (c.split.waits && !s.portOpen c) = false := by rcases hp with h | h <;> simp [h]
  rw [step_of_cur? hw.agenda hw.cur]
  simp only [State.splitStep, cur?_lookup s c hw.cur, hw.resident, hw.opn, hw.park, hcode, hd, hport, hi, if_true, if_false, ne_eq,
    not_true_eq_false, Bool.false_eq_true]

/-- An instruction that its word allows comes to its port (R125, R127). -/
theorem step_of_legal (hd : decodeWord w = .ok i) (hp : OnPort s c) (hi : i.illegal c.group.budget = none) : step s = s.issue c i := by
  obtain ⟨rest, hcode⟩ := hw.code
  have hport : (c.split.waits && !s.portOpen c) = false := by rcases hp with h | h <;> simp [h]
  rw [step_of_cur? hw.agenda hw.cur]
  simp only [State.splitStep, cur?_lookup s c hw.cur, hw.resident, hw.opn, hw.park, hcode, hd, hport, hi, if_true, if_false, ne_eq,
    not_true_eq_false, Bool.false_eq_true]

end

/-! ### At the port -/

/-- Nothing holds the instruction at its port, the tracker included (R108, R125, R127, R213, R222). -/
def Unheld (s : State) (c : Cur) (i : Instr) : Prop := (c.windowHolds || c.counterFull i || c.fenceHolds i || s.unitHolds c i) = false

theorem Unheld.split (h : Unheld s c i) :
    (c.windowHolds || c.counterFull i || c.fenceHolds i || s.unitBusy c.settled i) = false ∧ s.footHolds c.settled i = false := by
  simpa only [Unheld, State.unitHolds, ← Bool.or_assoc, Bool.or_eq_false_iff (x := _ || _) (y := s.footHolds c.settled i)] using h

theorem issue_of_hazard (h : Unheld s c i) (hz : c.hazard i = true) :
    s.issue c i = .next (s.fatal c.ref .hazard (illDetail (some c.split.idx) 0)) := by
  simp only [State.issue, h.split.1, hz, if_true, if_false, Bool.false_eq_true]
  rfl

theorem issue_of_admitted (h : Unheld s c i) (hz : c.hazard i = false) (hp : s.peersHold c i = none) :
    s.issue c i = match exec i (s.issuing c i) with
      | .next t => .next (s.issued c i t)
      | o => o := by
  cases he : exec i (s.issuing c i) <;>
    simp only [State.issue, h.split.1, h.split.2, hz, hp, he, if_false, Bool.false_eq_true]

/-! ### The detail of a trap (R131) -/

/-- The low word of TRAPINFO is the detail (R310). -/
theorem trapInfo_detail (act : Bool) (split cls code : Nat) (detail : Word) :
    (trapInfo act split cls code detail).extractLsb' 0 32 = detail :=
  BitVec.extractLsb'_append_eq_right

/-- A field of a word that holds a number. -/
theorem field_ofNat {n lo len : Nat} (h : n < 2 ^ 32) : field ((BitVec.ofNat 32 n).setWidth 64) lo len = n / 2 ^ lo % 2 ^ len := by
  simp only [field, BitVec.extractLsb'_toNat, BitVec.toNat_setWidth, BitVec.toNat_ofNat, Nat.shiftRight_eq_div_pow]
  rw [Nat.mod_eq_of_lt h, Nat.mod_eq_of_lt (h.trans (by decide))]

theorem getLsbD_ofNat_four {n : Nat} : (BitVec.ofNat 32 n).getLsbD 4 = decide (n / 16 % 2 = 1) := by
  rw [BitVec.getLsbD_ofNat, Nat.testBit_eq_decide_div_mod_eq]
  simp

theorem illDetail_some_fields {idx reason : Nat} (hi : idx < 16) (hr : reason < 256) :
    let d := illDetail (some idx) reason
    field (d.setWidth 64) 0 4 = idx ∧ d.getLsbD 4 = false ∧
      field (d.setWidth 64) 5 3 = 0 ∧ field (d.setWidth 64) 8 8 = reason ∧ field (d.setWidth 64) 16 16 = 0 := by
  intro d
  have hlt : idx % 16 + 256 * reason < 2 ^ 32 := by omega
  simp only [d, illDetail, field_ofNat hlt, getLsbD_ofNat_four, decide_eq_false_iff_not]
  omega

theorem illDetail_none_fields {reason : Nat} (hr : reason < 256) :
    let h := illDetail none reason
    field (h.setWidth 64) 0 4 = 0 ∧ h.getLsbD 4 = true ∧
      field (h.setWidth 64) 5 3 = 0 ∧ field (h.setWidth 64) 8 8 = reason ∧ field (h.setWidth 64) 16 16 = 0 := by
  intro h
  have hlt : 16 + 256 * reason < 2 ^ 32 := by omega
  simp only [h, illDetail, field_ofNat hlt, getLsbD_ofNat_four, decide_eq_true_eq]
  omega

/-! ### Around the meaning -/

/-- With nothing buffered and no window of a guarded-off instruction to open, a meaning runs on the split with its word taken off. -/
theorem issuing_eq_put (hb : s.wbuf = []) (hw : i.longLatency = false ∨ i.cls < 4 ∨ (i.com?.map c.acts).getD false = true) :
    s.issuing c i = s.put { c with split := c.split.advance i } := by
  have hrel : (s.put { c with split := c.split.advance i }).releases c i = s.put { c with split := c.split.advance i } := by
    simp only [State.releases, State.raiseFor, State.put_wbuf, hb, List.isEmpty_nil, if_true, ite_self]
  have hwin : (i.longLatency && 4 ≤ i.cls && !(i.com?.map c.acts).getD false) = false := by
    rcases hw with h | h | h <;> simp [h]
  simp only [State.issuing, hrel, State.guardedWindow, hwin, if_false, Bool.false_eq_true]

section
variable {t : State}

theorem footed_eq_self (h : ∀ k ∈ t.teams, ∀ q ∈ k.2.cmds, q.1 < s.nextId) : t.footed s c i = t := by
  refine if_neg fun hany => ?_
  simp only [List.any_eq_true, Bool.and_eq_true, decide_eq_true_eq] at hany
  obtain ⟨k, hk, -, q, hq, hle⟩ := hany
  exact absurd (h k hk q hq) (by omega)

theorem countPages_eq_self {n : Nat} (h : ∀ k ∈ t.teams, ∀ q ∈ k.2.cmds, q.1 < n) : t.countPages c n = t := by
  unfold State.countPages
  split
  · rfl
  · next m hm =>
    have hnone : (m.cmds.filter fun k => n ≤ k.1) = [] := by
      simp only [List.filter_eq_nil_iff, decide_eq_true_eq]
      exact fun q hq => Nat.not_le.mpr (h _ (mem_of_mget? hm) q hq)
    rw [hnone]
    rfl

theorem noteScalars_eq_self (h : destRegs i .s = []) : t.noteScalars c i = t := by
  rw [State.noteScalars, h]

theorem noteVectors_eq_self (h : destRegs i .v = [] ∨ c.split.staleV = []) : t.noteVectors c i = t := by
  refine if_pos ?_
  rcases h with h | h <;> simp [h]

theorem unask_eq_self {f : PeerAsk → Bool} (h : ∀ a ∈ t.fab.asks, f a = false) : t.unask f = t := by
  rw [State.unask]
  split
  · rfl
  · extract_lets keep
    have hkeep : t.fab.asks.filterMap keep = t.fab.asks :=
      (List.filterMap_congr fun a ha => by simp [keep, h a ha]).trans List.filterMap_some
    exact congrArg (fun l => { t with fab := { t.fab with asks := l } }) hkeep

/-- With no command new, no register noted and nothing asked, only the end of the clause follows a meaning. -/
theorem issued_eq_finish (hnew : ∀ k ∈ t.teams, ∀ q ∈ k.2.cmds, q.1 < s.nextId) (hs : destRegs i .s = [])
    (hv : destRegs i .v = [] ∨ c.split.staleV = []) (hask : t.asksNothing c.ref) : s.issued c i t = t.finish c.ref := by
  have hun : ∀ a ∈ t.fab.asks, (decide (a.who = .split c.ref.group c.ref.split) && decide (a.team = some c.ref.team)) = false := by
    simpa [State.asksNothing] using hask
  rw [State.issued, footed_eq_self hnew, countPages_eq_self hnew, noteScalars_eq_self hs, noteVectors_eq_self hv, unask_eq_self hun]

end

end Sys2Proof.Machine
end

section
open Sys2Proof Sys2Proof.Machine

/-- Settles O3: a word that the port admits is issued (`step_of_legal`, `issue_of_admitted`), and what stands around the meaning is the
identity where it has nothing to do (`issuing_eq_put`, `issued_eq_finish`). -/
theorem stepRunsTheDecodedInstruction : Obligations.StepRunsTheDecodedInstruction := by
  unfold Obligations.StepRunsTheDecodedInstruction
  refine ⟨fun s c w i h => ?_, fun s c i => issuing_eq_put, fun s t c i => issued_eq_finish, fun s i rest ha he => ?_,
    fun s core w rest i ha ht hp hd => ?_⟩
  · obtain ⟨ha, hc, hres, hopn, hpark, hword, hdec, hlegal, hfree, hhaz, hport, hpeers⟩ := h
    exact (step_of_legal ⟨ha, hc, hres, hopn, hpark, hword⟩ hdec hport hlegal).trans (issue_of_admitted hfree hhaz hpeers)
  · simp only [step, ha, applyInput, he, if_true]
  · simp only [step, ha, ht, State.epilogueStep, hp, hd]

/-- Settles O4: the details by their fields, the traps by what a step does at a word that fails (`step_of_decode_error`,
`step_of_illegal`) and at a port that finds a hazard (`issue_of_hazard`). -/
theorem illegalWordsTrap : Obligations.IllegalWordsTrap := by
  unfold Obligations.IllegalWordsTrap
  refine ⟨fun idx reason hi hr => ?_, trapInfo_detail, fun s c w rest ha hc hres hopn hpark hcode => ?_,
    fun s c cause idx reason => rfl⟩
  · obtain ⟨hidx, hmark, hd⟩ := illDetail_some_fields hi hr
    obtain ⟨hidx', hmark', hh⟩ := illDetail_none_fields hr
    refine ⟨hidx, hmark, hidx', hmark', ?_⟩
    simp only [List.forall_mem_cons]
    exact ⟨hd, hh, nofun⟩
  · have hw : AtWord s c w := ⟨ha, hc, hres, hopn, hpark, by rw [hcode]; rfl⟩
    refine ⟨fun k => step_of_decode_error hw, fun i k hd hi hp => step_of_illegal hw hd hp hi, fun i hd hi hp hfree hhaz => ?_⟩
    rw [step_of_legal hw hd hp hi, issue_of_hazard hfree hhaz]

end

section
/-! PROOFS. Every state has a next one (O60). A meaning faults only in `onSplit` and `onEpi`, where no agent of its kind has the turn; the
decoder gives the agent that has the turn an instruction of its own kind, and what a step does before the meaning takes no split away. -/
namespace Sys2Proof.Machine

variable {β : Type} {s t : State} {i : Instr}

/-! ### Meanings -/

/-- An instruction word's meaning acts on the split whose turn it is (R37). -/
theorem exec_eq_onSplit (s : State) (hi : i.com?.isSome = true) : ∃ f : Cur → State, exec i s = onSplit s f := by
  cases i
  all_goals cases hi
  all_goals exact ⟨_, rfl⟩

/-- An epilogue word's meaning acts on the epilogue processor whose turn it is (R237). -/
theorem exec_eq_onEpi (s : State) (hi : i.isEp = true) : exec i s = onEpi i s := by
  cases i
  all_goals cases hi
  all_goals rfl

/-- An event happens in every state. -/
theorem exec_event (s : State) (hi : i.isEvent = true) : ∃ t, exec i s = .next t := by
  cases i
  all_goals cases hi
  all_goals exact ⟨_, rfl⟩

theorem exec_word {c : Cur} (hi : i.com?.isSome = true) (hc : s.cur? = some c) : ∃ t, exec i s = .next t := by
  obtain ⟨f, hf⟩ := exec_eq_onSplit s hi
  exact ⟨f c, hf.trans (onSplit_eq s c f hc)⟩

theorem exec_epilogue {core : Nat} (hi : i.isEp = true) (ht : s.turn = .epilogue core) : ∃ t, exec i s = .next t :=
  ⟨s.epRun core i, by rw [exec_eq_onEpi s hi, onEpi, ht]⟩

/-- What a meaning taken alone answers: every instruction is a word, an epilogue word or an event. -/
theorem exec_answers (i : Instr) (s : State) : (∃ t, exec i s = .next t) ∨
    (i.com?.isSome = true ∧ s.cur? = none ∧ exec i s = .fault .noSplit) ∨
    (i.isEp = true ∧ (∀ k, s.turn ≠ .epilogue k) ∧ exec i s = .fault .noEpilogue) := by
  by_cases hword : i.com?.isSome = true
  · cases hc : s.cur? with
    | none =>
      obtain ⟨f, hf⟩ := exec_eq_onSplit s hword
      exact .inr (.inl ⟨hword, rfl, hf.trans (onSplit_none s f hc)⟩)
    | some c => exact .inl (exec_word hword hc)
  · by_cases hep : i.isEp = true
    · by_cases hturn : ∃ k, s.turn = .epilogue k
      · obtain ⟨core, hcore⟩ := hturn
        exact .inl (exec_epilogue hep hcore)
      · have hno : ∀ k, s.turn ≠ .epilogue k := fun k hk => hturn ⟨k, hk⟩
        refine .inr (.inr ⟨hep, hno, ?_⟩)
        rw [exec_eq_onEpi s hep]
        unfold onEpi
        split
        · next core hcore => exact absurd hcore (hno core)
        · rfl
    · refine .inl (exec_event s ?_)
      simp_all [Instr.isEvent]

/-! ### The splits in place -/

/-- The splits of a team, by group. -/
def Team.splitsOf (y : Team) (g : Nat) : Option (SMap Split) := (mget? y.groups g).map Group.splits

/-- From `s` to `t` the turn is the same agent's, and every group has the same splits. -/
structure SameSplits (s t : State) : Prop where
  turn : t.turn = s.turn
  teams : ∀ tid, (mget? t.teams tid).map Team.splitsOf = (mget? s.teams tid).map Team.splitsOf

theorem SameSplits.refl (s : State) : SameSplits s s := ⟨rfl, fun _ => rfl⟩

/-- The relation sees the turn and the teams alone. -/
theorem SameSplits.congr (h : SameSplits s t) {u : State} (hturn : u.turn = t.turn) (hteams : u.teams = t.teams) : SameSplits s u :=
  ⟨hturn.trans h.turn, fun tid => hteams ▸ h.teams tid⟩

theorem lookup?_split (s : State) (r : Ref) : (s.lookup? r).map Cur.split =
    ((mget? s.teams r.team).map Team.splitsOf).bind fun f => (f r.group).bind fun m => mget? m r.split := by
  cases ht : mget? s.teams r.team with
  | none => simp [State.lookup?, ht]
  | some y => cases hg : mget? y.groups r.group <;> simp [State.lookup?, Team.splitsOf, ht, hg, Function.comp_def]

/-- A split that is to act is there to act after a change that leaves the splits. -/
theorem SameSplits.cur? (h : SameSplits s t) {c : Cur} (hc : s.cur? = some c) : ∃ d, t.cur? = some d := by
  have hfound : (t.lookup? c.ref).map Cur.split = some c.split := by
    rw [lookup?_split, h.teams, ← lookup?_split, cur?_lookup s c hc, Option.map_some]
  obtain ⟨d, hd, -⟩ := Option.map_eq_some_iff.mp hfound
  refine ⟨d, ?_⟩
  simp only [State.cur?, h.turn, turn_of_cur? hc, hd]

theorem foldl_sameSplits {f : State → β → State} {l : List β} (h : SameSplits s t)
    (hf : ∀ u b, SameSplits s u → SameSplits s (f u b)) : SameSplits s (l.foldl f t) :=
  List.foldlRecOn (motive := SameSplits s) l f h fun u hu b _ => hf u b hu

/-- Teams changed one by one, each with its key and its splits kept. -/
theorem mapTeams_sameSplits {f : Nat × Team → Nat × Team} (h : SameSplits s t)
    (hf : ∀ p, (f p).1 = p.1 ∧ (f p).2.splitsOf = p.2.splitsOf) : SameSplits s { t with teams := t.teams.map f } :=
  ⟨h.turn, fun tid => (mget?_map_keep Team.splitsOf f hf t.teams tid).trans (h.teams tid)⟩

/-- Groups of a team changed one by one, each with its number and its splits kept. -/
theorem splitsOf_mapGroups {y : Team} {f : Nat × Group → Nat × Group} (hf : ∀ p, (f p).1 = p.1 ∧ (f p).2.splits = p.2.splits) :
    Team.splitsOf { y with groups := y.groups.map f } = y.splitsOf :=
  funext fun g => mget?_map_keep Group.splits f hf y.groups g

theorem State.modTeam_sameSplits {tid : Nat} {f : Team → Team} (h : SameSplits s t) (hf : ∀ y, (f y).groups = y.groups) :
    SameSplits s (t.modTeam tid f) := by
  refine mapTeams_sameSplits (f := fun p => if p.1 = tid then (p.1, f p.2) else p) h fun p => ?_
  split
  · exact ⟨rfl, by unfold Team.splitsOf; rw [hf]⟩
  · exact ⟨rfl, rfl⟩

theorem State.clearResv_sameSplits {only : Option Nat} {gs : List Nat} (h : SameSplits s t) : SameSplits s (t.clearResv only gs) := by
  refine mapTeams_sameSplits h fun p => ?_
  dsimp only
  split
  · exact ⟨rfl, rfl⟩
  · refine ⟨rfl, splitsOf_mapGroups fun g => ⟨rfl, ?_⟩⟩
    dsimp only
    split <;> rfl

theorem State.stashWriteBack_sameSplits {tid w n : Nat} (h : SameSplits s t) : SameSplits s (t.stashWriteBack tid w n) := by
  fun_cases t.stashWriteBack tid w n with
  | case4 y _ win _ l => exact State.modTeam_sameSplits (h.congr rfl rfl) fun _ => rfl
  | _ => exact h

theorem State.recallFor_sameSplits {tid : Option Nat} {pa n : Nat} (h : SameSplits s t) : SameSplits s (t.recallFor tid pa n) := by
  refine foldl_sameSplits h fun u line hu => ?_
  have howned : SameSplits s { u with owned := mdel u.owned line } := hu.congr rfl rfl
  dsimp only
  split
  · split
    · exact howned
    · exact State.modTeam_sameSplits (State.stashWriteBack_sameSplits howned) fun _ => rfl
  · exact howned

theorem State.homePut_sameSplits {pa : Nat} {bs : List Byte} (h : SameSplits s t) : SameSplits s (t.homePut pa bs) :=
  State.clearResv_sameSplits ((State.recallFor_sameSplits h).congr rfl rfl)

theorem State.landStore_sameSplits {e : Buffered} (h : SameSplits s t) : SameSplits s (t.landStore e) :=
  foldl_sameSplits (State.homePut_sameSplits h) fun _ _ hu => hu.congr rfl rfl

theorem State.seenResv_sameSplits {e : Buffered} (h : SameSplits s t) : SameSplits s (t.seenResv e) := by
  refine mapTeams_sameSplits h fun p => ⟨rfl, splitsOf_mapGroups fun g => ⟨rfl, ?_⟩⟩
  dsimp only
  split <;> rfl

theorem State.raiseFor_sameSplits {tid gi lvl : Nat} (h : SameSplits s t) : SameSplits s (t.raiseFor tid gi lvl) := by
  unfold State.raiseFor State.raise
  split
  · exact h
  · split
    · exact foldl_sameSplits (h.congr rfl rfl) fun _ _ hu => State.landStore_sameSplits hu
    · exact foldl_sameSplits (h.congr rfl rfl) fun _ _ hu => State.seenResv_sameSplits hu

theorem State.releases_sameSplits {c : Cur} : SameSplits s (s.releases c i) := by
  unfold State.releases
  split
  · exact State.raiseFor_sameSplits (SameSplits.refl s)
  · exact SameSplits.refl s

/-! ### The step -/

theorem cur?_put {c : Cur} (hturn : s.turn = .split c.ref) : ∃ d, (s.put c).cur? = some d :=
  ⟨_, by rw [State.cur?, State.put_turn, hturn]; exact lookup?_put s c⟩

theorem cur?_emptyWindow {r : Ref} {c : Cur} (hc : s.cur? = some c) (hturn : s.turn = .split r) :
    ∃ d, (s.emptyWindow r i).cur? = some d := by
  unfold State.emptyWindow
  split
  · next d hd =>
    split
    · exact ⟨c, hc⟩
    · refine cur?_put ?_
      obtain ⟨q, hq, -⟩ := deferI_spec d i 0 true
      rw [hturn, hq, lookup?_ref s r d hd]
  · exact ⟨c, hc⟩

/-- The split that issues an instruction is there for its meaning to act on. -/
theorem cur?_issuing {c : Cur} (hc : s.cur? = some c) (i : Instr) : ∃ d, (s.issuing c i).cur? = some d := by
  have hturn := turn_of_cur? hc
  obtain ⟨d, hd⟩ := cur?_put (s := s) (c := { c with split := c.split.advance i }) hturn
  have hsame := State.releases_sameSplits (s := s.put { c with split := c.split.advance i }) (c := c) (i := i)
  obtain ⟨e, he⟩ := hsame.cur? hd
  unfold State.issuing State.guardedWindow
  split
  · exact cur?_emptyWindow he (hsame.turn.trans hturn)
  · exact ⟨e, he⟩

theorem issue_next {c : Cur} (hc : s.cur? = some c) (hi : i.com?.isSome = true) : ∃ t, s.issue c i = .next t := by
  obtain ⟨d, hd⟩ := cur?_issuing hc i
  obtain ⟨u, hu⟩ := exec_word hi hd
  fun_cases s.issue c i with
  | case6 _ _ _ _ hout => exact absurd hu (hout u)
  | _ => exact ⟨_, rfl⟩

theorem splitStep_next {r : Ref} (hturn : s.turn = .split r) : ∃ t, s.splitStep r = .next t := by
  fun_cases s.splitStep r with
  | case8 c hc _ _ _ w rest _ i hd =>
    have hcur : s.cur? = some c := by rw [State.cur?, hturn]; exact hc
    exact issue_next hcur (decodeWord_spec hd).1
  | case9 | case10 | case11 | case12 | case13 | case14 => exact exec_event s rfl
  | _ => exact ⟨_, rfl⟩

theorem epilogueStep_next {core : Nat} (hturn : s.turn = .epilogue core) : ∃ t, s.epilogueStep core = .next t := by
  fun_cases s.epilogueStep core with
  | case2 w rest _ s₁ i hd => exact exec_epilogue (decodeEp_spec hd).1 hturn
  | _ => exact ⟨_, rfl⟩

theorem applyInput_next (x : Input) (s : State) : ∃ t, applyInput x s = .next t := by
  cases x with
  | event i =>
    rw [applyInput]
    split
    · next hi => exact exec_event s hi
    · exact ⟨s, rfl⟩
  | _ => exact ⟨_, rfl⟩

theorem step_next (s : State) : ∃ t, step s = .next t := by
  fun_cases step s with
  | case1 x rest => exact applyInput_next x _
  | case2 => exact ⟨s, rfl⟩
  | case3 _ r hturn => exact splitStep_next hturn
  | case4 _ core hturn => exact epilogueStep_next hturn

theorem goesOn_of_next (h : ∃ t, step s = .next t) : s.goesOn = true := by
  obtain ⟨t, ht⟩ := h
  rw [State.goesOn, ht]

end Sys2Proof.Machine
end

section
open Sys2Proof Sys2Proof.Machine

/-- Settles O60: no arm of a step answers a fault, as the agent whose turn it is has an instruction of its own kind and stands in its
place when the meaning runs (`cur?_issuing`); `exec_answers` says what a meaning taken alone answers. -/
theorem everyStateHasANextOne : Obligations.EveryStateHasANextOne := by
  unfold Obligations.EveryStateHasANextOne
  exact ⟨fun s => goesOn_of_next (step_next s), exec_answers⟩

end

section
/-! PROOFS. Packed values and integer arithmetic on them (R144, R156): what an element of a packed value is, and the two ways in which
an exact result is brought into its type. -/
namespace Sys2Proof.Machine

/-! ### Elements -/

theorem elem_eq (d : DWord) (w i : Nat) : elem d w i = d.toNat / 2 ^ (w * i) % 2 ^ w := by
  simp [elem, field, BitVec.extractLsb'_toNat, Nat.shiftRight_eq_div_pow]

/-- The number that `n` packed elements make. -/
def packSum (w n : Nat) (f : Nat → Nat) : Nat := (List.range n).foldl (fun acc i => acc + f i % 2 ^ w * 2 ^ (w * i)) 0

theorem packSum_succ (w n : Nat) (f : Nat → Nat) : packSum w (n + 1) f = packSum w n f + 2 ^ (w * n) * (f n % 2 ^ w) := by
  simp [packSum, List.range_succ, Nat.mul_comm]

theorem packSum_lt (w n : Nat) (f : Nat → Nat) : packSum w n f < 2 ^ (w * n) := by
  induction n with
  | zero => simp [packSum]
  | succ n ih =>
    rw [packSum_succ, Nat.mul_succ, Nat.pow_add]
    calc packSum w n f + 2 ^ (w * n) * (f n % 2 ^ w)
      _ < 2 ^ (w * n) * (f n % 2 ^ w + 1) := by rw [Nat.mul_succ]; omega
      _ ≤ 2 ^ (w * n) * 2 ^ w := Nat.mul_le_mul_left _ (Nat.mod_lt _ (by positivity))

/-- No element reaches into another: each stands alone at its place. -/
theorem packSum_elem (w : Nat) (f : Nat → Nat) {n i : Nat} (hi : i < n) : packSum w n f / 2 ^ (w * i) % 2 ^ w = f i % 2 ^ w := by
  induction n with
  | zero => omega
  | succ n ih =>
    rw [packSum_succ]
    by_cases h : i = n
    · subst h
      rw [Nat.add_mul_div_left _ _ (by positivity), Nat.div_eq_of_lt (packSum_lt w i f), Nat.zero_add, Nat.mod_mod]
    · have hsplit : w * n = w * i + w + w * (n - i - 1) := by
        rw [← Nat.mul_succ, ← Nat.mul_add]; congr 1; omega
      rw [hsplit, Nat.pow_add, Nat.pow_add, Nat.mul_assoc, Nat.mul_assoc, Nat.add_mul_div_left _ _ (by positivity),
        Nat.add_mul_mod_self_left, ih (by omega)]

/-- An element of a packed value that fits a doubleword (R144). -/
theorem elem_packElems {w n i : Nat} (f : Nat → Nat) (hw : w * n ≤ 64) (hi : i < n) : elem (packElems w n f) w i = f i % 2 ^ w := by
  have hlt : packSum w n f < 2 ^ 64 := (packSum_lt w n f).trans_le (Nat.pow_le_pow_right (by decide) hw)
  have hval : (packElems w n f).toNat = packSum w n f := (BitVec.toNat_ofNat _ _).trans (Nat.mod_eq_of_lt hlt)
  rw [elem_eq, hval, packSum_elem w f hi]

theorem Ty.elems_fit (t : Ty) : t.width * t.elems ≤ 64 := by cases t <;> decide

theorem Ty.width_pos (t : Ty) : 0 < t.width := by cases t <;> decide

/-- What is done element by element is done on each element alone (R156). -/
theorem elem_mapElems (t : Ty) (f : Nat → Nat → Nat) (a b : DWord) {i : Nat} (hi : i < t.elems) :
    elem (mapElems t f a b) t.width i = f (elem a t.width i) (elem b t.width i) % 2 ^ t.width :=
  elem_packElems _ (Ty.elems_fit t) hi

/-! ### Numbers and their bits -/

theorem wrapInt_cast (w : Nat) (x : Int) : (wrapInt w x : Int) = x % 2 ^ w :=
  Int.toNat_of_nonneg (Int.emod_nonneg _ (by positivity))

theorem wrapInt_lt (w : Nat) (x : Int) : wrapInt w x < 2 ^ w := by
  have h := Int.emod_lt_of_pos x (show (0 : Int) < 2 ^ w by positivity)
  have hc := wrapInt_cast w x
  zify
  omega

theorem intMin_le_intMax (signed : Bool) (w : Nat) : intMin signed w ≤ intMax signed w := by
  have hw : (0 : Int) < 2 ^ w := by positivity
  have hh : (0 : Int) < 2 ^ (w - 1) := by positivity
  cases signed <;> simp only [intMin, intMax, Bool.false_eq_true, if_true, if_false] <;> omega

theorem clampInt_bounds (signed : Bool) (w : Nat) (x : Int) :
    intMin signed w ≤ clampInt signed w x ∧ clampInt signed w x ≤ intMax signed w :=
  ⟨le_max_left _ _, max_le (intMin_le_intMax signed w) (min_le_left _ _)⟩

/-- The bits of a number that the type holds stand for that number: a negative one has its complement, with the top bit set. -/
theorem toInt_wrapInt {signed : Bool} {w : Nat} {x : Int} (hw : 0 < w) (hlo : intMin signed w ≤ x) (hhi : x ≤ intMax signed w) :
    toInt signed w (wrapInt w x) = x := by
  have hcast := wrapInt_cast w x
  have hhalf : (2 : Int) ^ w = 2 * 2 ^ (w - 1) := by rw [← pow_succ', Nat.sub_add_cancel hw]
  have htop : 2 ^ (w - 1) ≤ wrapInt w x ↔ (2 : Int) ^ (w - 1) ≤ wrapInt w x := by exact_mod_cast Iff.rfl
  cases signed with
  | false =>
    simp only [intMin, intMax, Bool.false_eq_true, if_false] at hlo hhi
    simpa [toInt, hcast] using Int.emod_eq_of_lt hlo (by omega)
  | true =>
    simp only [intMin, intMax, if_true] at hlo hhi
    simp only [toInt, Bool.true_and, decide_eq_true_eq, htop, hcast]
    by_cases hneg : x < 0
    · rw [← Int.add_emod_right, Int.emod_eq_of_lt (by omega) (by omega), if_pos (by omega)]
      omega
    · rw [Int.emod_eq_of_lt (by omega) (by omega), if_neg (by omega)]

/-- An element of an integer result is the exact result of the elements brought into the type (R156, R385). -/
theorem elem_intBin (t : Ty) (sat : Bool) (op : Int → Int → Int) (a b : DWord) {i : Nat} (hi : i < t.elems) :
    elem (intBin t sat op a b) t.width i =
      intBits t sat (op (toInt t.signed t.width (elem a t.width i)) (toInt t.signed t.width (elem b t.width i))) := by
  rw [intBin, elem_mapElems t _ a b hi]
  exact Nat.mod_eq_of_lt (wrapInt_lt _ _)

end Sys2Proof.Machine
end

section
open Sys2Proof Sys2Proof.Machine

/-- Settles O6: an element of the result is `intBits` of the exact one, which wraps or clamps. -/
theorem integerElementsWrapOrSaturate : Obligations.IntegerElementsWrapOrSaturate := by
  unfold Obligations.IntegerElementsWrapOrSaturate
  intro t op a b i hi x y
  obtain ⟨hlo, hhi⟩ := clampInt_bounds t.signed t.width (op x y)
  refine ⟨elem_intBin t false op a b hi, ?_⟩
  rw [elem_intBin t true op a b hi]
  exact toInt_wrapInt (Ty.width_pos t) hlo hhi

end

section
/-! PROOFS. Rounding gives a code back (R157, R158). The value that a code stands for has its last place where the format has one, so that
nothing is left to round, in any format and any mode. -/
namespace Sys2Proof.Machine

/-- A whole number of places is not rounded. -/
theorem shiftRound_zero (mode : Nat) (neg : Bool) (m : Nat) : shiftRound mode neg m 0 = m := by simp [shiftRound]

namespace FloatFmt

variable (f : FloatFmt)

/-- A subnormal magnitude is its own code. -/
theorem roundCode_subnormal (mode : Nat) (neg : Bool) {m : Nat} (h0 : m ≠ 0) (h : m < 2 ^ f.mb) : f.roundCode mode neg m f.qmin = m := by
  have hlog : Nat.log2 m < f.mb := (Nat.log2_lt h0).2 h
  have hq : max ((Nat.log2 m : Int) + f.qmin - f.mb) f.qmin = f.qmin := max_eq_right (by omega)
  simp [roundCode, hq, shiftRound_zero]

/-- The code of a normal magnitude: its exponent above its mantissa. -/
theorem roundCode_normal (mode : Nat) (neg : Bool) {ex man : Nat} (hex : ex ≠ 0) (hman : man < 2 ^ f.mb) :
    f.roundCode mode neg (2 ^ f.mb + man) (f.qmin + ex - 1) = ex * 2 ^ f.mb + man := by
  have hlog : Nat.log2 (2 ^ f.mb + man) = f.mb := (Nat.log2_eq_iff (by omega)).2 ⟨by omega, by omega⟩
  have hq : max (((2 ^ f.mb + man).log2 : Int) + (f.qmin + ex - 1) - f.mb) f.qmin = f.qmin + ex - 1 := by
    rw [hlog]; exact (max_eq_left (by omega)).trans (by omega)
  obtain ⟨k, rfl⟩ : ∃ k, ex = k + 1 := ⟨ex - 1, by omega⟩
  have hk : (f.qmin + ((k + 1 : Nat) : Int) - 1 - f.qmin).toNat = k := by omega
  simp only [roundCode, hq, hk, Int.sub_self, shiftRound_zero]
  ring

/-- The magnitude of a code is its exponent above its mantissa. -/
theorem magnitude_eq (n : Nat) : n % 2 ^ (f.eb + f.mb) = n / 2 ^ f.mb % 2 ^ f.eb * 2 ^ f.mb + n % 2 ^ f.mb := by
  rw [Nat.add_comm f.eb, Nat.pow_add, Nat.mod_mul, Nat.add_comm, Nat.mul_comm]

/-- A code is its sign above its magnitude. -/
theorem signBit_add_magnitude {n : Nat} (h : n < 2 ^ (f.eb + f.mb + 1)) :
    f.signBit (n / 2 ^ (f.eb + f.mb) % 2 = 1) + n % 2 ^ (f.eb + f.mb) = n := by
  have hq : n / 2 ^ (f.eb + f.mb) < 2 := Nat.div_lt_of_lt_mul (by rwa [← Nat.pow_succ])
  have hn := Nat.div_add_mod n (2 ^ (f.eb + f.mb))
  generalize n / 2 ^ (f.eb + f.mb) = q at *
  interval_cases q <;> simp [signBit] <;> omega

/-- The codes beyond the largest finite one stand for infinities and NaNs. -/
theorem magnitude_le_maxCode {n : Nat} (hinf : ¬ (f.hasInf = true ∧ n / 2 ^ f.mb % 2 ^ f.eb = 2 ^ f.eb - 1))
    (hnan : ¬ (f.hasInf = false ∧ n % 2 ^ (f.eb + f.mb) = f.nanCode)) : n % 2 ^ (f.eb + f.mb) ≤ f.maxCode := by
  cases hh : f.hasInf with
  | false =>
    have hlt : n % 2 ^ (f.eb + f.mb) < 2 ^ (f.eb + f.mb) := Nat.mod_lt _ (by positivity)
    simp only [hh, nanCode, maxCode, Bool.false_eq_true, if_false, true_and] at hnan ⊢
    omega
  | true =>
    have hex : n / 2 ^ f.mb % 2 ^ f.eb < 2 ^ f.eb := Nat.mod_lt _ (by positivity)
    have hman : n % 2 ^ f.mb < 2 ^ f.mb := Nat.mod_lt _ (by positivity)
    simp only [hh, true_and] at hinf
    have hle : (n / 2 ^ f.mb % 2 ^ f.eb + 1) * 2 ^ f.mb ≤ (2 ^ f.eb - 1) * 2 ^ f.mb := Nat.mul_le_mul_right _ (by omega)
    rw [Nat.add_mul, Nat.one_mul] at hle
    simp only [magnitude_eq, maxCode, hh, if_true]
    omega

/-- A finite value that rounds to a finite code keeps it under its sign. -/
theorem round_fin (mode : Nat) (sat neg : Bool) {m : Nat} {e : Int} (h0 : m ≠ 0) (h : f.roundCode mode neg m e ≤ f.maxCode) :
    f.round mode sat (.fin neg m e) = f.signBit neg + f.roundCode mode neg m e := by
  simp [round, roundOvf, h0, h]

/-- An infinity is not rounded. -/
theorem round_inf (mode : Nat) (neg : Bool) (h : f.hasInf = true) :
    f.round mode false (.inf neg) = f.signBit neg + (2 ^ f.eb - 1) * 2 ^ f.mb := by simp [round, roundOvf, infCode, h]

/-- Rounding the value of any code that is no NaN gives the code back. -/
theorem round_decode (mode : Nat) {n : Nat} (h : n < 2 ^ (f.eb + f.mb + 1)) (hnum : f.decode n ≠ .nan) :
    f.round mode false (f.decode n) = n := by
  have hman : n % 2 ^ f.mb < 2 ^ f.mb := Nat.mod_lt _ (by positivity)
  have hcode := f.signBit_add_magnitude h
  revert hnum
  fun_cases f.decode n with
  | case1 neg ex man hx h0 =>
    intro _
    obtain ⟨hinf, hex⟩ : f.hasInf = true ∧ ex = 2 ^ f.eb - 1 := by simpa using hx
    have hmag : n % 2 ^ (f.eb + f.mb) = (2 ^ f.eb - 1) * 2 ^ f.mb := by
      rw [f.magnitude_eq, show n % 2 ^ f.mb = 0 from h0, show n / 2 ^ f.mb % 2 ^ f.eb = _ from hex, Nat.add_zero]
    rw [f.round_inf _ _ hinf, ← hmag, hcode]
  | case2 => exact fun h => absurd rfl h
  | case3 => exact fun h => absurd rfl h
  | case4 neg ex man hx hn h0 =>
    intro _
    have hmag : n % 2 ^ (f.eb + f.mb) = man := by
      rw [f.magnitude_eq, show n / 2 ^ f.mb % 2 ^ f.eb = 0 from h0, Nat.zero_mul, Nat.zero_add]
    by_cases hz : man = 0
    · simpa [round, roundOvf, hz, hmag] using hcode
    · have hc := f.roundCode_subnormal mode neg hz hman
      have hle := f.magnitude_le_maxCode (n := n) (by simpa using hx) (by simpa using hn)
      rw [f.round_fin _ _ _ hz (by rwa [hc, ← hmag]), hc, ← hmag, hcode]
  | case5 neg ex man hx hn h0 =>
    intro _
    have hc := f.roundCode_normal mode neg h0 hman
    have hle := f.magnitude_le_maxCode (n := n) (by simpa using hx) (by simpa using hn)
    rw [f.magnitude_eq] at hle hcode
    rw [f.round_fin _ _ _ (by have := Nat.two_pow_pos f.mb; omega) (by rwa [hc]), hc, hcode]

end FloatFmt

end Sys2Proof.Machine
end

section
open Sys2Proof Sys2Proof.Machine

/-- Settles O9: both formats have codes of 8 bits, and `FloatFmt.round_decode` holds in every format. -/
theorem narrowFloatsRoundTrip : Obligations.NarrowFloatsRoundTrip := by
  unfold Obligations.NarrowFloatsRoundTrip
  intro t mode n ht _ hn
  have hbits : n < 2 ^ ((floatFmt t).eb + (floatFmt t).mb + 1) := by rcases ht with rfl | rfl <;> exact hn
  exact or_iff_not_imp_left.2 ((floatFmt t).round_decode mode hbits)

end

section
/-! PROOFS. A matrix element on s8 sources (R166): the running sum of an MMA is the sum of its products, taken once modulo 2^32. -/
namespace Sys2Proof.Machine

/-- The product of two s8 elements, as MMA adds it (R166). -/
def s8Product (y : Nat × Nat) : Int := toInt true 8 y.1 * toInt true 8 y.2

theorem foldl_s8Product (l : List (Nat × Nat)) (z : Int) :
    l.foldl (fun x y => x + toInt true 8 y.1 * toInt true 8 y.2) z = z + (l.map s8Product).sum := by
  induction l generalizing z with
  | nil => simp
  | cons y l ih => simp [ih, s8Product, Int.add_assoc]

/-- The element is one exact sum, wrapped once. -/
theorem mmaInt_eq (a b : List Nat) (d : Nat) :
    mmaInt a b (some d) = wrapInt 32 (toInt true 32 d + ((a.zip b).map s8Product).sum) := by
  rw [mmaInt, foldl_s8Product, Option.getD_some]

theorem mmaInt_perm {a b a' b' : List Nat} (d : Nat) (h : (a'.zip b').Perm (a.zip b)) : mmaInt a' b' (some d) = mmaInt a b (some d) := by
  rw [mmaInt_eq, mmaInt_eq, (h.map s8Product).sum_eq]

end Sys2Proof.Machine
end

section
open Sys2Proof Sys2Proof.Machine

/-- Settles O35: the element is `wrapInt` of one sum, and a sum does not depend on the order of its terms. -/
theorem integerMatrixElementIsExact : Obligations.IntegerMatrixElementIsExact := by
  unfold Obligations.IntegerMatrixElementIsExact
  exact fun a b d _ => ⟨by rw [mmaInt_eq, wrapInt_cast]; rfl, fun a' b' h => mmaInt_perm d h⟩

end

section
/-! PROOFS. The order of a reduction (R170): the ranks as a chunk passes them are the ranks in order, turned around the ring. -/
namespace Sys2Proof.Machine

/-- Clockwise, a chunk visits the ranks in rising order from the one after its owner. -/
theorem ringPath_cw (n owner : Nat) : ringPath n owner true = (List.range n).rotate (owner + 1) := by
  refine List.ext_getElem (by simp [ringPath]) fun i _ _ => ?_
  simp only [ringPath, if_true, List.getElem_map, List.getElem_rotate, List.getElem_range, List.length_range]
  congr 1
  omega

/-- Counter-clockwise, a chunk visits the ranks in falling order from the one before its owner. -/
theorem ringPath_ccw (n owner : Nat) : ringPath n owner false = ((List.range n).rotate owner).reverse := by
  refine List.ext_getElem (by simp [ringPath]) fun i hi _ => ?_
  have hi : i < n := by simpa [ringPath] using hi
  simp only [ringPath, Bool.false_eq_true, if_false, List.getElem_map, List.getElem_reverse, List.getElem_rotate, List.getElem_range,
    List.length_rotate, List.length_range]
  rw [show owner + 2 * n - i - 1 = n - 1 - i + owner + n by omega, Nat.add_mod_right]

theorem ringPath_length (n owner : Nat) (cw : Bool) : (ringPath n owner cw).length = n := by simp [ringPath]

theorem ringPath_perm (n owner : Nat) (cw : Bool) : (ringPath n owner cw).Perm (List.range n) := by
  cases cw with
  | true => exact ringPath_cw n owner ▸ List.rotate_perm _ _
  | false => exact ringPath_ccw n owner ▸ (List.reverse_perm _).trans (List.rotate_perm _ _)

/-- Either way round, the step after all the others reaches the owner. -/
theorem ringPath_getLast? {n owner : Nat} (cw : Bool) (h : owner < n) : (ringPath n owner cw).getLast? = some owner := by
  obtain ⟨m, rfl⟩ : ∃ m, n = m + 1 := ⟨n - 1, by omega⟩
  have hcw : owner + m + 1 = owner + (m + 1) := rfl
  have hccw : owner + 2 * (m + 1) - m - 1 = owner + (m + 1) := by omega
  cases cw <;> simp [ringPath, List.range_succ, hcw, hccw, Nat.mod_eq_of_lt h]

end Sys2Proof.Machine
end

section
open Sys2Proof Sys2Proof.Machine

/-- Settles O49: the path is the list of ranks turned, and for a counter-clockwise chunk reversed. -/
theorem reductionOrderVisitsEveryMember : Obligations.ReductionOrderVisitsEveryMember := by
  unfold Obligations.ReductionOrderVisitsEveryMember
  exact fun n owner cw h => ⟨ringPath_perm n owner cw, ringPath_getLast? cw h, ringPath_length n owner cw⟩

end

section
/-! PROOFS. The float, conversion and packing instructions (O8). UNPK4 writes its four registers one after another, from values fixed
before the first write (R460). -/
namespace Sys2Proof.Machine

/-- The vector registers from `r` on, `m` of them, written in turn in every lane that passes. -/
def Cur.wrDests (c : Cur) (k : Com) (r : BitVec 8) (m : Nat) (val : Nat → Nat → DWord) : Cur :=
  (List.range m).foldl (fun d i => d.wrDest k false false (r + BitVec.ofNat 8 i) (val i)) c

theorem Cur.wrDests_succ (c : Cur) (k : Com) (r : BitVec 8) (m : Nat) (val : Nat → Nat → DWord) :
    c.wrDests k r (m + 1) val = (c.wrDests k r m val).wrDest k false false (r + BitVec.ofNat 8 m) (val m) := by
  simp [Cur.wrDests, List.range_succ]

/-- Nothing but vector registers changes, so the same lanes pass at each write. -/
theorem Cur.wrDests_frame (c : Cur) (k : Com) (r : BitVec 8) (m : Nat) (val : Nat → Nat → DWord) :
    c.wrDests k r m val = { c with group := { c.group with v := (c.wrDests k r m val).group.v } } := by
  induction m with
  | zero => rfl
  | succ m ih =>
    rw [Cur.wrDests_succ, Cur.wrDest]
    simp only [Bool.false_eq_true, if_false]
    rw [wrLanes_frame, ih]

theorem Cur.wrDests_pass (c : Cur) (k : Com) (r : BitVec 8) (m : Nat) (val : Nat → Nat → DWord) :
    (c.wrDests k r m val).pass k = c.pass k := by
  rw [Cur.wrDests_frame]
  rfl

/-- What every vector register holds after the writes: the value of its own write, or what it held. -/
theorem Cur.wrDests_vreg (c : Cur) (k : Com) (r : BitVec 8) {m : Nat} (val : Nat → Nat → DWord) (hm : r.toNat + m ≤ 256) {l n : Nat}
    (hl : l < 64) (hn : n < 256) :
    (c.wrDests k r m val).group.vreg l n =
      if (c.pass k).getLsbD l ∧ r.toNat ≤ n ∧ n < r.toNat + m then loWord (val (n - r.toNat) l) else c.group.vreg l n := by
  induction m with
  | zero => rw [if_neg (by omega)]; rfl
  | succ m ih =>
    have hr : (r + BitVec.ofNat 8 m).toNat = r.toNat + m := by
      rw [BitVec.toNat_add, BitVec.toNat_ofNat, Nat.add_mod_mod]
      exact Nat.mod_eq_of_lt (by omega)
    obtain ⟨⟨hv, -, -⟩, -, -⟩ := wrDest_spec (c.wrDests k r m val) k false false (r + BitVec.ofNat 8 m) (val m) (by simp [PairOk])
    rw [Cur.wrDests_succ, hv l n hl hn, ih (by omega), Cur.wrDests_pass, hr]
    by_cases hlast : n = r.toNat + m
    · subst hlast
      simp
    · have hlt : n < r.toNat + (m + 1) ↔ n < r.toNat + m := by omega
      simp [hlast, hlt]

/-- What UNPK4 writes to its register `i` in a lane, from A as it stands before (R460). -/
def Cur.unpk4Val (c : Cur) (f : FmtR) (i l : Nat) : DWord := BitVec.ofNat 64 (unpk4 f.t (c.src f.as false f.a l) i)

theorem loWord_unpk4Val (c : Cur) (f : FmtR) (i l : Nat) :
    loWord (c.unpk4Val f i l) = BitVec.ofNat 32 (unpk4 f.t (c.src f.as false f.a l) i) := by
  apply BitVec.eq_of_toNat_eq
  simp [loWord, Cur.unpk4Val]

theorem exec_unpk4_eq {s : State} {c : Cur} (f : FmtR) (h : s.cur? = some c) (hds : f.ds = false) :
    exec (.unpk4 f) s = .next (s.put (c.wrDests f.com f.d 4 (c.unpk4Val f))) := by
  rw [exec_unpk4, execUnpk4, onSplit_eq s c _ h, hds]
  rfl

/-- UNPK4 completes with its four destinations written (R460). -/
theorem unpk4_completes {s : State} {c : Cur} (f : FmtR) (h : s.cur? = some c) (hds : f.ds = false) (hd : f.d.toNat + 3 < 256) :
    ∃ t d, exec (.unpk4 f) s = .next t ∧ ActsAlone s t c d ∧ TeamAsBefore c d ∧ d.split = c.split ∧
      d.group = { c.group with v := d.group.v, splits := d.group.splits } ∧
      ∀ l n, l < 64 → n < 256 → d.group.vreg l n =
        if (c.pass f.com).getLsbD l ∧ f.d.toNat ≤ n ∧ n < f.d.toNat + 4 then
          BitVec.ofNat 32 (unpk4 f.t (c.src f.as false f.a l) (n - f.d.toNat))
        else c.group.vreg l n := by
  have hput := actsAlone_put s c { c.group with v := (c.wrDests f.com f.d 4 (c.unpk4Val f)).group.v } c.split rfl
  rw [← Cur.wrDests_frame] at hput
  refine ⟨_, _, exec_unpk4_eq f h hds, hput, rfl, rfl, rfl, fun l n hl hn => ?_⟩
  rw [← loWord_unpk4Val]
  exact Cur.wrDests_vreg c f.com f.d (c.unpk4Val f) (by omega) hl hn

end Sys2Proof.Machine
end

section
open Sys2Proof Sys2Proof.Machine

/-- Settles O8: every form is `aluR` with the values of its rule, CVTEF with a pair as destination and PACK4 with one register whatever
the type; UNPK4 is four writes in turn (`Cur.wrDests`). -/
theorem floatInstructionsComplete : Obligations.FloatInstructionsComplete := by
  unfold Obligations.FloatInstructionsComplete
  refine ⟨fun s c f h => ⟨fun hp => ?_, fun hp => ?_, ?_⟩, fun s c f h hds hd => unpk4_completes f h hds hd⟩
  · and_intros
    all_goals exact aluR_computes _ f _ s c _ _ h hp rfl rfl
  · exact aluR_computes _ f true s c _ _ h hp rfl rfl
  · exact aluR_computes _ f false s c _ _ h (by simp [PairOk]) rfl rfl

end

section
/-! PROOFS. The events of the memory system (R180 to R182, R190, R191, R215): a recall of a dirty line, the weathervane's decay, the request
for a page's migration, and an invalidation in the TLBs of a device. -/
namespace Sys2Proof.Machine

variable {s : State}

/-! ### Maps -/

/-- A change in place keeps the keys rising. -/
theorem mwf_mmod {α : Type} {m : SMap α} (k : Nat) (f : α → α) (h : mwf m = true) : mwf (mmod m k f) = true := by
  have hkeys : (mmod m k f).map Prod.fst = m.map Prod.fst := by
    simp only [mmod, List.map_map]
    refine List.map_congr_left fun p _ => ?_
    simp only [Function.comp]
    split <;> rfl
  rw [mwf_iff_pairwise] at h ⊢
  rwa [hkeys]

/-- A lookup after some entries are taken out: no second value stands behind one with the same key. -/
theorem mget?_filter {α : Type} {m : SMap α} (f : Nat × α → Bool) (h : mwf m = true) (k : Nat) :
    mget? (m.filter f) k = (mget? m k).filter fun v => f (k, v) := by
  induction m with
  | nil => rfl
  | cons p m ih =>
    obtain ⟨j, v⟩ := p
    have htail := ih (mwf_tail _ _ h)
    by_cases hj : j = k
    · subst hj
      have hgone : mget? m j = none := mget?_below m j (mwf_tail _ _ h) fun q hq => mwf_head _ _ _ h hq
      cases hf : f (j, v) <;> simp [mget?, hf, htail, hgone, Option.filter]
    · cases hf : f (j, v) <;> simp [mget?, hf, htail, hj]

/-- Every die of a list changed. -/
theorem foldl_modDie (f : Die → Die) (ds : List Nat) (s : State) :
    ds.foldl (fun s d => s.modDie d f) s = { s with dies := ds.foldl (fun m d => mput m d (f (mget {} m d))) s.dies } := by
  induction ds generalizing s with
  | nil => rfl
  | cons d ds ih => exact ih _

/-! ### Recalls (R190, R191) -/

/-- A dirty line written back, then given up by its window. -/
theorem State.stashRecall_dirty {team win line pa : Nat} {tm : Team} {w : StashWin} (htm : mget? s.teams team = some tm)
    (hw : mget? tm.wins win = some w) (hl : mget? w.lines line = some ⟨pa, true⟩) : s.stashRecall team win line =
      (({ s with hbm := wrBytes s.hbm pa (s.arrRead tm (w.lo + 128 * line) 128) } : State).modTeam team fun t =>
          { t with wins := mmod t.wins win fun w => { w with lines := mmod w.lines line fun l => { l with dirty := false } } }).modTeam team fun t =>
        { t with wins := mmod t.wins win fun w => { w with lines := mdel w.lines line } } := by
  simp only [State.stashRecall, State.stashWriteBack, htm, hw, hl, if_true]

theorem exec_stashRecall_dirty {team win line pa : Nat} {tm : Team} {w : StashWin} (hmem : s.memOk = true)
    (htm : mget? s.teams team = some tm) (hw : mget? tm.wins win = some w) (hl : mget? w.lines line = some ⟨pa, true⟩) :
    ∃ t : State, exec (.stashRecall team win line) s = .next t ∧
      (∀ i, i < 128 → rdByte t.hbm (pa + i) = rdByte (s.core tm.coreKey).arr (tm.base + (w.lo + 128 * line) + i)) ∧
      (∀ a, a < pa ∨ pa + 128 ≤ a → rdByte t.hbm a = rdByte s.hbm a) ∧ t.cores = s.cores ∧
      (mwf w.lines = true → ∃ tm' w', mget? t.teams team = some tm' ∧ mget? tm'.wins win = some w' ∧ mget? w'.lines line = none) := by
  have hwf := State.memOk_hbm hmem
  let bs := s.arrRead tm (w.lo + 128 * line) 128
  have hlen : bs.length = 128 := by simp [bs, State.arrRead, rdBytes]
  refine ⟨_, congrArg Host.Outcome.next (State.stashRecall_dirty htm hw hl), fun i hi => ?_, fun a ha => ?_, rfl, fun hlines => ?_⟩
  · have hread : rdByte (wrBytes s.hbm pa bs) (pa + i) = bs[i]?.getD 0 := rdByte_wrBytes_inside hwf (by omega)
    exact hread.trans (by simp [bs, State.arrRead, rdBytes, hi])
  · exact rdByte_wrBytes_outside (bs := bs) hwf (by omega)
  · simp only [State.modTeam_teams, mget?_mmod, if_true, htm, Option.map_some]
    refine ⟨_, _, rfl, by simp only [mget?_mmod, if_true, hw, Option.map_some]; rfl, ?_⟩
    rw [mget?_mdel _ _ _ (mwf_mmod _ _ hlines), if_pos rfl]

/-! ### Counters of the weathervane and of migrating pages (R180, R215) -/

theorem exec_weathervaneDecay_falls (die i : Nat) (hwf : mwf (s.die die).vane = true) :
    ∃ t : State, exec (.weathervaneDecay die) s = .next t ∧ SameMemory s t ∧ t.teams = s.teams ∧
      mget 0 (t.die die).vane i = mget 0 (s.die die).vane i - 1 := by
  have hmap : mwf (mmap (s.die die).vane fun v => v - 1) = true := by
    rw [mwf_iff_pairwise] at hwf ⊢
    simpa [mmap, List.map_map, Function.comp_def] using hwf
  refine ⟨_, rfl, ⟨fun _ => rfl, fun _ _ => rfl⟩, rfl, ?_⟩
  rw [State.die_modDie_self, mget, mget?_filter _ hmap, mget?_mmap, mget]
  cases mget? (s.die die).vane i with
  | none => rfl
  | some v => by_cases hv : v - 1 = 0 <;> simp [Option.filter, hv]

theorem exec_migrationRequest_due {die ctx vpn : Nat} {e : DWord} (hleaf : s.walk die ctx (vpn * 65536) = .leaf e) (hfm : field e 8 2 = 3)
    (hcount : 2 ^ (8 + 2 * field e 10 2) ≤ mget 0 (s.die die).migr (ctx * 2 ^ 41 + vpn))
    (hnew : (ctx * 2 ^ 41 + vpn) ∉ (s.die die).migrReq) :
    ∃ t : State, exec (.migrationRequest die ctx vpn) s = .next t ∧ SameMemory s t ∧ t.teams = s.teams ∧
      (t.die die).migrReq = (ctx * 2 ^ 41 + vpn) :: (s.die die).migrReq := by
  have hexec : exec (.migrationRequest die ctx vpn) s =
      .next (s.modDie die fun d => { d with migrReq := (ctx * 2 ^ 41 + vpn) :: d.migrReq }) := by
    simp [-Nat.reducePow, execMigrationRequest, hleaf, hfm, hcount, hnew]
  refine ⟨_, hexec, ⟨fun _ => rfl, fun _ _ => rfl⟩, rfl, ?_⟩
  rw [State.die_modDie_self]

/-! ### Invalidations (R181, R182) -/

/-- What an invalidation leaves lies outside its range, and of single pages it takes none but those in it. -/
theorem mem_tlbInvalidate {m : SMap DWord} {ctx lo len : Nat} {e : Nat × DWord} (he : e ∈ m) :
    (e ∈ tlbInvalidate m ctx lo len → ¬ (e.1 / 2 ^ 41 = ctx ∧ inPages lo len (e.1 % 2 ^ 41) = true)) ∧
    (e.2.getLsbD 4 = false → e ∉ tlbInvalidate m ctx lo len → e.1 / 2 ^ 41 = ctx ∧ inPages lo len (e.1 % 2 ^ 41) = true) := by
  have hhit : (e.1 / 2 ^ 41 = ctx && lo ≤ e.1 % 2 ^ 41 && e.1 % 2 ^ 41 < lo + len) = true ↔
      e.1 / 2 ^ 41 = ctx ∧ inPages lo len (e.1 % 2 ^ 41) = true := by
    simp only [inPages, Bool.and_assoc, Bool.and_eq_true, decide_eq_true_eq]
  rw [← hhit]
  simp only [tlbInvalidate, List.mem_filter, he, true_and]
  constructor
  · intro hkept hin
    rw [hin, Bool.true_or] at hkept
    exact Bool.noConfusion hkept
  · intro hsmall hgone
    simpa only [hsmall, Bool.false_and, Bool.or_false, Bool.not_eq_true', Bool.not_eq_false] using hgone

theorem State.nodup_diesOf (dev : Nat) : (s.diesOf dev).Nodup := List.nodup_range.filter _

/-- The cores of some dies changed. -/
theorem core_map_of_dies (ds : List Nat) (f : CoreSt → CoreSt) (hf : f {} = {}) (m : SMap CoreSt) (k : Nat) :
    mget {} (m.map fun q => (q.1, if ds.contains (q.1 / Config.cores) then f q.2 else q.2)) k =
      if ds.contains (k / Config.cores) then f (mget {} m k) else mget {} m k := by
  rw [mget, mget?_map_keyed m (fun j c => if ds.contains (j / Config.cores) then f c else c), mget]
  cases mget? m k with
  | none =>
    split
    · exact hf.symm
    · rfl
  | some c => rfl

theorem coreKey_div {die core : Nat} (h : core < Config.cores) : coreKey die core / Config.cores = die := by
  simp only [coreKey, Config.cores] at h ⊢
  omega

theorem exec_tlbInvalidateCommand_drops {ctx lo len : Nat} (hfree : (s.teams.any fun t => t.2.ctx = ctx && t.2.holdsPage lo len) = false)
    (hbuf : s.wbuf = []) :
    ∃ t : State, exec (.tlbInvalidateCommand ctx lo len) s = .next t ∧ SameMemory s t ∧ t.teams = s.teams ∧
      ∀ die ∈ s.diesOf (ctxDevice ctx), (t.die die).tlb = tlbInvalidate (s.die die).tlb ctx lo len ∧
        ∀ core, core < Config.cores →
          (t.core (coreKey die core)).tlb = tlbInvalidate (s.core (coreKey die core)).tlb ctx lo len := by
  let ds := s.diesOf (ctxDevice ctx)
  let onDie (y : Die) : Die := { y with tlb := tlbInvalidate y.tlb ctx lo len }
  let onCore (y : CoreSt) : CoreSt := { y with tlb := tlbInvalidate y.tlb ctx lo len }
  let t : State := { s with
    dies := ds.foldl (fun m d => mput m d (onDie (mget {} m d))) s.dies
    cores := s.cores.map fun k => (k.1, if ds.contains (k.1 / Config.cores) then onCore k.2 else k.2) }
  have hexec : exec (.tlbInvalidateCommand ctx lo len) s = .next t := by
    rw [exec_tlbInvalidateCommand, execTlbInvalidateCommand, hfree, hbuf]
    simp only [List.any_nil, Bool.or_self, Bool.false_eq_true, if_false, foldl_modDie]
    rfl
  have hcore (k : Nat) : t.core k = if ds.contains (k / Config.cores) then onCore (s.core k) else s.core k :=
    core_map_of_dies ds onCore rfl s.cores k
  have hdie (d : Nat) : t.die d = if d ∈ ds then onDie (s.die d) else s.die d :=
    mget_foldl_mput ({} : Die) onDie ds (State.nodup_diesOf _) s.dies d
  refine ⟨t, hexec, ⟨fun _ => rfl, fun k a => ?_⟩, rfl, fun die hd => ⟨?_, fun core hc => ?_⟩⟩
  · rw [hcore]
    split <;> rfl
  · rw [hdie, if_pos hd]
  · rw [hcore, coreKey_div hc, if_pos (List.contains_iff_mem.mpr hd)]

end Sys2Proof.Machine
end

section
open Sys2Proof Sys2Proof.Machine

/-- Settles O29: each event by its lemma, and what an invalidation leaves in a TLB by `mem_tlbInvalidate`. -/
theorem memoryEventsComplete : Obligations.MemoryEventsComplete := by
  unfold Obligations.MemoryEventsComplete
  intro s
  refine ⟨fun team win line tm w pa => exec_stashRecall_dirty, exec_weathervaneDecay_falls,
    fun die ctx vpn e => exec_migrationRequest_due, fun ctx lo len hfree hbuf => ?_⟩
  obtain ⟨t, hexec, hmem, hteams, hdrops⟩ := exec_tlbInvalidateCommand_drops hfree hbuf
  refine ⟨t, hexec, hmem, hteams, fun die hd => ?_⟩
  obtain ⟨hdie, hcores⟩ := hdrops die hd
  exact ⟨hdie, hcores, fun m e he => mem_tlbInvalidate he⟩

end

section
/-! PROOFS. What accesses at the home slices leave of the teams (R190, R191, R206 to R210): a recall takes lines from windows, a write
clears reservations, and whatever is raised or recalled, every team and every local array is otherwise as before. One lemma for each
operation, in the order of the model's definitions. -/
namespace Sys2Proof.Machine

variable {α β : Type} {s t : State}

/-- A team without its windows and without reservations. -/
def Team.unlined (tm : Team) : Team := { tm.bare with wins := [] }

/-- From `s` to `t` the teams differ in their windows and reservations alone, and no local array has changed. -/
structure Recalled (s t : State) : Prop where
  teams : mmap t.teams Team.unlined = mmap s.teams Team.unlined
  arr : SameArrays s t

theorem Recalled.refl (s : State) : Recalled s s := ⟨rfl, fun _ => rfl⟩

/-- The relation sees teams and cores alone. -/
theorem Recalled.congr (h : Recalled s t) {u : State} (ht : u.teams = t.teams) (hc : u.cores = t.cores) : Recalled s u := by
  refine ⟨ht ▸ h.teams, fun k => ?_⟩
  rw [State.core, hc]
  exact h.arr k

theorem foldl_recalled {f : State → β → State} {l : List β} (h : Recalled s t) (hf : ∀ u b, Recalled s u → Recalled s (f u b)) :
    Recalled s (l.foldl f t) :=
  List.foldlRecOn (motive := Recalled s) l f h fun u hu b _ => hf u b hu

/-- Teams changed one by one, in their windows and reservations. -/
theorem mapTeams_recalled {f : Nat × Team → Nat × Team} (h : Recalled s t)
    (hf : ∀ p, ((f p).1, (f p).2.unlined) = (p.1, p.2.unlined)) : Recalled s { t with teams := t.teams.map f } := by
  refine ⟨Eq.trans ?_ h.teams, h.arr⟩
  simp only [mmap, List.map_map]
  exact List.map_congr_left fun p _ => hf p

theorem State.modTeam_recalled {tid : Nat} {f : Team → Team} (h : Recalled s t) (hf : ∀ y, (f y).unlined = y.unlined) :
    Recalled s (t.modTeam tid f) := by
  refine mapTeams_recalled (f := fun p => if p.1 = tid then (p.1, f p.2) else p) h fun p => ?_
  split
  · rw [hf]
  · rfl

theorem State.modCore_recalled {k : Nat} {f : CoreSt → CoreSt} (h : Recalled s t) (hf : ∀ c, (f c).arr = c.arr) :
    Recalled s (t.modCore k f) :=
  ⟨h.teams, fun j => (sameArrays_modCore hf j).trans (h.arr j)⟩

theorem State.clearResv_recalled {only : Option Nat} {gs : List Nat} (h : Recalled s t) : Recalled s (t.clearResv only gs) := by
  have hunlined (m : SMap Team) : mmap m Team.unlined = mmap (mmap m Team.bare) fun y => { y with wins := [] } := by
    simp only [mmap, List.map_map]
    rfl
  refine ⟨?_, h.arr⟩
  rw [hunlined, mmap_bare_clearResv, ← hunlined]
  exact h.teams

theorem State.hbmWrite_recalled {pa : Nat} {bs : List Byte} (h : Recalled s t) : Recalled s (t.hbmWrite pa bs) :=
  State.clearResv_recalled (h.congr rfl rfl)

theorem State.stashWriteBack_recalled {tid w n : Nat} (h : Recalled s t) : Recalled s (t.stashWriteBack tid w n) := by
  fun_cases t.stashWriteBack tid w n with
  | case4 y _ win _ l => exact State.modTeam_recalled (h.congr rfl rfl) fun _ => rfl
  | _ => exact h

theorem State.stashRecall_recalled {tid w n : Nat} (h : Recalled s t) : Recalled s (t.stashRecall tid w n) :=
  State.modTeam_recalled (State.stashWriteBack_recalled h) fun _ => rfl

theorem State.recallFor_recalled {tid : Option Nat} {pa n : Nat} (h : Recalled s t) : Recalled s (t.recallFor tid pa n) := by
  refine foldl_recalled h fun u line hu => ?_
  have howned : Recalled s { u with owned := mdel u.owned line } := hu.congr rfl rfl
  dsimp only
  split
  · split
    · exact howned
    · exact State.stashRecall_recalled howned
  · exact howned

theorem State.homePut_recalled {pa : Nat} {bs : List Byte} (h : Recalled s t) : Recalled s (t.homePut pa bs) :=
  State.hbmWrite_recalled (State.recallFor_recalled h)

theorem State.l1Store_recalled {core pa : Nat} {bs : List Byte} {bypass : Bool} (h : Recalled s t) :
    Recalled s (t.l1Store core pa bs bypass) := by
  refine State.modCore_recalled h fun c => ?_
  split <;> rfl

theorem State.l1Refresh_recalled {core : Option Nat} {pa : Nat} {bs : List Byte} (h : Recalled s t) :
    Recalled s (t.l1Refresh core pa bs) := by
  obtain ⟨-, -, harr⟩ := l1Refresh_spec t core pa bs
  refine ⟨?_, fun k => (harr k).trans (h.arr k)⟩
  cases core with
  | none => exact h.teams
  | some k =>
    dsimp only [State.l1Refresh]
    split <;> exact h.teams

theorem State.vWrite_recalled {d x va : Nat} {bs : List Byte} {core : Option Nat} (h : Recalled s t) {u : State}
    (hu : t.vWrite d x va bs core = some u) : Recalled s u := by
  obtain ⟨l, -, rfl⟩ := Option.map_eq_some_iff.mp hu
  refine List.foldlRecOn (motive := fun q : State × List Byte => Recalled s q.1) l _ h fun q hq c _ => ?_
  dsimp only
  split
  · exact State.l1Refresh_recalled ((State.homePut_recalled hq).congr rfl rfl)
  · exact hq

theorem State.landStore_recalled {e : Buffered} (h : Recalled s t) : Recalled s (t.landStore e) :=
  foldl_recalled (State.homePut_recalled h) fun _ _ hu => State.l1Store_recalled hu

theorem State.seenResv_recalled {e : Buffered} (h : Recalled s t) : Recalled s (t.seenResv e) := by
  refine mapTeams_recalled h fun p => ?_
  simp only [Team.unlined, Team.bare, mmap, List.map_map, Prod.mk.injEq, true_and, Team.mk.injEq, and_true]
  refine List.map_congr_left fun g _ => ?_
  simp only [Function.comp]
  split <;> rfl

theorem State.raiseFor_recalled {tid gi lvl : Nat} (h : Recalled s t) : Recalled s (t.raiseFor tid gi lvl) := by
  unfold State.raiseFor State.raise
  split
  · exact h
  · split
    · exact foldl_recalled (h.congr rfl rfl) fun _ _ hu => State.landStore_recalled hu
    · exact foldl_recalled (h.congr rfl rfl) fun _ _ hu => State.seenResv_recalled hu

theorem State.raiseTeam_recalled {tid : Nat} (h : Recalled s t) : Recalled s (t.raiseTeam tid) := by
  rw [State.raiseTeam]
  split
  · exact h
  · exact foldl_recalled h fun _ _ hu => State.raiseFor_recalled hu

theorem State.stashFlush_recalled {tid : Nat} (h : Recalled s t) : Recalled s (t.stashFlush tid) := by
  rw [State.stashFlush]
  split
  · exact h
  · exact foldl_recalled h fun _ _ hu => foldl_recalled hu fun _ _ hv => State.stashWriteBack_recalled hv

theorem State.faultPush_recalled {d x : Nat} {rec : List Byte} (h : Recalled s t) : Recalled s (t.faultPush d x rec) := by
  rw [State.faultPush]
  split
  · exact h
  · split
    · next u hu => exact (State.vWrite_recalled h hu).congr rfl rfl
    · exact h

end Sys2Proof.Machine
end

section
/-! PROOFS. What pre-emption and the end of a context leave of the teams (R315, R322): each team keeps its context, its status, its place and
its saved bytes, and every local array keeps its bytes. -/
namespace Sys2Proof.Machine

variable {β : Type} {s t : State}

/-- A team with all that runs in it left out: its context and task, its place, its status and its saved bytes. -/
def Team.husk (y : Team) : Team :=
  { y with
    after := none, frame := none, bars := [], wins := [], groups := [], mops := [], cmds := [], bufs := [], runs := []
    ep := {}, issues := [] }

/-- From `s` to `t` every team keeps its husk, no team is new, and no local array has changed. -/
structure Keeps (s t : State) : Prop where
  found : ∀ k, (mget? t.teams k).map Team.husk = (mget? s.teams k).map Team.husk
  listed : ∀ p ∈ t.teams, ∃ q ∈ s.teams, q.2.husk = p.2.husk
  arr : SameArrays s t

theorem Keeps.refl (s : State) : Keeps s s := ⟨fun _ => rfl, fun p hp => ⟨p, hp, rfl⟩, fun _ => rfl⟩

theorem Keeps.trans {u : State} (h : Keeps s t) (h' : Keeps t u) : Keeps s u := by
  refine ⟨fun k => (h'.found k).trans (h.found k), fun p hp => ?_, fun k => (h'.arr k).trans (h.arr k)⟩
  obtain ⟨q, hq, hqp⟩ := h'.listed p hp
  obtain ⟨r, hr, hrq⟩ := h.listed q hq
  exact ⟨r, hr, hrq.trans hqp⟩

/-- The relation sees teams and cores alone. -/
theorem Keeps.congr (h : Keeps s t) {u : State} (ht : u.teams = t.teams) (hc : u.cores = t.cores) : Keeps s u := by
  refine ⟨fun k => ht ▸ h.found k, fun p hp => h.listed p (ht ▸ hp), fun k => ?_⟩
  rw [State.core, hc]
  exact h.arr k

theorem foldl_keeps {f : State → β → State} {l : List β} (h : Keeps s t) (hf : ∀ u b, Keeps s u → Keeps s (f u b)) :
    Keeps s (l.foldl f t) :=
  List.foldlRecOn (motive := Keeps s) l f h fun u hu b _ => hf u b hu

theorem State.modTeam_keeps {tid : Nat} {f : Team → Team} (h : Keeps s t) (hf : ∀ y, (f y).husk = y.husk) : Keeps s (t.modTeam tid f) := by
  have hf' (p : Nat × Team) : (if p.1 = tid then (p.1, f p.2) else p).1 = p.1 ∧ (if p.1 = tid then (p.1, f p.2) else p).2.husk = p.2.husk := by
    split
    · exact ⟨rfl, hf p.2⟩
    · exact ⟨rfl, rfl⟩
  refine ⟨fun k => (mget?_map_keep Team.husk _ hf' t.teams k).trans (h.found k), fun p hp => ?_, h.arr⟩
  obtain ⟨q, hq, rfl⟩ := List.mem_map.mp hp
  obtain ⟨r, hr, hrq⟩ := h.listed q hq
  exact ⟨r, hr, hrq.trans (hf' q).2.symm⟩

theorem State.modCore_keeps {k : Nat} {f : CoreSt → CoreSt} (h : Keeps s t) (hf : ∀ c, (f c).arr = c.arr) : Keeps s (t.modCore k f) :=
  ⟨h.found, h.listed, fun j => (sameArrays_modCore hf j).trans (h.arr j)⟩

/-- A team's windows and reservations are no part of its husk. -/
theorem Recalled.keeps (h : Recalled s t) : Keeps s t := by
  refine ⟨fun k => ?_, fun p hp => ?_, h.arr⟩
  · have hunlined (m : SMap Team) : (mget? m k).map Team.husk = (mget? (mmap m Team.unlined) k).map Team.husk := by
      rw [mget?_mmap, Option.map_map]
      rfl
    rw [hunlined, h.teams, ← hunlined]
  · have hmem : (p.1, p.2.unlined) ∈ mmap s.teams Team.unlined := h.teams ▸ List.mem_map_of_mem (f := fun p => (p.1, p.2.unlined)) hp
    obtain ⟨q, hq, he⟩ := List.mem_map.mp hmem
    have hhusk : q.2.unlined.husk = p.2.unlined.husk := congrArg Team.husk (Prod.mk.inj he).2
    exact ⟨q, hq, hhusk⟩

/-! ### `Machine/Conn` -/

theorem State.modFab_keeps {f : Fabric → Fabric} (h : Keeps s t) : Keeps s (t.modFab f) := h.congr rfl rfl

theorem State.unask_keeps {f : PeerAsk → Bool} (h : Keeps s t) : Keeps s (t.unask f) := by
  rw [State.unask]
  split
  · exact h
  · exact State.modFab_keeps h

theorem State.connWrite_keeps {c : Conn} {va : Nat} {bs : List Byte} (h : Keeps s t) : Keeps s (t.connWrite c va bs) := by
  rw [State.connWrite]
  cases hw : t.vWrite c.die c.ctx va bs with
  | none => exact h
  | some u => exact h.trans (State.vWrite_recalled (.refl t) hw).keeps

theorem State.showConn_keeps {k : Nat} (h : Keeps s t) : Keeps s (t.showConn k) := by
  rw [State.showConn]
  split
  · exact h
  · exact State.connWrite_keeps h

theorem State.waitAcquire_keeps {r : Req} (h : Keeps s t) : Keeps s (t.waitAcquire r) := by
  rw [State.waitAcquire]
  split
  · split
    · exact ⟨h.found, h.listed, fun k => (sameArrays_l1Clear t _ k).trans (h.arr k)⟩
    · exact h
  · exact h

theorem State.postOne_keeps {k : Nat} {c : Conn} {r : Req} (h : Keeps s t) : Keeps s (t.postOne k c r) := by
  refine State.showConn_keeps (State.modTeam_keeps (State.modTeam_keeps ?_ fun _ => rfl) fun _ => rfl)
  exact State.modFab_keeps (State.connWrite_keeps (State.waitAcquire_keeps h))

theorem State.postReady_keeps {k n : Nat} (h : Keeps s t) : Keeps s (t.postReady k n) := by
  induction n generalizing t with
  | zero => exact h
  | succ n ih =>
    rw [State.postReady]
    split
    · exact h
    · split
      · exact h
      · split
        · exact h
        · exact ih (State.postOne_keeps h)

theorem State.settleConn_keeps {k : Nat} (h : Keeps s t) : Keeps s (t.settleConn k) := by
  have hshow : Keeps s ((t.modConn k fun c => { c with ack := max c.ack c.ackSeq }).showConn k) := State.showConn_keeps (State.modFab_keeps h)
  rw [State.settleConn]
  split
  · exact State.postReady_keeps hshow
  · exact hshow

theorem State.endFabric_keeps {x : Nat} (h : Keeps s t) : Keeps s (t.endFabric x) := by
  rw [State.endFabric]
  refine State.modFab_keeps (foldl_keeps ?_ fun _ _ hu => State.settleConn_keeps (State.modFab_keeps (State.modFab_keeps hu)))
  split
  · exact h
  · exact State.modFab_keeps h

/-! ### Splits put back -/

/-- A split that is found may be put back with its group and itself changed. -/
theorem State.put_found_keeps {r : Ref} {c : Cur} (h : Keeps s t) (hc : t.lookup? r = some c) (g : Group) (p : Split) :
    Keeps s (t.put { c with group := g, split := p }) := by
  have hteam := lookup?_team hc
  have href := lookup?_ref t r c hc
  refine h.trans ⟨fun k => ?_, fun q hq => ?_, fun _ => rfl⟩
  · rw [State.put_teams, mget?_mput, href]
    split
    · next hk => rw [← hk, hteam]; rfl
    · rfl
  · rcases mem_mput hq with hq | rfl
    · exact ⟨q, hq, rfl⟩
    · exact ⟨_, mem_of_mget? hteam, rfl⟩

theorem State.modSplit_keeps {r : Ref} {f : Split → Split} (h : Keeps s t) : Keeps s (t.modSplit r f) := by
  rw [State.modSplit]
  split
  · exact h
  · next c hc => exact State.put_found_keeps h hc c.group (f c.split)

theorem State.modGroup_keeps {tid gi : Nat} {f : Group → Group} (h : Keeps s t) : Keeps s (t.modGroup tid gi f) :=
  State.modTeam_keeps h fun _ => rfl

theorem State.dropResv_keeps {r : Ref} (h : Keeps s t) : Keeps s (t.dropResv r) := State.modTeam_keeps h fun _ => rfl

theorem State.restartScalars_keeps {r : Ref} (h : Keeps s t) : Keeps s (t.restartScalars r) := by
  rw [State.restartScalars]
  split
  · exact h
  · exact foldl_keeps h fun _ _ hu => State.modSplit_keeps (hu.congr rfl rfl)

/-- A region discarded for a pre-emption: the split is put back, and its loads reserve nothing. -/
theorem State.discard_keeps {r : Ref} (h : Keeps s t) : Keeps s (t.discard r true) := by
  rw [State.discard]
  split
  · exact h
  · next c hc =>
    have hput := fun g p => State.dropResv_keeps (r := r) (State.put_found_keeps h hc g p)
    extract_lets p c₁ stays atE gone held clr c₂ c₃
    simp only [if_true]
    split
    · exact hput _ _
    · split
      · exact hput _ _
      · split
        · exact hput _ _
        · exact State.restartScalars_keeps (hput _ _)

/-! ### `Machine/Preempt` -/

theorem State.forget_keeps {tid gi : Nat} (h : Keeps s t) : Keeps s (t.forget tid gi) := by
  rw [State.forget]
  split
  · exact h
  · extract_lets lives keep draw r r₁
    have hdraw (a : State × SMap Word) (key : Nat) (w : Word) (ha : Keeps s a.1) : Keeps s (draw a key w).1 := by
      dsimp only [draw]
      split
      · exact ha
      · exact ha.congr rfl rfl
    have hr : Keeps s r.1 :=
      List.foldlRecOn (motive := fun q : State × SMap Word => Keeps s q.1) _ _ h fun q hq e _ => hdraw q e.1 e.2 hq
    have hr₁ : Keeps s r₁.1 := by
      refine List.foldlRecOn (motive := fun q : State × SMap Word => Keeps s q.1) _ _ hr fun q hq e _ => ?_
      split
      · exact hq
      · exact hdraw q e.1 0 hq
    split
    · exact h
    · exact State.modGroup_keeps hr₁

theorem State.writeFrame_keeps {tid : Nat} (h : Keeps s t) : Keeps s (t.writeFrame tid) := by
  rw [State.writeFrame]
  split
  · exact h
  · dsimp only
    split
    · exact h
    · next y _ _ =>
      have hfree : Keeps s (t.freeBytes y.frameBytes).1 := h.congr rfl rfl
      split
      · next u hu => exact State.modTeam_keeps (hfree.trans (State.vWrite_recalled (.refl _) hu).keeps) fun _ => rfl
      · exact h

/-- The last change of a pre-emption, behind changes that keep husks and arrays, saves the team with its local bytes. -/
theorem saves_of_keeps {u : State} {tid k : Nat} {y : Team} {g : CoreSt → CoreSt} {f : Team → Team} (hu : Keeps s u)
    (hg : ∀ c, (g c).arr = c.arr) (hf : ∀ z, (f z).husk = { z.husk with status := .saved, saved := u.arrRead y 0 y.bytes }) :
    ∃ v f', Keeps s v ∧ (u.modCore k g).modTeam tid f = v.modTeam tid f' ∧
      ∀ z, (f' z).husk = { z.husk with status := .saved, saved := s.arrRead y 0 y.bytes } := by
  refine ⟨_, f, State.modCore_keeps hu hg, rfl, fun z => ?_⟩
  rw [hf, State.arrRead, hu.arr]
  rfl

theorem State.preempt_saves {tid : Nat} {y : Team} (hy : mget? s.teams tid = some y) (after : Option Nat) :
    ∃ (u : State) (f : Team → Team), Keeps s u ∧ s.preempt tid after = u.modTeam tid f ∧
      ∀ z, (f z).husk = { z.husk with status := .saved, saved := s.arrRead y 0 y.bytes } := by
  simp only [State.preempt, hy]
  refine saves_of_keeps (State.writeFrame_keeps ?_) (fun _ => rfl) fun _ => rfl
  refine foldl_keeps ?_ fun _ _ hu => foldl_keeps hu fun v _ hv => hv.trans (State.stashRecall_recalled (.refl v)).keeps
  refine foldl_keeps ?_ fun _ _ hu => State.forget_keeps hu
  refine foldl_keeps ?_ fun _ _ hu => State.modGroup_keeps hu
  refine foldl_keeps ?_ fun _ _ hu => foldl_keeps hu fun _ _ hv => State.discard_keeps hv
  exact State.unask_keeps (State.raiseTeam_recalled (.refl s)).keeps

/-- A team that stands where it stood reads the local bytes that it read. -/
theorem Keeps.arrRead_eq {u : State} {x y : Team} {st : TeamStatus} {sv : List Byte} (hu : Keeps s u)
    (hx : x.husk = { y.husk with status := st, saved := sv }) : u.arrRead x 0 x.bytes = s.arrRead y 0 y.bytes := by
  have hkey : x.coreKey = y.coreKey := (congrArg Team.coreKey hx :)
  have hbase : x.base = y.base := (congrArg Team.base hx :)
  have hbytes : x.bytes = y.bytes := (congrArg Team.bytes hx :)
  rw [State.arrRead, State.arrRead, hu.arr, hkey, hbase, hbytes]

/-- A pre-emption leaves every array, and every team where it was; the team that it names keeps its local bytes, every other what it
had saved. -/
theorem State.preempt_array {tid k : Nat} {y : Team} (hy : mget? s.teams k = some y) (after : Option Nat) :
    ∃ z, mget? (s.preempt tid after).teams k = some z ∧ (s.preempt tid after).arrRead z 0 z.bytes = s.arrRead y 0 y.bytes ∧
      z.saved = if tid = k then s.arrRead y 0 y.bytes else y.saved := by
  cases ht : mget? s.teams tid with
  | none =>
    have hne : tid ≠ k := fun h => by rw [h, hy] at ht; cases ht
    have heq : s.preempt tid after = s := by simp only [State.preempt, ht]
    exact ⟨y, by rw [heq]; exact hy, by rw [heq], (if_neg hne).symm⟩
  | some w =>
    obtain ⟨u, f, hu, heq, hf⟩ := State.preempt_saves ht after
    have hfound := hu.found k
    rw [hy, Option.map_some, Option.map_eq_some_iff] at hfound
    obtain ⟨z, hz, hhusk⟩ := hfound
    have harr {x : Team} {st : TeamStatus} {sv : List Byte} (hx : x.husk = { y.husk with status := st, saved := sv }) :
        (u.modTeam tid f).arrRead x 0 x.bytes = s.arrRead y 0 y.bytes := hu.arrRead_eq hx
    rw [heq, State.modTeam_teams, mget?_mmod, hz]
    by_cases htid : tid = k
    · have hwy : w = y := by rw [htid, hy] at ht; exact (Option.some.inj ht).symm
      have hfz : (f z).husk = { y.husk with status := .saved, saved := s.arrRead y 0 y.bytes } := by rw [hf, hhusk, hwy]
      rw [if_pos htid, if_pos htid]
      exact ⟨f z, rfl, harr hfz, congrArg Team.saved hfz⟩
    · rw [if_neg htid, if_neg htid]
      exact ⟨z, rfl, harr (st := y.status) (sv := y.saved) hhusk, (congrArg Team.saved hhusk :)⟩

/-- Of teams pre-empted in turn each has saved its local bytes. -/
theorem State.preemptAll_saved (ts : List Nat) {k : Nat} {y : Team} (hy : mget? s.teams k = some y)
    (hin : k ∈ ts ∨ y.saved = s.arrRead y 0 y.bytes) :
    ∃ z, mget? (s.preemptAll ts).teams k = some z ∧ z.saved = s.arrRead y 0 y.bytes := by
  induction ts generalizing s y with
  | nil => exact ⟨y, hy, by simpa using hin⟩
  | cons tid ts ih =>
    obtain ⟨z, hz, harr, hsaved⟩ := State.preempt_array (tid := tid) hy none
    rw [← harr]
    refine ih hz ?_
    rw [harr, hsaved]
    by_cases htid : tid = k
    · exact .inr (if_pos htid)
    · rw [if_neg htid]
      exact hin.imp_left fun h => (List.mem_cons.mp h).resolve_left (Ne.symm htid)

/-! ### The end of a context (R315) -/

/-- Every team of the context is ending. -/
def State.AllEnding (s : State) (x : Nat) : Prop := ∀ p ∈ s.teams, p.2.ctx = x → p.2.status = .ending

theorem Keeps.allEnding {x : Nat} (h : Keeps s t) (hs : s.AllEnding x) : t.AllEnding x := by
  intro p hp hx
  obtain ⟨q, hq, hhusk⟩ := h.listed p hp
  have hctx : q.2.ctx = p.2.ctx := (congrArg Team.ctx hhusk :)
  have hstatus : q.2.status = p.2.status := (congrArg Team.status hhusk :)
  rw [← hstatus]
  exact hs q hq (hctx.trans hx)

theorem State.releaseCtx_keeps (x : Nat) : Keeps s (s.releaseCtx x) := by
  rw [State.releaseCtx]
  split
  · exact .refl s
  · have hfabric : Keeps s (s.endFabric x) := State.endFabric_keeps (.refl s)
    rw [State.recordEnd]
    split
    · exact hfabric.congr rfl rfl
    · refine Keeps.congr (hfabric.trans (t := s.endFabric x) (State.faultPush_recalled ?_).keeps) rfl rfl
      exact Recalled.congr (.refl _) rfl rfl

theorem State.reap_allEnding {tid x : Nat} (hs : s.AllEnding x) : (s.reap tid).AllEnding x := by
  rw [State.reap]
  split
  · exact hs
  · next y _ =>
    split
    · have hleave : Keeps s (((s.raiseTeam tid).stashFlush tid).modCore y.coreKey fun k => k.leave tid) :=
        State.modCore_keeps (State.stashFlush_recalled (State.raiseTeam_recalled (.refl s))).keeps fun _ => rfl
      refine (State.releaseCtx_keeps y.ctx).allEnding fun p hp => ?_
      exact hleave.allEnding hs p (mem_of_mem_mdel hp)
    · exact hs

theorem State.dropEp_keeps (tid : Nat) : Keeps s (s.dropEp tid) := by
  rw [State.dropEp]
  split
  · exact .refl s
  · exact State.modCore_keeps (.refl s) fun _ => rfl

theorem State.endContext_allEnding {x : Nat} (code : Nat) (rec : List Byte) (die : Nat) (hlive : (s.ctx x).live = true)
    (hgoes : (s.ctx x).ended = none) : (s.endContext x code rec die).AllEnding x := by
  simp only [State.endContext, hlive, hgoes, Option.isSome_none, Bool.not_true, Bool.or_self, Bool.false_eq_true, if_false]
  refine (State.releaseCtx_keeps x).allEnding ?_
  refine List.foldlRecOn (motive := fun u : State => u.AllEnding x) _ _ ?stopped fun u hu tid _ =>
    State.reap_allEnding ((State.dropEp_keeps tid).allEnding hu)
  intro p hp hx
  obtain ⟨q, -, hq⟩ := List.mem_filterMap.mp hp
  split_ifs at hq with hctx hsaved
  · obtain rfl := Option.some.inj hq
    exact absurd hx hctx
  · obtain rfl := Option.some.inj hq
    rfl

end Sys2Proof.Machine
end

section
/-! PROOFS. The groups that a team stop halts (R327): a halt changes one group, and the record that it pushes no group but in its
reservations. -/
namespace Sys2Proof.Machine

variable {s t : State}

/-- A group of a team. -/
def State.groupAt (s : State) (tid gi : Nat) : Option Group := (mget? s.teams tid).bind fun t => mget? t.groups gi

theorem SameRegisters.trans {g h k : Group} (a : SameRegisters g h) (b : SameRegisters h k) : SameRegisters g k := by
  obtain ⟨av, as, ap, ar⟩ := a
  obtain ⟨bv, bs, bp, br⟩ := b
  exact ⟨bv.trans av, bs.trans as, bp.trans ap, br.trans ar⟩

/-- From `g` to `h` a group has at most been halted: its registers are the same, and so is what its split numbers name. -/
structure Group.MayHalt (g h : Group) : Prop where
  regs : SameRegisters g h
  halted : g.halted = true → h.halted = true
  splits : ∀ p, (mget? h.splits p).isSome = (mget? g.splits p).isSome

theorem Group.MayHalt.refl (g : Group) : g.MayHalt g := ⟨⟨rfl, rfl, rfl, rfl⟩, id, fun _ => rfl⟩

theorem Group.MayHalt.trans {g h k : Group} (a : g.MayHalt h) (b : h.MayHalt k) : g.MayHalt k :=
  ⟨a.regs.trans b.regs, b.halted ∘ a.halted, fun p => (b.splits p).trans (a.splits p)⟩

/-- From `s` to `t` the groups of a team are there still, at most halted. -/
def Halting (tid : Nat) (s t : State) : Prop := ∀ gi g, s.groupAt tid gi = some g → ∃ h, t.groupAt tid gi = some h ∧ g.MayHalt h

theorem Halting.refl (tid : Nat) (s : State) : Halting tid s s := fun _ g hg => ⟨g, hg, .refl g⟩

theorem Halting.trans {tid : Nat} {u : State} (h : Halting tid s t) (h' : Halting tid t u) : Halting tid s u := by
  intro gi g hg
  obtain ⟨g₁, hg₁, hm⟩ := h gi g hg
  obtain ⟨g₂, hg₂, hm'⟩ := h' gi g₁ hg₁
  exact ⟨g₂, hg₂, hm.trans hm'⟩

theorem Recalled.halting (h : Recalled s t) (tid : Nat) : Halting tid s t := by
  intro gi g hg
  obtain ⟨tm, htm, hgi⟩ := Option.bind_eq_some_iff.mp hg
  have hteam : (mget? t.teams tid).map Team.unlined = (mget? s.teams tid).map Team.unlined := by
    rw [← mget?_mmap, ← mget?_mmap, h.teams]
  rw [htm, Option.map_some, Option.map_eq_some_iff] at hteam
  obtain ⟨tm', htm', hun⟩ := hteam
  have hgroups : mmap tm'.groups Group.bare = mmap tm.groups Group.bare := congrArg Team.groups hun
  have hgroup : (mget? tm'.groups gi).map Group.bare = some g.bare := by
    rw [← mget?_mmap, hgroups, mget?_mmap, hgi, Option.map_some]
  obtain ⟨g', hg', hbare⟩ := Option.map_eq_some_iff.mp hgroup
  have hhalted : g'.halted = g.halted := (congrArg Group.halted hbare :)
  have hsplits : g'.splits = g.splits := (congrArg Group.splits hbare :)
  refine ⟨g', ?_, sameRegisters_of_bare hbare, fun hh => hhalted.trans hh, fun p => by rw [hsplits]⟩
  simp only [State.groupAt, htm', Option.bind_some, hg']

theorem groupAt_of_lookup? {r : Ref} {c : Cur} (hc : s.lookup? r = some c) :
    s.groupAt r.team r.group = some c.group ∧ mget? c.group.splits r.split = some c.split := by
  simp only [State.lookup?, Option.bind_eq_some_iff, Option.map_eq_some_iff] at hc
  obtain ⟨tm, htm, g, hg, p, hp, rfl⟩ := hc
  exact ⟨by simp only [State.groupAt, htm, Option.bind_some, hg], hp⟩

/-- A halt: the group is halted, and no group of the team is changed otherwise. -/
theorem haltGroup_halts {r : Ref} {c : Cur} (hc : s.lookup? r = some c) :
    Halting r.team s (s.haltGroup c) ∧ ∃ h, (s.haltGroup c).groupAt r.team r.group = some h ∧ h.halted = true := by
  obtain ⟨hgroup, hsplit⟩ := groupAt_of_lookup? hc
  have href := lookup?_ref s r c hc
  have hteam := lookup?_team hc
  let e : Cur := { c with group := { c.group with halted := true } }
  have hput (gi : Nat) : (s.put e).groupAt r.team gi = if r.group = gi then some e.newGroup else s.groupAt r.team gi := by
    have hnew : mget? (s.put e).teams r.team = some e.newTeam := by rw [State.put_teams, ← href]; exact mget?_mput_self ..
    simp only [State.groupAt, hnew, hteam, Option.bind_some, Cur.newTeam, mget?_mput]
    rw [show e.ref.group = r.group from congrArg Ref.group href]
  have hmay : c.group.MayHalt e.newGroup := by
    refine ⟨⟨rfl, rfl, rfl, rfl⟩, fun _ => rfl, fun p => ?_⟩
    simp only [Cur.newGroup, mget?_mput]
    split
    · next hp =>
      rw [show c.ref.split = r.split from congrArg Ref.split href] at hp
      rw [← hp, hsplit]
    · rfl
  have hrec : Halting r.team (s.put e) (s.haltGroup c) := (State.faultPush_recalled (.refl (s.put e))).halting r.team
  refine ⟨Halting.trans (fun gi g hg => ?_) hrec, ?_⟩
  · rw [hput]
    split
    · next hgi =>
      obtain rfl : c.group = g := Option.some.inj (by rw [← hgroup, hgi, hg])
      exact ⟨_, rfl, hmay⟩
    · exact ⟨g, hg, .refl g⟩
  · obtain ⟨h, hh, hm⟩ := hrec r.group e.newGroup (by rw [hput, if_pos rfl])
    exact ⟨h, hh, hm.halted rfl⟩

/-- One step of a team stop: a split that is found has its group halted. -/
def State.haltAt (s : State) (team : Nat) (g : Nat × Nat) : State :=
  match s.lookup? ⟨team, g.1, g.2⟩ with
  | some c => s.haltGroup c
  | none => s

theorem haltAt_halting (s : State) (team : Nat) (g : Nat × Nat) : Halting team s (s.haltAt team g) := by
  rw [State.haltAt]
  split
  · next c hc => exact (haltGroup_halts hc).1
  · exact .refl team s

theorem haltAt_keeps (s : State) (team : Nat) (g : Nat × Nat) : Keeps s (s.haltAt team g) := by
  rw [State.haltAt]
  split
  · next c hc => exact (State.put_found_keeps (.refl s) hc _ c.split).trans (State.faultPush_recalled (.refl _)).keeps
  · exact .refl s

/-- Of groups that are halted in turn by a split of theirs, each is halted in the end. -/
theorem foldl_haltAt {team gi p : Nat} {g : Group} (l : List (Nat × Nat)) (hg : s.groupAt team gi = some g)
    (hin : g.halted = true ∨ (gi, p) ∈ l ∧ (mget? g.splits p).isSome = true) :
    ∃ h, (l.foldl (fun s g => s.haltAt team g) s).groupAt team gi = some h ∧ h.halted = true ∧ SameRegisters g h := by
  induction l generalizing s g with
  | nil => exact ⟨g, hg, by simpa using hin, rfl, rfl, rfl, rfl⟩
  | cons q l ih =>
    obtain ⟨g₁, hg₁, hm⟩ := haltAt_halting s team q gi g hg
    have hin₁ : g₁.halted = true ∨ (gi, p) ∈ l ∧ (mget? g₁.splits p).isSome = true := by
      rcases hin with hh | ⟨hmem, hp⟩
      · exact .inl (hm.halted hh)
      · rcases List.mem_cons.mp hmem with rfl | hmem
        · obtain ⟨tm, htm, hgi⟩ := Option.bind_eq_some_iff.mp hg
          obtain ⟨sp, hsp⟩ := Option.isSome_iff_exists.mp hp
          have hc : s.lookup? ⟨team, gi, p⟩ = some ⟨⟨team, gi, p⟩, tm, g, sp⟩ := by
            simp only [State.lookup?, htm, hgi, hsp, Option.bind_some, Option.map_some]
          obtain ⟨-, h, hh, hhalted⟩ := haltGroup_halts hc
          have hat : s.haltAt team (gi, p) = s.haltGroup ⟨⟨team, gi, p⟩, tm, g, sp⟩ := by rw [State.haltAt, hc]
          rw [hat, hh] at hg₁
          obtain rfl := Option.some.inj hg₁
          exact .inl hhalted
        · exact .inr ⟨hmem, (hm.splits p).trans hp⟩
    obtain ⟨h, hh, hhalted, hregs⟩ := ih hg₁ hin₁
    exact ⟨h, hh, hhalted, hm.regs.trans hregs⟩

end Sys2Proof.Machine
end

section
/-! PROOFS. A halted group that resumes (R327, R328): its splits go past their breakpoints and leave the barriers whose phase has gone by;
the arrivals that count then move phases, and no register. -/
namespace Sys2Proof.Machine

/-! ### Splits and their barriers (R64) -/

/-- A split of a resumed group before its barriers are looked at. -/
def Split.released (p : Split) : Split := { p with step := false, passed := p.hit, hit := false }

/-- A split looked at for each of some barriers. -/
def Split.leaveBars (t : Team) (bs : List Nat) (p : Split) : Split := bs.foldl (fun p b => p.leaveBar b (t.bar b).phase) p

/-- A split with its park left out. -/
def Split.unparked (p : Split) : Split := { p with park := .none, parked := 0 }

theorem Split.eq_of_unparked {p q : Split} (h : q.unparked = p.unparked) : q = { p with park := q.park, parked := q.parked } :=
  congrArg (fun r : Split => { r with park := q.park, parked := q.parked }) h

theorem Split.unparked_leaveBar (b phase : Nat) (p : Split) : (p.leaveBar b phase).unparked = p.unparked := by
  rw [Split.leaveBar]
  split
  · split <;> rfl
  · rfl

theorem Split.unparked_leaveBars (t : Team) (bs : List Nat) (p : Split) : (p.leaveBars t bs).unparked = p.unparked :=
  List.foldlRecOn (motive := fun q : Split => q.unparked = p.unparked) bs _ rfl fun q hq b _ => (q.unparked_leaveBar b _).trans hq

/-- A split that waits on a phase still to come, or on no barrier, stays. -/
theorem Split.leaveBar_stays {b phase : Nat} {p : Split} (h : ∀ n, p.park = .bar b n → phase < n) : p.leaveBar b phase = p := by
  fun_cases p.leaveBar b phase with
  | case1 b' n hpark hdue =>
    obtain ⟨rfl, hn⟩ : b' = b ∧ n ≤ phase := by simpa using hdue
    exact absurd (h n hpark) (Nat.not_lt.mpr hn)
  | _ => rfl

theorem Split.leaveBars_stays {t : Team} {bs : List Nat} {p : Split} (h : ∀ b ∈ bs, ∀ n, p.park = .bar b n → (t.bar b).phase < n) :
    p.leaveBars t bs = p :=
  List.foldlRecOn (motive := fun q => q = p) bs _ rfl fun q hq b hb => by
    rw [hq]
    exact Split.leaveBar_stays (h b hb)

/-- A split leaves the barrier of a phase that has gone by, and then waits no more. -/
theorem Split.leaveBars_leaves {t : Team} {bs : List Nat} {p : Split} {b n : Nat} (hpark : p.park = .bar b n) (hb : b ∈ bs)
    (hn : n ≤ (t.bar b).phase) : p.leaveBars t bs = { p with park := .none, parked := 0 } := by
  induction bs with
  | nil => cases hb
  | cons a bs ih =>
    by_cases hab : b = a
    · subst hab
      have hleave : p.leaveBar b (t.bar b).phase = { p with park := .none, parked := 0 } := by
        simp [Split.leaveBar, hpark, hn]
      show (p.leaveBar b (t.bar b).phase).leaveBars t bs = _
      rw [hleave]
      exact Split.leaveBars_stays fun _ _ _ h => nomatch h
    · have hstay : p.leaveBar a (t.bar a).phase = p := Split.leaveBar_stays fun m hm => by
        rw [hpark] at hm
        exact absurd (Park.bar.inj hm).1 hab
      show (p.leaveBar a (t.bar a).phase).leaveBars t bs = _
      rw [hstay]
      exact ih ((List.mem_cons.mp hb).resolve_left hab)

/-! ### Phases (R62, R63) -/

/-- A group with its splits and its phases left out. -/
def Group.still (g : Group) : Group := { g with splits := [], phase := [] }

theorem Team.phaseDone_still (t : Team) (b phase : Nat) : mmap (t.phaseDone b phase).groups Group.still = mmap t.groups Group.still := by
  simp only [Team.phaseDone, mmap, List.map_map]
  rfl

theorem Team.countArrival_still (t : Team) (gi b e : Nat) : mmap (t.countArrival gi b e).1.groups Group.still = mmap t.groups Group.still := by
  have hcount : mmap (mmod t.groups gi fun g => { g with phase := mput g.phase b (t.bar b).phase }) Group.still = mmap t.groups Group.still := by
    simp only [mmap, mmod, List.map_map]
    refine List.map_congr_left fun g _ => ?_
    simp only [Function.comp]
    split <;> rfl
  fun_cases t.countArrival gi b e with
  | case1 => exact hcount
  | case2 => exact (Team.phaseDone_still _ _ _).trans hcount

theorem Team.sweep_still (b n : Nat) (t : Team) : mmap (Team.sweep b n t).groups Group.still = mmap t.groups Group.still := by
  induction n generalizing t with
  | zero => rfl
  | succ n ih =>
    rw [Team.sweep]
    split
    · exact (ih _).trans (t.countArrival_still _ _ _)
    · rfl

theorem Team.afterEnd_still (t : Team) : mmap t.afterEnd.groups Group.still = mmap t.groups Group.still :=
  List.foldlRecOn (motive := fun u : Team => mmap u.groups Group.still = mmap t.groups Group.still) _ _ rfl
    fun u hu b _ => (u.sweep_still b 64).trans hu

/-- With no group arrived at a barrier nothing is counted. -/
theorem Team.sweep_eq_self {b : Nat} {t : Team} (h : ∀ q ∈ t.groups, q.2.arrived b = false) (n : Nat) : Team.sweep b n t = t := by
  cases n with
  | zero => rfl
  | succ n =>
    have hnone : (t.groups.find? fun g => !g.2.halted && g.2.arrived b && mget? g.2.phase b ≠ some (t.bar b).phase) = none :=
      List.find?_eq_none.mpr fun q hq => by simp [h q hq]
    rw [Team.sweep, hnone]

theorem Team.afterEnd_eq_self {t : Team} (h : ∀ q ∈ t.groups, ∀ b, b < t.bars.length → q.2.arrived b = false) : t.afterEnd = t :=
  List.foldlRecOn (motive := fun u => u = t) _ _ rfl fun u hu b hb => by
    rw [hu]
    exact Team.sweep_eq_self (fun q hq => h q hq b (List.mem_range.mp hb)) 64

/-! ### The group that resumes -/

/-- A group of a team released: its splits past their breakpoints and out of the barriers whose phase has gone by. -/
def Group.released (t : Team) (g : Group) : Group :=
  { g with halted := false, splits := mmap g.splits fun p => p.released.leaveBars t (List.range t.bars.length) }

theorem Team.resumeGroup_eq (t : Team) (gi : Nat) :
    t.resumeGroup gi = ({ t with groups := mmod t.groups gi (Group.released t) } : Team).afterEnd := rfl

theorem Group.arrived_released (t : Team) (g : Group) (b : Nat) : (g.released t).arrived b = g.arrived b := by
  have harr (p : Split) : (p.released.leaveBars t (List.range t.bars.length)).arr = p.arr :=
    (congrArg Split.arr (p.released.unparked_leaveBars t _) :)
  simp only [Group.arrived, Group.released, mmap, List.isEmpty_map, List.all_map, Function.comp_def, harr]

/-- The group has its registers, and is halted no more. -/
theorem Team.resumeGroup_group {t : Team} {gi : Nat} {g : Group} (hg : mget? t.groups gi = some g) :
    ∃ g', mget? (t.resumeGroup gi).groups gi = some g' ∧ g'.halted = false ∧ SameRegisters g g' := by
  have hstill : (mget? (t.resumeGroup gi).groups gi).map Group.still = some (g.released t).still := by
    rw [← mget?_mmap, Team.resumeGroup_eq, Team.afterEnd_still, mget?_mmap, mget?_mmod, if_pos rfl, hg]
    rfl
  obtain ⟨g', hg', he⟩ := Option.map_eq_some_iff.mp hstill
  exact ⟨g', hg', (congrArg Group.halted he :), (congrArg Group.v he :), (congrArg Group.s he :), (congrArg Group.p he :),
    (congrArg Group.regs he :)⟩

/-- With no group arrived at a barrier, the group's release is all that happens. -/
theorem Team.resumeGroup_released {t : Team} {gi : Nat} (h : ∀ q ∈ t.groups, ∀ b, b < t.bars.length → q.2.arrived b = false) :
    t.resumeGroup gi = { t with groups := mmod t.groups gi (Group.released t) } := by
  rw [Team.resumeGroup_eq]
  refine Team.afterEnd_eq_self fun q hq b hb => ?_
  obtain ⟨p, hp, rfl⟩ := List.mem_map.mp hq
  split
  · exact (Group.arrived_released t p.2 b).trans (h p hp b hb)
  · exact h p hp b hb

/-- What the release of its group makes of a split. -/
theorem Split.released_spec (t : Team) (p : Split) :
    let q := p.released.leaveBars t (List.range t.bars.length)
    q = { p with step := false, passed := p.hit, hit := false, park := q.park, parked := q.parked } ∧
    ((∀ b n, p.park = .bar b n → t.bars.length ≤ b ∨ (t.bar b).phase < n) → q.park = p.park ∧ q.parked = p.parked) ∧
    ∀ b n, p.park = .bar b n → b < t.bars.length → n ≤ (t.bar b).phase → q.park = .none ∧ q.parked = 0 := by
  refine ⟨Split.eq_of_unparked (p.released.unparked_leaveBars t _), fun h => ?_, fun b n hpark hb hn => ?_⟩
  · rw [Split.leaveBars_stays (p := p.released) fun b hb n hpark => (h b n hpark).resolve_left (by simpa using hb)]
    exact ⟨rfl, rfl⟩
  · rw [Split.leaveBars_leaves (p := p.released) hpark (List.mem_range.mpr hb) hn]
    exact ⟨rfl, rfl⟩

end Sys2Proof.Machine
end

section
/-! PROOFS. A host access through BAR2 (R180, R197): where the management table puts it, the accesses that go out to a peer, and what is left
alone. -/
namespace Sys2Proof.Machine

variable {s : State}

/-! ### Accesses that go out (R180) -/

/-- From `s` to `t` memory and teams are as before. -/
def OnlyAsks (s t : State) : Prop := t.hbm = s.hbm ∧ t.cores = s.cores ∧ t.teams = s.teams

theorem OnlyAsks.refl (s : State) : OnlyAsks s s := ⟨rfl, rfl, rfl⟩

theorem OnlyAsks.sameMemory {t : State} (h : OnlyAsks s t) : SameMemory s t := by
  obtain ⟨hhbm, hcores, -⟩ := h
  exact ⟨fun a => by rw [hhbm], fun k a => by rw [State.core, State.core, hcores]⟩

theorem OnlyAsks.teams {t : State} (h : OnlyAsks s t) : t.teams = s.teams := by
  obtain ⟨-, -, hteams⟩ := h
  exact hteams

theorem onlyAsks_unask {t : State} (h : OnlyAsks s t) (f : PeerAsk → Bool) : OnlyAsks s (t.unask f) := by
  rw [State.unask]
  split <;> exact h

theorem ask_asks (s : State) (a : PeerAsk) : (s.ask a).fab.asks = s.fab.asks ++ [{ a with id := s.nextId }] := rfl

/-- Accesses asked for in turn all go out, and memory and teams stand. -/
theorem foldl_ask {β : Type} (f : β → PeerAsk) (l : List β) (s : State) :
    OnlyAsks s (l.foldl (fun s k => s.ask (f k)) s) ∧ (∀ q ∈ s.fab.asks, q ∈ (l.foldl (fun s k => s.ask (f k)) s).fab.asks) ∧
      ∀ k ∈ l, ∃ id, { f k with id := id } ∈ (l.foldl (fun s k => s.ask (f k)) s).fab.asks := by
  induction l generalizing s with
  | nil => exact ⟨.refl s, fun _ h => h, fun _ h => nomatch h⟩
  | cons b l ih =>
    obtain ⟨honly, hold, hnew⟩ := ih (s.ask (f b))
    refine ⟨honly, fun q hq => hold q ?_, fun k hk => ?_⟩
    · rw [ask_asks]
      exact List.mem_append_left _ hq
    · rcases List.mem_cons.mp hk with rfl | hk
      · exact ⟨s.nextId, hold _ (by rw [ask_asks]; exact List.mem_append_right _ (List.mem_singleton_self _))⟩
      · exact hnew k hk

theorem onlyAsks_needPeers {who : Asker} {team : Option Nat} {x : Nat} {ps : List (Place × Nat)} {data : Option (List Byte)} {t : State}
    (h : s.needPeers who team x ps data = some t) : OnlyAsks s t := by
  simp only [State.needPeers] at h
  split at h
  · cases h
  · obtain rfl := Option.some.inj h
    refine List.foldlRecOn (motive := OnlyAsks s) _ _ (.refl s) fun u hu k _ => ?_
    split <;> exact hu

/-! ### A peer's page -/

/-- The access of one packet in which a write of the host goes out. -/
def hostPut (a : Bar2) (off : Nat) (k : Nat × Nat × Nat) : PeerAsk :=
  { id := 0, who := .put, team := none, ctx := hostCtx a.dev, pkg := k.1, off := k.2.1, len := k.2.2
    data := some ((a.bytes.drop (k.2.1 - off)).take k.2.2) }

theorem State.bar2Peer_write {a : Bar2} (pkg off : Nat) (hw : a.write = true) :
    s.bar2Peer a pkg off = (peerCuts (.peer pkg off, a.bytes.length)).foldl (fun s k => s.ask (hostPut a off k)) s := by
  rw [State.bar2Peer, if_pos hw]
  rfl

theorem State.bar2Peer_onlyAsks (a : Bar2) (pkg off : Nat) : OnlyAsks s (s.bar2Peer a pkg off) := by
  by_cases hw : a.write = true
  · rw [State.bar2Peer_write pkg off hw]
    exact (foldl_ask _ _ s).1
  · rw [State.bar2Peer, if_neg hw]
    split
    · next t ht => exact onlyAsks_needPeers ht
    · exact onlyAsks_unask ⟨rfl, rfl, rfl⟩ _

/-! ### HOST_BAR2_ACCESS -/

/-- Where the management table puts an access. -/
def State.bar2At (s : State) (a : Bar2) : Option Place :=
  (s.mgmtLeaf a.dev a.addr.toNat a.bytes.length a.write).bind fun e => s.placeOf (64 * a.dev) a.addr.toNat e

theorem State.mgmtPlace_eq_some {a : Bar2} {pa : Nat} :
    s.mgmtPlace a.dev a.addr.toNat a.bytes.length a.write = some pa ↔ s.bar2At a = some (.hbm pa) := by
  rw [State.mgmtPlace, State.bar2At]
  cases s.mgmtLeaf a.dev a.addr.toNat a.bytes.length a.write with
  | none => exact ⟨(nomatch ·), (nomatch ·)⟩
  | some e =>
    simp only [Option.bind_some]
    split
    · next pa' he => simp [he]
    · next hno => exact ⟨(nomatch ·), fun h => absurd h (hno pa)⟩

theorem exec_hostBar2Access_outside {a : Bar2} (h : s.inBar2 a = false) : exec (.hostBar2Access a) s = .next s := by
  simp only [exec_hostBar2Access, execHostBar2Access, h, Bool.not_false, if_true]

/-- What an access within the window does at a place. -/
def State.bar2Perform (s : State) (a : Bar2) : Option Place → State
  | some (.hbm pa) => if a.write then s.homeWrite pa a.bytes else
    let r := s.homeRead pa a.bytes.length
    { r.1 with mgmt := { r.1.mgmt with bar2 := r.2 } }
  | some (.peer pkg off) => s.bar2Peer a pkg off
  | _ => s

theorem exec_hostBar2Access_inside {a : Bar2} (h : s.inBar2 a = true) : exec (.hostBar2Access a) s = .next (s.bar2Perform a (s.bar2At a)) := by
  rw [exec_hostBar2Access, execHostBar2Access, h]
  rfl

/-- Outside HBM an access changes neither memory nor teams. -/
theorem exec_hostBar2Access_elsewhere {a : Bar2} (h : s.mgmtPlace a.dev a.addr.toNat a.bytes.length a.write = none) :
    ∃ t : State, exec (.hostBar2Access a) s = .next t ∧ SameMemory s t ∧ t.teams = s.teams := by
  have hsame : SameMemory s s := ⟨fun _ => rfl, fun _ _ => rfl⟩
  cases hin : s.inBar2 a with
  | false => exact ⟨s, exec_hostBar2Access_outside hin, hsame, rfl⟩
  | true =>
    refine ⟨_, exec_hostBar2Access_inside hin, ?_⟩
    match hat : s.bar2At a with
    | none | some (.arr _) => exact ⟨hsame, rfl⟩
    | some (.hbm pa) => rw [State.mgmtPlace_eq_some.mpr hat] at h; cases h
    | some (.peer pkg off) =>
      have honly := s.bar2Peer_onlyAsks a pkg off
      exact ⟨honly.sameMemory, honly.teams⟩

/-- On a peer's page a write goes out in packets, and memory and teams stand. -/
theorem exec_hostBar2Access_asks {a : Bar2} {pkg off : Nat} (hin : s.inBar2 a = true) (hat : s.bar2At a = some (.peer pkg off)) :
    ∃ t : State, exec (.hostBar2Access a) s = .next t ∧ SameMemory s t ∧ t.teams = s.teams ∧ (a.write = true →
      ∀ k ∈ peerCuts (.peer pkg off, a.bytes.length), ∃ q ∈ t.fab.asks, q.who = .put ∧ (q.pkg, q.off, q.len) = k ∧
        q.data = some ((a.bytes.drop (k.2.1 - off)).take k.2.2)) := by
  have hexec := exec_hostBar2Access_inside hin
  rw [hat] at hexec
  have honly := s.bar2Peer_onlyAsks a pkg off
  refine ⟨s.bar2Peer a pkg off, hexec, honly.sameMemory, honly.teams, fun hw k hk => ?_⟩
  rw [State.bar2Peer_write pkg off hw]
  obtain ⟨-, -, hnew⟩ := foldl_ask (hostPut a off) (peerCuts (.peer pkg off, a.bytes.length)) s
  obtain ⟨id, hid⟩ := hnew k hk
  exact ⟨_, hid, rfl, rfl, rfl⟩

/-- In HBM an access reads or writes where the management table puts it. -/
theorem exec_hostBar2Access_performs {a : Bar2} {pa : Nat} (hs : s.noLines) (hmem : s.memOk = true) (hin : s.inBar2 a = true)
    (hat : s.bar2At a = some (.hbm pa)) :
    ∃ t : State, exec (.hostBar2Access a) s = .next t ∧
      (a.write = true → rdBytes t.hbm pa a.bytes.length = a.bytes ∧ ∀ x, ¬ Bytes pa a.bytes.length x → rdByte t.hbm x = rdByte s.hbm x) ∧
      (a.write = false → SameMemory s t ∧ t.mgmt.bar2 = rdBytes s.hbm pa a.bytes.length) := by
  have hexec := exec_hostBar2Access_inside hin
  rw [hat, State.bar2Perform] at hexec
  have hwf := State.memOk_hbm hmem
  cases hw : a.write with
  | true =>
    rw [hw, if_pos rfl] at hexec
    have hwrote : Wrote s (s.homeWrite pa a.bytes) pa a.bytes := homeWrite_wrote hs none pa a.bytes
    refine ⟨_, hexec, fun _ => ⟨?_, fun x hx => ?_⟩, fun h => absurd h.symm Bool.false_ne_true⟩
    · rw [hwrote.hbm]
      exact rdBytes_wrBytes _ _ _ hwf
    · rw [hwrote.hbm, rdByte_wrBytes _ _ _ _ hwf]
      exact if_neg hx
  | false =>
    rw [hw, if_neg Bool.false_ne_true] at hexec
    obtain ⟨o, ho⟩ := State.recallFor_noLines hs none pa a.bytes.length
    simp only [State.homeRead, ho] at hexec
    exact ⟨_, hexec, fun h => absurd h Bool.false_ne_true, fun _ => ⟨⟨fun _ => rfl, fun _ _ => rfl⟩, rfl⟩⟩

end Sys2Proof.Machine
end

section
/-! PROOFS. The host driver's other events (R183, R314, R315, R325, R327 to R329). -/
namespace Sys2Proof.Machine

variable {s : State}

/-! ### Contexts -/

/-- The splits of a context that wait after a fault go on, and its windlass runs are held no more (R183). -/
theorem exec_hostContextResume_wakes (ctx : Nat) {team : Nat} {tm : Team} (htm : mget? s.teams team = some tm) :
    ∃ t tm', exec (.hostContextResume ctx) s = .next t ∧ SameMachine s t ∧
      mget? t.teams team = some tm' ∧ (tm.ctx ≠ ctx → tm' = tm) ∧ (tm.ctx = ctx → (∀ r ∈ tm'.runs, r.held = false) ∧
        ∀ g p gr sp, mget? tm.groups g = some gr → mget? gr.splits p = some sp → ∃ gr', mget? tm'.groups g = some gr' ∧
          gr' = { gr with splits := gr'.splits } ∧
          mget? gr'.splits p = some (if sp.park = .fault then { sp with park := .none, parked := 0 } else sp)) := by
  refine ⟨_, _, rfl, ⟨⟨fun _ => rfl, fun _ _ => rfl⟩, rfl, rfl, rfl, rfl, rfl, rfl, rfl, rfl, rfl, rfl⟩,
    by rw [mget?_mmap, htm]; rfl, fun hne => if_pos hne, fun he => ?_⟩
  rw [if_neg (not_not.mpr he)]
  refine ⟨fun r hr => ?_, fun g p gr sp hgr hsp => ?_⟩
  · obtain ⟨q, -, rfl⟩ := List.mem_map.mp hr
    rfl
  · refine ⟨_, by rw [mget?_mmap, hgr]; rfl, rfl, ?_⟩
    rw [mget?_mmap, hsp]
    rfl

/-- Every team of the context on the die is saved with its local bytes (R325). -/
theorem exec_hostContextSwitch_saves {ctx die : Nat}
    (hsave : (s.residentTeams fun t => t.ctx = ctx && t.die = die).all s.canSave = true) :
    ∃ t : State, exec (.hostContextSwitch ctx die) s = .next t ∧
      ∀ team tm, mget? s.teams team = some tm → tm.status = .resident → tm.ctx = ctx → tm.die = die →
        ∃ tm', mget? t.teams team = some tm' ∧ tm'.status = .saved ∧ tm'.saved = s.arrRead tm 0 tm.bytes := by
  let ts := s.residentTeams fun t => t.ctx = ctx && t.die = die
  have hexec : exec (.hostContextSwitch ctx die) s = .next (s.preemptAll ts) := by
    simp only [exec_hostContextSwitch, execHostContextSwitch, hsave, if_true]
    rfl
  refine ⟨_, hexec, fun team tm htm hres hctx hdie => ?_⟩
  have hmem : team ∈ ts := State.mem_residentTeams htm hres (by simp [hctx, hdie])
  obtain ⟨tm', htm', hbytes⟩ := State.preemptAll_saved ts htm (.inl hmem)
  have hstatus := State.preemptAll_status (s := s) ts team
  rw [if_pos hmem, htm, htm', Option.map_some, Option.map_some] at hstatus
  exact ⟨tm', htm', Option.some.inj hstatus, hbytes⟩

theorem exec_hostContextSwitch_waits {ctx die : Nat}
    (hno : (s.residentTeams fun t => t.ctx = ctx && t.die = die).all s.canSave = false) :
    exec (.hostContextSwitch ctx die) s = .next s := by
  simp only [exec_hostContextSwitch, execHostContextSwitch, hno, Bool.false_eq_true, if_false]

/-- A context that the host ends has ended with code 0, and its teams are ending (R315; log 63). -/
theorem exec_contextEnd_ends {ctx : Nat} (hlive : (s.ctx ctx).live = true) (hgoes : (s.ctx ctx).ended = none) :
    ∃ t : State, exec (.contextEnd ctx) s = .next t ∧ (t.ctx ctx).ended = some 0 ∧
      ∀ k tm, mget? t.teams k = some tm → tm.ctx = ctx → tm.status = .ending :=
  ⟨_, rfl, State.endContext_ended _ _ _ hlive hgoes, fun k tm htm => State.endContext_allEnding _ _ _ hlive hgoes (k, tm) (mem_of_mget? htm)⟩

theorem exec_hostSetDebugMode_sets {ctx mode : Nat} {breaks : List DWord} (hmode : mode ≤ 2) (hbreaks : breaks.length ≤ 4) :
    ∃ t : State, exec (.hostSetDebugMode ctx mode breaks) s = .next t ∧ t.teams = s.teams ∧ SameMemory s t ∧
      t.ctx ctx = { s.ctx ctx with debug := mode, breaks := breaks } ∧ ∀ x, x ≠ ctx → t.ctx x = s.ctx x := by
  have hexec : exec (.hostSetDebugMode ctx mode breaks) s = .next (s.modCtx ctx fun y => { y with debug := mode, breaks := breaks }) := by
    simp only [exec_hostSetDebugMode, execHostSetDebugMode, hmode, hbreaks, decide_true, Bool.and_self, if_true]
  refine ⟨_, hexec, rfl, ⟨fun _ => rfl, fun _ _ => rfl⟩, State.ctx_modCtx_self .., fun x hx => ?_⟩
  rw [State.ctx_modCtx, if_neg (Ne.symm hx)]

theorem exec_hostSetDebugMode_ignored {ctx mode : Nat} {breaks : List DWord} (hno : 2 < mode ∨ 4 < breaks.length) :
    exec (.hostSetDebugMode ctx mode breaks) s = .next s := by
  have hout : (decide (mode ≤ 2) && decide (breaks.length ≤ 4)) = false := by
    rw [Bool.and_eq_false_iff, decide_eq_false_iff_not, decide_eq_false_iff_not]
    omega
  simp only [exec_hostSetDebugMode, execHostSetDebugMode, hout, Bool.false_eq_true, if_false]

/-! ### Groups (R327 to R329) -/

/-- The groups of a team that a stop halts, each with a split. -/
def Team.running (t : Team) : List (Nat × Nat) :=
  t.groups.filterMap fun g => if g.2.ended || g.2.halted then none else some (g.1, ((g.2.splits.head?).map (·.1)).getD 0)

theorem exec_teamStop_eq {team : Nat} {tm : Team} (htm : mget? s.teams team = some tm) : exec (.teamStop tm.ctx team) s =
    .next ((tm.running.foldl (fun s g => s.haltAt team g) s).modCtx tm.ctx fun y => { y with stopFlag := true }) := by
  simp only [exec_teamStop, execTeamStop, htm, ne_eq, not_true_eq_false, if_false]
  rfl

/-- A team stop halts every group that has not ended (R327). -/
theorem exec_teamStop_halts {team : Nat} {tm : Team} (htm : mget? s.teams team = some tm) :
    ∃ t tm', exec (.teamStop tm.ctx team) s = .next t ∧ mget? t.teams team = some tm' ∧ (t.ctx tm.ctx).stopFlag = true ∧
      ∀ g gr p sp rest, mget? tm.groups g = some gr → gr.ended = false → gr.splits = (p, sp) :: rest →
        ∃ gr', mget? tm'.groups g = some gr' ∧ gr'.halted = true ∧ SameRegisters gr gr' := by
  let u := tm.running.foldl (fun s g => s.haltAt team g) s
  have hkeeps : Keeps s u := foldl_keeps (.refl s) fun v g hv => hv.trans (haltAt_keeps v team g)
  have hfound := hkeeps.found team
  rw [htm, Option.map_some, Option.map_eq_some_iff] at hfound
  obtain ⟨tm', htm', -⟩ := hfound
  refine ⟨_, tm', exec_teamStop_eq htm, htm', by rw [State.ctx_modCtx_self], fun g gr p sp rest hgr hended hsplits => ?_⟩
  have hin : gr.halted = true ∨ (g, p) ∈ tm.running ∧ (mget? gr.splits p).isSome = true := by
    cases hhalted : gr.halted with
    | true => exact .inl rfl
    | false =>
      refine .inr ⟨List.mem_filterMap.mpr ⟨(g, gr), mem_of_mget? hgr, ?_⟩, ?_⟩
      · simp [hended, hhalted, hsplits]
      · simp [hsplits, mget?]
  have hat : s.groupAt team g = some gr := by simp only [State.groupAt, htm, Option.bind_some, hgr]
  obtain ⟨gr', hgr', hhalted, hregs⟩ := foldl_haltAt tm.running hat hin
  have hgr' : (mget? u.teams team).bind (fun t => mget? t.groups g) = some gr' := hgr'
  rw [htm', Option.bind_some] at hgr'
  exact ⟨gr', hgr', hhalted, hregs⟩

/-- A split of a halted group may take one clause (R329). -/
theorem exec_hostSingleStep_steps {r : Ref} {c : Cur} (hc : s.lookup? r = some c) (hh : c.group.halted = true) (hopn : c.split.opn = false)
    (hpark : c.split.park = .none) :
    ∃ t d, exec (.hostSingleStep r) s = .next t ∧ ActsAlone s t c d ∧ TeamAsBefore c d ∧ d.split = { c.split with step := true } ∧
      d.group = { c.group with splits := d.group.splits } := by
  have hexec : exec (.hostSingleStep r) s = .next (s.put { c with split := { c.split with step := true } }) := by
    simp only [exec_hostSingleStep, execHostSingleStep, hc, hh, hopn, hpark, Bool.not_false, Bool.and_self, decide_true, if_true]
  exact ⟨_, _, hexec, actsAlone_put s c c.group { c.split with step := true } rfl, rfl, rfl, rfl⟩

/-- A halted group resumes (R327, R328). -/
theorem exec_hostResumeGroup_resumes {team group : Nat} {tm : Team} {g : Group} (htm : mget? s.teams team = some tm)
    (hg : mget? tm.groups group = some g) (hh : g.halted = true) :
    ∃ (u : State) (tm' : Team) (g' : Group), exec (.hostResumeGroup team group) s = .next (u.settle team) ∧ SameMemory s u ∧
      mget? u.teams team = some tm' ∧ mget? tm'.groups group = some g' ∧ g'.halted = false ∧ SameRegisters g g' ∧
      (∀ j, j ≠ team → mget? u.teams j = mget? s.teams j) ∧ (u.ctx tm.ctx).stopFlag = false ∧
      ((∀ q ∈ tm.groups, ∀ b, b < tm.bars.length → q.2.arrived b = false) →
        GroupBecomes s u team group g' ∧ g' = { g with halted := false, splits := g'.splits } ∧
        ∀ p sp, mget? g.splits p = some sp → ∃ sp', mget? g'.splits p = some sp' ∧
          sp' = { sp with step := false, passed := sp.hit, hit := false, park := sp'.park, parked := sp'.parked } ∧
          ((∀ b n, sp.park = .bar b n → tm.bars.length ≤ b ∨ (tm.bar b).phase < n) → sp'.park = sp.park ∧ sp'.parked = sp.parked) ∧
          ∀ b n, sp.park = .bar b n → b < tm.bars.length → n ≤ (tm.bar b).phase → sp'.park = .none ∧ sp'.parked = 0) := by
  obtain ⟨g', hg', hhalted, hregs⟩ := Team.resumeGroup_group hg
  have hexec : exec (.hostResumeGroup team group) s =
      .next (((s.modTeam team fun t => t.resumeGroup group).modCtx tm.ctx fun y => { y with stopFlag := false }).settle team) := by
    simp only [exec_hostResumeGroup, execHostResumeGroup, htm, hg, Option.bind_some, Option.map_some, hh, Bool.not_true,
      Bool.false_eq_true, if_false]
  have hteam (j : Nat) : mget? (s.modTeam team fun t => t.resumeGroup group).teams j =
      if team = j then some (tm.resumeGroup group) else mget? s.teams j := by
    rw [State.modTeam_teams, mget?_mmod]
    split
    · next hj => rw [← hj, htm]; rfl
    · rfl
  have hothers (j : Nat) (hj : j ≠ team) : mget? (s.modTeam team fun t => t.resumeGroup group).teams j = mget? s.teams j := by
    rw [hteam, if_neg (Ne.symm hj)]
  have hself : mget? (s.modTeam team fun t => t.resumeGroup group).teams team = some (tm.resumeGroup group) := by rw [hteam, if_pos rfl]
  refine ⟨_, _, g', hexec, ⟨fun _ => rfl, fun _ _ => rfl⟩, hself, hg', hhalted, hregs, hothers, ?_, fun hnone => ?_⟩
  · rw [State.ctx_modCtx_self]
  · have hreleased := Team.resumeGroup_released (gi := group) hnone
    have hmod (j : Nat) : mget? (tm.resumeGroup group).groups j =
        if group = j then (mget? tm.groups j).map (Group.released tm) else mget? tm.groups j := by
      rw [hreleased, mget?_mmod]
    obtain rfl : g.released tm = g' := by
      rw [hmod, if_pos rfl, hg] at hg'
      exact Option.some.inj hg'
    refine ⟨⟨tm, _, htm, hself, ?_, hg', fun j hj => ?_, hothers⟩, rfl, fun p sp hsp => ?_⟩
    · rw [hreleased]
    · rw [hmod, if_neg (Ne.symm hj)]
    · refine ⟨_, by rw [Group.released, mget?_mmap, hsp]; rfl, Split.released_spec tm sp⟩

end Sys2Proof.Machine
end

section
open Sys2Proof Sys2Proof.Machine

/-- Settles O51: each event by its lemma; the context switch rests on `State.preemptAll_saved`, the end of a context on
`State.endContext_allEnding`, the team stop on `foldl_haltAt` and the resumption on `Split.released_spec`. -/
theorem driverEventsComplete : Obligations.DriverEventsComplete := by
  unfold Obligations.DriverEventsComplete
  intro s
  refine ⟨fun a hs hmem => ⟨?nowhere, exec_hostBar2Access_elsewhere, fun pkg off => exec_hostBar2Access_asks,
      fun pa hin hplace => exec_hostBar2Access_performs hs.1 hmem hin (State.mgmtPlace_eq_some.mp hplace)⟩,
    fun ctx team tm => exec_hostContextResume_wakes ctx, fun ctx die => ⟨exec_hostContextSwitch_waits, exec_hostContextSwitch_saves⟩,
    fun ctx => exec_contextEnd_ends, fun ctx mode breaks => ⟨exec_hostSetDebugMode_sets, exec_hostSetDebugMode_ignored⟩,
    fun team tm => exec_teamStop_halts, fun r c => exec_hostSingleStep_steps, fun team group tm g => exec_hostResumeGroup_resumes⟩
  case nowhere =>
    intro hno
    cases hin : s.inBar2 a with
    | false => exact exec_hostBar2Access_outside hin
    | true =>
      have hleaf := hno.resolve_left (by rw [hin]; exact Bool.noConfusion)
      rw [exec_hostBar2Access_inside hin, State.bar2At, hleaf]
      rfl

end

section
/-! PROOFS. Ordering (R178, R193, R194, R206 to R213, R295, R423, R478): what a release raises, what an acquire ends, what the issue of a
memory instruction does where no lane passes or a lane is misaligned, and what a prefetch brings into an L1. -/
namespace Sys2Proof.Machine

variable {s t u : State} {c : Cur} {f : FmtM}

/-! ### Stores on their way home (R206 to R211) -/

/-- From `s` to `t` the same stores are on their way home, in the same partition mode. -/
structure SameBuffer (s t : State) : Prop where
  wbuf : t.wbuf = s.wbuf
  mgmt : t.mgmt = s.mgmt

theorem SameBuffer.refl (s : State) : SameBuffer s s := ⟨rfl, rfl⟩

theorem SameBuffer.trans (h : SameBuffer s t) (h' : SameBuffer t u) : SameBuffer s u :=
  ⟨h'.wbuf.trans h.wbuf, h'.mgmt.trans h.mgmt⟩

theorem foldl_sameBuffer {β : Type} {g : State → β → State} {l : List β} (hg : ∀ v b, SameBuffer v (g v b)) :
    SameBuffer s (l.foldl g s) :=
  List.foldlRecOn (motive := SameBuffer s) l g (.refl s) fun v hv b _ => hv.trans (hg v b)

theorem State.stashRecall_sameBuffer (s : State) (tid w n : Nat) : SameBuffer s (s.stashRecall tid w n) := by
  have hback : SameBuffer s (s.stashWriteBack tid w n) := by
    fun_cases s.stashWriteBack tid w n with
    | case4 => exact ⟨rfl, rfl⟩
    | _ => exact .refl s
  exact hback.trans ⟨rfl, rfl⟩

theorem State.recallFor_sameBuffer (s : State) (tid : Option Nat) (pa n : Nat) : SameBuffer s (s.recallFor tid pa n) := by
  refine foldl_sameBuffer fun v line => ?_
  have howned : SameBuffer v { v with owned := mdel v.owned line } := ⟨rfl, rfl⟩
  dsimp only
  split
  · split
    · exact howned
    · exact howned.trans (State.stashRecall_sameBuffer _ _ _ _)
  · exact howned

theorem State.landStore_sameBuffer (s : State) (e : Buffered) : SameBuffer s (s.landStore e) := by
  have hhome : SameBuffer s (s.homePut e.pa e.bytes) := (State.recallFor_sameBuffer s none e.pa e.bytes.length).trans ⟨rfl, rfl⟩
  exact hhome.trans (foldl_sameBuffer fun _ _ => ⟨rfl, rfl⟩)

/-- Raised stores leave the buffer, and stand in it again at their level where that is not the home slice. -/
theorem State.raise_buffer (s : State) (es : List Buffered) (lvl : Nat) :
    (s.raise es lvl).mgmt = s.mgmt ∧
    (s.raise es lvl).wbuf = (s.wbuf.filter fun e => !es.any fun x => x.id = e.id) ++
      if 4 ≤ lvl then [] else es.map fun e => { e with level := lvl } := by
  rw [State.raise]
  dsimp only
  split
  · obtain ⟨hwbuf, hmgmt⟩ := foldl_sameBuffer (s := { s with wbuf := s.wbuf.filter fun e => !es.any fun x => x.id = e.id }) (l := es)
      State.landStore_sameBuffer
    exact ⟨hmgmt, hwbuf.trans (List.append_nil _).symm⟩
  · obtain ⟨hwbuf, hmgmt⟩ := foldl_sameBuffer (l := es) (g := fun s e => s.seenResv { e with level := lvl })
      (s := { s with wbuf := (s.wbuf.filter fun e => !es.any fun x => x.id = e.id) ++ es.map fun e => { e with level := lvl } })
      fun _ _ => ⟨rfl, rfl⟩
    exact ⟨hmgmt, hwbuf⟩

/-- The stores that a group of a team sees are those of the buffer short of the home slice that its instances hold. -/
theorem State.mem_stores {tid gi : Nat} {e : Buffered} : e ∈ s.stores tid gi ↔
    ∃ y, mget? s.teams tid = some y ∧ e ∈ s.wbuf ∧ e.level < 4 ∧ e.seenBy s.mgmt.mode tid gi y.die = true := by
  cases hy : mget? s.teams tid with
  | none => simp [State.stores, hy]
  | some y =>
    have hlevel : (e.level = 3 ∨ e.level = 2 ∨ e.level = 1 ∨ e.level = 0) ↔ e.level < 4 := by omega
    simp only [State.stores, hy, List.mem_flatMap, List.mem_filter, List.mem_cons, List.not_mem_nil, or_false, Bool.and_eq_true,
      decide_eq_true_eq, Option.some.injEq, exists_eq_left', ← hlevel]
    constructor
    · rintro ⟨l, hl, hmem, rfl, hseen⟩
      exact ⟨hmem, hl, hseen⟩
    · rintro ⟨hmem, hl, hseen⟩
      exact ⟨e.level, hl, hmem, rfl, hseen⟩

/-- Recalls and raises move no team to another die. -/
theorem Recalled.die (h : Recalled s t) {k : Nat} {y : Team} (hy : mget? t.teams k = some y) :
    ∃ x, mget? s.teams k = some x ∧ x.die = y.die := by
  have hteam : (mget? s.teams k).map Team.unlined = some y.unlined := by
    rw [← mget?_mmap, ← h.teams, mget?_mmap, hy, Option.map_some]
  obtain ⟨x, hx, hxy⟩ := Option.map_eq_some_iff.mp hteam
  exact ⟨x, hx, (congrArg Team.die hxy :)⟩

/-- After a release at a level its group sees no store that has not come that far (R208). -/
theorem State.raiseFor_level {tid gi lvl : Nat} {e : Buffered} (he : e ∈ (s.raiseFor tid gi lvl).stores tid gi) : lvl ≤ e.level := by
  obtain ⟨y, hy, hmem, hlevel, hseen⟩ := State.mem_stores.mp he
  obtain ⟨x, hx, hdie⟩ := (State.raiseFor_recalled (tid := tid) (gi := gi) (lvl := lvl) (.refl s)).die hy
  by_contra hlow
  rw [State.raiseFor] at hmem hseen
  split at hmem
  · next hempty => simp [List.isEmpty_iff.mp hempty] at hmem
  · next hsome =>
    obtain ⟨hmgmt, hwbuf⟩ := State.raise_buffer s ((s.stores tid gi).filter fun e => e.level < lvl) lvl
    rw [if_neg hsome, hmgmt, ← hdie] at hseen
    rw [hwbuf, List.mem_append] at hmem
    rcases hmem with hkept | hraised
    · obtain ⟨hin, hnot⟩ := List.mem_filter.mp hkept
      have hes : e ∈ (s.stores tid gi).filter fun e => e.level < lvl :=
        List.mem_filter.mpr ⟨State.mem_stores.mpr ⟨x, hx, hin, hlevel, hseen⟩, by simpa using hlow⟩
      simp only [Bool.not_eq_true', List.any_eq_false, decide_eq_true_eq] at hnot
      exact hnot e hes rfl
    · split at hraised
      · cases hraised
      · obtain ⟨x, -, rfl⟩ := List.mem_map.mp hraised
        exact hlow (Nat.le_refl lvl)

theorem State.release_level {tid gi ord sc : Nat} {e : Buffered} (hord : ord / 2 % 2 ≠ 0) (he : e ∈ (s.release tid gi ord sc).stores tid gi) :
    scopeLevel sc ≤ e.level := by
  rw [State.release, if_neg hord] at he
  dsimp only at he
  split at he
  · exact State.raiseFor_level he
  · exact State.raiseFor_level (s := s) (tid := tid) (gi := gi) he
  · next heq => cases heq

/-- With no store on its way and no view of a core a release leaves nothing to be seen. -/
theorem State.release_of_empty (hb : s.wbuf = []) (hv : s.views = []) (tid gi ord sc : Nat) : s.release tid gi ord sc = s := by
  have hraise (lvl : Nat) : s.raiseFor tid gi lvl = s := by rw [State.raiseFor, hb]; rfl
  have hnote (core lvl : Nat) : s.noteRelease core lvl none = s := by
    cases s
    cases hv
    rfl
  rw [State.release]
  dsimp only
  rw [hraise]
  split
  · rfl
  · split
    · rfl
    · exact hnote _ _
    · next heq => cases heq

/-! ### Acquires (R194, R207 to R210, R295) -/

theorem State.l1Clear_l1 (s : State) (k : Nat) : ((s.l1Clear k).core k).l1 = [] :=
  congrArg CoreSt.l1 ((State.core_modCore (s := s) k k fun c => { c with l1 := [] }).trans (if_pos rfl))

theorem State.l1Clear_sameMemory (s : State) (k : Nat) : SameMemory s (s.l1Clear k) :=
  ⟨fun _ => rfl, fun j a => congrArg (rdByte · a) (sameArrays_l1Clear s k j)⟩

/-- A lookup finds nothing that a filter takes out. -/
theorem mget?_filter_none {α : Type} {m : SMap α} {p : Nat × α → Bool} {k : Nat} (h : ∀ v, p (k, v) = false) :
    mget? (m.filter p) k = none := by
  rw [Option.eq_none_iff_forall_ne_some]
  intro v hv
  have hkept := (List.mem_filter.mp (mem_of_mget? hv)).2
  rw [h v] at hkept
  cases hkept

/-- What the L2s of a die hold of peers' pages after a change on a device. -/
theorem State.modCopies_l2 (s : State) (dev : Nat) (g : SMap Byte → SMap Byte) (d : Nat) : ((s.modCopies dev g).die d).l2 =
    if deviceOf s.mgmt.mode d = dev && !(s.die d).l2.isEmpty then g (s.die d).l2 else (s.die d).l2 := by
  rw [State.die, mget, State.modCopies, mget?_map_keyed s.dies fun j y =>
    if deviceOf s.mgmt.mode j = dev && !y.l2.isEmpty then { y with l2 := g y.l2 } else y, State.die, mget]
  cases mget? s.dies d with
  | none => simp
  | some y =>
    simp only [Option.map_some, Option.getD_some]
    split <;> rfl

/-- After its copies are dropped no die of a context's device holds a byte of a peer's page for it. -/
theorem State.dropCopies_l2 {x d key : Nat} (hkey : key / 2 ^ 64 = x) (hd : deviceOf s.mgmt.mode d = ctxDevice x) :
    mget? ((s.dropCopies x).die d).l2 key = none := by
  rw [State.dropCopies, State.modCopies_l2, hd]
  split
  · exact mget?_filter_none fun v => decide_eq_false fun hne => hne hkey
  · next hheld =>
    have hempty : (s.die d).l2 = [] := by simpa using hheld
    rw [hempty]
    rfl

theorem State.acquire_of_no_view (hv : s.views = []) (y : Team) (ord sc lvl : Nat) (rs : Option (List (Nat × Nat))) :
    s.acquire y ord sc lvl rs = if ord % 2 = 0 ∨ sc < 3 then s
      else if sc = 6 then (s.dropCopies y.ctx).l1Clear y.coreKey else s.l1Clear y.coreKey := by
  cases s
  cases hv
  simp only [State.acquire, Bool.or_eq_true, decide_eq_true_eq]
  split
  · rfl
  · split <;> rfl

/-- An acquire moves no store. -/
theorem State.acquire_stores (s : State) (y : Team) (ord sc lvl : Nat) (rs : Option (List (Nat × Nat))) (tid gi : Nat) :
    (s.acquire y ord sc lvl rs).stores tid gi = s.stores tid gi := by
  rw [State.acquire]
  split
  · rfl
  · split <;> rfl

/-- An acquire at die scope or wider leaves nothing in the core's L1, and of its views those that it does not end. -/
theorem State.acquire_ends {y : Team} {ord sc lvl : Nat} {rs : Option (List (Nat × Nat))} (hord : ord % 2 = 1) (hsc : 3 ≤ sc) :
    ((s.acquire y ord sc lvl rs).core y.coreKey).l1 = [] ∧
    ∀ v ∈ (s.acquire y ord sc lvl rs).views, v.core = y.coreKey → v.endsAt y.die lvl rs = false := by
  have hacts : ¬ (ord % 2 = 0 || sc < 3) = true := by
    simp only [Bool.or_eq_true, decide_eq_true_eq]
    omega
  rw [State.acquire, if_neg hacts]
  refine ⟨State.l1Clear_l1 _ _, fun v hv hcore => ?_⟩
  have hkept := (List.mem_filter.mp hv).2
  simpa [hcore] using hkept

/-! ### Fences (R212, R213) -/

theorem exec_fence_eq (hc : s.cur? = some c) : exec (.fence f) s = .next (s.fence c f.ord.toNat f.sc.toNat) := onSplit_eq s c _ hc

theorem State.fence_of_empty (hb : s.wbuf = []) (hv : s.views = []) (c : Cur) (ord sc : Nat) :
    s.fence c ord sc = if ord % 2 = 0 ∨ sc < 3 then s
      else if sc = 6 then (s.dropCopies c.team.ctx).l1Clear c.team.coreKey else s.l1Clear c.team.coreKey := by
  rw [State.fence, State.release_of_empty hb hv, State.acquire_of_no_view hv]

theorem State.fence_level {ord sc : Nat} {e : Buffered} (hord : ord / 2 % 2 ≠ 0)
    (he : e ∈ (s.fence c ord sc).stores c.ref.team c.ref.group) : scopeLevel sc ≤ e.level := by
  rw [State.fence, State.acquire_stores] at he
  exact State.release_level hord he

theorem State.fence_ends {ord sc : Nat} (hord : ord % 2 = 1) (hsc : 3 ≤ sc) :
    ((s.fence c ord sc).core c.team.coreKey).l1 = [] ∧ ∀ v ∈ (s.fence c ord sc).views, v.core = c.team.coreKey →
      v.endsAt c.team.die (min (scopeLevel sc) (c.split.rdScope - 1)) none = false := by
  rw [State.fence]
  exact State.acquire_ends hord hsc

/-! ### Issue with no lane, and with a misaligned one (R212, R478) -/

theorem acts_of_mem_lanes {k : Com} {l : Nat} (hl : l ∈ lanes (c.pass k)) : c.acts k = true := by
  obtain ⟨-, hbit⟩ := (mem_lanes _ l).mp hl
  have hne : c.pass k ≠ 0 := fun h0 => by simp [h0] at hbit
  simpa [Cur.acts] using hne

section
variable {i : Instr} {kind : MemKind} {off : BitVec 8} {need : Need} {atomic : Bool} {data cmp : Cur → Nat → Nat}

/-- With no lane to pass, no window to open, nothing to release and nothing to acquire, the issue leaves the state. -/
theorem memIssue_idle (hc : s.cur? = some c) (ha : c.acts f.com = false) (hi : i.com? = some f.com) (hla : f.com.la = 0) (hb : s.wbuf = [])
    (hv : s.views = []) (hord : f.ord.toNat % 2 = 0 ∨ FmtM.scope f < 3) : memIssue i f kind off need atomic data cmp s = .next s := by
  have hfence : s.fence c f.ord.toNat (FmtM.scope f) = s := (State.fence_of_empty hb hv c _ _).trans (if_pos hord)
  have hwindow : s.emptyWindow c.ref i = s := by simp [State.emptyWindow, cur?_lookup s c hc, hi, hla]
  rw [memIssue, onSplit_eq s c _ hc]
  simp only [ha, Bool.not_false, if_true, hfence, hwindow]

/-- A misaligned lane comes before every other fault. -/
theorem State.memCheck_misaligned (h : ∃ l ∈ lanes (c.pass f.com), (c.ea f off l).toNat % FmtM.bytes f ≠ 0) :
    s.memCheck c f off need = .error (s.alignAt c) := by
  obtain ⟨l, hl, hmis⟩ := h
  have hany : ((lanes (c.pass f.com)).any fun l => (c.ea f off l).toNat % FmtM.bytes f ≠ 0) = true :=
    List.any_eq_true.mpr ⟨l, hl, by simpa using hmis⟩
  simp only [State.memCheck, List.any_map, Function.comp_def, hany, if_true]

theorem memIssue_misaligned (hc : s.cur? = some c) (h : ∃ l ∈ lanes (c.pass f.com), (c.ea f off l).toNat % FmtM.bytes f ≠ 0) :
    memIssue i f kind off need atomic data cmp s = .next (s.alignAt c) := by
  have hacts : c.acts f.com = true := h.elim fun _ hl => acts_of_mem_lanes hl.1
  rw [memIssue, onSplit_eq s c _ hc]
  simp only [hacts, Bool.not_true, Bool.false_eq_true, if_false, State.memCheck_misaligned h]

end

/-! ### Prefetches (R193, R423) -/

/-- A key is listed after writes to a list of keys where it is one of them, or was listed before. -/
theorem isSome_mget?_foldl_mput {α : Type} (v : Nat → α) {ks : List Nat} {m : SMap α} {j : Nat}
    (h : j ∈ ks ∨ (mget? m j).isSome = true) : (mget? (ks.foldl (fun m k => mput m k (v k)) m) j).isSome = true := by
  induction ks generalizing m with
  | nil => exact h.resolve_left (List.not_mem_nil)
  | cons k ks ih =>
    refine ih ?_
    rw [mget?_mput]
    by_cases hk : k = j
    · simp [hk]
    · simpa [hk, Ne.symm hk] using h

/-- From `s` to `t` sectors have come into L1s, and lines may have lost their owners: nothing else has changed that a translation, a team
or a byte of memory rests on. -/
structure Prefetched (s t : State) : Prop where
  hbm : t.hbm = s.hbm
  teams : t.teams = s.teams
  ctxs : t.ctxs = s.ctxs
  dies : t.dies = s.dies
  mgmt : t.mgmt = s.mgmt
  arr : SameArrays s t
  tlb : ∀ k, (t.core k).tlb = (s.core k).tlb
  l1 : ∀ k pa n, (s.core k).l1Has pa n = true → (t.core k).l1Has pa n = true

theorem Prefetched.refl (s : State) : Prefetched s s := ⟨rfl, rfl, rfl, rfl, rfl, fun _ => rfl, fun _ => rfl, fun _ _ _ h => h⟩

theorem Prefetched.trans (h : Prefetched s t) (h' : Prefetched t u) : Prefetched s u where
  hbm := h'.hbm.trans h.hbm
  teams := h'.teams.trans h.teams
  ctxs := h'.ctxs.trans h.ctxs
  dies := h'.dies.trans h.dies
  mgmt := h'.mgmt.trans h.mgmt
  arr := fun k => (h'.arr k).trans (h.arr k)
  tlb := fun k => (h'.tlb k).trans (h.tlb k)
  l1 := fun k pa n hk => h'.l1 k pa n (h.l1 k pa n hk)

theorem Prefetched.noLines (h : Prefetched s t) (hs : s.noLines) : t.noLines := by
  unfold State.noLines
  rw [h.teams]
  exact hs

theorem Prefetched.sameMemory (h : Prefetched s t) : SameMemory s t :=
  ⟨fun a => congrArg (rdByte · a) h.hbm, fun k a => congrArg (rdByte · a) (h.arr k)⟩

/-- A prefetch changes no translation. -/
theorem Prefetched.translateAt (h : Prefetched s t) (hs : s.noLines) (k d x : Nat) (va : DWord) (need : Need) :
    t.translateAt k d x va need = s.translateAt k d x va need := by
  have htables : SameTables s t x := .of_eq h.dies h.mgmt h.ctxs
  have hwalk : t.walkAt k d x va.toNat = s.walkAt k d x va.toNat := by
    simp only [State.walkAt, h.tlb, State.walk, State.die, h.dies, leafOk_congr htables, htables.rootDie, htables.rootOff,
      walkFrom_congr hs (h.noLines hs) htables h.hbm]
  simp only [State.translateAt, hwalk, State.checkLeaf, placeOf_congr htables]

/-- The sectors of a fill are in the L1, with those that were there. -/
theorem State.l1Fill_l1Has (s : State) (k pa n : Nat) : ((s.l1Fill k pa n).core k).l1Has pa n = true := by
  rw [State.l1Fill, State.core_modCore, if_pos rfl, CoreSt.l1Has, List.all_eq_true]
  exact fun j hj => isSome_mget?_foldl_mput _ (.inl hj)

theorem State.l1Fill_prefetched (s : State) (k pa n : Nat) : Prefetched s (s.l1Fill k pa n) := by
  refine ⟨rfl, rfl, rfl, rfl, rfl, sameArrays_modCore fun _ => rfl, fun j => ?_, fun j p m hj => ?_⟩
  · rw [State.l1Fill, State.core_modCore]
    split
    · next hk => rw [hk]
    · rfl
  · rw [State.l1Fill, State.core_modCore]
    split
    · next hk =>
      rw [CoreSt.l1Has, List.all_eq_true] at hj ⊢
      exact fun i hi => isSome_mget?_foldl_mput _ (.inr (hk ▸ hj i hi))
    · exact hj

/-- With no line to recall a line comes into an L1 as memory stands. -/
theorem State.recall_l1Fill (hs : s.noLines) (k pa n : Nat) :
    Prefetched s ((s.recallFor none pa n).l1Fill k pa n) ∧ (((s.recallFor none pa n).l1Fill k pa n).core k).l1Has pa n = true := by
  obtain ⟨o, ho⟩ := State.recallFor_noLines hs none pa n
  rw [ho]
  have howning : Prefetched s (s.owning o) := ⟨rfl, rfl, rfl, rfl, rfl, fun _ => rfl, fun _ => rfl, fun _ _ _ h => h⟩
  exact ⟨howning.trans (State.l1Fill_prefetched _ _ _ _), State.l1Fill_l1Has _ _ _ _⟩

/-- What PREF does for one lane. -/
def State.prefLane (s : State) (c : Cur) (f : FmtM) (l : Nat) : State :=
  match s.translateAt c.team.coreKey c.team.die c.team.ctx (c.ea f f.off l) { rd := true } with
  | .ok (.hbm pa) _ =>
    if (c.ea f f.off l).toNat % FmtM.bytes f ≠ 0 || (c.team.winOf (c.ea f f.off l).toNat).isSome || 2 ≤ f.cp.toNat then s
    else (s.recallFor none (pa / 128 * 128) 128).l1Fill c.team.coreKey (pa / 128 * 128) 128
  | _ => s

theorem exec_pref_eq (hc : s.cur? = some c) :
    exec (.pref f) s = .next ((lanes (c.pass f.com)).foldl (fun s l => s.prefLane c f l) s) := onSplit_eq s c _ hc

theorem State.prefLane_prefetched (hs : s.noLines) (l : Nat) : Prefetched s (s.prefLane c f l) := by
  rw [State.prefLane]
  split
  · split
    · exact .refl s
    · exact (State.recall_l1Fill hs _ _ _).1
  · exact .refl s

theorem foldl_prefLane_prefetched (hs : s.noLines) (ls : List Nat) : Prefetched s (ls.foldl (fun s l => s.prefLane c f l) s) :=
  List.foldlRecOn (motive := Prefetched s) ls _ (.refl s) fun _ hv l _ => hv.trans (State.prefLane_prefetched (hv.noLines hs) l)

theorem State.prefLane_l1Has {l pa : Nat} {e : DWord} (hs : s.noLines)
    (ht : s.translateAt c.team.coreKey c.team.die c.team.ctx (c.ea f f.off l) { rd := true } = .ok (.hbm pa) e)
    (hal : (c.ea f f.off l).toNat % FmtM.bytes f = 0) (hw : c.team.winOf (c.ea f f.off l).toNat = none) (hcp : f.cp.toNat < 2) :
    ((s.prefLane c f l).core c.team.coreKey).l1Has (pa / 128 * 128) 128 = true := by
  simp only [State.prefLane, ht, hal, hw, ne_eq, not_true_eq_false, decide_false, Option.isSome_none, Nat.not_le.mpr hcp, Bool.or_self,
    Bool.false_eq_true, if_false]
  exact (State.recall_l1Fill hs _ _ _).2

/-- What a lane brings in stays there while the lanes after it bring in theirs. -/
theorem foldl_prefLane_l1Has {ls : List Nat} {l pa : Nat} {e : DWord} (hs : s.noLines) (hl : l ∈ ls)
    (ht : s.translateAt c.team.coreKey c.team.die c.team.ctx (c.ea f f.off l) { rd := true } = .ok (.hbm pa) e)
    (hal : (c.ea f f.off l).toNat % FmtM.bytes f = 0) (hw : c.team.winOf (c.ea f f.off l).toNat = none) (hcp : f.cp.toNat < 2) :
    ((ls.foldl (fun s l => s.prefLane c f l) s).core c.team.coreKey).l1Has (pa / 128 * 128) 128 = true := by
  obtain ⟨as, bs, rfl⟩ := List.append_of_mem hl
  rw [List.foldl_append, List.foldl_cons]
  have hbefore : Prefetched s (as.foldl (fun s l => s.prefLane c f l) s) := foldl_prefLane_prefetched hs as
  have hlines := hbefore.noLines hs
  have hafter := foldl_prefLane_prefetched (c := c) (f := f) ((State.prefLane_prefetched (c := c) (f := f) hlines l).noLines hlines) bs
  exact hafter.l1 _ _ _ (State.prefLane_l1Has hlines ((hbefore.translateAt hs _ _ _ _ _).trans ht) hal hw hcp)

end Sys2Proof.Machine
end

section
open Sys2Proof Sys2Proof.Machine

/-- Settles O25: the issue of a memory instruction by `memIssue_idle` and `memIssue_misaligned`, a fence by its release and its acquire,
and PREF by the lines that its lanes bring in one after another. -/
theorem fencesAndLaneChecksHold : Obligations.FencesAndLaneChecksHold := by
  unfold Obligations.FencesAndLaneChecksHold
  refine ⟨fun s c f hc => ⟨?idle, ?misaligned, ?misalignedAtomic⟩, fun s c f hc => ⟨?empty, fun d key => State.dropCopies_l2, ?release, ?acquire,
    State.l1Clear_l1 _ _, State.l1Clear_sameMemory _ _, ?pref⟩⟩
  case idle =>
    intro ha hb hv hla hord
    simp only [List.forall_mem_cons]
    refine ⟨?_, ?_, ?_, ?_, ?_, ?_, ?_, List.forall_mem_nil _⟩
    all_goals exact memIssue_idle hc ha rfl hla hb hv hord
  case misaligned =>
    intro h
    simp only [List.forall_mem_cons]
    refine ⟨?_, ?_, ?_, ?_, List.forall_mem_nil _⟩
    all_goals exact memIssue_misaligned hc h
  case misalignedAtomic =>
    intro h
    simp only [List.forall_mem_cons]
    refine ⟨?_, ?_, ?_, List.forall_mem_nil _⟩
    all_goals exact memIssue_misaligned hc h
  case empty =>
    intro hb hv
    rw [exec_fence_eq hc, State.fence_of_empty hb hv]
  case release =>
    intro hord
    have hrelease : f.ord.toNat / 2 % 2 ≠ 0 := by omega
    exact ⟨_, exec_fence_eq hc, fun e he => State.fence_level hrelease he⟩
  case acquire =>
    intro hord hsc
    exact ⟨_, exec_fence_eq hc, State.fence_ends hord hsc⟩
  case pref =>
    intro hs
    have hfilled := foldl_prefLane_prefetched (c := c) (f := f) hs.1 (lanes (c.pass f.com))
    exact ⟨_, exec_pref_eq hc, hfilled.sameMemory, hfilled.teams, hfilled.ctxs, hfilled.dies,
      fun l hl pa e ht hal hw hcp => foldl_prefLane_l1Has hs.1 hl ht hal hw hcp⟩

end

section
/-! PROOFS. Circular buffers (R241 to R243, R354 to R356): the three instructions at their issue, the two events, and the end of a
BUFWAIT. -/
namespace Sys2Proof.Machine

variable {s : State} {c : Cur} {f : FmtE}

/-! ### Issue -/

/-- The buffer that a BUFCFG asks for (R354), and the bytes of the array that it covers (R222). -/
def Cur.bufAsked (c : Cur) (f : FmtE) : Buf :=
  { base := (c.rdS f.s0.toNat).toNat, esz := (c.rdS f.s1.toNat).toNat, pitch := (c.rdS f.s2.toNat).toNat, cnt := (c.rdS f.s3.toNat).toNat }
def Buf.foot (k : Buf) : List Foot := [{ place := .arr k.base, len := k.cnt * k.esz, write := true }]

/-- The fields of R241, each in its range, for buffer `b` of a team without a run into it. -/
structure Buf.Legal (k : Buf) (t : Team) (b : Nat) : Prop where
  number : b < 8
  base : k.base % 128 = 0
  size : k.esz % 128 = 0 ∧ 128 ≤ k.esz ∧ k.esz ≤ 65536
  pitch : k.pitch ≠ 0 ∧ k.pitch % 16 = 0
  count : 2 ≤ k.cnt ∧ k.cnt ≤ 16
  room : k.base + k.cnt * k.esz ≤ t.bytes
  idle : ∀ r ∈ t.runs, r.buf ≠ b

/-- A BUFCFG that is held for what was issued before it (R355). -/
def State.bufcfgHeld (s : State) (c : Cur) (f : FmtE) : State :=
  s.fresh.1.put (c.command (.bufcfg f) s.nextId
    ⟨.bufcfg f.qb.toNat (c.bufAsked f), c.ref.group, c.ref.split, (c.bufAsked f).foot, false, false, [], none⟩)

/-- A split whose team has other buffers. -/
def Cur.withBufs (c : Cur) (bs : SMap Buf) : Cur := { c with team := { c.team with bufs := bs } }

/-- A command counted on its split and listed, with whatever its meaning has done to the team's buffers. -/
theorem command_withBufs {i : Instr} {x : Ctr} {k : Cmd} (bs : SMap Buf) (hi : i.counter = some x) (hg : k.group = c.ref.group)
    (hp : k.split = c.ref.split) :
    ∃ d q, Posted s (s.fresh.1.put ((c.withBufs bs).command i s.nextId k)) c d x q ∧ OnlyCounts c d ∧
      SameRegisters c.group d.group ∧ q.kind = k.kind ∧ d.team.bufs = bs := by
  rw [Cur.command_eq hi]
  have hposted := posted_put (s := s) (c := c.withBufs bs) (e := { (c.withBufs bs).count x s.nextId with
    team := { c.team with bufs := bs, cmds := mput c.team.cmds s.nextId { k with cause := some (i, (c.count x s.nextId).split) } } })
    rfl rfl rfl rfl hg hp
  exact ⟨_, _, hposted, rfl, ⟨rfl, rfl, rfl, rfl⟩, rfl, rfl⟩

theorem effected_withBufs {i : Instr} {x : Ctr} (bs : SMap Buf) (foot : List Foot) (hi : i.counter = some x) :
    ∃ d q, Posted s (s.effected (c.withBufs bs) i foot) c d x q ∧ OnlyCounts c d ∧ SameRegisters c.group d.group ∧
      q.kind = .effected ∧ d.team.bufs = bs :=
  command_withBufs bs hi rfl rfl

theorem bufcfgHeld_posted :
    ∃ d q, Posted s (s.bufcfgHeld c f) c d .enc q ∧ OnlyCounts c d ∧ SameRegisters c.group d.group ∧
      q.kind = .bufcfg f.qb.toNat (c.bufAsked f) ∧ d.team.bufs = c.team.bufs :=
  command_withBufs c.team.bufs rfl rfl rfl

theorem Cur.fall_ref (c : Cur) : c.fall.ref = c.ref := by
  obtain ⟨y, hfall, -⟩ := Cur.fall_spec c
  rw [hfall]

section
variable (hc : s.cur? = some c) (ha : c.acts f.com = true)
include hc ha

theorem exec_bufcfg_spec :
    (¬ (c.bufAsked f).Legal c.team f.qb.toNat → exec (.bufcfg f) s = .next (s.illop c 10)) ∧
    ((c.bufAsked f).Legal c.team f.qb.toNat → exec (.bufcfg f) s = .next
      (if c.team.bufBusy f.qb.toNat s.nextId || !c.team.clear s.nextId (c.bufAsked f).foot then s.bufcfgHeld c f
      else s.effected (c.withBufs (mput c.team.bufs f.qb.toNat (c.bufAsked f))) (.bufcfg f) (c.bufAsked f).foot)) := by
  rw [exec_bufcfg, execBufcfg, onSplit_eq s c _ hc]
  simp only [ha, Bool.not_true, Bool.false_eq_true, if_false]
  split
  · next hbad =>
    refine ⟨fun _ => rfl, fun hlegal => absurd hbad ?_⟩
    obtain ⟨hb, hbase, ⟨he, hlo, hhi⟩, ⟨hp, hp16⟩, ⟨hc2, hc16⟩, hroom, hruns⟩ := hlegal
    simp only [Cur.bufAsked] at hbase he hlo hhi hp hp16 hc2 hc16 hroom
    simpa [Nat.not_le.mpr hb, hbase, he, hp, hp16, hlo, hhi, Nat.not_lt.mpr hc2, hc16, hroom] using hruns
  · next hgood =>
    refine ⟨fun hill => absurd ?_ hill, fun _ => rfl⟩
    simp only [Bool.or_eq_true, decide_eq_true_eq, List.any_eq_true, not_or, not_exists, not_and, Nat.not_le, Nat.not_lt, not_not] at hgood
    obtain ⟨⟨⟨⟨⟨⟨⟨⟨⟨⟨hb, hbase⟩, he⟩, hlo⟩, hhi⟩, hp⟩, hp16⟩, hc2⟩, hc16⟩, hroom⟩, hruns⟩ := hgood
    exact ⟨hb, hbase, ⟨he, hlo, hhi⟩, ⟨hp, hp16⟩, ⟨hc2, hc16⟩, hroom, hruns⟩

theorem exec_bufwait_waits (hb : f.qb.toNat < 8) (hk : f.flg.toNat % 16 < (c.team.buf f.qb.toNat).cnt) :
    ∃ (u : State) (d : Cur) (q : Cmd), exec (.bufwait f) s = .next (u.settle c.ref.team) ∧ Posted s u c d .enc q ∧
      q.kind = .bufwait f.qb.toNat (f.flg.toNat % 16) f.s0.toNat ∧ Waits c d (.bufwait s.nextId) := by
  obtain ⟨d, q, hposted, hkind, hwaits⟩ := waiting_posted (s := s) (c := c) (b := c) (i := .bufwait f) (x := .enc)
    (p := .bufwait s.nextId) (k := ⟨.bufwait f.qb.toNat (f.flg.toNat % 16) f.s0.toNat, c.ref.group, c.ref.split, [], true, false, [], none⟩)
    rfl rfl rfl rfl
  refine ⟨_, d, q, ?_, hposted, hkind, hwaits⟩
  rw [exec_bufwait, execBufwait, onSplit_eq s c _ hc]
  simp only [ha, Nat.not_le.mpr hb, Nat.not_le.mpr hk, decide_false, Bool.or_self, Bool.not_true, Bool.false_eq_true, if_false]
  exact congrArg (fun r : Ref => Host.Outcome.next (State.settle _ r.team)) (Cur.fall_ref _)

theorem exec_bufwait_illegal (hb : 8 ≤ f.qb.toNat) : exec (.bufwait f) s = .next (s.illop c 10) := by
  rw [exec_bufwait, execBufwait, onSplit_eq s c _ hc]
  simp only [ha, hb, decide_true, Bool.true_or, Bool.not_true, Bool.false_eq_true, if_true, if_false]

theorem exec_bufrel_illegal (hb : 8 ≤ f.qb.toNat) : exec (.bufrel f) s = .next (s.illop c 10) := by
  rw [exec_bufrel, execBufrel, onSplit_eq s c _ hc]
  simp only [ha, hb, decide_true, Bool.true_or, Bool.not_true, Bool.false_eq_true, if_true, if_false]

theorem exec_bufrel_passes (hb : f.qb.toNat < 8) (hn : 1 ≤ f.flg.toNat % 32) (hcnt : f.flg.toNat % 32 ≤ (c.team.buf f.qb.toNat).cnt)
    (hfull : ∀ i, i < f.flg.toNat % 32 → (c.team.buf f.qb.toNat).isFull ((c.team.buf f.qb.toNat).head + i) = true) :
    exec (.bufrel f) s = .next ((s.effected (c.withBufs
      (mput c.team.bufs f.qb.toNat ((c.team.buf f.qb.toNat).pass (f.flg.toNat % 32) c.localLoads))) (.bufrel f) []).settle c.ref.team) := by
  have hall : (List.range (f.flg.toNat % 32)).all
      (fun i => (c.team.buf f.qb.toNat).isFull ((c.team.buf f.qb.toNat).head + i)) = true := by simpa using hfull
  rw [exec_bufrel, execBufrel, onSplit_eq s c _ hc]
  simp only [ha, Nat.not_le.mpr hb, Nat.not_lt.mpr hn, Nat.not_lt.mpr hcnt, hall, decide_false, Bool.or_self, Bool.not_true,
    Bool.false_eq_true, if_false]
  rfl

end

theorem Team.buf_of_bufs {t : Team} {bs : SMap Buf} {b : Nat} {k : Buf} (h : t.bufs = mput bs b k) : t.buf b = k := by
  rw [Team.buf, h, mget, mget?_mput_self, Option.getD_some]

/-! ### Events -/

section
variable {team cmd : Nat} {tm : Team} {k : Cmd} (htm : mget? s.teams team = some tm) (hk : mget? tm.cmds cmd = some k)
  (hres : tm.status = .resident)
include htm

/-- A change of one team. -/
theorem modTeam_spec (g : Team → Team) : SameMachine s (s.modTeam team g) ∧ mget? (s.modTeam team g).teams team = some (g tm) := by
  refine ⟨⟨⟨fun _ => rfl, fun _ _ => rfl⟩, rfl, rfl, rfl, rfl, rfl, rfl, rfl, rfl, rfl, rfl⟩, ?_⟩
  rw [State.modTeam_teams, mget?_mmod, if_pos rfl, htm, Option.map_some]

include hk hres

theorem exec_bufcfgTakeEffect_resets {b : Nat} {cfg : Buf} (hkind : k.kind = .bufcfg b cfg) (hclear : tm.clear cmd k.foot = true)
    (hidle : tm.bufBusy b cmd = false) :
    exec (.bufcfgTakeEffect team cmd) s = .next ((s.modTeam team fun t =>
      { t with bufs := mput t.bufs b cfg, cmds := mput t.cmds cmd { k with kind := .effected, begun := true } }).settle team) := by
  obtain ⟨kind, g, sp, foot, bg, tk, vp, cs⟩ := k
  subst hkind
  rw [exec_bufcfgTakeEffect, execBufcfgTakeEffect]
  simp only [htm, hk, Option.bind_some, Option.map_some, hres, hclear, hidle, ne_eq, not_true_eq_false, decide_false, Bool.not_true,
    Bool.or_self, Bool.false_eq_true, if_false]

theorem exec_bufferEntryTake_tries {y : Copy} (hkind : k.kind = .copy y) :
    exec (.bufferEntryTake team cmd) s = .next ((s.modTeam team fun t => t.tryCopy cmd).settle team) := by
  obtain ⟨kind, g, sp, foot, bg, tk, vp, cs⟩ := k
  subst hkind
  rw [exec_bufferEntryTake, execBufferEntryTake]
  simp only [htm, hk, Option.bind_some, Option.map_some, hres, ne_eq, not_true_eq_false, if_false]

end

/-- A copy that knows its entry at most begins. -/
theorem Team.startCopy_spec {t : Team} {cmd : Nat} {k : Cmd} {y : Copy} (hk : mget? t.cmds cmd = some k) (hkind : k.kind = .copy y)
    (hentry : y.entry.isNone = false) : ∃ b, t.startCopy cmd = { t with cmds := mput t.cmds cmd { k with begun := b } } := by
  obtain ⟨kind, g, sp, foot, bg, tk, vp, cs⟩ := k
  subst hkind
  simp only [Team.startCopy, hk, hentry, Bool.and_false, Bool.false_eq_true, if_false]
  exact ⟨_, rfl⟩

/-- The copy that is next takes the entry at TAIL (R242). -/
theorem Team.tryCopy_takes {t : Team} {cmd b : Nat} {k : Cmd} {y : Copy} (hk : mget? t.cmds cmd = some k) (hkind : k.kind = .copy y)
    (hbuf : y.buf = some b) (hentry : y.entry = none) (hmay : t.mayTake cmd b = true) :
    ((t.tryCopy cmd).buf b).tail = (t.buf b).tail + 1 ∧ ((t.tryCopy cmd).buf b).head = (t.buf b).head ∧
      ∃ k', mget? (t.tryCopy cmd).cmds cmd = some k' ∧ k'.kind = .copy (y.take (t.buf b).tail ((t.buf b).addr (t.buf b).tail)) ∧
        k'.taken = true := by
  obtain ⟨kind, g, sp, foot, bg, tk, vp, cs⟩ := k
  subst hkind
  let y₁ := y.take (t.buf b).tail ((t.buf b).addr (t.buf b).tail)
  let k₁ : Cmd := ⟨.copy y₁, g, sp, foot ++ y₁.foot, bg, true, vp, cs⟩
  let t₁ : Team := { (t.takeEntry b).1 with cmds := mput t.cmds cmd k₁ }
  have htry : t.tryCopy cmd = t₁.startCopy cmd := by
    simp only [Team.tryCopy, hk, hbuf, hentry, hmay, if_true]
    rfl
  obtain ⟨bg₁, hstart⟩ := Team.startCopy_spec (t := t₁) (mget?_mput_self t.cmds cmd k₁) rfl rfl
  have hb : (t.tryCopy cmd).buf b = t₁.buf b := by rw [htry, hstart]; rfl
  rw [hb, Team.buf_of_bufs (t := t₁) rfl, htry, hstart]
  exact ⟨rfl, rfl, _, mget?_mput_self _ _ _, rfl, rfl⟩

/-! ### The end of a BUFWAIT (R356) -/

/-- The completion of a command keeps a group but for its counters, batches and pending writes, and its splits where they are parked. -/
theorem Team.cmdDone_group {t : Team} {gi : Nat} {g : Group} (hg : mget? t.groups gi = some g) (id : Nat) :
    ∃ g', mget? (t.cmdDone id).groups gi = some g' ∧ g' = { g with splits := g'.splits, closed := g'.closed } ∧
      ∀ p sp, mget? g.splits p = some sp → ∃ sp', mget? g'.splits p = some sp' ∧ sp'.park = sp.park := by
  simp only [Team.cmdDone, Team.complete, mget?_mmap, hg, Option.map_some, Option.some.injEq, exists_eq_left', true_and]
  intro p sp hp
  simp only [hp, Option.map_some, Option.some.injEq, exists_eq_left']

/-- The group of a BUFWAIT whose entry is full: its register takes the entry's address, and the split that waits goes on. -/
def Group.bufWoken (g : Group) (id split reg : Nat) (v : Word) : Group :=
  let h := g.landS split [reg] fun g => g.wrS reg v
  { h with splits := mmap h.splits fun p =>
      if p.park = .bufwait id || p.park = .waitb id then { p with park := .none, parked := 0 } else p }

theorem Group.bufWoken_split {g : Group} {id p : Nat} {sp : Split} (hp : mget? g.splits p = some sp) (hpark : sp.park = .bufwait id)
    (split reg : Nat) (v : Word) : ∃ sp', mget? (g.bufWoken id split reg v).splits p = some sp' ∧ sp'.park = .none := by
  have hlanded : mget? (g.landS split [reg] fun g => g.wrS reg v).splits p = some (sp.landed g.s split [reg] p) := by
    rw [Group.landS_eq]
    exact (mget?_map_keyed g.splits (fun k q => q.landed g.s split [reg] k) p).trans (by rw [hp, Option.map_some])
  have hstill : (sp.landed g.s split [reg] p).park = .bufwait id := by rw [Split.landed_eq]; exact hpark
  simp only [Group.bufWoken, mget?_mmap, hlanded, Option.map_some, Option.some.injEq, exists_eq_left', hstill, decide_true, Bool.true_or,
    if_true]

theorem Team.wakeOne_bufwait {t : Team} {id b j reg : Nat} {k : Cmd} {g : Group} (hkind : k.kind = .bufwait b j reg)
    (hg : mget? t.groups k.group = some g) (hrun : g.halted = false) (hres : t.status = .resident)
    (hfull : (t.buf b).isFull ((t.buf b).head + j) = true) :
    t.wakeOne id k =
      let g' := g.bufWoken id k.split reg (BitVec.ofNat 32 ((t.buf b).addr ((t.buf b).head + j)))
      ({ t with groups := mput t.groups k.group g' } : Team).cmdDone id := by
  obtain ⟨kind, gi, sp, foot, bg, tk, vp, cs⟩ := k
  subst hkind
  simp only [Team.wakeOne, hg, hrun, hres, hfull, ne_eq, not_true_eq_false, decide_false, Bool.or_self, Bool.false_eq_true, if_true,
    if_false]
  rfl

/-- The wait of a BUFWAIT for a full entry ends (R356). -/
theorem Team.wakeOne_bufwait_spec {t : Team} {id b j reg p : Nat} {k : Cmd} {g : Group} {sp : Split} (hkind : k.kind = .bufwait b j reg)
    (hg : mget? t.groups k.group = some g) (hrun : g.halted = false) (hres : t.status = .resident)
    (hfull : (t.buf b).isFull ((t.buf b).head + j) = true) (hp : mget? g.splits p = some sp) (hpark : sp.park = .bufwait id) :
    ∃ g' sp', mget? (t.wakeOne id k).groups k.group = some g' ∧ mget? g'.splits p = some sp' ∧ sp'.park = .none ∧
      g'.sreg reg = BitVec.ofNat 32 ((t.buf b).addr ((t.buf b).head + j)) ∧ (∀ n, n ≠ reg → g'.sreg n = g.sreg n) ∧ g'.v = g.v ∧
      g'.p = g.p := by
  rw [Team.wakeOne_bufwait hkind hg hrun hres hfull]
  obtain ⟨g', hg', hframe, hsplits⟩ :=
    Team.cmdDone_group (t := { t with groups := mput t.groups k.group _ }) (mget?_mput_self t.groups k.group _) id
  obtain ⟨q, hq, hnone⟩ := Group.bufWoken_split hp hpark k.split reg (BitVec.ofNat 32 ((t.buf b).addr ((t.buf b).head + j)))
  obtain ⟨sp', hsp', hsame⟩ := hsplits p q hq
  refine ⟨g', sp', hg', hsp', hsame.trans hnone, ?_⟩
  rw [hframe]
  have hsreg (n : Nat) := g.sreg_wrS reg n (BitVec.ofNat 32 ((t.buf b).addr ((t.buf b).head + j)))
  exact ⟨(hsreg reg).trans (if_pos rfl), fun n hn => (hsreg n).trans (if_neg (Ne.symm hn)), rfl, rfl⟩

end Sys2Proof.Machine
end

section
open Sys2Proof Sys2Proof.Machine

/-- Settles O32: the instructions are commands of a team whose buffers may have changed (`command_withBufs`), BUFWAIT one that waits, and
each event by its lemma. -/
theorem buffersComplete : Obligations.BuffersComplete := by
  unfold Obligations.BuffersComplete
  refine ⟨fun s c f hc ha => ?issue, fun s team cmd tm k htm hk hres => ⟨fun b cfg hkind hclear hidle => ?reset, ?take, ?woken⟩⟩
  case issue =>
    intro b k foot free
    obtain ⟨hillegal, hlegal⟩ := exec_bufcfg_spec hc ha
    have hfree_iff : free ↔ ¬ (c.team.bufBusy b s.nextId || !c.team.clear s.nextId foot) = true := by simp [free]
    refine ⟨?cfg, ?bad, exec_bufwait_waits hc ha, ?rel, fun hb => ⟨exec_bufwait_illegal hc ha hb, exec_bufrel_illegal hc ha hb⟩⟩
    case cfg =>
      intro hb hbase he hlo hhi hp hp16 hc2 hc16 hroom hruns
      rw [hlegal ⟨hb, hbase, ⟨he, hlo, hhi⟩, ⟨hp, hp16⟩, ⟨hc2, hc16⟩, hroom, hruns⟩]
      split
      · next hheld =>
        obtain ⟨d, q, hposted, honly, hregs, hkind, hbufs⟩ := bufcfgHeld_posted (s := s) (c := c) (f := f)
        exact ⟨_, d, q, rfl, hposted, honly, hregs, fun hfree => absurd hheld (hfree_iff.mp hfree), fun _ => ⟨hkind, hbufs⟩⟩
      · next hfree =>
        obtain ⟨d, q, hposted, honly, hregs, hkind, hbufs⟩ := effected_withBufs (s := s) (c := c) (i := .bufcfg f) (mput c.team.bufs b k) k.foot rfl
        exact ⟨_, d, q, rfl, hposted, honly, hregs, fun _ => ⟨hkind, hbufs⟩, fun hheld => absurd (hfree_iff.mpr hfree) hheld⟩
    case bad =>
      intro hbad
      refine hillegal fun hlegal : k.Legal c.team b => ?_
      obtain ⟨hb, hbase, ⟨he, -, hhi⟩, ⟨hp, -⟩, ⟨hc2, hc16⟩, -, -⟩ := hlegal
      omega
    case rel =>
      intro n hb hn hcnt hfull
      obtain ⟨d, q, hposted, honly, hregs, hkind, hbufs⟩ := effected_withBufs (s := s) (c := c) (i := .bufrel f)
        (mput c.team.bufs b ((c.team.buf b).pass n c.localLoads)) [] rfl
      refine ⟨_, d, q, exec_bufrel_passes hc ha hb hn hcnt hfull, hposted, hkind, honly, hregs, ?_⟩
      rw [Team.buf_of_bufs hbufs]
      exact ⟨rfl, rfl, fun j hj => by rw [hbufs, mget?_mput, if_neg (Ne.symm hj)]⟩
  case reset =>
    obtain ⟨hsame, hteam⟩ := modTeam_spec htm fun t : Team =>
      { t with bufs := mput t.bufs b cfg, cmds := mput t.cmds cmd { k with kind := .effected, begun := true } }
    exact ⟨_, _, exec_bufcfgTakeEffect_resets htm hk hres hkind hclear hidle, hsame, hteam, rfl⟩
  case take =>
    intro y b hkind hbuf hentry hmay
    obtain ⟨hsame, hteam⟩ := modTeam_spec htm fun t : Team => t.tryCopy cmd
    obtain ⟨htail, hhead, k', hk', hcopy, htaken⟩ := Team.tryCopy_takes hk hkind hbuf hentry hmay
    exact ⟨_, _, k', exec_bufferEntryTake_tries htm hk hres hkind, hsame, hteam, htail, hhead, hk', hcopy, htaken⟩
  case woken =>
    intro g b j reg p sp hkind hg hrun hfull hp hpark
    exact Team.wakeOne_bufwait_spec hkind hg hrun hres hfull hp hpark

end

section
/-! PROOFS. How many commands the windlass's core tracks while the teams are no map with rising keys (R222, R246).
`State.tracked` counts the commands of every team listed. WINDLASS_ITERATION puts its team back with the entry taken, and `mput` writes
it before the first larger key, so that a team that stands behind a larger key comes to stand a second time before it; its commands
are counted twice from then on, and the tracker is full though it had room for a copy of each stream. -/
namespace Sys2Proof.Machine

/-- A run at the start of a nest of one level, with one stream: rows of 16 bytes from 0x9000 on. -/
def loneRun : Run :=
  { id := 0, buf := 0, bounds := [3], idx := some [0], started := true
    streams := [{ base := 0x9000, rows := 1, rbytes := 16, doff := 0, spitch := 16, dpitch := 16, strides := [16, 0, 0, 0] }] }

/-- A team with that run into a buffer of two free entries, and with 32 commands under way. -/
def halfTracked : Team :=
  { ctx := 0, task := 0, index := 0, die := 0, core := 0, base := 0, bytes := 4096, runs := [loneRun]
    bufs := [(0, { base := 0, esz := 128, pitch := 16, cnt := 2 })]
    cmds := (List.range 32).map fun n => (n, { kind := .effected, group := 0, split := 0 }) }

/-- The team, number 0, listed behind team 1 of another core; the windlass is its own, and the TLB maps the first page of its context
to the first page of the die's memory. -/
def unsortedTeams : State :=
  { nextId := 32, dies := [(0, { tlb := [(0, 0x8F)] })], cores := [(0, { windlass := some 0 })]
    teams := [(1, { halfTracked with core := 1, runs := [], cmds := [] }), (0, halfTracked)] }

/-- The stream's one piece translates, and its row lies in the entry. -/
theorem translates_unsortedTeams : ∀ st ∈ loneRun.streams,
    (∀ p ∈ unsortedTeams.runPieces halfTracked (st.copyRows [0]), ∃ q x, p.2.2 = .ok q x) ∧
    ∀ p ∈ unsortedTeams.runDest halfTracked (st.copyRows [0]) ((halfTracked.buf 0).addr 0), ∃ q x, p.2.2 = .ok q x := by
  have hpieces : ∀ st ∈ loneRun.streams,
      unsortedTeams.runPieces halfTracked (st.copyRows [0]) = [(0x9000, 16, .ok (.hbm 0x9000) 0x8F)] ∧
      unsortedTeams.runDest halfTracked (st.copyRows [0]) ((halfTracked.buf 0).addr 0) = [(0, 16, .ok (.arr 0) 0)] := by decide
  intro st hst
  obtain ⟨hsource, hdest⟩ := hpieces st hst
  rw [hsource, hdest, List.forall_mem_singleton, List.forall_mem_singleton]
  exact ⟨⟨_, _, rfl⟩, _, _, rfl⟩

/-- The iteration takes its entry and stops before its only copy. -/
theorem windlassIteration_unsortedTeams :
    ∃ u : State, exec (.windlassIteration 0) unsortedTeams = .next u ∧
      (mget? u.teams 0).map Team.runs = some [{ loneRun with idx := some [1], cur := some ([0], 0, 0) }] :=
  ⟨_, rfl, by decide⟩

end Sys2Proof.Machine
end

section
open Sys2Proof Sys2Proof.Machine

/-- Refutes O33: it speaks of every state, and over `unsortedTeams`, whose keys do not rise, an iteration that the tracker has room for
(R222, R246) issues no copy, and its run stays at its first stream. -/
theorem not_windlassCompletes : ¬ Obligations.WindlassCompletes := by
  unfold Obligations.WindlassCompletes
  intro h
  obtain ⟨-, hevents⟩ := h
  obtain ⟨-, hiterates⟩ := hevents unsortedTeams 0 halfTracked loneRun [] rfl rfl rfl
  obtain ⟨hfirst, -, -⟩ := hiterates rfl rfl rfl
  obtain ⟨t, tm, ht, -, htm, hruns, -⟩ := hfirst [0] rfl rfl (by decide) ⟨by decide, translates_unsortedTeams⟩
  obtain ⟨u, hu, hstopped⟩ := windlassIteration_unsortedTeams
  obtain rfl : t = u := by simpa using ht.symm.trans hu
  rw [htm, Option.map_some, hruns] at hstopped
  exact absurd hstopped (by decide)

end

section
/-! PROOFS. Strand commands at their issue (R250 to R272, R441 to R443): what follows a command's checks and effect, said once for all
of them. -/
namespace Sys2Proof.Machine

variable {s s₁ : State} {c : Cur} {i : Instr} {acq : Bool} {α : Type}

/-- The state in which a command's completion is listed: an acquire has emptied the core's L1. -/
def State.acquired (s : State) (acq : Bool) (core : Nat) : State := if acq then s.l1Clear core else s

theorem State.acquired_teams (s : State) (acq : Bool) (core : Nat) : (s.acquired acq core).teams = s.teams := by
  cases acq <;> rfl

/-- A split is found alike in every state of the same teams. -/
theorem lookup?_of_teams {t : State} (h : t.teams = s.teams) (r : Ref) : t.lookup? r = s.lookup? r := by
  rw [State.lookup?, State.lookup?, h]

/-- The split with the command's destination pending, where the command has a window (R124). -/
def Cur.windowed (c : Cur) (i : Instr) : Cur := if i.longLatency then c.deferI i 0 true else c

theorem Cur.windowed_spec (c : Cur) (i : Instr) : ∃ pend, c.windowed i = { c with split := { c.split with pend := pend } } := by
  unfold Cur.windowed
  split
  · obtain ⟨pend, hpend, -⟩ := deferI_spec c i 0 true
    exact ⟨pend, hpend⟩
  · exact ⟨c.split.pend, rfl⟩

theorem strandDone_eq (s : State) (c : Cur) (i : Instr) (acq : Bool) (wr : Group → Group) : s.strandDone c i acq wr =
    let b := ((s.acquired acq c.team.coreKey).again c).windowed i
    (s.acquired acq c.team.coreKey).effected { b with group := wr b.group } i [] := rfl

/-- A command that has made its effect completes: its registers are written, and its posting is left. -/
theorem effected_of_strandDone {wr : Group → Group} (hi : i.counter = some .enc) (hwr : ∀ g, (wr g).splits = g.splits)
    (hexec : exec i s = .next (s₁.strandDone c i acq wr)) : Effected i s c .enc s₁ acq wr := by
  intro c₁ hl
  have hagain : (s₁.acquired acq c.team.coreKey).again c = c₁ := by
    rw [State.again, lookup?_of_teams (State.acquired_teams ..), hl, Option.getD_some]
  obtain ⟨pend, hpend⟩ := c₁.windowed_spec i
  obtain ⟨d, q, hposted, hkind, -, hgroup, hsplit⟩ := effected_posted (s := s₁.acquired acq c.team.coreKey) (c := c₁) (foot := [])
    (e := { c₁ with group := wr c₁.group, split := { c₁.split with pend := pend } }) hi rfl rfl (hwr _) rfl
  exact ⟨_, d, q, by rw [hexec, strandDone_eq, hagain, hpend], hposted, hkind, hgroup, by rw [hsplit]⟩

/-- A strand command with a lane that passes, whose checks and effect have the outcome `res`, completes with the effect of a success, and
traps without one where a check fails. -/
theorem strandCommand_spec {k : Com} {F : Cur → State} (hc : s.cur? = some c) (ha : c.acts k = true) (res : Except STrap α) (eff : α → State)
    (wr : α → Group → Group) (hi : i.counter = some .enc) (hwr : ∀ r g, (wr r g).splits = g.splits)
    (hexec : exec i s = onSplit s fun c => if !c.acts k then s else F c := by exact rfl)
    (hok : ∀ r, res = .ok r → F c = (eff r).strandDone c i acq (wr r) := by intro _ h; simp only [h])
    (htrap : ∀ x, res = .error x → F c = s.sTrap c x := by intro _ h; simp only [h]) :
    (∀ r, res = .ok r → Effected i s c .enc (eff r) acq (wr r)) ∧ (∀ x, res = .error x → exec i s = .next (s.sTrap c x)) := by
  have hnext : exec i s = .next (F c) := by
    rw [hexec, onSplit_eq s c _ hc, ha]
    rfl
  exact ⟨fun r hr => effected_of_strandDone hi (hwr r) (by rw [hnext, hok r hr]), fun x hx => by rw [hnext, htrap x hx]⟩

/-- What needs the strand area, where the area is found. -/
theorem bind_area {e : SEnv} {a : Area} (harea : s.area e = .ok a) (f : Area → Except STrap α) : (s.area e >>= f) = f a := by
  rw [harea]
  rfl

end Sys2Proof.Machine
end

section
open Sys2Proof Sys2Proof.Machine

/-- Settles O43: every strand command ends as `strandCommand_spec` says, with its trap or with what follows its effect. -/
theorem strandInstructionsComplete : Obligations.StrandInstructionsComplete := by
  unfold Obligations.StrandInstructionsComplete
  intro s c f hc ha rd pr e d
  obtain ⟨hsnew, hsnewTrap⟩ := strandCommand_spec (i := .snew f) (acq := false) hc ha
    (s.snew c.senv (c.rdS f.s1.toNat).toNat (c.rdPair f.s2.toNat).toNat (c.rdPair f.s3.toNat).toNat)
    Prod.fst (fun r g => g.wrS f.s0.toNat (BitVec.ofNat 32 r.2)) rfl (fun _ _ => rfl)
  obtain ⟨hsres, hsresTrap⟩ := strandCommand_spec (i := .sres f) (acq := false) hc ha
    (s.sres c.senv (c.rdS f.s1.toNat).toNat (c.rdS f.s2.toNat).toNat)
    Prod.fst (fun r g => g.wrS f.s0.toNat (BitVec.ofNat 32 r.2)) rfl (fun _ _ => rfl)
  obtain ⟨hscommit, hscommitTrap⟩ := strandCommand_spec (i := .scommit f) (acq := false) hc ha
    (s.scommit c.senv (c.rdS f.s0.toNat).toNat (c.rdS f.s1.toNat).toNat (c.rdS f.s2.toNat).toNat)
    (fun t => t) (fun _ => id) rfl (fun _ _ => rfl)
  obtain ⟨hsfork, hsforkTrap⟩ := strandCommand_spec (i := .sfork f) (acq := false) hc ha
    (s.sfork c.senv (c.rdS f.s1.toNat).toNat (c.rdS f.s2.toNat).toNat (c.rdPair f.s3.toNat).toNat)
    Prod.fst (fun r g => g.wrS f.s0.toNat (BitVec.ofNat 32 r.2)) rfl (fun _ _ => rfl)
  obtain ⟨hslen, hslenTrap⟩ := strandCommand_spec (i := .slen f) (acq := true) hc ha
    (do s.openStrand c.senv (← s.area c.senv) (c.rdS f.s1.toNat).toNat)
    (fun _ => s) (fun h g => g.wrS f.s0.toNat (BitVec.ofNat 32 h.cl)) rfl (fun _ _ => rfl)
  obtain ⟨hsrel, hsrelTrap⟩ := strandCommand_spec (i := .srel f) (acq := false) hc ha
    (do s.srel c.senv (← s.area c.senv) 16 (c.rdS f.s0.toNat).toNat)
    (fun t => t) (fun _ => id) rfl (fun _ _ => rfl)
  obtain ⟨hsseek, hsseekTrap⟩ := strandCommand_spec (i := .sseek f) (acq := true) hc ha
    (s.sseek c.senv (c.rdS f.s1.toNat).toNat (c.rdS f.s2.toNat).toNat (c.rdS f.s3.toNat).toNat)
    (fun _ => s) (fun r g => (g.wrPair f.s0.toNat r.1).wrS f.s3.toNat r.2) rfl (fun _ _ => rfl)
  refine ⟨hsnew, hsnewTrap, hsres, hsresTrap, hscommit, hscommitTrap, hsfork, hsforkTrap, ?_, ?_, ?_, ?_, hsseek, hsseekTrap⟩
  · exact fun a h harea hopen => hslen h ((bind_area harea _).trans hopen)
  · exact fun a t harea hrel => hsrel t ((bind_area harea _).trans hrel)
  · exact fun a x harea hopen => hslenTrap x ((bind_area harea _).trans hopen)
  · exact fun a x harea hrel => hsrelTrap x ((bind_area harea _).trans hrel)

end

section
/-! PROOFS. The numbers of a record (R2), and a strand's header as its bytes hold it (R252). -/
namespace Sys2Proof.Machine

/-! ### Numbers in bytes -/

theorem rdBytes_length (m : Memory) (a n : Nat) : (rdBytes m a n).length = n := by simp [rdBytes]

/-- A number of bytes that were read is the number that stands there. -/
theorem le_rdBytes (m : Memory) (a : Nat) {n off k : Nat} (h : off + k ≤ n) : le (rdBytes m a n) off k = natOfBytes (rdBytes m (a + off) k) := by
  rw [le]
  congr 1
  apply List.ext_getElem
  · simp [rdBytes]; omega
  · intro i _ _
    simp [rdBytes, Nat.add_assoc]

theorem natOfBytes_lt (bs : List Byte) : natOfBytes bs < 256 ^ bs.length := by
  induction bs with
  | nil => simp [natOfBytes]
  | cons b bs ih =>
    have := b.isLt
    rw [natOfBytes, List.length_cons, Nat.pow_succ']
    omega

theorem le_lt (bs : List Byte) (off n : Nat) : le bs off n < 256 ^ n :=
  (natOfBytes_lt _).trans_le (Nat.pow_le_pow_right (by decide) (List.length_take_le _ _))

theorem hbmNat_lt (s : State) (pa n : Nat) : s.hbmNat pa n < 256 ^ n := by
  have := natOfBytes_lt (rdBytes s.hbm pa n)
  rwa [rdBytes_length] at this

/-- The number that stands first. -/
theorem le_first {v n : Nat} (hv : v < 256 ^ n) (bs : List Byte) : le (bytesOfNat n v ++ bs) 0 n = v := by
  rw [le, List.drop_zero, List.take_left' (bytesOfNat_length n v), natOfBytes_bytesOfNat, Nat.mod_eq_of_lt hv]

/-- A number behind the first. -/
theorem le_behind {n off : Nat} (h : n ≤ off) (v k : Nat) (bs : List Byte) : le (bytesOfNat n v ++ bs) off k = le bs (off - n) k := by
  rw [le, le, List.drop_append, bytesOfNat_length, List.drop_eq_nil_of_le (by rw [bytesOfNat_length]; exact h), List.nil_append]

/-! ### Headers -/

/-- Every field of a header fits its place. -/
structure Hdr.Fits (h : Hdr) : Prop where
  cl : h.cl < 2 ^ 32
  rl : h.rl < 2 ^ 32
  gen : h.gen < 2 ^ 12
  bits : h.bits < 2 ^ 4
  pset : h.pset < 2 ^ 6
  fdepth : h.fdepth < 2 ^ 4
  refs : h.refs < 2 ^ 32
  headpg : h.headpg < 2 ^ 32
  tailpg : h.tailpg < 2 ^ 32
  parent : h.parent < 2 ^ 32
  shl : h.shl < 2 ^ 32
  bkt : h.bkt < 2 ^ 64
  owner : h.owner < 2 ^ 32
  first : h.first < 2 ^ 32
  cwin : h.cwin < 2 ^ 256
  kwin : h.kwin < 2 ^ 256
  plt : h.plt < 2 ^ 64
  npg : h.npg < 2 ^ 32

/-- A header that was read fits. -/
theorem hdrOf_fits (idx : Nat) (b : List Byte) : (hdrOf idx b).Fits := by
  have hctl : le b 8 4 < 2 ^ 32 := le_lt b 8 4
  have h32 (off : Nat) : le b off 4 < 2 ^ 32 := le_lt b off 4
  have h64 (off : Nat) : le b off 8 < 2 ^ 64 := le_lt b off 8
  have h256 (off : Nat) : le b off 32 < 2 ^ 256 := le_lt b off 32
  refine ⟨h32 _, h32 _, ?_, ?_, ?_, ?_, h32 _, h32 _, h32 _, h32 _, h32 _, h64 _, h32 _, h32 _, h256 _, h256 _, h64 _, h32 _⟩ <;>
    simp only [hdrOf] <;> omega

/-- The control word of a header (R252). -/
def Hdr.ctl (h : Hdr) : Nat :=
  h.gen % 4096 * 2 ^ 20 + h.part.toNat * 2 ^ 19 + h.live.toNat * 2 ^ 16 + h.bits * 2 ^ 12 + h.pset * 64 +
    h.hdim.toNat * 32 + h.etype.toNat * 16 + h.fdepth

theorem Hdr.Fits.ctl_spec {h : Hdr} (hf : h.Fits) : h.ctl < 2 ^ 32 ∧ h.ctl / 2 ^ 20 = h.gen ∧ h.ctl.testBit 19 = h.part ∧
    h.ctl.testBit 16 = h.live ∧ h.ctl / 2 ^ 12 % 16 = h.bits ∧ h.ctl / 64 % 64 = h.pset ∧ h.ctl.testBit 5 = h.hdim ∧
    h.ctl.testBit 4 = h.etype ∧ h.ctl % 16 = h.fdepth := by
  have hgen := hf.gen
  have hbits := hf.bits
  have hpset := hf.pset
  have hfdepth := hf.fdepth
  have hle (b : Bool) : b.toNat ≤ 1 := b.toNat_le
  have hpart := hle h.part
  have hlive := hle h.live
  have hhdim := hle h.hdim
  have hetype := hle h.etype
  have hbit (i : Nat) (b : Bool) (hb : h.ctl / 2 ^ i % 2 = b.toNat) : h.ctl.testBit i = b := by
    rw [Nat.testBit_eq_decide_div_mod_eq, hb]
    cases b <;> rfl
  rw [Hdr.ctl] at hbit ⊢
  exact ⟨by omega, by omega, hbit _ _ (by omega), hbit _ _ (by omega), by omega, by omega, hbit _ _ (by omega), hbit _ _ (by omega),
    by omega⟩

theorem Hdr.bytes_length (h : Hdr) : h.bytes.length = 124 := by
  simp [Hdr.bytes, bytesOfNat_length]

/-- A header that fits is read back from its bytes. -/
theorem Hdr.Fits.hdrOf_bytes {h : Hdr} (hf : h.Fits) : hdrOf h.idx h.bytes = h := by
  obtain ⟨hctl, hgen, hpart, hlive, hbits, hpset, hhdim, hetype, hfdepth⟩ := hf.ctl_spec
  have hb : h.bytes = bytesOfNat 4 h.cl ++ (bytesOfNat 4 h.rl ++ (bytesOfNat 4 h.ctl ++ (bytesOfNat 4 h.refs ++ (bytesOfNat 4 h.headpg ++
      (bytesOfNat 4 h.tailpg ++ (bytesOfNat 4 h.parent ++ (bytesOfNat 4 h.shl ++ (bytesOfNat 8 h.bkt ++ (bytesOfNat 4 h.owner ++
      (bytesOfNat 4 h.first ++ (bytesOfNat 32 h.cwin ++ (bytesOfNat 32 h.kwin ++ (bytesOfNat 8 h.plt ++ (bytesOfNat 4 h.npg ++ []
      )))))))))))))) := by
    simp only [Hdr.bytes, Hdr.ctl, List.append_assoc, List.append_nil]
  obtain ⟨hcl, hrl, -, -, -, -, hrefs, hheadpg, htailpg, hparent, hshl, hbkt, howner, hfirst, hcwin, hkwin, hplt, hnpg⟩ := hf
  simp (disch := omega) only [hdrOf, hb, le_behind, le_first, Nat.reduceSub, hgen, hpart, hlive, hbits, hpset, hhdim, hetype, hfdepth]

end Sys2Proof.Machine
end

section
/-! PROOFS. The strand area in memory (R249 to R252) and the free stacks (R255, R256): what their accesses read and write while no stash
window holds a line. -/
namespace Sys2Proof.Machine

variable {s t u : State} {e : SEnv}

/-! ### What follows a check -/

section
variable {α β : Type} (f : α → Except STrap β)

theorem ok_bind (a : α) : (Except.ok a >>= f) = f a := rfl

theorem throw_bind (x : STrap) : ((throw x : Except STrap α) >>= f) = .error x := rfl

end

/-! ### Accesses to the structures -/

section
variable {D : Nat → Prop} {va n pa k : Nat} (hmap : Mapped s D e.die e.ctx va n pa) (hs : s.noLines)
include hmap hs

/-- Bytes of a structure that is mapped, as memory holds them. -/
theorem Mapped.sBytes {m : Nat} (hm : 0 < m) (hk : k + m ≤ n) : s.sBytes e (va + k) m = .ok (rdBytes s.hbm (pa + k) m) := by
  obtain ⟨o, hread⟩ := State.spanRead_noLines hs [(.hbm (pa + k), m)]
  have hbytes : (s.spanRead [(.hbm (pa + k), m)]).2 = rdBytes s.hbm (pa + k) m := by
    rw [hread, List.flatMap_singleton]
    rfl
  simp only [State.sBytes, State.vRead, hmap.ownSpan hm hk (need := { rd := true }) rfl, Option.map_some, hbytes]

theorem Mapped.sGet {m : Nat} (hm : 0 < m) (hk : k + m ≤ n) : s.sGet e (va + k) m = .ok (s.hbmNat (pa + k) m) := by
  rw [State.sGet, hmap.sBytes hs hm hk]
  rfl

/-- Bytes of a structure written. -/
theorem Mapped.sPut {bs : List Byte} (hm : 0 < bs.length) (hk : k + bs.length ≤ n) :
    ∃ t, s.sPut e (va + k) bs = .ok t ∧ Wrote s t (pa + k) bs := by
  obtain ⟨t, ht, hwrote⟩ := hmap.vWrite hs hm hk e.core
  exact ⟨t, by rw [State.sPut, ht], hwrote⟩

end

/-- A header put back is found there again. -/
theorem hdrPut_spec {a : Area} {h : Hdr} {pa : Nat} (hfits : h.Fits) (hs : s.noLines) (hwf : Memory.wf s.hbm = true)
    (hmap : Mapped s (Bytes pa 128) e.die e.ctx (a.base + 256 * h.idx) 128 pa) :
    ∃ t, s.hdrPut e a h = .ok t ∧ Wrote s t pa h.bytes ∧ t.hdrAt e a h.idx = .ok h := by
  have hlen := h.bytes_length
  obtain ⟨t, ht, hwrote⟩ := hmap.sPut (k := 0) (bs := h.bytes) hs (by omega) (by omega)
  have hmap' := hwrote.mapped hwf hs (fun b ⟨hlo, hhi⟩ => ⟨hlo, by omega⟩) hmap
  have hread : t.sBytes e (a.base + 256 * h.idx) 124 = .ok h.bytes := by
    have hbytes := hmap'.sBytes (k := 0) (m := 124) (hwrote.noLines hs) (by omega) (by omega)
    rwa [hwrote.hbm, ← hlen, rdBytes_wrBytes _ _ _ hwf, hlen] at hbytes
  refine ⟨t, ht, hwrote, ?_⟩
  rw [State.hdrAt, hread]
  exact congrArg Except.ok hfits.hdrOf_bytes

/-- A header that a handle names is one that was read. -/
theorem openStrand_fits {a : Area} {handle : Nat} {h : Hdr} (hopen : s.openStrand e a handle = .ok h) : h.Fits := by
  rw [State.openStrand] at hopen
  split at hopen
  · cases hopen
  · obtain ⟨v, hv, hchecks⟩ := ok_of_bind hopen
    split at hchecks
    · cases hchecks
    · obtain rfl : v = h := Except.ok.inj hchecks
      rw [State.hdrAt] at hv
      cases hbytes : s.sBytes e (a.base + 256 * (handle % 2 ^ 20)) 124 with
      | error x => rw [hbytes] at hv; cases hv
      | ok b =>
        rw [hbytes] at hv
        exact Except.ok.inj hv ▸ hdrOf_fits _ b

/-! ### SCOMMIT (R263) -/

theorem onesFrom_le (v n : Nat) : onesFrom v n ≤ n := by
  induction n generalizing v with
  | zero => exact Nat.le_refl 0
  | succ n ih =>
    have := ih (v / 2)
    rw [onesFrom]
    split <;> omega

/-- The bits that are counted are set, and the one behind them is not. -/
theorem onesFrom_spec (v n : Nat) :
    (∀ j, j < onesFrom v n → v.testBit j = true) ∧ (onesFrom v n < n → v.testBit (onesFrom v n) = false) := by
  induction n generalizing v with
  | zero => exact ⟨fun j hj => absurd hj (Nat.not_lt_zero j), fun h => absurd h (Nat.lt_irrefl 0)⟩
  | succ n ih =>
    obtain ⟨hset, hclear⟩ := ih (v / 2)
    rw [onesFrom]
    split
    · next hodd =>
      rw [Nat.add_comm 1]
      refine ⟨fun j hj => ?_, fun h => ?_⟩
      · cases j with
        | zero => simp [hodd]
        | succ j => rw [Nat.testBit_succ]; exact hset j (by omega)
      · rw [Nat.testBit_succ]; exact hclear (by omega)
    · next heven => exact ⟨fun j hj => absurd hj (Nat.not_lt_zero j), fun _ => by simp [heven]⟩

/-- A header with the tokens of a range marked, and CL and both windows moved past the marked tokens that begin at CL (R263). -/
def Hdr.committed (h : Hdr) (i n : Nat) : Hdr :=
  let w := h.cwin ||| rangeBits (i - h.cl) n
  let k := onesFrom w 256
  { h with cl := h.cl + k, cwin := w / 2 ^ k, kwin := h.kwin / 2 ^ k }

/-- A range inside the window fits it. -/
theorem rangeBits_lt {lo n : Nat} (h : lo + n ≤ 256) : rangeBits lo n < 2 ^ 256 := by
  have hpow : 2 ^ n * 2 ^ lo ≤ 2 ^ 256 := by
    rw [← Nat.pow_add]
    exact Nat.pow_le_pow_right (by decide) (by omega)
  have hn : 0 < 2 ^ n := Nat.two_pow_pos n
  rw [rangeBits, Nat.sub_one_mul]
  have := Nat.two_pow_pos lo
  have := Nat.mul_pos hn this
  omega

theorem Hdr.Fits.committed {h : Hdr} (hf : h.Fits) {i n : Nat} (hcl : h.cl + 256 < 2 ^ 32) (hlo : h.cl ≤ i) (hhi : i + n ≤ h.cl + 256) :
    (h.committed i n).Fits := by
  have hk := onesFrom_le (h.cwin ||| rangeBits (i - h.cl) n) 256
  have hw : h.cwin ||| rangeBits (i - h.cl) n < 2 ^ 256 := Nat.or_lt_two_pow hf.cwin (rangeBits_lt (by omega))
  exact { hf with
    cl := show h.cl + onesFrom (h.cwin ||| rangeBits (i - h.cl) n) 256 < 2 ^ 32 by omega
    cwin := (Nat.div_le_self _ _).trans_lt hw
    kwin := (Nat.div_le_self _ _).trans_lt hf.kwin }

/-- SCOMMIT in the order of its checks. -/
theorem scommit_eq {a : Area} {h : Hdr} {handle i n : Nat} (harea : s.area e = .ok a) (hopen : s.openStrand e a handle = .ok h)
    (hlo : 1 ≤ n) (hhi : n ≤ 256) : s.scommit e handle i n =
      let m := rangeBits (i - h.cl) n
      if i < h.cl ∨ h.rl < i + n then .error (.committed 4)
      else if h.kwin &&& m ≠ m then .error (.committed 3)
      else if h.cwin &&& m ≠ 0 then .error (.committed 4)
      else s.hdrPut e a (h.committed i n) := by
  have hn : ¬ (n < 1 ∨ 256 < n) := by omega
  rw [State.scommit]
  simp only [Bool.or_eq_true, decide_eq_true_eq, if_neg hn, harea, hopen, ok_bind, throw_bind, Hdr.committed]

/-- A legal commit of stored tokens (R263). -/
theorem scommit_commits {a : Area} {h : Hdr} {handle i n pa : Nat} (harea : s.area e = .ok a) (hopen : s.openStrand e a handle = .ok h)
    (hn : 1 ≤ n) (hn' : n ≤ 256) (hlo : h.cl ≤ i) (hrl : i + n ≤ h.rl) (hhi : i + n ≤ h.cl + 256)
    (hstored : h.kwin &&& rangeBits (i - h.cl) n = rangeBits (i - h.cl) n) (hfresh : h.cwin &&& rangeBits (i - h.cl) n = 0)
    (hcl : h.cl + 256 < 2 ^ 32) (hs : s.noLines) (hwf : Memory.wf s.hbm = true)
    (hmap : Mapped s (Bytes pa 128) e.die e.ctx (a.base + 256 * h.idx) 128 pa) :
    ∃ t, s.scommit e handle i n = .ok t ∧ t.hdrAt e a h.idx = .ok (h.committed i n) ∧
      ∀ x, ¬ Bytes pa 124 x → rdByte t.hbm x = rdByte s.hbm x := by
  obtain ⟨t, hput, hwrote, hread⟩ := hdrPut_spec (h := h.committed i n) ((openStrand_fits hopen).committed hcl hlo hhi) hs hwf hmap
  have hin : ¬ (i < h.cl ∨ h.rl < i + n) := by omega
  refine ⟨t, ?_, hread, fun x hx => ?_⟩
  · rw [scommit_eq harea hopen hn hn']
    simp only [if_neg hin, hstored, hfresh, ne_eq, not_true_eq_false, if_false, hput]
  · rw [hwrote.hbm, rdByte_wrBytes _ _ _ _ hwf, Hdr.bytes_length]
    exact if_neg hx

/-! ### Free stacks (R255, R256) -/

/-- The management table is read alike in states with the same tables. -/
theorem mgmtPlace_congr {x : Nat} (h : SameTables s t x) : t.mgmtPlace = s.mgmtPlace := by
  funext dev va n wr
  simp only [State.mgmtPlace, State.mgmtLeaf, leafOk_congr h, placeOf_congr h, h.mgmt]

/-- Where the descriptor of a context's stack on a die lies (R255). -/
def State.stackPlace (s : State) (e : SEnv) (die : Nat) : Option Nat :=
  s.mgmtPlace (deviceOf s.mgmt.mode die) (page12 (s.die die).flhead.toNat + 64 * (e.ctx % 64)) 64 true

theorem Accessed.stackPlace (h : Accessed s t) (die : Nat) : t.stackPlace e die = s.stackPlace e die := by
  simp only [State.stackPlace, mgmtPlace_congr (h.sameTables 0), State.die, h.dies, h.mgmt]

/-- A stack is what its descriptor holds. -/
theorem stack_eq_ok_iff (hs : s.noLines) {die : Nat} {k : Stack} : s.stack e die = .ok k ↔ s.stackPlace e die = some k.at_ ∧
    s.hbmNat k.at_ 8 = k.arr ∧ s.hbmNat (k.at_ + 8) 4 = k.cap ∧ s.hbmNat (k.at_ + 12) 4 = k.top := by
  rw [State.stack, ← State.stackPlace]
  cases s.stackPlace e die with
  | none => simp
  | some pa =>
    obtain ⟨o, ho⟩ := State.recallFor_noLines hs none pa 16
    have hread : (s.homeRead pa 16).2 = rdBytes s.hbm pa 16 := by
      rw [State.homeRead, ho]
      rfl
    obtain ⟨at_, arr, cap, top⟩ := k
    simp only [hread, le_rdBytes s.hbm pa (n := 16) (off := 0) (k := 8) (by omega), le_rdBytes s.hbm pa (n := 16) (off := 8) (k := 4) (by omega),
      le_rdBytes s.hbm pa (n := 16) (off := 12) (k := 4) (by omega), Except.ok.injEq, Stack.mk.injEq, Option.some.injEq, Nat.add_zero,
      State.hbmNat]
    constructor
    · rintro ⟨rfl, harr, hcap, htop⟩; exact ⟨rfl, harr, hcap, htop⟩
    · rintro ⟨rfl, harr, hcap, htop⟩; exact ⟨rfl, harr, hcap, htop⟩

/-- A descriptor stands where what was written does not meet it. -/
theorem stack_of_wrote (hs : s.noLines) (hwf : Memory.wf s.hbm = true) {pa n v die : Nat} {k : Stack} (hw : Wrote s t pa (bytesOfNat n v))
    (hapart : k.at_ + 16 ≤ pa ∨ pa + n ≤ k.at_) (hk : s.stack e die = .ok k) : t.stack e die = .ok k := by
  obtain ⟨hplace, harr, hcap, htop⟩ := (stack_eq_ok_iff hs).mp hk
  have htakes := hw.takes hwf
  refine (stack_eq_ok_iff (hw.noLines hs)).mpr ⟨(hw.stackPlace die).trans hplace, ?_, ?_, ?_⟩
  · rw [htakes.keeps (by omega), harr]
  · rw [htakes.keeps (by omega), hcap]
  · rw [htakes.keeps (by omega), htop]

theorem setTop_wrote (hs : s.noLines) (k : Stack) (v : Nat) : Wrote s (s.setTop e k v) (k.at_ + 12) (bytesOfNat 4 v) :=
  homeWrite_wrote hs e.core _ _

/-- TOP written is all that changes of a stack. -/
theorem setTop_stack (hs : s.noLines) (hwf : Memory.wf s.hbm = true) {die v : Nat} {k : Stack} (hv : v < 2 ^ 32)
    (hk : s.stack e die = .ok k) : (s.setTop e k v).stack e die = .ok { k with top := v } := by
  obtain ⟨hplace, harr, hcap, -⟩ := (stack_eq_ok_iff hs).mp hk
  have hw := setTop_wrote (e := e) hs k v
  have htakes := hw.takes hwf
  refine (stack_eq_ok_iff (hw.noLines hs)).mpr ⟨(hw.stackPlace die).trans hplace, ?_, ?_, ?_⟩
  · rw [htakes.keeps (by simp only; omega), harr]
  · rw [htakes.keeps (by simp only; omega), hcap]
  · rw [htakes.1, Nat.mod_eq_of_lt hv]

/-- A push that the checks admit (R256). -/
theorem push_eq {pfn : Nat} {k : Stack} (hpfn : pfn < 0xFFFFFF) (hdie : (s.diesOf (ctxDevice e.ctx)).contains (pfn / 2 ^ 20) = true)
    (hk : s.stack e (pfn / 2 ^ 20) = .ok k) (hroom : k.top < k.cap) (hput : s.sSet e (k.arr + 4 * k.top) 4 pfn = .ok t) :
    s.push e pfn = .ok (t.setTop e k (k.top + 1)) := by
  have hchecks : ¬ ((pfn = 0xFFFFFF ∨ 2 ^ 24 ≤ pfn) ∨ (!(s.diesOf (ctxDevice e.ctx)).contains (pfn / 2 ^ 20)) = true) := by
    rw [hdie]
    rintro ((hnone | hbig) | hother)
    · omega
    · omega
    · cases hother
  rw [State.push]
  simp only [Bool.or_eq_true, decide_eq_true_eq, if_neg hchecks, hk, ok_bind, if_neg (Nat.not_le_of_lt hroom), hput]
  rfl

/-- A pop of a stack that is not empty (R256). -/
theorem pop_eq {die p : Nat} {k : Stack} (hk : s.stack e die = .ok k) (htop : k.top ≠ 0)
    (hget : s.sGet e (k.arr + 4 * (k.top - 1)) 4 = .ok p) : s.pop e die = .ok (s.setTop e k (k.top - 1), some p) := by
  simp only [State.pop, hk, ok_bind, if_neg htop, hget]
  rfl

/-- A push and then a pop: the frame comes back, and the stack stands as before. -/
theorem pop_push {pfn pa : Nat} {k : Stack} (hs : s.noLines) (hwf : Memory.wf s.hbm = true) (hpfn : pfn < 0xFFFFFF)
    (hdie : (s.diesOf (ctxDevice e.ctx)).contains (pfn / 2 ^ 20) = true) (hk : s.stack e (pfn / 2 ^ 20) = .ok k) (hroom : k.top < k.cap)
    {D : Nat → Prop} (hD : ∀ a, Bytes k.at_ 16 a ∨ Bytes pa 4 a → D a) (hmap : Mapped s D e.die e.ctx (k.arr + 4 * k.top) 4 pa)
    (hapart : k.at_ + 16 ≤ pa ∨ pa + 4 ≤ k.at_) :
    ∃ t u, s.push e pfn = .ok t ∧ t.stack e (pfn / 2 ^ 20) = .ok { k with top := k.top + 1 } ∧
      t.pop e (pfn / 2 ^ 20) = .ok (u, some pfn) ∧ u.stack e (pfn / 2 ^ 20) = .ok k := by
  have h4 (v : Nat) : (bytesOfNat 4 v).length = 4 := bytesOfNat_length 4 v
  have htop : k.top + 1 < 2 ^ 32 := by
    obtain ⟨-, -, hcap, -⟩ := (stack_eq_ok_iff hs).mp hk
    have hlt : k.cap < 256 ^ 4 := hcap ▸ hbmNat_lt s (k.at_ + 8) 4
    omega
  obtain ⟨s₁, hput, hw₁⟩ := hmap.sPut (k := 0) (bs := bytesOfNat 4 pfn) hs (by rw [h4]; omega) (by rw [h4])
  rw [Nat.add_zero] at hput hw₁
  have hs₁ := hw₁.noLines hs
  have hwf₁ := hw₁.wf hwf
  have hk₁ := stack_of_wrote hs hwf hw₁ hapart hk
  have hmap₁ := hw₁.mapped hwf hs (fun b hb => hD b (.inr (by rwa [h4] at hb))) hmap
  have hw₂ := setTop_wrote (e := e) hs₁ k (k.top + 1)
  have hk₂ := setTop_stack hs₁ hwf₁ htop hk₁
  have hmap₂ := hw₂.mapped hwf₁ hs₁ (fun b ⟨hlo, hhi⟩ => hD b (.inl ⟨by omega, by rw [h4] at hhi; omega⟩)) hmap₁
  have hframe : (s₁.setTop e k (k.top + 1)).hbmNat pa 4 = pfn := by
    rw [(hw₂.takes hwf₁).keeps (by omega), (hw₁.takes hwf).1, Nat.mod_eq_of_lt (by omega)]
  have hget := hmap₂.sGet (k := 0) (m := 4) (hw₂.noLines hs₁) (by omega) (by omega)
  rw [Nat.add_zero, Nat.add_zero pa, hframe] at hget
  exact ⟨_, _, push_eq hpfn hdie hk hroom hput, hk₂, pop_eq hk₂ (Nat.succ_ne_zero _) hget,
    setTop_stack (hw₂.noLines hs₁) (hw₂.wf hwf₁) (show k.top + 1 - 1 < 2 ^ 32 by omega) hk₂⟩

end Sys2Proof.Machine
end

section
open Sys2Proof Sys2Proof.Machine

/-- Settles O46: SCOMMIT by its checks in order and the header that it puts back, read again from its bytes; the stack by the descriptor
and the frame that the push writes, which lie apart. -/
theorem strandStructuresBehave : Obligations.StrandStructuresBehave := by
  unfold Obligations.StrandStructuresBehave
  constructor
  · intro s e a h handle i n pa harea hopen hn hn' m w k
    obtain ⟨hset, hclear⟩ := onesFrom_spec w 256
    have heq := scommit_eq (i := i) harea hopen hn hn'
    refine ⟨fun hout => ?_, fun hlo hhi hmissing => ?_, fun hlo hhi hstored hmarked => ?_, ?_⟩
    · rw [heq]; exact if_pos hout
    · rw [heq]
      exact (if_neg (by omega)).trans (if_pos hmissing)
    · rw [heq]
      exact (if_neg (by omega)).trans ((if_neg (not_not_intro hstored)).trans (if_pos hmarked))
    · intro hlo hrl hstored hfresh hcl hs hmem hmap hhi
      obtain ⟨t, hcommit, hread, hframe⟩ := scommit_commits harea hopen hn hn' hlo hrl hhi hstored hfresh hcl hs.1 (State.memOk_hbm hmem) hmap
      exact ⟨t, hcommit, hread, hset, hclear, hframe⟩
  · intro s e pfn pa k hs hmem hpfn hdie hk hroom hmap hapart
    refine pop_push hs.1 (State.memOk_hbm hmem) hpfn hdie hk hroom (fun _ h => h) hmap ?_
    have hmeet := hapart (max k.at_ pa)
    simp only [Bytes] at hmeet
    omega

end

section
/-! PROOFS. What an engine reads at issue (R184, R221), and the block hash (R271, R384). -/
namespace Sys2Proof.Machine

variable {s : State} {c : Cur} {f : FmtE}

/-! ### Ranges and reads of an engine -/

/-- A range of the local array, inside the team's bytes and with no window mapped, is one piece of it. -/
theorem engRanges_local {a n : Nat} {need : Need} (hlen : a + n ≤ c.team.bytes) (hwins : c.team.wins = []) :
    s.engRanges c [⟨true, a, n, need⟩] = .ok [[(.arr a, n)]] := by
  have hin : ¬ (c.team.bytes < a + n ∨ c.team.inWindow a n = true) := by simp [Team.inWindow, hwins]; omega
  simp [State.engRanges, State.rangePieces, hin]

theorem engRead_arr {tid : Nat} {tm : Team} (hteam : mget? s.teams tid = some tm) (a n : Nat) :
    s.engRead tid (.arr a) n = (s, s.arrRead tm a n) := by
  simp only [State.engRead, hteam, Option.map_some, Option.getD_some]

/-- A read of HBM forgets which L1s own its lines, and what views hold of them, and changes nothing else. -/
theorem engRead_hbm (hs : s.noLines) (tid pa n : Nat) :
    ∃ o v, s.engRead tid (.hbm pa) n = ({ s with owned := o, views := v }, rdBytes s.hbm pa n) := by
  obtain ⟨o, ho⟩ := State.recallFor_noLines hs none pa n
  simp only [State.engRead, State.homeRead, ho]
  cases mget? s.teams tid with
  | none => exact ⟨o, s.views, rfl⟩
  | some tm => exact ⟨o, _, rfl⟩

/-- The pieces of a range read one after the other. -/
def State.engReads (s : State) (tid : Nat) (ps : List (Place × Nat)) : State × List Byte :=
  ps.foldl (fun (z : State × List Byte) p =>
    let q := z.1.engRead tid p.1 p.2
    (q.1, z.2 ++ q.2)) (s, [])

theorem engReads_nil (s : State) (tid : Nat) : s.engReads tid [] = (s, []) := rfl

theorem engReads_singleton (tid : Nat) (p : Place) (n : Nat) : s.engReads tid [(p, n)] = s.engRead tid p n := by
  simp only [State.engReads, List.foldl_cons, List.foldl_nil, List.nil_append]

/-! ### HASHB -/

/-- The hash of a block whose bytes are given, behind a pair (R271). -/
def hashOf (prev : DWord) (bs : List Byte) : DWord :=
  hashBlock prev ((List.range 16).map fun j => BitVec.ofNat 32 (le bs (4 * j) 4))

/-- HASHB of a block that translates reads it, and its pair takes the hash. -/
theorem exec_hashb_effected (hc : s.cur? = some c) {ps : List (List (Place × Nat))} (hal : c.addrOf (f.flg.getLsbD 0) f.s1 % 4 = 0)
    (hps : s.engRanges c [⟨f.flg.getLsbD 0, c.addrOf (f.flg.getLsbD 0) f.s1, 64, { rd := true }⟩] = .ok ps) (ha : c.acts f.com = true) :
    Effected (.hashb f) s c .enc (s.engReads c.ref.team ps.flatten).1 false
      (fun g => g.wrPair f.s0.toNat (hashOf (c.rdPair f.s2.toNat) (s.engReads c.ref.team ps.flatten).2)) := by
  refine effected_of_strandDone rfl (fun _ => rfl) ?_
  rw [exec_hashb, execHashb, onSplit_eq s c _ hc]
  simp only [ha, hal, hps, Bool.not_true, Bool.false_eq_true, ne_eq, not_true_eq_false, if_false]
  rfl

end Sys2Proof.Machine
end

section
open Sys2Proof Sys2Proof.Machine

/-- Settles O44: the stacks, the index and the tables by `strandCommand_spec`, and the hash by the bytes that its engine reads. -/
theorem indexInstructionsComplete : Obligations.IndexInstructionsComplete := by
  unfold Obligations.IndexInstructionsComplete
  intro s c f hc ha rd pr e d
  obtain ⟨hpop, -⟩ := strandCommand_spec (i := .flpop f) (acq := true) hc ha (s.pop c.senv c.team.die)
    Prod.fst (fun r g => g.wrS f.s0.toNat (match r.2 with | some p => BitVec.ofNat 32 p | none => 0xFFFFFFFF)) rfl (fun _ _ => rfl)
    (hok := fun ⟨_, top⟩ h => by cases top <;> simp only [h])
  obtain ⟨hpush, hpushTrap⟩ := strandCommand_spec (i := .flpush f) (acq := false) hc ha (s.push c.senv (c.rdS f.s0.toNat).toNat)
    (fun t => t) (fun _ => id) rfl (fun _ _ => rfl)
  obtain ⟨hfind, -⟩ := strandCommand_spec (i := .pfxfind f) (acq := true) hc ha
    (s.pfxfind c.senv (c.rdPair f.s1.toNat).toNat (c.rdS f.s2.toNat).toNat (f.flg.getLsbD 0))
    Prod.fst (fun r g => g.wrS f.s0.toNat (BitVec.ofNat 32 r.2)) rfl (fun _ _ => rfl)
  obtain ⟨hins, hinsTrap⟩ := strandCommand_spec (i := .pfxins f) (acq := true) hc ha
    (s.pfxins c.senv (c.rdPair f.s1.toNat).toNat (c.rdS f.s2.toNat).toNat (c.rdS f.s3.toNat).toNat (f.flg.getLsbD 0))
    Prod.fst (fun r g => (g.wrS f.s0.toNat (BitVec.ofNat 32 r.2.1)).wrS (f.s0.toNat + 1) (BitVec.ofNat 32 r.2.2)) rfl (fun _ _ => rfl)
  obtain ⟨hplcq, hplcqTrap⟩ := strandCommand_spec (i := .plcq f) (acq := true) hc ha
    (s.plcBlock c.senv (c.rdS f.s1.toNat).toNat (c.rdS f.s2.toNat).toNat)
    (fun _ => s) (fun x g => g.wrPair f.s0.toNat x) rfl (fun _ _ => rfl)
  obtain ⟨hshort, -⟩ := strandCommand_spec (i := .plcqShort f) (acq := true) hc ha (s.placement c.senv (c.rdS f.s1.toNat).toNat)
    (fun _ => s) (fun t g => g.wrPair f.s0.toNat (BitVec.ofNat 64 (le t.2 (0x10 + 8 * shortest t.2) 8 + shortest t.2 * 2 ^ 32)))
    rfl (fun _ _ => rfl)
  refine ⟨fun t p hr => hpop (t, some p) hr, fun t hr => hpop (t, none) hr, hpush, hpushTrap, hfind, hins, hinsTrap, ?_, ?_,
    hplcq, hplcqTrap, hshort⟩
  · intro hloc hal hlen hwins
    have haddr : c.addrOf (f.flg.getLsbD 0) f.s1 = rd f.s1 := by rw [hloc]; rfl
    have hhash := exec_hashb_effected (f := f) hc (by rw [haddr]; exact hal) (by rw [haddr, hloc]; exact engRanges_local hlen hwins) ha
    rwa [List.flatten_singleton, engReads_singleton, engRead_arr (lookup?_team (cur?_lookup s c hc))] at hhash
  · intro pa hglobal hal hps hs
    have haddr : c.addrOf (f.flg.getLsbD 0) f.s1 = pr f.s1 := by rw [hglobal]; rfl
    have hhash := exec_hashb_effected (f := f) hc (by rw [haddr]; exact hal) (by rw [haddr, hglobal]; exact hps) ha
    obtain ⟨o, v, hread⟩ := engRead_hbm hs.1 c.ref.team pa 64
    have htokens : ((List.range 16).map fun j => BitVec.ofNat 32 (le (rdBytes s.hbm pa 64) (4 * j) 4)) =
        (List.range 16).map fun j => (BitVec.ofNat 32 (s.hbmNat (pa + 4 * j) 4) : Word) :=
      List.map_congr_left fun j hj => by
        have := List.mem_range.mp hj
        rw [le_rdBytes _ _ (by omega), State.hbmNat]
    rw [List.flatten_singleton, engReads_singleton, hread, hashOf, htokens] at hhash
    exact ⟨{ s with owned := o, views := v }, ⟨fun _ => rfl, fun _ _ => rfl⟩, rfl, hhash⟩

end

section
/-! PROOFS. The signature commands and the projection sets (R262, R273 to R276, R347, R387, R424, R425): the command that has used a set,
the order of the gathered entries, and a set loaded or freed. -/
namespace Sys2Proof.Machine

variable {s t : State} {c : Cur} {f : FmtE} {a : Area} {h : Hdr}

/-! ### KST -/

/-- The strand that a command names, where its area is found and its handle is open. -/
theorem bind_openStrand {e : SEnv} {handle : Nat} (harea : s.area e = .ok a) (hopen : s.openStrand e a handle = .ok h) :
    (do let a ← s.area e; pure (a, ← s.openStrand e a handle) : Except STrap (Area × Hdr)) = .ok (a, h) := by
  rw [bind_area harea, hopen]
  rfl

/-- A command that has used a projection set enters the list, and what is left of it is its posting. -/
theorem signedDone_posted {e : Cur} {i : Instr} {x : Ctr} {set : Nat} (hi : i.counter = some x) (hr : e.ref = c.ref)
    (ht : e.team = c.team) (hs : e.group.splits = c.group.splits) (hx : e.split.ctrs = c.split.ctrs) :
    ∃ d q, Posted s (s.signedDone e i set) c d x q ∧ q.kind = .signed set ∧ d.ref = c.ref ∧
      d.group = { e.group with splits := d.group.splits } ∧ d.split = { e.split with ctrs := d.split.ctrs } :=
  command_posted hi hr ht hs hx (congrArg Ref.group hr) (congrArg Ref.split hr)

/-- The registers of a group do not change with its splits. -/
theorem sameRegisters_of_splits {g g' : Group} {sp : SMap Split} (h : g' = { g with splits := sp }) : SameRegisters g g' := by
  rw [h]
  exact ⟨rfl, rfl, rfl, rfl⟩

/-- KST of a source that translates reads it, stores it in the strand, and completes. -/
theorem exec_kst_stores {ps : List (List (Place × Nat))} (hc : s.cur? = some c) (ha : c.acts f.com = true) (harea : s.area c.senv = .ok a)
    (hopen : s.openStrand c.senv a (c.rdS f.s0.toNat).toNat = .ok h) (hal : c.addrOf (!f.flg.getLsbD 0) f.s2 % 16 = 0)
    (hps : s.engRanges c [⟨!f.flg.getLsbD 0, c.addrOf (!f.flg.getLsbD 0) f.s2, h.slotBytes, { rd := true }⟩] = .ok ps)
    (hkst : (s.engReads c.ref.team ps.flatten).1.kst c.senv a h (c.rdS f.s1.toNat).toNat (c.rdS f.s3.toNat)
      (s.engReads c.ref.team ps.flatten).2 = .ok t) :
    exec (.kst f) s = .next (t.signedDone (t.again c) (.kst f) h.pset) := by
  rw [State.engReads] at hkst
  rw [exec_kst, execKst, onSplit_eq s c _ hc]
  simp only [ha, bind_openStrand harea hopen, hal, hps, hkst, Bool.not_true, Bool.false_eq_true, ne_eq, not_true_eq_false, if_false]

/-! ### BGATH -/

/-- An entry is put in as an insertion sort puts it, in descending order of token. -/
theorem putDesc_eq (x : Gathered) (l : List Gathered) : putDesc x l = l.orderedInsert (fun x y => y.1 ≤ x.1) x := by
  induction l with
  | nil => rfl
  | cons y ys ih => simp only [putDesc, List.orderedInsert_cons, ih]

theorem putDesc_pairwise {x : Gathered} {l : List Gathered} (h : l.Pairwise fun x y => y.1 ≤ x.1) :
    (putDesc x l).Pairwise fun x y => y.1 ≤ x.1 := by
  have : Std.Total fun x y : Gathered => y.1 ≤ x.1 := ⟨fun x y => le_total y.1 x.1⟩
  have : IsTrans Gathered fun x y => y.1 ≤ x.1 := ⟨fun _ _ _ hxy hyz => le_trans hyz hxy⟩
  rw [putDesc_eq]
  exact h.orderedInsert _ _

/-- What a BGATH collects is in descending order of token, and its strand's set is at hand. -/
theorem bgath_ok {e : SEnv} {nb : Bool} {query : List Byte} {es : List Gathered} (hok : s.bgath e a h nb query = .ok es) :
    es.Pairwise (fun x y => y.1 ≤ x.1) ∧ ∃ set, s.projSet e h = .ok set := by
  obtain ⟨set, hset, hrest⟩ := ok_of_bind hok
  obtain ⟨lims, -, hrest⟩ := ok_of_bind hrest
  obtain ⟨all, -, hlast⟩ := ok_of_bind hrest
  refine ⟨?_, set, hset⟩
  cases hlast
  exact List.foldlRecOn all _ List.Pairwise.nil fun l hl x _ => putDesc_pairwise hl

theorem keySign_spec (s : State) (e : SEnv) (n : Nat) (set : ProjSet) (key : List FVal) :
    ∃ free, (s.keySign e n set key).1 = { s with free := free } := by
  unfold State.keySign
  split
  · exact ⟨_, rfl⟩
  · exact ⟨s.free, rfl⟩

theorem entryBytes_length (x : Gathered) : (entryBytes x).length = 16 := by
  simp [entryBytes, bytesOfNat_length]

theorem entries_length (es : List Gathered) : (es.map entryBytes).flatten.length = 16 * es.length := by
  simp [List.length_flatten, Function.comp_def, entryBytes_length, Nat.mul_comm]

/-- A BGATH that is not DENSE writes its entries to the array, and empties the core's L1. -/
theorem bgathRun_sparse {es : List Gathered} (harea : s.area c.senv = .ok a) (hopen : s.openStrand c.senv a (c.rdS f.s1.toNat).toNat = .ok h)
    (hq : (c.rdS f.s2.toNat).toNat % 16 = 0) (ho : (c.rdS f.s3.toNat).toNat % 16 = 0)
    (hqlen : (c.rdS f.s2.toNat).toNat + 2 * h.dim ≤ c.team.bytes)
    (holen : (c.rdS f.s3.toNat).toNat + 16 * ((s.ctx c.team.ctx).densef.toNat / 256 % 65536) ≤ c.team.bytes) (hwins : c.team.wins = [])
    (hes : s.bgath c.senv a h (f.flg.getLsbD 0) (s.arrRead c.team (c.rdS f.s2.toNat).toNat (2 * h.dim)) = .ok es)
    (hlim : es.length ≤ (s.ctx c.team.ctx).densef.toNat / 256 % 65536)
    (hfrac : 64 * es.length ≤ (s.ctx c.team.ctx).densef.toNat % 128 * h.cl) :
    ∃ free, s.bgathRun c f = .ok ((({ s with free := free }).arrWrite c.ref.team c.team (c.rdS f.s3.toNat).toNat
      (es.map entryBytes).flatten).l1Clear c.team.coreKey, h, es.length, false) := by
  obtain ⟨-, set, hset⟩ := bgath_ok hes
  obtain ⟨free, hfree⟩ := keySign_spec s c.senv h.pset set []
  obtain ⟨ps, hps⟩ := engRanges_ok (s := s) (c := c)
    (rs := [⟨true, (c.rdS f.s2.toNat).toNat, 2 * h.dim, {}⟩,
      ⟨true, (c.rdS f.s3.toNat).toNat, 16 * ((s.ctx c.team.ctx).densef.toNat / 256 % 65536), {}⟩])
    (by simp only [List.forall_mem_cons]; exact ⟨rangeOk_local hqlen hwins, rangeOk_local holen hwins, by simp⟩)
  refine ⟨free, ?_⟩
  simp only [State.bgathRun, bind_openStrand harea hopen, hq, ho, hps, hset, hes, ok_bind, hfree]
  simp [pure, Except.pure, Nat.not_lt.mpr hlim, Nat.not_lt.mpr hfrac]

/-- BGATH whose run leaves no entry out completes with their number. -/
theorem exec_bgath_sparse {s₁ : State} {n : Nat} (hc : s.cur? = some c) (ha : c.acts f.com = true) (hrun : s.bgathRun c f = .ok (s₁, h, n, false)) :
    let e := (s₁.again c).deferI (.bgath f) 0 true
    exec (.bgath f) s = .next (s₁.signedDone { e with group := e.group.wrS f.s0.toNat (BitVec.ofNat 32 n) } (.bgath f) h.pset) := by
  rw [exec_bgath, execBgath, onSplit_eq s c _ hc]
  simp only [ha, hrun, Bool.not_true, Bool.not_false, Bool.false_eq_true, if_false, if_true]

/-- The array of a team's core after a write to it, whatever is done to L1s behind it. -/
theorem arr_of_arrWrite_l1Clear (s : State) (tid : Nat) (tm : Team) (out : Nat) (bs : List Byte) :
    (((s.arrWrite tid tm out bs).l1Clear tm.coreKey).core tm.coreKey).arr = wrBytes (s.core tm.coreKey).arr (tm.base + out) bs := by
  rw [sameArrays_l1Clear, State.arrWrite_core]

/-- BGATH with the entries `es`, which its limits all admit. -/
theorem bgath_gathers {es : List Gathered} {s₁ : State} {free : Nat} (hc : s.cur? = some c) (ha : c.acts f.com = true) (hmem : s.memOk = true)
    (hs₁ : s₁ = (({ s with free := free }).arrWrite c.ref.team c.team (c.rdS f.s3.toNat).toNat (es.map entryBytes).flatten).l1Clear c.team.coreKey)
    (hrun : s.bgathRun c f = .ok (s₁, h, es.length, false)) :
    ∃ (c₁ : Cur) (t : State) (d : Cur) (k : Cmd), exec (.bgath f) s = .next t ∧ s₁.lookup? c.ref = some c₁ ∧
      SameRegisters c.group c₁.group ∧ Posted s₁ t c₁ d .enc k ∧ k.kind = .signed h.pset ∧
      ScalarIs c₁ d f.s0.toNat (BitVec.ofNat 32 es.length) ∧ d.group.p = c₁.group.p ∧
      t.arrRead c.team (c.rdS f.s3.toNat).toNat (16 * es.length) = (es.map entryBytes).flatten ∧
      (∀ x, x < c.team.base + (c.rdS f.s3.toNat).toNat ∨ c.team.base + (c.rdS f.s3.toNat).toNat + 16 * es.length ≤ x →
        rdByte (t.core c.team.coreKey).arr x = rdByte (s.core c.team.coreKey).arr x) ∧ t.hbm = s.hbm := by
  have hacc : Accessed s s₁ := by
    have hfree : Accessed s { s with free := free } := ⟨rfl, rfl, rfl, rfl, rfl, rfl, rfl⟩
    rw [hs₁]
    exact hfree.trans ((accessed_arrWrite ..).trans (accessed_l1Clear ..))
  have harr : (s₁.core c.team.coreKey).arr =
      wrBytes (s.core c.team.coreKey).arr (c.team.base + (c.rdS f.s3.toNat).toNat) (es.map entryBytes).flatten := by
    rw [hs₁]
    exact arr_of_arrWrite_l1Clear ..
  have hwf := State.memOk_arr hmem c.team.coreKey
  obtain ⟨c₁, hl, hr, -, hbare, -⟩ := hacc.lookup (cur?_lookup s c hc)
  have hagain : s₁.again c = c₁ := by rw [State.again, hl, Option.getD_some]
  have hexec := exec_bgath_sparse hc ha hrun
  obtain ⟨pend, hpend, -⟩ := deferI_spec c₁ (.bgath f) 0 true
  simp only [hagain, hpend] at hexec
  obtain ⟨d, k, hposted, hkind, -, hgroup, -⟩ := signedDone_posted (s := s₁) (c := c₁) (i := .bgath f) (x := .enc) (set := h.pset)
    (e := { c₁ with group := c₁.group.wrS f.s0.toNat (BitVec.ofNat 32 es.length), split := { c₁.split with pend := pend } })
    rfl rfl rfl rfl rfl
  refine ⟨c₁, _, d, k, hexec, hl, sameRegisters_of_bare hbare, hposted, hkind, ?_, by rw [hgroup]; rfl, ?_, fun x hx => ?_, by rw [hs₁]; rfl⟩
  · exact scalarIs_wrS (by rw [hgroup]) (by rw [hgroup]; rfl) (by rw [hgroup]; rfl)
  · change rdBytes (s₁.core c.team.coreKey).arr _ _ = _
    rw [harr, ← entries_length es, rdBytes_wrBytes _ _ _ hwf]
  · change rdByte (s₁.core c.team.coreKey).arr x = _
    rw [harr, rdByte_wrBytes_outside hwf (by rw [entries_length]; exact hx)]

/-! ### PROJLD -/

/-- A load or a free of a projection set that no other owner holds enters the list, and takes effect when it may. -/
theorem projLoad_posted {i : Instr} {free : Bool} {set addr shape : Nat} {ps : List (List (Place × Nat))} (hc : s.cur? = some c)
    (ha : c.acts f.com = true) (hi : i.counter = some .enc) (hs0 : (c.rdS f.s0.toNat).toNat = set)
    (hs1 : (c.rdPair f.s1.toNat).toNat = addr) (hs2 : (c.rdS f.s2.toNat).toNat = shape) (hset : set ≤ 63)
    (howner : ∀ p, mget? (s.die c.team.die).projs set = some p → p.owner = (s.ctx c.team.ctx).owner)
    (hshape : free = false → addr % 16 = 0 ∧ shape < 512 ∧ 4 ≤ shape % 256 ∧ shape % 256 ≤ 12)
    (hps : s.engRanges c (if free then [] else
      [⟨false, addr, 2 * (if shape.testBit 8 then 128 else 64) * (shape % 256), { rd := true }⟩]) = .ok ps) :
    ∃ (u : State) (d : Cur) (k : Cmd), projLoad i f free s = .next (u.tryProj c.ref.team s.nextId) ∧ Posted s u c d .enc k ∧
      k.kind = .projld set (if free then none else some (shape % 256, shape.testBit 8)) ps.flatten ∧
      OnlyCounts c d ∧ SameRegisters c.group d.group := by
  have hlegal : ¬ (63 < set || (!free && (addr % 16 ≠ 0 || 512 ≤ shape || shape % 256 < 4 || 12 < shape % 256))) = true := by
    cases free with
    | true => simp; omega
    | false =>
      obtain ⟨hal, hlt, hlo, hhi⟩ := hshape rfl
      simp; omega
  have hstart : projLoad i f free s = .next (projLoad.start i free s c set (shape % 256) (shape.testBit 8) ps.flatten
      (if free then [] else vpages addr (2 * (if shape.testBit 8 then 128 else 64) * (shape % 256)))) := by
    rw [projLoad, onSplit_eq s c _ hc]
    simp only [ha, hs0, hs1, hs2, hps, Bool.not_true, Bool.false_eq_true, if_false, if_neg hlegal]
    cases hp : mget? (s.die c.team.die).projs set with
    | none => rfl
    | some p => simp only [howner p hp, ne_eq, not_true_eq_false, if_false]
  obtain ⟨d, k, hposted, hkind, -, hgroup, hsplit⟩ := command_posted (s := s) (c := c) (e := c) (i := i) (x := .enc)
    (k := { c.cmd (.projld set (if free then none else some (shape % 256, shape.testBit 8)) ps.flatten)
      (footOf false ps.flatten) false with
      vpns := if free then [] else vpages addr (2 * (if shape.testBit 8 then 128 else 64) * (shape % 256)) })
    hi rfl rfl rfl rfl rfl rfl
  exact ⟨_, d, k, hstart, hposted, hkind, hsplit, sameRegisters_of_splits hgroup⟩

/-! ### PROJLD_TAKE_EFFECT -/

/-- The rows of a set as its bytes give them (R424). -/
def rowsOf (b : Nat) (hd : Bool) (bs : List Byte) : List (List Nat) :=
  let dim := if hd then 128 else 64
  (List.range b).map fun q => (List.range dim).map fun i => le bs (2 * (dim * q + i)) 2

/-- The rows that stand in HBM. -/
theorem rowsOf_hbm (b : Nat) (hd : Bool) (pa : Nat) : rowsOf b hd (rdBytes s.hbm pa (2 * (if hd then 128 else 64) * b)) =
    (List.range b).map fun q => (List.range (if hd then 128 else 64)).map fun i =>
      s.hbmNat (pa + 2 * ((if hd then 128 else 64) * q + i)) 2 := by
  refine List.map_congr_left fun q hq => List.map_congr_left fun i hi => le_rdBytes _ _ ?_
  generalize (if hd then 128 else 64) = dim at hi ⊢
  have hrow : dim * (q + 1) ≤ dim * b := Nat.mul_le_mul_left dim (List.mem_range.mp hq)
  have := List.mem_range.mp hi
  rw [Nat.mul_add, Nat.mul_one] at hrow
  rw [Nat.mul_assoc]
  omega

/-- The sets of a die with one of them loaded from bytes, or freed (R425). -/
def setPlaced (x : Nat) (owner : Word) (set : Nat) (shape : Option (Nat × Bool)) (bs : List Byte) (m : SMap ProjSet) : SMap ProjSet :=
  match shape with
  | none => mdel m set
  | some (b, hd) => mput m set ⟨x, owner, b, hd, rowsOf b hd bs⟩

/-- The state in which a set is placed and the command of team `tm` that placed it is left to its posting (R425). -/
def State.placed (s : State) (team cmd : Nat) (tm : Team) (owner : Word) (set : Nat) (shape : Option (Nat × Bool)) (bs : List Byte) : State :=
  (s.modDie tm.die fun d => { d with projs := setPlaced tm.ctx owner set shape bs d.projs }).modTeam team fun t =>
    { t with cmds := mmod t.cmds cmd fun k => { k with kind := .effected, begun := true } }

section
variable {team cmd set : Nat} {tm : Team} {k : Cmd} {owner : Word} {shape : Option (Nat × Bool)} {src : List (Place × Nat)}

theorem State.placed_sameMemory (bs : List Byte) : SameMemory s (s.placed team cmd tm owner set shape bs) :=
  ⟨fun _ => rfl, fun _ _ => rfl⟩

theorem State.placed_projs (bs : List Byte) :
    ((s.placed team cmd tm owner set shape bs).die tm.die).projs = setPlaced tm.ctx owner set shape bs (s.die tm.die).projs := by
  rw [State.die, State.placed, State.modTeam_dies, State.modDie_dies, mget_mput, if_pos rfl]

theorem State.placed_die_other (bs : List Byte) {j : Nat} (hj : j ≠ tm.die) :
    (s.placed team cmd tm owner set shape bs).die j = s.die j := by
  rw [State.die, State.placed, State.modTeam_dies, State.modDie_dies, mget_mput, if_neg (Ne.symm hj), State.die]

/-- The command stands in its team's list with nothing left but its posting. -/
theorem State.placed_cmd (bs : List Byte) (hteam : mget? s.teams team = some tm) (hcmd : mget? tm.cmds cmd = some k) :
    ∃ tm' k', mget? (s.placed team cmd tm owner set shape bs).teams team = some tm' ∧ mget? tm'.cmds cmd = some k' ∧ k'.kind = .effected := by
  refine ⟨{ tm with cmds := mmod tm.cmds cmd fun k => { k with kind := .effected, begun := true } },
    { k with kind := .effected, begun := true }, ?_, ?_, rfl⟩
  · rw [State.placed, State.modTeam_teams, State.modDie_teams, mget?_mmod, if_pos rfl, hteam, Option.map_some]
  · rw [mget?_mmod, if_pos rfl, hcmd, Option.map_some]

/-- A load or a free takes effect, where nothing issued before uses the set and no other package holds its rows. -/
theorem exec_projldTakeEffect_places (hteam : mget? s.teams team = some tm) (hcmd : mget? tm.cmds cmd = some k)
    (hkind : k.kind = .projld set shape src) (hstatus : tm.status ≠ .saved) (hclear : tm.clear cmd k.foot = true)
    (hbusy : s.setBusy tm.die set cmd = false)
    (howner : ∀ p, mget? (s.die tm.die).projs set = some p → p.owner = (s.ctx tm.ctx).owner) (hpeers : src.flatMap peerCuts = []) :
    exec (.projldTakeEffect team cmd) s = .next ((s.engReads team src).1.placed team cmd tm (s.ctx tm.ctx).owner set shape
      (s.engReads team src).2) := by
  obtain ⟨kind, group, split, foot, begun, taken, vpns, cause⟩ := k
  obtain rfl : kind = .projld set shape src := hkind
  have howned : ((mget? (s.die tm.die).projs set).map fun p => p.owner != (s.ctx tm.ctx).owner).getD false = false := by
    cases hp : mget? (s.die tm.die).projs set with
    | none => rfl
    | some p => simp [howner p hp]
  have hfoot : tm.clear cmd foot = true := hclear
  have hpeer : s.needPeers (.cmd cmd) (some team) tm.ctx src = none := by simp [State.needPeers, hpeers]
  rw [exec_projldTakeEffect, execProjldTakeEffect]
  simp only [State.tryProj, hteam, hcmd, Option.bind_some, Option.map_some, hstatus, hfoot, hbusy, howned, hpeer]
  cases shape <;> rfl

end

end Sys2Proof.Machine
end

section
open Sys2Proof Sys2Proof.Machine

/-- Settles O45: KST by `exec_kst_stores`, BGATH by `bgathRun_sparse` and `bgath_gathers`, the loads by `projLoad_posted`, and their
effect by `tryProj_places`. -/
theorem signatureInstructionsComplete : Obligations.SignatureInstructionsComplete := by
  unfold Obligations.SignatureInstructionsComplete
  refine ⟨fun s c f hc ha => ⟨?kst, ?bgath, ?projld⟩, fun s team cmd set tm k hteam hcmd hstatus hclear hbusy howner => ⟨?load, ?free⟩⟩
  case kst =>
    intro a h ps t c₁ sg src harea hopen hal hps r hkst hl
    have hexec := exec_kst_stores hc ha harea hopen hal hps hkst
    rw [State.again, hl, Option.getD_some] at hexec
    obtain ⟨d, q, hposted, hkind, -, hgroup, hsplit⟩ := signedDone_posted (s := t) (c := c₁) (e := c₁) (i := .kst f) (x := .enc)
      (set := h.pset) rfl rfl rfl rfl rfl
    exact ⟨_, d, q, hexec, hposted, hkind, hsplit, sameRegisters_of_splits hgroup⟩
  case bgath =>
    intro a h es q out densef lim harea hopen hq ho hqlen holen hwins hes hlim hfrac hmem
    obtain ⟨free, hrun⟩ := bgathRun_sparse harea hopen hq ho hqlen holen hwins hes hlim hfrac
    exact ⟨(bgath_ok hes).1, _, bgath_gathers hc ha hmem rfl hrun⟩
  case projld =>
    intro b hd ps set addr shape hset howner
    refine ⟨?_, ?_⟩
    · rintro hal hlt rfl hlo hhi rfl hps
      exact projLoad_posted (i := .projld f) (free := false) hc ha rfl rfl rfl rfl hset howner (fun _ => ⟨hal, hlt, hlo, hhi⟩) hps
    · exact projLoad_posted (i := .projldFree f) (free := true) (ps := []) hc ha rfl rfl rfl rfl hset howner (fun hne => nomatch hne) rfl
  case load =>
    intro b hd pa n hkind hs
    obtain ⟨o, v, hread⟩ := engRead_hbm hs.1 team pa n
    have hexec := exec_projldTakeEffect_places hteam hcmd hkind hstatus hclear hbusy howner rfl
    rw [engReads_singleton, hread] at hexec
    obtain ⟨tm', k', htm', hk', heffected⟩ := State.placed_cmd (s := { s with owned := o, views := v }) (owner := (s.ctx tm.ctx).owner)
      (set := set) (shape := some (b, hd)) (rdBytes s.hbm pa n) hteam hcmd
    refine ⟨_, ⟨tm.ctx, (s.ctx tm.ctx).owner, b, hd, rowsOf b hd (rdBytes s.hbm pa n)⟩, tm', k', hexec, State.placed_sameMemory _, ?_,
      rfl, rfl, rfl, rfl, rowsOf_hbm b hd pa, fun j hj => ?_, fun j hj => State.placed_die_other _ hj, htm', hk', heffected⟩
    · rw [State.placed_projs, setPlaced, mget?_mput_self]
    · rw [State.placed_projs, setPlaced, mget?_mput, if_neg (Ne.symm hj)]
      rfl
  case free =>
    intro hkind hwf
    have hexec := exec_projldTakeEffect_places hteam hcmd hkind hstatus hclear hbusy howner rfl
    rw [engReads_nil] at hexec
    refine ⟨_, hexec, State.placed_sameMemory _, ?_, fun j hj => ?_⟩
    · rw [State.placed_projs, setPlaced, mget?_mdel _ _ _ hwf, if_pos rfl]
    · rw [State.placed_projs, setPlaced, mget?_mdel _ _ _ hwf, if_neg (Ne.symm hj)]

end

section
/-! PROOFS. Packets sent again on a number that is a page connection's (R295, R299). FABRIC_RETRANSMIT takes a number of 2^32 or more
for that of a page connection (`pageQueue`), where its clause here asks nothing of the queue's number, unlike those of
CONNECTION_RESET. -/
namespace Sys2Proof.Machine

/-- A packet of 16 bytes that was sent once, at time 0. -/
def latePacket : OutPkt := { at_ := 0, len := 16, data := List.replicate 16 0, owner := 0, key := 0, first := some 0 }

/-- A connection to package 5 whose only request, a put, has that packet outstanding. -/
def lateConn : Conn :=
  { ctx := 0, die := 0, desc := 0, peer := 5, pctx := 0, cqb := 0, cqlog := 4, win := 16, next := 1
    reqs := [{ seq := 0, op := .put, team := 0, id := 0, src := [], len := 16, off := 0, key := 0, tag := 0, cut := 16, pkts := [latePacket] }] }

/-- A table of one slot of 100 ns in which channel 0 meets package 5. -/
def oneSlot : SlotTable := { nslot := 1, slotns := 100, guard_ := 10, start := 0, root := 0, words := [0], rmap := [] }

/-- The connection under the number 2^32, that of page connection 0, at a time long after the second rotation of the table in force. -/
def numberedAsPages : State :=
  { hbm := [(0, 5), (3, 0x80)], mgmt := { time := 1000000 }, fab := { table := some oneSlot, conns := [(2 ^ 32, lateConn)] } }

/-- A peer that a channel meets in some slot of the table in force has its own send queue. -/
theorem State.hopFor_of_meets {s : State} {t : SlotTable} {slot chan peer : Nat} (ht : s.tableNow = some t) (hslot : slot < t.nslot)
    (hchan : chan < 1024) (hmeets : s.meets t slot chan = some peer) : s.hopFor peer = some peer := by
  have hever : s.meetsEver t peer = true :=
    List.any_eq_true.mpr ⟨slot, List.mem_range.mpr hslot, List.any_eq_true.mpr ⟨chan, List.mem_range.mpr hchan, by simp [hmeets]⟩⟩
  simp [State.hopFor, ht, hever]

/-- A page connection with nothing outstanding sends nothing again. -/
theorem State.resendPages_of_nil {s : State} {key : Nat} (h : (mget {} s.fab.pages key).pkts = []) : s.resendPages key = s := by
  unfold State.resendPages
  split
  next => simp [h]
  next => rfl

theorem hopFor_numberedAsPages : numberedAsPages.hopFor 5 = some 5 :=
  State.hopFor_of_meets (t := oneSlot) (slot := 0) (chan := 0) rfl (by decide) (by decide) (by decide)

theorem fabricRetransmit_numberedAsPages : exec (.fabricRetransmit (2 ^ 32)) numberedAsPages = .next numberedAsPages := by
  simp [execFabricRetransmit, State.resendPages_of_nil (s := numberedAsPages) (key := 0) rfl]

end Sys2Proof.Machine
end

section
open Sys2Proof Sys2Proof.Machine

/-- Refutes O53: it speaks of every number of a queue, and in `numberedAsPages` a connection stands under one of 2^32 or more, by which
FABRIC_RETRANSMIT goes to a page connection (R295), so that its late packet does not join the send queue again. -/
theorem not_fabricSenderEventsComplete : ¬ Obligations.FabricSenderEventsComplete := by
  unfold Obligations.FabricSenderEventsComplete
  intro h
  obtain ⟨hsender, -, -⟩ := h
  obtain ⟨-, -, -, -, -, hconn⟩ := hsender numberedAsPages
  obtain ⟨-, -, -, hlate, -⟩ := hconn (2 ^ 32) lateConn rfl
  obtain ⟨t, ht, -, -, -, hagain⟩ := hlate oneSlot 5 rfl hopFor_numberedAsPages
  obtain ⟨x, hx, -⟩ := hagain _ (List.mem_singleton_self _) _ (List.mem_singleton_self _) rfl (by decide)
  obtain rfl : t = numberedAsPages := by simpa using ht.symm.trans fabricRetransmit_numberedAsPages
  exact List.not_mem_nil hx

end

section
/-! PROOFS. What writes to memory leave aside: the part writes its records in HBM, recalling stash lines on its way, and the fabric, the
management's registers and the tiles in ring engines are as before. -/
namespace Sys2Proof.Machine

variable {β : Type} {s t u : State}

/-- From `s` to `t` the fabric, the management's registers and the tiles in ring engines are as before. -/
structure SameRecords (s t : State) : Prop where
  fab : t.fab = s.fab
  mgmt : t.mgmt = s.mgmt
  tiles : t.tiles = s.tiles

theorem SameRecords.refl (s : State) : SameRecords s s := ⟨rfl, rfl, rfl⟩

theorem SameRecords.trans (h : SameRecords s t) (h' : SameRecords t u) : SameRecords s u :=
  ⟨h'.fab.trans h.fab, h'.mgmt.trans h.mgmt, h'.tiles.trans h.tiles⟩

theorem foldl_sameRecords {f : State → β → State} (hf : ∀ v b, SameRecords v (f v b)) (l : List β) (s : State) :
    SameRecords s (l.foldl f s) :=
  List.foldlRecOn (motive := SameRecords s) l f (.refl s) fun v hv b _ => hv.trans (hf v b)

theorem State.stashWriteBack_sameRecords (s : State) (tid w n : Nat) : SameRecords s (s.stashWriteBack tid w n) := by
  fun_cases s.stashWriteBack tid w n with
  | case4 => exact ⟨rfl, rfl, rfl⟩
  | _ => exact .refl s

theorem State.stashRecall_sameRecords (s : State) (tid w n : Nat) : SameRecords s (s.stashRecall tid w n) :=
  (s.stashWriteBack_sameRecords tid w n).trans ⟨rfl, rfl, rfl⟩

theorem State.recallFor_sameRecords (s : State) (tid : Option Nat) (pa n : Nat) : SameRecords s (s.recallFor tid pa n) := by
  refine foldl_sameRecords (fun v line => ?_) _ s
  have howned : SameRecords v { v with owned := mdel v.owned line } := ⟨rfl, rfl, rfl⟩
  dsimp only
  split
  · split
    · exact howned
    · exact howned.trans (State.stashRecall_sameRecords ..)
  · exact howned

theorem State.homeWrite_sameRecords (s : State) (pa : Nat) (bs : List Byte) : SameRecords s (s.homeWrite pa bs) :=
  (s.recallFor_sameRecords none pa bs.length).trans ⟨rfl, rfl, rfl⟩

theorem State.l1Refresh_sameRecords (s : State) (core : Option Nat) (pa : Nat) (bs : List Byte) : SameRecords s (s.l1Refresh core pa bs) := by
  cases core with
  | none => exact .refl s
  | some k =>
    dsimp only [State.l1Refresh]
    split <;> exact ⟨rfl, rfl, rfl⟩

theorem State.spanWrite_sameRecords (s : State) (l : List (Place × Nat)) (bs : List Byte) (core : Option Nat) :
    SameRecords s (s.spanWrite l bs core) := by
  refine List.foldlRecOn (motive := fun q : State × List Byte => SameRecords s q.1) l _ (.refl s) fun q hq c _ => ?_
  dsimp only
  split
  · exact hq.trans ((State.homeWrite_sameRecords ..).trans (State.l1Refresh_sameRecords ..))
  · exact hq

theorem State.vWrite_sameRecords {d x va : Nat} {bs : List Byte} {core : Option Nat} (h : s.vWrite d x va bs core = some t) :
    SameRecords s t := by
  obtain ⟨l, -, rfl⟩ := Option.map_eq_some_iff.mp h
  exact s.spanWrite_sameRecords l bs core

theorem State.connWrite_sameRecords (s : State) (c : Conn) (va : Nat) (bs : List Byte) : SameRecords s (s.connWrite c va bs) := by
  rw [State.connWrite]
  cases hw : s.vWrite c.die c.ctx va bs with
  | none => exact .refl s
  | some t => exact State.vWrite_sameRecords hw

theorem State.showConn_sameRecords (s : State) (k : Nat) : SameRecords s (s.showConn k) := by
  rw [State.showConn]
  split
  · exact .refl s
  · exact State.connWrite_sameRecords ..

theorem State.faultPush_sameRecords (s : State) (d x : Nat) (rec : List Byte) : SameRecords s (s.faultPush d x rec) := by
  rw [State.faultPush]
  split
  · exact .refl s
  · split
    next hw => exact (State.vWrite_sameRecords hw).trans ⟨rfl, rfl, rfl⟩
    next => exact .refl s

end Sys2Proof.Machine
end

section
/-! PROOFS. A remote request while the teams are no map with rising keys (R293, R432). The way to a peer is looked up once the
request's split has been put back, and `mput` writes its team before the first larger key: a team that stands behind a larger key comes to
stand before it too. So a stash line of that team becomes the owner of an HBM line whose owner was another team's dirty line, and a word
of the relay map there reads otherwise than before (R191). -/
namespace Sys2Proof.Machine

/-- A queue to package 0 that has taken no request. -/
def freshQueue : Conn := { ctx := 0, die := 0, desc := 0x1000, peer := 0, pctx := 0, cqb := 0x2000, cqlog := 4, win := 16 }

/-- A team of one group and one split, whose window of one line holds the HBM line at 0. -/
def windowed (core : Nat) (dirty : Bool) : Team :=
  { ctx := 0, task := 0, index := 0, die := 0, core := core, base := 0, bytes := 4096
    wins := [(0, { lo := 0, len := 128, ga := 0x3000, group := 0, split := 0, entry := none, lines := [(0, ⟨0, dirty⟩)] })]
    groups := [(0, { role := 0, roleIdx := 0, width := 1, budget := 0, slot := 0, base := 0, splits := [(0, { pc := 0, mask := 1 })] })] }

/-- A table of no slot, with its relay map in the HBM line at 0. -/
def relayOnly : SlotTable := { nslot := 0, slotns := 100, guard_ := 10, start := 0, root := 0, words := [], rmap := [(0, 4)] }

/-- Team 1, whose split is to act, is listed behind team 2; team 2's line is dirty and holds the word 2^31, a relay to package 0; team 1's
is clean. -/
def unsortedOwners : State :=
  { turn := .split ⟨1, 0, 0⟩, teams := [(2, windowed 1 true), (1, windowed 0 false)]
    cores := [(1, { arr := [(3, 0x80)] })]
    fab := { table := some relayOnly, conns := [(0, freshQueue)] } }

/-- An RCQW of queue 0 that waits for queue 0 itself. -/
def waitForItself : FmtE := ⟨⟨0, false, 7⟩, 0, 0, 0, 0, 0, 0, 0⟩

/-- A queue that has taken its request and shows it in its descriptor is in the incarnation that it was in. -/
theorem State.showConn_epoch (s : State) (k : Nat) (q : Conn) :
    (((s.modFab fun b => { b with conns := mput b.conns k q }).showConn k).conn? k).map Conn.epoch = some q.epoch := by
  rw [State.conn?, (State.showConn_sameRecords ..).fab, State.modFab_fab, mget?_mput_self, Option.map_some]

/-- Before the request the relay map names a way. -/
theorem hopFor_unsortedOwners : unsortedOwners.hopFor 0 = some 0 := by decide

/-- The request resets its connection. -/
theorem rcqw_unsortedOwners :
    ∃ t : State, exec (.rcqw waitForItself) unsortedOwners = .next t ∧ (t.conn? 0).map Conn.epoch = some 1 :=
  ⟨_, rfl, by decide⟩

end Sys2Proof.Machine
end

section
open Sys2Proof Sys2Proof.Machine

/-- Refutes O52: it speaks of every state, and over `unsortedOwners`, whose keys do not rise, an RCQW resets its connection though the
slot table reached the peer before it, where the statement has the descriptor show the request. -/
theorem not_fabricInstructionsComplete : ¬ Obligations.FabricInstructionsComplete := by
  unfold Obligations.FabricInstructionsComplete
  intro h
  obtain ⟨-, -, -, -, -, hrcqw, -⟩ := h unsortedOwners ⟨⟨1, 0, 0⟩, _, _, _⟩ waitForItself rfl (by decide)
  have hbound : unsortedOwners.conn? 0 = some freshQueue := rfl
  have hplaced := hrcqw rfl freshQueue [] hbound rfl
  obtain ⟨u, d, cmd, -, -, -, -, hshown⟩ := hplaced nofun
  obtain ⟨t, ht, hepoch⟩ := rcqw_unsortedOwners
  have hway : ¬ ((unsortedOwners.hopFor 0).isNone && !unsortedOwners.meetsLater 0) = true := by
    rw [hopFor_unsortedOwners]
    exact Bool.false_ne_true
  obtain rfl := Host.Outcome.next.inj (ht.symm.trans (hshown.trans (congrArg Host.Outcome.next (if_neg hway))))
  exact absurd (hepoch.symm.trans (State.showConn_epoch ..)) (by decide)

end

section
/-! PROOFS. The receiving side of the fabric (R293, R298, R301, R306): what a packet that is taken does to the fabric and to memory. -/
namespace Sys2Proof.Machine

variable {s t : State} {p : Packet} {c : InConn} {key : Nat}

/-! ### The checks of a packet in a state with another fabric -/

theorem State.modFab_span (s : State) (f : Fabric → Fabric) : (s.modFab f).span = s.span := by
  have hwalk (dev va n node : Nat) : (s.modFab f).walkFrom dev va n node = s.walkFrom dev va n node := by
    induction n generalizing node with
    | zero => rfl
    | succ n ih =>
      rw [State.walkFrom, State.walkFrom]
      simp only [ih]
      rfl
  have htranslate : (s.modFab f).translate = s.translate := by
    funext d x va need
    rw [State.translate, State.translate, State.walk, State.walk, hwalk]
    rfl
  funext d x va n need
  rw [State.span, State.span, htranslate]

/-- The checks of R301 see the windows alone of the fabric. -/
theorem State.modFab_windowCheck {f : Fabric → Fabric} (hf : (f s.fab).windows = s.fab.windows) (p : Packet) (off n : Nat) :
    (s.modFab f).windowCheck p off n = s.windowCheck p off n := by
  simp only [State.windowCheck, State.modFab_span, State.modFab_fab, hf]
  rfl

/-- An acknowledgement names the owner of a window's context, with its key. -/
theorem State.ackOut_congr (hw : t.fab.windows = s.fab.windows) (hk : t.fab.keys = s.fab.keys) (hx : t.ctxs = s.ctxs) (p : Packet)
    (a : AckItem) : t.ackOut p a = s.ackOut p a := by
  simp only [State.ackOut, State.credentials, State.windowCtx, State.ctx, hw, hk, hx]

/-! ### A packet that reaches its connection -/

/-- What the connection keeps once a request has been applied whole (R298). -/
def InConn.finished (c : InConn) (p : Packet) : InConn := { c with applied := p.seq + 1, part := 0, perf := 0, refused := 0 }

/-- The connection's entry written again, as a packet of its incarnation does. -/
def State.rewritten (s : State) (key : Nat) (c : InConn) : State := s.modFab fun b => { b with inc := mput b.inc key c }

/-- The connection's request applied whole, and acknowledged. -/
def State.acknowledged (s : State) (key : Nat) (p : Packet) (status done : Nat) : State :=
  (s.modFab fun b => { b with inc := mmod b.inc key fun c => c.finished p }).sayAck key p
    { seq := p.seq, upto := p.len, status := status, done := done, data := [] }

/-- The packet is a whole request, the next of its connection, where nothing has come early. -/
structure InConn.Awaits (c : InConn) (p : Packet) : Prop where
  applied : c.applied = p.seq
  part : c.part = 0
  perf : c.perf = 0
  refused : c.refused = 0
  early : c.early = []
  index : p.index = 0
  last : p.last = true

theorem InConn.Awaits.isOld (h : c.Awaits p) : c.isOld p = false := by simp [InConn.isOld, h.applied, h.part]

theorem InConn.Awaits.isNext (h : c.Awaits p) : c.isNext p = true := by simp [InConn.isNext, h.applied, h.index]

theorem State.takePacket_whole (hinc : mget? s.fab.inc (p.src * 2 ^ 40 + p.conn) = some c) (hepoch : c.epoch = p.epoch) (h : c.Awaits p) :
    s.takePacket p = (s.rewritten (p.src * 2 ^ 40 + p.conn) c).applyPacket (p.src * 2 ^ 40 + p.conn) p := by
  simp [-Nat.reducePow, State.takePacket, hinc, hepoch, h.isOld, h.isNext, h.early, State.applyEarly, State.rewritten]

/-- A packet that has been applied is acknowledged again, if its acknowledgement is remembered: memory and the teams do not change. -/
theorem State.takePacket_old (hinc : mget? s.fab.inc (p.src * 2 ^ 40 + p.conn) = some c) (hepoch : c.epoch = p.epoch)
    (hold : c.isOld p = true) : ∃ b : Fabric, s.takePacket p = { s with fab := b } := by
  simp only [State.takePacket, hinc, hepoch, lt_irrefl, if_false, hold, if_true]
  split
  next => exact ⟨_, rfl⟩
  next => exact ⟨_, rfl⟩

theorem State.rewritten_inc (s : State) (key : Nat) (c : InConn) : mget? (s.rewritten key c).fab.inc key = some c := mget?_mput_self ..

theorem State.rewritten_windowCheck (s : State) (key : Nat) (c : InConn) (p : Packet) (off n : Nat) :
    (s.rewritten key c).windowCheck p off n = s.windowCheck p off n := State.modFab_windowCheck (by rfl) p off n

/-- A whole request that the windows refuse, but for a page that is not there, is acknowledged with that status. -/
theorem State.applyPacket_refused {e : Nat} (hinc : mget? s.fab.inc key = some c) (h : c.Awaits p) (h₁ : e ≠ 1) (h₈ : e ≠ 8)
    (hcheck : s.windowCheck p p.offset.toNat p.len = .error e) : s.applyPacket key p = s.acknowledged key p e 0 := by
  simp [State.applyPacket, hinc, h.part, h.perf, h.refused, h.index, h.last, hcheck, h₁, h₈, State.acknowledged, InConn.finished]

/-- A whole put that its window allows, and that names no tag, is written and acknowledged. -/
theorem State.applyPacket_put {x va : Nat} {l : List (Place × Nat)} (hinc : mget? s.fab.inc key = some c) (h : c.Awaits p) (hkind : p.kind = 0)
    (htag : p.tag = 0) (hcheck : s.windowCheck p p.offset.toNat p.len = .ok (x, va, l)) :
    s.applyPacket key p = (s.spanWrite l p.data).acknowledged key p 1 p.len := by
  simp [State.applyPacket, hinc, h.part, h.perf, h.refused, h.index, h.last, hcheck, hkind, htag, State.performPacket, State.acknowledged,
    InConn.finished]

theorem State.acknowledged_fab (s : State) (key : Nat) (p : Packet) (status done : Nat) :
    (s.acknowledged key p status done).fab.acks =
      s.fab.acks ++ [s.ackOut p { seq := p.seq, upto := p.len, status := status, done := done, data := [] }] := rfl

/-- The connection has applied the request once it is acknowledged. -/
theorem State.acknowledged_inc (hinc : mget? s.fab.inc key = some c) (p : Packet) (status done : Nat) :
    ∃ c', mget? (s.acknowledged key p status done).fab.inc key = some c' ∧ c'.applied = p.seq + 1 := by
  refine ⟨{ c.finished p with said := { seq := p.seq, upto := p.len, status := status, done := done, data := [] } :: c.said }, ?_, rfl⟩
  simp [State.acknowledged, State.sayAck, mget?_mmod, hinc, InConn.finished]

/-- The packet is written where its window has it, and its connection has applied it. -/
theorem State.acknowledged_put {pa : Nat} (hs : s.noStash) (hmem : s.memOk = true) (hlen : p.data.length = p.len)
    (hinc : mget? s.fab.inc key = some c) :
    let u := (s.spanWrite [(.hbm pa, p.len)] p.data).acknowledged key p 1 p.len
    rdBytes u.hbm pa p.len = p.data ∧ (∀ a, ¬ Bytes pa p.len a → rdByte u.hbm a = rdByte s.hbm a) ∧
      (∃ c', mget? u.fab.inc key = some c' ∧ c'.applied = p.seq + 1) ∧
      u.fab.acks = s.fab.acks ++ [s.ackOut p { seq := p.seq, upto := p.len, status := 1, done := p.len, data := [] }] := by
  have hwf := State.memOk_hbm hmem
  have hrecords := s.spanWrite_sameRecords [(.hbm pa, p.len)] p.data none
  have hwrote := spanWrite_wrote hs.1 pa p.data none
  rw [hlen] at hwrote
  refine ⟨?_, fun a ha => ?_, State.acknowledged_inc (by rw [hrecords.fab]; exact hinc) p 1 p.len, ?_⟩
  · have hread := rdBytes_wrBytes s.hbm pa p.data hwf
    rwa [hlen, ← hwrote.hbm] at hread
  · have hbyte : rdByte (wrBytes s.hbm pa p.data) a = _ := rdByte_wrBytes _ _ _ _ hwf
    rw [hlen] at hbyte
    rwa [if_neg (by exact ha), ← hwrote.hbm] at hbyte
  · rw [State.acknowledged_fab, hrecords.fab,
      State.ackOut_congr (congrArg Fabric.windows hrecords.fab) (congrArg Fabric.keys hrecords.fab) hwrote.ctxs]

/-- A packet for this package on a channel in service is taken where its owner is known with its key (R306), and dropped elsewhere. -/
theorem execFabricPacketReceive_heard (hhears : s.fab.hears p = true) (htable : s.tableNow.isSome = true) (hdst : p.dst = Config.selfPackage) :
    execFabricPacketReceive p s = .next (if s.fab.admits p then s.takePacket p else s.dropPacket p) := by
  simp [execFabricPacketReceive, hhears, hdst, Option.isSome_iff_ne_none.mp htable]

/-! ### Channels -/

/-- What many dark channels latch is a bit of HEALTH (R333). -/
theorem State.latchDark_spec (s : State) : ∃ m : Mgmt, s.latchDark = { s with mgmt := m } := by
  rw [State.latchDark]
  split
  next => exact ⟨_, rfl⟩
  next => exact ⟨s.mgmt, rfl⟩

/-- Of a short list of drops no 64 lie within any time. -/
theorem execChannelIsolation_few {chan : Nat} (h : (mget [] s.fab.drops chan).length < 64) : execChannelIsolation chan s = .next s := by
  have hbeyond (i : Nat) : (mget [] s.fab.drops chan)[i + 63]? = none := List.getElem?_eq_none (by omega)
  simp [execChannelIsolation, hbeyond]

theorem execChannelIsolation_many {chan i a b : Nat} (ha : (mget [] s.fab.drops chan)[i]? = some a)
    (hb : (mget [] s.fab.drops chan)[i + 63]? = some b) (hab : a ≤ b + 1000000) (hisol : chan ∉ s.fab.isol) :
    execChannelIsolation chan s =
      .next (s.modFab fun b => { b with isol := b.isol ++ [chan], drops := mdel b.drops chan }).latchDark := by
  obtain ⟨hi, -⟩ := List.getElem?_eq_some_iff.mp ha
  rw [execChannelIsolation, if_pos]
  rw [Bool.and_eq_true, List.any_eq_true]
  exact ⟨⟨i, List.mem_range.mpr hi, by simp [ha, hb, hab]⟩, by simpa using hisol⟩

end Sys2Proof.Machine
end

section
open Sys2Proof Sys2Proof.Machine

/-- Settles O54: a packet whose owner is known (R306) is taken, by `State.takePacket_whole` and the outcome of the checks of R301. -/
theorem fabricTargetEventsComplete : Obligations.FabricTargetEventsComplete := by
  unfold Obligations.FabricTargetEventsComplete
  refine ⟨fun s p hhears htable => ⟨?dropped, fun c hdst hadmits hinc hepoch => ⟨?old, ?put, ?refused⟩, ?relayed⟩, ?isolated, ?few⟩
  case dropped =>
    intro hdst hadmits
    refine ⟨s.dropPacket p, ?_, ⟨fun _ => rfl, fun _ _ => rfl⟩, rfl, ?_⟩
    · rw [exec_fabricPacketReceive, execFabricPacketReceive_heard hhears htable hdst, hadmits, if_neg Bool.false_ne_true]
    · simp [State.dropPacket, State.dropOn, mget_mput]
  case old =>
    intro hold
    obtain ⟨b, htaken⟩ := State.takePacket_old hinc hepoch hold
    rw [exec_fabricPacketReceive, execFabricPacketReceive_heard hhears htable hdst, if_pos hadmits, htaken]
    exact ⟨_, rfl, ⟨fun _ => rfl, fun _ _ => rfl⟩, rfl⟩
  case put =>
    intro x va pa hs hmem happlied hpart hperf hrefused hearly hindex hkind hlast htag hlen hcheck
    have hawaits : c.Awaits p := ⟨happlied, hpart, hperf, hrefused, hearly, hindex, hlast⟩
    have hfound := s.rewritten_inc (p.src * 2 ^ 40 + p.conn) c
    have hallows := (s.rewritten_windowCheck (p.src * 2 ^ 40 + p.conn) c p p.offset.toNat p.len).trans hcheck
    rw [exec_fabricPacketReceive, execFabricPacketReceive_heard hhears htable hdst, if_pos hadmits, State.takePacket_whole hinc hepoch hawaits,
      State.applyPacket_put hfound hawaits hkind htag hallows]
    obtain ⟨hread, hframe, ⟨c', hc', happlied'⟩, hacks⟩ := State.acknowledged_put (pa := pa) (s := s.rewritten (p.src * 2 ^ 40 + p.conn) c)
      hs hmem hlen hfound
    exact ⟨_, c', rfl, hread, hframe, hc', happlied', hacks⟩
  case refused =>
    intro e happlied hpart hperf hrefused hearly hindex hlast h₁ h₈ hcheck
    have hawaits : c.Awaits p := ⟨happlied, hpart, hperf, hrefused, hearly, hindex, hlast⟩
    have hfound := s.rewritten_inc (p.src * 2 ^ 40 + p.conn) c
    have hrefuses := (s.rewritten_windowCheck (p.src * 2 ^ 40 + p.conn) c p p.offset.toNat p.len).trans hcheck
    rw [exec_fabricPacketReceive, execFabricPacketReceive_heard hhears htable hdst, if_pos hadmits, State.takePacket_whole hinc hepoch hawaits,
      State.applyPacket_refused hfound hawaits h₁ h₈ hrefuses]
    exact ⟨_, rfl, ⟨fun _ => rfl, fun _ _ => rfl⟩, rfl, rfl⟩
  case relayed =>
    intro hdst hadmits hmutual hroom
    refine ⟨s.modFab fun b => { b with relay := b.relay ++ [p] }, ?_, ⟨fun _ => rfl, fun _ _ => rfl⟩, rfl, rfl⟩
    have hall : (s.residents.all fun o => s.fab.mutual p.owner o) = true := List.all_eq_true.mpr hmutual
    simp only [exec_relayForward, execRelayForward, hdst, decide_false, hhears, hadmits, hall, if_neg (Nat.not_lt.mpr hroom)]
    simp [Option.isSome_iff_ne_none.mp htable]
  case isolated =>
    intro s chan i a b ha hb hab hisol
    obtain ⟨m, hlatched⟩ := (s.modFab fun b => { b with isol := b.isol ++ [chan], drops := mdel b.drops chan }).latchDark_spec
    rw [exec_channelIsolation, execChannelIsolation_many ha hb hab hisol, hlatched]
    exact ⟨_, rfl, ⟨fun _ => rfl, fun _ _ => rfl⟩, rfl, rfl⟩
  case few =>
    intro s chan hfew
    exact execChannelIsolation_few hfew

end

section
/-! PROOFS. The events of ring commands and of RWAITs (R282 to R285, R288, R438). -/
namespace Sys2Proof.Machine

variable {s t : State} {tid cmd tile : Nat} {tm : Team} {q : Cmd} {k : RingCmd}

/-! ### Tiles -/

/-- A tile of another command than RRS is never forwarded to be reduced. -/
theorem RingCmd.forwards_of_ne (hop : k.op ≠ .rrs) (tile : Nat) : k.forwards tile = false := by simp [RingCmd.forwards, hop]

/-- A command that reads nothing at peers asks for nothing there. -/
theorem State.needPeers_nil (s : State) (who : Asker) (team : Option Nat) (x : Nat) : s.needPeers who team x [] = none := by
  simp [State.needPeers]

/-- A tile of a local source has nothing to ask for. -/
theorem State.tileAsks_local (hop : k.op ≠ .rrs) (hloc : k.d.sloc = true) (s : State) (tid cmd : Nat) (tm : Team) (tile : Nat) :
    s.tileAsks tid cmd tm k tile = none := by
  have hreads : s.tileReads tm.ctx k tile = [] := by simp [State.tileReads, hloc, RingCmd.forwards_of_ne hop]
  rw [State.tileAsks, hreads, State.needPeers_nil, ite_self]

/-- The rows of a local source, as the array holds them. -/
theorem State.readTile_local (hloc : k.d.sloc = true) (hstatus : tm.status ≠ .saved) (s : State) (tid tile : Nat) :
    s.readTile tid tm k tile = (s, (k.srcRows (k.chunkOf tile) (tile % k.d.nt)).map fun a => s.arrRead tm a k.d.rbytes) := by
  have hfrom (rows : List Nat) (acc : List (List Byte)) :
      rows.foldl (fun (z : State × List (List Byte)) a =>
        if k.d.sloc then (z.1, z.2 ++ [z.1.localBytes tm a k.d.rbytes])
        else let r := z.1.heldRead tid tm.ctx k.pages a k.d.rbytes; (r.1, z.2 ++ [r.2])) (s, acc) =
      (s, acc ++ rows.map fun a => s.arrRead tm a k.d.rbytes) := by
    induction rows generalizing acc with
    | nil => simp
    | cons a rows ih =>
      simp only [hloc, if_true, State.localBytes, if_neg hstatus] at ih
      simp only [List.foldl_cons, hloc, if_true, State.localBytes, if_neg hstatus, ih, List.map_cons, List.append_assoc, List.singleton_append]
  exact (hfrom _ []).trans (by rw [List.nil_append])

/-- A command whose engine holds the bytes of a tile. -/
def RingCmd.holding (tile : Nat) (bs : List Byte) (k : RingCmd) : RingCmd := { k with held := mput k.held tile bs }

/-- The engine of a command that has begun reads a tile of a local source (R284, R285). -/
theorem execRingTileAccept_local (hring : s.ringOfCmd cmd = some (tid, tm, q, k)) (hbegun : q.begun = true) (hleft : k.left.contains tile = true)
    (hop : k.op ≠ .rrs) (hheld : mget? k.held tile = none) (hloc : k.d.sloc = true) (hstatus : tm.status ≠ .saved) :
    execRingTileAccept cmd tile s = .next (s.modRing tid cmd
      (RingCmd.holding tile ((k.srcRows (k.chunkOf tile) (tile % k.d.nt)).flatMap fun a => s.arrRead tm a k.d.rbytes))) := by
  simp only [execRingTileAccept, hring, hbegun, hleft, State.tileAsks_local hop hloc, RingCmd.forwards_of_ne hop,
    State.readTile_local hloc hstatus, hop, hheld]
  rfl

/-- A command's record changed in place. -/
theorem State.modRing_found {f : RingCmd → RingCmd} (hteam : mget? s.teams tid = some tm) (hcmd : mget? tm.cmds cmd = some q)
    (hkind : q.kind = .ring k) : ∃ (tm' : Team) (q' : Cmd), mget? (s.modRing tid cmd f).teams tid = some tm' ∧ mget? tm'.cmds cmd = some q' ∧
      q'.kind = .ring (f k) := by
  refine ⟨_, { q with kind := .ring (f k) }, by rw [State.modRing, State.modTeam_teams, mget?_mmod, if_pos rfl, hteam]; rfl, ?_, rfl⟩
  simp only [mget?_mmod, if_true, hcmd, Option.map_some, hkind]

/-- A command found by its number is a ring command of the kind that its entry has. -/
theorem State.ringOfCmd_kind (h : s.ringOfCmd cmd = some (tid, tm, q, k)) : q.kind = .ring k := by
  obtain ⟨⟨i, y, r⟩, -, hring⟩ := Option.bind_eq_some_iff.mp h
  dsimp only at hring
  split at hring
  next kind hkind =>
    cases hring
    exact hkind
  next => cases hring

/-! ### Counters and rows -/

/-- The pieces of a range under held leaves are where they were after accesses to memory. -/
theorem Accessed.heldPieces (h : Accessed s t) (x : Nat) (pages : SMap DWord) (a n : Nat) : t.heldPieces x pages a n = s.heldPieces x pages a n := by
  rw [State.heldPieces, State.heldPieces, placeOf_congr (h.sameTables x)]

/-- A range that lies in one piece of HBM, written under held leaves. -/
theorem heldWrite_wrote {x a pa : Nat} {pages : SMap DWord} {bs : List Byte} (hs : s.noLines)
    (hpieces : s.heldPieces x pages a bs.length = [(.hbm pa, bs.length)]) : Wrote s (s.heldWrite tid x pages a bs) pa bs := by
  have hwrote := homeWrite_wrote hs ((mget? s.teams tid).map (·.coreKey)) pa bs
  simpa only [State.heldWrite, hpieces, List.foldl_cons, List.foldl_nil, State.engWrite, List.take_length] using hwrote

/-- A range that lies in one piece of HBM, read under held leaves: accesses to memory, HBM and the arrays as before. -/
theorem heldRead_hbm {x a n pa : Nat} {pages : SMap DWord} (hs : s.noLines) (hpieces : s.heldPieces x pages a n = [(.hbm pa, n)]) :
    ∃ u, s.heldRead tid x pages a n = (u, rdBytes s.hbm pa n) ∧ Accessed s u ∧ u.hbm = s.hbm ∧ SameArrays s u := by
  obtain ⟨o, v, hread⟩ := engRead_hbm hs tid pa n
  refine ⟨{ s with owned := o, views := v }, ?_, ⟨rfl, rfl, rfl, rfl, rfl, rfl, rfl⟩, rfl, fun _ => rfl⟩
  simp only [State.heldRead, hpieces, List.foldl_cons, List.foldl_nil, hread, List.nil_append]

/-- A range that lies in one piece of HBM, read and then written under held leaves. -/
theorem heldUpdate_wrote {x a pa n : Nat} {pages : SMap DWord} (bs : List Byte) (hs : s.noLines) (hlen : bs.length = n)
    (hpieces : s.heldPieces x pages a n = [(.hbm pa, n)]) : (s.heldRead tid x pages a n).2 = rdBytes s.hbm pa n ∧
      Wrote s ((s.heldRead tid x pages a n).1.heldWrite tid x pages a bs) pa bs := by
  obtain ⟨u, hread, haccessed, hhbm, harr⟩ := heldRead_hbm (tid := tid) hs hpieces
  subst hlen
  have hpieces' : u.heldPieces x pages a bs.length = [(.hbm pa, bs.length)] := by rw [haccessed.heldPieces, hpieces]
  rw [hread]
  exact ⟨rfl, (heldWrite_wrote (haccessed.noLines hs) hpieces').after haccessed hhbm harr⟩

/-- A counter in HBM takes one more. -/
theorem State.bumpCounter_hbm {x a pa : Nat} {pages : SMap DWord} (hpieces : s.heldPieces x pages a 4 = [(.hbm pa, 4)]) :
    s.bumpCounter tid x pages a = (s.heldRead tid x pages a 4).1.heldWrite tid x pages a
      (bytesOfNat 4 ((natOfBytes (s.heldRead tid x pages a 4).2 + 1) % 2 ^ 32)) := by
  rw [State.bumpCounter, hpieces]

/-- An arrival counter in HBM takes one more, modulo 2^32. -/
theorem bumpCounter_takes {x a pa : Nat} {pages : SMap DWord} (hs : s.noStash) (hmem : s.memOk = true)
    (hpieces : s.heldPieces x pages a 4 = [(.hbm pa, 4)]) : HbmTakes s (s.bumpCounter tid x pages a) pa 4 (s.hbmNat pa 4 + 1) := by
  obtain ⟨hread, hwrote⟩ := heldUpdate_wrote (tid := tid) (bytesOfNat 4 ((s.hbmNat pa 4 + 1) % 2 ^ 32)) hs.1 (bytesOfNat_length _ _) hpieces
  rw [State.bumpCounter_hbm hpieces, hread, ← State.hbmNat]
  obtain ⟨htaken, hframe⟩ := hwrote.takes (State.memOk_hbm hmem)
  refine ⟨?_, hframe⟩
  rw [htaken, show 8 * 4 = 32 from rfl, Nat.mod_mod]

/-- A row whose place is one piece of HBM lands there, and nowhere else. -/
theorem landRows_lands {a pa : Nat} {bs : List Byte} (hs : s.noStash) (hmem : s.memOk = true)
    (hpieces : s.heldPieces tm.ctx k.pages a bs.length = [(.hbm pa, bs.length)]) :
    let u := s.landRows tid tm k none [(a, bs)]
    rdBytes u.hbm pa bs.length = bs ∧ ∀ y, ¬ Bytes pa bs.length y → rdByte u.hbm y = rdByte s.hbm y := by
  have hwrote := heldWrite_wrote (tid := tid) hs.1 hpieces
  have hwf := State.memOk_hbm hmem
  refine ⟨?_, fun y hy => ?_⟩
  · exact (congrArg (rdBytes · pa bs.length) hwrote.hbm).trans (rdBytes_wrBytes s.hbm pa bs hwf)
  · exact (congrArg (rdByte · y) hwrote.hbm).trans ((rdByte_wrBytes _ _ _ _ hwf).trans (if_neg (by exact hy)))

/-! ### The end of an RWAIT -/

/-- A split is found with its group changed elsewhere than in its splits. -/
theorem lookup?_modGroup {r : Ref} {c : Cur} {f : Group → Group} (hf : (f c.group).splits = c.group.splits) (hl : s.lookup? r = some c) :
    ∃ y, (s.modGroup r.team r.group f).lookup? r = some { c with team := y, group := f c.group } := by
  simp only [State.lookup?, Option.bind_eq_some_iff, Option.map_eq_some_iff] at hl
  obtain ⟨y, hy, g, hg, p, hp, rfl⟩ := hl
  refine ⟨{ y with groups := mmod y.groups r.group f }, ?_⟩
  simp only [State.lookup?, State.modGroup_teams, mget?_mmod, if_true, hy, Option.map_some, Option.bind_some, hg, hf, hp]

theorem State.modSplit_of_found {r : Ref} {c : Cur} {f : Split → Split} (hl : s.lookup? r = some c) :
    s.modSplit r f = s.put { c with split := f c.split } := by rw [State.modSplit, hl]

/-- A split that is found is found changed; of its group its place among the splits has changed. -/
theorem lookup?_modSplit {r : Ref} {c : Cur} {f : Split → Split} (hl : s.lookup? r = some c) :
    ∃ y m, (s.modSplit r f).lookup? r = some { c with team := y, group := { c.group with splits := m }, split := f c.split } := by
  have hput := lookup?_put s { c with split := f c.split }
  rw [State.modSplit_of_found hl]
  obtain rfl := lookup?_ref s r c hl
  exact ⟨_, _, hput⟩

/-- A predicate written with a value in every lane of a mask. -/
theorem preg_wrP_true (g : Group) (n pd l : Nat) (ls : Lanes) (hl : l < 64) :
    (g.wrP pd ls (BitVec.allOnes 64)).preg n l = if n = pd ∧ pd < 7 ∧ ls.getLsbD l = true then true else g.preg n l := by
  have hlane : (BitVec.allOnes 64).getLsbD l = true := by rw [BitVec.getLsbD_allOnes, decide_eq_true hl]
  by_cases hpd : pd ≥ 7
  · have hlow : ¬ pd < 7 := by omega
    simp [Group.wrP, hpd, hlow]
  · by_cases hn : n = pd
    · subst hn
      simp only [Group.wrP, Group.preg, if_neg hpd, mget_mput, if_true, true_and, Nat.lt_of_not_le hpd, BitVec.getLsbD_or,
        BitVec.getLsbD_and, BitVec.getLsbD_not, hl, decide_true, hlane, Bool.true_and]
      cases ls.getLsbD l <;> simp
    · simp [Group.wrP, Group.preg, mget_mput, hpd, hn, Ne.symm hn]

theorem Group.wrP_eq (g : Group) (pd : Nat) (ls v : Lanes) : ∃ p, g.wrP pd ls v = { g with p := p } := by
  rw [Group.wrP]
  split
  · exact ⟨g.p, rfl⟩
  · exact ⟨_, rfl⟩

/-- The state in which an RWAIT has ended with true, but for its command. -/
def State.waitOver (s : State) (r : Ref) (pd : Nat) (ls : Lanes) : State :=
  (s.modGroup r.team r.group fun g => g.wrP pd ls (BitVec.allOnes 64)).modSplit r Split.unparked

theorem State.endWait_true (s : State) (r : Ref) (id pd : Nat) (ls : Lanes) :
    s.endWait r id pd ls true = (s.waitOver r pd ls).cmdDone r.team id := rfl

/-- The split of an RWAIT that ends with true leaves its park with its predicate true in the lanes of the wait (R438). -/
theorem waitOver_spec {r : Ref} {c : Cur} (pd : Nat) (ls : Lanes) (hl : s.lookup? r = some c) :
    (s.waitOver r pd ls).hbm = s.hbm ∧ (s.waitOver r pd ls).cores = s.cores ∧ ∃ e, (s.waitOver r pd ls).lookup? r = some e ∧
      e.split = c.split.unparked ∧ e.group.s = c.group.s ∧ e.group.v = c.group.v ∧
      ∀ n l, l < 64 → e.group.preg n l = if n = pd ∧ pd < 7 ∧ ls.getLsbD l = true then true else c.group.preg n l := by
  obtain ⟨p, hp⟩ := c.group.wrP_eq pd ls (BitVec.allOnes 64)
  obtain ⟨y, hy⟩ := lookup?_modGroup (f := fun g => g.wrP pd ls (BitVec.allOnes 64)) (by simp only [hp]) hl
  obtain ⟨y', m, hy'⟩ := lookup?_modSplit (f := Split.unparked) hy
  have hput := State.modSplit_of_found (f := Split.unparked) hy
  refine ⟨?_, ?_, _, hy', rfl, ?_, ?_, fun n l hlane => preg_wrP_true c.group n pd l ls hlane⟩
  · rw [State.waitOver, hput]
    rfl
  · rw [State.waitOver, hput]
    rfl
  · simp only [hp]
  · simp only [hp]

/-- A wait for a counter in HBM goes on once the counter reads at least the target, with the L1 emptied, and else leaves all as it was. -/
theorem execRwaitSatisfied_hbm {r : Ref} {c : Cur} {id pa pd : Nat} {target : Word} {ls : Lanes} (hl : s.lookup? r = some c)
    (hpark : c.split.park = .rwait id) (hcmd : mget? c.team.cmds id = some q) (hkind : q.kind = .rwait (.hbm pa) target pd ls false)
    (hresident : c.team.status = .resident) (hrunning : c.group.halted = false) (hclear : c.team.clear id q.foot = true) :
    execRwaitSatisfied r s = .next (if target.toNat ≤ natOfBytes (s.engRead r.team (.hbm pa) 4).2
      then ((s.engRead r.team (.hbm pa) 4).1.l1Clear c.team.coreKey).endWait r id pd ls true
      else s.unask fun a => a.who = .cmd id && a.got.isSome) := by
  obtain ⟨kind, g, p, foot, begun, cause, vpns, closed⟩ := q
  subst hkind
  have hnone : s.needPeers (.cmd id) (some r.team) c.team.ctx [(.hbm pa, 4)] = none := by simp [State.needPeers, peerCuts]
  simp [execRwaitSatisfied, hl, hpark, hcmd, hresident, hrunning, hclear, hnone]

/-! ### A wrap -/

/-- A wrap that takes effect leaves its break, and in no ring engine a tile of a device that it affects (R288). -/
theorem execWrapEffect_spec {b : Break} (hdue : s.mgmt.due = some b) : ∃ t : State, execWrapEffect s = .next t ∧ t.mgmt.brk = some b ∧
    t.mgmt.due = none ∧ t.mgmt.hit = [] ∧ t.mgmt.falling = [] ∧ ∀ h ∈ t.tiles, ctxDevice h.ctx ∉ s.mgmt.hit := by
  have hreports (l : List (Nat × Context)) (w : State) : SameRecords w (l.foldl (fun s y => s.reportWrap y.1) w) :=
    foldl_sameRecords (fun v y => State.faultPush_sameRecords ..) l w
  rw [execWrapEffect, hdue]
  refine ⟨_, rfl, ?_⟩
  rw [(hreports _ _).mgmt, (hreports _ _).tiles]
  refine ⟨rfl, rfl, rfl, rfl, fun h hh => ?_⟩
  simpa using (List.mem_filter.mp hh).2

end Sys2Proof.Machine
end

section
open Sys2Proof Sys2Proof.Machine

/-- Settles O48: a tile of a local source by `State.readTile_local`, a counter and a row by `heldUpdate_wrote` and `heldWrite_wrote`, the end
of an RWAIT by `endWait_spec`. -/
theorem ringEventsComplete : Obligations.RingEventsComplete := by
  unfold Obligations.RingEventsComplete
  refine ⟨fun s cmd tile tid tm q k hring hbegun hleft hteam hcmd => ⟨?accept, ?arrive, ?waits⟩,
    fun s tid x a pa pages hs hmem hpieces => bumpCounter_takes hs hmem hpieces,
    fun s tid x a pa pages bs tm k hs hmem hpages hctx hpieces => ?rows, ?rwait, fun s b hdue => execWrapEffect_spec hdue⟩
  case accept =>
    intro hop hheld hloc hstatus
    rw [exec_ringTileAccept, execRingTileAccept_local hring hbegun hleft hop hheld hloc hstatus]
    obtain ⟨t', q', hteam', hcmd', hkind'⟩ := State.modRing_found (f := RingCmd.holding tile _) hteam hcmd (State.ringOfCmd_kind hring)
    exact ⟨_, t', q', _, rfl, ⟨fun _ => rfl, fun _ _ => rfl⟩, hteam', hcmd', hkind', rfl, mget?_mput_self ..⟩
  case arrive =>
    intro s₁ rows hasks hlanding hdloc
    simp only [exec_ringTileArrive, execRingTileArrive, hring, hbegun, hleft, hasks, hlanding, State.deliverTo, hdloc]
    simp
  case waits =>
    intro hasks hlanding
    simp only [exec_ringTileArrive, execRingTileArrive, hring, hbegun, hleft, hasks, hlanding]
    simp
  case rows =>
    subst hpages hctx
    exact landRows_lands hs hmem hpieces
  case rwait =>
    intro s r c id pa pd target ls q hl hpark hcmd hkind hresident hrunning hclear hs
    obtain ⟨o, v, hread⟩ := engRead_hbm hs.1 r.team pa 4
    rw [exec_rwaitSatisfied, execRwaitSatisfied_hbm hl hpark hcmd hkind hresident hrunning hclear, hread, ← State.hbmNat]
    refine ⟨fun hmet => ?_, fun hunmet hasks => ?_⟩
    · obtain ⟨hhbm, hcores, e, he, hsplit, hs', hv, hp⟩ := waitOver_spec (s := (({ s with owned := o, views := v } : State).l1Clear c.team.coreKey))
        (c := c) (r := r) pd ls hl
      have hmemory := State.l1Clear_sameMemory { s with owned := o, views := v } c.team.coreKey
      refine ⟨_, e, by rw [if_pos hmet, State.endWait_true], ⟨fun a => ?_, fun j a => ?_⟩, ?_, he, hsplit, hs', hv, hp⟩
      · rw [hhbm]
        exact hmemory.1 a
      · rw [State.core, hcores]
        exact hmemory.2 j a
      · rw [State.core, hcores]
        exact State.l1Clear_l1 _ _
    · rw [if_neg (Nat.not_le.mpr hunmet), unask_eq_self fun a ha => by simp [hasks a ha]]

end

section
/-! PROOFS. Ring instructions (R278 to R285, R429, R436 to R438): a ring command at its issue, once its descriptor has been read, and
RWAIT and RRANK. -/
namespace Sys2Proof.Machine

set_option maxRecDepth 3000

variable {s s₁ : State} {c : Cur} {f : FmtE} {i : Instr} {op : RingOp}

/-! ### Reading a descriptor -/

/-- The state after engine reads: the lines that L1s own, the views of the cores and the free values taken have moved. -/
def State.readPast (s : State) (o : SMap Nat) (v : List View) (n : Nat) : State := { s with owned := o, views := v, free := n }

/-- An engine reads a piece wherever it lies. -/
theorem engRead_past (hs : s.noLines) (tid : Nat) (p : Place) (n : Nat) : ∃ o v m, (s.engRead tid p n).1 = s.readPast o v m := by
  cases p with
  | hbm pa =>
    obtain ⟨o, v, hread⟩ := engRead_hbm hs tid pa n
    exact ⟨o, v, s.free, congrArg Prod.fst hread⟩
  | arr off => exact ⟨_, _, _, rfl⟩
  | peer pkg off =>
    dsimp only [State.engRead]
    split
    · exact ⟨_, _, _, rfl⟩
    · exact ⟨_, _, _, rfl⟩

/-- What a command reads at its issue leaves the teams, the contexts, the dies and every byte as they are. -/
theorem issueRead_past {a n : Nat} {b : List Byte} (hs : s.noLines) (h : s.issueRead c a n = .ok (s₁, b)) : ∃ o v m, s₁ = s.readPast o v m := by
  rw [State.issueRead] at h
  split at h
  · cases h
  next ps _ =>
    have hfold := List.foldlRecOn (motive := fun z : State × List Byte => ∃ o v m, z.1 = s.readPast o v m) ps.flatten
      (fun (acc : State × List Byte) p =>
        let r := acc.1.engRead c.ref.team p.1 p.2
        (r.1, acc.2 ++ r.2)) (b := (s, [])) ⟨_, _, _, rfl⟩ (by
        rintro ⟨_, _⟩ ⟨o, v, m, rfl⟩ p -
        exact engRead_past (s := s.readPast o v m) hs c.ref.team p.1 p.2)
    rwa [Except.ok.inj h] at hfold

/-- The acting split is found again in a state of the same teams. -/
theorem again_of_teams (hc : s.cur? = some c) (h : s₁.teams = s.teams) : s₁.again c = c := by
  rw [State.again, lookup?_of_teams h, cur?_lookup s c hc, Option.getD_some]

/-! ### A ring command -/

/-- The command that a ring instruction issues (R429), before its pages are known. -/
def Cur.ringCmd (c : Cur) (op : RingOp) (a : Nat) (d : RingDesc) (ms : List Nat) (rank target : Nat) : RingCmd :=
  { op := op, d := d, desc := a, count := mget 0 c.team.issues a, die := c.team.die, members := ms, rank := rank
    target := target, rnd := c.split.fmtRnd, sat := c.split.fmtSat, pages := [], left := [] }

/-- The member that a ring command names: only RHND names one. -/
def Cur.ringTarget (c : Cur) (op : RingOp) (f : FmtE) : Nat := if op = .rhnd then (c.rdS f.s1.toNat).toNat else 0

/-- A split with a command more on its counter and in its team's list, and its team's counts on descriptors changed. -/
def Cur.listed (c : Cur) (x : Ctr) (id : Nat) (q : Cmd) (issues : SMap Nat) : Cur :=
  { c with split := (c.count x id).split, team := { c.team with cmds := mput c.team.cmds id q, issues := issues } }

theorem listed_posted {x : Ctr} {q : Cmd} (issues : SMap Nat) (hg : q.group = c.ref.group) (hp : q.split = c.ref.split) :
    ∃ e, Posted s (s.fresh.1.put (c.listed x s.nextId q issues)) c e x q ∧ e.team.issues = issues ∧ OnlyCounts c e ∧ SameRegisters c.group e.group := by
  have hposted := posted_put (s := s) (c := { c with team := { c.team with issues := issues } }) (e := c.listed x s.nextId q issues)
    rfl rfl rfl rfl hg hp
  exact ⟨_, hposted, rfl, rfl, ⟨rfl, rfl, rfl, rfl⟩⟩

/-- A ring command with every tile of its own still to be done. -/
def RingCmd.toDo (k : RingCmd) : RingCmd := { k with left := k.tiles }

/-- A ring command with the leaves of the pages that it touches (R184). -/
def State.paged (s : State) (c : Cur) (k : RingCmd) : RingCmd := { k with pages := s.leaves c (k.ranges.filter fun r => !r.loc) }

/-- The entry of a ring command that has not begun. -/
def Cur.ringEntry (c : Cur) (i : Instr) (id : Nat) (k : RingCmd) (foot : List Foot) : Cmd :=
  { c.cmd (.ring k) foot false with vpns := k.pages.map (·.1), cause := some (i, (c.count .enc id).split) }

section
variable {dp : List (List (Place × Nat))} {b : List Byte} (hc : s.cur? = some c) (ha : c.acts f.com = true)
  (hal : (c.rdPair f.s0.toNat).toNat % 128 = 0)
  (hdp : s.engRanges c [⟨false, (c.rdPair f.s0.toNat).toNat, 128, { rd := true }⟩] = .ok dp)
  (hread : s.issueRead c (c.rdPair f.s0.toNat).toNat 128 = .ok (s₁, b)) (hteams : s₁.teams = s.teams)
include hc ha hal hdp hread hteams

/-- A die that is no member raises ILLOP with reason 10. -/
theorem ringIssue_outsider (hrank : rankIn (s₁.ringMembers (ctxDevice c.team.ctx) (ringDescOf b)) c.team.die = none) :
    ringIssue i f op s = .next (s₁.illop c 10) := by
  rw [ringIssue, onSplit_eq s c _ hc]
  simp only [ha, hal, hdp, hread, again_of_teams hc hteams, hrank, Bool.not_true, Bool.false_eq_true, if_false, ne_eq, not_true_eq_false]

variable {rank : Nat} (hrank : rankIn (s₁.ringMembers (ctxDevice c.team.ctx) (ringDescOf b)) c.team.die = some rank)
include hrank

/-- So does a descriptor that is not legal, or a target that is no member. -/
theorem ringIssue_illegal (hbad : ringDescOk b op = false ∨ (s₁.ringMembers (ctxDevice c.team.ctx) (ringDescOf b)).length ≤ c.ringTarget op f) :
    ringIssue i f op s = .next (s₁.illop c 10) := by
  have hbad' : (!ringDescOk b op || decide ((s₁.ringMembers (ctxDevice c.team.ctx) (ringDescOf b)).length ≤ c.ringTarget op f)) = true := by
    simpa using hbad
  rw [Cur.ringTarget] at hbad'
  rw [ringIssue, onSplit_eq s c _ hc]
  simp only [ha, hal, hdp, hread, again_of_teams hc hteams, hrank, hbad', Bool.not_true, Bool.false_eq_true, if_false, ne_eq, not_true_eq_false,
    if_true]

/-- With a legal descriptor and every range translated the command is listed, and its team's count on the descriptor rises. -/
theorem ringIssue_issues {ps : List (List (Place × Nat))} {k : RingCmd} (hi : i.counter = some .enc) (hok : ringDescOk b op = true)
    (htarget : c.ringTarget op f < (s₁.ringMembers (ctxDevice c.team.ctx) (ringDescOf b)).length)
    (hk : k = (c.ringCmd op (c.rdPair f.s0.toNat).toNat (ringDescOf b) (s₁.ringMembers (ctxDevice c.team.ctx) (ringDescOf b)) rank
      (c.ringTarget op f)).toDo)
    (hranges : s₁.engRanges c k.ranges = .ok ps) :
    ringIssue i f op s = .next ((s₁.fresh.1.put (c.listed .enc s₁.nextId
      (c.ringEntry i s₁.nextId (s₁.paged c k) (ringFoot dp.flatten k.ranges))
      (mput c.team.issues (c.rdPair f.s0.toNat).toNat (k.count + 1)))).modTeam c.ref.team fun t => t.startCopy s₁.nextId) := by
  have hgood : (!ringDescOk b op || decide ((s₁.ringMembers (ctxDevice c.team.ctx) (ringDescOf b)).length ≤ c.ringTarget op f)) = false := by
    simp [hok, htarget]
  rw [Cur.ringTarget] at hgood hk
  subst hk
  rw [Cur.ringCmd, RingCmd.toDo] at hranges
  rw [ringIssue, onSplit_eq s c _ hc]
  simp only [ha, hal, hdp, hread, again_of_teams hc hteams, hrank, hgood, hranges, Cur.command_eq hi, Bool.not_true, Bool.false_eq_true,
    if_false, ne_eq, not_true_eq_false]
  rfl

end

/-- The three ring commands are issued alike, and counted on ENC. -/
theorem exec_ringIssue (h : (i, op) ∈ [(Instr.rag f, RingOp.rag), (.rrs f, .rrs), (.rhnd f, .rhnd)]) :
    exec i s = ringIssue i f op s ∧ i.counter = some .enc := by
  simp only [List.mem_cons, Prod.mk.injEq, List.not_mem_nil, or_false] at h
  rcases h with ⟨rfl, rfl⟩ | ⟨rfl, rfl⟩ | ⟨rfl, rfl⟩
  · exact ⟨rfl, rfl⟩
  · exact ⟨rfl, rfl⟩
  · exact ⟨rfl, rfl⟩

/-! ### RWAIT and RRANK -/

/-- The entry of an RWAIT, whose counter lies at `p`. -/
def Cur.rwaitEntry (c : Cur) (f : FmtE) (p : Place) : Cmd :=
  { c.cmd (.rwait p (c.rdS f.s1.toNat) (f.flg.toNat % 8) (c.pass f.com) false) (footOf false [(p, 4)]) false with
    vpns := vpages (c.rdPair f.s0.toNat).toNat 4 }

theorem exec_rwait_eq {p : Place} (hc : s.cur? = some c) (ha : c.acts f.com = true) (hal : (c.rdPair f.s0.toNat).toNat % 4 = 0)
    (hwin : c.team.winOf (c.rdPair f.s0.toNat).toNat = none)
    (hrange : s.engRanges c [⟨false, (c.rdPair f.s0.toNat).toNat, 4, { rd := true }⟩] = .ok [[(p, 4)]]) :
    exec (.rwait f) s = .next (s.fresh.1.put ((c.command (.rwait f) s.nextId (c.rwaitEntry f p)).waiting (.rwait s.nextId))) := by
  rw [exec_rwait, execRwait, onSplit_eq s c _ hc]
  simp only [ha, hal, hwin, hrange, Bool.not_true, Bool.false_eq_true, if_false, ne_eq, not_true_eq_false, Option.isSome_none,
    List.flatten_cons, List.flatten_nil, List.append_nil, List.getElem?_cons_zero, Option.map_some, Option.getD_some, Cur.waiting, Cur.rwaitEntry,
    State.fresh]

/-- RWAIT of a counter that translates ends its clause and waits (R437). -/
theorem exec_rwait_waits {p : Place} (hc : s.cur? = some c) (ha : c.acts f.com = true) (hal : (c.rdPair f.s0.toNat).toNat % 4 = 0)
    (hwin : c.team.winOf (c.rdPair f.s0.toNat).toNat = none)
    (hrange : s.engRanges c [⟨false, (c.rdPair f.s0.toNat).toNat, 4, { rd := true }⟩] = .ok [[(p, 4)]]) :
    ∃ (t : State) (e : Cur) (q : Cmd), exec (.rwait f) s = .next t ∧ Posted s t c e .enc q ∧
      q.kind = .rwait p (c.rdS f.s1.toNat) (f.flg.toNat % 8) (c.pass f.com) false ∧ Waits c e (.rwait s.nextId) := by
  obtain ⟨e, q, hposted, hkind, hwaits⟩ := waiting_posted (s := s) (c := c) (b := c) (i := .rwait f) (x := .enc) (p := .rwait s.nextId)
    (k := c.rwaitEntry f p) rfl rfl rfl rfl
  exact ⟨_, e, q, exec_rwait_eq hc ha hal hwin hrange, hposted, hkind, hwaits⟩

theorem exec_rwait_misaligned (hc : s.cur? = some c) (ha : c.acts f.com = true) (hal : (c.rdPair f.s0.toNat).toNat % 4 ≠ 0) :
    exec (.rwait f) s = .next (s.alignAt c) := by
  rw [exec_rwait, execRwait, onSplit_eq s c _ hc]
  simp only [ha, Bool.not_true, Bool.false_eq_true, if_false, ne_eq, hal, not_false_eq_true, if_true]

/-- RRANK leaves its pair to its completion (R436). -/
theorem exec_rrank_posted (hc : s.cur? = some c) (ha : c.acts f.com = true) :
    ∃ (t : State) (e : Cur) (q : Cmd), exec (.rrank f) s = .next t ∧ Posted s t c e .enc q ∧ q.kind = .rrank f.s0.toNat ∧
      e.split = { c.split with ctrs := e.split.ctrs, pend := e.split.pend } ∧ SameRegisters c.group e.group := by
  obtain ⟨pend, hdefer, -⟩ := deferI_spec c (.rrank f) s.nextId false
  obtain ⟨e, q, hposted, hkind, -, hgroup, hsplit⟩ := command_posted (s := s) (c := c) (e := c.deferI (.rrank f) s.nextId false) (i := .rrank f)
    (x := .enc) (k := (c.deferI (.rrank f) s.nextId false).cmd (.rrank f.s0.toNat) [] true) rfl (by rw [hdefer]) (by rw [hdefer]) (by rw [hdefer])
    (by rw [hdefer]) (by rw [hdefer]; rfl) (by rw [hdefer]; rfl)
  refine ⟨_, e, q, ?_, hposted, hkind, ?_, ?_⟩
  · rw [exec_rrank, execRrank, onSplit_eq s c _ hc]
    simp only [ha, Bool.not_true, Bool.false_eq_true, if_false]
    rfl
  · rw [hsplit, hdefer]
  · rw [hdefer] at hgroup
    exact sameRegisters_of_splits hgroup

/-- A group of a team that is listed, changed. -/
theorem groupBecomes_modGroup {team g : Nat} {tm : Team} {gr : Group} (F : Group → Group) (hteam : mget? s.teams team = some tm)
    (hgroup : mget? tm.groups g = some gr) : GroupBecomes s (s.modGroup team g F) team g (F gr) := by
  refine ⟨tm, { tm with groups := mmod tm.groups g F }, hteam, ?_, rfl, ?_, fun j hj => ?_, fun j hj => ?_⟩
  · rw [State.modGroup_teams, mget?_mmod, if_pos rfl, hteam]
    rfl
  · simp only [mget?_mmod, if_true, hgroup, Option.map_some]
  · simp only [mget?_mmod, if_neg (Ne.symm hj)]
  · rw [State.modGroup_teams, mget?_mmod, if_neg (Ne.symm hj)]

/-- The completion of RRANK: the rank, and above it the ring's size. -/
def Group.ranked (reg rank size : Nat) (g : Group) : Group := (g.wrS reg (BitVec.ofNat 32 rank)).wrS (reg + 1) (BitVec.ofNat 32 size)

theorem Group.sreg_ranked (g : Group) (reg rank size : Nat) :
    (g.ranked reg rank size).sreg (reg + 1) = BitVec.ofNat 32 size ∧ (g.ranked reg rank size).sreg reg = BitVec.ofNat 32 rank ∧
      ∀ n, n ≠ reg → n ≠ reg + 1 → (g.ranked reg rank size).sreg n = g.sreg n := by
  refine ⟨?_, ?_, fun n hn hn' => ?_⟩
  · rw [Group.ranked, Group.sreg_wrS, if_pos rfl]
  · rw [Group.ranked, Group.sreg_wrS, if_neg (Nat.succ_ne_self reg), Group.sreg_wrS, if_pos rfl]
  · rw [Group.ranked, Group.sreg_wrS, if_neg (Ne.symm hn'), Group.sreg_wrS, if_neg (Ne.symm hn)]

theorem exec_rrank_completes {team cmd reg : Nat} {tm : Team} {k : Cmd} {g : Group} (hteam : mget? s.teams team = some tm)
    (hcmd : mget? tm.cmds cmd = some k) (hkind : k.kind = .rrank reg) (hgroup : mget? tm.groups k.group = some g) :
    ∃ (u : State) (g' : Group), exec (.engineCommandComplete team cmd) s = .next (u.cmdDone team cmd) ∧ GroupBecomes s u team k.group g' ∧
      g' = g.landS k.split [reg, reg + 1] (Group.ranked reg ((rankIn (s.ringOf (ctxDevice tm.ctx)) tm.die).getD 0) (s.ringOf (ctxDevice tm.ctx)).length) := by
  refine ⟨_, _, ?_, groupBecomes_modGroup (fun g => g.landS k.split [reg, reg + 1] (Group.ranked reg
    ((rankIn (s.ringOf (ctxDevice tm.ctx)) tm.die).getD 0) (s.ringOf (ctxDevice tm.ctx)).length)) hteam hgroup, rfl⟩
  obtain ⟨kind, gi, p, foot, begun, cause, vpns, closed⟩ := k
  subst hkind
  simp only [exec_engineCommandComplete, execEngineCommandComplete, hteam, hcmd, Option.bind_some, Option.map_some]
  rfl

end Sys2Proof.Machine
end

section
open Sys2Proof Sys2Proof.Machine

/-- Settles O47: the descriptor's read leaves the teams as they are (`issueRead_past`), so that a ring command is issued by
`ringIssue_issues` and listed by `listed_posted`. -/
theorem ringInstructionsComplete : Obligations.RingInstructionsComplete := by
  unfold Obligations.RingInstructionsComplete
  intro s c f hc ha hs a
  refine ⟨fun i op hop dp s₁ b hal hdp hread => ?ring, fun p hal hwin hrange => exec_rwait_waits hc ha hal hwin hrange,
    exec_rwait_misaligned hc ha, exec_rrank_posted hc ha, ?complete⟩
  case ring =>
    intro d ms target
    obtain ⟨o, v, m, rfl⟩ := issueRead_past hs.1 hread
    obtain ⟨hexec, hi⟩ := exec_ringIssue hop
    refine ⟨fun hrank => ?outsider, fun rank hrank hbad => ?illegal, fun rank k ps hrank hok htarget hk hranges => ?issued⟩
    case outsider => rw [hexec, ringIssue_outsider hc ha hal hdp hread rfl hrank]
    case illegal => rw [hexec, ringIssue_illegal hc ha hal hdp hread rfl hrank hbad]
    case issued =>
      have htoDo : ({ k with left := k.tiles } : RingCmd) = (c.ringCmd op a d ms rank target).toDo := by rw [hk]; rfl
      have hissue := ringIssue_issues hc ha hal hdp hread rfl hrank hi hok htarget htoDo hranges
      obtain ⟨e, hposted, hissues, hcounts, hregs⟩ := listed_posted (s := s.readPast o v m) (c := c) (x := .enc)
        (q := c.ringEntry i s.nextId ((s.readPast o v m).paged c { k with left := k.tiles })
          (ringFoot dp.flatten ({ k with left := k.tiles } : RingCmd).ranges))
        (mput c.team.issues a (k.count + 1)) rfl rfl
      refine ⟨_, e, _, _, hexec.trans hissue, hposted, rfl, rfl, rfl, ?_, hcounts, hregs⟩
      rw [hissues, mget_mput, if_pos rfl, hk]
  case complete =>
    intro team cmd reg tm k g hteam hcmd hkind hgroup
    obtain ⟨u, g', hexec, hbecomes, rfl⟩ := exec_rrank_completes hteam hcmd hkind hgroup
    obtain ⟨hsize, hrank, hother⟩ := g.sreg_ranked reg ((rankIn (s.ringOf (ctxDevice tm.ctx)) tm.die).getD 0) (s.ringOf (ctxDevice tm.ctx)).length
    exact ⟨u, _, hexec, hbecomes, hsize, hrank, hother, rfl, rfl⟩

end
